-- ==== Sys2Proof/Word.lean ====
section
/-! DEFINITION. The bit vectors the FA412 itself handles as bits: bytes, and the 16 and 32 bit window fields. -/

namespace Sys2Proof

/-- One byte of the array, the window or a frame. -/
abbrev Byte := BitVec 8
/-- A 16-bit field or check (R16, R180). -/
abbrev Half := BitVec 16
/-- A 32-bit field (R180). -/
abbrev Word := BitVec 32

/-- What an erased byte holds (R2). -/
abbrev erasedByte : Byte := 0xFF

end Sys2Proof
end

