-- ==== Sys2Proof/Syntax.lean ====
section
/-! DEFINITION. The commands of the FA412: one constructor of `Instr` per row of spec/opcode_table.json, with its operands. -/

namespace Sys2Proof

/-- The four master ports (chapter Master Ports). -/
inductive Port where
  | a | b | c | d
deriving DecidableEq, Repr

/-- The eight requester interfaces of the Array Controller (section 2.2). -/
inductive Requester where
  | port (p : Port)
  | writer
  | engine
  | policy
  | mount
deriving DecidableEq, Repr

/-- The four array operations with what each names (R1, R19). -/
inductive ArrayOp where
  | read (first count : Nat)
  | program (cell : Nat) (bytes : List Byte)
  | erase
  | blankCheck
deriving DecidableEq, Repr

/-- A request: requester, segment and operation (R19). -/
structure Request where
  who : Requester
  seg : Nat
  op  : ArrayOp
deriving DecidableEq, Repr

/-- What happens on a port's link (R167): CS_N falls, eight bits are shifted, CS_N rises; `frame` is a whole
frame of the bytes given. A byte of fewer than eight bits is discarded, so it is no event. -/
inductive LinkEvent where
  | select
  | shift (b : Byte)
  | deselect
  | frame (bytes : List Byte)
deriving DecidableEq, Repr

/-- What the medium makes of an abandoned operation (R2, R17): the target bits an abandoned PROGRAM leaves at 1,
byte by byte, and the bits an abandoned ERASE leaves at their former value, by offset in the segment. -/
structure Torn where
  program : List Byte
  erase   : List (Nat × Byte)
deriving DecidableEq, Repr

/-- How an ERASE ends (R23): whether the array reports that it did not complete, and the bits left at their
former value. -/
structure EraseEnd where
  incomplete : Bool
  kept       : List (Nat × Byte)
deriving DecidableEq, Repr

/-- How the operation in progress ends, with what the medium makes of it (R21 to R24). -/
inductive Ending where
  | read
  | program (stuck : List Byte)
  | erase (e : EraseEnd)
  | blankCheck
deriving DecidableEq, Repr

/-- The presentation of a request: by itself, or together with a completion and just after it (R19, R25, log 51). -/
structure Presentation where
  req   : Request
  after : Option Ending
deriving DecidableEq, Repr

/-- The units that post notices (section 9.3). -/
inductive Poster where
  | index | writer | engine | txn | policy | mount
deriving DecidableEq, Repr

/-- The commands: one constructor per row of the table, in the table's order. -/
inductive Instr where
  | powerOn (torn : Torn)
  | powerLoss (torn : Torn)
  | resetNAssert (torn : Torn)
  | resetNRelease
  | resultPost (p : Port)
  | windowWrite (p : Port) (e : LinkEvent)
  | attentionEnables (p : Port) (value : Byte)
  | ack (p : Port)
  | cancel (p : Port)
  | portReset (p : Port)
  | unknownCommand (p : Port) (code : Byte)
  | read (p : Port)
  | stat (p : Port)
  | list (p : Port)
  | write (p : Port)
  | delete (p : Port)
  | begin (p : Port)
  | stageWrite (p : Port)
  | stageDelete (p : Port)
  | commit (p : Port)
  | abort (p : Port)
  | renew (p : Port)
  | bind (p : Port)
  | watch (p : Port)
  | unwatch (p : Port)
  | noticePop (p : Port)
  | freeze (p : Port)
  | policyRead (p : Port)
  | policyLoad (p : Port)
  | policyCommit (p : Port)
  | policyDiscard (p : Port)
  | reclaim (p : Port)
  | info (p : Port)
  | arrayRequest (r : Presentation)
  | arrayReadDone
  | arrayProgramDone (stuck : List Byte)
  | arrayEraseDone (e : EraseEnd)
  | arrayBlankCheckDone
  | lookup
  | range
  | pin
  | unpin
  | charge
  | release
  | switch
  | commitSwitch
  | copySwitch
  | report
  | allocate
  | opened
  | close
  | prepared
  | noVictim
  | numberQuery
  | sweep
  | loss
  | reclaiming
  | erased
  | memberReport
  | memberQuery
  | memberMove
  | leaseWarning (p : Port)
  | leaseExpiry (p : Port)
  | claimWaitExpiry (p : Port)
  | lockEvent
  | revocationEvent
  | watchRemoval
  | changeReport
  | noticePost (u : Poster)
  | passStart
  | writerClearance
  | victimErase
deriving DecidableEq, Repr

end Sys2Proof
end

