-- ==== Sys2Proof/Machine/Bytes.lean ====
section
/-! DEFINITION. Byte order (R180) and the check (R16). -/

namespace Sys2Proof.Machine

/-- A field of bytes read most significant byte first (R180). -/
def ofBytes (bs : List Byte) : Nat := bs.foldl (fun acc b => acc * 256 + b.toNat) 0

/-- The `n` bytes of a field, most significant first (R180). -/
def toBytes : Nat → Nat → List Byte
  | 0, _ => []
  | n + 1, v => BitVec.ofNat 8 (v / 256 ^ n) :: toBytes n v

/-- One shift of the check register (R16). -/
def crcShift (r : Half) : Half :=
  if r.msb then (r <<< 1) ^^^ 0x1021 else r <<< 1

/-- One byte taken into the check register: into the upper eight bits, then eight shifts (R16). -/
def crcByte (r : Half) (b : Byte) : Half :=
  Nat.repeat crcShift 8 (r ^^^ (b.zeroExtend 16 <<< 8))

/-- The check over some bytes in stored order (R16). -/
def crc (bs : List Byte) : Nat := (bs.foldl crcByte 0xFFFF).toNat

/-- `n` bytes of a list from offset `i`, bytes beyond its end reading as erased. -/
def slice (bs : List Byte) (i n : Nat) : List Byte :=
  (List.range n).map (fun k => bs.getD (i + k) erasedByte)

/-- A field of `n` bytes at offset `i`. -/
def field (bs : List Byte) (i n : Nat) : Nat := ofBytes (slice bs i n)

/-- All bytes erased (R2). -/
def allErased (bs : List Byte) : Bool := bs.all (fun b => b == erasedByte)

/-- A count that stays at its limit. -/
def saturate (limit n : Nat) : Nat := min limit (n + 1)

end Sys2Proof.Machine
end

