-- ==== Sys2Proof/Config.lean ====
section
/-! DEFINITION. What the spec fixes for the part as constants, and the values it leaves open as free values. -/

namespace Sys2Proof.Config

/-- Segments 2 to 63 are data segments (R1). -/
abbrev firstData : Nat := 2
/-- The number of data segments (R1). -/
abbrev dataSegments : Nat := 62
/-- Bytes of a segment (R1). -/
abbrev segmentBytes : Nat := 2048
/-- Bytes of a cell (R1). -/
abbrev cellBytes : Nat := 16
/-- Cells of a segment (R1). -/
abbrev cells : Nat := 128
/-- Index slots (R40). -/
abbrev indexSlots : Nat := 1024
/-- G at which no new record is written (R57). -/
abbrev generationLimit : Nat := 4294967294
/-- The erase count stays here (R9). -/
abbrev eraseCountMax : Nat := 16777215
/-- Quarter units of 2.5 ms in a unit of 10 ms (log 2). -/
abbrev ticksPerUnit : Nat := 4

/-- FREE VALUE (log 16): whether mount keeps the record in the first segment named over one of equal generation
in the second, where neither segment is RECLAIMING; R129 gives the choice only where one of them is. -/
opaque keepsFirst : Nat → Nat → Bool

/-- FREE VALUE (log 25): the least erase count INFO reports when every data segment is BAD, by the erase counts of
the segment table (R9 names none). -/
opaque noLeastErase : List Nat → Nat
/-- FREE VALUE (log 25): the greatest erase count INFO reports when every data segment is BAD. -/
opaque noGreatestErase : List Nat → Nat

end Sys2Proof.Config
end

