-- ==== Sys2Proof/Machine/State.lean ====
section
/-! DEFINITION. The state of the FA412 as plain data: the array, the Array Controller, every unit's tables, the
pins, and the queue of commands that wait. Each structure is one table "State held by" of the spec. -/

namespace Sys2Proof.Machine

/-! ## Common pieces -/

/-- One item for each port (chapter Master Ports: the four ports are identical). -/
structure Four (α : Type) where
  a : α
  b : α
  c : α
  d : α
deriving DecidableEq, Repr

/-- The array contents: byte address and byte, addresses strictly rising, no entry equal to what an unlisted
address reads as (`Memory.wf`). -/
abbrev Memory := List Host.Cell

/-- A location: segment and cell (R1). -/
structure Location where
  seg  : Nat
  cell : Nat
deriving DecidableEq, Repr

/-- Record kinds (R11). -/
inductive RecordKind where
  | data | tombstone | commit
deriving DecidableEq, Repr

/-- Record states in their order (R13). -/
inductive RecordState where
  | free | opened | written | live | retired
deriving DecidableEq, Repr

/-- Segment states (section 1.4). -/
inductive SegState where
  | blank | prepared | active | full | reclaiming | bad | dirty
deriving DecidableEq, Repr

/-- A record header as its sixteen bytes give it (section 11.1). -/
structure Header where
  status   : Byte
  kind     : Nat
  part     : Nat
  length   : Nat
  key      : Nat
  txn      : Nat
  gen      : Nat
  payCheck : Nat
  hdrCheck : Nat
deriving DecidableEq, Repr

/-- An array interface of a requester (R19): the request its unit wants, and whether it has been presented. -/
structure Io where
  want      : Option Request
  presented : Bool
deriving DecidableEq, Repr

/-! ## Array Controller (section 2.1) -/

/-- An accepted request with its arrival order (R26). -/
structure Queued where
  order : Nat
  req   : Request
deriving DecidableEq, Repr

/-- Outcomes of the five rows of the table in section 2.3. -/
inductive ArrayOutcome where
  | done | verified | verifyFailed | erased | eraseFailed | blank | notBlank | rejected
deriving DecidableEq, Repr

/-- A completion as it reaches a requester's interface (R25): the request, the outcome and the bytes read. -/
structure Completion where
  req     : Request
  outcome : ArrayOutcome
  bytes   : List Byte
deriving DecidableEq, Repr

/-- The Array Controller. While an erase is SUSPENDED it stands in `suspended`, and `running` is the READ the
suspension serves. -/
structure ArrayController where
  queue        : List Queued
  arrivals     : Nat
  running      : Option Queued
  suspended    : Option Queued
  suspendCount : Nat
  grantCount   : Nat
  held         : List Queued
  delivered    : Option Completion
deriving DecidableEq, Repr

/-! ## Policy Unit (section 8.1) -/

/-- Rights of a port on a partition; WRITE includes READ (section 8.2). -/
inductive Right where
  | none | read | write
deriving DecidableEq, Repr

/-- Partition entry (section 8.2). -/
structure PartEntry where
  enabled : Bool
  fixed   : Bool
  quota   : Nat
  lease   : Nat
  rights  : Four Right
deriving DecidableEq, Repr

/-- Port entry (section 8.2); a default view slot is a partition, or none for UNBOUND. -/
structure PortEntry where
  authority   : Bool
  waitLimit   : Nat
  defaultView : Four (Option Nat)
deriving DecidableEq, Repr

/-- The policy shadow (R139). -/
structure Shadow where
  parts    : List PartEntry
  ports    : Four PortEntry
  lowWater : Nat
  seq      : Nat
deriving DecidableEq, Repr

inductive PolicySource where
  | loaded | defaulted
deriving DecidableEq, Repr

/-- Lock levels (R146). -/
inductive LockLevel where
  | opened | frozen | fixed
deriving DecidableEq, Repr

/-- Where the write sequence of R152 stands; `tries` counts the presentations of this request. -/
inductive WriteStep where
  | erase (tries : Nat)
  | cell (n tries : Nat)
  | valid (tries : Nat)
deriving DecidableEq, Repr

/-- The write sequence in hand: target, image, step, and what a port reset asked of it (R155). -/
structure WriteSeq where
  target   : Nat
  image    : List Byte
  step     : WriteStep
  stopping : Bool
  noResult : Bool
deriving DecidableEq, Repr

/-- The edit session (R148). -/
inductive Session where
  | none
  | opened (owner : Port) (staged : List Byte)
  | committing (owner : Port) (staged : List Byte) (w : WriteSeq)
deriving DecidableEq, Repr

/-- The Policy Unit. A view slot is a partition, or none for UNBOUND (R144). -/
structure PolicyUnit where
  shadow  : Shadow
  source  : PolicySource
  inForce : Option Nat
  session : Session
  views   : Four (Four (Option Nat))
  locks   : List LockLevel
  io      : Io
deriving DecidableEq, Repr

/-! ## Transaction Manager (section 5.1) -/

/-- Slot states (R74); `opened` is OPEN. -/
inductive SlotState where
  | none | waiting | opened | committing | aborting | ended
deriving DecidableEq, Repr

/-- Why an abort the holder did not ask for took place. -/
inductive EndReason where
  | expired | locked | revoked
deriving DecidableEq, Repr

/-- What a change does to its key. -/
inductive ChangeOp where
  | write | delete
deriving DecidableEq, Repr

/-- Member entry; `sealed` is set from the request for a TOMBSTONE's location before its retire (R67). -/
structure Member where
  key    : Nat
  op     : ChangeOp
  length : Nat
  gen    : Nat
  loc    : Location
  cells  : Nat
  isSealed : Bool
deriving DecidableEq, Repr

/-- A running lease (R82), in ticks of the clock. -/
structure Lease where
  deadline : Nat
  warnAt   : Nat
  armed    : Bool
deriving DecidableEq, Repr

/-- The 22 commands of a port (section 11.3). -/
inductive Cmd where
  | read | stat | list | write | delete | begin | stageWrite | stageDelete | commit | abort | renew
  | bind | freeze | watch | unwatch | noticePop | policyRead | policyLoad | policyCommit | policyDiscard
  | reclaim | info
deriving DecidableEq, Repr

/-- Result codes in the order of the result code table (section 10.6). -/
inductive ResultCode where
  | ok | notReady | unknownCommand | unbound | denied | locked | badParam | notFound | quota | indexFull
  | noSpace | held | inTxn | noTxn | txnFull | wrongPartition | claimTimeout | expired | aborted | cancelled
  | integrity | media | genExhausted | policyHeld | policyInvalid | watchFull
deriving DecidableEq, Repr

/-- A stage taken whose job has not ended: its key and operation (section 5.1). -/
structure Stage where
  cmd : Cmd
  key : Nat
deriving DecidableEq, Repr

/-- The transaction slot of a port. `committed`: its COMMIT_SWITCH has been taken. `holdMoves`: member moves
wait (R68, R90). `reply`: the answer the ABORT_CLEAN in hand gives when there is no end reason (R94, R95). -/
structure Slot where
  state     : SlotState
  part      : Nat
  number    : Nat
  members   : List Member
  lease     : Option Lease
  waitUntil : Option Nat
  reason    : Option EndReason
  pending   : Option Cmd
  stage     : Option Stage
  committed : Bool
  holdMoves : Bool
  reply     : Option ResultCode
deriving DecidableEq, Repr

/-- A lock event: the partition, and the port whose FREEZE raised it; none for a policy commit that fixed it (R147). -/
structure LockEvent where
  part   : Nat
  source : Option Port
deriving DecidableEq, Repr

/-- A revocation event: pairs of partition and port that lost WRITE, and partitions newly disabled (R97). -/
structure Revocation where
  lost     : List (Nat × Port)
  disabled : List Nat
deriving DecidableEq, Repr

/-- The Transaction Manager. -/
structure TxnManager where
  slots       : Four Slot
  queues      : List (List Port)
  counter     : Nat
  retained    : List (Nat × Nat)
  lockEvents  : List LockEvent
  revocations : List Revocation
deriving DecidableEq, Repr

/-! ## Record Writer (section 4.1) -/

/-- What a RECORD job was sent for (R59). -/
inductive JobRole where
  | single | stage | commit
deriving DecidableEq, Repr

/-- A RECORD job (R59); `key` is the member count of a COMMIT. -/
structure RecordJob where
  port    : Port
  role    : JobRole
  kind    : RecordKind
  part    : Nat
  key     : Nat
  length  : Nat
  txn     : Nat
  payload : List Byte
  gen     : Option Nat
  relocs  : Nat
deriving DecidableEq, Repr

/-- A location a switch displaced, with its cells (R43). -/
structure Displaced where
  loc   : Location
  cells : Nat
deriving DecidableEq, Repr

/-- Jobs (R59); `removal` is the RECORD job of a STAGE_DELETE answered REMOVED (R65, R87). -/
inductive Job where
  | record (r : RecordJob)
  | removal (port : Port) (part key txn : Nat) (loc : Location)
  | complete (port : Port) (part txn : Nat) (displaced : List (Option Displaced))
  | abortClean (port : Port)
deriving DecidableEq, Repr

/-- A head to be opened (R50): segment, sequence number, and the erase count of a preparation if needed. -/
structure NewHead where
  seg     : Nat
  seq     : Nat
  prepare : Option Nat
deriving DecidableEq, Repr

/-- The rest of an ALLOCATE answer (R51, R52, R60). -/
inductive AllocRest where
  | place (l : Location)
  | newHead (h : NewHead)
  | wait
  | none
deriving DecidableEq, Repr

/-- Programs on the header of a head (R6, R60, R72, R109). -/
inductive HeadStep where
  | closing (seg tries : Nat) (rest : AllocRest)
  | preparing (h : NewHead)
  | opening (h : NewHead)
  | withdrawing (seg : Nat)
deriving DecidableEq, Repr

/-- Which record the Writer retires (R63 to R70). -/
inductive RetireWhy where
  | displaced | tombstone | replaced | removed | failed
  | oldOf (i : Nat) | tombOf (i : Nat) | commitRecord | aborted (i : Nat)
deriving DecidableEq, Repr

/-- Which REPORT the Writer has out; `leftTomb`: a TOMBSTONE member whose LIVE program was short (log 43). -/
inductive WReport where
  | failed | abandoned | tombstone | tombOf (i : Nat) | commitRecord | leftTomb
deriving DecidableEq, Repr

/-- Whose displaced location the UNPIN in hand is for, and whether its retire completed; `skipped`: the LIVE program
of the member was short (R64, R67, R71). -/
inductive WUnpin where
  | single (ok : Bool) | member (i : Nat) (ok : Bool) | skipped (i : Nat)
deriving DecidableEq, Repr

/-- The step of the current job: the program or the claim whose end it waits for. `shutClaim` and `shutting` close a
write head that a short status program has marked suspect (R49) before the step they hold goes on. -/
inductive WStep where
  | allocating
  | head (h : HeadStep)
  | openedClaim (h : NewHead)
  | badClaim (seg : Nat)
  | header (l : Location)
  | payload (l : Location) (i : Nat)
  | written (l : Location)
  | live (l : Location) (tries : Nat)
  | commitLive (l : Location)
  | switching (l : Location) (short : Bool)
  | commitSwitching (l : Location)
  | memberReporting (l : Location)
  | retiring (why : RetireWhy) (l : Location) (mark tries : Nat)
  | unpinning (whose : WUnpin)
  | reporting (what : WReport) (l : Location)
  | suspectClaim (l : Location)
  | closingFailed (seg tries : Nat)
  | releasing (code : ResultCode)
  | memberLive (i : Nat) (l : Location) (tries : Nat) (again : Bool)
  | shutClaim (seg : Nat) (back : WStep)
  | shutting (seg tries : Nat) (back : WStep)
deriving DecidableEq, Repr

/-- The current job; `recorded` holds, per member, where its LIVE or RETIRED program was presented (R67, R69), and in
a single write or delete where its record was switched. -/
structure CurJob where
  job      : Job
  step     : WStep
  recorded : List Location
deriving DecidableEq, Repr

/-- The Record Writer; its write head is among the heads of the Index Unit. -/
structure RecordWriter where
  gen   : Nat
  queue : List Job
  cur   : Option CurJob
  io    : Io
deriving DecidableEq, Repr

/-! ## Index Unit (section 3.1) -/

/-- Index entry (section 3.2). -/
structure Entry where
  part   : Nat
  key    : Nat
  loc    : Location
  length : Nat
  gen    : Nat
  cells  : Nat
deriving DecidableEq, Repr

/-- One accepted change in the charge record (R41, R42): a single one or a staged member of a port. -/
structure ChargeEntry where
  port   : Port
  staged : Bool
  part   : Nat
  key    : Nat
  op     : ChangeOp
  cells  : Nat
deriving DecidableEq, Repr

/-- Commit set member (R45). -/
structure CommitEntry where
  txn  : Nat
  part : Nat
  loc  : Location
deriving DecidableEq, Repr

/-- Segment table entry (section 3.5). `avail`: the segment is among the erased data segments (section 3.6). -/
structure SegEntry where
  state      : SegState
  eraseCount : Nat
  seq        : Option Nat
  next       : Nat
  live       : Nat
  dead       : Nat
  pins       : Nat
  suspect    : Bool
  avail      : Bool
deriving DecidableEq, Repr

/-- Who presents a claim (R38). -/
inductive Claimant where
  | port (p : Port)
  | txn (p : Port)
  | writer
  | engine
deriving DecidableEq, Repr

/-- The operation of a CHARGE claim (R42). -/
inductive ChargeOp where
  | write | delete | stageWrite | stageDelete
deriving DecidableEq, Repr

/-- What a RELEASE claim removes (R42). -/
inductive ReleaseWhat where
  | single (p : Port)
  | stagePending (p : Port) (key : Nat)
  | stageReplaced (p : Port) (key : Nat) (loc : Location) (cells : Nat)
  | members (p : Port)
deriving DecidableEq, Repr

/-- What a REPORT claim carries (R45, R47): a record whose cells are dead, or a retired COMMIT record. -/
inductive ReportWhat where
  | dead (loc : Location) (cells : Nat)
  | commitRetired (txn : Nat) (loc : Location)
deriving DecidableEq, Repr

/-- What a copy stands for (R46). -/
inductive CopyFor where
  | entry (part key : Nat)
  | commitMember (txn : Nat)
deriving DecidableEq, Repr

/-- What a SWITCH carries (R43). -/
structure SwitchClaim where
  part   : Nat
  key    : Nat
  loc    : Location
  length : Nat
  gen    : Nat
  cells  : Nat
  kind   : RecordKind
  source : Port
deriving DecidableEq, Repr

/-- The reason of a CLOSE (R50, R51). -/
inductive CloseReason where
  | suspect | bad
deriving DecidableEq, Repr

/-- The claims (R38). -/
inductive Claim where
  | lookup (part key : Nat) (forRead : Bool)
  | range (part : Nat) (after : Option Nat)
  | pin (loc : Location)
  | unpin (seg : Nat)
  | charge (part key : Nat) (op : ChargeOp) (cells : Nat)
  | release (what : ReleaseWhat)
  | switch (s : SwitchClaim)
  | commitSwitch (part txn : Nat) (loc : Location) (source : Port)
  | copySwitch (what : CopyFor) (orig copy : Location) (cells : Nat)
  | report (what : ReportWhat)
  | allocate (n : Nat)
  | opened (h : NewHead)
  | close (seg : Nat) (reason : CloseReason)
  | prepared (seg count : Nat)
  | noVictim
  | numberQuery (txn : Nat)
  | sweep (victim : Nat)
  | loss (part key : Nat) (loc : Location)
  | reclaiming (seg : Nat)
  | erased (seg : Nat)
deriving DecidableEq, Repr

/-- A claim that has arrived, with its claimant. -/
structure ClaimMsg where
  src  : Claimant
  body : Claim
deriving DecidableEq, Repr

/-- A job on the space wait list (R53). -/
structure Waiting where
  port  : Port
  job   : RecordJob
  cells : Nat
deriving DecidableEq, Repr

/-- The Index Unit. `claims` are the claims in order of arrival. -/
structure IndexUnit where
  entries   : List Entry
  charges   : List ChargeEntry
  commitSet : List CommitEntry
  segs      : List SegEntry
  writeHead : Option Nat
  copyHead  : Option Nat
  seqNext   : Nat
  spaceWait : List Waiting
  armed     : Bool
  faults    : Nat
  claims    : List ClaimMsg
deriving DecidableEq, Repr

/-! ## Compaction Engine (section 6.1) -/

inductive EngineState where
  | idle | select | mark | copy | erase | prepare
deriving DecidableEq, Repr

inductive EngineMode where
  | normal | urgent
deriving DecidableEq, Repr

inductive PassKind where
  | victim | eraseOnly
deriving DecidableEq, Repr

inductive VictimSource where
  | selected | resumed | held
deriving DecidableEq, Repr

/-- What the decision to copy a record rested on (R108, R110). -/
inductive Basis where
  | entry | memberWritten | memberTombstone | commitSet
deriving DecidableEq, Repr

/-- The copy in hand: original, the header and body as read, the target state, attempts and copy location. -/
structure Copy where
  orig     : Location
  hdr      : Header
  bytes    : List Byte
  basis    : Basis
  target   : RecordState
  attempts : Nat
  loc      : Location
deriving DecidableEq, Repr

/-- A location the sweep names, with what names it (R114). -/
inductive Named where
  | entry (part key : Nat) (loc : Location)
  | commitMember (txn part : Nat) (loc : Location)
  | member (txn part key : Nat) (loc : Location)
deriving DecidableEq, Repr

/-- After which a copy is retired: it was STALE and counted by its claim, or has still to be reported, or its
build failed (R110 to R112). -/
inductive CRetire where
  | stale | staleReport | failed
deriving DecidableEq, Repr

/-- Which REPORT the engine has out. -/
inductive CReport where
  | original | discarded | failed
deriving DecidableEq, Repr

/-- Which member move the engine has out (R110). -/
inductive CMove where
  | afterSwitch | written | tombstone
deriving DecidableEq, Repr

/-- The step of the pass: the program, claim, query or row the engine waits for; `sweepCheck` reads the record of a
location the sweep names that is not to be copied, to test its payload (R114). -/
inductive CStep where
  | idle
  | marking (tries : Nat)
  | reclaimingClaim
  | scanRead
  | lookupClaim (h : Header)
  | numberClaim (h : Header)
  | memberAsk (h : Header) (basis : Basis)
  | bodyRead (basis : Basis) (least : RecordState)
  | allocating
  | head (h : HeadStep)
  | openedClaim (h : NewHead)
  | badClaim (seg : Nat)
  | header
  | payload (i : Nat)
  | written
  | live
  | copySwitching (thenMove : Bool)
  | moving (why : CMove)
  | retiring (why : CRetire) (mark tries : Nat)
  | reporting (what : CReport)
  | suspectClaim
  | closingFailed (seg tries : Nat)
  | sweepClaim
  | sweepRead
  | sweepCheck
  | lossClaim
  | sweepWaiting
  | selectNone
  | abandonClaim
  | waitErase
  | erasing
  | erasedClaim
  | preparing
  | preparedClaim
  | withdrawing
  | badVictimClaim
deriving DecidableEq, Repr

/-- The Compaction Engine. `reading` is the location the scan or the sweep reads; `todo` is none in the scan and
the rest of the sweep's answer in the sweep, and while a victim is held the record its sweep could not copy (R115);
`unread` says that this sweep met a record it cannot remove, `again` that a claim has been released since its SWEEP was
taken (R114); `kept` is the held victim while an ERASE_ONLY pass runs (log 37). -/
structure CompactionEngine where
  state     : EngineState
  mode      : EngineMode
  kind      : Option PassKind
  victim    : Option Nat
  source    : VictimSource
  kept      : Option Nat
  scan      : Nat
  copy      : Option Copy
  attempts  : Nat
  pendingErase : List Nat
  lowRun    : Bool
  owed      : List Port
  restart   : Bool
  cleared   : Bool
  step      : CStep
  reading   : Location
  todo      : Option (List Named)
  unread    : Bool
  again     : Bool
  noted     : List Location
  io        : Io
deriving DecidableEq, Repr

/-! ## Notice Unit (section 9.1) -/

/-- A watch: partition, and a key or none for ALL (R157). -/
structure Watch where
  part : Nat
  key  : Option Nat
deriving DecidableEq, Repr

inductive NoticeKind where
  | keyChanged | claimLost | leaseWarning | spaceLow | policyChanged | policyDefaulted | integrity
deriving DecidableEq, Repr

inductive NoticeReason where
  | updated | deleted | expired | locked | revoked | suspect | bad | lost | policy
deriving DecidableEq, Repr

/-- Notice record (section 9.3); a field a kind does not use is none. -/
structure Notice where
  kind   : NoticeKind
  part   : Option Nat
  key    : Option Nat
  gen    : Option Nat
  txn    : Option Nat
  source : Option Port
  seg    : Option Nat
  reason : Option NoticeReason
  count  : Nat
deriving DecidableEq, Repr

/-- To whom a post goes (R160). -/
inductive Recipients where
  | one (p : Port)
  | every
  | authority
deriving DecidableEq, Repr

/-- A post on its way to the Notice Unit. -/
structure Post where
  src    : Poster
  dest   : Recipients
  notice : Notice
deriving DecidableEq, Repr

/-- A change report (R43, R44). -/
structure ChangeReport where
  part    : Nat
  key     : Nat
  gen     : Nat
  source  : Port
  deleted : Bool
deriving DecidableEq, Repr

/-- The state held for one port. -/
structure NoticePort where
  watches  : List Watch
  queue    : List Notice
  overflow : Bool
  lost     : Nat
deriving DecidableEq, Repr

/-- The Notice Unit, with the posts, reports and removals sent to it and not yet taken; a removal is the list of
ports and partitions whose watches go (R159). -/
structure NoticeUnit where
  ports    : Four NoticePort
  posts    : List Post
  reports  : List ChangeReport
  removals : List (List (Port × Nat))
deriving DecidableEq, Repr

/-! ## Mount Engine (section 7.1) -/

inductive MountPhase where
  | policy | headers | records | repair | restore | done
deriving DecidableEq, Repr

/-- Segment classification (R8, R125): its class, and the erase count and sequence its header gave. -/
structure SegClass where
  seg   : Nat
  cls   : SegState
  count : Option Nat
  seq   : Option Nat
deriving DecidableEq, Repr

/-- Candidate table entry (section 7.1); `payload` says whether the payload is sound. -/
structure Candidate where
  part    : Nat
  key     : Nat
  kind    : RecordKind
  state   : RecordState
  gen     : Nat
  txn     : Nat
  loc     : Location
  length  : Nat
  cells   : Nat
  payload : Bool
deriving DecidableEq, Repr

/-- A mount fault to be posted (R136), with the cell where a scan stopped (R128). -/
structure MountFault where
  part : Option Nat
  key  : Option Nat
  seg  : Option Nat
  cell : Option Nat
deriving DecidableEq, Repr

/-- What mount waits for. -/
inductive MountStep where
  | policy (seg : Nat)
  | header (seg : Nat)
  | blank (seg : Nat)
  | closing (seg tries : Nat)
  | scanHeader (seg cell : Nat)
  | scanBody (seg cell : Nat)
  | repair (mark tries : Nat)
  | done
deriving DecidableEq, Repr

/-- The Mount Engine. `todo` are the segments still to close or scan; `progs` the records of the repair group in
hand still to program; `group` its number (R132). -/
structure MountEngine where
  phase     : MountPhase
  step      : MountStep
  source    : PolicySource
  images    : List (Nat × Shadow)
  greatest  : Nat
  classes   : List SegClass
  cands     : List Candidate
  maxErase  : Option Nat
  maxSeq    : Option Nat
  maxGen    : Option Nat
  maxTxn    : Option Nat
  rolled    : Nat
  discarded : Nat
  faults    : Nat
  dirty     : Bool
  badSegs   : Nat
  posts     : List MountFault
  todo      : List Nat
  group     : Nat
  progs     : List Candidate
  givenUp   : List Location
  short     : List Location
  retained  : List (Nat × Nat)
  io        : Io
deriving DecidableEq, Repr

/-! ## Master ports (chapter Master Ports) -/

inductive PortState where
  | mounting | ready | busy | done
deriving DecidableEq, Repr

/-- Parameter fields (section 11.3). -/
structure Params where
  slot   : Byte
  flags  : Byte
  key    : Half
  length : Byte
  offset : Byte
  part   : Byte
  source : Byte
deriving DecidableEq, Repr

/-- Result and output fields (section 11.3). -/
structure Results where
  code      : Byte
  recLength : Byte
  count     : Byte
  cells     : Byte
  flags     : Byte
  lost      : Byte
  txn       : Half
  gen       : Word
  lease     : Half
  watchPart : Byte
  source    : Byte
  copy      : Byte
deriving DecidableEq, Repr

/-- An outcome delivered to a port: the fields to post and the data for the buffer (R175). -/
structure Posting where
  fields : Results
  data   : List Byte
deriving DecidableEq, Repr

/-- What a READ in hand was told of its record (R177). -/
structure ReadWork where
  part   : Nat
  key    : Nat
  loc    : Location
  length : Nat
  gen    : Nat
  cells  : Nat
  staged : Bool
deriving DecidableEq, Repr

/-- A key a LIST returns (section 11.2). -/
structure ListEntry where
  key    : Nat
  length : Nat
  staged : Bool
deriving DecidableEq, Repr

/-- What the command in hand waits for at its port. -/
inductive Work where
  | lookup (part key : Nat)
  | pinning (r : ReadWork)
  | reading (r : ReadWork)
  | listing (part : Nat) (after : Option Nat) (members : List Member) (found : List ListEntry)
  | charging (part : Nat)
  | elsewhere
deriving DecidableEq, Repr

/-- The command in hand (R171): its parameters and buffer image as they stood when it was taken. -/
structure InHand where
  cmd    : Cmd
  params : Params
  image  : List Byte
  work   : Work
deriving DecidableEq, Repr

/-- How far the frame header of a frame in progress has come (R167). -/
inductive FramePhase where
  | first
  | second (b0 : Byte)
  | data (isWrite : Bool) (offset : Nat)
deriving DecidableEq, Repr

/-- A frame in progress: what it has written for its end, whether it began BUSY, whether it wrote anything that
was discarded for that (R172), the status byte it shifts out and the bytes shifted out (R168). -/
structure Frame where
  phase     : FramePhase
  beganBusy : Bool
  collided  : Bool
  command   : Option Byte
  control   : Option Byte
  enables   : Option Byte
  status    : Byte
  out       : List Byte
deriving DecidableEq, Repr

/-- One master port. -/
structure MasterPort where
  state        : PortState
  doneCause    : Bool
  collision    : Bool
  enDone       : Bool
  enNotice     : Bool
  command      : Byte
  params       : Params
  results      : Results
  buffer       : List Byte
  inHand       : Option InHand
  outcome      : Option Posting
  draining     : Bool
  handOver     : Bool
  frame        : Option Frame
  lastOut      : List Byte
  stale        : Option Request
  io           : Io
deriving DecidableEq, Repr

/-! ## The part -/

/-- The units: everything volatile but the Array Controller's queue. `media` is the controller's media fault
count, kept here because INFO reads it. -/
structure Units where
  clock : Nat
  media : Nat
  ports : Four MasterPort
  pu    : PolicyUnit
  tm    : TxnManager
  rw    : RecordWriter
  iu    : IndexUnit
  ce    : CompactionEngine
  nu    : NoticeUnit
  me    : MountEngine
deriving DecidableEq, Repr

/-- The machine. `pending` is the queue of the commands that wait, first in, first out. -/
structure State where
  pending  : List Instr
  powered  : Bool
  resetLow : Bool
  array    : Memory
  ac       : ArrayController
  units    : Units
deriving DecidableEq, Repr

/-- Faults: the spec stops the part nowhere, so no command raises one. -/
inductive Fault where
  /-- Raised by no command (safe); the type has to have a name for the interface. -/
  | never
deriving DecidableEq, Repr

/-- Refusals. -/
inductive Refusal where
  /-- Answered only by exec, for a command that has no meaning yet (safe). -/
  | notModelled (mnemonic : String)
deriving DecidableEq, Repr

/-! ## Reset -/

def Four.all {α : Type} (x : α) : Four α := ⟨x, x, x, x⟩

def Io.none : Io := ⟨Option.none, false⟩

/-- R35. -/
def ArrayController.start : ArrayController where
  queue := []
  arrivals := 0
  running := none
  suspended := none
  suspendCount := 0
  grantCount := 0
  held := []
  delivered := none

/-- The factory default policy (R142). -/
def Shadow.factory : Shadow where
  parts := ⟨true, false, 7874, 200, Four.all Right.write⟩
    :: List.replicate 15 ⟨false, false, 0, 200, Four.all Right.none⟩
  ports := Four.all ⟨true, 100, ⟨some 0, none, none, none⟩⟩
  lowWater := 4
  seq := 0

/-- Section 8.1 and log 5. -/
def PolicyUnit.start : PolicyUnit where
  shadow := Shadow.factory
  source := .defaulted
  inForce := none
  session := .none
  views := Four.all (Four.all none)
  locks := List.replicate 16 .opened
  io := Io.none

def Slot.start : Slot where
  state := .none
  part := 0
  number := 0
  members := []
  lease := none
  waitUntil := none
  reason := none
  pending := none
  stage := none
  committed := false
  holdMoves := false
  reply := none

/-- R74 and log 5. -/
def TxnManager.start : TxnManager where
  slots := Four.all Slot.start
  queues := List.replicate 16 []
  counter := 1
  retained := []
  lockEvents := []
  revocations := []

/-- R56 and log 5. -/
def RecordWriter.start : RecordWriter := ⟨1, [], none, Io.none⟩

/-- R55 and log 5. -/
def IndexUnit.start : IndexUnit where
  entries := []
  charges := []
  commitSet := []
  segs := []
  writeHead := none
  copyHead := none
  seqNext := 0
  spaceWait := []
  armed := true
  faults := 0
  claims := []

/-- R99; the victim source, the scan position, the erase attempts and the location last read, which it does not give, by log 5. -/
def CompactionEngine.start : CompactionEngine where
  state := .idle
  mode := .normal
  kind := none
  victim := none
  source := .selected
  kept := none
  scan := 1
  copy := none
  attempts := 0
  pendingErase := []
  lowRun := false
  owed := []
  restart := false
  cleared := false
  step := .idle
  reading := ⟨2, 1⟩
  todo := none
  unread := false
  again := false
  noted := []
  io := Io.none

/-- R156. -/
def NoticeUnit.start : NoticeUnit := ⟨Four.all ⟨[], [], false, 0⟩, [], [], []⟩

/-- R121: mount begins at POLICY with the READ of cells 0 to 10 of policy segment 0 (R123). -/
def MountEngine.start : MountEngine where
  phase := .policy
  step := .policy 0
  source := .defaulted
  images := []
  greatest := 0
  classes := []
  cands := []
  maxErase := none
  maxSeq := none
  maxGen := none
  maxTxn := none
  rolled := 0
  discarded := 0
  faults := 0
  dirty := false
  badSegs := 0
  posts := []
  todo := []
  group := 0
  progs := []
  givenUp := []
  short := []
  retained := []
  io := ⟨some ⟨.mount, 0, .read 0 11⟩, false⟩

def Results.zero : Results := ⟨0, 0, 0, 0, 0, 0, 0, 0, 0, 0, 0, 0⟩

/-- The port's state table, column "After power-on or device reset". -/
def MasterPort.start : MasterPort where
  state := .mounting
  doneCause := false
  collision := false
  enDone := true
  enNotice := true
  command := 0
  params := ⟨0, 0, 0, 0, 0, 0, 0⟩
  results := Results.zero
  buffer := List.replicate 256 0
  inHand := none
  outcome := none
  draining := false
  handOver := false
  frame := none
  lastOut := []
  stale := none
  io := Io.none

/-- Every unit in its reset state, mount at POLICY. -/
def Units.start : Units where
  clock := 0
  media := 0
  ports := Four.all MasterPort.start
  pu := PolicyUnit.start
  tm := TxnManager.start
  rw := RecordWriter.start
  iu := IndexUnit.start
  ce := CompactionEngine.start
  nu := NoticeUnit.start
  me := MountEngine.start

/-- The part right after power-on, the array as delivered (R18, R121). -/
def State.reset : State where
  pending := []
  powered := true
  resetLow := false
  array := []
  ac := ArrayController.start
  units := Units.start

end Sys2Proof.Machine
end

