-- ==== Sys2Proof/Machine/Memory.lean ====
section
/-! DEFINITION. The array as a list of cells in one canonical form, what it reads as, and the law of program and
erase (R1, R2, R18). -/

namespace Sys2Proof.Machine

/-- Byte address of offset `o` of a segment. -/
def segBase (seg : Nat) : Nat := seg * Config.segmentBytes
/-- Byte address of a cell. -/
def cellBase (seg cell : Nat) : Nat := segBase seg + cell * Config.cellBytes

/-- Cell 0 of a data segment as delivered: PREPARED with erase count 0 and its check, the rest at ones (R18, R6). -/
def deliveredHeader : List Byte :=
  0xFE :: (toBytes 3 0 ++ toBytes 2 (crc (toBytes 3 0))) ++ List.replicate 10 erasedByte

/-- What an unlisted address reads as: the array as delivered (R18, log 6). -/
def delivered (addr : Nat) : Byte :=
  if addr / Config.segmentBytes < Config.firstData then erasedByte
  else deliveredHeader.getD (addr % Config.segmentBytes) erasedByte

namespace Memory

/-- One byte. -/
def read (m : Memory) (addr : Nat) : Byte := (List.lookup addr m).getD (delivered addr)

/-- `n` bytes from `addr`. -/
def readRange (m : Memory) (addr n : Nat) : List Byte := (List.range n).map (fun k => m.read (addr + k))

/-- The entries for bytes laid from `addr`: those that differ from the delivered contents. -/
def entriesFrom (addr : Nat) : List Byte → Memory
  | [] => []
  | b :: bs =>
    if b = delivered addr then entriesFrom (addr + 1) bs else (addr, b) :: entriesFrom (addr + 1) bs

/-- Bytes laid from `addr`, every other byte unchanged. -/
def writeRange (m : Memory) (addr : Nat) (bs : List Byte) : Memory :=
  m.filter (fun c => c.1 < addr) ++ entriesFrom addr bs ++ m.filter (fun c => addr + bs.length ≤ c.1)

/-- The canonical form: addresses strictly rising, no entry equal to the delivered contents. -/
def wf : Memory → Bool
  | [] => true
  | c :: cs => c.2 != delivered c.1 && cs.all (fun d => decide (c.1 < d.1)) && wf cs

/-- The bytes of a cell. -/
def cell (m : Memory) (seg c : Nat) : List Byte := m.readRange (cellBase seg c) Config.cellBytes

/-- The bytes of `n` consecutive cells (R1, R21). -/
def cells (m : Memory) (seg first n : Nat) : List Byte :=
  m.readRange (cellBase seg first) (n * Config.cellBytes)

/-- The bytes of a segment. -/
def segment (m : Memory) (seg : Nat) : List Byte := m.readRange (segBase seg) Config.segmentBytes

end Memory

/-- A PROGRAM of a byte: the AND of the byte held and the byte supplied, but for the target bits the medium leaves
at 1 (R2, R22). -/
def programByte (held supplied stuck : Byte) : Byte := (held &&& supplied) ||| (held &&& ~~~supplied &&& stuck)

/-- A PROGRAM of a cell; bytes of `stuck` not given are 0. -/
def programBytes : List Byte → List Byte → List Byte → List Byte
  | h :: hs, s :: ss, stuck => programByte h s (stuck.headD 0) :: programBytes hs ss stuck.tail
  | _, _, _ => []

/-- The verify: every bit supplied as 0 reads as 0 (R22). -/
def verified : List Byte → List Byte → Bool
  | r :: rs, s :: ss => (r &&& ~~~s == 0) && verified rs ss
  | _, _ => true

/-- An ERASE of a segment's bytes: every bit 1, but for the bits left at their former value (R2, R23). -/
def eraseBytes (held : List Byte) (kept : List (Nat × Byte)) : List Byte :=
  held.zipIdx.map (fun p => p.1 ||| ~~~ ((List.lookup p.2 kept).getD 0))

/-- The array after a PROGRAM of a cell. -/
def programCell (m : Memory) (seg c : Nat) (supplied stuck : List Byte) : Memory :=
  m.writeRange (cellBase seg c) (programBytes (m.cell seg c) supplied stuck)

/-- The array after an ERASE of a segment. -/
def eraseSegment (m : Memory) (seg : Nat) (kept : List (Nat × Byte)) : Memory :=
  m.writeRange (segBase seg) (eraseBytes (m.segment seg) kept)

end Sys2Proof.Machine
end

