-- ==== Sys2Proof/Machine/ArrayCtl.lean ====
section
/-! DEFINITION. The Array Controller: what it accepts, its arbiter and erase suspension (R19, R20, R25 to R33, R35). -/

namespace Sys2Proof

/-- The cells a request names exist (R20). -/
def ArrayOp.inRange : ArrayOp → Bool
  | .read first count => decide (first ≤ 127 ∧ 1 ≤ count ∧ count ≤ 16 ∧ first + count ≤ 128)
  | .program cell _ => decide (cell ≤ 127)
  | _ => true

def ArrayOp.isRead : ArrayOp → Bool
  | .read _ _ => true
  | _ => false

def ArrayOp.isErase : ArrayOp → Bool
  | .erase => true
  | _ => false

def ArrayOp.changes : ArrayOp → Bool
  | .program _ _ => true
  | .erase => true
  | _ => false

end Sys2Proof

namespace Sys2Proof.Machine

/-! ## What is accepted (R19, R20) -/

/-- Segments 0 and 1 are policy segments (R1). -/
def isPolicySeg (seg : Nat) : Bool := decide (seg < 2)
/-- Segments 2 to 63 are data segments (R1). -/
def isDataSeg (seg : Nat) : Bool := decide (2 ≤ seg ∧ seg < 64)

/-- The table of section 2.2: what each requester may ask of which kind of segment. -/
def permitted (who : Requester) (op : ArrayOp) (seg : Nat) : Bool :=
  match who, op with
  | .port _, .read _ _ => isDataSeg seg
  | .writer, .program _ _ => isDataSeg seg
  | .engine, .read _ _ => isDataSeg seg
  | .engine, .program _ _ => isDataSeg seg
  | .engine, .erase => isDataSeg seg
  | .policy, .program _ _ => isPolicySeg seg
  | .policy, .erase => isPolicySeg seg
  | .mount, .read _ _ => isPolicySeg seg || isDataSeg seg
  | .mount, .program _ _ => isDataSeg seg
  | .mount, .blankCheck => isDataSeg seg
  | _, _ => false

def Queued.isRead (q : Queued) : Bool := q.req.op.isRead

namespace ArrayController

/-- The erase in progress, RUNNING or SUSPENDED. -/
def erasing (c : ArrayController) : Option Queued :=
  match c.suspended with
  | some e => some e
  | none => c.running.filter (fun q => q.req.op.isErase)

/-- Whether an interface has a request accepted and not completed (R19). -/
def outstanding (c : ArrayController) (who : Requester) : Bool :=
  c.queue.any (fun q => q.req.who == who) || c.held.any (fun q => q.req.who == who)
  || (c.running.any (fun q => q.req.who == who)) || (c.suspended.any (fun q => q.req.who == who))

/-- The checks at presentation (R19, R20). -/
def accepts (c : ArrayController) (r : Request) : Bool :=
  decide (r.seg < 64) && r.op.inRange && permitted r.who r.op r.seg && !c.outstanding r.who
  && !(r.op.changes && c.erasing.any (fun e => e.req.seg == r.seg))

/-! ## The arbiter (R27, R28) -/

/-- The request the order of R27 yields: the oldest READ, then by requester and mode. -/
def choose (urgent : Bool) (queue : List Queued) : Option Queued :=
  let from_ (who : Requester) := queue.find? (fun q => q.req.who == who)
  (queue.find? Queued.isRead)
    <|> (if urgent then from_ .engine else none)
    <|> from_ .writer
    <|> from_ .policy
    <|> (if urgent then none else from_ .engine)
    <|> from_ .mount

/-- A request leaves the queue when it is granted (R26). -/
def grant (c : ArrayController) (q : Queued) : ArrayController :=
  { c with queue := c.queue.erase q, running := some q }

/-- The array is free and no erase is suspended: the arbiter grants (R27). -/
def grantFree (urgent : Bool) (c : ArrayController) : ArrayController :=
  match choose urgent c.queue with
  | some q => c.grant q
  | none => c

/-- A READ suspends an erase: the count grows, the suspension's grants start at 0, and the first READ is granted
(R30, R31). -/
def suspend (c : ArrayController) (e q : Queued) : ArrayController :=
  { (c.grant q) with suspended := some e, suspendCount := c.suspendCount + 1, grantCount := 1 }

/-- The erase resumes; a READ still queued suspends it again at once below 8 suspensions (R31, R32). -/
def resume (c : ArrayController) (e : Queued) : ArrayController :=
  let c := { c with running := some e, suspended := none, grantCount := 0 }
  match c.queue.find? Queued.isRead with
  | some q => if c.suspendCount < 8 then c.suspend e q else c
  | none => c

/-- The array falls free from a READ within a suspension (R31). -/
def serve (c : ArrayController) (e : Queued) : ArrayController :=
  match c.queue.find? Queued.isRead with
  | some q => if c.grantCount < 7 then { (c.grant q) with grantCount := c.grantCount + 1 } else c.resume e
  | none => c.resume e

/-- An accepted request joins the queue as the youngest (R26). -/
def join (c : ArrayController) (r : Request) : ArrayController :=
  { c with queue := c.queue ++ [⟨c.arrivals, r⟩], arrivals := c.arrivals + 1 }

/-- An accepted request that is held (R33). -/
def hold (c : ArrayController) (r : Request) : ArrayController :=
  { c with held := c.held ++ [⟨c.arrivals, r⟩], arrivals := c.arrivals + 1 }

/-- A request is accepted (R20, R27, R30, R33). -/
def accept (urgent : Bool) (c : ArrayController) (r : Request) : ArrayController :=
  match c.erasing with
  | some e =>
    if r.op.isRead && r.seg == e.req.seg then c.hold r
    else if r.op.isRead && c.suspended.isNone && c.suspendCount < 8 then
      let c := c.join r
      match c.queue.find? Queued.isRead with
      | some q => c.suspend e q
      | none => c
    else c.join r
  | none =>
    if c.running.isNone then grantFree urgent (c.join r) else c.join r

/-- A held read joins the queue at its original arrival order (R33). -/
def insertByOrder (q : Queued) : List Queued → List Queued
  | [] => [q]
  | x :: xs => if q.order < x.order then q :: x :: xs else x :: insertByOrder q xs

/-- The READ, PROGRAM or BLANK_CHECK in progress ends: the array falls free, a suspended erase still SUSPENDED (R25, R31). -/
def endOp (c : ArrayController) : ArrayController := { c with running := none }

/-- The ERASE in progress ends: the array falls free, the suspend count returns to 0 and the held reads join the queue
(R25, R33). -/
def endErase (c : ArrayController) : ArrayController :=
  { c with running := none, suspendCount := 0, grantCount := 0, held := [],
           queue := c.held.foldl (fun qs q => insertByOrder q qs) c.queue }

/-- A request accepted while the array has fallen free joins the queue before the grant; a READ of a segment under a
suspended erase is held (R25, R33). -/
def enter (c : ArrayController) (r : Request) : ArrayController :=
  if r.op.isRead && c.erasing.any (fun e => r.seg == e.req.seg) then c.hold r else c.join r

/-- The grant when the array has fallen free: a READ of the suspension or the erase's resumption, else the arbiter's choice
(R27, R31). -/
def grantNext (urgent : Bool) (c : ArrayController) : ArrayController :=
  match c.suspended with
  | some e => c.serve e
  | none => grantFree urgent c

/-- A completion is delivered to its interface (R25). -/
def complete (c : ArrayController) (r : Request) (o : ArrayOutcome) (bytes : List Byte) : ArrayController :=
  { c with delivered := some ⟨r, o, bytes⟩ }

/-- The operation that a loss of power or RESET_N cuts off (R35). -/
def cutOff (c : ArrayController) : Option Request :=
  match c.suspended with
  | some e => some e.req
  | none => c.running.map (·.req)

end ArrayController

/-- What the array holds after an abandoned operation (R2, R17, R35). -/
def abandon (m : Memory) (t : Torn) : Option Request → Memory
  | some ⟨_, seg, .program cell bytes⟩ => programCell m seg cell bytes t.program
  | some ⟨_, seg, .erase⟩ => eraseSegment m seg t.erase
  | _ => m

end Sys2Proof.Machine
end

