-- ==== Sys2Proof/Machine/Layout.lean ====
section
/-! DEFINITION. The stored layouts and the reading rules of state bytes and headers (R3, R4, R8, R10 to R13, R180). -/

namespace Sys2Proof.Machine

/-! ## Record status (R4, R13, section 11.1) -/

/-- The state a status byte reads: the last of the unbroken run of cleared marks from the OPEN mark (R4). -/
def readStatus (b : Byte) : RecordState :=
  if b.getLsbD 7 then .free
  else if b.getLsbD 6 then .opened
  else if b.getLsbD 5 then .written
  else if b.getLsbD 4 then .live
  else .retired

/-- The order of record states (R13). -/
def RecordState.rank : RecordState → Nat
  | .free => 0 | .opened => 1 | .written => 2 | .live => 3 | .retired => 4

def RecordState.reaches (s least : RecordState) : Bool := decide (least.rank ≤ s.rank)

/-- A program of cell's first byte alone: every other byte is supplied as 0xFF (R3). -/
def firstByteProgram (b : Byte) : List Byte := b :: List.replicate 15 erasedByte

/-- Patterns of section 11.1. -/
def openPattern : Byte := 0x7F
def writtenPattern : Byte := 0x3F
def livePattern : Byte := 0x1F

/-- The four PROGRAMs of the RETIRED program, by their place (R13, R180). -/
def retireMark : Nat → Byte
  | 0 => 0xEF | 1 => 0xDF | 2 => 0xBF | _ => 0x7F

/-- The last of them. -/
def lastMark : Nat := 3

/-! ## Record headers (R11, R12, section 11.1) -/

def kindByte : RecordKind → Nat
  | .data => 1 | .tombstone => 2 | .commit => 3

def kindOf : Nat → Option RecordKind
  | 1 => some .data | 2 => some .tombstone | 3 => some .commit | _ => none

/-- The header a cell holds (section 11.1). -/
def readHeader (bs : List Byte) : Header where
  status := bs.getD 0 erasedByte
  kind := field bs 1 1
  part := field bs 2 1
  length := field bs 3 1
  key := field bs 4 2
  txn := field bs 6 2
  gen := field bs 8 4
  payCheck := field bs 12 2
  hdrCheck := field bs 14 2

/-- The bytes the header check covers: offsets 1 to 13 (section 11.1). -/
def Header.checked (h : Header) : List Byte :=
  toBytes 1 h.kind ++ toBytes 1 h.part ++ toBytes 1 h.length ++ toBytes 2 h.key ++ toBytes 2 h.txn
    ++ toBytes 4 h.gen ++ toBytes 2 h.payCheck

/-- The sixteen bytes of a header with a given status (R61, R109). -/
def Header.bytes (h : Header) (status : Byte) : List Byte := status :: h.checked ++ toBytes 2 h.hdrCheck

/-- Cells of a record of `length` payload bytes (R10). -/
def recordCells (length : Nat) : Nat := 1 + (length + 15) / 16

def Header.cells (h : Header) : Nat := recordCells h.length
def Header.state (h : Header) : RecordState := readStatus h.status
def Header.recordKind (h : Header) : RecordKind := (kindOf h.kind).getD .data

/-- The state a reader takes: a COMMIT that reads WRITTEN is taken as OPEN (R13). -/
def Header.taken (h : Header) : RecordState :=
  if h.kind = 3 ∧ h.state = .written then .opened else h.state

/-- A header is sound (R12); `cell` is where it lies. -/
def Header.sound (h : Header) (cell : Nat) : Bool :=
  h.state != .free
  && crc h.checked == h.hdrCheck
  && decide (h.part ≤ 15)
  && (match kindOf h.kind with
      | some .data => decide (h.length ≤ 240) && decide (h.key ≤ 65534)
      | some .tombstone => decide (h.length = 0) && decide (h.key ≤ 65534)
      | some .commit => decide (h.length = 0) && decide (1 ≤ h.key ∧ h.key ≤ 16) && decide (1 ≤ h.txn)
      | none => false)
  && decide (1 ≤ h.gen ∧ h.gen ≤ 4294967293)
  && decide (1 ≤ cell ∧ cell + h.cells ≤ Config.cells)

/-- The payload of a record read whole is sound (R12). -/
def payloadSound (h : Header) (bytes : List Byte) : Bool := crc (slice bytes 16 h.length) == h.payCheck

/-- The header of a new record: fields, generation and both checks (R11, R59). -/
def newHeader (kind : RecordKind) (part key length txn gen : Nat) (payload : List Byte) : Header :=
  let h : Header := ⟨openPattern, kindByte kind, part, length, key, txn, gen, crc payload, 0⟩
  { h with hdrCheck := crc h.checked }

/-- Payload cell `i` of a record: 16 bytes, those beyond the length 0xFF (R10). -/
def payloadCell (payload : List Byte) (i : Nat) : List Byte := slice payload (16 * i) 16

/-! ## Segment headers (R4, R6, R8, section 11.1) -/

/-- The segment state byte: BAD if its mark is cleared, else an exact pattern, else no valid encoding (R4). -/
def readSegState (b : Byte) : Option SegState :=
  if !b.getLsbD 7 then some .bad
  else match b.toNat with
    | 0xFF => some .blank
    | 0xFE => some .prepared
    | 0xFC => some .active
    | 0xF8 => some .full
    | 0xF0 => some .reclaiming
    | _ => none

def segPattern : SegState → Byte
  | .blank => 0xFF | .prepared => 0xFE | .active => 0xFC | .full => 0xF8 | .reclaiming => 0xF0
  | .bad => 0x7F | .dirty => 0xFF

/-- The preparation program (R6). -/
def prepareProgram (count : Nat) : List Byte :=
  segPattern .prepared :: (toBytes 3 count ++ toBytes 2 (crc (toBytes 3 count))) ++ List.replicate 10 erasedByte

/-- The opening program (R6). -/
def openProgram (seq : Nat) : List Byte :=
  segPattern .active :: List.replicate 5 erasedByte ++ toBytes 4 seq ++ toBytes 2 (crc (toBytes 4 seq))
    ++ List.replicate 4 erasedByte

def eraseCheckOk (bs : List Byte) : Bool := crc (slice bs 1 3) == field bs 4 2
/-- The sequence bytes, number and check, are all ones as the preparation program leaves them (R6, R8, R118). -/
def seqErased (bs : List Byte) : Bool := allErased (slice bs 6 6)
def seqCheckOk (bs : List Byte) : Bool := crc (slice bs 6 4) == field bs 10 2

/-- Classification of a data segment from its cell 0 (R8), the first matching line deciding; `none` asks for the
BLANK_CHECK. -/
def classify (bs : List Byte) : Option SegState :=
  match readSegState (bs.getD 0 erasedByte) with
  | some .bad => some .bad
  | none => some .dirty
  | some .blank => if allErased (slice bs 0 16) then none else some .dirty
  | some .prepared => if eraseCheckOk bs && seqErased bs then some .prepared else some .dirty
  | some s => if eraseCheckOk bs && seqCheckOk bs then some s else some .dirty

/-- The erase count kept from a header, whatever the class (R125). -/
def keptCount (bs : List Byte) : Option Nat := if eraseCheckOk bs then some (field bs 1 3) else none
/-- The sequence number kept from a header (R125); its "sequence bytes" are read as the 4 of the number (log 44). -/
def keptSeq (bs : List Byte) : Option Nat :=
  if seqCheckOk bs && !allErased (slice bs 6 4) then some (field bs 6 4) else none

end Sys2Proof.Machine
end

