-- ==== Sys2Proof/Machine/Ops.lean ====
section
/-! DEFINITION. The shared operations on the units: reading and writing one port's, slot's or segment's piece of
state, presenting claims, requests, jobs and posts, delivering outcomes, and the end of a drain. -/

namespace Sys2Proof.Machine

/-! ## The four ports -/

/-- The four ports in order. -/
def allPorts : List Port := [.a, .b, .c, .d]

/-- Ports are numbered A to D, 0 to 3 (R181). -/
def portNumber : Port → Nat
  | .a => 0 | .b => 1 | .c => 2 | .d => 3

def Four.get {α : Type} (f : Four α) : Port → α
  | .a => f.a | .b => f.b | .c => f.c | .d => f.d

def Four.set {α : Type} (f : Four α) (p : Port) (x : α) : Four α :=
  match p with
  | .a => { f with a := x } | .b => { f with b := x } | .c => { f with c := x } | .d => { f with d := x }

def Four.map {α β : Type} (f : Four α) (g : Port → α → β) : Four β := ⟨g .a f.a, g .b f.b, g .c f.c, g .d f.d⟩

/-- Item `n` of 0 to 3. -/
def Four.at {α : Type} (f : Four α) : Nat → α
  | 0 => f.a | 1 => f.b | 2 => f.c | _ => f.d

/-- Item `n` of 0 to 3 replaced. -/
def Four.setAt {α : Type} (f : Four α) (n : Nat) (x : α) : Four α :=
  match n with
  | 0 => { f with a := x } | 1 => { f with b := x } | 2 => { f with c := x } | _ => { f with d := x }

namespace Units

/-- Units at power-on and while RESET_N is asserted (R35, R55, R56, R74, R99, R121, R156). -/
def atReset : Units := Units.start

def port (u : Units) (p : Port) : MasterPort := u.ports.get p
def setPort (u : Units) (p : Port) (x : MasterPort) : Units := { u with ports := u.ports.set p x }
def modPort (u : Units) (p : Port) (f : MasterPort → MasterPort) : Units := u.setPort p (f (u.port p))

def slot (u : Units) (p : Port) : Slot := u.tm.slots.get p
def setSlot (u : Units) (p : Port) (x : Slot) : Units := { u with tm := { u.tm with slots := u.tm.slots.set p x } }
def modSlot (u : Units) (p : Port) (f : Slot → Slot) : Units := u.setSlot p (f (u.slot p))

def notices (u : Units) (p : Port) : NoticePort := u.nu.ports.get p
def setNotices (u : Units) (p : Port) (x : NoticePort) : Units :=
  { u with nu := { u.nu with ports := u.nu.ports.set p x } }

def setIu (u : Units) (x : IndexUnit) : Units := { u with iu := x }
def setCe (u : Units) (x : CompactionEngine) : Units := { u with ce := x }
def setRw (u : Units) (x : RecordWriter) : Units := { u with rw := x }
def setPu (u : Units) (x : PolicyUnit) : Units := { u with pu := x }
def setMe (u : Units) (x : MountEngine) : Units := { u with me := x }

end Units

/-! ## Requests -/

/-- A unit wants a request carried out: it presents it by ARRAY_REQUEST. -/
def Io.asking (r : Request) : Io := ⟨some r, false⟩

/-- The Writer wants a PROGRAM (section 2.2). -/
def writerProgram (seg cell : Nat) (bytes : List Byte) (u : Units) : Units :=
  u.setRw { u.rw with io := Io.asking ⟨.writer, seg, .program cell bytes⟩ }

/-- The engine wants an operation on a segment. -/
def engineRequest (seg : Nat) (op : ArrayOp) (u : Units) : Units :=
  u.setCe { u.ce with io := Io.asking ⟨.engine, seg, op⟩ }

/-! ## Claims (R38) -/

/-- A claim arrives at the Index Unit behind those that arrived before it. -/
def present (src : Claimant) (c : Claim) (u : Units) : Units :=
  u.setIu { u.iu with claims := u.iu.claims ++ [⟨src, c⟩] }

/-! ## The segment table (section 3.5) -/

/-- What the table answers for a segment it has no entry for; no claim names one. -/
def SegEntry.absent : SegEntry := ⟨.bad, 0, none, 128, 0, 127, 0, false, false⟩

/-- The entry of a data segment. -/
def IndexUnit.seg (iu : IndexUnit) (n : Nat) : SegEntry := iu.segs.getD (n - Config.firstData) SegEntry.absent

/-- The entry of a data segment changed. -/
def IndexUnit.modSeg (iu : IndexUnit) (n : Nat) (f : SegEntry → SegEntry) : IndexUnit :=
  { iu with segs := iu.segs.modify (n - Config.firstData) f }

/-- Cells of a record counted dead (R47). -/
def IndexUnit.kill (iu : IndexUnit) (l : Location) (cells : Nat) : IndexUnit :=
  iu.modSeg l.seg fun e => { e with live := e.live - cells, dead := e.dead + cells }

/-- A read pin taken (R48). -/
def IndexUnit.takePin (iu : IndexUnit) (seg : Nat) : IndexUnit :=
  iu.modSeg seg fun e => { e with pins := e.pins + 1 }

/-- A read pin released; a segment with none is left as it is (R48). -/
def IndexUnit.dropPin (iu : IndexUnit) (seg : Nat) : IndexUnit :=
  iu.modSeg seg fun e => { e with pins := e.pins - 1 }

/-- The erased count (section 3.6): the segments available for opening. -/
def IndexUnit.erasedCount (iu : IndexUnit) : Nat := iu.segs.countP (·.avail)

/-- A suspect mark; the answer says whether the report changed anything (R49). -/
def markSuspect (seg : Nat) (u : Units) : Units × Bool :=
  (u.setIu (u.iu.modSeg seg fun e => { e with suspect := true }), !(u.iu.seg seg).suspect)

/-- One more integrity fault in the running store (R137). -/
def countFault (u : Units) : Units := u.setIu { u.iu with faults := saturate 65535 u.iu.faults }

/-! ## Posts (R160) -/

/-- A notice of a kind with no field used. -/
def Notice.plain (k : NoticeKind) : Notice := ⟨k, none, none, none, none, none, none, none, 0⟩

/-- A post on its way to the Notice Unit. -/
def post (src : Poster) (dest : Recipients) (n : Notice) (u : Units) : Units :=
  { u with nu := { u.nu with posts := u.nu.posts ++ [⟨src, dest, n⟩] } }

/-- An INTEGRITY notice, to every port holding authority when it is posted (R141). -/
def postIntegrity (src : Poster) (reason : NoticeReason) (part key seg : Option Nat) (u : Units) : Units :=
  post src .authority { Notice.plain .integrity with part := part, key := key, seg := seg, reason := some reason } u

/-! ## Result codes and outcomes (R175, R178) -/

/-- Result codes take the values 0x01 to 0x1A in the order of their table (section 11.3). -/
def ResultCode.byte : ResultCode → Byte
  | .ok => 0x01 | .notReady => 0x02 | .unknownCommand => 0x03 | .unbound => 0x04 | .denied => 0x05
  | .locked => 0x06 | .badParam => 0x07 | .notFound => 0x08 | .quota => 0x09 | .indexFull => 0x0A
  | .noSpace => 0x0B | .held => 0x0C | .inTxn => 0x0D | .noTxn => 0x0E | .txnFull => 0x0F
  | .wrongPartition => 0x10 | .claimTimeout => 0x11 | .expired => 0x12 | .aborted => 0x13
  | .cancelled => 0x14 | .integrity => 0x15 | .media => 0x16 | .genExhausted => 0x17
  | .policyHeld => 0x18 | .policyInvalid => 0x19 | .watchFull => 0x1A

/-- An outcome with no outputs. -/
def Posting.code (c : ResultCode) : Posting := ⟨{ Results.zero with code := c.byte }, []⟩

/-- OK with outputs. -/
def Posting.okWith (r : Results) : Posting := ⟨{ r with code := ResultCode.byte .ok }, []⟩

/-- OK with a generation. -/
def Posting.generation (g : Nat) : Posting := Posting.okWith { Results.zero with gen := BitVec.ofNat 32 g }

/-- An outcome reaches its port; it is dropped when the command it answers was dropped (R175, R179). -/
def deliver (p : Port) (o : Posting) (u : Units) : Units :=
  u.modPort p fun x => if x.inHand.isSome then { x with outcome := some o } else x

def answer (p : Port) (c : ResultCode) (u : Units) : Units := deliver p (Posting.code c) u

/-! ## Jobs (R58) -/

/-- A job joins the tail of the writer job queue. -/
def sendJob (j : Job) (u : Units) : Units := u.setRw { u.rw with queue := u.rw.queue ++ [j] }

/-- Whether a job is a RECORD job of a port (R73, R179). -/
def Job.recordOf (p : Port) : Job → Bool
  | .record r => r.port == p
  | .removal q _ _ _ _ => q == p
  | _ => false

/-! ## The space wait list (R53, R103) -/

/-- The engine follows the list: URGENT while it holds a job (R103). -/
def followSpaceList (u : Units) : Units :=
  u.setCe { u.ce with mode := if u.iu.spaceWait.isEmpty then .normal else .urgent }

/-- A job joins the list. It is a restart event (R115), and an engine that waits in its sweep presents NO_VICTIM
again (R114); one that repeats its sweep is taken as not waiting (log 61). -/
def joinSpaceList (r : RecordJob) (cells : Nat) (u : Units) : Units :=
  let u := u.setIu { u.iu with spaceWait := u.iu.spaceWait ++ [⟨r.port, r, cells⟩] }
  let u := followSpaceList (u.setCe { u.ce with restart := true })
  if u.ce.step = .sweepWaiting then present .engine .noVictim u else u

/-- The entry of a port leaves the list. -/
def leaveSpaceList (p : Port) (u : Units) : Units :=
  followSpaceList (u.setIu { u.iu with spaceWait := u.iu.spaceWait.filter (fun w => w.port != p) })

/-- The job of a port on the list. -/
def waitingJob (p : Port) (u : Units) : Option RecordJob :=
  (u.iu.spaceWait.find? (fun w => w.port == p)).map (·.job)

/-! ## The end of a drain (R179) -/

/-- Whether the session is COMMITTING for a port (R155). -/
def Session.committingBy (p : Port) : Session → Bool
  | .committing q _ _ => q == p
  | _ => false

/-- The job has left the Writer for the space wait list, or has ended; the Writer still closes the head that had no room
for it (R53, R58, R60). -/
def CurJob.left (c : CurJob) : Bool :=
  match c.step with
  | .head (.closing _ _ .wait) => true
  | _ => false

/-- Whether any RECORD job of a port is queued, current or waiting for space (R73). -/
def hasRecordJob (p : Port) (u : Units) : Bool :=
  u.rw.queue.any (Job.recordOf p)
  || (match u.rw.cur with | some c => !c.left && c.job.recordOf p | none => false)
  || u.iu.spaceWait.any (fun w => w.port == p)

/-- Each of the four things a draining port waits for has ended (R179). -/
def workEnded (p : Port) (u : Units) : Bool :=
  (u.port p).stale.isNone && !hasRecordJob p u && (u.slot p).state == .none && !u.pu.session.committingBy p

/-- A draining port goes READY when its work has ended, between frames (R167, R179). -/
def settle (p : Port) (u : Units) : Units :=
  if (u.port p).draining && (u.port p).frame.isNone && workEnded p u then
    u.modPort p fun x => { x with state := .ready, draining := false }
  else u

/-! ## Policy values (R139) -/

/-- A partition entry of the shadow. -/
def Shadow.part (s : Shadow) (n : Nat) : PartEntry := s.parts.getD n ⟨false, false, 0, 1, Four.all .none⟩

/-- The partition is enabled and the port holds READ or WRITE (R140). -/
def Shadow.mayRead (s : Shadow) (p : Port) (part : Nat) : Bool :=
  (s.part part).enabled && (s.part part).rights.get p != .none

/-- The partition is enabled and the port holds WRITE (R140). -/
def Shadow.mayWrite (s : Shadow) (p : Port) (part : Nat) : Bool :=
  (s.part part).enabled && (s.part part).rights.get p == .write

/-- The port holds policy authority (R141). -/
def Shadow.authority (s : Shadow) (p : Port) : Bool := (s.ports.get p).authority

/-- The lock level of a partition (R146). -/
def lockOf (u : Units) (part : Nat) : LockLevel := u.pu.locks.getD part .opened

/-! ## The low-water mark (R54, R101) -/

/-- The engine compares the erased count with the mark: at or below it the run goes ON (R101). -/
def compareRun (u : Units) : Units :=
  if u.iu.erasedCount ≤ u.pu.shadow.lowWater then u.setCe { u.ce with lowRun := true } else u

/-- The erased count fell, or the mark was set: SPACE_LOW when the count is at or below the mark and the arm is
ARMED; the arm goes ARMED when the count is above it (R54). -/
def compareLow (u : Units) : Units :=
  let v :=
    if u.iu.erasedCount ≤ u.pu.shadow.lowWater then
      if u.iu.armed then post .index .every (Notice.plain .spaceLow) (u.setIu { u.iu with armed := false }) else u
    else u.setIu { u.iu with armed := true }
  compareRun v

/-- The erased count rose (R54, R101). -/
def compareRise (u : Units) : Units :=
  compareRun (if u.iu.erasedCount ≤ u.pu.shadow.lowWater then u else u.setIu { u.iu with armed := true })

end Sys2Proof.Machine
end

