-- ==== Sys2Proof/Machine/Index.lean ====
section
/-! DEFINITION. The Index Unit's tables and what each claim does to them (R37 to R54). -/

namespace Sys2Proof.Machine

namespace IndexUnit

/-! ## The index table (R37, R39) -/

/-- The entry of a key. -/
def find (iu : IndexUnit) (part key : Nat) : Option Entry :=
  iu.entries.find? (fun e => e.part == part && e.key == key)

/-- The order of entries: partition, then key (R37). -/
def Entry.before (x y : Entry) : Bool := decide (x.part < y.part ∨ (x.part = y.part ∧ x.key < y.key))

/-- An entry inserted at its place, or replaced (R43). -/
def insertEntry (e : Entry) : List Entry → List Entry
  | [] => [e]
  | x :: xs =>
    if Entry.before e x then e :: x :: xs
    else if x.part = e.part ∧ x.key = e.key then e :: xs
    else x :: insertEntry e xs

def removeEntry (part key : Nat) (es : List Entry) : List Entry :=
  es.filter (fun e => !(e.part == part && e.key == key))

/-- The entries of a partition with keys greater than the start key, up to 64, and whether further ones follow
(R39). -/
def range (iu : IndexUnit) (part : Nat) (after : Option Nat) : List Entry × Bool :=
  let es := iu.entries.filter fun e => e.part == part && (match after with | some k => decide (k < e.key) | none => true)
  (es.take 64, decide (64 < es.length))

/-! ## Charge record and reservations (R40 to R42) -/

/-- A staged change of a partition's open transaction that stands for its key: the last one accepted (R41, R42). -/
def stagedFor (cs : List ChargeEntry) (part key : Nat) : Option ChargeEntry :=
  (cs.filter (fun c => c.staged && c.part == part && c.key == key)).getLast?

/-- The staged changes that stand, one per key (R41). -/
def stagedOf (cs : List ChargeEntry) (part : Nat) : List ChargeEntry :=
  let keys := ((cs.filter (fun c => c.staged && c.part == part)).map (·.key)).eraseDups
  keys.filterMap (stagedFor cs part)

def changeCells (op : ChangeOp) (cells : Nat) : Nat := if op = .write then cells else 0

/-- The charge of a partition under a charge record: the three parts of R41. -/
def chargeWith (iu : IndexUnit) (cs : List ChargeEntry) (part : Nat) : Nat :=
  let unstaged (key : Nat) : Bool := (stagedFor cs part key).isNone
  let indexed := ((iu.entries.filter (fun e => e.part == part && unstaged e.key)).map (·.cells)).sum
  let staged := ((stagedOf cs part).map (fun c => changeCells c.op c.cells)).sum
  let single := ((cs.filter (fun c => !c.staged && c.part == part && c.op == .write && unstaged c.key)).map
    (fun c => c.cells - ((iu.find part c.key).map (·.cells)).getD 0)).sum
  indexed + staged + single

/-- The charge of a partition (R41). -/
def charge (iu : IndexUnit) (part : Nat) : Nat := iu.chargeWith iu.charges part

/-- The keys with a reservation: no entry, and a write pending (R40). A staged write under a later staged change of its key
is still pending: it is a member until the change is reported, and stays one where the stage fails (R87, R88, log 26). -/
def reservations (iu : IndexUnit) : List (Nat × Nat) :=
  ((iu.charges.filter (fun c => c.op == .write && (iu.find c.part c.key).isNone)).map (fun c => (c.part, c.key))).eraseDups

/-- Entries plus reservations (R40). -/
def slotsUsed (iu : IndexUnit) : Nat := iu.entries.length + iu.reservations.length

/-- A CHARGE is answered so (R42). -/
inductive ChargeAnswer where
  | ok | removed | refused (c : ResultCode)
deriving DecidableEq, Repr

/-- A write accepted, or refused QUOTA before INDEX_FULL (R42). -/
def chargeWrite (iu : IndexUnit) (p : Port) (staged : Bool) (part key cells quota : Nat) :
    IndexUnit × ChargeAnswer :=
  let cs := iu.charges ++ [⟨p, staged, part, key, .write, cells⟩]
  let after := { iu with charges := cs }
  if quota < iu.chargeWith cs part then (iu, .refused .quota)
  else if Config.indexSlots < after.slotsUsed then (iu, .refused .indexFull)
  else (after, .ok)

/-- A CHARGE claim (R42); `lost` is the record of the member a REMOVED takes away, whose cells are counted dead. -/
def takeCharge (iu : IndexUnit) (p : Port) (part key : Nat) (op : ChargeOp) (cells quota : Nat)
    (lost : Option Displaced) : IndexUnit × ChargeAnswer :=
  match op with
  | .write => iu.chargeWrite p false part key cells quota
  | .stageWrite => iu.chargeWrite p true part key cells quota
  | .delete =>
    if (iu.find part key).isNone then (iu, .refused .notFound)
    else ({ iu with charges := iu.charges ++ [⟨p, false, part, key, .delete, 1⟩] }, .ok)
  | .stageDelete =>
    if (iu.find part key).isSome then
      ({ iu with charges := iu.charges ++ [⟨p, true, part, key, .delete, 1⟩] }, .ok)
    else match lost with
      | some d =>
        let iu := { iu with
          charges := iu.charges.filter (fun c => !(c.staged && c.port == p && c.part == part && c.key == key)) }
        (iu.kill d.loc d.cells, .removed)
      | none => (iu, .refused .notFound)

/-- The first change of a key by a port's transaction leaves the charge record. -/
def dropFirst (p : Port) (key : Nat) : List ChargeEntry → List ChargeEntry
  | [] => []
  | c :: cs => if c.staged && c.port == p && c.key == key then cs else c :: dropFirst p key cs

/-- The last change of a key by a port's transaction leaves the charge record. -/
def dropLast (p : Port) (key : Nat) (cs : List ChargeEntry) : List ChargeEntry := (dropFirst p key cs.reverse).reverse

/-- The single write or delete of a port leaves the charge record. -/
def dropSingle (p : Port) (cs : List ChargeEntry) : List ChargeEntry :=
  cs.filter (fun c => c.staged || c.port != p)

/-- Every staged change of a port leaves the charge record. -/
def dropStaged (p : Port) (cs : List ChargeEntry) : List ChargeEntry :=
  cs.filter (fun c => !(c.staged && c.port == p))

/-- A RELEASE claim (R42, R47); `members` are those of the slot, whose cells are counted dead. -/
def takeRelease (iu : IndexUnit) (what : ReleaseWhat) (members : List Member) : IndexUnit :=
  match what with
  | .single p => { iu with charges := dropSingle p iu.charges }
  | .stagePending p key => { iu with charges := dropLast p key iu.charges }
  | .stageReplaced p key loc cells => { iu with charges := dropFirst p key iu.charges }.kill loc cells
  | .members p =>
    members.foldl (fun iu m => iu.kill m.loc m.cells) { iu with charges := dropStaged p iu.charges }

/-! ## Switches (R43, R44, R46) -/

/-- A displaced location is returned with a pin, its cells counted dead (R43). -/
def displace (iu : IndexUnit) (old : Option Entry) : IndexUnit × Option Displaced :=
  match old with
  | some e => ((iu.kill e.loc e.cells).takePin e.loc.seg, some ⟨e.loc, e.cells⟩)
  | none => (iu, none)

/-- One key changed: its entry replaced, inserted or removed, and the displaced location (R43). -/
def switchKey (iu : IndexUnit) (e : Entry) (deletes : Bool) : IndexUnit × Option Displaced :=
  let old := iu.find e.part e.key
  let entries := if deletes then removeEntry e.part e.key iu.entries else insertEntry e iu.entries
  { iu with entries := entries }.displace old

/-- A SWITCH claim (R43). -/
def takeSwitch (iu : IndexUnit) (s : SwitchClaim) : IndexUnit × Option Displaced :=
  let iu : IndexUnit := { iu with charges := dropSingle s.source iu.charges }
  iu.switchKey ⟨s.part, s.key, s.loc, s.length, s.gen, s.cells⟩ (s.kind != RecordKind.data)

/-- The members switched in member list order, with their displaced locations (R44). -/
def switchMembers (part : Nat) : List Member → IndexUnit → IndexUnit × List (Option Displaced)
  | [], iu => (iu, [])
  | m :: ms, iu =>
    let r := iu.switchKey ⟨part, m.key, m.loc, m.length, m.gen, m.cells⟩ (m.op == .delete)
    let rest := switchMembers part ms r.1
    (rest.1, r.2 :: rest.2)

/-- A COMMIT_SWITCH claim (R44). -/
def takeCommitSwitch (iu : IndexUnit) (part txn : Nat) (loc : Location) (p : Port) (ms : List Member) :
    IndexUnit × List (Option Displaced) :=
  let r := switchMembers part ms { iu with charges := dropStaged p iu.charges }
  ({ r.1 with commitSet := r.1.commitSet ++ [⟨txn, part, loc⟩] }, r.2)

/-- Whether the commit set holds a number (R45). -/
def inSet (iu : IndexUnit) (txn : Nat) : Bool := iu.commitSet.any (fun c => c.txn == txn)

/-- Where the commit set places a number (R68). -/
def commitLoc (iu : IndexUnit) (txn : Nat) : Option Location :=
  (iu.commitSet.find? (fun c => c.txn == txn)).map (·.loc)

/-- The location of a key's entry changed, its other fields unchanged (R46). -/
def moveEntry (part key : Nat) (copy : Location) (es : List Entry) : List Entry :=
  es.map fun e => if e.part = part ∧ e.key = key then { e with loc := copy } else e

/-- The location of a commit set member changed (R46). -/
def moveCommit (txn : Nat) (copy : Location) (cs : List CommitEntry) : List CommitEntry :=
  cs.map fun c => if c.txn = txn then { c with loc := copy } else c

/-- A COPY_SWITCH claim, MOVED or STALE (R46). -/
def takeCopySwitch (iu : IndexUnit) (what : CopyFor) (orig copy : Location) (cells : Nat) : IndexUnit × Bool :=
  match what with
  | .entry part key =>
    if (iu.find part key).any (fun e => e.loc == orig) then
      ({ iu with entries := moveEntry part key copy iu.entries }.kill orig cells, true)
    else (iu.kill copy cells, false)
  | .commitMember txn =>
    if iu.commitSet.any (fun c => c.txn == txn && c.loc == orig) then
      ({ iu with commitSet := moveCommit txn copy iu.commitSet }.kill orig cells, true)
    else (iu.kill copy cells, false)

/-- A REPORT of a retired COMMIT record: none when the number leaves the set, or where the set names it (R45, R68). -/
def takeCommitReport (iu : IndexUnit) (txn : Nat) (loc : Location) : IndexUnit × Option Location :=
  match iu.commitLoc txn with
  | none => (iu, none)
  | some at_ =>
    if at_ = loc then
      ({ iu with commitSet := iu.commitSet.filter (fun c => c.txn != txn) }.kill loc 1, none)
    else (iu, some at_)

/-! ## Heads and allocation (R50 to R52) -/

/-- Which head a claimant fills. -/
def head (iu : IndexUnit) (forCopy : Bool) : Option Nat := if forCopy then iu.copyHead else iu.writeHead

def setHead (iu : IndexUnit) (forCopy : Bool) (h : Option Nat) : IndexUnit :=
  if forCopy then { iu with copyHead := h } else { iu with writeHead := h }

/-- The least-worn segment of a list of numbered entries that is available, the lowest number among equals (R50). -/
def leastWorn : List (SegEntry × Nat) → Option (SegEntry × Nat)
  | [] => none
  | x :: xs =>
    match leastWorn xs with
    | none => if x.1.avail then some x else none
    | some y => if x.1.avail && decide (x.1.eraseCount ≤ y.1.eraseCount) then some x else some y

/-- A head is taken from the erased segments: the segment, the sequence number and the preparation (R50). -/
def takeHead (iu : IndexUnit) : Option (IndexUnit × NewHead) :=
  match leastWorn (iu.segs.zipIdx Config.firstData) with
  | none => none
  | some (e, n) =>
    some ({ iu.modSeg n (fun e => { e with avail := false }) with seqNext := iu.seqNext + 1 },
      ⟨n, iu.seqNext, if e.state = .blank then some e.eraseCount else none⟩)

/-- A head leaves its role: next free cell 128, its unallocated cells dead (R47, R51). -/
def leaveRole (iu : IndexUnit) (seg : Nat) : IndexUnit :=
  iu.modSeg seg fun e => { e with next := 128, dead := e.dead + (128 - e.next) }

/-- No head: a new one, WAIT or NONE (R51, R52). -/
def openHead (iu : IndexUnit) (forCopy : Bool) : IndexUnit × AllocRest :=
  if (if forCopy then 0 else 2) < iu.erasedCount then
    match iu.takeHead with
    | some r => (r.1, .newHead r.2)
    | none => (iu, if forCopy then .none else .wait)
  else (iu, if forCopy then .none else .wait)

/-- An ALLOCATE claim for `n` cells: the head to close, if any, and the rest of the answer (R51, R52). -/
def takeAllocate (iu : IndexUnit) (forCopy : Bool) (n : Nat) : IndexUnit × Option Nat × AllocRest :=
  match iu.head forCopy with
  | some h =>
    let e := iu.seg h
    if e.next + n ≤ 128 then
      (iu.modSeg h fun e => { e with next := e.next + n, live := e.live + n }, none, .place ⟨h, e.next⟩)
    else
      let r := ((iu.leaveRole h).setHead forCopy none).openHead forCopy
      (r.1, some h, r.2)
  | none =>
    let r := iu.openHead forCopy
    (r.1, none, r.2)

/-- An OPENED claim (R50). -/
def takeOpened (iu : IndexUnit) (forCopy : Bool) (h : NewHead) : IndexUnit :=
  (iu.modSeg h.seg fun e =>
    { e with state := .active, seq := some h.seq, next := 1, live := 0, dead := 0, avail := false,
             eraseCount := h.prepare.getD e.eraseCount }).setHead forCopy (some h.seg)

/-- A closing program is reported complete: the segment is FULL (R51). -/
def nowFull (iu : IndexUnit) (seg : Nat) : IndexUnit := iu.modSeg seg fun e => { e with state := .full }

/-- A CLOSE claim: a head leaves its role and is suspect, or a segment is withdrawn (R50, R51). -/
def takeClose (iu : IndexUnit) (forCopy : Bool) (seg : Nat) (reason : CloseReason) : IndexUnit :=
  match reason with
  | .suspect =>
    ((iu.leaveRole seg).setHead forCopy none).modSeg seg fun e => { e with suspect := true }
  | .bad => iu.modSeg seg fun e => { e with state := .bad, avail := false }

/-- A PREPARED claim (R47, R53, R118). -/
def takePrepared (iu : IndexUnit) (seg count : Nat) : IndexUnit :=
  iu.modSeg seg fun e =>
    { e with state := .prepared, eraseCount := count, seq := none, next := 1, live := 0, dead := 0,
             suspect := false, avail := true }

/-- A RECLAIMING claim (R106). -/
def takeReclaiming (iu : IndexUnit) (seg : Nat) : IndexUnit := iu.modSeg seg fun e => { e with state := .reclaiming }

/-- An ERASED claim: BLANK, and not yet among the erased segments (R117). -/
def takeErased (iu : IndexUnit) (seg : Nat) : IndexUnit :=
  iu.modSeg seg fun e => { e with state := .blank, seq := none }

/-- What a SWEEP claim names: entries and commit set members located in the victim (R114). -/
def named (iu : IndexUnit) (victim : Nat) : List Named :=
  (iu.entries.filter (fun e => e.loc.seg == victim)).map (fun e => Named.entry e.part e.key e.loc)
  ++ (iu.commitSet.filter (fun c => c.loc.seg == victim)).map (fun c => Named.commitMember c.txn c.part c.loc)

/-- A LOSS claim: the entry removed if it still names the location, its cells dead (R114). -/
def takeLoss (iu : IndexUnit) (part key : Nat) (loc : Location) : IndexUnit × Bool :=
  match iu.find part key with
  | some e =>
    if e.loc = loc then ({ iu with entries := removeEntry part key iu.entries }.kill loc e.cells, true) else (iu, false)
  | none => (iu, false)

/-! ## What INFO reads (R178) -/

/-- The segments that are not BAD. -/
def sound (iu : IndexUnit) : List SegEntry := iu.segs.filter (fun e => e.state != .bad)
def deadCount (iu : IndexUnit) : Nat := (iu.sound.map (·.dead)).sum
def badCount (iu : IndexUnit) : Nat := iu.segs.countP (fun e => e.state == .bad)
def leastErase (iu : IndexUnit) : Nat :=
  match iu.sound.map (·.eraseCount) with
  | [] => Config.noLeastErase (iu.segs.map (·.eraseCount))
  | c :: cs => cs.foldl min c
def greatestErase (iu : IndexUnit) : Nat :=
  match iu.sound.map (·.eraseCount) with
  | [] => Config.noGreatestErase (iu.segs.map (·.eraseCount))
  | c :: cs => cs.foldl max c

end IndexUnit

end Sys2Proof.Machine
end

