-- ==== Sys2Proof/Machine/Operands.lean ====
section
/-! DEFINITION. The operands of the port commands: the window's fields, the command codes, and the range of every
parameter (R169, R178, R182). -/

namespace Sys2Proof.Machine

/-! ## Command codes (section 11.3) -/

def Cmd.code : Cmd → Byte
  | .read => 0x10 | .stat => 0x11 | .list => 0x12 | .write => 0x20 | .delete => 0x21
  | .begin => 0x30 | .stageWrite => 0x31 | .stageDelete => 0x32 | .commit => 0x33 | .abort => 0x34
  | .renew => 0x35 | .bind => 0x40 | .freeze => 0x41 | .watch => 0x50 | .unwatch => 0x51
  | .noticePop => 0x52 | .policyRead => 0x60 | .policyLoad => 0x61 | .policyCommit => 0x62
  | .policyDiscard => 0x63 | .reclaim => 0x70 | .info => 0x71

def allCmds : List Cmd :=
  [.read, .stat, .list, .write, .delete, .begin, .stageWrite, .stageDelete, .commit, .abort, .renew, .bind,
   .freeze, .watch, .unwatch, .noticePop, .policyRead, .policyLoad, .policyCommit, .policyDiscard, .reclaim, .info]

/-- The command a code stands for (R176 step 1). -/
def Cmd.ofCode (b : Byte) : Option Cmd := allCmds.find? (fun c => c.code == b)

/-! ## Window offsets (section 11.3) -/

def offCommand : Nat := 0x000
def offControl : Nat := 0x001
def offEnables : Nat := 0x002
def bufferBase : Nat := 0x100
def windowBytes : Nat := 512

/-- The control actions (R182). -/
def ctlAck : Byte := 0x01
def ctlCancel : Byte := 0x02
def ctlReset : Byte := 0x03

def hiByte (h : Half) : Byte := (h >>> 8).setWidth 8
def loByte (h : Half) : Byte := h.setWidth 8
def half (hi lo : Byte) : Half := hi ++ lo

/-- A parameter field byte written (R169); none where no parameter field lies. -/
def Params.write (q : Params) (off : Nat) (b : Byte) : Option Params :=
  match off with
  | 0x004 => some { q with slot := b }
  | 0x005 => some { q with flags := b }
  | 0x006 => some { q with key := half b (loByte q.key) }
  | 0x007 => some { q with key := half (hiByte q.key) b }
  | 0x008 => some { q with length := b }
  | 0x009 => some { q with offset := b }
  | 0x00A => some { q with part := b }
  | 0x00B => some { q with source := b }
  | _ => none

/-- A byte of the window as a master reads it (R169, R182). -/
def MasterPort.windowByte (x : MasterPort) (off : Nat) : Byte :=
  if bufferBase ≤ off then x.buffer.getD (off - bufferBase) 0
  else match off with
    | 0x000 => x.command
    | 0x002 => (if x.enDone then 1 else 0) ||| (if x.enNotice then 2 else 0)
    | 0x004 => x.params.slot
    | 0x005 => x.params.flags
    | 0x006 => hiByte x.params.key
    | 0x007 => loByte x.params.key
    | 0x008 => x.params.length
    | 0x009 => x.params.offset
    | 0x00A => x.params.part
    | 0x00B => x.params.source
    | 0x020 => x.results.code
    | 0x021 => x.results.recLength
    | 0x022 => x.results.count
    | 0x023 => x.results.cells
    | 0x024 => x.results.flags
    | 0x025 => x.results.lost
    | 0x026 => hiByte x.results.txn
    | 0x027 => loByte x.results.txn
    | 0x028 => (x.results.gen >>> 24).setWidth 8
    | 0x029 => (x.results.gen >>> 16).setWidth 8
    | 0x02A => (x.results.gen >>> 8).setWidth 8
    | 0x02B => x.results.gen.setWidth 8
    | 0x02C => hiByte x.results.lease
    | 0x02D => loByte x.results.lease
    | 0x02E => x.results.watchPart
    | 0x02F => x.results.source
    | 0x030 => x.results.copy
    | _ => 0

/-! ## Parameters as the commands read them (R178, R182) -/

def Params.keyNat (q : Params) : Nat := q.key.toNat
def Params.lengthNat (q : Params) : Nat := q.length.toNat
def Params.offsetNat (q : Params) : Nat := q.offset.toNat
/-- Flags bit 0 is ALL, bit 1 is wait; the others are ignored (R182). -/
def Params.allFlag (q : Params) : Bool := q.flags.getLsbD 0
def Params.waitFlag (q : Params) : Bool := q.flags.getLsbD 1

def Params.keyOk (q : Params) : Bool := decide (q.keyNat ≤ 65534)
def Params.lengthOk (q : Params) : Bool := decide (q.lengthNat ≤ 240)

/-- Every parameter of a command lies in its range (R176 step 6, R178); BIND is decided by R145 in its own order. -/
def Cmd.rangesOk (c : Cmd) (q : Params) : Bool :=
  match c with
  | .read => q.keyOk && q.lengthOk && decide (q.offsetNat ≤ 240)
  | .stat | .delete | .stageDelete => q.keyOk
  | .write | .stageWrite => q.keyOk && q.lengthOk
  | .watch => q.allFlag || q.keyOk
  | .unwatch => decide (q.part.toNat ≤ 15) && (q.allFlag || q.keyOk)
  | .policyRead => decide (q.source.toNat ≤ 1)
  | _ => true

/-- The key a WATCH or UNWATCH names, or none for ALL (R157). -/
def Params.watchKey (q : Params) : Option Nat := if q.allFlag then none else some q.keyNat

/-- The start of a LIST: a start key of 65,535 lists from key 0 (R177). -/
def Params.listAfter (q : Params) : Option Nat := if q.keyNat = 65535 then none else some q.keyNat

/-! ## Rights and locks a command needs (R143) -/

/-- What the Policy Unit checks of a command. -/
inductive Need where
  | slotRead | slotWrite (lockTest : Bool) | authority | nothing
deriving DecidableEq, Repr

def Cmd.need : Cmd → Need
  | .read | .stat | .list | .watch => .slotRead
  | .write | .delete | .begin | .stageWrite | .stageDelete => .slotWrite true
  | .freeze => .slotWrite false
  | .policyLoad | .policyCommit | .policyDiscard | .reclaim => .authority
  | .commit | .abort | .renew | .bind | .unwatch | .noticePop | .policyRead | .info => .nothing

/-- The partition a view slot byte resolves to (R143, R144); a slot byte above 3 is unbound. -/
def resolve (p : Port) (slot : Byte) (u : Units) : Option Nat :=
  if slot.toNat ≤ 3 then (u.pu.views.get p).at slot.toNat else none

/-- Steps 3 to 6 of the check order for a command (R143, R176): the partition the slot resolves to, 0 where the
command names none, or the code of the first test that fails. -/
def checkCommand (c : Cmd) (p : Port) (q : Params) (u : Units) : Except ResultCode Nat :=
  let ranges (part : Nat) : Except ResultCode Nat := if c.rangesOk q then .ok part else .error .badParam
  match c.need with
  | .nothing => ranges 0
  | .authority => if u.pu.shadow.authority p then ranges 0 else .error .denied
  | .slotRead =>
    match resolve p q.slot u with
    | none => .error .unbound
    | some part => if u.pu.shadow.mayRead p part then ranges part else .error .denied
  | .slotWrite lockTest =>
    match resolve p q.slot u with
    | none => .error .unbound
    | some part =>
      if !u.pu.shadow.mayWrite p part then .error .denied
      else if lockTest && lockOf u part != .opened then .error .locked
      else ranges part

end Sys2Proof.Machine
end

