-- ==== Sys2Proof/Machine/Policy.lean ====
section
/-! DEFINITION. The Policy Unit: the policy image, views, lock levels, the edit session and the commit of a policy
(R139 to R155, R181). -/

namespace Sys2Proof.Machine

/-- The factory default policy (R142). -/
def factoryPolicy : Shadow := Shadow.factory

/-! ## The policy image (R181, section 8.2) -/

def imageBytes : Nat := 176
def imageCells : Nat := 11
def policyBlank : Byte := 0xFF
def policyWritten : Byte := 0x7F
def policyValid : Byte := 0x3F

def rightByte : Right → Byte
  | .none => 0x00 | .read => 0x01 | .write => 0x02

def readRight (b : Byte) : Option Right :=
  match b.toNat with
  | 0 => some .none | 1 => some .read | 2 => some .write | _ => none

def viewByte : Option Nat → Byte
  | some part => BitVec.ofNat 8 part
  | none => 0xFF

/-- A default view slot: a partition, UNBOUND, or no code (section 11.1). -/
def readView (b : Byte) : Option (Option Nat) :=
  if b.toNat ≤ 15 then some (some b.toNat) else if b = 0xFF then some none else none

def PartEntry.bytes (e : PartEntry) : List Byte :=
  ((if e.enabled then 1 else 0) ||| (if e.fixed then 2 else 0)) :: toBytes 2 e.quota ++ toBytes 2 e.lease
    ++ [rightByte e.rights.a, rightByte e.rights.b, rightByte e.rights.c, rightByte e.rights.d]

def PortEntry.bytes (e : PortEntry) : List Byte :=
  [if e.authority then 1 else 0, BitVec.ofNat 8 e.waitLimit, viewByte e.defaultView.a, viewByte e.defaultView.b,
   viewByte e.defaultView.c, viewByte e.defaultView.d]

/-- Partition entry `n` of an image, if every field is in its range (section 11.1). -/
def readPart (bs : List Byte) (n : Nat) : Option PartEntry := do
  let o := 5 + 9 * n
  let flags := field bs o 1
  let quota := field bs (o + 1) 2
  let lease := field bs (o + 3) 2
  let a ← readRight (bs.getD (o + 5) 0)
  let b ← readRight (bs.getD (o + 6) 0)
  let c ← readRight (bs.getD (o + 7) 0)
  let d ← readRight (bs.getD (o + 8) 0)
  if flags ≤ 3 ∧ quota ≤ 7874 ∧ 1 ≤ lease ∧ lease ≤ 6000 then
    some ⟨flags % 2 == 1, flags / 2 == 1, quota, lease, ⟨a, b, c, d⟩⟩
  else none

/-- Port entry of an image, if every field is in its range (section 11.1). -/
def readPortEntry (bs : List Byte) (n : Nat) : Option PortEntry := do
  let o := 149 + 6 * n
  let auth := field bs o 1
  let a ← readView (bs.getD (o + 2) 0)
  let b ← readView (bs.getD (o + 3) 0)
  let c ← readView (bs.getD (o + 4) 0)
  let d ← readView (bs.getD (o + 5) 0)
  if auth ≤ 1 then some ⟨auth == 1, field bs (o + 1) 1, ⟨a, b, c, d⟩⟩ else none

/-- The policy of an image; none when a field lies outside its range (R123, R151). -/
def readPolicy (bs : List Byte) : Option Shadow := do
  let parts ← (List.range 16).mapM (readPart bs)
  let a ← readPortEntry bs 0
  let b ← readPortEntry bs 1
  let c ← readPortEntry bs 2
  let d ← readPortEntry bs 3
  let low := field bs 173 1
  if 3 ≤ low ∧ low ≤ 16 then some ⟨parts, ⟨a, b, c, d⟩, low, field bs 1 4⟩ else none

/-- An image from its validity, sequence and the bytes at offsets 5 to 173, with its check (R181). -/
def sealImage (validity : Byte) (seq : Nat) (body : List Byte) : List Byte :=
  let covered := toBytes 4 seq ++ body
  validity :: covered ++ toBytes 2 (crc covered)

/-- Offsets 5 to 173 of the shadow's image. -/
def Shadow.body (s : Shadow) : List Byte :=
  s.parts.flatMap PartEntry.bytes ++ s.ports.a.bytes ++ s.ports.b.bytes ++ s.ports.c.bytes ++ s.ports.d.bytes
    ++ toBytes 1 s.lowWater

/-- The image POLICY_READ with SHADOW builds (R150). -/
def Shadow.image (s : Shadow) : List Byte := sealImage policyValid s.seq s.body

/-- The image's check matches (R16, R181). -/
def imageCheckOk (bs : List Byte) : Bool := crc (slice bs 1 173) == field bs 174 2

/-- A usable image of a policy segment (R123). -/
def usableImage (bs : List Byte) : Option Shadow :=
  if bs.getD 0 erasedByte = policyValid ∧ imageCheckOk bs then readPolicy bs else none

/-! ## Views and lock levels (R144, R146) -/

/-- A port's view from its default view: UNBOUND where the partition is disabled or the right is NONE (R144). -/
def Shadow.viewFor (s : Shadow) (p : Port) : Four (Option Nat) :=
  let bindable (v : Option Nat) : Option Nat := v.filter (fun part => s.mayRead p part)
  (s.ports.get p).defaultView.map fun _ v => bindable v

/-- Lock levels at the mount hand-over (R146). -/
def Shadow.locks (s : Shadow) : List LockLevel := s.parts.map fun e => if e.fixed then .fixed else .opened

/-- A port's view is set from its default view (R144). -/
def setDefaultView (p : Port) (u : Units) : Units :=
  u.setPu { u.pu with views := u.pu.views.set p (u.pu.shadow.viewFor p) }

def setLock (part : Nat) (l : LockLevel) (u : Units) : Units := u.setPu { u.pu with locks := u.pu.locks.set part l }

/-- FREEZE of a partition by a port: an OPEN one goes FROZEN with a lock event, another is left (R147). -/
def freezePart (p : Port) (part : Nat) (u : Units) : Units :=
  if lockOf u part = .opened then
    let u := setLock part .frozen u
    { u with tm := { u.tm with lockEvents := u.tm.lockEvents ++ [⟨part, some p⟩] } }
  else u

/-- Whether a port holds the claim on a partition through its slot (R76). -/
def Slot.holds (s : Slot) (part : Nat) : Bool :=
  s.part == part && (s.state == .opened || s.state == .committing || s.state == .aborting)

/-- A BIND, the first case that applies deciding (R145); `target` is the partition byte. -/
def bindSlot (p : Port) (slot target : Byte) (u : Units) : Units × ResultCode :=
  if ¬ (slot.toNat ≤ 3 ∧ (target.toNat ≤ 15 ∨ target = 0xFF)) then (u, .badParam)
  else if (resolve p slot u).any (fun part => (u.slot p).holds part) then (u, .inTxn)
  else if target ≠ 0xFF ∧ ¬ u.pu.shadow.mayRead p target.toNat then (u, .denied)
  else
    let v := if target = 0xFF then none else some target.toNat
    (u.setPu { u.pu with views := u.pu.views.set p ((u.pu.views.get p).setAt slot.toNat v) }, .ok)

/-! ## The edit session (R148 to R151) -/

/-- POLICY_LOAD (R148). -/
def loadPolicy (p : Port) (image : List Byte) (u : Units) : Units × ResultCode :=
  match u.pu.session with
  | .none => (u.setPu { u.pu with session := .opened p (image.take imageBytes) }, .ok)
  | .opened q _ =>
    if q = p then (u.setPu { u.pu with session := .opened p (image.take imageBytes) }, .ok) else (u, .policyHeld)
  | .committing _ _ _ => (u, .policyHeld)

/-- POLICY_DISCARD (R149). -/
def discardPolicy (p : Port) (u : Units) : Units × ResultCode :=
  match u.pu.session with
  | .none => (u, .ok)
  | .opened q _ => if q = p then (u.setPu { u.pu with session := .none }, .ok) else (u, .policyHeld)
  | .committing _ _ _ => (u, .policyHeld)

/-- POLICY_READ: the image for the buffer, or the refusal (R150). -/
def readImage (p : Port) (staged : Bool) (u : Units) : Except ResultCode (List Byte) :=
  if !staged then .ok u.pu.shadow.image
  else match u.pu.session with
    | .none => .error .notFound
    | .opened q image => if q = p then .ok image else .error .policyHeld
    | .committing _ _ _ => .error .policyHeld

/-- The tests of a staged image against the shadow (R151). -/
def policyAdmissible (old new : Shadow) : Bool :=
  (List.range 16).all (fun n => !(old.part n).fixed || old.part n == new.part n)
  && allPorts.any (fun p => new.authority p)
  && allPorts.all (fun p => [0, 1, 2, 3].all fun k =>
      (((new.ports.get p).defaultView.at k).all fun part => (new.part part).enabled))
  && old.seq != 4294967295

/-- The Policy Unit wants an operation on the target (R152). -/
def policyRequest (seg : Nat) (op : ArrayOp) (u : Units) : Units :=
  u.setPu { u.pu with io := Io.asking ⟨.policy, seg, op⟩ }

def setSession (x : Session) (u : Units) : Units := u.setPu { u.pu with session := x }

/-- A POLICY_COMMIT after its authority check: a refusal, or the session goes COMMITTING and the write sequence
begins with the ERASE of the target (R151, R152). -/
def commitPolicy (p : Port) (u : Units) : Units × Option ResultCode :=
  match u.pu.session with
  | .none => (u, some .notFound)
  | .committing _ _ _ => (u, some .policyHeld)
  | .opened q staged =>
    if q ≠ p then (u, some .policyHeld)
    else match readPolicy staged with
      | none => (u, some .policyInvalid)
      | some new =>
        if !policyAdmissible u.pu.shadow new then (u, some .policyInvalid)
        else
          let target := match u.pu.inForce with | some 0 => 1 | _ => 0
          let image := sealImage policyWritten (u.pu.shadow.seq + 1) (slice staged 5 169)
          (policyRequest target .erase
            (setSession (.committing p staged ⟨target, image, .erase 1, false, false⟩) u), none)

/-! ## The write sequence and the apply point (R152 to R155) -/

/-- The request of a step. -/
def WriteSeq.op (w : WriteSeq) : ArrayOp :=
  match w.step with
  | .erase _ => .erase
  | .cell n _ => .program n (slice w.image (16 * n) 16)
  | .valid _ => .program 0 (firstByteProgram policyValid)

/-- The sequence goes to a step and presents its request. -/
def goSequence (p : Port) (staged : List Byte) (w : WriteSeq) (u : Units) : Units :=
  policyRequest w.target w.op (setSession (.committing p staged w) u)

/-- The sequence has ended without an apply point (R153, R155): MEDIA, and the session OPEN again, or NONE after a
port reset of the owner. -/
def failSequence (p : Port) (staged : List Byte) (w : WriteSeq) (u : Units) : Units :=
  let u := setSession (if w.noResult then .none else .opened p staged) u
  let u := postIntegrity .policy .policy none none (some w.target) u
  settle p (answer p .media u)

/-- The ports that had WRITE on a partition and no longer have it (R154). -/
def lostWrite (old new : Shadow) : List (Nat × Port) :=
  (List.range 16).flatMap fun n =>
    (allPorts.filter fun p => (old.part n).rights.get p == .write && (new.part n).rights.get p != .write).map
      fun p => (n, p)

/-- The partitions newly disabled (R154). -/
def newlyDisabled (old new : Shadow) : List Nat :=
  (List.range 16).filter fun n => (old.part n).enabled && !(new.part n).enabled

/-- The partitions newly fixed (R146), their lock events in ascending partition number (log 47). -/
def newlyFixed (old new : Shadow) : List Nat :=
  (List.range 16).filter fun n => (new.part n).fixed && !(old.part n).fixed

/-- The ports and partitions whose watches are removed (R154, R159). -/
def unreadable (new : Shadow) : List (Port × Nat) :=
  allPorts.flatMap fun p => ((List.range 16).filter fun n => !new.mayRead p n).map fun n => (p, n)

/-- Each view slot bound to a partition its port can no longer READ becomes UNBOUND (R144, R154). -/
def dropViews (new : Shadow) (views : Four (Four (Option Nat))) : Four (Four (Option Nat)) :=
  views.map fun p v => v.map fun _ b => b.filter (fun part => new.mayRead p part)

/-- The apply point (R154). -/
def applyPolicy (p : Port) (w : WriteSeq) (u : Units) : Units :=
  let old := u.pu.shadow
  let new := (readPolicy w.image).getD old
  let fixed := newlyFixed old new
  let u := u.setPu { u.pu with
    shadow := new, source := .loaded, inForce := some w.target, session := .none,
    views := dropViews new u.pu.views,
    locks := fixed.foldl (fun ls n => ls.set n .fixed) u.pu.locks }
  let u := { u with tm := { u.tm with
    lockEvents := u.tm.lockEvents ++ fixed.map (LockEvent.mk · none),
    revocations := u.tm.revocations ++ [Revocation.mk (lostWrite old new) (newlyDisabled old new)] } }
  let u := { u with nu := { u.nu with removals := u.nu.removals ++ [unreadable new] } }
  let u := post .policy .every { Notice.plain .policyChanged with source := some p } u
  let u := compareLow u
  settle p (deliver p (Posting.okWith { Results.zero with gen := BitVec.ofNat 32 new.seq }) u)

/-- The request of the write sequence has completed: `ok` is ERASED or VERIFIED (R152, R153, R155). A sequence that a port reset
stops ends without a notice, whatever `ok` (log 58). -/
def policyDone (ok : Bool) (u : Units) : Units :=
  match u.pu.session with
  | .committing p staged w =>
    if w.stopping then settle p (setSession .none u)
    else match w.step with
      | .erase tries =>
        if ok then goSequence p staged { w with step := .cell 0 1 } u
        else if tries < 2 then goSequence p staged { w with step := .erase (tries + 1) } u
        else failSequence p staged w u
      | .cell n tries =>
        if ok then goSequence p staged { w with step := if n + 1 < imageCells then .cell (n + 1) 1 else .valid 1 } u
        else if tries < 3 then goSequence p staged { w with step := .cell n (tries + 1) } u
        else failSequence p staged w u
      | .valid tries =>
        if ok then applyPolicy p w u
        else if tries < 3 then goSequence p staged { w with step := .valid (tries + 1) } u
        else failSequence p staged w u
  | _ => u

/-- A port reset at the Policy Unit: the view, also while MOUNTING (log 59), and the session if the port owns it (R144, R149,
R155). -/
def resetPolicy (p : Port) (u : Units) : Units :=
  let u := setDefaultView p u
  match u.pu.session with
  | .none => u
  | .opened q _ => if q = p then setSession .none u else u
  | .committing q staged w =>
    if q ≠ p then u
    else if !u.pu.io.presented then
      match w.step with
      | .valid 1 => (setSession .none u).setPu { (setSession .none u).pu with io := Io.none }
      | .valid _ => setSession (.committing q staged { w with noResult := true }) u
      | _ => (setSession .none u).setPu { (setSession .none u).pu with io := Io.none }
    else match w.step with
      | .valid _ => setSession (.committing q staged { w with noResult := true }) u
      | _ => setSession (.committing q staged { w with stopping := true }) u

end Sys2Proof.Machine
end

