-- ==== Sys2Proof/Machine/Txn.lean ====
section
/-! DEFINITION. The Transaction Manager: claims, numbers, leases, staging, member lists, aborts (R74 to R98). -/

namespace Sys2Proof.Machine

/-! ## Claims (R76) -/

/-- The claim holder of a partition (R76). -/
def holderOf (part : Nat) (u : Units) : Option Port := allPorts.find? fun p => (u.slot p).holds part

/-- The claim wait queue of a partition. -/
def claimQueue (part : Nat) (u : Units) : List Port := u.tm.queues.getD part []

def setClaimQueue (part : Nat) (q : List Port) (u : Units) : Units :=
  { u with tm := { u.tm with queues := u.tm.queues.set part q } }

/-- A port leaves a claim wait queue; those behind it move forward (R78). -/
def leaveQueue (part : Nat) (p : Port) (u : Units) : Units :=
  setClaimQueue part ((claimQueue part u).filter (· != p)) u

/-- A waiter leaves its queue and its BEGIN is answered (R78, R80). -/
def endWait (p : Port) (c : ResultCode) (u : Units) : Units :=
  answer p c ((leaveQueue (u.slot p).part p u).setSlot p Slot.start)

/-- How an end reason is reported (R75). -/
def EndReason.code : EndReason → ResultCode
  | .expired => .expired | .locked => .locked | .revoked => .aborted

def EndReason.notice : EndReason → NoticeReason
  | .expired => .expired | .locked => .locked | .revoked => .revoked

/-- Slots whose number is in use (R81). -/
def Slot.holding (s : Slot) : Bool := s.state == .opened || s.state == .committing || s.state == .aborting

/-! ## Transaction numbers (R81) -/

/-- A candidate is in use by another slot, in the commit set, or retained (R81). -/
def numberInUse (p : Port) (n : Nat) (u : Units) : Bool :=
  allPorts.any (fun q => q != p && (u.slot q).holding && (u.slot q).number == n)
  || u.iu.inSet n || u.tm.retained.any (fun r => r.1 == n)

/-- 65,535 is followed by 1 (R81). -/
def nextNumber (n : Nat) : Nat := if 65535 ≤ n then 1 else n + 1

/-- The first candidate not in use, from `n` on; `fuel` bounds the candidates that can be in use. -/
def pickNumber (p : Port) (u : Units) : Nat → Nat → Nat
  | 0, n => n
  | fuel + 1, n => if numberInUse p n u then pickNumber p u fuel (nextNumber n) else n

/-- The number a grant assigns (R81). -/
def newNumber (p : Port) (u : Units) : Nat :=
  pickNumber p u (4 + u.iu.commitSet.length + u.tm.retained.length) u.tm.counter

/-- A segment has been prepared after erase or withdrawn: what was retained with it is dropped (R81). -/
def dropRetained (seg : Nat) (u : Units) : Units :=
  { u with tm := { u.tm with retained := u.tm.retained.filter (fun r => r.2 != seg) } }

/-- A number retained with the segment of a record whose retire is short (R71, R81). -/
def retainNumber (n seg : Nat) (u : Units) : Units :=
  { u with tm := { u.tm with retained := u.tm.retained ++ [(n, seg)] } }

/-! ## Leases (R82) -/

/-- The lease length the shadow holds, in units of 10 ms. -/
def leaseUnits (part : Nat) (u : Units) : Nat := (u.pu.shadow.part part).lease

/-- A lease of `n` units that starts now: three quarters of it to the warning (R82). -/
def newLease (n : Nat) (u : Units) : Lease := ⟨u.clock + Config.ticksPerUnit * n, u.clock + 3 * n, true⟩

/-- The lease of a slot starts with the length in the shadow (R82, R83). -/
def startLease (p : Port) (u : Units) : Units :=
  u.modSlot p fun s => { s with lease := some (newLease (leaseUnits s.part u) u) }

/-- The clock has reached a deadline that has passed (log 3). -/
def reachTime (t : Nat) (u : Units) : Units := { u with clock := max u.clock t }

/-! ## Grant and release (R77, R79) -/

/-- A claim is granted: OPEN, an empty member list, a number, a lease, and the BEGIN answered (R77, R79). -/
def grantClaim (part : Nat) (p : Port) (u : Units) : Units :=
  let n := newNumber p u
  let units := leaseUnits part u
  let u := u.setSlot p { Slot.start with
    state := .opened, part := part, number := n, lease := some (newLease units u) }
  let u := { u with tm := { u.tm with counter := nextNumber n } }
  deliver p (Posting.okWith { Results.zero with txn := BitVec.ofNat 16 n, lease := BitVec.ofNat 16 units }) u

/-- An engine that waits in its sweep repeats it when a claim is released; one that is in a sweep notes the release, and
repeats the sweep when it comes to wait (R114, log 50). -/
def wakeSweep (u : Units) : Units :=
  if u.ce.step = .sweepWaiting then
    present .engine (.sweep (u.ce.victim.getD 0)) (u.setCe { u.ce with step := .sweepClaim })
  else if u.ce.state = .copy ∧ u.ce.todo.isSome then u.setCe { u.ce with again := true }
  else u

/-- Whether a revocation concerns a port's partition (R97). -/
def Revocation.hits (r : Revocation) (p : Port) (part : Nat) : Bool :=
  r.lost.contains (part, p) || r.disabled.contains part

/-- How an event that has been sent and whose row has not come ends a port's wait for a partition: a lock event before a
revocation (R80, R96, R97, log 66). -/
def waitDue (part : Nat) (q : Port) (u : Units) : Option ResultCode :=
  if u.tm.lockEvents.any (·.part == part) then some .locked
  else if u.tm.revocations.any (·.hits q part) then some .denied
  else none

/-- The waiters whose wait such an event ends leave the queue and are answered; the others keep their places (R80, log 66). -/
def answerDue (part : Nat) (u : Units) : Units :=
  let queue := claimQueue part u
  queue.foldl (fun v q =>
    match waitDue part q u with
    | some c => answer q c (v.setSlot q Slot.start)
    | none => v) (setClaimQueue part (queue.filter fun q => (waitDue part q u).isNone) u)

/-- A claim that no port holds passes to the oldest waiter (R76, R79). -/
def passClaim (part : Nat) (u : Units) : Units :=
  match claimQueue part u with
  | [] => u
  | q :: rest => if (holderOf part u).isNone then grantClaim part q (setClaimQueue part rest u) else u

/-- A claim is released and passes to the oldest waiter (R79), once the waiters that an event has shut out are answered: no
new transaction opens on a partition that is locked, nor for a port that has lost it (R96, R97, log 66). -/
def releaseClaim (part : Nat) (u : Units) : Units := wakeSweep (passClaim part (answerDue part u))

/-- A port's transaction has ended: its slot goes to the state given, and the claim passes on (R79). -/
def endTransaction (p : Port) (after : Slot) (u : Units) : Units :=
  let part := (u.slot p).part
  settle p (releaseClaim part (u.setSlot p after))

/-! ## Aborts (R84, R94, R95) -/

/-- A stage on the space wait list is removed without programming (R53, R84). -/
def dropWaitingStage (p : Port) (u : Units) : Units :=
  if (waitingJob p u).any (fun r => r.role == .stage) then
    (leaveSpaceList p u).modSlot p fun s => { s with stage := none }
  else u

/-- The CHARGE of a port's stage has not been taken yet: the stage is in flight and its job not yet sent (R85, R86). -/
def chargeOut (p : Port) (u : Units) : Bool :=
  u.iu.claims.any fun m => m.src == .txn p && (match m.body with | .charge _ _ _ _ => true | _ => false)

/-- The ABORT_CLEAN of a slot is sent, behind the job of a stage in flight: where the CHARGE of that stage has not been
taken, the clean waits for it (R84, R85). -/
def sendClean (p : Port) (u : Units) : Units := if chargeOut p u then u else sendJob (.abortClean p) u

/-- An abort the holder did not ask for (R84). -/
def abortHolder (r : EndReason) (p : Port) (u : Units) : Units :=
  let s := u.slot p
  let u := u.setSlot p { s with state := .aborting, reason := some r, lease := none, pending := s.stage.map (·.cmd) }
  let u := post .txn (.one p)
    { Notice.plain .claimLost with part := some s.part, txn := some s.number, reason := some r.notice } u
  sendClean p (dropWaitingStage p u)

/-- An ABORT_CLEAN job has ended: the RELEASE of every member is made (R69, R84, R95). -/
def abortCleanEnded (p : Port) (u : Units) : Units := present (.txn p) (.release (.members p)) u

/-- The end of a job of a transaction acts on the slot in the state that the job stands for (R84, R93 to R95). -/
def inState (st : SlotState) (p : Port) (f : Units → Units) (u : Units) : Units :=
  if (u.slot p).state = st then f u else u

/-- The members are released: the command is answered, the slot goes to NONE or ENDED, the claim passes on
(R84, R94, R95, R98). -/
def abortEnded (p : Port) : Units → Units := inState .aborting p fun u =>
  let s := u.slot p
  match s.reason, s.pending with
  | some r, some _ => endTransaction p Slot.start (answer p r.code u)
  | some r, none => endTransaction p { Slot.start with state := .ended, reason := some r } u
  | none, _ =>
    match s.reply with
    | some c => endTransaction p Slot.start (answer p c u)
    | none => endTransaction p Slot.start u

/-- A COMMIT record job ends MEDIA or GEN_EXHAUSTED (R94). -/
def commitFailed (c : ResultCode) (p : Port) : Units → Units := inState .committing p fun u =>
  sendJob (.abortClean p) (u.modSlot p fun s => { s with state := .aborting, reply := some c })

/-- A COMMIT record job leaves the space wait list without a commit point: the slot is OPEN again and its lease
starts again (R94); at a port that drains after a port reset, the transaction is aborted as R98 gives for an OPEN
slot (log 36). -/
def commitReturned (c : ResultCode) (p : Port) : Units → Units := inState .committing p fun u =>
  if (u.port p).draining then sendJob (.abortClean p) (u.modSlot p fun s => { s with state := .aborting })
  else answer p c (startLease p (u.modSlot p fun s => { s with state := .opened }))

/-- A COMPLETE job has ended (R93). -/
def completeEnded (p : Port) : Units → Units := inState .committing p fun u => endTransaction p Slot.start (answer p .ok u)

/-! ## Commands at the Transaction Manager (R75) -/

/-- A transaction command other than BEGIN in a slot that is not OPEN (R75). -/
def notOpen (p : Port) (c : Cmd) (u : Units) : Units :=
  let s := u.slot p
  match s.state, s.reason with
  | .ended, some r => answer p r.code (u.setSlot p Slot.start)
  | .aborting, some _ => u.setSlot p { s with pending := some c }
  | .none, _ => answer p .noTxn u
  | _, _ => answer p .inTxn u

/-- A lock event for a partition acts: the holder's OPEN transaction is aborted LOCKED and every waiter answered LOCKED (R80,
R96). -/
def actLock (part : Nat) (u : Units) : Units :=
  let v := match holderOf part u with
    | some p => if (u.slot p).state = .opened then abortHolder .locked p u else u
    | none => u
  (claimQueue part v).foldl (fun v q => endWait q .locked v) v

/-- A revocation event acts on each port it concerns, in the order A to D (log 46), by its own list whatever the rights are now
(log 56): an OPEN transaction is aborted REVOKED, a waiter answered DENIED (R80, R97). -/
def actRevocation (r : Revocation) (u : Units) : Units :=
  allPorts.foldl (fun u p =>
    if !r.hits p (u.slot p).part then u
    else if (u.slot p).state = .opened then abortHolder .revoked p u
    else if (u.slot p).state = .waiting then endWait p .denied u
    else u) u

def setLockEvents (es : List LockEvent) (u : Units) : Units := { u with tm := { u.tm with lockEvents := es } }

def setRevocations (rs : List Revocation) (u : Units) : Units := { u with tm := { u.tm with revocations := rs } }

/-- The lock event that a port's own FREEZE of a partition sends (R147). -/
def ownFreeze (p : Port) (part : Nat) : LockEvent := ⟨part, some p⟩

/-- A transaction command finds what is due to an OPEN slot though the event's own row has not come: the lock event of the
port's own FREEZE (R147), else the oldest revocation that concerns it (R97). The event is taken whole, ahead of its row, and
is gone from its list (log 66). Another port's FREEZE waits for its row (R96, log 53). -/
def actDue (p : Port) (u : Units) : Units :=
  let s := u.slot p
  if s.state ≠ .opened then u
  else if u.tm.lockEvents.contains (ownFreeze p s.part) then
    actLock s.part (setLockEvents (u.tm.lockEvents.erase (ownFreeze p s.part)) u)
  else
    match u.tm.revocations.find? (·.hits p s.part) with
    | some r => actRevocation r (setRevocations (u.tm.revocations.erase r) u)
    | none => u

/-- A BEGIN taken from a NONE slot (R77). -/
def beginFromNone (p : Port) (part : Nat) (wait : Bool) (u : Units) : Units :=
  if !u.pu.shadow.mayWrite p part then answer p .denied u
  else if lockOf u part ≠ .opened then answer p .locked u
  else if (holderOf part u).isNone then grantClaim part p u
  else
    let limit := (u.pu.shadow.ports.get p).waitLimit
    if wait && 0 < limit then
      let u := u.setSlot p { Slot.start with
        state := .waiting, part := part, waitUntil := some (u.clock + Config.ticksPerUnit * limit) }
      setClaimQueue part (claimQueue part u ++ [p]) u
    else answer p .held u

/-- BEGIN (R75). -/
def takeBegin (p : Port) (part : Nat) (wait : Bool) (u : Units) : Units :=
  match (u.slot p).state with
  | .none => beginFromNone p part wait u
  | .ended => beginFromNone p part wait (u.setSlot p Slot.start)
  | _ => answer p .inTxn u

/-- STAGE_WRITE and STAGE_DELETE: the tests in their order, then the CHARGE (R86, R97, R147). -/
def takeStage (p : Port) (c : Cmd) (part key cells : Nat) (u : Units) : Units :=
  let u := actDue p u
  let s := u.slot p
  if s.state ≠ .opened then notOpen p c u
  else if s.part ≠ part then answer p .wrongPartition u
  else if !s.members.any (fun m => m.key == key) && decide (16 ≤ s.members.length) then answer p .txnFull u
  else
    let op := if c = .stageWrite then ChargeOp.stageWrite else ChargeOp.stageDelete
    present (.txn p) (.charge part key op cells) (u.setSlot p { s with stage := some ⟨c, key⟩ })

/-- The RECORD job of a COMMIT (R92): the member count is its key. -/
def commitJob (p : Port) (s : Slot) : Job :=
  .record ⟨p, .commit, .commit, s.part, s.members.length, 0, s.number, [], none, 0⟩

/-- COMMIT (R92, R97, R147). -/
def takeCommit (p : Port) (u : Units) : Units :=
  let u := actDue p u
  let s := u.slot p
  if s.state ≠ .opened then notOpen p .commit u
  else if s.members.isEmpty && s.stage.isNone then endTransaction p Slot.start (answer p .ok u)
  else sendJob (commitJob p s) (u.setSlot p { s with state := .committing, lease := none })

/-- ABORT (R95, R97, R147). -/
def takeAbort (p : Port) (u : Units) : Units :=
  let u := actDue p u
  let s := u.slot p
  if s.state ≠ .opened then notOpen p .abort u
  else sendJob (.abortClean p) (u.setSlot p { s with state := .aborting, lease := none, reply := some .ok })

/-- RENEW (R83, R97, R147). -/
def takeRenew (p : Port) (u : Units) : Units :=
  let u := actDue p u
  let s := u.slot p
  if s.state ≠ .opened then notOpen p .renew u
  else
    deliver p (Posting.okWith { Results.zero with lease := BitVec.ofNat 16 (leaseUnits s.part u) }) (startLease p u)

/-- The members a port sees of a partition: those of its OPEN slot on it (R90, R91). -/
def visibleMembers (p : Port) (part : Nat) (u : Units) : Option (List Member) :=
  if (u.slot p).state = .opened ∧ (u.slot p).part = part then some (u.slot p).members else none

/-! ## Stages (R86 to R88) -/

/-- The RECORD job of a stage (R86). -/
def stageJob (p : Port) (s : Slot) (key : Nat) (c : InHand) : Job :=
  if c.cmd = .stageWrite then
    .record ⟨p, .stage, .data, s.part, key, c.params.lengthNat, s.number, c.image.take c.params.lengthNat, none, 0⟩
  else .record ⟨p, .stage, .tombstone, s.part, key, 0, s.number, [], none, 0⟩

/-- A member's record. -/
def Slot.member (s : Slot) (key : Nat) : Option Member := s.members.find? (fun m => m.key == key)

/-- The CHARGE of a stage has been answered; a refusal in an ABORTING slot is answered at the end of the clean (R84, R86,
R87). -/
def stageCharged (p : Port) (key : Nat) (a : IndexUnit.ChargeAnswer) (u : Units) : Units :=
  let s := u.slot p
  match a with
  | .refused c =>
    let u := u.setSlot p { s with stage := none }
    if s.state = .opened then answer p c u else u
  | .ok =>
    match (u.port p).inHand with
    | some c => sendJob (stageJob p s key c) u
    | none => u
  | .removed =>
    match s.member key with
    | some m =>
      sendJob (.removal p s.part key s.number m.loc)
        (u.setSlot p { s with members := s.members.filter (fun m => m.key != key) })
    | none => u

/-- A stage job has ended with its result; in an ABORTING slot the end of the clean answers it (R87, R88). -/
def stageEnded (p : Port) (o : Posting) (u : Units) : Units :=
  let s := u.slot p
  let u := u.setSlot p { s with stage := none }
  if s.state = .opened then deliver p o u else u

/-- A stage job ends without its record: its pending change is released, with the rest when the slot is ABORTING
(R88). -/
def stageFailed (p : Port) (key : Nat) (c : ResultCode) (u : Units) : Units :=
  let u := if (u.slot p).state = .opened then present (.txn p) (.release (.stagePending p key)) u else u
  stageEnded p (Posting.code c) u

/-- The member list with a built record: added at the tail, or replaced in its place (R87). -/
def putMember (m : Member) (ms : List Member) : List Member :=
  if ms.any (fun x => x.key == m.key) then ms.map (fun x => if x.key = m.key then m else x) else ms ++ [m]

/-- A staged record is reported: the member list, the RELEASE of a replaced record, and its location for the Writer
(R87). -/
def takeMember (p : Port) (m : Member) (u : Units) : Units × Option Location :=
  let s := u.slot p
  let old := s.member m.key
  let u := u.setSlot p { s with members := putMember m s.members }
  match old with
  | some o => (present (.txn p) (.release (.stageReplaced p m.key o.loc o.cells)) u, some o.loc)
  | none => (u, none)

/-! ## Members that compaction moves (R89, R108, R110) -/

/-- Answers to a member move: MOVED, with whether the COMMIT_SWITCH had been taken, STALE, or the move waits (R68). -/
inductive MoveAnswer where
  | moved (committed : Bool) | stale | waits
deriving DecidableEq, Repr

/-- The slot that has a member of a number and key at a location. -/
def memberHolder (txn key : Nat) (loc : Location) (u : Units) : Option Port :=
  allPorts.find? fun p =>
    (u.slot p).holding && (u.slot p).number == txn
      && (u.slot p).members.any (fun m => m.key == key && m.loc == loc)

/-- What the command in hand of a port waits for. -/
def workOf (p : Port) (u : Units) : Option Work := (u.port p).inHand.map (·.work)

/-- A PIN is out on a port's behalf: its member list takes no change (R90). -/
def pinOut (p : Port) (u : Units) : Bool :=
  match workOf p u with
  | some (.pinning _) => true
  | _ => false

/-- A transaction takes no member move for now, whatever member the move names (R68). -/
def movesHeld (txn : Nat) (u : Units) : Bool :=
  allPorts.any fun p => (u.slot p).holding && (u.slot p).number == txn && (u.slot p).holdMoves

/-- A member move (R68, R89, R90). -/
def takeMove (txn key : Nat) (orig copy : Location) (u : Units) : Units × MoveAnswer :=
  if movesHeld txn u then (u, .waits) else
  match memberHolder txn key orig u with
  | none => (u, .stale)
  | some p =>
    let s := u.slot p
    if pinOut p u then (u, .waits)
    else if (s.member key).any (·.isSealed) then (u, .stale)
    else
      (u.setSlot p { s with members := s.members.map fun m => if m.key = key then { m with loc := copy } else m },
        .moved s.committed)

/-- A member query (R108); a LIVE TOMBSTONE asks for a COMMITTING slot. -/
def memberQueried (txn key : Nat) (loc : Location) (committing : Bool) (u : Units) : Bool :=
  (memberHolder txn key loc u).any fun p => !committing || (u.slot p).state == .committing

/-- Every member located in a segment (R114). -/
def membersIn (victim : Nat) (u : Units) : List Named :=
  allPorts.flatMap fun p =>
    ((u.slot p).members.filter (fun m => m.loc.seg == victim)).map fun m =>
      Named.member (u.slot p).number (u.slot p).part m.key m.loc

/-- What names a location in a segment: the index and the commit set, then the member lists (R114, log 52). -/
def namedIn (seg : Nat) (u : Units) : List Named := u.iu.named seg ++ membersIn seg u

/-- Member moves of a slot wait, or are taken again (R68). -/
def holdMoves (p : Port) (b : Bool) (u : Units) : Units := u.modSlot p fun s => { s with holdMoves := b }

/-! ## Timers and events (R78, R80, R82, R84, R96, R97) -/

/-- Three quarters of a lease have passed (R82). -/
def warnLease (p : Port) (u : Units) : Units :=
  let s := u.slot p
  match s.lease with
  | some l =>
    if s.state = .opened ∧ l.armed then
      let u := reachTime l.warnAt (u.setSlot p { s with lease := some { l with armed := false } })
      post .txn (.one p) { Notice.plain .leaseWarning with part := some s.part, txn := some s.number } u
    else u
  | none => u

/-- The lease deadline passes (R84). -/
def expireLease (p : Port) (u : Units) : Units :=
  match (u.slot p).lease with
  | some l => if (u.slot p).state = .opened then abortHolder .expired p (reachTime l.deadline u) else u
  | none => u

/-- The wait deadline passes (R78). -/
def expireWait (p : Port) (u : Units) : Units :=
  match (u.slot p).waitUntil with
  | some t => if (u.slot p).state = .waiting then endWait p .claimTimeout (reachTime t u) else u
  | none => u

/-- The oldest lock event is taken (R80, R96). -/
def takeLockEvent (u : Units) : Units :=
  match u.tm.lockEvents with
  | [] => u
  | e :: rest => actLock e.part (setLockEvents rest u)

/-- The oldest revocation event is taken (R80, R97). -/
def takeRevocation (u : Units) : Units :=
  match u.tm.revocations with
  | [] => u
  | r :: rest => actRevocation r (setRevocations rest u)

/-! ## Port reset (R98) -/

/-- A stage on the space wait list ends at its port's reset, its pending change released (R53, R98). -/
def endWaitingStage (p : Port) (u : Units) : Units :=
  match waitingJob p u with
  | some r =>
    if r.role = .stage then
      let v := dropWaitingStage p u
      v.setIu { v.iu with charges := IndexUnit.dropLast p r.key v.iu.charges }
    else u
  | none => u

/-- A port reset at the Transaction Manager, by the state of the slot. -/
def resetTxn (p : Port) (u : Units) : Units :=
  let s := u.slot p
  let aborted : Slot := { s with
    state := .aborting, lease := none, reason := none, pending := none, reply := none }
  match s.state with
  | .none => u
  | .waiting => (leaveQueue s.part p u).setSlot p Slot.start
  | .opened => sendJob (.abortClean p) (endWaitingStage p (u.setSlot p aborted))
  | .committing =>
    if (waitingJob p u).isSome then sendJob (.abortClean p) ((leaveSpaceList p u).setSlot p aborted) else u
  | .aborting => u.setSlot p aborted
  | .ended => u.setSlot p Slot.start

end Sys2Proof.Machine
end

