-- ==== Sys2Proof/Machine/Writer.lean ====
section
/-! DEFINITION. The Record Writer: generations, jobs, building, retiring, completion, abort cleaning and program
failures (R56 to R73). -/

namespace Sys2Proof.Machine

/-! ## The current job -/

/-- The step of the current job. -/
def goStep (st : WStep) (u : Units) : Units :=
  u.setRw { u.rw with cur := u.rw.cur.map fun c => { c with step := st } }

/-- The current job changed. -/
def modJob (f : CurJob → CurJob) (u : Units) : Units := u.setRw { u.rw with cur := u.rw.cur.map f }

/-- The job being carried out. -/
def curJob (u : Units) : Option Job := u.rw.cur.map (·.job)

/-- The locations the current job has recorded. -/
def recordedOf (u : Units) : List Location := (u.rw.cur.map (·.recorded)).getD []

/-- The Writer presents a program and waits for it in a step (R58). -/
def goProgram (st : WStep) (seg cell : Nat) (bytes : List Byte) (u : Units) : Units :=
  writerProgram seg cell bytes (goStep st u)

/-- The Writer presents a claim and waits for its answer in a step. -/
def goClaim (st : WStep) (c : Claim) (u : Units) : Units := present .writer c (goStep st u)

/-- The current job has ended (R58); its port may be draining (R179). -/
def finish (p : Port) (u : Units) : Units := settle p (u.setRw { u.rw with cur := none, io := Io.none })

/-- Where a record of the current job was recorded for a member (R67, R69). -/
def recordAt (i : Nat) (l : Location) (ls : List Location) : List Location :=
  if i < ls.length then ls.set i l else ls ++ [l]

def Job.port : Job → Port
  | .record r => r.port
  | .removal p _ _ _ _ => p
  | .complete p _ _ _ => p
  | .abortClean p => p

/-- The header a RECORD job writes (R59). -/
def RecordJob.header (r : RecordJob) : Header :=
  newHeader r.kind r.part r.key r.length r.txn (r.gen.getD 0) r.payload

def RecordJob.cells (r : RecordJob) : Nat := recordCells r.length

/-- The member of the current transaction a step works on. -/
def memberAt (p : Port) (i : Nat) (u : Units) : Option Member := (u.slot p).members[i]?

/-- Partition and key of the record an INTEGRITY notice of the Writer carries (R72, log 23). -/
def jobNames (c : CurJob) (u : Units) : Option Nat × Option Nat :=
  let ofMember (p : Port) (i : Nat) := (some (u.slot p).part, (memberAt p i u).map (·.key))
  match c.job, c.step with
  | .record r, _ => (some r.part, if r.kind = .commit then none else some r.key)
  | .removal _ part key _ _, _ => (some part, some key)
  | .complete p _ _ _, .memberLive i _ _ _ => ofMember p i
  | .complete p _ _ _, .retiring (.oldOf i) _ _ _ => ofMember p i
  | .complete p _ _ _, .retiring (.tombOf i) _ _ _ => ofMember p i
  | .complete _ part _ _, _ => (some part, none)
  | .abortClean p, .retiring (.aborted i) _ _ _ => ofMember p i
  | .abortClean p, _ => (some (u.slot p).part, none)

/-- A segment marked suspect, with the notice if the report changed anything (R49, R72). -/
def writerSuspect (seg : Nat) (u : Units) : Units :=
  let r := markSuspect seg u
  match r.2, u.rw.cur with
  | true, some c => postIntegrity .writer .suspect (jobNames c u).1 (jobNames c u).2 (some seg) r.1
  | _, _ => r.1

/-! ## Programs and claims of the steps -/

/-- The program of a head (R6): its segment and bytes. -/
def HeadStep.program : HeadStep → Nat × List Byte
  | .closing seg _ _ => (seg, firstByteProgram (segPattern .full))
  | .preparing h => (h.seg, prepareProgram (h.prepare.getD 0))
  | .opening h => (h.seg, openProgram h.seq)
  | .withdrawing seg => (seg, firstByteProgram (segPattern .bad))

/-- A new head is prepared if needed, then opened (R60). -/
def NewHead.first (h : NewHead) : HeadStep := if h.prepare.isSome then .preparing h else .opening h

def goHead (h : HeadStep) (u : Units) : Units := goProgram (.head h) h.program.1 0 h.program.2 u

/-- ALLOCATE for the record of the job (R60). -/
def goAllocate (r : RecordJob) (u : Units) : Units := goClaim .allocating (.allocate r.cells) u

/-- One PROGRAM of a RETIRED program (R13). -/
def goRetire (why : RetireWhy) (l : Location) (mark tries : Nat) (u : Units) : Units :=
  goProgram (.retiring why l mark tries) l.seg l.cell (firstByteProgram (retireMark mark)) u

/-- The LIVE program of a member (R67, R68), its location recorded. -/
def goMemberLive (i : Nat) (l : Location) (tries : Nat) (again : Bool) (u : Units) : Units :=
  goProgram (.memberLive i l tries again) l.seg l.cell (firstByteProgram livePattern)
    (modJob (fun c => { c with recorded := recordAt i l c.recorded }) u)

/-- The steps of the build in their order (R61). -/
def goHeader (r : RecordJob) (l : Location) (u : Units) : Units :=
  goProgram (.header l) l.seg l.cell (r.header.bytes openPattern) u
def goPayload (r : RecordJob) (l : Location) (i : Nat) (u : Units) : Units :=
  goProgram (.payload l i) l.seg (l.cell + 1 + i) (payloadCell r.payload i) u
def goWritten (l : Location) (u : Units) : Units :=
  goProgram (.written l) l.seg l.cell (firstByteProgram writtenPattern) u
def goLive (l : Location) (tries : Nat) (u : Units) : Units :=
  goProgram (.live l tries) l.seg l.cell (firstByteProgram livePattern) u
def goCommitLive (l : Location) (u : Units) : Units :=
  goProgram (.commitLive l) l.seg l.cell (firstByteProgram livePattern) u

/-- The SWITCH of a single write or delete (R62, R63). -/
def goSwitch (r : RecordJob) (l : Location) (short : Bool) (u : Units) : Units :=
  goClaim (.switching l short)
    (.switch ⟨r.part, r.key, l, r.length, r.gen.getD 0, r.cells, r.kind, r.port⟩) u

/-! ## Ends of jobs -/

/-- A RECORD job has written its record: OK with the generation (R62, R63, R87). -/
def recordEnded (r : RecordJob) (u : Units) : Units :=
  let o := Posting.generation (r.gen.getD 0)
  finish r.port (if r.role = .stage then stageEnded r.port o u else deliver r.port o u)

/-- A RECORD job ends without its record (R57, R70). -/
def recordFailed (c : ResultCode) (r : RecordJob) (u : Units) : Units :=
  match r.role with
  | .single => goClaim (.releasing c) (.release (.single r.port)) u
  | .stage => finish r.port (stageFailed r.port r.key c u)
  | .commit => finish r.port (commitFailed c r.port u)

/-- The removal of a staged member has ended: OK with generation 0 (R87). -/
def removalEnded (p : Port) (u : Units) : Units := finish p (stageEnded p (Posting.code .ok) u)

/-- An ALLOCATE was answered WAIT: the job joins the space wait list (R51, R53, R58), but for a stage of an ABORTING slot,
which ends (R84). -/
def waitForSpace (r : RecordJob) (u : Units) : Units :=
  if r.role = .stage ∧ (u.slot r.port).state = .aborting then u.modSlot r.port fun s => { s with stage := none }
  else joinSpaceList r r.cells u

/-- The rest of an ALLOCATE answer (R60). A job answered WAIT has left by then, and the Writer is free. -/
def followAllocate (rest : AllocRest) (u : Units) : Units :=
  match curJob u with
  | some (.record r) =>
    match rest with
    | .place l => goHeader r l u
    | .newHead h => goHead h.first u
    | .wait => finish r.port u
    | .none => u
  | _ => u

/-! ## COMPLETE and ABORT_CLEAN (R67 to R69) -/

/-- The first member whose location is not the one recorded (R68). -/
def movedMember (recorded : List Location) (ms : List Member) : Option (Nat × Location) :=
  ((ms.zip recorded).zipIdx.find? (fun x => x.1.1.loc != x.1.2)).map fun x => (x.2, x.1.1.loc)

/-- Member `i` is sealed against member moves (R67). -/
def sealMember (p : Port) (i : Nat) (u : Units) : Units :=
  u.modSlot p fun s => { s with members := s.members.modify i fun m => { m with isSealed := true } }

/-- The first TOMBSTONE member whose step 3 of R67 was skipped: it alone is not sealed (R67, R71). -/
def leftTombstone (ms : List Member) : Option (Nat × Location) :=
  (ms.zipIdx.find? (fun x => x.1.op == .delete && !x.1.isSealed)).map fun x => (x.2, x.1.loc)

/-- A COMPLETE ends behind its COMMIT record: each TOMBSTONE left short of LIVE, which no list will name, is first reported
dead (R15, R68, R71, log 43). -/
def endComplete (p : Port) (u : Units) : Units :=
  match leftTombstone (u.slot p).members with
  | some (i, l) => goClaim (.reporting .leftTomb l) (.report (.dead l 1)) (sealMember p i u)
  | none => finish p (completeEnded p u)

/-- The COMMIT record is retired where the commit set names it, or the job ends (R68). -/
def retireCommit (p : Port) (txn : Nat) (u : Units) : Units :=
  match u.iu.commitLoc txn with
  | some l => goRetire .commitRecord l 0 1 u
  | none => endComplete p u

/-- The moved-member check of a COMPLETE (R68). -/
def checkPromoted (p : Port) (txn : Nat) (u : Units) : Units :=
  let recorded := recordedOf u
  let u := holdMoves p true u
  match movedMember recorded (u.slot p).members with
  | some (i, l) => goMemberLive i l 1 true u
  | none => retireCommit p txn u

/-- A COMPLETE takes member `i`, or goes on to the check (R67). -/
def promoteFrom (p : Port) (txn i : Nat) (u : Units) : Units :=
  match memberAt p i u with
  | some m => goMemberLive i m.loc 1 false u
  | none => checkPromoted p txn u

/-- Step 3 of R67, or the tombstone left LIVE and reported abandoned when the retire before it was short (R63, R71). -/
def buryTombstone (p : Port) (txn i : Nat) (retired : Bool) (u : Units) : Units :=
  match memberAt p i u with
  | some m =>
    if m.op = .delete then
      let u := sealMember p i u
      if retired then goRetire (.tombOf i) m.loc 0 1 u
      else goClaim (.reporting (.tombOf i) m.loc) (.report (.dead m.loc 1)) u
    else promoteFrom p txn (i + 1) u
  | none => promoteFrom p txn (i + 1) u

/-- Step 2 of R67. -/
def retireOld (p : Port) (txn i : Nat) (displaced : List (Option Displaced)) (u : Units) : Units :=
  match (displaced[i]?).join with
  | some d => goRetire (.oldOf i) d.loc 0 1 u
  | none => buryTombstone p txn i true u

/-- A member's LIVE program was short after 3: its steps 2 and 3 are skipped, its displaced location unpinned; a TOMBSTONE
is reported at the end of the job (R71, `endComplete`). -/
def skipMember (p : Port) (txn i : Nat) (displaced : List (Option Displaced)) (u : Units) : Units :=
  match (displaced[i]?).join with
  | some d => goClaim (.unpinning (.skipped i)) (.unpin d.loc.seg) u
  | none => promoteFrom p txn (i + 1) u

/-- A member's record retired by an ABORT_CLEAN, its location recorded (R69). -/
def goAborted (i : Nat) (l : Location) (u : Units) : Units :=
  goRetire (.aborted i) l 0 1 (modJob (fun c => { c with recorded := recordAt i l c.recorded }) u)

/-- An ABORT_CLEAN takes its next member, then checks the moved ones, then ends (R69). -/
def cleanNext (p : Port) (u : Units) : Units :=
  let recorded := recordedOf u
  match memberAt p recorded.length u with
  | some m => goAborted recorded.length m.loc u
  | none =>
    let u := holdMoves p true u
    match movedMember recorded (u.slot p).members with
    | some (i, l) => goAborted i l u
    | none => finish p (abortCleanEnded p u)

/-! ## Starting a job (R57, R58) -/

/-- A RECORD job that begins its record takes the value of G, or ends GEN_EXHAUSTED (R57). -/
def startRecord (r : RecordJob) (u : Units) : Units :=
  if r.gen.isSome then goAllocate r u
  else if Config.generationLimit ≤ u.rw.gen then recordFailed .genExhausted r u
  else
    let r := { r with gen := some u.rw.gen }
    goAllocate r (modJob (fun c => { c with job := .record r }) (u.setRw { u.rw with gen := u.rw.gen + 1 }))

/-- A job becomes the current job. -/
def startJob (j : Job) (u : Units) : Units :=
  let u := u.setRw { u.rw with cur := some ⟨j, .allocating, []⟩ }
  match j with
  | .record r => startRecord r u
  | .removal _ _ _ _ l => goRetire .removed l 0 1 u
  | .complete p _ txn _ => promoteFrom p txn 0 u
  | .abortClean p => cleanNext p u

/-- The Writer takes jobs while it has none; `fuel` bounds the jobs that end as they are taken. -/
def takeJobs : Nat → Units → Units
  | 0, u => u
  | fuel + 1, u =>
    match u.rw.cur, u.rw.queue with
    | none, j :: rest => takeJobs fuel (startJob j (u.setRw { u.rw with queue := rest }))
    | _, _ => u

/-- A Writer without a job takes the oldest one queued (R58). -/
def kick (u : Units) : Units := takeJobs (2 * u.rw.queue.length + 1) u

/-! ## Program failures (R70 to R72) -/

/-- A build program has failed: the record is retired once, but for a COMMIT, and reported discarded (R66, R70). -/
def failBuild (r : RecordJob) (l : Location) (u : Units) : Units :=
  if r.kind = .commit then goClaim (.reporting .failed l) (.report (.dead l r.cells)) u
  else goRetire .failed l 0 1 u

/-- The failed location is left behind: the relocation count grows, and the job goes on or ends MEDIA (R70). -/
def relocate (r : RecordJob) (u : Units) : Units :=
  let r := { r with relocs := r.relocs + 1 }
  let u := modJob (fun c => { c with job := .record r }) u
  if r.relocs ≤ 2 then goAllocate r u else recordFailed .media r u

/-- Whether the transaction number of the record retired is retained when the retire is short (R71, R81). -/
def RetireWhy.retains : RetireWhy → Bool
  | .replaced | .removed | .tombOf _ | .commitRecord | .aborted _ => true
  | _ => false

/-- The transaction number of the current job. -/
def jobTxn (c : CurJob) (u : Units) : Nat :=
  match c.job with
  | .record r => r.txn
  | .removal _ _ _ txn _ => txn
  | .complete _ _ txn _ => txn
  | .abortClean p => (u.slot p).number

/-- A retire is finished, in full or short (R63 to R71). -/
def retired (why : RetireWhy) (l : Location) (ok : Bool) (c : CurJob) (u : Units) : Units :=
  let u := if !ok && why.retains then retainNumber (jobTxn c u) l.seg u else u
  match why, c.job with
  | .displaced, _ => goClaim (.unpinning (.single ok)) (.unpin l.seg) u
  | .tombstone, _ => goClaim (.reporting .tombstone l) (.report (.dead l 1)) u
  | .replaced, .record r => recordEnded r u
  | .removed, .removal p _ _ _ _ => removalEnded p u
  | .failed, .record r => goClaim (.reporting .failed l) (.report (.dead l r.cells)) u
  | .oldOf i, _ => goClaim (.unpinning (.member i ok)) (.unpin l.seg) u
  | .tombOf i, _ => goClaim (.reporting (.tombOf i) l) (.report (.dead l 1)) u
  | .commitRecord, .complete _ _ txn _ =>
    goClaim (.reporting .commitRecord l) (.report (.commitRetired txn l)) u
  | .aborted _, .abortClean p => cleanNext p u
  | _, _ => u

/-- What follows a status program, done or short after 3 (R62, R67, R68, R71). -/
def statusDone (ok : Bool) (st : WStep) (c : CurJob) (u : Units) : Units :=
  match st, c.job with
  | .live l _, .record r => goSwitch r l (!ok) u
  | .memberLive i _ _ again, .complete p _ txn displaced =>
    if again then checkPromoted p txn u
    else if ok then retireOld p txn i displaced u
    else skipMember p txn i displaced u
  | .retiring why l _ _, _ => retired why l ok c u
  | _, _ => u

/-- A status program short after 3: the segment is suspect, and a write head is closed at once (R49, R71). -/
def statusShort (st : WStep) (seg : Nat) (c : CurJob) (u : Units) : Units :=
  let u := writerSuspect seg u
  if u.iu.writeHead = some seg then goClaim (.shutClaim seg st) (.close seg .suspect) u
  else statusDone false st c u

/-- A program of a head has completed (R60, R72). -/
def headDone (ok : Bool) (h : HeadStep) (u : Units) : Units :=
  match h with
  | .closing seg tries rest =>
    if ok then followAllocate rest (u.setIu (u.iu.nowFull seg))
    else if tries < 3 then goHead (.closing seg (tries + 1) rest) u
    else followAllocate rest (writerSuspect seg (u.setIu (u.iu.nowFull seg)))
  | .preparing n => if ok then goHead (.opening n) u else goHead (.withdrawing n.seg) u
  | .opening n => if ok then goClaim (.openedClaim n) (.opened n) u else goHead (.withdrawing n.seg) u
  | .withdrawing seg => goClaim (.badClaim seg) (.close seg .bad) u

/-- The closing program of a head that left its role suspect has completed or fallen short (R51, R70). -/
def closedSuspect (ok : Bool) (seg : Nat) (u : Units) : Units :=
  let u := u.setIu (u.iu.nowFull seg)
  if ok then u else writerSuspect seg u

/-- Program of the closing of a suspect head. -/
def goClosing (st : WStep) (seg : Nat) (u : Units) : Units :=
  goProgram st seg 0 (firstByteProgram (segPattern .full)) u

/-- A PROGRAM of the Writer has completed (R61 to R72). -/
def writerDone (ok : Bool) (u : Units) : Units :=
  match u.rw.cur with
  | none => u
  | some c =>
    match c.step, c.job with
    | .head h, _ => headDone ok h u
    | .header l, .record r =>
      if !ok then failBuild r l u
      else if r.kind = .commit then goCommitLive l u
      else if 1 < r.cells then goPayload r l 0 u
      else goWritten l u
    | .payload l i, .record r =>
      if !ok then failBuild r l u
      else if i + 2 < r.cells then goPayload r l (i + 1) u
      else goWritten l u
    | .written l, .record r =>
      if !ok then failBuild r l u
      else if r.role = .stage then goStep (.memberReporting l) u
      else goLive l 1 u
    | .live l tries, .record _ =>
      if ok then statusDone true c.step c u
      else if tries < 3 then goLive l (tries + 1) u
      else statusShort c.step l.seg c u
    | .commitLive l, .record r =>
      if ok then goClaim (.commitSwitching l) (.commitSwitch r.part r.txn l r.port) u else failBuild r l u
    | .memberLive i l tries again, _ =>
      if ok then statusDone true c.step c u
      else if tries < 3 then goMemberLive i l (tries + 1) again u
      else statusShort c.step l.seg c u
    | .retiring why l mark tries, _ =>
      if ok then
        if mark < lastMark then goRetire why l (mark + 1) 1 u else statusDone true c.step c u
      else if why = .failed then statusDone false c.step c u
      else if tries < 3 then goRetire why l mark (tries + 1) u
      else statusShort c.step l.seg c u
    | .closingFailed seg tries, .record r =>
      if ok then relocate r (closedSuspect true seg u)
      else if tries < 3 then goClosing (.closingFailed seg (tries + 1)) seg u
      else relocate r (closedSuspect false seg u)
    | .shutting seg tries back, _ =>
      if ok then statusDone false back c (closedSuspect true seg u)
      else if tries < 3 then goClosing (.shutting seg (tries + 1) back) seg u
      else statusDone false back c (closedSuspect false seg u)
    | _, _ => u

/-! ## Answers to the Writer's claims -/

/-- A job answered WAIT leaves the Writer at the answer, whether or not a head is to be closed first (R51, R58, log 22). -/
def leaveForSpace (rest : AllocRest) (u : Units) : Units :=
  match rest, curJob u with
  | .wait, some (.record r) => waitForSpace r u
  | _, _ => u

/-- ALLOCATE answered (R60). -/
def writerAllocated (close : Option Nat) (rest : AllocRest) (u : Units) : Units :=
  let u := leaveForSpace rest u
  match close with
  | some seg => goHead (.closing seg 1 rest) u
  | none => followAllocate rest u

/-- OPENED or CLOSE with BAD taken: ALLOCATE again (R60, R72). -/
def writerAgain (u : Units) : Units :=
  match curJob u with
  | some (.record r) => goAllocate r u
  | _ => u

/-- SWITCH taken: the displaced location, if any, comes back (R62, R63, R71). -/
def writerSwitched (old : Option Displaced) (u : Units) : Units :=
  match u.rw.cur with
  | some ⟨.record r, .switching l short, _⟩ =>
    let u := modJob (fun c => { c with recorded := [l] }) u
    match old with
    | some d =>
      if short then goClaim (.unpinning (.single false)) (.unpin d.loc.seg) u else goRetire .displaced d.loc 0 1 u
    | none =>
      if r.kind ≠ .tombstone then recordEnded r u
      else if short then goClaim (.reporting .abandoned l) (.report (.dead l 1)) u
      else goRetire .tombstone l 0 1 u
  | _ => u

/-- COMMIT_SWITCH taken: the COMPLETE job is queued and the COMMIT record job ends (R66). -/
def writerCommitted (displaced : List (Option Displaced)) (u : Units) : Units :=
  match u.rw.cur with
  | some ⟨.record r, _, _⟩ => finish r.port (sendJob (.complete r.port r.part r.txn displaced) u)
  | _ => u

/-- UNPIN taken (R62, R63, R64, R67, R71): the job goes on, or ends, when its UNPIN has been taken and not when it was presented
(log 62). -/
def writerUnpinned (u : Units) : Units :=
  match u.rw.cur with
  | some ⟨.record r, .unpinning (.single ok), recorded⟩ =>
    if r.kind ≠ .tombstone then recordEnded r u
    else match recorded.head? with
      | some l =>
        if ok then goRetire .tombstone l 0 1 u
        else goClaim (.reporting .abandoned l) (.report (.dead l 1)) u
      | none => recordEnded r u
  | some ⟨.complete p _ txn _, .unpinning (.member i ok), _⟩ => buryTombstone p txn i ok u
  | some ⟨.complete p _ txn _, .unpinning (.skipped i), _⟩ => promoteFrom p txn (i + 1) u
  | _ => u

/-- REPORT taken; `again` is where the commit set still names the COMMIT record (R63, R67, R68, R70, R71). -/
def writerReported (again : Option Location) (u : Units) : Units :=
  match u.rw.cur with
  | some ⟨.record r, .reporting what l, _⟩ =>
    if what = .failed then goClaim (.suspectClaim l) (.close l.seg .suspect) u else recordEnded r u
  | some ⟨.complete p _ txn _, .reporting what _, _⟩ =>
    match what with
    | .tombOf i => promoteFrom p txn (i + 1) u
    | .leftTomb => endComplete p u
    | _ =>
      match again with
      | some l => goRetire .commitRecord l 0 1 u
      | none => endComplete p u
  | _ => u

/-- CLOSE taken; `fresh` says whether the segment was not suspect before (R70, R72). -/
def writerClosed (fresh : Bool) (u : Units) : Units :=
  match u.rw.cur with
  | some c =>
    let names := jobNames c u
    match c.step with
    | .suspectClaim l =>
      let u := if fresh then postIntegrity .writer .suspect names.1 names.2 (some l.seg) u else u
      goClosing (.closingFailed l.seg 1) l.seg u
    | .shutClaim seg back => goClosing (.shutting seg 1 back) seg u
    | .badClaim seg => writerAgain (postIntegrity .writer .bad names.1 names.2 (some seg) u)
    | _ => u
  | none => u

/-- RELEASE taken: the single command is answered (R57, R70). -/
def writerReleased (u : Units) : Units :=
  match u.rw.cur with
  | some ⟨.record r, .releasing code, _⟩ => finish r.port (answer r.port code u)
  | _ => u

/-- The staged record is reported: its member enters the list, and an earlier record of the key is retired (R65,
R87). -/
def reportMember (u : Units) : Units :=
  match u.rw.cur with
  | some ⟨.record r, .memberReporting l, _⟩ =>
    let op := if r.kind = .data then ChangeOp.write else ChangeOp.delete
    let m : Member := ⟨r.key, op, r.length, r.gen.getD 0, l, r.cells, false⟩
    let t := takeMember r.port m u
    match t.2 with
    | some old => goRetire .replaced old 0 1 t.1
    | none => recordEnded r t.1
  | _ => u

/-- A job holds the location of a removed member and has not presented its program there (R87, R116). -/
def Job.removesAt (seg : Nat) : Job → Bool
  | .removal _ _ _ _ l => l.seg == seg
  | _ => false

/-- Whether the Writer has a program in a segment, or holds a member location there whose program it has not yet
presented (R116). -/
def writerAt (seg : Nat) (u : Units) : Bool :=
  u.rw.io.want.any (fun r => r.seg == seg) || u.rw.queue.any (Job.removesAt seg)

/-- A program of the Writer has been presented: a moved member's program ends the hold of its moves (R68, R69). -/
def writerPresented (u : Units) : Units :=
  match u.rw.cur with
  | some ⟨.complete p _ _ _, .memberLive _ _ _ true, _⟩ => holdMoves p false u
  | some ⟨.abortClean p, .retiring (.aborted _) _ _ _, _⟩ => holdMoves p false u
  | _ => u

end Sys2Proof.Machine
end

