-- ==== Sys2Proof/Machine/Engine.lean ====
section
/-! DEFINITION. The Compaction Engine: passes, the copy scan, copies and their hand-over, the sweep, erase and
preparation (R99 to R119). -/

namespace Sys2Proof.Machine

/-! ## Steps of the pass -/

/-- The engine changed. -/
def modCe (f : CompactionEngine → CompactionEngine) (u : Units) : Units := u.setCe (f u.ce)

def engineStep (st : CStep) (u : Units) : Units := modCe (fun c => { c with step := st }) u

/-- The engine presents a claim and waits for its answer in a step. -/
def engineClaim (st : CStep) (c : Claim) (u : Units) : Units := present .engine c (engineStep st u)

/-- The engine presents a request and waits for its completion in a step. -/
def engineAsk (st : CStep) (seg : Nat) (op : ArrayOp) (u : Units) : Units := engineRequest seg op (engineStep st u)

/-- A PROGRAM of the first byte of a cell. -/
def engineMark (st : CStep) (seg cell : Nat) (b : Byte) (u : Units) : Units :=
  engineAsk st seg (.program cell (firstByteProgram b)) u

/-- The victim of the pass. -/
def victimOf (u : Units) : Nat := u.ce.victim.getD 0

/-- Partition and key of the record being copied. -/
def copyNames (u : Units) : Option Nat × Option Nat :=
  match u.ce.copy with
  | some c => (some c.hdr.part, if c.hdr.recordKind = RecordKind.commit then none else some c.hdr.key)
  | none => (none, none)

/-- A segment marked suspect by the engine, with the notice if the report changed anything (R49, R106, R111). -/
def engineSuspect (seg : Nat) (u : Units) : Units :=
  let r := markSuspect seg u
  if r.2 then postIntegrity .engine .suspect (copyNames u).1 (copyNames u).2 (some seg) r.1 else r.1

/-! ## The end of a pass (R101, R102) -/

/-- Every owed RECLAIM is answered (R102). -/
def answerOwed (c : ResultCode) (u : Units) : Units :=
  modCe (fun x => { x with owed := [] }) (u.ce.owed.foldl (fun u p => answer p c u) u)

/-- The engine returns to IDLE without a victim, its source then SELECTED (log 5), but for one that was held before an ERASE_ONLY
pass (log 37), of which it keeps what it holds (R114, R115). -/
def toIdle (u : Units) : Units :=
  modCe (fun c => { c with
    state := .idle, kind := none, victim := c.kept, kept := none,
    source := if c.kept.isSome then .held else .selected, copy := none, attempts := 0,
    cleared := false, step := .idle, todo := if c.kept.isSome then c.todo else none, unread := false, again := false,
    noted := if c.kept.isSome then c.noted else [], io := Io.none }) u

/-- The low-water run goes OFF when the erased count is at or above the mark plus 2 (R101). -/
def endRun (u : Units) : Units :=
  if u.pu.shadow.lowWater + 2 ≤ u.iu.erasedCount then modCe (fun c => { c with lowRun := false }) u else u

/-- A pass ends with its segment PREPARED or BAD (R117, R118). -/
def passEnded (u : Units) : Units := toIdle (endRun (answerOwed .ok u))

/-! ## Erase and preparation (R116 to R119) -/

/-- The engine waits for the pins and the Writer's clearance (R116). -/
def toErase (u : Units) : Units :=
  modCe (fun c => { c with state := .erase, step := .waitErase, cleared := false, copy := none, todo := none }) u

/-- The ERASE of the victim is presented (R116, R117, R119). -/
def presentErase (attempt : Nat) (u : Units) : Units :=
  engineAsk .erasing (victimOf u) .erase (modCe (fun c => { c with attempts := attempt }) u)

/-- The withdrawal program of the victim (R117, R118). -/
def withdrawVictim (u : Units) : Units := engineMark .withdrawing (victimOf u) 0 (segPattern .bad) u

/-- The count written at the preparation (R9, R118). -/
def raisedCount (u : Units) : Nat := saturate Config.eraseCountMax (u.iu.seg (victimOf u)).eraseCount

def prepareVictim (u : Units) : Units :=
  engineAsk .preparing (victimOf u) (.program 0 (prepareProgram (raisedCount u))) u

/-! ## The scan and the sweep (R107, R113, R114) -/

/-- A SWEEP claim of the victim (R114). -/
def toSweep (u : Units) : Units := engineClaim .sweepClaim (.sweep (victimOf u)) u

/-- A READ of `n` cells from a location of the victim. -/
def engineRead (st : CStep) (l : Location) (n : Nat) (u : Units) : Units :=
  engineAsk st l.seg (.read l.cell n) (modCe (fun c => { c with reading := l }) u)

/-- The scan reads the header at its position, or is complete (R107). -/
def scanNext (u : Units) : Units :=
  if u.ce.scan < Config.cells then engineRead .scanRead ⟨victimOf u, u.ce.scan⟩ 1 u else toSweep u

/-- The location a named record lies at (R114). -/
def Named.loc : Named → Location
  | .entry _ _ l => l
  | .commitMember _ _ l => l
  | .member _ _ _ l => l

/-- What names a record in its notice (R114). -/
def Named.names : Named → Option Nat × Option Nat
  | .entry part key _ => (some part, some key)
  | .commitMember _ part _ => (some part, none)
  | .member _ part key _ => (some part, some key)

/-- The engine waits in its sweep, again after each sweep it repeats (log 61): NO_VICTIM, and NO_SPACE to the RECLAIMs owed;
where a claim has been released since the SWEEP was taken, the sweep is repeated at once (R114, log 50). -/
def waitInSweep (u : Units) : Units :=
  let v := engineClaim .sweepWaiting .noVictim (answerOwed .noSpace u)
  if u.ce.again then wakeSweep v else v

/-- The sweep reads the next record named; at the end of its list it repeats, or waits when it met a record it could
not remove (R114). -/
def sweepNext (u : Units) : Units :=
  match u.ce.todo with
  | some (n :: _) => engineRead .sweepRead n.loc 1 u
  | _ => if u.ce.unread then waitInSweep u else toSweep u

/-- The record in hand is done: the sweep drops it from its list, the scan moves past it (R107, R114). -/
def recordDone (cells : Nat) (u : Units) : Units :=
  match u.ce.todo with
  | some ns => sweepNext (modCe (fun c => { c with copy := none, todo := some ns.tail }) u)
  | none => scanNext (modCe (fun c => { c with copy := none, scan := c.scan + cells }) u)

/-- A LOSS claim for an entry that names a record that is not sound (R114). -/
def presentLoss (part key : Nat) (l : Location) (u : Units) : Units := engineClaim .lossClaim (.loss part key l) u

/-- A record that a member list or the commit set names is not sound: one notice, when it is first found (R114). -/
def noteUnread (part key : Option Nat) (l : Location) (u : Units) : Units :=
  if u.ce.noted.contains l then u
  else postIntegrity .engine .lost part key (some l.seg) (modCe (fun c => { c with noted := c.noted ++ [l] }) u)

/-- A named record is not sound at its location, in the sweep (R114). -/
def sweepLost (n : Named) (u : Units) : Units :=
  match n with
  | .entry part key l => presentLoss part key l u
  | _ => recordDone 0 (noteUnread n.names.1 n.names.2 n.loc (modCe (fun c => { c with unread := true }) u))

def Named.isEntry : Named → Bool
  | .entry _ _ _ => true
  | _ => false

/-- The notice for a record that a member list or the commit set names, under the first of them (R113, R114). -/
def noteHeld (named : List Named) (l : Location) (u : Units) : Units :=
  match named.find? (fun n => !n.isEntry) with
  | some n => noteUnread n.names.1 n.names.2 l u
  | none => u

/-- The payload of a record the scan would copy is not sound: it is lost at once by all that names it now, a member list or the
commit set by a notice and the index by a LOSS, and the scan moves on (R113, R114, log 65). -/
def scanLost (h : Header) (u : Units) : Units :=
  let l := u.ce.reading
  let named := (namedIn l.seg u).filter (fun n => n.loc == l)
  let v := noteHeld named l u
  match named.find? Named.isEntry with
  | some (.entry part key _) => presentLoss part key l (modCe (fun c => { c with scan := c.scan + h.cells }) v)
  | _ => recordDone h.cells v

/-- A record that cannot be copied is lost, as the scan or the sweep found it (R113, R114). -/
def recordLost (h : Header) (u : Units) : Units :=
  match u.ce.todo with
  | some (n :: _) => sweepLost n u
  | _ => scanLost h u

/-- A record that is not to be copied, its cells read: done, unless the sweep names it and it is not sound (R107, R114). -/
def passOver (h : Header) (bytes : List Byte) (u : Units) : Units :=
  match u.ce.todo with
  | some (n :: _) => if payloadSound h bytes then recordDone h.cells u else sweepLost n u
  | _ => recordDone h.cells u

/-- A record that is not to be copied, by its header: the scan moves on; in the sweep something names its location, so that it is
tested as any named record is, its payload cells read first if it has any (R108, R114). -/
def recordSkipped (h : Header) (u : Units) : Units :=
  if u.ce.todo.isSome ∧ 1 < h.cells then engineRead .sweepCheck u.ce.reading h.cells u else passOver h [] u

/-! ## The decision (R108) -/

/-- The question a record asks, or none when it is skipped (R108). -/
inductive Question where
  | skip | lookup | number | member (basis : Basis)
deriving DecidableEq, Repr

def question (h : Header) : Question :=
  match h.recordKind, h.taken with
  | .data, .written => if h.txn = 0 then .skip else .member .memberWritten
  -- a TOMBSTONE reading WRITTEN with number 0 stands in no row of R108's table: log 48
  | .tombstone, .written => if h.txn = 0 then .skip else .member .memberWritten
  | .data, .live => .lookup
  | .tombstone, .live => if h.txn = 0 then .skip else .member .memberTombstone
  | .commit, .live => .number
  | _, _ => .skip

/-- The engine decides a sound record (R108). -/
def decideRecord (h : Header) (u : Units) : Units :=
  match question h with
  | .skip => recordSkipped h u
  | .lookup => engineClaim (.lookupClaim h) (.lookup h.part h.key false) u
  | .number => engineClaim (.numberClaim h) (.numberQuery h.txn) u
  | .member basis => engineStep (.memberAsk h basis) u

/-- The state a decision rested on (R107). -/
def Basis.least : Basis → RecordState
  | .memberWritten => .written
  | _ => .live

/-- The record is to be copied: its cells are read (R107). -/
def readBody (h : Header) (basis : Basis) (u : Units) : Units :=
  engineRead (.bodyRead basis basis.least) u.ce.reading h.cells u

/-! ## Building a copy (R109) -/

/-- ALLOCATE for the copy in hand. -/
def copyAllocate (c : Copy) (u : Units) : Units := engineClaim .allocating (.allocate c.hdr.cells) u

def engineHead (h : HeadStep) (u : Units) : Units := engineAsk (.head h) h.program.1 (.program 0 h.program.2) u

/-- The pass is abandoned: the low-water run goes OFF and NO_VICTIM is presented; the victim is held when it is taken (R115,
log 21). -/
def abandonPass (u : Units) : Units := engineClaim .abandonClaim .noVictim (modCe (fun c => { c with lowRun := false }) u)

/-- The rest of an ALLOCATE answer for the copy head (R109, R115). -/
def followCopyAllocate (rest : AllocRest) (u : Units) : Units :=
  match u.ce.copy, rest with
  | some c, .place l =>
    engineAsk .header l.seg (.program l.cell (c.hdr.bytes openPattern))
      (modCe (fun x => { x with copy := some { c with loc := l } }) u)
  | _, .newHead h => engineHead h.first u
  | _, _ => abandonPass u

/-- A mark programmed on the copy's header cell. -/
def copyMark (st : CStep) (b : Byte) (c : Copy) (u : Units) : Units := engineMark st c.loc.seg c.loc.cell b u

def copyPayload (c : Copy) (i : Nat) (u : Units) : Units :=
  engineAsk (.payload i) c.loc.seg (.program (c.loc.cell + 1 + i) (slice c.bytes (16 * (i + 1)) 16)) u

/-- One PROGRAM of the RETIRED program of a copy (R13, R111, R112). -/
def copyRetire (why : CRetire) (mark tries : Nat) (c : Copy) (u : Units) : Units :=
  copyMark (.retiring why mark tries) (retireMark mark) c u

/-! ## The hand-over (R110) -/

/-- A finished copy is handed to the table that named its original (R110). -/
def handOver (c : Copy) (u : Units) : Units :=
  match c.basis with
  | .entry =>
    engineClaim (.copySwitching (c.hdr.txn != 0))
      (.copySwitch (.entry c.hdr.part c.hdr.key) c.orig c.loc c.hdr.cells) u
  | .memberWritten => engineStep (.moving .written) u
  | .memberTombstone => engineStep (.moving .tombstone) u
  | .commitSet => engineClaim (.copySwitching false) (.copySwitch (.commitMember c.hdr.txn) c.orig c.loc c.hdr.cells) u

/-- A REPORT of the engine (R47). -/
def engineReport (what : CReport) (l : Location) (c : Copy) (u : Units) : Units :=
  engineClaim (.reporting what) (.report (.dead l c.hdr.cells)) u

/-- COPY_SWITCH taken (R110). -/
def copySwitched (moved : Bool) (u : Units) : Units :=
  match u.ce.copy, u.ce.step with
  | some c, .copySwitching thenMove =>
    if !moved then copyRetire .stale 0 1 c u
    else if thenMove then engineStep (.moving .afterSwitch) u
    else recordDone c.hdr.cells u
  | _, _ => u

/-- The member move of the engine is answered, or waits; the copy of a TOMBSTONE is named by no index entry and is
reported (R46, R68, R110, log 40). -/
def moveMember (u : Units) : Units :=
  match u.ce.copy, u.ce.step with
  | some c, .moving why =>
    let t := takeMove c.hdr.txn c.hdr.key c.orig c.loc u
    match t.2, why with
    | .waits, _ => u
    | _, .afterSwitch => recordDone c.hdr.cells t.1
    | .moved true, .written =>
      if c.hdr.recordKind = RecordKind.data then
        engineClaim (.copySwitching false) (.copySwitch (.entry c.hdr.part c.hdr.key) c.orig c.loc c.hdr.cells) t.1
      else engineReport .original c.orig c t.1
    | .moved _, _ => engineReport .original c.orig c t.1
    | .stale, _ => copyRetire .staleReport 0 1 c t.1
  | _, _ => u

/-! ## Failures of a copy (R111, R112) -/

/-- A program of the copy has failed: it is retired once, but for a COMMIT, and reported discarded (R112). -/
def failCopy (c : Copy) (u : Units) : Units :=
  if c.hdr.recordKind = RecordKind.commit then engineReport .failed c.loc c u else copyRetire .failed 0 1 c u

/-- The retire of a copy is finished, in full or short (R111, R112). -/
def copyRetired (why : CRetire) (c : Copy) (u : Units) : Units :=
  match why with
  | .stale => recordDone c.hdr.cells u
  | .staleReport => engineReport .discarded c.loc c u
  | .failed => engineReport .failed c.loc c u

/-- A PROGRAM of the RETIRED program of a copy has completed (R13, R111, R112). -/
def copyRetireDone (ok : Bool) (why : CRetire) (mark tries : Nat) (c : Copy) (u : Units) : Units :=
  if ok then if mark < lastMark then copyRetire why (mark + 1) 1 c u else copyRetired why c u
  else if why = .failed then copyRetired why c u
  else if tries < 3 then copyRetire why mark (tries + 1) c u
  else copyRetired why c (engineSuspect c.loc.seg u)

/-- The failed copy is left behind: its attempt count grows, and it is built again or the pass is abandoned (R112). -/
def copyAgain (c : Copy) (u : Units) : Units :=
  let c := { c with attempts := c.attempts + 1 }
  let u := modCe (fun x => { x with copy := some c }) u
  if c.attempts ≤ 2 then copyAllocate c u else abandonPass u

/-! ## Completions of the engine's programs and erases -/

/-- A program of the copy head has completed (R109). -/
def engineHeadDone (ok : Bool) (h : HeadStep) (u : Units) : Units :=
  match h with
  | .closing seg tries rest =>
    if ok then followCopyAllocate rest (u.setIu (u.iu.nowFull seg))
    else if tries < 3 then engineHead (.closing seg (tries + 1) rest) u
    else followCopyAllocate rest (engineSuspect seg (u.setIu (u.iu.nowFull seg)))
  | .preparing n => if ok then engineHead (.opening n) u else engineHead (.withdrawing n.seg) u
  | .opening n => if ok then engineClaim (.openedClaim n) (.opened n) u else engineHead (.withdrawing n.seg) u
  | .withdrawing seg => engineClaim (.badClaim seg) (.close seg .bad) u

/-- A build program of the copy has completed (R109, R112). -/
def copyBuildDone (ok : Bool) (st : CStep) (c : Copy) (u : Units) : Units :=
  let written (u : Units) := copyMark .written writtenPattern c u
  if !ok then failCopy c u
  else match st with
    | .header =>
      if c.hdr.recordKind = RecordKind.commit then copyMark .live livePattern c u
      else if 1 < c.hdr.cells then copyPayload c 0 u
      else written u
    | .payload i => if i + 2 < c.hdr.cells then copyPayload c (i + 1) u else written u
    | .written => if c.target = .live then copyMark .live livePattern c u else handOver c u
    | _ => handOver c u

/-- A PROGRAM of the engine has completed (R106, R109 to R112, R117, R118). -/
def engineProgramDone (ok : Bool) (u : Units) : Units :=
  match u.ce.step, u.ce.copy with
  | .marking tries, _ =>
    if ok then engineClaim .reclaimingClaim (.reclaiming (victimOf u)) u
    else if tries < 3 then engineMark (.marking (tries + 1)) (victimOf u) 0 (segPattern .reclaiming) u
    else engineClaim .reclaimingClaim (.reclaiming (victimOf u)) (engineSuspect (victimOf u) u)
  | .head h, _ => engineHeadDone ok h u
  | .header, some c => copyBuildDone ok .header c u
  | .payload i, some c => copyBuildDone ok (.payload i) c u
  | .written, some c => copyBuildDone ok .written c u
  | .live, some c => copyBuildDone ok .live c u
  | .retiring why mark tries, some c => copyRetireDone ok why mark tries c u
  | .closingFailed seg tries, some c =>
    if ok then copyAgain c (u.setIu (u.iu.nowFull seg))
    else if tries < 3 then engineMark (.closingFailed seg (tries + 1)) seg 0 (segPattern .full) u
    else copyAgain c (engineSuspect seg (u.setIu (u.iu.nowFull seg)))
  | .preparing, _ =>
    if ok then engineClaim .preparedClaim (.prepared (victimOf u) (raisedCount u)) u else withdrawVictim u
  | .withdrawing, _ => engineClaim .badVictimClaim (.close (victimOf u) .bad) u
  | _, _ => u

/-- The ERASE of the engine has completed (R117). -/
def engineEraseDone (ok : Bool) (u : Units) : Units :=
  if ok then engineClaim .erasedClaim (.erased (victimOf u)) u
  else if u.ce.attempts < 2 then presentErase 2 u
  else withdrawVictim u

/-- The bytes of a READ of the engine (R107, R113, R114). -/
def engineReadDone (bytes : List Byte) (u : Units) : Units :=
  let h := readHeader bytes
  match u.ce.step with
  | .scanRead =>
    if allErased bytes then toSweep u
    else if !h.sound u.ce.reading.cell then
      toSweep (postIntegrity .engine .lost none none (some (victimOf u)) (countFault u))
    else decideRecord h u
  | .sweepRead =>
    match u.ce.todo with
    | some (n :: _) => if h.sound u.ce.reading.cell then decideRecord h u else sweepLost n u
    | _ => u
  | .sweepCheck => passOver h bytes u
  | .bodyRead basis least =>
    if h.taken = .retired ∨ ¬ h.taken.reaches least then passOver h bytes u
    else if !payloadSound h bytes then recordLost h u
    else
      let c : Copy := ⟨u.ce.reading, h, bytes, basis, h.taken, 0, u.ce.reading⟩
      copyAllocate c (modCe (fun x => { x with copy := some c }) u)
  | _ => u

/-! ## Answers to the engine's claims and questions -/

/-- LOOKUP or NUMBER_QUERY answered (R108). -/
def engineAnswered (yes : Bool) (u : Units) : Units :=
  match u.ce.step with
  | .lookupClaim h => if yes then readBody h .entry u else recordSkipped h u
  | .numberClaim h => if yes then readBody h .commitSet u else recordSkipped h u
  | _ => u

/-- The member query of the engine is answered (R108). -/
def askMember (u : Units) : Units :=
  match u.ce.step with
  | .memberAsk h basis =>
    if memberQueried h.txn h.key u.ce.reading (basis == .memberTombstone) u then readBody h basis u
    else recordSkipped h u
  | _ => u

/-- ALLOCATE for the copy head answered (R109). -/
def engineAllocated (close : Option Nat) (rest : AllocRest) (u : Units) : Units :=
  match close with
  | some seg => engineHead (.closing seg 1 rest) u
  | none => followCopyAllocate rest u

/-- OPENED taken: ALLOCATE again (R109). -/
def engineAgain (u : Units) : Units :=
  match u.ce.copy with
  | some c => copyAllocate c u
  | none => u

/-- CLOSE taken; `fresh` says whether the segment was not suspect before (R109, R112, R117, R118). -/
def engineClosed (fresh : Bool) (u : Units) : Units :=
  match u.ce.step, u.ce.copy with
  | .suspectClaim, some c =>
    let u := if fresh then
        postIntegrity .engine .suspect (copyNames u).1 (copyNames u).2 (some c.loc.seg) u
      else u
    engineMark (.closingFailed c.loc.seg 1) c.loc.seg 0 (segPattern .full) u
  | .badClaim seg, _ =>
    engineAgain (postIntegrity .engine .bad (copyNames u).1 (copyNames u).2 (some seg) u)
  | .badVictimClaim, _ => passEnded (postIntegrity .engine .bad none none (some (victimOf u)) u)
  | _, _ => u

/-- REPORT taken (R110 to R112). -/
def engineReported (u : Units) : Units :=
  match u.ce.step, u.ce.copy with
  | .reporting .failed, some c => engineClaim .suspectClaim (.close c.loc.seg .suspect) u
  | .reporting _, some c => recordDone c.hdr.cells u
  | _, _ => u

/-- RECLAIMING taken: the copy scan begins (R106). -/
def engineMarked (u : Units) : Units :=
  scanNext (modCe (fun c => { c with state := .copy, scan := 1, todo := none }) u)

/-- SWEEP answered, with what the member lists name (R114). -/
def engineSwept (named : List Named) (u : Units) : Units :=
  if named.isEmpty then toErase u
  else sweepNext (modCe (fun c => { c with todo := some named, unread := false, again := false }) u)

/-- LOSS taken; the fault and its notice when the entry was removed (R114, log 20). -/
def engineLost (part key : Nat) (removed : Bool) (u : Units) : Units :=
  let u := if removed then
      postIntegrity .engine .lost (some part) (some key) (some (victimOf u)) (countFault u)
    else u
  recordDone 0 u

/-- ERASED taken: PREPARE (R117, R118). -/
def engineErased (u : Units) : Units := prepareVictim (modCe (fun c => { c with state := .prepare }) u)

/-- NO_VICTIM taken: the end of a pass without a victim, or of one that is abandoned, whose scan position stays at the
record that could not be copied; one of the sweep stays the sweep's (R105, R115, log 49). The low-water run has gone OFF before
(R101, log 21): a fall of the erased count since then has turned it ON again. -/
def engineNoVictim (u : Units) : Units :=
  match u.ce.step with
  | .selectNone => toIdle (answerOwed .noSpace u)
  | .abandonClaim =>
    let e := u.ce
    modCe (fun c => { c with
        victim := e.victim, source := .held, restart := false, noted := e.noted,
        scan := (e.copy.map (·.orig.cell)).getD e.scan, todo := e.todo.map (·.take 1) })
      (toIdle (answerOwed .noSpace u))
  | _ => u

/-! ## Starting a pass (R100, R104) -/

/-- Whether `x` is chosen before `y` (R104). -/
def SegEntry.victimBefore (x y : SegEntry) : Bool :=
  if x.suspect != y.suspect then x.suspect
  else if x.dead ≠ y.dead then decide (y.dead < x.dead)
  else if x.eraseCount ≠ y.eraseCount then decide (x.eraseCount < y.eraseCount)
  else decide (x.seq.getD 0 < y.seq.getD 0)

/-- A candidate of SELECT (R104). -/
def SegEntry.candidate (e : SegEntry) : Bool := e.state == .full && decide (1 ≤ e.dead)

/-- The victim of SELECT among numbered entries (R104). -/
def selectVictim : List (SegEntry × Nat) → Option (SegEntry × Nat)
  | [] => none
  | x :: xs =>
    match selectVictim xs with
    | none => if x.1.candidate then some x else none
    | some y => if x.1.candidate && x.1.victimBefore y.1 then some x else some y

/-- There is demand for a pass (R100). -/
def demand (u : Units) : Bool :=
  u.ce.lowRun || !u.ce.owed.isEmpty || !u.iu.spaceWait.isEmpty || !u.ce.pendingErase.isEmpty

/-- SELECT, and MARK or the end without a victim, the low-water run OFF at once (R101, R104 to R106, log 21). -/
def startSelect (u : Units) : Units :=
  match selectVictim (u.iu.segs.zipIdx Config.firstData) with
  | some (_, seg) =>
    engineMark (.marking 1) seg 0 (segPattern .reclaiming)
      (modCe (fun c => { c with
        kind := some .victim, victim := some seg, source := .selected, scan := 1, attempts := 0, state := .mark }) u)
  | none =>
    engineClaim .selectNone .noVictim (modCe (fun c => { c with kind := some .victim, state := .select, lowRun := false }) u)

/-- A pass on a victim held or resumed, at COPY: at its scan position, or at the record its sweep could not copy (R99,
R100, R115). -/
def startCopy (u : Units) : Units :=
  let v := modCe (fun c => { c with kind := some .victim, state := .copy, attempts := 0 }) u
  if u.ce.todo.isSome then sweepNext v else scanNext v

/-- An ERASE_ONLY pass (R119). -/
def startEraseOnly (seg : Nat) (rest : List Nat) (u : Units) : Units :=
  presentErase 1 (modCe (fun c => { c with
    kind := some .eraseOnly, kept := c.victim, victim := some seg, source := .selected, state := .erase, pendingErase := rest }) u)

/-- The table of R100, the first line that applies deciding; lines 1 and 3 start their pass whether or not demand is left (log
63). A held victim stays held during an ERASE_ONLY pass. -/
def startPass (u : Units) : Units :=
  if u.ce.state ≠ .idle ∨ u.me.phase ≠ .done then u
  else if u.ce.victim.isSome ∧ u.ce.source = .resumed then startCopy u
  else match u.ce.pendingErase with
    | seg :: rest => startEraseOnly seg rest u
    | [] =>
      if u.ce.victim.isSome then if u.ce.restart then startCopy u else u
      else if demand u then startSelect u
      else u

/-! ## Clearance and the erase (R116) -/

/-- The Writer answers the engine's request for clearance (R116). -/
def giveClearance (u : Units) : Units :=
  if u.ce.step = .waitErase ∧ ¬ writerAt (victimOf u) u then modCe (fun c => { c with cleared := true }) u else u

/-- The pins are gone and clearance is given: the ERASE is presented (R116). -/
def eraseVictim (u : Units) : Units :=
  if u.ce.step = .waitErase ∧ u.ce.cleared ∧ (u.iu.seg (victimOf u)).pins = 0 then presentErase 1 u else u

/-! ## RECLAIM and a port reset (R99, R102, R114) -/

/-- A RECLAIM is owed; an engine that waits in its sweep answers it at once (R102, R114, R115), one that repeats its sweep when
it is back in the wait (log 61). -/
def takeReclaim (p : Port) (u : Units) : Units :=
  let u := modCe (fun c => { c with owed := c.owed ++ [p], restart := true }) u
  if u.ce.step = .sweepWaiting then answerOwed .noSpace u else u

/-- A port reset removes the port's owed RECLAIM (R99). -/
def dropReclaim (p : Port) (u : Units) : Units := modCe (fun c => { c with owed := c.owed.filter (· != p) }) u

end Sys2Proof.Machine
end

