-- ==== Sys2Proof/Machine/Flags.lean ====
section
/-! DEFINITION. The causes and lines of a port: the status byte, the NOTICE cause and ATTN_N (R164, R168, R173). -/

namespace Sys2Proof.Machine

/-- TRUE while the notice queue holds a notice (R164). -/
def noticeCause (p : Port) (u : Units) : Bool := !(u.notices p).queue.isEmpty

/-- Port state bits 7 and 6 of the status byte (section 11.3). -/
def PortState.bits : PortState → Byte
  | .mounting => 0x00 | .ready => 0x40 | .busy => 0x80 | .done => 0xC0

/-- The port status byte (R168, section 11.3). -/
def statusByte (p : Port) (u : Units) : Byte :=
  (u.port p).state.bits
    ||| (if (u.port p).doneCause then 0x04 else 0)
    ||| (if noticeCause p u then 0x02 else 0)
    ||| (if (u.port p).collision then 0x01 else 0)

/-- ATTN_N is asserted (R164, R173). -/
def attentionAsserted (p : Port) (u : Units) : Bool :=
  ((u.port p).doneCause && (u.port p).enDone) || (noticeCause p u && (u.port p).enNotice)

/-- The part runs: it is powered and RESET_N is released. -/
def State.running (s : State) : Bool := s.powered && !s.resetLow

/-- The ATTN_N output: asserted low; released while RESET_N is asserted (R167). -/
def State.attnAsserted (s : State) (p : Port) : Bool := s.running && attentionAsserted p s.units

/-- Output flags of the window (section 11.3). -/
def outputFlags (staged more returned overflow : Bool) : Byte :=
  (if staged then 1 else 0) ||| (if more then 2 else 0) ||| (if returned then 4 else 0) ||| (if overflow then 8 else 0)

end Sys2Proof.Machine
end

