-- ==== Sys2Proof/Machine/Notice.lean ====
section
/-! DEFINITION. The Notice Unit: watches, queues, coalescing, drops and the pop (R156 to R166). -/

namespace Sys2Proof.Machine

/-! ## The notice record (section 11.2) -/

def NoticeKind.byte : NoticeKind → Byte
  | .keyChanged => 0x01 | .claimLost => 0x02 | .leaseWarning => 0x03 | .spaceLow => 0x04
  | .policyChanged => 0x05 | .policyDefaulted => 0x06 | .integrity => 0x07

def NoticeReason.byte : NoticeReason → Byte
  | .updated => 0x01 | .deleted => 0x02 | .expired => 0x03 | .locked => 0x04 | .revoked => 0x05
  | .suspect => 0x06 | .bad => 0x07 | .lost => 0x08 | .policy => 0x09

/-- The 16 bytes of a notice; a field not used holds its none value. -/
def Notice.bytes (n : Notice) : List Byte :=
  [n.kind.byte] ++ toBytes 1 (n.part.getD 0xFF) ++ toBytes 2 (n.key.getD 0xFFFF) ++ toBytes 4 (n.gen.getD 0)
    ++ toBytes 2 (n.txn.getD 0) ++ toBytes 1 ((n.source.map portNumber).getD 0xFF) ++ toBytes 1 (n.seg.getD 0xFF)
    ++ [(n.reason.map NoticeReason.byte).getD 0] ++ toBytes 1 n.count ++ [0, 0]

/-! ## The queue (R161, R162) -/

/-- A queued KEY_CHANGED of the same partition and key (R161). -/
def Notice.coalesces (n q : Notice) : Bool :=
  n.kind == .keyChanged && q.kind == .keyChanged && q.part == n.part && q.key == n.key

/-- The queued entry updated in place (R161). -/
def Notice.merged (n q : Notice) : Notice :=
  { q with gen := n.gen, source := n.source, reason := n.reason, count := saturate 255 q.count }

/-- The first entry that coalesces updated in place. -/
def mergeInto (n : Notice) : List Notice → List Notice
  | [] => []
  | q :: qs => if n.coalesces q then n.merged q :: qs else q :: mergeInto n qs

def queueCapacity : Nat := 16

/-- A notice placed: coalesced, added at the tail, or dropped (R161, R162). -/
def NoticePort.place (x : NoticePort) (n : Notice) : NoticePort :=
  if x.queue.any n.coalesces then { x with queue := mergeInto n x.queue }
  else if x.queue.length < queueCapacity then { x with queue := x.queue ++ [n] }
  else { x with overflow := true, lost := saturate 255 x.lost }

/-- A notice placed in a port's queue. -/
def placeNotice (p : Port) (n : Notice) (u : Units) : Units := u.setNotices p ((u.notices p).place n)

/-- Whether a port is among the recipients, by the shadow when the post is taken (R160, R165). -/
def Recipients.has (r : Recipients) (p : Port) (u : Units) : Bool :=
  match r with
  | .one q => q == p
  | .every => true
  | .authority => u.pu.shadow.authority p

/-- A notice placed for each recipient (R160). -/
def placeFor (sel : Port → Bool) (n : Notice) (u : Units) : Units :=
  allPorts.foldl (fun u p => if sel p then placeNotice p n u else u) u

/-- The first element that satisfies a test, and the list without it. -/
def takeFirst {α : Type} (t : α → Bool) : List α → Option (α × List α)
  | [] => none
  | x :: xs => if t x then some (x, xs) else (takeFirst t xs).map fun r => (r.1, x :: r.2)

/-- The oldest post of a unit is taken (R160). -/
def takePost (src : Poster) (u : Units) : Units :=
  match takeFirst (fun x => x.src == src) u.nu.posts with
  | none => u
  | some (x, rest) =>
    let u := { u with nu := { u.nu with posts := rest } }
    placeFor (fun p => x.dest.has p u) x.notice u

/-- A watch of the key or of the whole partition (R160). -/
def NoticePort.watching (x : NoticePort) (part key : Nat) : Bool :=
  x.watches.any fun w => w.part == part && (w.key == none || w.key == some key)

/-- The three tests of R160. -/
def ChangeReport.reaches (r : ChangeReport) (p : Port) (u : Units) : Bool :=
  p != r.source && (u.notices p).watching r.part r.key && u.pu.shadow.mayRead p r.part

/-- The KEY_CHANGED a report posts (R160). -/
def ChangeReport.notice (r : ChangeReport) : Notice :=
  { Notice.plain .keyChanged with
    part := some r.part, key := some r.key, gen := some r.gen, source := some r.source,
    reason := some (if r.deleted then .deleted else .updated), count := 1 }

/-- The oldest change report is taken (R160, R161). -/
def takeReport (u : Units) : Units :=
  match u.nu.reports with
  | [] => u
  | r :: rest =>
    let u := { u with nu := { u.nu with reports := rest } }
    placeFor (fun p => r.reaches p u) r.notice u

/-- A change report sent by a switch (R43, R44). -/
def sendReport (r : ChangeReport) (u : Units) : Units := { u with nu := { u.nu with reports := u.nu.reports ++ [r] } }

/-! ## Watches (R157 to R159) -/

def watchCapacity : Nat := 8

/-- WATCH: the duplicate test before the capacity test (R157). -/
def NoticePort.addWatch (x : NoticePort) (w : Watch) : NoticePort × ResultCode :=
  if x.watches.contains w then (x, .ok)
  else if watchCapacity ≤ x.watches.length then (x, .watchFull)
  else ({ x with watches := x.watches ++ [w] }, .ok)

/-- UNWATCH: exactly the watch named (R158). -/
def NoticePort.removeWatch (x : NoticePort) (w : Watch) : NoticePort × ResultCode :=
  if x.watches.contains w then ({ x with watches := x.watches.erase w }, .ok) else (x, .notFound)

/-- The oldest removal is taken: every watch it names that stands in the tables now (R159, log 54). -/
def takeRemoval (u : Units) : Units :=
  match u.nu.removals with
  | [] => u
  | r :: rest =>
    { u with nu := { u.nu with
        removals := rest,
        ports := u.nu.ports.map fun p x =>
          { x with watches := x.watches.filter fun w => !r.contains (p, w.part) } } }

/-! ## The pop and a port reset (R156, R163) -/

/-- NOTICE_POP: the port's state after it, and the outcome (R163). -/
def NoticePort.pop (x : NoticePort) : NoticePort × Posting :=
  match x.queue with
  | n :: rest =>
    ({ x with queue := rest },
     ⟨{ Results.zero with
          code := ResultCode.byte .ok, count := BitVec.ofNat 8 rest.length,
          flags := outputFlags false false true x.overflow, lost := BitVec.ofNat 8 x.lost }, n.bytes⟩)
  | [] =>
    ({ x with overflow := false, lost := 0 },
     Posting.okWith { Results.zero with
       flags := outputFlags false false false x.overflow, lost := BitVec.ofNat 8 x.lost })

/-- A port reset empties the port's watch table and queue and clears its overflow state; a CLAIM_LOST or LEASE_WARNING
of the port that has not been taken is gone with them (R156). -/
def resetNotices (p : Port) (u : Units) : Units :=
  let v := u.setNotices p ⟨[], [], false, 0⟩
  { v with nu := { v.nu with posts := v.nu.posts.filter (fun x => x.dest != .one p) } }

end Sys2Proof.Machine
end

