-- ==== Sys2Proof/Machine/Mount.lean ====
section
/-! DEFINITION. The Mount Engine: loading the policy, classifying the segments, scanning the records, repair, and the
hand-over of the rebuilt tables (R121 to R138). -/

namespace Sys2Proof.Machine

/-! ## Steps -/

def modMe (f : MountEngine → MountEngine) (u : Units) : Units := u.setMe (f u.me)

/-- The Mount Engine presents a request and waits for it in a step (R121). -/
def mountAsk (st : MountStep) (seg : Nat) (op : ArrayOp) (u : Units) : Units :=
  modMe (fun m => { m with step := st, io := Io.asking ⟨.mount, seg, op⟩ }) u

/-- One more integrity fault of mount, with the notice to be posted for it, and the cell for a scan that stopped there
(R128, R132, R133, R136). -/
def mountFault (part key seg cell : Option Nat) (u : Units) : Units :=
  modMe (fun m => { m with faults := saturate 65535 m.faults, posts := m.posts ++ [⟨part, key, seg, cell⟩] }) u

/-- One more record discarded (R137). -/
def mountDiscard (u : Units) : Units := modMe (fun m => { m with discarded := saturate 65535 m.discarded }) u

/-- The greater of a survey maximum and a value found. -/
def surveyed (n : Nat) : Option Nat → Option Nat
  | some m => some (max m n)
  | none => some n

/-! ## POLICY (R123, R124) -/

/-- The image loaded: the higher sequence number, segment 0 among equals (R123). -/
def chooseImage : List (Nat × Shadow) → Option (Nat × Shadow)
  | [] => none
  | x :: xs =>
    match chooseImage xs with
    | none => some x
    | some y => if y.2.seq ≤ x.2.seq then some x else some y

/-- The end of POLICY: the shadow is handed to the Policy Unit (R123, R124). -/
def policyLoaded (u : Units) : Units :=
  match chooseImage u.me.images with
  | some (seg, s) =>
    modMe (fun m => { m with source := .loaded })
      (u.setPu { u.pu with shadow := s, source := .loaded, inForce := some seg })
  | none =>
    modMe (fun m => { m with source := .defaulted })
      (u.setPu { u.pu with
        shadow := { Shadow.factory with seq := u.me.greatest }, source := .defaulted, inForce := none })

/-- A policy image is judged (R123). -/
def judgeImage (seg : Nat) (bytes : List Byte) (u : Units) : Units :=
  modMe (fun m => { m with
    images := match usableImage bytes with | some s => m.images ++ [(seg, s)] | none => m.images,
    greatest := if imageCheckOk bytes then max m.greatest (field bytes 1 4) else m.greatest }) u

/-- A policy segment has been read (R123). -/
def policyRead (seg : Nat) (bytes : List Byte) (u : Units) : Units :=
  let u := judgeImage seg bytes u
  if seg = 0 then mountAsk (.policy 1) 1 (.read 0 11) u
  else mountAsk (.header 2) 2 (.read 0 1) (modMe (fun m => { m with phase := .headers }) (policyLoaded u))

/-! ## RECORDS (R128) -/

def classEntry (seg : Nat) (m : MountEngine) : Option SegClass := m.classes.find? (fun c => c.seg == seg)

/-- The class of a data segment; one not classified yet counts as DIRTY. -/
def classOf (seg : Nat) (m : MountEngine) : SegState := ((classEntry seg m).map (·.cls)).getD .dirty

/-- The sequence number kept for a segment. -/
def seqOf (seg : Nat) (m : MountEngine) : Nat := ((classEntry seg m).bind (·.seq)).getD 0

/-- The records of the segment contribute to the store (R125). -/
def contributes (seg : Nat) (m : MountEngine) : Bool := classOf seg m == .full || classOf seg m == .reclaiming

/-- A segment at its place by ascending sequence number. -/
def insertBySeq (m : MountEngine) (seg : Nat) : List Nat → List Nat
  | [] => [seg]
  | x :: xs => if seqOf seg m < seqOf x m then seg :: x :: xs else x :: insertBySeq m seg xs

/-- The segments scanned, in their order: the contributing ones by sequence number, then those surveyed only, by
segment number (R128, log 17). -/
def scanOrder (m : MountEngine) : List Nat :=
  let segs := m.classes.map (·.seg)
  (segs.filter (fun s => contributes s m)).foldl (fun xs s => insertBySeq m s xs) []
    ++ segs.filter (fun s => classOf s m == .dirty || classOf s m == .bad)

/-! ## The decisions of REPAIR (R129 to R131, R133) -/

/-- A version candidate: LIVE DATA or TOMBSTONE (R128). -/
def Candidate.version (c : Candidate) : Bool :=
  c.kind != RecordKind.commit && c.state == .live && c.payload

/-- A member candidate: WRITTEN DATA or TOMBSTONE with a transaction number (R128). -/
def Candidate.member (c : Candidate) : Bool :=
  c.kind != RecordKind.commit && c.state == .written && c.txn != 0 && c.payload

/-- A commit candidate: LIVE COMMIT (R128). -/
def Candidate.commit (c : Candidate) : Bool := c.kind == RecordKind.commit && c.state == .live

/-- To be retired at once by the treatment of R128: OPEN, WRITTEN with number 0, or a payload not sound. -/
def Candidate.incomplete (c : Candidate) : Bool :=
  c.kind != RecordKind.commit
  && (c.state == .opened || (c.state == .written && c.txn == 0)
      || ((c.state == .written || c.state == .live) && !c.payload))

/-- `x` is kept rather than `y`: the higher generation, and among equals the location rule of R129 (log 16). -/
def Candidate.beats (m : MountEngine) (x y : Candidate) : Bool :=
  if x.gen ≠ y.gen then decide (y.gen < x.gen)
  else
    let inside (c : Candidate) : Bool := classOf c.loc.seg m == .reclaiming
    if inside x != inside y then inside y
    else if inside x then decide (seqOf y.loc.seg m < seqOf x.loc.seg m)
    else Config.keepsFirst x.loc.seg y.loc.seg

/-- The candidate kept of a list. -/
def bestOf (m : MountEngine) : List Candidate → Option Candidate
  | [] => none
  | c :: cs =>
    match bestOf m cs with
    | none => some c
    | some d => if d.beats m c then some d else some c

def commitsOf (m : MountEngine) : List Candidate := m.cands.filter (·.commit)

/-- A commit candidate decides a member: partition, number, and a generation below its own (R129). -/
def Candidate.decides (c x : Candidate) : Bool := c.part == x.part && c.txn == x.txn && decide (x.gen < c.gen)

/-- The members some commit candidate decides (R129). -/
def decidedMembers (m : MountEngine) : List Candidate :=
  m.cands.filter fun x => x.member && (commitsOf m).any (fun c => c.decides x)

/-- The members that are promoted: per transaction and key the one kept (R129). -/
def promotedMembers (m : MountEngine) : List Candidate :=
  let ds := decidedMembers m
  ds.filter fun x =>
    (bestOf m (ds.filter (fun y => y.part == x.part && y.txn == x.txn && y.key == x.key))).any (fun b => b.loc == x.loc)

/-- The members not promoted (R129, R130). -/
def retiredMembers (m : MountEngine) : List Candidate :=
  let ps := promotedMembers m
  m.cands.filter fun x => x.member && !ps.any (fun y => y.loc == x.loc)

/-- The candidates that decide the keys: versions, and promoted members not given up (R131, R132). -/
def deciders (m : MountEngine) : List Candidate :=
  let ps := promotedMembers m
  m.cands.filter fun x => x.version || (ps.any (fun y => y.loc == x.loc) && !m.givenUp.contains x.loc)

def Candidate.sameKey (x y : Candidate) : Bool := x.part == y.part && x.key == y.key

/-- The current version of each key, once per key (R131). -/
def currentVersions (m : MountEngine) : List Candidate :=
  let ds := deciders m
  ds.filter fun x => (bestOf m (ds.filter (fun y => y.sameKey x))).any (fun b => b.loc == x.loc)

/-- The losers of R131. -/
def losersOf (m : MountEngine) : List Candidate :=
  let cs := currentVersions m
  (deciders m).filter fun x => !cs.any (fun y => y.loc == x.loc)

/-- A candidate at its place by falling generation. -/
def insertByGen (c : Candidate) : List Candidate → List Candidate
  | [] => [c]
  | x :: xs => if x.gen < c.gen then c :: x :: xs else x :: insertByGen c xs

/-- The current DATA versions by falling generation. -/
def currentData (m : MountEngine) : List Candidate :=
  ((currentVersions m).filter (fun c => c.kind == RecordKind.data)).foldl (fun xs c => insertByGen c xs) []

/-- The records the index names: at most 1,024, of highest generation (R133). -/
def indexed (m : MountEngine) : List Candidate := (currentData m).take Config.indexSlots

/-- The current records over the capacity (R133). -/
def overCapacity (m : MountEngine) : List Candidate := (currentData m).drop Config.indexSlots

/-! ## The groups of programs (R132) -/

/-- The commit candidates by rising generation. -/
def commitOrder (m : MountEngine) : List Candidate :=
  ((commitsOf m).foldl (fun xs c => insertByGen c xs) []).reverse

/-- The promoted members transaction by transaction (R132, log 17). -/
def promotionOrder (m : MountEngine) : List Candidate :=
  let ps := promotedMembers m
  ((commitOrder m).flatMap fun c => ps.filter (fun x => c.part == x.part && c.txn == x.txn)).eraseDups

/-- The current tombstones whose losers all reached RETIRED (R132). -/
def buriedTombstones (m : MountEngine) : List Candidate :=
  (currentVersions m).filter fun t =>
    t.kind == RecordKind.tombstone && !(losersOf m).any (fun x => x.sameKey t && m.short.contains x.loc)

/-- The records a group programs (R132). -/
def groupRecords (m : MountEngine) : Nat → List Candidate
  | 1 => m.cands.filter (·.incomplete)
  | 2 => promotionOrder m
  | 3 =>
    let ps := promotedMembers m
    m.cands.filter fun x => (x.member && !ps.any (fun y => y.loc == x.loc)) || m.givenUp.contains x.loc
  | 4 => losersOf m ++ overCapacity m
  | 5 => buriedTombstones m
  | 6 => commitOrder m
  | _ => []

/-- What the decision of a group counts (R129 to R133, log 18). -/
def groupCounts (group : Nat) (u : Units) : Units :=
  match group with
  | 3 => (retiredMembers u.me).foldl (fun u _ => mountDiscard u) u
  | 4 =>
    let excess := overCapacity u.me
    let u := (losersOf u.me).foldl (fun u _ => mountDiscard u) u
    excess.foldl (fun u c => mountDiscard (mountFault (some c.part) (some c.key) (some c.loc.seg) none u)) u
  | _ => u

/-! ## RESTORE (R126, R133 to R135) -/

/-- The RECLAIMING segments by falling sequence number; the first is the resumption victim (R126). -/
def reclaimingSegs (m : MountEngine) : List Nat :=
  (((m.classes.map (·.seg)).filter (fun s => classOf s m == .reclaiming)).foldl (fun xs s => insertBySeq m s xs) []).reverse

/-- Live cells of a segment: those of the records the index names in it (R134). -/
def liveCells (ix : List Candidate) (seg : Nat) : Nat := ((ix.filter (fun c => c.loc.seg == seg)).map (·.cells)).sum

/-- The class of a segment after mount: a stale victim is FULL if the index names a record in it, else DIRTY (R126). -/
def finalClass (m : MountEngine) (ix : List Candidate) (seg : Nat) : SegState :=
  match classOf seg m with
  | .reclaiming =>
    if (reclaimingSegs m).head? = some seg then .reclaiming
    else if ix.any (fun c => c.loc.seg == seg) then .full
    else .dirty
  | c => c

/-- One entry of the segment table (R134). -/
def restoredSeg (m : MountEngine) (ix : List Candidate) (seg : Nat) : SegEntry :=
  let e := classEntry seg m
  let most := m.maxErase.getD 0
  let count := (e.bind (·.count)).getD most
  let live := liveCells ix seg
  match finalClass m ix seg with
  | .blank => ⟨.blank, most, none, 1, 0, 0, 0, false, true⟩
  | .prepared => ⟨.prepared, count, none, 1, 0, 0, 0, false, true⟩
  | .full => ⟨.full, count, e.bind (·.seq), 128, live, 127 - live, 0, false, false⟩
  | .reclaiming => ⟨.reclaiming, count, e.bind (·.seq), 128, live, 127 - live, 0, false, false⟩
  | .bad => ⟨.bad, count, none, 128, 0, 127, 0, false, false⟩
  | _ => ⟨.dirty, count, none, 128, 0, 127, 0, false, false⟩

/-- The data segments. -/
def dataSegs : List Nat := (List.range Config.dataSegments).map (· + Config.firstData)

def Candidate.entry (c : Candidate) : Entry := ⟨c.part, c.key, c.loc, c.length, c.gen, c.cells⟩

/-- The Index Unit at the hand-over (R55, R133 to R136). -/
def restoredIndex (m : MountEngine) : IndexUnit :=
  let ix := indexed m
  { IndexUnit.start with
    entries := ix.foldl (fun es c => IndexUnit.insertEntry c.entry es) [],
    segs := dataSegs.map (restoredSeg m ix),
    seqNext := match m.maxSeq with | some n => n + 1 | none => 0,
    faults := m.faults }

/-- The erase-pending list (R126, R134). -/
def pendingErases (m : MountEngine) : List Nat :=
  let ix := indexed m
  dataSegs.filter fun s => finalClass m ix s == .dirty

/-- A port at the hand-over: READY, or DONE if its DONE cause is TRUE, when no frame is in progress (R136, R170). -/
def MasterPort.ready (x : MasterPort) : MasterPort :=
  if x.state ≠ .mounting then x
  else if x.frame.isSome then { x with handOver := true }
  else { x with state := if x.doneCause then .done else .ready }

/-- The notices of mount, POLICY_DEFAULTED among them, in the Mount Engine's name (R136, log 64). -/
def mountNotices (u : Units) : Units :=
  let u := if u.me.source = .defaulted then post .mount .every (Notice.plain .policyDefaulted) u else u
  u.me.posts.foldl (fun u f => postIntegrity .mount .lost f.part f.key f.seg u) u

/-- The hand-over (R136), the tables restored in the same event. -/
def handOverTables (u : Units) : Units :=
  let m := u.me
  let u := u.setIu (restoredIndex m)
  let u := u.setRw { RecordWriter.start with gen := (m.maxGen.getD 0) + 1 }
  let u := { u with tm := { TxnManager.start with
    counter := nextNumber (m.maxTxn.getD 0), retained := m.retained } }
  let victim := (reclaimingSegs m).head?
  let u := u.setCe { CompactionEngine.start with
    pendingErase := pendingErases m, victim := victim,
    source := if victim.isSome then .resumed else .selected }
  let u := u.setPu { u.pu with locks := u.pu.shadow.locks }
  let u := allPorts.foldl (fun u p => setDefaultView p u) u
  let u := { u with ports := u.ports.map fun _ x => x.ready }
  let u := modMe (fun m => { m with phase := .done, step := .done, todo := [], progs := [], io := Io.none }) u
  compareLow (mountNotices u)

/-! ## Moving through the phases -/

/-- The program the repair group in hand presents for its next record (R132). -/
def repairProgram (group mark : Nat) : Byte := if group = 2 then livePattern else retireMark mark

/-- The next PROGRAM of the group, or the next group, or RESTORE (R132); `fuel` counts the groups left. -/
def repairNext : Nat → Units → Units
  | 0, u => handOverTables (modMe (fun m => { m with phase := .restore }) u)
  | fuel + 1, u =>
    match u.me.progs with
    | c :: _ =>
      mountAsk (.repair 0 1) c.loc.seg (.program c.loc.cell (firstByteProgram (repairProgram u.me.group 0))) u
    | [] =>
      let g := u.me.group + 1
      let u := groupCounts g u
      repairNext fuel (modMe (fun m => { m with group := g, progs := groupRecords m g }) u)

/-- The groups that can still begin. -/
def groupsLeft (u : Units) : Nat := 7 - u.me.group

/-- REPAIR begins (R129 to R132). -/
def startRepair (u : Units) : Units :=
  let u := modMe (fun m => { m with phase := .repair, group := 0, progs := [] }) u
  repairNext (groupsLeft u) u

/-- The scan of the next segment, or REPAIR (R128). -/
def nextScan (u : Units) : Units :=
  match u.me.todo with
  | seg :: rest => mountAsk (.scanHeader seg 1) seg (.read 1 1) (modMe (fun m => { m with todo := rest }) u)
  | [] => startRepair u

/-- RECORDS begins (R128). -/
def startRecords (u : Units) : Units :=
  nextScan (modMe (fun m => { m with phase := .records, todo := scanOrder m }) u)

/-- The closing program of the next ACTIVE segment, or RECORDS (R127). -/
def nextClosing (u : Units) : Units :=
  match u.me.todo with
  | seg :: rest =>
    mountAsk (.closing seg 1) seg (.program 0 (firstByteProgram (segPattern .full)))
      (modMe (fun m => { m with todo := rest }) u)
  | [] => startRecords u

/-- The next data segment's header, or the closing of the ACTIVE ones (R125, R127). -/
def nextHeader (seg : Nat) (u : Units) : Units :=
  if seg < 63 then mountAsk (.header (seg + 1)) (seg + 1) (.read 0 1) u
  else nextClosing (modMe (fun m => { m with
    todo := (m.classes.filter (fun c => c.cls == .active)).map (·.seg) }) u)

/-- A segment is classified (R125). -/
def classified (seg : Nat) (cls : SegState) (bytes : List Byte) (u : Units) : Units :=
  modMe (fun m => { m with
    classes := m.classes ++ [⟨seg, cls, keptCount bytes, keptSeq bytes⟩],
    maxErase := match keptCount bytes with | some n => surveyed n m.maxErase | none => m.maxErase,
    maxSeq := match keptSeq bytes with | some n => surveyed n m.maxSeq | none => m.maxSeq,
    dirty := m.dirty || cls == .dirty,
    badSegs := if cls = .bad then m.badSegs + 1 else m.badSegs }) u

/-- Cell 0 of a data segment has been read (R125). -/
def headerRead (seg : Nat) (bytes : List Byte) (u : Units) : Units :=
  match classify bytes with
  | some cls => nextHeader seg (classified seg cls bytes u)
  | none => mountAsk (.blank seg) seg .blankCheck u

/-- A closing program of mount has completed (R127). -/
def mountClosed (ok : Bool) (seg tries : Nat) (u : Units) : Units :=
  if !ok && decide (tries < 3) then
    mountAsk (.closing seg (tries + 1)) seg (.program 0 (firstByteProgram (segPattern .full))) u
  else
    nextClosing (modMe (fun m => { m with
      classes := m.classes.map fun c => if c.seg = seg then { c with cls := .full } else c }) u)

/-- The scan goes on behind a record (R128). -/
def scanOn (seg cell : Nat) (u : Units) : Units :=
  if cell < Config.cells then mountAsk (.scanHeader seg cell) seg (.read cell 1) u else nextScan u

/-- A record enters the candidate table, with what its treatment counts (R128). -/
def addCandidate (seg cell : Nat) (h : Header) (payload : Bool) (u : Units) : Units :=
  if contributes seg u.me then
    let c : Candidate :=
      ⟨h.part, h.key, h.recordKind, h.taken, h.gen, h.txn, ⟨seg, cell⟩, h.length, h.cells, payload⟩
    let u := modMe (fun m => { m with cands := m.cands ++ [c] }) u
    let u := if c.incomplete then mountDiscard u else u
    if payload then u else mountFault (some h.part) (some h.key) (some seg) none u
  else u

/-- The survey of a sound header (R128). -/
def surveyHeader (h : Header) (u : Units) : Units :=
  modMe (fun m => { m with
    maxGen := surveyed h.gen m.maxGen,
    maxTxn := if h.txn = 0 then m.maxTxn else surveyed h.txn m.maxTxn }) u

/-- A header cell of the record scan has been read (R128). -/
def scanHeaderRead (seg cell : Nat) (bytes : List Byte) (u : Units) : Units :=
  let h := readHeader bytes
  if allErased bytes then nextScan u
  else if !h.sound cell then
    nextScan (if contributes seg u.me then mountFault none none (some seg) (some cell) u else u)
  else
    let u := surveyHeader h u
    if contributes seg u.me && h.recordKind == RecordKind.data && (h.taken == .written || h.taken == .live) then
      mountAsk (.scanBody seg cell) seg (.read cell h.cells) u
    else scanOn seg (cell + h.cells) (addCandidate seg cell h true u)

/-- The cells of a record have been read for its payload test (R128). -/
def scanBodyRead (seg cell : Nat) (bytes : List Byte) (u : Units) : Units :=
  let h := readHeader bytes
  scanOn seg (cell + h.cells) (addCandidate seg cell h (payloadSound h bytes) u)

/-- A LIVE program of mount is short after 3: the member is given up (R132). -/
def giveUp (c : Candidate) (u : Units) : Units :=
  mountDiscard (mountFault (some c.part) (some c.key) (some c.loc.seg) none
    (modMe (fun m => { m with givenUp := m.givenUp ++ [c.loc] }) u))

/-- The retire of a record in a group is one of a member or commit candidate, the losers apart (R132): the members to be
retired, a member TOMBSTONE that is current, the commit candidates. -/
def Candidate.retains (c : Candidate) (group : Nat) : Bool := group == 3 || group == 6 || (group == 5 && c.member)

/-- A RETIRED program of mount is short after 3; the number of a member or commit candidate is retained (R81, R132). -/
def retireShort (c : Candidate) (u : Units) : Units :=
  modMe (fun m => { m with
    short := if m.group = 4 then m.short ++ [c.loc] else m.short,
    retained := if c.retains m.group then m.retained ++ [(c.txn, c.loc.seg)] else m.retained }) u

/-- A repair record is done: the next one of the group. -/
def repairDone (u : Units) : Units :=
  let u := modMe (fun m => { m with progs := m.progs.tail }) u
  repairNext (groupsLeft u) u

/-- A REPAIR program has completed; a member counts as rolled forward when its LIVE program is VERIFIED (R129, R132,
R137, log 18). -/
def repaired (ok : Bool) (mark tries : Nat) (u : Units) : Units :=
  match u.me.progs with
  | [] => u
  | c :: _ =>
    let again (mark tries : Nat) (u : Units) : Units :=
      mountAsk (.repair mark tries) c.loc.seg
        (.program c.loc.cell (firstByteProgram (repairProgram u.me.group mark))) u
    if ok then
      if u.me.group = 2 then repairDone (modMe (fun m => { m with rolled := saturate 65535 m.rolled }) u)
      else if mark < lastMark then again (mark + 1) 1 u
      else repairDone u
    else if tries < 3 then again mark (tries + 1) u
    else if u.me.group = 2 then repairDone (giveUp c u)
    else repairDone (retireShort c u)

/-! ## Completions of the Mount Engine's requests -/

/-- A READ of the Mount Engine has completed. -/
def mountReadDone (bytes : List Byte) (u : Units) : Units :=
  match u.me.step with
  | .policy seg => policyRead seg bytes u
  | .header seg => headerRead seg bytes u
  | .scanHeader seg cell => scanHeaderRead seg cell bytes u
  | .scanBody seg cell => scanBodyRead seg cell bytes u
  | _ => u

/-- A PROGRAM of the Mount Engine has completed. -/
def mountProgramDone (ok : Bool) (u : Units) : Units :=
  match u.me.step with
  | .closing seg tries => mountClosed ok seg tries u
  | .repair mark tries => repaired ok mark tries u
  | _ => u

/-- A BLANK_CHECK of the Mount Engine has completed: cell 0 read all ones (R125). -/
def mountBlankDone (isBlank : Bool) (u : Units) : Units :=
  match u.me.step with
  | .blank seg =>
    nextHeader seg (classified seg (if isBlank then .blank else .dirty) (List.replicate 16 erasedByte) u)
  | _ => u

end Sys2Proof.Machine
end

