-- ==== Sys2Proof/Machine/Ports.lean ====
section
/-! DEFINITION. The master ports: posting, the commands as a port carries them out, CANCEL, PORT_RESET and the frames of
the link (R167 to R179, R182). -/

namespace Sys2Proof.Machine

/-! ## Posting (R175) -/

/-- Bytes laid over the start of the buffer (R175). -/
def overlay (data buffer : List Byte) : List Byte := data ++ buffer.drop data.length

/-- The window after a posting (R175). -/
def MasterPort.written (x : MasterPort) (o : Posting) : MasterPort :=
  { x with results := o.fields, buffer := overlay (o.data.take 256) x.buffer, doneCause := true, inHand := none,
           outcome := none }

/-- An outcome is posted (R170, R175). -/
def MasterPort.post (x : MasterPort) (o : Posting) : MasterPort := { x.written o with state := .done }

/-- The outcome delivered is posted between frames (R175). -/
def postResult (p : Port) (u : Units) : Units :=
  u.modPort p fun x =>
    match x.outcome, x.frame with
    | some o, none => x.post o
    | _, _ => x

/-! ## READ and STAT (R177) -/

def setWork (p : Port) (w : Work) (u : Units) : Units :=
  u.modPort p fun x => { x with inHand := x.inHand.map fun c => { c with work := w } }

/-- The parameters of the command in hand. -/
def paramsOf (p : Port) (u : Units) : Params := ((u.port p).inHand.map (·.params)).getD (u.port p).params

/-- The outputs of a STAT (R177, R178). -/
def statOutcome (r : ReadWork) : Posting :=
  Posting.okWith { Results.zero with
    recLength := BitVec.ofNat 8 r.length, gen := BitVec.ofNat 32 r.gen, cells := BitVec.ofNat 8 r.cells,
    flags := outputFlags r.staged false false false }

/-- A READ whose record is known and pinned: the array READ, or BAD_PARAM for an offset beyond it (R177). -/
def goRead (p : Port) (r : ReadWork) (u : Units) : Units :=
  if r.length < (paramsOf p u).offsetNat then answer p .badParam (present (.port p) (.unpin r.loc.seg) u)
  else
    (setWork p (.reading r) u).modPort p fun x =>
      { x with io := Io.asking ⟨.port p, r.loc.seg, .read r.loc.cell r.cells⟩ }

/-- A READ or STAT begins: the member lists first, then a LOOKUP (R90, R177). -/
def startLookup (p : Port) (forRead : Bool) (part key : Nat) (u : Units) : Units :=
  let lookup (u : Units) := present (.port p) (.lookup part key forRead) (setWork p (.lookup part key) u)
  match visibleMembers p part u with
  | none => lookup u
  | some ms =>
    match ms.find? (fun m => m.key == key) with
    | none => lookup u
    | some m =>
      let r : ReadWork := ⟨part, key, m.loc, m.length, m.gen, m.cells, true⟩
      if m.op = .delete then answer p .notFound u
      else if forRead then present (.txn p) (.pin m.loc) (setWork p (.pinning r) u)
      else deliver p (statOutcome r) u

/-- A LOOKUP of a port is answered (R177). -/
def portLooked (p : Port) (forRead : Bool) (e : Option Entry) (u : Units) : Units :=
  match e with
  | none => answer p .notFound u
  | some e =>
    let r : ReadWork := ⟨e.part, e.key, e.loc, e.length, e.gen, e.cells, false⟩
    if forRead then goRead p r u else deliver p (statOutcome r) u

/-- A PIN made for a port is answered (R90). -/
def portPinned (p : Port) (u : Units) : Units :=
  match workOf p u with
  | some (.pinning r) => goRead p r u
  | _ => u

/-- The tests of R177 on the bytes read. -/
def readSound (r : ReadWork) (bytes : List Byte) : Bool :=
  let h := readHeader bytes
  h.sound r.loc.cell && h.part == r.part && h.key == r.key && h.gen == r.gen && payloadSound h bytes

/-- The outcome of a READ whose bytes are sound (R177). -/
def readOutcome (r : ReadWork) (q : Params) (bytes : List Byte) : Posting :=
  let data := ((slice bytes 16 (readHeader bytes).length).drop q.offsetNat).take q.lengthNat
  ⟨{ Results.zero with
      code := ResultCode.byte .ok, recLength := BitVec.ofNat 8 r.length, gen := BitVec.ofNat 32 r.gen,
      count := BitVec.ofNat 8 data.length, flags := outputFlags r.staged false false false }, data⟩

/-- The READ of a port has completed: UNPIN, then the tests (R177). -/
def portReadDone (p : Port) (bytes : List Byte) (u : Units) : Units :=
  match workOf p u with
  | some (.reading r) =>
    let u := present (.port p) (.unpin r.loc.seg) u
    if readSound r bytes then deliver p (readOutcome r (paramsOf p u) bytes) u
    else answer p .integrity (countFault u)
  | _ => u

/-- The READ of a command dropped by a port reset has completed: its bytes are dropped, its pin released (R36, R48). -/
def staleReadDone (p : Port) (r : Request) (u : Units) : Units :=
  settle p (present (.port p) (.unpin r.seg) (u.modPort p fun x => { x with stale := none }))

/-! ## LIST (R91, R177) -/

def ListEntry.bytes (e : ListEntry) : List Byte :=
  toBytes 2 e.key ++ toBytes 1 e.length ++ [if e.staged then 1 else 0]

/-- An entry at its place by key. -/
def insertListed (e : ListEntry) : List ListEntry → List ListEntry
  | [] => [e]
  | x :: xs => if e.key < x.key then e :: x :: xs else x :: insertListed e xs

/-- Keys above the start and up to the last key covered. -/
def inWindow (after covered : Option Nat) (key : Nat) : Bool :=
  (match after with | some k => decide (k < key) | none => true)
  && (match covered with | some k => decide (key ≤ k) | none => true)

/-- The index entries of one RANGE answer merged with the members of the same keys (R91). -/
def mergeListed (ms : List Member) (after covered : Option Nat) (es : List Entry) : List ListEntry :=
  let own := (es.filter (fun e => !ms.any (fun m => m.key == e.key))).map fun e => ListEntry.mk e.key e.length false
  let staged := (ms.filter (fun m => m.op == .write && inWindow after covered m.key)).map
    fun m => ListEntry.mk m.key m.length true
  staged.foldl (fun xs e => insertListed e xs) own

/-- A LIST is answered with its first 64 keys (R177). -/
def listOutcome (found : List ListEntry) (more : Bool) : Posting :=
  let es := found.take 64
  ⟨{ Results.zero with
      code := ResultCode.byte .ok, count := BitVec.ofNat 8 es.length, flags := outputFlags false more false false },
    es.flatMap ListEntry.bytes⟩

/-- Who presents the RANGE claims of a LIST (R39, R91). -/
def listSource (p : Port) (ms : List Member) : Claimant := if ms.isEmpty then .port p else .txn p

/-- A RANGE claim of a LIST. -/
def askRange (p : Port) (part : Nat) (after : Option Nat) (ms : List Member) (found : List ListEntry) (u : Units) :
    Units :=
  present (listSource p ms) (.range part after) (setWork p (.listing part after ms found) u)

/-- A LIST begins: every RANGE of it merges the member list as it stands now (R91, log 55). -/
def startList (p : Port) (part : Nat) (after : Option Nat) (u : Units) : Units :=
  askRange p part after ((visibleMembers p part u).getD []) [] u

/-- A RANGE of a LIST is answered: another RANGE, or the result (R91, log 15). -/
def portRanged (p : Port) (es : List Entry) (more : Bool) (u : Units) : Units :=
  match workOf p u with
  | some (.listing part after ms found) =>
    let covered := if more then (es.getLast?).map (·.key) else none
    let found := found ++ mergeListed ms after covered es
    let unsure := ms.any fun m => m.op == .delete && !inWindow none covered m.key
    if more && (decide (found.length < 64) || (decide (found.length = 64) && unsure)) then
      askRange p part covered ms found u
    else deliver p (listOutcome found (more || decide (64 < found.length))) u
  | _ => u

/-! ## Single WRITE and DELETE (R76) -/

/-- A single WRITE or DELETE asks about the claim, then presents its CHARGE (R76). -/
def startSingle (p : Port) (op : ChargeOp) (part key cells : Nat) (u : Units) : Units :=
  match holderOf part u with
  | some q => answer p (if q = p then .inTxn else .held) u
  | none => present (.port p) (.charge part key op cells) (setWork p (.charging part) u)

/-- The RECORD job of a single WRITE or DELETE (R59). -/
def singleJob (p : Port) (part : Nat) (c : InHand) : Job :=
  if c.cmd = .write then
    .record ⟨p, .single, .data, part, c.params.keyNat, c.params.lengthNat, 0, c.image.take c.params.lengthNat, none, 0⟩
  else .record ⟨p, .single, .tombstone, part, c.params.keyNat, 0, 0, [], none, 0⟩

/-- The CHARGE of a single WRITE or DELETE is answered (R42). -/
def portCharged (p : Port) (a : IndexUnit.ChargeAnswer) (u : Units) : Units :=
  match (u.port p).inHand, a with
  | some c, .ok =>
    match c.work with
    | .charging part => sendJob (singleJob p part c) (setWork p .elsewhere u)
    | _ => u
  | _, .refused r => answer p r u
  | _, _ => u

/-! ## INFO (R122, R137, R178) -/

def MountPhase.byte : MountPhase → Byte
  | .policy => 0 | .headers => 1 | .records => 2 | .repair => 3 | .restore => 4 | .done => 5

def EngineState.byte : EngineState → Byte
  | .idle => 0 | .select => 1 | .mark => 2 | .copy => 3 | .erase => 4 | .prepare => 5

def PolicySource.byte : PolicySource → Byte
  | .loaded => 0 | .defaulted => 1

/-- The outcome of mount is CLEAN (R137). -/
def MountEngine.clean (m : MountEngine) : Bool :=
  m.rolled == 0 && m.discarded == 0 && m.faults == 0 && !m.dirty

/-- The repair counts at offsets 4 to 9 (section 11.2). -/
def MountEngine.counts (m : MountEngine) : List Byte := toBytes 2 m.rolled ++ toBytes 2 m.discarded ++ toBytes 2 m.faults

/-- The store status record of a MOUNTING port (R122). -/
def mountingRecord (m : MountEngine) : List Byte := [2, m.phase.byte, 0, 0] ++ m.counts ++ List.replicate 21 0

/-- The store status record (R178, section 11.2). -/
def statusRecord (u : Units) : List Byte :=
  [if u.me.clean then 0 else 1, u.me.phase.byte, u.me.source.byte, u.ce.state.byte] ++ u.me.counts
    ++ toBytes 1 u.me.badSegs ++ toBytes 1 u.iu.erasedCount ++ toBytes 2 u.iu.deadCount
    ++ toBytes 2 u.iu.entries.length ++ toBytes 3 u.iu.leastErase ++ toBytes 3 u.iu.greatestErase
    ++ toBytes 1 u.iu.badCount ++ toBytes 2 u.iu.faults ++ toBytes 2 u.media ++ toBytes 4 u.rw.gen

/-- An INFO's outcome. -/
def infoOutcome (record : List Byte) : Posting := ⟨{ Results.zero with code := ResultCode.byte .ok }, record⟩

/-! ## The other commands (R178) -/

/-- POLICY_READ: the image and the outputs, or the refusal (R150). -/
def policyReadOutcome (p : Port) (staged : Bool) (u : Units) : Posting :=
  match readImage p staged u with
  | .error c => Posting.code c
  | .ok image =>
    ⟨{ Results.zero with
        code := ResultCode.byte .ok, source := u.pu.source.byte,
        copy := match u.pu.inForce with | some n => BitVec.ofNat 8 n | none => 0xFF }, image⟩

/-- WATCH (R157): OK gives the partition. -/
def takeWatch (p : Port) (w : Watch) (u : Units) : Units :=
  let r := (u.notices p).addWatch w
  let o := if r.2 = .ok then Posting.okWith { Results.zero with watchPart := BitVec.ofNat 8 w.part } else Posting.code r.2
  deliver p o (u.setNotices p r.1)

/-- UNWATCH (R158). -/
def takeUnwatch (p : Port) (w : Watch) (u : Units) : Units :=
  let r := (u.notices p).removeWatch w
  answer p r.2 (u.setNotices p r.1)

/-- NOTICE_POP (R163). -/
def takePop (p : Port) (u : Units) : Units :=
  let r := (u.notices p).pop
  deliver p r.2 (u.setNotices p r.1)

/-- An answer of the Policy Unit to a port. -/
def answerWith (p : Port) (r : Units × ResultCode) : Units := answer p r.2 r.1

/-- POLICY_COMMIT: refused, or under way (R151, R152). -/
def startPolicyCommit (p : Port) (u : Units) : Units :=
  match commitPolicy p u with
  | (u, some c) => answer p c u
  | (u, none) => u

/-- A command that has passed its checks is carried out (R178); `part` is what its view slot resolves to. -/
def carryOut (p : Port) (c : Cmd) (q : Params) (part : Nat) (u : Units) : Units :=
  match c with
  | .read => startLookup p true part q.keyNat u
  | .stat => startLookup p false part q.keyNat u
  | .list => startList p part q.listAfter u
  | .write => startSingle p .write part q.keyNat (recordCells q.lengthNat) u
  | .delete => startSingle p .delete part q.keyNat 1 u
  | .begin => takeBegin p part q.waitFlag u
  | .stageWrite => takeStage p .stageWrite part q.keyNat (recordCells q.lengthNat) u
  | .stageDelete => takeStage p .stageDelete part q.keyNat 1 u
  | .commit => takeCommit p u
  | .abort => takeAbort p u
  | .renew => takeRenew p u
  | .bind => answerWith p (bindSlot p q.slot q.part u)
  | .freeze => answer p .ok (freezePart p part u)
  | .watch => takeWatch p ⟨part, q.watchKey⟩ u
  | .unwatch => takeUnwatch p ⟨q.part.toNat, q.watchKey⟩ u
  | .noticePop => takePop p u
  | .policyRead => deliver p (policyReadOutcome p (q.source == 1) u) u
  | .policyLoad => answerWith p (loadPolicy p (((u.port p).inHand.map (·.image)).getD []) u)
  | .policyCommit => startPolicyCommit p u
  | .policyDiscard => answerWith p (discardPolicy p u)
  | .reclaim => takeReclaim p u
  | .info => deliver p (infoOutcome (statusRecord u)) u

/-! ## Taking a command (R170, R171, R176) -/

/-- A port takes a command: BUSY, DONE cause FALSE, collision CLEAR, and the copies of parameters and buffer (R171). -/
def MasterPort.take (x : MasterPort) (c : Cmd) : MasterPort :=
  { x with state := .busy, doneCause := false, collision := false, outcome := none,
           inHand := some ⟨c, x.params, x.buffer, .elsewhere⟩ }

/-- A command of the table in READY or DONE: steps 3 to 8 (R176). -/
def takeCmd (p : Port) (c : Cmd) (u : Units) : Units :=
  let q := (u.port p).params
  let u := u.modPort p fun x => x.take c
  match checkCommand c p q u with
  | .error e => answer p e u
  | .ok part => carryOut p c q part u

/-- A code outside the table in READY or DONE: UNKNOWN_COMMAND (R176 step 1). -/
def MasterPort.takeUnknown (x : MasterPort) : MasterPort :=
  { x with state := .busy, doneCause := false, collision := false, inHand := none,
           outcome := some (Posting.code .unknownCommand) }

/-- What a MOUNTING port answers at once (R122, R170). -/
def mountingAnswer (code : Byte) (u : Units) : Posting :=
  match Cmd.ofCode code with
  | none => Posting.code .unknownCommand
  | some .info => infoOutcome (mountingRecord u.me)
  | some _ => Posting.code .notReady

/-- A command code is taken at a frame's end (R170, R171, R176); a port whose frame spans the hand-over takes it as MOUNTING
(R122, R137, log 57). -/
def takeCode (p : Port) (code : Byte) (u : Units) : Units :=
  match (u.port p).state with
  | .mounting => u.modPort p fun x => { x.written (mountingAnswer code u) with collision := false }
  | .busy => u
  | _ =>
    match Cmd.ofCode code with
    | none => u.modPort p fun x => x.takeUnknown
    | some c => takeCmd p c u

/-! ## ACK and CANCEL (R173, R174) -/

/-- An ACK (R173). -/
def MasterPort.ack (x : MasterPort) : MasterPort :=
  match x.state with
  | .done => { x with state := .ready, doneCause := false, collision := false }
  | .mounting => { x with doneCause := false, collision := false }
  | _ => { x with collision := false }

def collide (p : Port) (u : Units) : Units := u.modPort p fun x => { x with collision := true }

/-- A job leaves the space wait list without a write head: its pending change is released and its command answered
(R53, R88, R94). -/
def endSpaceJob (c : ResultCode) (r : RecordJob) (u : Units) : Units :=
  settle r.port <|
    match r.role with
    | .single => answer r.port c (u.setIu { u.iu with charges := IndexUnit.dropSingle r.port u.iu.charges })
    | .stage =>
      stageEnded r.port (Posting.code c)
        (u.setIu { u.iu with charges := IndexUnit.dropLast r.port r.key u.iu.charges })
    | .commit => commitReturned c r.port u

/-- A command that may wait for space. -/
def Cmd.maySpace : Cmd → Bool
  | .write | .delete | .stageWrite | .stageDelete | .commit => true
  | _ => false

/-- A CANCEL (R174). -/
def takeCancel (p : Port) (u : Units) : Units :=
  match (u.port p).inHand with
  | none => collide p u
  | some c =>
    if c.cmd = .begin then if (u.slot p).state = .waiting then endWait p .cancelled u else collide p u
    else match waitingJob p u with
      | some r => if c.cmd.maySpace then endSpaceJob .cancelled r (leaveSpaceList p u) else collide p u
      | none => collide p u

/-! ## PORT_RESET (R179) -/

/-- The first bullet of R179. -/
def MasterPort.cleared (x : MasterPort) : MasterPort :=
  { x with command := 0, results := Results.zero, inHand := none, outcome := none, doneCause := false,
           collision := false, enDone := true, enNotice := true }

/-- A claim of a port's command that has not been taken at the port's reset is withdrawn with the command (log 14). -/
def ClaimMsg.commandOf (p : Port) (m : ClaimMsg) : Bool :=
  (m.src == .port p || m.src == .txn p)
  && (match m.body with
      | .lookup _ _ _ | .range _ _ | .pin _ | .charge _ _ _ _ => true
      | _ => false)

/-- With the CHARGE of a stage goes the stage; a clean that waited for it is sent (R85, R98). -/
def withdrawClaims (p : Port) (u : Units) : Units :=
  let v := u.setIu { u.iu with claims := u.iu.claims.filter fun m => !m.commandOf p }
  if chargeOut p u then
    let v := v.modSlot p fun s => { s with stage := none }
    if (u.slot p).state = .aborting then sendJob (.abortClean p) v else v
  else v

/-- The read path of a port at its reset: a READ presented is waited for, and one that has completed has given up its pin
already (R36, R48, R177). No rule speaks of a READ pinned and not yet presented: the model drops it, and its UNPIN follows
at once (log 60). -/
def dropRead (p : Port) (u : Units) : Units :=
  match workOf p u with
  | some (.reading r) =>
    let x := u.port p
    if x.io.want.isNone then u
    else if x.io.presented then u.setPort p { x with stale := x.io.want, io := Io.none }
    else present (.port p) (.unpin r.loc.seg) (u.setPort p { x with io := Io.none })
  | _ => u

/-- A single write or delete on the space wait list ends without a result (R53). -/
def dropWaitingSingle (p : Port) (u : Units) : Units :=
  if (waitingJob p u).any (fun r => r.role == .single) then
    let u := leaveSpaceList p u
    u.setIu { u.iu with charges := IndexUnit.dropSingle p u.iu.charges }
  else u

/-- The units that hold a port's work are reset for it (R179). -/
def resetWork (p : Port) (u : Units) : Units :=
  dropReclaim p (resetPolicy p (resetNotices p (resetTxn p (dropWaitingSingle p (withdrawClaims p (dropRead p u))))))

/-- A PORT_RESET (R179). -/
def takeReset (p : Port) (u : Units) : Units :=
  if (u.port p).draining then
    setDefaultView p (resetNotices p (u.modPort p MasterPort.cleared))
  else
    let u := (resetWork p u).modPort p MasterPort.cleared
    if (u.port p).state = .mounting then u
    else u.modPort p fun x => { x with state := .busy, draining := true }

/-! ## Frames (R167 to R172, R182) -/

/-- CS_N falls: the status byte is taken as it stands (R168); an outcome held is posted before (R175). -/
def selectFrame (p : Port) (u : Units) : Units :=
  if (u.port p).frame.isSome then u
  else
    let u := postResult p u
    let status := statusByte p u
    u.modPort p fun x => { x with frame := some ⟨.first, x.state == .busy, false, none, none, none, status, []⟩ }

/-- A data byte of a write frame at an offset (R169, R171, R172, R182). -/
def MasterPort.writeByte (x : MasterPort) (f : Frame) (off : Nat) (b : Byte) : MasterPort × Frame :=
  if off = offControl then (x, { f with control := some b })
  else if off = offEnables then (x, { f with enables := some b })
  else if off = offCommand then
    if f.beganBusy then (x, { f with collided := true })
    else ({ x with command := b }, { f with command := some b })
  else if bufferBase ≤ off then
    if windowBytes ≤ off then (x, f)
    else if f.beganBusy then (x, { f with collided := true })
    else ({ x with buffer := x.buffer.set (off - bufferBase) b }, f)
  else match x.params.write off b with
    | none => (x, f)
    | some q => if f.beganBusy then (x, { f with collided := true }) else ({ x with params := q }, f)

/-- Eight bits are shifted in a frame in progress (R167, R168). -/
def MasterPort.shift (x : MasterPort) (f : Frame) (b : Byte) : MasterPort × Frame :=
  match f.phase with
  | .first => (x, { f with phase := .second b, out := f.out ++ [f.status] })
  | .second b0 =>
    let off := (if b0.getLsbD 0 then 256 else 0) + b.toNat
    (x, { f with phase := .data (b0.getLsbD 7) off, out := f.out ++ [0] })
  | .data true off =>
    let r := x.writeByte f off b
    (r.1, { r.2 with phase := .data true (off + 1) })
  | .data false off =>
    let out := if windowBytes ≤ off then 0 else x.windowByte off
    (x, { f with phase := .data false (off + 1), out := f.out ++ [out] })

def shiftByte (p : Port) (b : Byte) (u : Units) : Units :=
  u.modPort p fun x =>
    match x.frame with
    | none => x
    | some f =>
      let r := x.shift f b
      { r.1 with frame := some r.2 }

/-- The control action of a frame (R182). -/
def takeControl (p : Port) (b : Byte) (u : Units) : Units :=
  if b = ctlAck then u.modPort p MasterPort.ack
  else if b = ctlCancel then takeCancel p u
  else if b = ctlReset then takeReset p u
  else u

/-- What a frame wrote to the attention enables, and whether it wrote what a BUSY port discards (R172, R173). -/
def MasterPort.closeFrame (x : MasterPort) (f : Frame) : MasterPort :=
  let x := { x with frame := none, lastOut := f.out, collision := x.collision || f.collided }
  match f.enables with
  | some b => { x with enDone := b.getLsbD 0, enNotice := b.getLsbD 1 }
  | none => x

/-- The command a frame takes: the last code it wrote, unless it is 0 or the frame wrote PORT_RESET (R171). -/
def Frame.takes (f : Frame) : Option Byte :=
  if f.control = some ctlReset then none else f.command.filter (· != 0)

/-- The hand-over that waited for CS_N to rise (R170). -/
def MasterPort.handedOver (x : MasterPort) : MasterPort :=
  if x.handOver then { x with handOver := false, state := if x.doneCause then .done else .ready } else x

/-- CS_N rises: the frame-end actions in their order (R167, R171 to R174, R179). -/
def endFrame (p : Port) (u : Units) : Units :=
  match (u.port p).frame with
  | none => u
  | some f =>
    let u := u.modPort p fun x => x.closeFrame f
    let u := match f.control with | some b => takeControl p b u | none => u
    let u := match f.takes with | some code => takeCode p code u | none => u
    let u := u.modPort p MasterPort.handedOver
    settle p (kick u)

/-- A whole frame, when none is in progress. -/
def wholeFrame (p : Port) (bytes : List Byte) (u : Units) : Units :=
  if (u.port p).frame.isSome then u
  else endFrame p (bytes.foldl (fun u b => shiftByte p b u) (selectFrame p u))

/-- A whole write frame of one byte at an offset below 256 (log 8). -/
def writeFrame (p : Port) (off : Byte) (b : Byte) (u : Units) : Units := wholeFrame p [0x80, off, b] u

/-- A link event (R167). -/
def linkEvent (p : Port) (e : LinkEvent) (u : Units) : Units :=
  match e with
  | .select => selectFrame p u
  | .shift b => shiftByte p b u
  | .deselect => endFrame p u
  | .frame bytes => wholeFrame p bytes u

end Sys2Proof.Machine
end

