-- ==== Sys2Proof/Machine/Gate.lean ====
section
/-! DEFINITION. The form of a meaning: the next state, and the gate of the supply and RESET_N (R17, R35, R121, R167). -/

namespace Sys2Proof.Machine

/-- What a command answers. -/
abbrev Answer := Host.Outcome State Fault Refusal

/-- A command on the units: it has its effect while the part is powered and RESET_N is released, and none otherwise
(R35, R121, R167). -/
def onUnits (f : Units → Units) (s : State) : Answer :=
  .next (if s.running then { s with units := f s.units } else s)

/-- What a port has shifted out after an event of its link while RESET_N is asserted: 0x00 for every byte (R167). -/
def zerosOut (out : List Byte) : LinkEvent → List Byte
  | .select => []
  | .shift _ => out ++ [0]
  | .deselect => out
  | .frame bytes => bytes.map fun _ => 0

/-- What happens on a port's link: the port takes it while the part runs; while RESET_N is asserted it ignores its link and
shifts out 0x00; a part without supply does nothing (R167). -/
def onLink (p : Port) (e : LinkEvent) (s : State) : Answer :=
  .next (
    if s.running then { s with units := linkEvent p e s.units }
    else if s.powered then { s with units := s.units.modPort p fun x => { x with lastOut := zerosOut x.lastOut e } }
    else s)

/-- A row that is a whole write frame of one byte at an offset below 256 (log 8). -/
def onFrame (p : Port) (off b : Byte) (s : State) : Answer := onLink p (.frame [0x80, off, b]) s

/-- A command on the units after which the Writer takes its next job if it has none (R58). -/
def onUnitsKick (f : Units → Units) (s : State) : Answer := onUnits (fun u => kick (f u)) s

end Sys2Proof.Machine
end

