-- ==== Sys2Proof/Machine/ArrayOps.lean ====
section
/-! DEFINITION. ARRAY_REQUEST and the four completions (R19 to R36). -/

namespace Sys2Proof.Machine

/-- The engine is in urgent mode (R28). -/
def Units.urgent (u : Units) : Bool := u.ce.mode == .urgent

/-! ## Presentation -/

/-- The request an interface waits to present has been presented. -/
def Io.shown (io : Io) (r : Request) : Io :=
  if io.want = some r then { io with presented := true } else io

/-- An accepted request is the one its unit wanted (R19). -/
def notePresented (r : Request) (u : Units) : Units :=
  match r.who with
  | .port p => u.modPort p fun x => { x with io := x.io.shown r }
  | .writer =>
    if u.rw.io = ⟨some r, false⟩ then writerPresented (u.setRw { u.rw with io := u.rw.io.shown r }) else u
  | .engine => u.setCe { u.ce with io := u.ce.io.shown r }
  | .policy => u.setPu { u.pu with io := u.pu.io.shown r }
  | .mount => u.setMe { u.me with io := u.me.io.shown r }

/-- A request is presented: accepted, or completed at once as REJECTED (R19, R20). -/
def presentRequest (r : Request) (s : State) : State :=
  if s.ac.accepts r then
    { s with ac := s.ac.accept s.units.urgent r, units := notePresented r s.units }
  else { s with ac := s.ac.complete r .rejected [] }

/-! ## Delivery to the units (R25) -/

/-- The interface waits for the completion of this request. -/
def Io.awaits (io : Io) (r : Request) : Bool := io == ⟨some r, true⟩

/-- The bytes of a READ reach its unit (R25, R36). -/
def readDelivered (r : Request) (bytes : List Byte) (u : Units) : Units :=
  match r.who with
  | .port p =>
    if (u.port p).stale = some r then staleReadDone p r u
    else if (u.port p).io.awaits r then portReadDone p bytes (u.modPort p fun x => { x with io := Io.none })
    else u
  | .engine => if u.ce.io.awaits r then engineReadDone bytes (u.setCe { u.ce with io := Io.none }) else u
  | .mount => if u.me.io.awaits r then mountReadDone bytes (u.setMe { u.me with io := Io.none }) else u
  | _ => u

/-- The outcome of a PROGRAM reaches its unit (R25). -/
def programDelivered (r : Request) (ok : Bool) (u : Units) : Units :=
  match r.who with
  | .writer => if u.rw.io.awaits r then kick (writerDone ok (u.setRw { u.rw with io := Io.none })) else u
  | .engine => if u.ce.io.awaits r then engineProgramDone ok (u.setCe { u.ce with io := Io.none }) else u
  | .policy => if u.pu.io.awaits r then policyDone ok (u.setPu { u.pu with io := Io.none }) else u
  | .mount => if u.me.io.awaits r then mountProgramDone ok (u.setMe { u.me with io := Io.none }) else u
  | _ => u

/-- The outcome of an ERASE reaches its unit (R25). -/
def eraseDelivered (r : Request) (ok : Bool) (u : Units) : Units :=
  match r.who with
  | .engine => if u.ce.io.awaits r then engineEraseDone ok (u.setCe { u.ce with io := Io.none }) else u
  | .policy => if u.pu.io.awaits r then policyDone ok (u.setPu { u.pu with io := Io.none }) else u
  | _ => u

/-- The outcome of a BLANK_CHECK reaches its unit (R25). -/
def blankDelivered (r : Request) (isBlank : Bool) (u : Units) : Units :=
  match r.who with
  | .mount => if u.me.io.awaits r then mountBlankDone isBlank (u.setMe { u.me with io := Io.none }) else u
  | _ => u

/-- A media fault (R34). -/
def mediaFault (ok : Bool) (u : Units) : Units := if ok then u else { u with media := saturate 65535 u.media }

/-! ## Completions -/

/-- The array has fallen free: a request whose presentation falls together with the completion is taken first and competes at
the same grant, which ranks by the mode before the row (R25, R28, logs 45, 51). -/
def arrayFree (urgent : Bool) (joined : Option Request) (s : State) : State :=
  let t := match joined with
    | none => s
    | some r =>
      if s.ac.accepts r then { s with ac := s.ac.enter r, units := notePresented r s.units }
      else { s with ac := s.ac.complete r .rejected [] }
  { t with ac := t.ac.grantNext urgent }

/-- A READ completes DONE (R21). -/
def readDone (r : Request) (first count : Nat) (joined : Option Request) (s : State) : State :=
  let bytes := s.array.cells r.seg first count
  arrayFree s.units.urgent joined
    { s with ac := s.ac.endOp.complete r .done bytes, units := readDelivered r bytes s.units }

/-- A PROGRAM completes: the AND, the verify, the count (R2, R22, R34). -/
def programDone (r : Request) (cell : Nat) (supplied stuck : List Byte) (joined : Option Request) (s : State) : State :=
  let array := programCell s.array r.seg cell supplied stuck
  let back := array.cell r.seg cell
  let ok := verified back supplied
  arrayFree s.units.urgent joined
    { s with
      array := array,
      ac := s.ac.endOp.complete r (if ok then .verified else .verifyFailed) back,
      units := programDelivered r ok (mediaFault ok s.units) }

/-- An ERASE completes: every bit 1 but those the medium keeps, the blank check, the count (R2, R23, R34). -/
def eraseDone (r : Request) (e : EraseEnd) (joined : Option Request) (s : State) : State :=
  let array := eraseSegment s.array r.seg e.kept
  let ok := !e.incomplete && allErased (array.segment r.seg)
  arrayFree s.units.urgent joined
    { s with
      array := array,
      ac := s.ac.endErase.complete r (if ok then .erased else .eraseFailed) [],
      units := eraseDelivered r ok (mediaFault ok s.units) }

/-- A BLANK_CHECK completes (R24). -/
def blankDone (r : Request) (joined : Option Request) (s : State) : State :=
  let ok := allErased (s.array.segment r.seg)
  arrayFree s.units.urgent joined
    { s with
      ac := s.ac.endOp.complete r (if ok then .blank else .notBlank) [],
      units := blankDelivered r ok s.units }

/-- The operation in progress, when the part runs. -/
def State.operation (s : State) : Option Request := if s.running then s.ac.running.map (·.req) else none

/-- The operation in progress ends, when it is of the completion's kind; a request may join (R21 to R25). -/
def endOperation (c : Ending) (joined : Option Request) (s : State) : State :=
  match c, s.operation with
  | .read, some ⟨who, seg, .read first count⟩ => readDone ⟨who, seg, .read first count⟩ first count joined s
  | .program stuck, some ⟨who, seg, .program cell bytes⟩ =>
    programDone ⟨who, seg, .program cell bytes⟩ cell bytes stuck joined s
  | .erase e, some ⟨who, seg, .erase⟩ => eraseDone ⟨who, seg, .erase⟩ e joined s
  | .blankCheck, some ⟨who, seg, .blankCheck⟩ => blankDone ⟨who, seg, .blankCheck⟩ joined s
  | _, _ => s

/-! ## The rows -/

/-- ARRAY_REQUEST (R19, R20), by itself or together with a completion (R25, log 51). -/
def execArrayRequest (r : Presentation) (s : State) : Answer :=
  .next (match r.after with
    | none => if s.running then presentRequest r.req s else s
    | some c => endOperation c (some r.req) s)

/-- ARRAY_READ_DONE (R21, R25). -/
def execArrayReadDone (s : State) : Answer := .next (endOperation .read none s)

/-- ARRAY_PROGRAM_DONE (R22, R25): `stuck` are the target bits the medium leaves at 1. -/
def execArrayProgramDone (stuck : List Byte) (s : State) : Answer := .next (endOperation (.program stuck) none s)

/-- ARRAY_ERASE_DONE (R23, R25). -/
def execArrayEraseDone (e : EraseEnd) (s : State) : Answer := .next (endOperation (.erase e) none s)

/-- ARRAY_BLANK_CHECK_DONE (R24, R25). -/
def execArrayBlankCheckDone (s : State) : Answer := .next (endOperation .blankCheck none s)

end Sys2Proof.Machine
end

