-- ==== Sys2Proof/Machine/Claims.lean ====
section
/-! DEFINITION. The claims at the Index Unit: each row takes the claim at the head of the order of arrival when it is
of its kind, carries it out whole, and gives the claimant its answer (R38 to R54). -/

namespace Sys2Proof.Machine

/-- The Index Unit with its oldest claim taken. -/
def popClaim (u : Units) : Units := u.setIu { u.iu with claims := u.iu.claims.tail }

/-- The claim that is taken next, with its claimant (R38). -/
def headClaim (u : Units) : Option (Claimant × Claim) := (u.iu.claims.head?).map fun m => (m.src, m.body)

/-! ## Reading claims (R39, R45, R48) -/

/-- LOOKUP: the entry or NOT_FOUND, with a read pin for a READ (R39). -/
def lookupClaim (src : Claimant) (part key : Nat) (forRead : Bool) (u : Units) : Units :=
  let e := u.iu.find part key
  match src with
  | .port p =>
    let u := match e with
      | some x => if forRead then u.setIu (u.iu.takePin x.loc.seg) else u
      | none => u
    portLooked p forRead e u
  | .engine => engineAnswered (e.any (fun x => x.loc == u.ce.reading)) u
  | _ => u

def takeLookup (u : Units) : Units :=
  match headClaim u with
  | some (src, .lookup part key forRead) => lookupClaim src part key forRead (popClaim u)
  | _ => u

/-- LOOKUP (R39). -/
def execLookup (s : State) : Answer := onUnits takeLookup s

/-- RANGE: up to 64 entries and whether more follow (R39). -/
def rangeClaim (src : Claimant) (part : Nat) (after : Option Nat) (u : Units) : Units :=
  let r := u.iu.range part after
  match src with
  | .port p => portRanged p r.1 r.2 u
  | .txn p => portRanged p r.1 r.2 u
  | _ => u

def takeRange (u : Units) : Units :=
  match headClaim u with
  | some (src, .range part after) => rangeClaim src part after (popClaim u)
  | _ => u

/-- RANGE (R39). -/
def execRange (s : State) : Answer := onUnits takeRange s

/-- PIN: a read pin for a staged member (R39, R90). -/
def pinClaim (src : Claimant) (l : Location) (u : Units) : Units :=
  let u := u.setIu (u.iu.takePin l.seg)
  match src with
  | .txn p => portPinned p u
  | _ => u

def takePinClaim (u : Units) : Units :=
  match headClaim u with
  | some (src, .pin l) => pinClaim src l (popClaim u)
  | _ => u

/-- PIN (R39). -/
def execPin (s : State) : Answer := onUnits takePinClaim s

/-- UNPIN (R48). -/
def unpinClaim (src : Claimant) (seg : Nat) (u : Units) : Units :=
  let u := u.setIu (u.iu.dropPin seg)
  match src with
  | .writer => writerUnpinned u
  | _ => u

def takeUnpin (u : Units) : Units :=
  match headClaim u with
  | some (src, .unpin seg) => unpinClaim src seg (popClaim u)
  | _ => u

/-- UNPIN (R48). -/
def execUnpin (s : State) : Answer := onUnitsKick takeUnpin s

/-- NUMBER_QUERY: IN_SET or FREE (R45). -/
def numberClaim (src : Claimant) (txn : Nat) (u : Units) : Units :=
  match src with
  | .engine => engineAnswered (u.iu.inSet txn) u
  | _ => u

def takeNumberQuery (u : Units) : Units :=
  match headClaim u with
  | some (src, .numberQuery txn) => numberClaim src txn (popClaim u)
  | _ => u

/-- NUMBER_QUERY (R45). -/
def execNumberQuery (s : State) : Answer := onUnits takeNumberQuery s

/-! ## Charges (R42) -/

/-- The record of the staged member a REMOVED takes away (R42, R87). -/
def memberRecord (p : Port) (key : Nat) (u : Units) : Option Displaced :=
  ((u.slot p).member key).map fun m => ⟨m.loc, m.cells⟩

/-- CHARGE (R42); the stage of a slot that an abort has moved to ABORTING is in flight and goes on, and the ABORT_CLEAN
follows its job (R85). -/
def chargeClaim (src : Claimant) (part key : Nat) (op : ChargeOp) (cells : Nat) (u : Units) : Units :=
  let quota := (u.pu.shadow.part part).quota
  match src with
  | .port p =>
    let r := u.iu.takeCharge p part key op cells quota none
    portCharged p r.2 (u.setIu r.1)
  | .txn p =>
    let r := u.iu.takeCharge p part key op cells quota (memberRecord p key u)
    let v := stageCharged p key r.2 (u.setIu r.1)
    if (u.slot p).state = .aborting then sendClean p v else v
  | _ => u

def takeChargeClaim (u : Units) : Units :=
  match headClaim u with
  | some (src, .charge part key op cells) => chargeClaim src part key op cells (popClaim u)
  | _ => u

/-- CHARGE (R42). -/
def execCharge (s : State) : Answer := onUnitsKick takeChargeClaim s

/-- RELEASE (R42): the Writer's command is answered, an abort's members are released and it ends. -/
def releaseCharges (src : Claimant) (what : ReleaseWhat) (u : Units) : Units :=
  let members := match what with | .members p => (u.slot p).members | _ => []
  let u := u.setIu (u.iu.takeRelease what members)
  match src, what with
  | .writer, _ => writerReleased u
  | .txn _, .members p => abortEnded p u
  | _, _ => u

def takeReleaseClaim (u : Units) : Units :=
  match headClaim u with
  | some (src, .release what) => releaseCharges src what (popClaim u)
  | _ => u

/-- RELEASE (R42). -/
def execRelease (s : State) : Answer := onUnitsKick takeReleaseClaim s

/-! ## Switches (R43, R44, R46) -/

/-- SWITCH: the entry, the charge record, the displaced location and the change report (R43). -/
def switchClaim (c : SwitchClaim) (u : Units) : Units :=
  let r := u.iu.takeSwitch c
  let u := sendReport ⟨c.part, c.key, c.gen, c.source, c.kind != RecordKind.data⟩ (u.setIu r.1)
  writerSwitched r.2 u

def takeSwitchClaim (u : Units) : Units :=
  match headClaim u with
  | some (_, .switch c) => switchClaim c (popClaim u)
  | _ => u

/-- SWITCH (R43). -/
def execSwitch (s : State) : Answer := onUnitsKick takeSwitchClaim s

/-- The change report of a member (R44). -/
def Member.report (m : Member) (part : Nat) (p : Port) : ChangeReport := ⟨part, m.key, m.gen, p, m.op == .delete⟩

/-- COMMIT_SWITCH: every member as the member list holds it, one report for each, and the commit set (R44, R93). -/
def commitSwitchClaim (part txn : Nat) (l : Location) (p : Port) (u : Units) : Units :=
  let ms := (u.slot p).members
  let r := u.iu.takeCommitSwitch part txn l p ms
  let u := ms.foldl (fun u m => sendReport (m.report part p) u) (u.setIu r.1)
  let u := u.modSlot p fun s => { s with committed := true }
  writerCommitted r.2 u

def takeCommitSwitchClaim (u : Units) : Units :=
  match headClaim u with
  | some (_, .commitSwitch part txn l p) => commitSwitchClaim part txn l p (popClaim u)
  | _ => u

/-- COMMIT_SWITCH (R44). -/
def execCommitSwitch (s : State) : Answer := onUnitsKick takeCommitSwitchClaim s

/-- COPY_SWITCH: MOVED or STALE (R46). -/
def copySwitchClaim (what : CopyFor) (orig copy : Location) (cells : Nat) (u : Units) : Units :=
  let r := u.iu.takeCopySwitch what orig copy cells
  copySwitched r.2 (u.setIu r.1)

def takeCopySwitchClaim (u : Units) : Units :=
  match headClaim u with
  | some (_, .copySwitch what orig copy cells) => copySwitchClaim what orig copy cells (popClaim u)
  | _ => u

/-- COPY_SWITCH (R46). -/
def execCopySwitch (s : State) : Answer := onUnits takeCopySwitchClaim s

/-! ## Reports and segment states (R45, R47, R50, R51, R53, R106, R114, R117) -/

/-- REPORT (R45, R47). -/
def reportClaim (src : Claimant) (what : ReportWhat) (u : Units) : Units :=
  let r : IndexUnit × Option Location := match what with
    | .dead l cells => (u.iu.kill l cells, none)
    | .commitRetired txn l => u.iu.takeCommitReport txn l
  let u := u.setIu r.1
  match src with
  | .writer => writerReported r.2 u
  | .engine => engineReported u
  | _ => u

def takeReportClaim (u : Units) : Units :=
  match headClaim u with
  | some (src, .report what) => reportClaim src what (popClaim u)
  | _ => u

/-- REPORT (R47). -/
def execReport (s : State) : Answer := onUnitsKick takeReportClaim s

/-- The claimant fills the copy head. -/
def Claimant.copies : Claimant → Bool
  | .engine => true
  | _ => false

/-- ALLOCATE: cells, a head to close or open, WAIT or NONE (R51, R52); a head taken lowers the erased count (R54). -/
def allocateClaim (src : Claimant) (n : Nat) (u : Units) : Units :=
  let r := u.iu.takeAllocate src.copies n
  let u := u.setIu r.1
  let u := match r.2.2 with | .newHead _ => compareLow u | _ => u
  if src.copies then engineAllocated r.2.1 r.2.2 u else writerAllocated r.2.1 r.2.2 u

def takeAllocateClaim (u : Units) : Units :=
  match headClaim u with
  | some (src, .allocate n) => allocateClaim src n (popClaim u)
  | _ => u

/-- ALLOCATE (R51, R52). -/
def execAllocate (s : State) : Answer := onUnitsKick takeAllocateClaim s

/-- OPENED: the segment is ACTIVE and the head (R50). -/
def openedClaim (src : Claimant) (h : NewHead) (u : Units) : Units :=
  let u := u.setIu (u.iu.takeOpened src.copies h)
  if src.copies then engineAgain u else writerAgain u

def takeOpenedClaim (u : Units) : Units :=
  match headClaim u with
  | some (src, .opened h) => openedClaim src h (popClaim u)
  | _ => u

/-- OPENED (R50). -/
def execOpened (s : State) : Answer := onUnits takeOpenedClaim s

/-- CLOSE: a head leaves its role suspect, or a segment is BAD and the numbers retained with it are dropped (R50, R51,
R81). -/
def closeClaim (src : Claimant) (seg : Nat) (reason : CloseReason) (u : Units) : Units :=
  let fresh := !(u.iu.seg seg).suspect
  let u := u.setIu (u.iu.takeClose src.copies seg reason)
  let u := if reason = .bad then dropRetained seg u else u
  if src.copies then engineClosed fresh u else writerClosed fresh u

def takeCloseClaim (u : Units) : Units :=
  match headClaim u with
  | some (src, .close seg reason) => closeClaim src seg reason (popClaim u)
  | _ => u

/-- CLOSE (R50, R51). -/
def execClose (s : State) : Answer := onUnits takeCloseClaim s

/-- Every job on the space wait list rejoins the writer job queue, oldest first (R53, R58). -/
def releaseWaiting (u : Units) : Units :=
  let jobs := u.iu.spaceWait.map fun w => Job.record w.job
  let u := u.setRw { u.rw with queue := u.rw.queue ++ jobs }
  followSpaceList (u.setIu { u.iu with spaceWait := [] })

/-- PREPARED: the segment joins the erased segments, the waiting jobs are released when more than 2 remain, and the
pass ends (R53, R54, R81, R101, R118). -/
def preparedClaim (seg count : Nat) (u : Units) : Units :=
  let u := compareRise (dropRetained seg (u.setIu (u.iu.takePrepared seg count)))
  let u := if 2 < u.iu.erasedCount then releaseWaiting u else u
  passEnded u

def takePreparedClaim (u : Units) : Units :=
  match headClaim u with
  | some (_, .prepared seg count) => preparedClaim seg count (popClaim u)
  | _ => u

/-- PREPARED (R53, R118). -/
def execPrepared (s : State) : Answer := onUnitsKick takePreparedClaim s

/-- NO_VICTIM: every waiting job ends NO_SPACE (R53, R105). -/
def noVictimClaim (u : Units) : Units :=
  let jobs := u.iu.spaceWait.map (·.job)
  let u := followSpaceList (u.setIu { u.iu with spaceWait := [] })
  engineNoVictim (jobs.foldl (fun u r => endSpaceJob .noSpace r u) u)

def takeNoVictim (u : Units) : Units :=
  match headClaim u with
  | some (_, .noVictim) => noVictimClaim (popClaim u)
  | _ => u

/-- NO_VICTIM (R53). -/
def execNoVictim (s : State) : Answer := onUnitsKick takeNoVictim s

/-- SWEEP: what the index, the commit set and the member lists name in the victim, to be read in that order (R114,
log 52). -/
def sweepClaim (victim : Nat) (u : Units) : Units := engineSwept (namedIn victim u) u

def takeSweep (u : Units) : Units :=
  match headClaim u with
  | some (_, .sweep victim) => sweepClaim victim (popClaim u)
  | _ => u

/-- SWEEP (R114). -/
def execSweep (s : State) : Answer := onUnits takeSweep s

/-- LOSS (R114). -/
def lossClaim (part key : Nat) (l : Location) (u : Units) : Units :=
  let r := u.iu.takeLoss part key l
  engineLost part key r.2 (u.setIu r.1)

def takeLossClaim (u : Units) : Units :=
  match headClaim u with
  | some (_, .loss part key l) => lossClaim part key l (popClaim u)
  | _ => u

/-- LOSS (R114). -/
def execLoss (s : State) : Answer := onUnits takeLossClaim s

/-- RECLAIMING (R106). -/
def reclaimingClaim (seg : Nat) (u : Units) : Units := engineMarked (u.setIu (u.iu.takeReclaiming seg))

def takeReclaimingClaim (u : Units) : Units :=
  match headClaim u with
  | some (_, .reclaiming seg) => reclaimingClaim seg (popClaim u)
  | _ => u

/-- RECLAIMING (R106). -/
def execReclaiming (s : State) : Answer := onUnits takeReclaimingClaim s

/-- ERASED (R117). -/
def erasedClaim (seg : Nat) (u : Units) : Units := engineErased (u.setIu (u.iu.takeErased seg))

def takeErasedClaim (u : Units) : Units :=
  match headClaim u with
  | some (_, .erased seg) => erasedClaim seg (popClaim u)
  | _ => u

/-- ERASED (R117). -/
def execErased (s : State) : Answer := onUnits takeErasedClaim s

end Sys2Proof.Machine
end

