-- ==== Sys2Proof/Machine/Commands.lean ====
section
/-! DEFINITION. The 22 commands of a port (R170, R171, R176 to R178). -/

namespace Sys2Proof.Machine

/-- A command's row: the frame that writes its code to COMMAND, the parameters and the buffer standing as earlier
frames left them (R171, log 8). -/
def commandRow (c : Cmd) (p : Port) (s : State) : Answer := onFrame p 0x00 c.code s

/-- READ (R177). -/
def execRead (p : Port) (s : State) : Answer := commandRow .read p s

/-- STAT (R177). -/
def execStat (p : Port) (s : State) : Answer := commandRow .stat p s

/-- LIST (R91, R177). -/
def execList (p : Port) (s : State) : Answer := commandRow .list p s

/-- WRITE (R62, R76, R178). -/
def execWrite (p : Port) (s : State) : Answer := commandRow .write p s

/-- DELETE (R63, R76, R178). -/
def execDelete (p : Port) (s : State) : Answer := commandRow .delete p s

/-- BEGIN (R77). -/
def execBegin (p : Port) (s : State) : Answer := commandRow .begin p s

/-- STAGE_WRITE (R86). -/
def execStageWrite (p : Port) (s : State) : Answer := commandRow .stageWrite p s

/-- STAGE_DELETE (R86). -/
def execStageDelete (p : Port) (s : State) : Answer := commandRow .stageDelete p s

/-- COMMIT (R92). -/
def execCommit (p : Port) (s : State) : Answer := commandRow .commit p s

/-- ABORT (R95). -/
def execAbort (p : Port) (s : State) : Answer := commandRow .abort p s

/-- RENEW (R83). -/
def execRenew (p : Port) (s : State) : Answer := commandRow .renew p s

/-- BIND (R145). -/
def execBind (p : Port) (s : State) : Answer := commandRow .bind p s

/-- WATCH (R157). -/
def execWatch (p : Port) (s : State) : Answer := commandRow .watch p s

/-- UNWATCH (R158). -/
def execUnwatch (p : Port) (s : State) : Answer := commandRow .unwatch p s

/-- NOTICE_POP (R163). -/
def execNoticePop (p : Port) (s : State) : Answer := commandRow .noticePop p s

/-- FREEZE (R147). -/
def execFreeze (p : Port) (s : State) : Answer := commandRow .freeze p s

/-- POLICY_READ (R150). -/
def execPolicyRead (p : Port) (s : State) : Answer := commandRow .policyRead p s

/-- POLICY_LOAD (R148). -/
def execPolicyLoad (p : Port) (s : State) : Answer := commandRow .policyLoad p s

/-- POLICY_COMMIT (R151, R152). -/
def execPolicyCommit (p : Port) (s : State) : Answer := commandRow .policyCommit p s

/-- POLICY_DISCARD (R149). -/
def execPolicyDiscard (p : Port) (s : State) : Answer := commandRow .policyDiscard p s

/-- RECLAIM (R102). -/
def execReclaim (p : Port) (s : State) : Answer := commandRow .reclaim p s

/-- INFO (R122, R178). -/
def execInfo (p : Port) (s : State) : Answer := commandRow .info p s

end Sys2Proof.Machine
end

