-- ==== Sys2Proof/Machine/Events.lean ====
section
/-! DEFINITION. The rows of the Transaction Manager, the Notice Unit and the Compaction Engine that answer no claim of the
Index Unit (R65, R68, R78 to R84, R87, R89, R96, R97, R100, R108, R116, R159, R160). -/

namespace Sys2Proof.Machine

/-! ## Transaction Manager -/

/-- MEMBER_REPORT: a staged record enters the member list (R65, R87). -/
def execMemberReport (s : State) : Answer := onUnitsKick reportMember s

/-- MEMBER_QUERY: the engine's member query is answered (R108). -/
def execMemberQuery (s : State) : Answer := onUnits askMember s

/-- MEMBER_MOVE: the engine's member move is answered, or waits (R68, R89). -/
def execMemberMove (s : State) : Answer := onUnits moveMember s

/-- LEASE_WARNING: three quarters of the lease have passed (R82). -/
def execLeaseWarning (p : Port) (s : State) : Answer := onUnits (warnLease p) s

/-- LEASE_EXPIRY: the lease deadline passes (R84). -/
def execLeaseExpiry (p : Port) (s : State) : Answer := onUnitsKick (expireLease p) s

/-- CLAIM_WAIT_EXPIRY: the wait deadline passes (R78). -/
def execClaimWaitExpiry (p : Port) (s : State) : Answer := onUnits (expireWait p) s

/-- LOCK_EVENT: the oldest lock event is taken (R80, R96). -/
def execLockEvent (s : State) : Answer := onUnitsKick takeLockEvent s

/-- REVOCATION_EVENT: the oldest revocation event is taken (R80, R97). -/
def execRevocationEvent (s : State) : Answer := onUnitsKick takeRevocation s

/-! ## Notice Unit -/

/-- WATCH_REMOVAL: the oldest removal of watches is taken (R159). -/
def execWatchRemoval (s : State) : Answer := onUnits takeRemoval s

/-- CHANGE_REPORT: the oldest change report is resolved (R160, R161). -/
def execChangeReport (s : State) : Answer := onUnits takeReport s

/-- NOTICE_POST: the oldest post of a unit is taken (R160, R162). -/
def execNoticePost (src : Poster) (s : State) : Answer := onUnits (takePost src) s

/-! ## Compaction Engine -/

/-- PASS_START (R100, R104). -/
def execPassStart (s : State) : Answer := onUnits startPass s

/-- WRITER_CLEARANCE (R116). -/
def execWriterClearance (s : State) : Answer := onUnits giveClearance s

/-- VICTIM_ERASE (R116). -/
def execVictimErase (s : State) : Answer := onUnits eraseVictim s

end Sys2Proof.Machine
end

