-- ==== Sys2Proof/Machine/Link.lean ====
section
/-! DEFINITION. The link of a port and its control actions: WINDOW_WRITE, RESULT_POST, ATTENTION_ENABLES, ACK, CANCEL, PORT_RESET and
UNKNOWN_COMMAND (R167 to R176, R179, R182). -/

namespace Sys2Proof.Machine

/-- RESULT_POST: the outcome delivered is posted between frames (R175). -/
def execResultPost (p : Port) (s : State) : Answer := onUnits (postResult p) s

/-- WINDOW_WRITE: what happens on the link (R167 to R172). -/
def execWindowWrite (p : Port) (e : LinkEvent) (s : State) : Answer := onLink p e s

/-- ATTENTION_ENABLES: a frame that writes the attention enable field (R173). -/
def execAttentionEnables (p : Port) (value : Byte) (s : State) : Answer := onFrame p 0x02 value s

/-- ACK: a frame that writes ACK to the control field (R173). -/
def execAck (p : Port) (s : State) : Answer := onFrame p 0x01 ctlAck s

/-- CANCEL: a frame that writes CANCEL to the control field (R174). -/
def execCancel (p : Port) (s : State) : Answer := onFrame p 0x01 ctlCancel s

/-- PORT_RESET: a frame that writes PORT_RESET to the control field (R179). -/
def execPortReset (p : Port) (s : State) : Answer := onFrame p 0x01 ctlReset s

/-- UNKNOWN_COMMAND: a frame that writes a code outside the table to COMMAND (R176 step 1). -/
def execUnknownCommand (p : Port) (code : Byte) (s : State) : Answer := onFrame p 0x00 code s

end Sys2Proof.Machine
end

