-- ==== Sys2Proof/Machine/Power.lean ====
section
/-! DEFINITION. POWER_ON, POWER_LOSS, RESET_N_ASSERT and RESET_N_RELEASE (R17, R35, R55, R56, R74, R99, R121, R138, R156). -/

namespace Sys2Proof.Machine

/-- The operation in progress is abandoned, and every unit is in its reset state (R17, R35). -/
def State.abandoned (s : State) (t : Torn) : State :=
  { s with array := abandon s.array t s.ac.cutOff, ac := ArrayController.start, units := Units.atReset }

/-- POWER_ON (R121); on a part already powered it stands for the interruption of the supply before it (log 29). -/
def execPowerOn (t : Torn) (s : State) : Answer := .next { s.abandoned t with powered := true }

/-- POWER_LOSS (R17). -/
def execPowerLoss (t : Torn) (s : State) : Answer := .next { s.abandoned t with powered := false }

/-- RESET_N is asserted (R35). -/
def execResetNAssert (t : Torn) (s : State) : Answer := .next { s.abandoned t with resetLow := true }

/-- RESET_N is released: mount begins at POLICY (R121). -/
def execResetNRelease (s : State) : Answer :=
  .next (if s.resetLow then { s with resetLow := false, units := Units.atReset } else s)

end Sys2Proof.Machine
end

