-- ==== Sys2Proof/Machine/Dispatch.lean ====
section
/-! DEFINITION. The meaning of every command: one arm per constructor. -/

namespace Sys2Proof.Machine

def exec (i : Instr) (s : State) : Host.Outcome State Fault Refusal :=
  match i with
  | .powerOn torn => Sys2Proof.Machine.execPowerOn torn s
  | .powerLoss torn => Sys2Proof.Machine.execPowerLoss torn s
  | .resetNAssert torn => Sys2Proof.Machine.execResetNAssert torn s
  | .resetNRelease => Sys2Proof.Machine.execResetNRelease s
  | .resultPost p => Sys2Proof.Machine.execResultPost p s
  | .windowWrite p e => Sys2Proof.Machine.execWindowWrite p e s
  | .attentionEnables p value => Sys2Proof.Machine.execAttentionEnables p value s
  | .ack p => Sys2Proof.Machine.execAck p s
  | .cancel p => Sys2Proof.Machine.execCancel p s
  | .portReset p => Sys2Proof.Machine.execPortReset p s
  | .unknownCommand p code => Sys2Proof.Machine.execUnknownCommand p code s
  | .read p => Sys2Proof.Machine.execRead p s
  | .stat p => Sys2Proof.Machine.execStat p s
  | .list p => Sys2Proof.Machine.execList p s
  | .write p => Sys2Proof.Machine.execWrite p s
  | .delete p => Sys2Proof.Machine.execDelete p s
  | .begin p => Sys2Proof.Machine.execBegin p s
  | .stageWrite p => Sys2Proof.Machine.execStageWrite p s
  | .stageDelete p => Sys2Proof.Machine.execStageDelete p s
  | .commit p => Sys2Proof.Machine.execCommit p s
  | .abort p => Sys2Proof.Machine.execAbort p s
  | .renew p => Sys2Proof.Machine.execRenew p s
  | .bind p => Sys2Proof.Machine.execBind p s
  | .watch p => Sys2Proof.Machine.execWatch p s
  | .unwatch p => Sys2Proof.Machine.execUnwatch p s
  | .noticePop p => Sys2Proof.Machine.execNoticePop p s
  | .freeze p => Sys2Proof.Machine.execFreeze p s
  | .policyRead p => Sys2Proof.Machine.execPolicyRead p s
  | .policyLoad p => Sys2Proof.Machine.execPolicyLoad p s
  | .policyCommit p => Sys2Proof.Machine.execPolicyCommit p s
  | .policyDiscard p => Sys2Proof.Machine.execPolicyDiscard p s
  | .reclaim p => Sys2Proof.Machine.execReclaim p s
  | .info p => Sys2Proof.Machine.execInfo p s
  | .arrayRequest r => Sys2Proof.Machine.execArrayRequest r s
  | .arrayReadDone => Sys2Proof.Machine.execArrayReadDone s
  | .arrayProgramDone stuck => Sys2Proof.Machine.execArrayProgramDone stuck s
  | .arrayEraseDone e => Sys2Proof.Machine.execArrayEraseDone e s
  | .arrayBlankCheckDone => Sys2Proof.Machine.execArrayBlankCheckDone s
  | .lookup => Sys2Proof.Machine.execLookup s
  | .range => Sys2Proof.Machine.execRange s
  | .pin => Sys2Proof.Machine.execPin s
  | .unpin => Sys2Proof.Machine.execUnpin s
  | .charge => Sys2Proof.Machine.execCharge s
  | .release => Sys2Proof.Machine.execRelease s
  | .switch => Sys2Proof.Machine.execSwitch s
  | .commitSwitch => Sys2Proof.Machine.execCommitSwitch s
  | .copySwitch => Sys2Proof.Machine.execCopySwitch s
  | .report => Sys2Proof.Machine.execReport s
  | .allocate => Sys2Proof.Machine.execAllocate s
  | .opened => Sys2Proof.Machine.execOpened s
  | .close => Sys2Proof.Machine.execClose s
  | .prepared => Sys2Proof.Machine.execPrepared s
  | .noVictim => Sys2Proof.Machine.execNoVictim s
  | .numberQuery => Sys2Proof.Machine.execNumberQuery s
  | .sweep => Sys2Proof.Machine.execSweep s
  | .loss => Sys2Proof.Machine.execLoss s
  | .reclaiming => Sys2Proof.Machine.execReclaiming s
  | .erased => Sys2Proof.Machine.execErased s
  | .memberReport => Sys2Proof.Machine.execMemberReport s
  | .memberQuery => Sys2Proof.Machine.execMemberQuery s
  | .memberMove => Sys2Proof.Machine.execMemberMove s
  | .leaseWarning p => Sys2Proof.Machine.execLeaseWarning p s
  | .leaseExpiry p => Sys2Proof.Machine.execLeaseExpiry p s
  | .claimWaitExpiry p => Sys2Proof.Machine.execClaimWaitExpiry p s
  | .lockEvent => Sys2Proof.Machine.execLockEvent s
  | .revocationEvent => Sys2Proof.Machine.execRevocationEvent s
  | .watchRemoval => Sys2Proof.Machine.execWatchRemoval s
  | .changeReport => Sys2Proof.Machine.execChangeReport s
  | .noticePost u => Sys2Proof.Machine.execNoticePost u s
  | .passStart => Sys2Proof.Machine.execPassStart s
  | .writerClearance => Sys2Proof.Machine.execWriterClearance s
  | .victimErase => Sys2Proof.Machine.execVictimErase s

end Sys2Proof.Machine
end

