-- ==== Sys2Proof/Machine/Step.lean ====
section
/-! DEFINITION. One step: the command at the front of the queue, or a tick of the clock. -/

namespace Sys2Proof.Machine

/-- A tick of the clock of the lease and wait timers, 2.5 ms, while the part runs (log 2). -/
def State.tick (s : State) : State :=
  if s.running then { s with units := { s.units with clock := s.units.clock + 1 } } else s

/-- The command at the front of the queue is carried out on the rest; on an empty queue time passes (log 2). -/
def step (s : State) : Host.Outcome State Fault Refusal :=
  match s.pending with
  | [] => .next s.tick
  | c :: rest => exec c { s with pending := rest }

/-- The command a word spells put at the front of the queue; the state unchanged where the word spells none. -/
def State.withFetchWord (s : State) (nbits w : Nat) : State :=
  match decodeTableWord nbits w with
  | some c => { s with pending := c :: s.pending }
  | none => s

end Sys2Proof.Machine
end

