-- ==== Sys2Proof/Safety.lean ====
section
/-! DEFINITION. What every run of the FA412 keeps, and the conditions the statements name: the array in its canonical form, the Array
Controller within its bounds (R19, R20, R26 to R33), a port that stands between frames; and the tables of the units in order
(R37, R76, R139, R157, R162). -/

namespace Sys2Proof

/-- The row of a completion, and with a request that is presented just after it, the row of both (R25, log 51). -/
def Ending.joined : Ending → Option Request → Instr
  | c, some r => .arrayRequest ⟨r, some c⟩
  | .read, none => .arrayReadDone
  | .program stuck, none => .arrayProgramDone stuck
  | .erase e, none => .arrayEraseDone e
  | .blankCheck, none => .arrayBlankCheckDone

end Sys2Proof

namespace Sys2Proof.Machine

/-- Every address listed lies in the array of 131,072 bytes (R1). -/
def Memory.inArray (m : Memory) : Bool := m.all (fun c => decide (c.1 < 131072))

namespace ArrayController

/-- The requests accepted and not completed: in progress, suspended, held and queued (R19, R26, R33). -/
def known (c : ArrayController) : List Queued := c.running.toList ++ c.suspended.toList ++ c.held ++ c.queue

/-- A request the checks of R20 let in, whatever is outstanding. -/
def legal (r : Request) : Bool := decide (r.seg < 64) && r.op.inRange && permitted r.who r.op r.seg

/-- Queued and held requests stand in their order of arrival, no two of one order, all before the next (R26, R33). -/
def InOrder (held queue : List Queued) (next : Nat) : Prop :=
  queue.Pairwise (fun a b => a.order < b.order) ∧ held.Pairwise (fun a b => a.order < b.order)
  ∧ (∀ h ∈ held, ∀ q ∈ queue, h.order ≠ q.order) ∧ ∀ q ∈ held ++ queue, q.order < next

/-- The state of the controller is one the rules allow. -/
structure Sound (c : ArrayController) : Prop where
  /-- Every request known passed the checks at its presentation (R20). -/
  legal : ∀ q ∈ c.known, ArrayController.legal q.req = true
  /-- Each interface holds at most one request accepted and not completed (R19). -/
  single : (c.known.map (fun q => q.req.who)).Nodup
  /-- With the array free nothing is queued, suspended or held (R27, R33). -/
  free : c.running = none → c.queue = [] ∧ c.suspended = none ∧ c.held = []
  /-- A suspended operation is an ERASE, suspended 1 to 8 times, and a READ of the current suspension, the first to
  the seventh, is in progress (R30, R31). -/
  suspension : ∀ e, c.suspended = some e → e.req.op.isErase = true
    ∧ (∃ q, c.running = some q ∧ q.isRead = true)
    ∧ 1 ≤ c.suspendCount ∧ 1 ≤ c.grantCount
  /-- The suspend count stays at 8 or below (R32), the grant count at 7 or below (R31). -/
  bounds : c.suspendCount ≤ 8 ∧ c.grantCount ≤ 7
  /-- Held reads are READs of the segment of the erase in progress (R33). -/
  held : ∀ q ∈ c.held, q.isRead = true ∧ ∃ e, c.erasing = some e ∧ q.req.seg = e.req.seg
  /-- With no erase in progress both counts are 0 (R25, R30). -/
  idle : c.erasing = none → c.suspendCount = 0 ∧ c.grantCount = 0
  /-- A READ is queued behind a RUNNING erase only when that erase has been suspended 8 times (R30, R32). -/
  waits : ∀ e, c.running = some e → e.req.op.isErase = true → c.queue.any Queued.isRead = true → c.suspendCount = 8
  /-- The queue and the held reads stand in their order of arrival (R26, R33). -/
  ordered : InOrder c.held c.queue c.arrivals

end ArrayController

/-- What every step keeps: the array in canonical form within its bytes, and the controller sound. -/
structure Safe (s : State) : Prop where
  canonical : Memory.wf s.array = true
  inside    : s.array.inArray = true
  control   : s.ac.Sound

/-- A port between frames whose frame end starts no other unit's work: the part runs, no frame is in progress, no
outcome waits to be posted, no drain or hand-over is pending, and the Writer has a job or none is queued (which
holds in every run, R58). -/
structure Quiet (p : Port) (s : State) : Prop where
  running   : s.running = true
  noFrame   : (s.units.port p).frame = none
  noOutcome : (s.units.port p).outcome = none
  steady    : (s.units.port p).draining = false
  handed    : (s.units.port p).handOver = false
  writer    : s.units.rw.cur.isSome = true ∨ s.units.rw.queue = []

/-- A quiet port that takes commands: READY or DONE (R171). -/
structure Taking (p : Port) (s : State) : Prop extends Quiet p s where
  state : (s.units.port p).state = .ready ∨ (s.units.port p).state = .done

/-- The part after a port has taken a command by a frame that wrote only its code: BUSY, the causes cleared, the code
in COMMAND, and the command in hand with the parameters and the buffer as they stand (R168, R171). -/
def State.taking (s : State) (p : Port) (c : Cmd) : Units :=
  let x := s.units.port p
  s.units.setPort p { x with
    state := .busy, doneCause := false, collision := false, command := c.code,
    inHand := some ⟨c, x.params, x.buffer, .elsewhere⟩, lastOut := [statusByte p s.units, 0] }

/-- The same with the work of the command at another place. -/
def State.takingAt (s : State) (p : Port) (c : Cmd) (w : Work) : Units :=
  let x := s.units.port p
  s.units.setPort p { x with
    state := .busy, doneCause := false, collision := false, command := c.code,
    inHand := some ⟨c, x.params, x.buffer, w⟩, lastOut := [statusByte p s.units, 0] }

/-- The same with an outcome delivered for the command in hand (R175). -/
def State.answered (s : State) (p : Port) (c : Cmd) (o : Posting) : Units :=
  let x := s.units.port p
  s.units.setPort p { x with
    state := .busy, doneCause := false, collision := false, command := c.code,
    inHand := some ⟨c, x.params, x.buffer, .elsewhere⟩, outcome := some o, lastOut := [statusByte p s.units, 0] }

/-- The units changed and nothing else. -/
def State.withUnits (s : State) (u : Units) : State := { s with units := u }

/-- The oldest claim at the Index Unit is this one (R38). -/
def State.oldestClaim (s : State) (src : Claimant) (c : Claim) : Prop :=
  s.running = true ∧ headClaim s.units = some (src, c)

/-- The Writer has a job, or none is queued: what holds in every run between rows (R58). -/
def State.writerSteady (s : State) : Prop := s.units.rw.cur.isSome = true ∨ s.units.rw.queue = []

/-- An outcome delivered for the command in hand (R175). -/
def Units.withOutcome (u : Units) (p : Port) (o : Posting) : Units :=
  u.setPort p { u.port p with outcome := some o }

/-- The same, dropped when no command is in hand (R175, R179). -/
def Units.delivers (u : Units) (p : Port) (o : Posting) : Units :=
  if (u.port p).inHand = none then u else u.withOutcome p o

/-- A draining port goes READY when nothing of its work is left, between frames (R179). -/
def Units.drained (u : Units) (p : Port) : Units :=
  let x := u.port p
  if x.draining = true ∧ x.frame = none ∧ x.stale = none ∧ hasRecordJob p u = false ∧ (u.slot p).state = .none
      ∧ u.pu.session.committingBy p = false then
    u.setPort p { x with state := .ready, draining := false }
  else u

/-- The command in hand of a port, whose outcome is wanted: the port is not draining (R171, R179). -/
def State.serves (s : State) (p : Port) (c : InHand) : Prop :=
  (s.units.port p).inHand = some c ∧ (s.units.port p).draining = false

/-- A port whose frame of the bytes sent back leaves it otherwise as it was. -/
def State.sentBack (s : State) (p : Port) (out : List Byte) : Units :=
  s.units.setPort p { s.units.port p with lastOut := out }

/-- What a write frame of one byte shifts out: the status byte, then 0 (R168). -/
def State.statusOut (s : State) (p : Port) : List Byte := [statusByte p s.units, 0]

/-- The row of a command. -/
def Cmd.row : Cmd → Port → Instr
  | .read, p => .read p | .stat, p => .stat p | .list, p => .list p | .write, p => .write p | .delete, p => .delete p
  | .begin, p => .begin p | .stageWrite, p => .stageWrite p | .stageDelete, p => .stageDelete p
  | .commit, p => .commit p | .abort, p => .abort p | .renew, p => .renew p | .bind, p => .bind p
  | .freeze, p => .freeze p | .watch, p => .watch p | .unwatch, p => .unwatch p | .noticePop, p => .noticePop p
  | .policyRead, p => .policyRead p | .policyLoad, p => .policyLoad p | .policyCommit, p => .policyCommit p
  | .policyDiscard, p => .policyDiscard p | .reclaim, p => .reclaim p | .info, p => .info p

/-- Link events one after another. -/
def State.link (p : Port) : List LinkEvent → State → Answer
  | [], s => .next s
  | e :: es, s =>
    match exec (.windowWrite p e) s with
    | .next t => State.link p es t
    | o => o

/-- The parameter fields of the window by offset (section 11.3). -/
def parameterFields : List (Nat × (Params → Byte → Params)) :=
  [(0x004, fun q b => { q with slot := b }), (0x005, fun q b => { q with flags := b }),
   (0x006, fun q b => { q with key := half b (loByte q.key) }), (0x007, fun q b => { q with key := half (hiByte q.key) b }),
   (0x008, fun q b => { q with length := b }), (0x009, fun q b => { q with offset := b }),
   (0x00A, fun q b => { q with part := b }), (0x00B, fun q b => { q with source := b })]

/-- Nothing of a port's work is left when it is reset: no slot, no job, no read outstanding, no commit (R179). -/
structure NoWork (p : Port) (s : State) : Prop where
  slot    : (s.units.slot p).state = .none ∧ (s.units.slot p).stage = none
  jobs    : hasRecordJob p s.units = false
  stale   : (s.units.port p).stale = none
  session : s.units.pu.session.committingBy p = false
  reading : ∀ r, workOf p s.units ≠ some (.reading r)

/-! ## The checks of a command (R143, R176, R178) -/

/-- The partition a command acts on, when the tests of bound slot, right, lock and authority pass; 0 where it names
none (R143). -/
def admitted (c : Cmd) (p : Port) (part : Nat) (s : State) : Prop :=
  let q := (s.units.port p).params
  let sh := s.units.pu.shadow
  (c ∈ [Cmd.read, .stat, .list, .watch] ∧ resolve p q.slot s.units = some part ∧ sh.mayRead p part = true)
  ∨ (c ∈ [Cmd.write, .delete, .begin, .stageWrite, .stageDelete] ∧ resolve p q.slot s.units = some part
      ∧ sh.mayWrite p part = true ∧ lockOf s.units part = .opened)
  ∨ (c = .freeze ∧ resolve p q.slot s.units = some part ∧ sh.mayWrite p part = true)
  ∨ (c ∈ [Cmd.policyLoad, .policyCommit, .policyDiscard, .reclaim] ∧ sh.authority p = true ∧ part = 0)
  ∨ (c ∈ [Cmd.commit, .abort, .renew, .bind, .unwatch, .noticePop, .policyRead, .info] ∧ part = 0)

/-- A parameter lies outside its range (R178). -/
def outOfRange (c : Cmd) (q : Params) : Prop :=
  (c ∈ [Cmd.read, .stat, .write, .delete, .stageWrite, .stageDelete] ∧ q.key = 0xFFFF)
  ∨ (c ∈ [Cmd.read, .write, .stageWrite] ∧ 240 < q.length.toNat)
  ∨ (c = .read ∧ 240 < q.offset.toNat)
  ∨ (c ∈ [Cmd.watch, .unwatch] ∧ q.flags.getLsbD 0 = false ∧ q.key = 0xFFFF)
  ∨ (c = .unwatch ∧ 15 < q.part.toNat)
  ∨ (c = .policyRead ∧ 1 < q.source.toNat)

/-- A command that passes its checks at a port that takes it, with the partition it acts on. -/
structure Passing (c : Cmd) (p : Port) (part : Nat) (s : State) : Prop extends Taking p s where
  admitted : Machine.admitted c p part s
  inRange  : ¬ outOfRange c (s.units.port p).params

/-! ## What the Array Controller refuses (R20, section 2.2) -/

/-- The table of section 2.2, row by row. -/
def inRequesterTable (r : Request) : Prop :=
  let dataSeg := 2 ≤ r.seg ∧ r.seg < 64
  (∃ p first count, r.who = .port p ∧ r.op = .read first count ∧ dataSeg)
  ∨ (∃ cell bytes, r.who = .writer ∧ r.op = .program cell bytes ∧ dataSeg)
  ∨ (r.who = .engine ∧ ((∃ first count, r.op = .read first count) ∨ (∃ cell bytes, r.op = .program cell bytes) ∨ r.op = .erase)
      ∧ dataSeg)
  ∨ (r.who = .policy ∧ ((∃ cell bytes, r.op = .program cell bytes) ∨ r.op = .erase) ∧ r.seg < 2)
  ∨ (r.who = .mount ∧ ((∃ first count, r.op = .read first count) ∧ r.seg < 64
      ∨ ((∃ cell bytes, r.op = .program cell bytes) ∨ r.op = .blankCheck) ∧ dataSeg))

/-- The cases of R20. -/
def refusedAtPresentation (c : ArrayController) (r : Request) : Prop :=
  64 ≤ r.seg
  ∨ (∃ first count, r.op = .read first count ∧ (127 < first ∨ count < 1 ∨ 16 < count ∨ 128 < first + count))
  ∨ (∃ cell bytes, r.op = .program cell bytes ∧ 127 < cell)
  ∨ ¬ inRequesterTable r
  ∨ (((∃ cell bytes, r.op = .program cell bytes) ∨ r.op = .erase)
      ∧ ∃ e, (c.suspended = some e ∨ c.running = some e) ∧ e.req.op = .erase ∧ e.req.seg = r.seg)

/-- The interface of a requester is free (R19): none of its requests is known. -/
def ArrayController.interfaceFree (c : ArrayController) (who : Requester) : Prop := ∀ q ∈ c.known, q.req.who ≠ who

/-- The rank of a queued request in the order of R27, least first. -/
def arbiterRank (urgent : Bool) (q : Queued) : Nat :=
  if q.isRead then 1
  else match q.req.who with
    | .engine => if urgent then 2 else 5
    | .writer => 3
    | .policy => 4
    | .mount => 6
    | .port _ => 7

/-- A request whose presentation falls together with a completion `c` and comes just after it (R25, log 51): the array fallen
free has the queue `qs` and no erase. Refused it completes REJECTED, and all else is as without it; accepted it joins the queue
as its youngest, and the arbiter chooses from that queue. -/
def State.grantedTogether (s : State) (c : Ending) (qs : List Queued) : Prop :=
  let free : ArrayController := { s.ac with
    running := none, suspended := none, queue := qs, held := [], suspendCount := 0, grantCount := 0 }
  ∃ t, exec (c.joined none) s = .next t ∧ ∀ r,
    (refusedAtPresentation free r ∨ ¬ free.interfaceFree r.who →
      exec (c.joined (some r)) s = .next { t with ac := { t.ac with delivered := some ⟨r, .rejected, []⟩ } })
    ∧ (¬ refusedAtPresentation free r → free.interfaceFree r.who →
      let queue := qs ++ [⟨s.ac.arrivals, r⟩]
      ∃ v, exec (c.joined (some r)) s = .next v ∧ v.array = t.array ∧ v.pending = t.pending ∧ v.powered = t.powered
        ∧ v.resetLow = t.resetLow ∧ v.units = notePresented r t.units
        ∧ v.ac.delivered = t.ac.delivered ∧ v.ac.arrivals = s.ac.arrivals + 1
        ∧ v.ac.held = [] ∧ v.ac.suspended = none ∧ v.ac.suspendCount = 0 ∧ v.ac.grantCount = 0
        ∧ v.ac.running = ArrayController.choose s.units.urgent queue
        ∧ v.ac.queue = (match v.ac.running with | some q => queue.erase q | none => queue))

/-! ## The release of a claim (R79, R81, R82, R114) -/

/-- The engine at the release of a claim: one that waits in its sweep repeats it, one in a sweep notes it (R114, log 50). -/
def Units.sweepWoken (u : Units) : Units :=
  if u.ce.step = .sweepWaiting then present .engine (.sweep (u.ce.victim.getD 0)) (u.setCe { u.ce with step := .sweepClaim })
  else if u.ce.state = .copy ∧ u.ce.todo ≠ none then u.setCe { u.ce with again := true }
  else u

/-- The claim of a partition granted to the waiter `q` with the number `n`, its queue left as `rest` (R79, R81, R82). -/
def Units.passedTo (u : Units) (part : Nat) (q : Port) (rest : List Port) (n : Nat) : Units :=
  let length := (u.pu.shadow.part part).lease
  let granted := (u.setSlot q { Slot.start with
    state := .opened, part := part, number := n,
    lease := some ⟨u.clock + 4 * length, u.clock + 3 * length, true⟩ }).delivers q
      ⟨{ Results.zero with code := 0x01, txn := BitVec.ofNat 16 n, lease := BitVec.ofNat 16 length }, []⟩
  { granted with tm := { granted.tm with
      queues := u.tm.queues.set part rest, counter := if 65535 ≤ n then 1 else n + 1 } }

/-- How an event that waits for its row ends a port's wait for a partition: a lock event of the partition LOCKED, else a
revocation that names the port or the partition DENIED (R80, log 66). -/
def Units.waitEnds (u : Units) (part : Nat) (q : Port) : Option ResultCode :=
  if ∃ e ∈ u.tm.lockEvents, e.part = part then some .locked
  else if ∃ r ∈ u.tm.revocations, (part, q) ∈ r.lost ∨ part ∈ r.disabled then some .denied
  else none

/-- The waiters of a partition whose wait such an event ends are answered, their slots NONE; the others keep their places (R80,
log 66). -/
def Units.waitersAnswered (u : Units) (part : Nat) : Units :=
  let ends (q : Port) : Option ResultCode := if q ∈ claimQueue part u then u.waitEnds part q else none
  { u with
    ports := u.ports.map fun q x =>
      match ends q with
      | some c => if x.inHand = none then x else { x with outcome := some (Posting.code c) }
      | none => x
    tm := { u.tm with
      slots := u.tm.slots.map fun q sl => if ends q = none then sl else Slot.start
      queues := u.tm.queues.set part ((claimQueue part u).filter fun q => u.waitEnds part q = none) } }

/-- The lock event of the port's own FREEZE of its transaction's partition waits for its row (R147). -/
def Units.frozenByOwn (u : Units) (p : Port) : Prop := (⟨(u.slot p).part, some p⟩ : LockEvent) ∈ u.tm.lockEvents

/-- A revocation concerns the partition of a port's slot (R97). -/
def Units.hitBy (u : Units) (p : Port) (r : Revocation) : Bool :=
  decide (((u.slot p).part, p) ∈ r.lost ∨ (u.slot p).part ∈ r.disabled)

/-- The event of an apply point that took the port's WRITE on its transaction's partition, or disabled it, waits for its row
(R97). -/
def Units.revoked (u : Units) (p : Port) : Prop :=
  ∃ r ∈ u.tm.revocations, u.hitBy p r = true

/-- The stage in flight of a port is on the space wait list (R53, R84). -/
def Units.stageWaits (u : Units) (p : Port) : Bool :=
  match u.iu.spaceWait.find? (fun w => w.port == p) with
  | some w => w.job.role == .stage
  | none => false

/-- The CHARGE of a port's stage is still to be taken (R86). -/
def Units.charging (u : Units) (p : Port) : Bool :=
  u.iu.claims.any fun m =>
    match m.src, m.body with
    | .txn q, .charge _ _ _ _ => decide (q = p)
    | _, _ => false

/-- The slot of a port whose OPEN transaction has been aborted with an end reason (R84). -/
def Units.abortedSlot (u : Units) (p : Port) (r : EndReason) : Slot :=
  let sl := u.slot p
  { sl with
    state := .aborting, reason := some r, lease := none, pending := sl.stage.map (·.cmd),
    stage := if u.stageWaits p then none else sl.stage }

/-- What an event does to the units `u`, giving `v`: the OPEN transactions of the ports `ends` are aborted with the reason `r`, a
stage of theirs leaving the space wait list, their CLAIM_LOST posts and ABORT_CLEAN jobs sent in the order A to D (log 46), an
ABORT_CLEAN unless the CHARGE of a stage is still to be taken (log 14); the waiters `waits` leave their queues answered `c`; and
no other unit changes (R53, R80, R84, R85, R96, R97). -/
structure Units.EventTaken (u : Units) (ends waits : Port → Bool) (r : EndReason) (c : ResultCode) (v : Units) : Prop where
  slots    : ∀ p, v.slot p = if ends p then u.abortedSlot p r else if waits p then Slot.start else u.slot p
  ports    : ∀ p, v.port p =
    if waits p && decide ((u.port p).inHand ≠ none) then { u.port p with outcome := some (Posting.code c) } else u.port p
  numbers  : v.tm.counter = u.tm.counter ∧ v.tm.retained = u.tm.retained
  queues   : ∀ k, claimQueue k v = (claimQueue k u).filter (fun q => !waits q)
  index    : v.iu = { u.iu with spaceWait := u.iu.spaceWait.filter fun w => !(ends w.port && u.stageWaits w.port) }
  engine   : v.ce = if [Port.a, .b, .c, .d].any (fun p => ends p && u.stageWaits p) then
      { u.ce with mode := if v.iu.spaceWait = [] then .normal else .urgent } else u.ce
  notices  : v.nu = { u.nu with posts := u.nu.posts ++ ([Port.a, .b, .c, .d].filter ends).map fun p =>
      ⟨.txn, .one p, { Notice.plain .claimLost with
        part := some (u.slot p).part, txn := some (u.slot p).number, reason := some r.notice }⟩ }
  writer   : v.rw = { u.rw with queue := u.rw.queue
      ++ ([Port.a, .b, .c, .d].filter fun p => ends p && !u.charging p).map fun p => .abortClean p }
  others   : v.pu = u.pu ∧ v.me = u.me ∧ v.clock = u.clock ∧ v.media = u.media

/-- A lock event for a partition is taken: the OPEN transaction there is aborted LOCKED, every waiter answered LOCKED (R80,
R96). -/
def Units.LockTaken (u : Units) (part : Nat) : Units → Prop :=
  u.EventTaken (fun p => decide ((u.slot p).state = .opened ∧ (u.slot p).part = part))
    (fun p => decide (p ∈ claimQueue part u)) .locked .locked

/-- A revocation event is taken: the OPEN transactions of the ports it concerns are aborted REVOKED, their waits answered DENIED
(R80, R97). -/
def Units.RevocationTaken (u : Units) (r : Revocation) : Units → Prop :=
  u.EventTaken (fun p => u.hitBy p r && decide ((u.slot p).state = .opened))
    (fun p => u.hitBy p r && decide ((u.slot p).state = .waiting)) .revoked .denied

/-- A port in a claim wait queue waits for that partition (R76). -/
def Units.queued (u : Units) : Prop := ∀ k, ∀ q ∈ claimQueue k u, (u.slot q).state = .waiting ∧ (u.slot q).part = k

/-! ## Transaction numbers (R81) -/

/-- The first number from the counter on, 1 after 65,535, that no slot of the ports named, no commit set entry and no retained
record holds (R81). -/
def Units.firstFreeNumber (u : Units) (others : Port → Prop) (n : Nat) : Prop :=
  let c := u.tm.counter
  let candidate (k : Nat) : Nat := if c + k ≤ 65535 then c + k else c + k - 65535
  let used (m : Nat) : Prop :=
    (∃ g, others g ∧ (u.slot g).state ∈ [SlotState.opened, .committing, .aborting] ∧ (u.slot g).number = m)
    ∨ (∃ e ∈ u.iu.commitSet, e.txn = m) ∨ ∃ r ∈ u.tm.retained, r.1 = m
  1 ≤ c → c ≤ 65535 → u.iu.commitSet.length + u.tm.retained.length ≤ 65000 →
    ∃ k, k < 65535 ∧ n = candidate k ∧ ¬ used n ∧ ∀ j, j < k → used (candidate j)

/-- What the release of the claim on a partition makes of the units `u`: the waiters that an event has shut out are answered, the
claim that no port holds passes to the oldest waiter left, if there is one, with the first free number, and an engine in its
sweep is told (R76, R79, R80, R81, R114, logs 50, 66). -/
def Units.Released (u : Units) (part : Nat) (v : Units) : Prop :=
  let w := u.waitersAnswered part
  (claimQueue part w = [] ∨ (∃ g, (w.slot g).holds part = true) → v = w.sweepWoken)
  ∧ ∀ q rest, claimQueue part w = q :: rest → (∀ g, (w.slot g).holds part = false) →
    ∃ n, w.firstFreeNumber (fun g => g ≠ q) n ∧ v = (w.passedTo part q rest n).sweepWoken

/-! ## The tables of the units (R37, R76, R139, R157, R162) -/

/-- The partition claims are in order: a partition has at most one holder, a port in a claim wait queue waits for that partition,
every port that waits is in its queue, once, and a queue forms only where the claim is held, so that it has at most 3 ports
(R76). -/
structure Units.ClaimsOrdered (u : Units) : Prop where
  single  : ∀ p q part, (u.slot p).holds part = true → (u.slot q).holds part = true → p = q
  queued  : u.queued
  found   : ∀ p, (u.slot p).state = .waiting → p ∈ claimQueue (u.slot p).part u
  once    : ∀ part, (claimQueue part u).Nodup
  claimed : ∀ part, claimQueue part u ≠ [] → ∃ p, (u.slot p).holds part = true
  short   : ∀ part, (claimQueue part u).length ≤ 3

/-- A port's watches and notices stay within their tables, no watch twice (R157, R162). -/
structure NoticePort.Bounded (x : NoticePort) : Prop where
  watches : x.watches.length ≤ 8
  once    : x.watches.Nodup
  queue   : x.queue.length ≤ 16
  lost    : x.lost ≤ 255

/-- The tables that every step of the part keeps in order: at most one index entry for a key, in ascending order (R37); the
partition claims (R76); each port's watches and notices (R157, R162); and 16 partitions in the policy and in the queues (R76,
R139), in the images that mount has read as well. -/
structure Units.Ordered (u : Units) : Prop where
  entries  : u.iu.entries.Pairwise fun x y => x.part < y.part ∨ (x.part = y.part ∧ x.key < y.key)
  claims   : u.ClaimsOrdered
  notices  : ∀ p, (u.notices p).Bounded
  queues   : u.tm.queues.length = 16
  policy   : u.pu.shadow.parts.length = 16
  images   : ∀ x ∈ u.me.images, x.2.parts.length = 16

/-! ## What the engine finds unsound (R113, R114) -/

/-- What a member list or the commit set names is not sound: one INTEGRITY notice, when it is first found (R114). -/
def Units.unreadNoted (u : Units) (part key : Option Nat) (l : Location) : Units :=
  if l ∈ u.ce.noted then u
  else { u.setCe { u.ce with noted := u.ce.noted ++ [l] } with
    nu := { u.nu with posts := u.nu.posts ++ [⟨.engine, .authority, { Notice.plain .integrity with
      part := part, key := key, seg := some l.seg, reason := some .lost }⟩] } }

/-- What the commit set and the member lists name at a location: a partition, and the key of a member (R113, R114). -/
def Units.heldAt (u : Units) (l : Location) : List (Option Nat × Option Nat) :=
  (u.iu.commitSet.filter (fun x => x.loc = l)).map (fun x => (some x.part, none))
    ++ [Port.a, .b, .c, .d].flatMap fun p =>
      ((u.slot p).members.filter (fun m => m.loc = l)).map fun m => (some (u.slot p).part, some m.key)

/-- Such a record is noted, under the first that names it (R113, R114, log 65). -/
def Units.heldNoted (u : Units) (l : Location) : Units :=
  match u.heldAt l with
  | [] => u
  | (part, key) :: _ => u.unreadNoted part key l

/-- A record the sweep names is not sound: a LOSS claim for an entry; else it is noted, the sweep will have to wait, and the next
record follows (R114). -/
def Units.lostInSweep (u : Units) : Named → Units
  | .entry part key l => present .engine (.loss part key l) (u.setCe { u.ce with step := .lossClaim })
  | .commitMember _ part l => recordDone 0 ((u.setCe { u.ce with unread := true }).unreadNoted (some part) none l)
  | .member _ part key l => recordDone 0 ((u.setCe { u.ce with unread := true }).unreadNoted (some part) (some key) l)

/-! ## Rows by what they reach -/

end Sys2Proof.Machine

namespace Sys2Proof

/-- The rows that reach the units alone: not the supply, not RESET_N, not the array (section 2.1, R17). -/
def Instr.unitsOnly : Instr → Bool
  | .powerOn _ | .powerLoss _ | .resetNAssert _ | .resetNRelease => false
  | .arrayRequest _ | .arrayReadDone | .arrayProgramDone _ | .arrayEraseDone _ | .arrayBlankCheckDone => false
  | _ => true

/-- The rows of a port's link: what is on it, the control actions, and the commands (section 10.1, log 8). -/
def Instr.onLink : Instr → Bool
  | .windowWrite _ _ | .attentionEnables _ _ | .ack _ | .cancel _ | .portReset _ | .unknownCommand _ _ => true
  | .read _ | .stat _ | .list _ | .write _ | .delete _ | .begin _ | .stageWrite _ | .stageDelete _ | .commit _ | .abort _
  | .renew _ | .bind _ | .freeze _ | .watch _ | .unwatch _ | .noticePop _ | .policyRead _ | .policyLoad _
  | .policyCommit _ | .policyDiscard _ | .reclaim _ | .info _ => true
  | _ => false

/-- The four rows of the supply and of RESET_N. -/
def Instr.supply : Instr → Bool
  | .powerOn _ | .powerLoss _ | .resetNAssert _ | .resetNRelease => true
  | _ => false

end Sys2Proof
end

