-- ==== Sys2Proof/WellFormed.lean ====
section
/-! DEFINITION. Which operands a command may carry: the widths of the bytes a row brings with it. -/

namespace Sys2Proof

/-- The 22 command codes (section 11.3, the command table). -/
def commandCodes : List Byte :=
  [0x10, 0x11, 0x12, 0x20, 0x21, 0x30, 0x31, 0x32, 0x33, 0x34, 0x35, 0x40, 0x41, 0x50, 0x51, 0x52,
   0x60, 0x61, 0x62, 0x63, 0x70, 0x71]

/-- A PROGRAM carries 16 bytes (R19). -/
def ArrayOp.wf : ArrayOp → Bool
  | .program _ bytes => bytes.length == 16
  | _ => true

/-- What the medium leaves lies in one cell or in one segment (R2). -/
def Torn.wf (t : Torn) : Bool :=
  t.program.length ≤ 16 && t.erase.all (fun k => k.1 < 2048)

/-- What a failed ERASE leaves lies in its segment (R23). -/
def EraseEnd.wf (e : EraseEnd) : Bool := e.kept.all (fun k => k.1 < 2048)

/-- What a completion carries lies in its cell or its segment (R22, R23). -/
def Ending.wf : Ending → Bool
  | .program stuck => stuck.length ≤ 16
  | .erase e => e.wf
  | _ => true

/-- A request carries what R19 gives it. -/
def Request.wf (r : Request) : Bool := r.op.wf

def Presentation.wf (r : Presentation) : Bool := r.req.wf && r.after.all Ending.wf

/-- The check of every command's operands. -/
def Instr.wf : Instr → Bool
  | .powerOn t | .powerLoss t | .resetNAssert t => t.wf
  | .unknownCommand _ code => code != 0 && !commandCodes.contains code
  | .arrayRequest r => r.wf
  | .arrayProgramDone stuck => (Ending.program stuck).wf
  | .arrayEraseDone e => e.wf
  | _ => true

end Sys2Proof
end

