-- ==== Sys2Proof/Certificates/Slice0/Obligations.lean ====
section
/-! DEFINITION. The statements for the provers. -/

open Sys2Proof Sys2Proof.Machine

/-! ## The block as a whole -/

/-- The command at the front of the queue is carried out on the rest. A step of the model is one row of the table; that rows
are single steps is the model's choice (log 1). MODEL'S CHOICE (log 2): on an empty queue 2.5 ms pass on the clock of the
timers while the part runs, and nothing else changes. -/
def Obligations.StepRunsTheFrontCommand : Prop :=
  ∀ s : State,
    (∀ (c : Instr) (rest : List Instr), s.pending = c :: rest → step s = exec c { s with pending := rest })
    ∧ (s.pending = [] →
        step s = .next (if s.running then s.withUnits { s.units with clock := s.units.clock + 1 } else s))

/-- What reset leaves: the values of the tables "State held by" and of the reset rules, over the array as delivered, which
is the model's choice of what the part first holds (log 6): every data segment PREPARED with erase count 0 and no record,
the policy segments erased. The values the spec does not state for reset are not part of this statement (log 5). -/
def Obligations.ResetValues : Prop :=
  let u := State.reset.units
  State.reset.pending = [] ∧ State.reset.running = true
  ∧ State.reset.ac.queue = [] ∧ State.reset.ac.held = [] ∧ State.reset.ac.running = none
  ∧ State.reset.ac.suspended = none ∧ State.reset.ac.suspendCount = 0 ∧ State.reset.ac.grantCount = 0 ∧ u.media = 0
  ∧ (∀ p : Port, (u.port p).state = .mounting ∧ (u.port p).doneCause = false ∧ (u.port p).collision = false
      ∧ (u.port p).enDone = true ∧ (u.port p).enNotice = true ∧ (u.port p).inHand = none ∧ (u.port p).outcome = none
      ∧ (u.port p).draining = false ∧ (u.port p).command = 0 ∧ (u.port p).params = ⟨0, 0, 0, 0, 0, 0, 0⟩
      ∧ (u.port p).results = ⟨0, 0, 0, 0, 0, 0, 0, 0, 0, 0, 0, 0⟩ ∧ (u.port p).buffer = List.replicate 256 0
      ∧ ∀ off, off ≠ 2 → off < 512 → (u.port p).windowByte off = 0)
  ∧ (∀ p : Port, (u.slot p).state = .none ∧ u.notices p = ⟨[], [], false, 0⟩)
  ∧ (∀ part, claimQueue part u = [])
  ∧ u.iu.entries = [] ∧ u.iu.charges = [] ∧ u.iu.commitSet = [] ∧ u.iu.spaceWait = [] ∧ u.iu.armed = true
  ∧ u.iu.writeHead = none ∧ u.iu.copyHead = none
  ∧ u.rw.queue = [] ∧ u.rw.cur = none
  ∧ u.ce.state = .idle ∧ u.ce.mode = .normal ∧ u.ce.owed = [] ∧ u.ce.victim = none ∧ u.ce.copy = none
  ∧ u.ce.lowRun = false ∧ u.ce.pendingErase = []
  ∧ u.pu.session = .none
  ∧ u.me.phase = .policy ∧ u.me.cands = [] ∧ u.me.classes = [] ∧ u.me.rolled = 0 ∧ u.me.discarded = 0 ∧ u.me.faults = 0
  ∧ u.me.maxErase = none ∧ u.me.maxSeq = none ∧ u.me.maxGen = none ∧ u.me.maxTxn = none
  ∧ (∀ a, a < 4096 → State.reset.array.read a = 0xFF)
  ∧ (∀ seg, 2 ≤ seg → seg < 64 →
      readSegState ((State.reset.array.cell seg 0).getD 0 0) = some .prepared
      ∧ field (State.reset.array.cell seg 0) 1 3 = 0
      ∧ field (State.reset.array.cell seg 0) 4 2 = crc [0, 0, 0]
      ∧ ∀ a, segBase seg + 6 ≤ a → a < segBase seg + 2048 → State.reset.array.read a = 0xFF)

/-- The state right after reset is sound, and its tables are in order (R37, R76, R139, R157, R162). -/
def Obligations.ResetIsSafe : Prop := Safe State.reset ∧ State.reset.units.Ordered

/-- Every step keeps the array canonical and within its bytes, and the Array Controller within its rules. -/
def Obligations.StepKeepsSafe : Prop := ∀ s t : State, Safe s → step s = .next t → Safe t

/-- Every step keeps the tables of the units in order: an index entry at most for each key, in ascending order (R37); at most one
holder for each partition, and in its claim wait queue exactly the ports that wait for it, each once, at most 3, behind a holder
(R76); for each port at most 8 watches, none twice (R157), a notice queue of at most 16 and a lost count of at most 255 (R162);
and 16 partitions in the policy (R139). -/
def Obligations.StepKeepsTables : Prop :=
  ∀ s t : State, s.units.Ordered → step s = .next t → t.units.Ordered

/-- Without power every row but those of the supply and of RESET_N leaves the state; while RESET_N is asserted so does every
one but the rows of a port's link, of which the port ignores every byte and shifts out 0x00 for it; and the rows that reach
the units alone leave the array, the Array Controller, the supply and RESET_N (R35, R121, R167). The zeros shifted out are
read in the model's record of what a port has sent (log 31). -/
def Obligations.RowsReachTheirPartOnly : Prop :=
  (∀ (i : Instr) (s : State), s.running = false → i.supply = false → s.powered = false ∨ i.onLink = false →
    exec i s = .next s)
  ∧ (∀ (p : Port) (s : State) (b : Byte) (bytes : List Byte) (i : Instr), s.powered = true → s.resetLow = true →
    let shows (out : List Byte) : Answer := .next (s.withUnits (s.units.setPort p { s.units.port p with lastOut := out }))
    exec (.windowWrite p .select) s = shows []
    ∧ exec (.windowWrite p (.shift b)) s = shows ((s.units.port p).lastOut ++ [0])
    ∧ exec (.windowWrite p .deselect) s = .next s
    ∧ exec (.windowWrite p (.frame bytes)) s = shows (List.replicate bytes.length 0)
    ∧ (i ∈ [Instr.attentionEnables p b, .ack p, .cancel p, .portReset p, .unknownCommand p b] ∨ (∃ c : Cmd, i = c.row p) →
        exec i s = shows [0, 0, 0]))
  ∧ ∀ (i : Instr) (s : State), i.unitsOnly = true → ∃ u, exec i s = .next (s.withUnits u)

/-! ## Supply and reset -/

/-- POWER_ON, POWER_LOSS and RESET_N_ASSERT abandon the operation in progress and put every unit in its reset state;
RESET_N_RELEASE lets the Mount Engine begin. What the medium leaves of an abandoned operation is the row's operand (log 4);
POWER_ON on a part with power stands for a loss of power before it (log 29). -/
def Obligations.SupplyRows : Prop :=
  ∀ (t : Torn) (s : State),
    exec (.powerOn t) s = .next ⟨s.pending, true, s.resetLow, abandon s.array t s.ac.cutOff, ArrayController.start, Units.start⟩
    ∧ exec (.powerLoss t) s
        = .next ⟨s.pending, false, s.resetLow, abandon s.array t s.ac.cutOff, ArrayController.start, Units.start⟩
    ∧ exec (.resetNAssert t) s
        = .next ⟨s.pending, s.powered, true, abandon s.array t s.ac.cutOff, ArrayController.start, Units.start⟩
    ∧ (s.resetLow = true → exec .resetNRelease s = .next { s with resetLow := false, units := Units.start })
    ∧ (s.resetLow = false → exec .resetNRelease s = .next s)

/-- The law of program and erase, at every byte and over every row: what a completed PROGRAM and ERASE store, what an
abandoned one may leave, and that the array changes in no other way. -/
def Obligations.LawOfProgramAndErase : Prop :=
  -- a PROGRAM completed by the medium stores the AND in the bytes of its cell
  (∀ (s t : State) (q : Queued) (cell : Nat) (bytes : List Byte) (j : Option Request), s.running = true →
    s.ac.running = some q →
    q.req.op = .program cell bytes → bytes.length = 16 → exec ((Ending.program []).joined j) s = .next t →
    ∀ a, t.array.read a =
      if cellBase q.req.seg cell ≤ a ∧ a < cellBase q.req.seg cell + 16
      then s.array.read a &&& bytes.getD (a - cellBase q.req.seg cell) 0 else s.array.read a)
  -- and never sets a bit, nor clears one outside its target, whatever the medium leaves undone
  ∧ (∀ (s t : State) (q : Queued) (cell : Nat) (bytes stuck : List Byte) (j : Option Request), s.running = true →
    s.ac.running = some q → q.req.op = .program cell bytes → bytes.length = 16 →
    exec ((Ending.program stuck).joined j) s = .next t →
    ∀ a, (t.array.read a ||| s.array.read a = s.array.read a)
      ∧ (a < cellBase q.req.seg cell ∨ cellBase q.req.seg cell + 16 ≤ a → t.array.read a = s.array.read a)
      ∧ (cellBase q.req.seg cell ≤ a → a < cellBase q.req.seg cell + 16 →
          (s.array.read a &&& bytes.getD (a - cellBase q.req.seg cell) 0) ||| t.array.read a = t.array.read a))
  -- an ERASE completed by the medium sets every bit of its segment
  ∧ (∀ (s t : State) (q : Queued) (j : Option Request), s.running = true → s.ac.running = some q → q.req.op = .erase →
    exec ((Ending.erase ⟨false, []⟩).joined j) s = .next t →
    ∀ a, t.array.read a =
      if segBase q.req.seg ≤ a ∧ a < segBase q.req.seg + 2048 then 0xFF else s.array.read a)
  -- and, failed or not, leaves each bit of its segment at its former value or at 1, and the bytes outside as they were
  ∧ (∀ (s t : State) (q : Queued) (e : EraseEnd) (j : Option Request), s.running = true → s.ac.running = some q →
    q.req.op = .erase → exec ((Ending.erase e).joined j) s = .next t →
    ∀ a, (s.array.read a ||| t.array.read a = t.array.read a)
      ∧ (a < segBase q.req.seg ∨ segBase q.req.seg + 2048 ≤ a → t.array.read a = s.array.read a))
  -- one abandoned leaves each bit of its segment at its former value or at 1
  ∧ (∀ (s t : State) (torn : Torn) (r : Request), s.ac.cutOff = some r → r.op = .erase →
    (exec (.powerLoss torn) s = .next t ∨ exec (.powerOn torn) s = .next t ∨ exec (.resetNAssert torn) s = .next t) →
    ∀ a, (s.array.read a ||| t.array.read a = t.array.read a)
      ∧ (a < segBase r.seg ∨ segBase r.seg + 2048 ≤ a → t.array.read a = s.array.read a))
  -- a PROGRAM abandoned leaves each bit it was to clear cleared or still 1, and the other bits of its cell
  ∧ (∀ (s t : State) (torn : Torn) (r : Request) (cell : Nat) (bytes : List Byte), s.ac.cutOff = some r →
    r.op = .program cell bytes → bytes.length = 16 →
    (exec (.powerLoss torn) s = .next t ∨ exec (.powerOn torn) s = .next t ∨ exec (.resetNAssert torn) s = .next t) →
    ∀ a, (t.array.read a ||| s.array.read a = s.array.read a)
      ∧ (a < cellBase r.seg cell ∨ cellBase r.seg cell + 16 ≤ a → t.array.read a = s.array.read a)
      ∧ (cellBase r.seg cell ≤ a → a < cellBase r.seg cell + 16 →
          (s.array.read a &&& bytes.getD (a - cellBase r.seg cell) 0) ||| t.array.read a = t.array.read a))
  -- and the array changes in no other way
  ∧ (∀ (i : Instr) (s t : State), exec i s = .next t → i.unitsOnly = true → t.array = s.array)
  ∧ (∀ (i : Instr) (s t : State), exec i s = .next t →
      (i = .resetNRelease ∨ (∃ j, i = Ending.read.joined j) ∨ (∃ j, i = Ending.blankCheck.joined j)
        ∨ ∃ r, i = .arrayRequest ⟨r, none⟩) →
      t.array = s.array)
  ∧ (∀ (s t : State) (torn : Torn), s.ac.cutOff.all (fun r => !r.op.changes) = true →
      (exec (.powerLoss torn) s = .next t ∨ exec (.powerOn torn) s = .next t ∨ exec (.resetNAssert torn) s = .next t) →
      t.array = s.array)
  ∧ (∀ (s t : State) (stuck : List Byte) (j : Option Request),
      (∀ q cell bytes, s.ac.running = some q → q.req.op ≠ .program cell bytes) →
      exec ((Ending.program stuck).joined j) s = .next t → t.array = s.array)
  ∧ (∀ (s t : State) (e : EraseEnd) (j : Option Request), (∀ q, s.ac.running = some q → q.req.op ≠ .erase) →
      exec ((Ending.erase e).joined j) s = .next t → t.array = s.array)

/-! ## The Array Controller -/

/-- The checks at presentation: each case of R20 completes REJECTED at once and changes nothing else, and so does a request
whose interface has one outstanding, which keeps its place (R19); a request of a free interface that no case meets is
accepted with the next arrival order. The completion is read in the field that holds the completion wires. -/
def Obligations.RequestsAreCheckedAtPresentation : Prop :=
  ∀ (r : Request) (s : State), s.running = true → s.ac.Sound →
    (refusedAtPresentation s.ac r →
      exec (.arrayRequest ⟨r, none⟩) s = .next { s with ac := { s.ac with delivered := some ⟨r, .rejected, []⟩ } })
    ∧ (¬ refusedAtPresentation s.ac r → ¬ s.ac.interfaceFree r.who →
      exec (.arrayRequest ⟨r, none⟩) s = .next { s with ac := { s.ac with delivered := some ⟨r, .rejected, []⟩ } })
    ∧ (¬ refusedAtPresentation s.ac r → s.ac.interfaceFree r.who →
      ∃ t, exec (.arrayRequest ⟨r, none⟩) s = .next t ∧ t.array = s.array ∧ t.ac.arrivals = s.ac.arrivals + 1
        ∧ t.ac.delivered = s.ac.delivered ∧ List.Perm t.ac.known (⟨s.ac.arrivals, r⟩ :: s.ac.known))

/-- A request accepted with the array free is granted at once; one accepted while another operation than an ERASE is in
progress joins the queue as its youngest, and so does a PROGRAM, an ERASE or a BLANK_CHECK accepted while an ERASE is RUNNING
or SUSPENDED, a BLANK_CHECK of its segment too (R26, R27, R30, R31, R33). A request that its unit wanted is noted as
presented, the member moves that a Writer's program holds back are taken again, and nothing else of the units changes (R19,
R68). -/
def Obligations.AcceptedRequestIsGrantedOrQueued : Prop :=
  ∀ (r : Request) (s : State), s.running = true → s.ac.Sound → s.ac.accepts r = true →
    let queued : Prop := ∃ t, exec (.arrayRequest ⟨r, none⟩) s = .next t ∧ t.array = s.array
      ∧ t.ac = { s.ac with queue := s.ac.queue ++ [⟨s.ac.arrivals, r⟩], arrivals := s.ac.arrivals + 1 }
    let shown (io : Io) : Io := if io.want = some r then ⟨some r, true⟩ else io
    let u := s.units
    (s.ac.running = none →
      ∃ t, exec (.arrayRequest ⟨r, none⟩) s = .next t ∧ t.array = s.array
        ∧ t.ac = { s.ac with running := some ⟨s.ac.arrivals, r⟩, arrivals := s.ac.arrivals + 1 })
    ∧ (∀ q, s.ac.running = some q → s.ac.suspended = none → q.req.op ≠ .erase → queued)
    ∧ (∀ q, s.ac.running = some q → s.ac.suspended = none → q.req.op = .erase → r.op.isRead = false → queued)
    ∧ (∀ q, s.ac.suspended = some q → r.op.isRead = false → queued)
    ∧ ∃ t, exec (.arrayRequest ⟨r, none⟩) s = .next t
      ∧ (∀ p, r.who = .port p → t.units = u.setPort p { u.port p with io := shown (u.port p).io })
      ∧ (r.who = .engine → t.units = u.setCe { u.ce with io := shown u.ce.io })
      ∧ (r.who = .policy → t.units = u.setPu { u.pu with io := shown u.pu.io })
      ∧ (r.who = .mount → t.units = u.setMe { u.me with io := shown u.me.io })
      ∧ (r.who = .writer → u.rw.io ≠ ⟨some r, false⟩ → t.units = u)
      ∧ (r.who = .writer → u.rw.io = ⟨some r, false⟩ →
          let v := u.setRw { u.rw with io := ⟨some r, true⟩ }
          t.units = match u.rw.cur with
            | some ⟨.complete p _ _ _, .memberLive _ _ _ true, _⟩
            | some ⟨.abortClean p, .retiring (.aborted _) _ _ _, _⟩ => v.setSlot p { v.slot p with holdMoves := false }
            | _ => v)

/-- A READ accepted while an ERASE runs: of another segment it suspends the erase and is granted at once, but after eight
suspensions it waits; of the segment under erase it is held. A READ accepted during a suspension waits for its turn. -/
def Obligations.ReadDuringAnErase : Prop :=
  ∀ (r : Request) (s : State) (e : Queued), s.running = true → s.ac.Sound → s.ac.accepts r = true →
    r.op.isRead = true → e.req.op = .erase →
    (s.ac.running = some e → r.seg ≠ e.req.seg → s.ac.suspendCount < 8 →
      ∃ t, exec (.arrayRequest ⟨r, none⟩) s = .next t ∧ t.array = s.array
        ∧ t.ac = { s.ac with running := some ⟨s.ac.arrivals, r⟩, suspended := some e, arrivals := s.ac.arrivals + 1,
                             suspendCount := s.ac.suspendCount + 1, grantCount := 1 })
    ∧ (s.ac.running = some e → r.seg ≠ e.req.seg → s.ac.suspendCount = 8 →
      ∃ t, exec (.arrayRequest ⟨r, none⟩) s = .next t ∧ t.array = s.array
        ∧ t.ac = { s.ac with queue := s.ac.queue ++ [⟨s.ac.arrivals, r⟩], arrivals := s.ac.arrivals + 1 })
    ∧ (s.ac.suspended = some e → r.seg ≠ e.req.seg →
      ∃ t, exec (.arrayRequest ⟨r, none⟩) s = .next t ∧ t.array = s.array
        ∧ t.ac = { s.ac with queue := s.ac.queue ++ [⟨s.ac.arrivals, r⟩], arrivals := s.ac.arrivals + 1 })
    ∧ (s.ac.running = some e ∨ s.ac.suspended = some e → r.seg = e.req.seg →
      ∃ t, exec (.arrayRequest ⟨r, none⟩) s = .next t ∧ t.array = s.array
        ∧ t.ac = { s.ac with held := s.ac.held ++ [⟨s.ac.arrivals, r⟩], arrivals := s.ac.arrivals + 1 })

/-- The arbiter: it grants one request whenever one is queued, of the least rank in the order of R27, and among READs the
oldest, the first of the queue. A completion and a presentation that fall together yield the same grant in either order: the
completion first, in one row with the request (the model's form, log 51), or the request's row first (R25). -/
def Obligations.ArbiterOrder : Prop :=
  (∀ (urgent : Bool) (qs : List Queued), (∀ q ∈ qs, ArrayController.legal q.req = true) →
    (qs ≠ [] → ∃ q, ArrayController.choose urgent qs = some q)
    ∧ ∀ q, ArrayController.choose urgent qs = some q →
        q ∈ qs ∧ (∀ x ∈ qs, arbiterRank urgent q ≤ arbiterRank urgent x)
        ∧ (q.isRead = true → qs.find? Queued.isRead = some q))
  ∧ ∀ (s : State) (q : Queued) (r : Request) (stuck : List Byte), s.running = true → s.ac.Sound →
    s.ac.running = some q → s.ac.suspended = none → s.ac.accepts r = true →
    let same (c : Ending) : Prop := ∃ s₁ t v, exec (.arrayRequest ⟨r, none⟩) s = .next s₁
      ∧ exec (c.joined none) s₁ = .next t ∧ exec (c.joined (some r)) s = .next v ∧ t.ac = v.ac ∧ t.array = v.array
    (q.isRead = true → same .read)
    ∧ ((∃ cell bytes, q.req.op = .program cell bytes) → same (.program stuck))
    ∧ (q.req.op = .blankCheck → same .blankCheck)

/-- ARRAY_READ_DONE: DONE with the bytes of the cells in cell order, the array as it was; with no erase suspended the
arbiter's choice is granted, from the queue with a request that falls together with the completion (R21, R25, R27). The
field that holds the completion is the model's own (log 27); that one ARRAY_REQUEST carries a completion it falls together
with is the model's choice (log 51), that it ranks by the mode before the row is the model's choice (log 45). -/
def Obligations.ReadCompletes : Prop :=
  ∀ (s : State) (o : Nat) (who : Requester) (seg first count : Nat), s.running = true →
    s.ac.running = some ⟨o, who, seg, .read first count⟩ →
    (s.ac.Sound → s.ac.suspended = none → s.grantedTogether .read s.ac.queue)
    ∧ ∃ t bytes, exec .arrayReadDone s = .next t ∧ t.pending = s.pending ∧ t.powered = s.powered ∧ t.resetLow = s.resetLow
      ∧ t.array = s.array ∧ bytes.length = 16 * count
      ∧ (∀ k, k < 16 * count → bytes.getD k 0 = s.array.read (2048 * seg + 16 * first + k))
      ∧ t.ac.delivered = some ⟨⟨who, seg, .read first count⟩, .done, bytes⟩
      ∧ t.units = readDelivered ⟨who, seg, .read first count⟩ bytes s.units
      ∧ (s.ac.suspended = none →
          t.ac.running = ArrayController.choose s.units.urgent s.ac.queue
          ∧ t.ac.held = s.ac.held ∧ t.ac.arrivals = s.ac.arrivals)

/-- A READ within a suspension completes: the oldest READ queued is granted, up to seven in one suspension; then the
erase resumes, and a READ still queued suspends it again at once below eight suspensions. A request that falls together with
the completion finds the array free and the erase SUSPENDED: it is queued before the grant, or, a READ of the segment under
erase, held (R25, R31 to R33; that the two are one row is the model's, log 51). -/
def Obligations.SuspensionServesReads : Prop :=
  ∀ (s : State) (o : Nat) (who : Requester) (seg first count : Nat) (e : Queued) (j : Option Request), s.running = true →
    s.ac.Sound → s.ac.running = some ⟨o, who, seg, .read first count⟩ → s.ac.suspended = some e →
    let free : ArrayController := { s.ac with running := none }
    let held (r : Request) : Prop := r.op.isRead = true ∧ r.seg = e.req.seg
    (∀ r, j = some r → ¬ refusedAtPresentation free r ∧ free.interfaceFree r.who) →
    ∃ t, exec (Ending.read.joined j) s = .next t
      ∧ (∀ r, j = some r → held r → t.ac.held = s.ac.held ++ [⟨s.ac.arrivals, r⟩])
      ∧ ((∀ r, j = some r → ¬ held r) → t.ac.held = s.ac.held)
      ∧ ∃ qs : List Queued, (∀ r, j = some r → ¬ held r → qs = s.ac.queue ++ [⟨s.ac.arrivals, r⟩])
        ∧ ((∀ r, j = some r → held r) → qs = s.ac.queue)
        ∧ match qs.find? Queued.isRead with
          | none => t.ac.running = some e ∧ t.ac.suspended = none ∧ t.ac.queue = qs
              ∧ t.ac.suspendCount = s.ac.suspendCount
          | some q =>
            if s.ac.grantCount < 7 then
              t.ac.running = some q ∧ t.ac.suspended = some e ∧ t.ac.queue = qs.erase q
              ∧ t.ac.suspendCount = s.ac.suspendCount ∧ t.ac.grantCount = s.ac.grantCount + 1
            else if s.ac.suspendCount < 8 then
              t.ac.running = some q ∧ t.ac.suspended = some e ∧ t.ac.queue = qs.erase q
              ∧ t.ac.suspendCount = s.ac.suspendCount + 1 ∧ t.ac.grantCount = 1
            else t.ac.running = some e ∧ t.ac.suspended = none ∧ t.ac.queue = qs ∧ t.ac.suspendCount = 8

/-- ARRAY_PROGRAM_DONE: VERIFIED when every bit supplied as 0 reads as 0, VERIFY_FAILED otherwise with one more media fault,
the bytes read back, and the arbiter's choice granted, from the queue with a request that falls together with the completion
(R22, R25, R27, R34). What the medium stores is the row's operand (log 4); that one ARRAY_REQUEST carries a completion it
falls together with is the model's choice (log 51); that the grant ranks by the mode before the row is the model's choice
(log 45). -/
def Obligations.ProgramCompletes : Prop :=
  ∀ (s : State) (o : Nat) (who : Requester) (seg cell : Nat) (bytes stuck : List Byte), s.running = true →
    s.ac.running = some ⟨o, who, seg, .program cell bytes⟩ → s.ac.suspended = none → bytes.length = 16 →
    (s.ac.Sound → s.grantedTogether (.program stuck) s.ac.queue)
    ∧ ∃ t ok, exec (.arrayProgramDone stuck) s = .next t ∧ t.pending = s.pending ∧ t.powered = s.powered
      ∧ t.resetLow = s.resetLow
      ∧ t.array = programCell s.array seg cell bytes stuck
      ∧ (ok = true ↔ ∀ k, k < 16 → t.array.read (2048 * seg + 16 * cell + k) &&& ~~~ bytes.getD k 0 = 0)
      ∧ t.ac.delivered
          = some ⟨⟨who, seg, .program cell bytes⟩, if ok then .verified else .verifyFailed, t.array.cell seg cell⟩
      ∧ t.units = programDelivered ⟨who, seg, .program cell bytes⟩ ok
          (if ok then s.units else { s.units with media := min 65535 (s.units.media + 1) })
      ∧ t.ac.running = ArrayController.choose s.units.urgent s.ac.queue

/-- ARRAY_ERASE_DONE: ERASED when the erase completed and every byte reads 0xFF, ERASE_FAILED otherwise with one more media
fault; the suspend count returns to 0, the held reads join the queue in their order of arrival, and the arbiter's choice of
the joined queue is granted; a request that falls together with the completion finds the array free and competes there, a
READ suspending nothing (R25, R27, R30, R33). What the medium stores is the row's operand (log 4); that one ARRAY_REQUEST
carries a completion it falls together with is the model's choice (log 51); that the grant ranks by the mode before the row
is the model's choice (log 45). -/
def Obligations.EraseCompletes : Prop :=
  ∀ (s : State) (o : Nat) (who : Requester) (seg : Nat) (e : EraseEnd), s.running = true → s.ac.Sound →
    s.ac.running = some ⟨o, who, seg, .erase⟩ →
    ∃ t ok, exec (.arrayEraseDone e) s = .next t ∧ t.pending = s.pending ∧ t.powered = s.powered
      ∧ t.resetLow = s.resetLow
      ∧ t.array = eraseSegment s.array seg e.kept
      ∧ (ok = true ↔ e.incomplete = false ∧ ∀ k, k < 2048 → t.array.read (2048 * seg + k) = 0xFF)
      ∧ t.ac.delivered = some ⟨⟨who, seg, .erase⟩, if ok then .erased else .eraseFailed, []⟩
      ∧ t.units = eraseDelivered ⟨who, seg, .erase⟩ ok
          (if ok then s.units else { s.units with media := min 65535 (s.units.media + 1) })
      ∧ t.ac.suspendCount = 0 ∧ t.ac.grantCount = 0 ∧ t.ac.held = [] ∧ t.ac.suspended = none
      ∧ ∃ joined : List Queued, List.Perm joined (s.ac.held ++ s.ac.queue)
          ∧ joined.Pairwise (fun a b => a.order < b.order)
          ∧ t.ac.running = ArrayController.choose s.units.urgent joined
          ∧ t.ac.queue = (match t.ac.running with | some q => joined.erase q | none => joined)
          ∧ s.grantedTogether (.erase e) joined

/-- ARRAY_BLANK_CHECK_DONE: BLANK when all 2,048 bytes read 0xFF, NOT_BLANK otherwise; the array as it was, no media fault
counted by the controller; a READ that arrives while one runs waits in the queue, and a request that falls together with the
completion competes at its grant (R24, R25, R27). That one ARRAY_REQUEST carries a completion it falls together with is the
model's choice (log 51); that it ranks by the mode before the row is the model's choice (log 45). -/
def Obligations.BlankCheckCompletes : Prop :=
  ∀ (s : State) (o : Nat) (who : Requester) (seg : Nat), s.running = true → s.ac.Sound →
    s.ac.running = some ⟨o, who, seg, .blankCheck⟩ →
    s.grantedTogether .blankCheck s.ac.queue
    ∧ (∃ t ok, exec .arrayBlankCheckDone s = .next t ∧ t.pending = s.pending ∧ t.powered = s.powered
      ∧ t.resetLow = s.resetLow
      ∧ t.array = s.array
      ∧ (ok = true ↔ ∀ k, k < 2048 → s.array.read (2048 * seg + k) = 0xFF)
      ∧ t.ac.delivered = some ⟨⟨who, seg, .blankCheck⟩, if ok then .blank else .notBlank, []⟩
      ∧ t.units = blankDelivered ⟨who, seg, .blankCheck⟩ ok s.units
      ∧ t.ac.running = ArrayController.choose s.units.urgent s.ac.queue)
    ∧ ∀ r : Request, r.op.isRead = true → s.ac.accepts r = true →
      ∃ t, exec (.arrayRequest ⟨r, none⟩) s = .next t ∧ t.ac.running = s.ac.running
        ∧ t.ac.queue = s.ac.queue ++ [⟨s.ac.arrivals, r⟩]

/-! ## The link and the control actions -/

/-- WINDOW_WRITE on the link: the selection takes the status byte and starts a frame; a byte outside a frame is nothing, the
first of a frame sends the status byte back, the second 0, and each further one is read or written at its offset, which
grows by one, beyond 511 reading 0x00 and writing nothing; and a whole frame is the selection, its bytes and the end. At the
end the control action comes first, a value that names none doing nothing, and PORT_RESET discards the command; then the
last COMMAND code written is taken as its row is, 0 being none; a result delivered meanwhile waits for the end (R167 to
R169, R171 to R173, R175, R179). That the status byte is taken at the selection, and that a command row is a whole frame
with that one byte, are the model's choices (logs 8, 10); that the collision flag a frame sets itself is set before its
control action, so that ACK clears it, is read by inference (log 9). -/
def Obligations.LinkEventsMakeFrames : Prop :=
  ∀ (p : Port) (b : Byte) (bytes : List Byte) (s : State), s.running = true →
    ((s.units.port p).frame = none → (s.units.port p).outcome = none →
      exec (.windowWrite p .select) s = .next (s.withUnits (s.units.setPort p { s.units.port p with
        frame := some ⟨.first, (s.units.port p).state == .busy, false, none, none, none,
                       statusByte p s.units, []⟩ })))
    ∧ ((s.units.port p).frame = none → exec (.windowWrite p (.shift b)) s = .next s
        ∧ exec (.windowWrite p .deselect) s = .next s)
    ∧ (∀ f, (s.units.port p).frame = some f → f.phase = .first →
        exec (.windowWrite p (.shift b)) s = .next (s.withUnits (s.units.setPort p { s.units.port p with
          frame := some { f with phase := .second b, out := f.out ++ [f.status] } })))
    ∧ (∀ f b0, (s.units.port p).frame = some f → f.phase = .second b0 →
        exec (.windowWrite p (.shift b)) s = .next (s.withUnits (s.units.setPort p { s.units.port p with
          frame := some { f with
            phase := .data (b0.getLsbD 7) ((if b0.getLsbD 0 then 256 else 0) + b.toNat), out := f.out ++ [0] } })))
    ∧ ((s.units.port p).frame = none →
        exec (.windowWrite p (.frame bytes)) s
          = State.link p (.select :: bytes.map LinkEvent.shift ++ [.deselect]) s)
    -- a data byte of a write frame
    ∧ (∀ f off, (s.units.port p).frame = some f → f.phase = .data true off →
        let x := s.units.port p
        let goes (y : MasterPort) (g : Frame) : Prop := exec (.windowWrite p (.shift b)) s = .next (s.withUnits
          (s.units.setPort p { y with frame := some { g with phase := .data true (off + 1) } }))
        let stores (y : MasterPort) (g : Frame) : Prop :=
          if f.beganBusy then goes x { f with collided := true } else goes y g
        (off = 0 → stores { x with command := b } { f with command := some b })
        ∧ (off = 1 → goes x { f with control := some b })
        ∧ (off = 2 → goes x { f with enables := some b })
        ∧ (∀ g ∈ parameterFields, off = g.1 → stores { x with params := g.2 x.params b } f)
        ∧ (256 ≤ off → off < 512 → stores { x with buffer := x.buffer.set (off - 256) b } f)
        ∧ (off = 3 ∨ 12 ≤ off ∧ off < 256 ∨ 512 ≤ off → goes x f))
    -- a data byte of a read frame
    ∧ (∀ f off, (s.units.port p).frame = some f → f.phase = .data false off →
        let x := s.units.port p
        exec (.windowWrite p (.shift b)) s = .next (s.withUnits (s.units.setPort p { x with
          frame := some { f with
            phase := .data false (off + 1), out := f.out ++ [if 512 ≤ off then 0 else x.windowByte off] } })))
    -- the end of a frame
    ∧ (∀ f, (s.units.port p).frame = some f → (s.units.port p).draining = false → (s.units.port p).handOver = false →
        s.writerSteady →
        let x := s.units.port p
        let closed : MasterPort := { x with
          frame := none, lastOut := f.out, collision := x.collision || f.collided,
          enDone := match f.enables with | some e => e.getLsbD 0 | none => x.enDone,
          enNotice := match f.enables with | some e => e.getLsbD 1 | none => x.enNotice }
        let ends (y : MasterPort) : Prop := exec (.windowWrite p .deselect) s = .next (s.withUnits (s.units.setPort p y))
        let endsAs (g : Frame) : Prop := exec (.windowWrite p .deselect) s
          = exec (.windowWrite p .deselect) (s.withUnits (s.units.setPort p { x with frame := some g }))
        exec (.resultPost p) s = .next s
        ∧ (f.command = none ∨ f.command = some 0 →
            (f.control = none → ends closed)
            ∧ (f.control = some 1 → ends (match x.state with
              | .done => { closed with state := .ready, doneCause := false, collision := false }
              | .mounting => { closed with doneCause := false, collision := false }
              | _ => { closed with collision := false })))
        ∧ (f.control = some 3 → endsAs { f with command := none })
        ∧ (∀ c, f.control = some c → c ∉ [1, 2, 3] → endsAs { f with control := none })
        ∧ (∀ k, f.command = some k → k ≠ 0 → x.state ≠ .busy →
            (f.control = some 1 ∨ f.control = some 2 ∧ x.inHand = none → endsAs { f with control := none })
            ∧ (f.control = none → f.collided = false → f.out = s.statusOut p → x.command = k → x.outcome = none →
                let alone := s.withUnits (s.units.setPort p closed)
                (∀ c : Cmd, k = c.code → exec (.windowWrite p .deselect) s = exec (c.row p) alone)
                ∧ ((∀ c : Cmd, k ≠ c.code) → exec (.windowWrite p .deselect) s = exec (.unknownCommand p k) alone))))

/-- A byte written to the buffer or to a parameter field of a port that is not BUSY is stored, and nothing else
changes; at a BUSY port it is discarded and the collision flag SET; a byte written where no field is written is discarded
without one (R169, R172). -/
def Obligations.WindowWriteStoresOneByte : Prop :=
  ∀ (p : Port) (b : Byte) (s : State), Quiet p s →
    let x := s.units.port p
    (∀ k, k < 256 →
      exec (.windowWrite p (.frame [0x81, BitVec.ofNat 8 k, b])) s
        = .next (s.withUnits (s.units.setPort p
            (if x.state = .busy then { x with collision := true, lastOut := s.statusOut p }
             else { x with buffer := x.buffer.set k b, lastOut := s.statusOut p }))))
    ∧ (∀ f ∈ parameterFields,
      exec (.windowWrite p (.frame [0x80, BitVec.ofNat 8 f.1, b])) s
        = .next (s.withUnits (s.units.setPort p
            (if x.state = .busy then { x with collision := true, lastOut := s.statusOut p }
             else { x with params := f.2 x.params b, lastOut := s.statusOut p }))))
    ∧ (∀ off, off = 3 ∨ 12 ≤ off ∧ off < 256 →
      exec (.windowWrite p (.frame [0x80, BitVec.ofNat 8 off, b])) s
        = .next (s.withUnits (s.sentBack p (s.statusOut p))))

/-- A read frame sends the status byte, 0 and the byte at its offset, and changes nothing. The status byte holds the port
state at bits 7 and 6, the DONE cause, the NOTICE cause and the collision flag at bits 2 to 0; the 512 bytes of the window
are the fields at their offsets, most significant byte first, 0x00 where no field lies, and the buffer (R168, R169, R180,
R182). -/
def Obligations.WindowReadSendsBack : Prop :=
  (∀ (p : Port) (b : Byte) (s : State) (k : Nat), Quiet p s → k < 256 →
    exec (.windowWrite p (.frame [0x00, BitVec.ofNat 8 k, b])) s
      = .next (s.withUnits (s.sentBack p (s.statusOut p ++ [(s.units.port p).windowByte k])))
    ∧ exec (.windowWrite p (.frame [0x01, BitVec.ofNat 8 k, b])) s
      = .next (s.withUnits (s.sentBack p (s.statusOut p ++ [(s.units.port p).buffer.getD k 0]))))
  ∧ (∀ (p : Port) (u : Units),
    let state : BitVec 2 := match (u.port p).state with | .mounting => 0 | .ready => 1 | .busy => 2 | .done => 3
    statusByte p u = state ++ (0 : BitVec 3) ++ BitVec.ofBool (u.port p).doneCause
      ++ BitVec.ofBool (decide ((u.notices p).queue ≠ [])) ++ BitVec.ofBool (u.port p).collision)
  ∧ ∀ (x : MasterPort), x.buffer.length = 256 →
    let two (h : Half) : List Byte := [BitVec.ofNat 8 (h.toNat / 256), BitVec.ofNat 8 (h.toNat % 256)]
    let four (w : Word) : List Byte := two (BitVec.ofNat 16 (w.toNat / 65536)) ++ two (BitVec.ofNat 16 (w.toNat % 65536))
    let r := x.results
    (List.range 512).map x.windowByte
      = [x.command, 0, BitVec.ofNat 8 ((if x.enDone then 1 else 0) + (if x.enNotice then 2 else 0)), 0,
         x.params.slot, x.params.flags] ++ two x.params.key ++ [x.params.length, x.params.offset, x.params.part, x.params.source]
        ++ List.replicate 20 0
        ++ [r.code, r.recLength, r.count, r.cells, r.flags, r.lost] ++ two r.txn ++ four r.gen ++ two r.lease
        ++ [r.watchPart, r.source, r.copy] ++ List.replicate 207 0 ++ x.buffer

/-- ACK: a DONE port goes READY, a MOUNTING one loses its DONE cause, and in any state the collision flag is CLEAR, the
result fields and the buffer as they were. A write of the attention enables takes effect at the frame's end, and ATTN_N
follows it (R173). -/
def Obligations.AckAndEnablesTake : Prop :=
  ∀ (p : Port) (value : Byte) (s : State), Quiet p s →
    let x := s.units.port p
    exec (.ack p) s = .next (s.withUnits (s.units.setPort p
      (match x.state with
       | .done => { x with state := .ready, doneCause := false, collision := false, lastOut := s.statusOut p }
       | .mounting => { x with doneCause := false, collision := false, lastOut := s.statusOut p }
       | _ => { x with collision := false, lastOut := s.statusOut p })))
    ∧ ∃ t, exec (.attentionEnables p value) s = .next t
      ∧ t = s.withUnits (s.units.setPort p { x with
          enDone := value.getLsbD 0, enNotice := value.getLsbD 1, lastOut := s.statusOut p })
      ∧ (t.attnAsserted p = true ↔
          (x.doneCause = true ∧ value.getLsbD 0 = true)
          ∨ ((s.units.notices p).queue ≠ [] ∧ value.getLsbD 1 = true))

/-- CANCEL: it answers CANCELLED a BEGIN that waits, which leaves its queue, or a command whose job is on the space wait
list, which leaves the list with its pending change; the slot of a stage holds no stage then, and that of a COMMIT is OPEN
again with its lease started; otherwise the collision flag is SET and nothing else changes (R53, R88, R94, R103, R174). The
lease that starts again is counted in the model's unit of 2.5 ms (log 2). -/
def Obligations.CancelTakes : Prop :=
  ∀ (p : Port) (s : State), Quiet p s →
    let x := s.units.port p
    let collided := s.withUnits (s.units.setPort p { x with collision := true, lastOut := s.statusOut p })
    let u := s.sentBack p (s.statusOut p)
    (x.inHand = none → exec (.cancel p) s = .next collided)
    ∧ (∀ c, x.inHand = some c → c.cmd = .begin → (s.units.slot p).state = .waiting →
        exec (.cancel p) s = .next (s.withUnits
          (((setClaimQueue (s.units.slot p).part ((claimQueue (s.units.slot p).part s.units).filter (· != p)) u).setSlot
              p Slot.start).setPort p { x with outcome := some (Posting.code .cancelled), lastOut := s.statusOut p })))
    ∧ (∀ c, x.inHand = some c → c.cmd = .begin → (s.units.slot p).state ≠ .waiting →
        exec (.cancel p) s = .next collided)
    ∧ (∀ c r, x.inHand = some c → c.cmd ∈ [Cmd.write, .delete, .stageWrite, .stageDelete, .commit] →
        waitingJob p s.units = some r → r.port = p →
        let sl := s.units.slot p
        let length := (s.units.pu.shadow.part sl.part).lease
        let rest := s.units.iu.spaceWait.filter (fun w => w.port != p)
        let left (charges : List ChargeEntry) : Units := { s.units with
          iu := { s.units.iu with spaceWait := rest, charges := charges },
          ce := { s.units.ce with mode := if rest.isEmpty then .normal else .urgent } }
        let ended (v : Units) : Prop := exec (.cancel p) s = .next (s.withUnits
          (v.setPort p { x with outcome := some (Posting.code .cancelled), lastOut := s.statusOut p }))
        (r.role = .single → ended (left (s.units.iu.charges.filter (fun e => e.staged || e.port != p))))
        ∧ (∀ before e after, r.role = .stage → sl.state = .opened → s.units.iu.charges = before ++ e :: after →
            e.staged = true → e.port = p → e.key = r.key →
            (∀ g ∈ after, ¬ (g.staged = true ∧ g.port = p ∧ g.key = r.key)) →
            ended ((left (before ++ after)).setSlot p { sl with stage := none }))
        ∧ (r.role = .commit → sl.state = .committing → ended ((left s.units.iu.charges).setSlot p { sl with
            state := .opened, lease := some ⟨s.units.clock + 4 * length, s.units.clock + 3 * length, true⟩ }))
        ∧ (r.role = .commit → sl.state ≠ .committing → exec (.cancel p) s = .next (s.withUnits
            ((left s.units.iu.charges).setPort p { x with lastOut := s.statusOut p }))))
    ∧ (∀ c, x.inHand = some c → c.cmd ∈ [Cmd.write, .delete, .stageWrite, .stageDelete, .commit] →
        waitingJob p s.units = none → exec (.cancel p) s = .next collided)
    ∧ (∀ c, x.inHand = some c → c.cmd ∉ [Cmd.begin, .write, .delete, .stageWrite, .stageDelete, .commit] →
        exec (.cancel p) s = .next collided)

/-- PORT_RESET of a port none of whose work is left: the port is READY, with the values of the column "After port reset",
its watches, notices and owed RECLAIM gone, its view the default one, its edit session closed; a MOUNTING port stays
MOUNTING; nothing of another port changes. With work left the port is BUSY and draining: a READ presented is waited for and
one not presented gives up its pin; the claims of its command are withdrawn (the model's choice, log 14); its slot is taken
as R98 gives for its state, a job waiting for space ends with its pending change released, and a queued or current job
stays; a write sequence of its own stops, or goes on without a result; its posts not yet placed are gone. A PORT_RESET while
it drains repeats the settings, and the drain goes on (R36, R48, R53, R73, R98, R155, R156, R179). That a PORT_RESET while
MOUNTING sets the view from the shadow held (log 59), that claims of the port not yet taken are withdrawn (log 14), and that
a READ pinned and not yet presented is dropped with an UNPIN at once (log 60) are the model's choices. -/
def Obligations.PortResetTakes : Prop :=
  (∀ (p : Port) (s : State), Quiet p s → NoWork p s →
    ∃ u, exec (.portReset p) s = .next (s.withUnits u)
      ∧ u.port p = { s.units.port p with
          state := if (s.units.port p).state = .mounting then .mounting else .ready,
          command := 0, results := Results.zero, inHand := none, outcome := none, doneCause := false, collision := false,
          enDone := true, enNotice := true, lastOut := s.statusOut p }
      ∧ u.notices p = ⟨[], [], false, 0⟩
      ∧ u.pu.views.get p = s.units.pu.shadow.viewFor p
      ∧ (∀ staged, s.units.pu.session = .opened p staged → u.pu.session = .none)
      ∧ u.ce.owed = s.units.ce.owed.filter (· != p)
      ∧ (∀ q, q ≠ p → u.port q = s.units.port q ∧ u.notices q = s.units.notices q
          ∧ u.pu.views.get q = s.units.pu.views.get q)
      ∧ (∀ q, u.slot q = s.units.slot q) ∧ u.rw = s.units.rw ∧ u.me = s.units.me
      ∧ u.iu.entries = s.units.iu.entries ∧ u.iu.segs = s.units.iu.segs ∧ u.iu.charges = s.units.iu.charges)
  -- with work left, the Writer having a job or the slot giving it none
  ∧ (∀ (p : Port) (s : State), Quiet p s → (s.units.port p).state ≠ .mounting →
    let x := s.units.port p
    let sl := s.units.slot p
    let iu := s.units.iu
    let waits := waitingJob p s.units
    let charging := chargeOut p s.units
    s.units.rw.cur ≠ none ∨ sl.state ∈ [SlotState.none, .waiting, .ended]
      ∨ (sl.state = .aborting ∧ charging = false) ∨ (sl.state = .committing ∧ waits = none ∧ charging = false) →
    let aborted : Slot := { sl with state := .aborting, lease := none, reason := none, pending := none, reply := none }
    let clean : List Job := s.units.rw.queue ++ [.abortClean p]
    let unpins (v : Units) := v.iu.claims.filter fun m =>
      m.src == .port p && (match m.body with | .unpin _ => true | _ => false)
    let rest := iu.spaceWait.filter (fun w => w.port != p)
    ∃ u, exec (.portReset p) s = .next (s.withUnits u)
      ∧ (let y := u.port p
         y.command = 0 ∧ y.results = Results.zero ∧ y.inHand = none ∧ y.outcome = none ∧ y.doneCause = false
         ∧ y.collision = false ∧ y.enDone = true ∧ y.enNotice = true ∧ y.params = x.params ∧ y.buffer = x.buffer
         ∧ (let ended := y.stale = none ∧ hasRecordJob p u = false ∧ (u.slot p).state = .none
              ∧ ∀ staged w, u.pu.session ≠ .committing p staged w
            (ended → y.state = .ready ∧ y.draining = false) ∧ (¬ ended → y.state = .busy ∧ y.draining = true)))
      -- the read path
      ∧ (∀ c r, x.inHand = some c → c.work = .reading r →
          (∀ q, x.io = ⟨some q, true⟩ → (u.port p).stale = some q ∧ unpins u = unpins s.units)
          ∧ (∀ q, x.io = ⟨some q, false⟩ →
              (u.port p).stale = x.stale ∧ unpins u = unpins s.units ++ [⟨.port p, .unpin r.loc.seg⟩])
          ∧ (x.io.want = none → (u.port p).stale = x.stale ∧ unpins u = unpins s.units))
      -- the claims of the command
      ∧ (∀ m ∈ u.iu.claims, m.src = .port p ∨ m.src = .txn p →
          match m.body with | .lookup _ _ _ | .range _ _ | .pin _ | .charge _ _ _ _ => False | _ => True)
      -- the slot, and the Writer
      ∧ u.rw.cur = s.units.rw.cur
      ∧ (sl.state = .none → (u.slot p).state = .none ∧ u.rw.queue = s.units.rw.queue)
      ∧ (sl.state = .waiting → u.slot p = Slot.start ∧ u.rw.queue = s.units.rw.queue
          ∧ (sl.part < s.units.tm.queues.length →
              claimQueue sl.part u = (claimQueue sl.part s.units).filter (· != p)))
      ∧ (sl.state = .ended → u.slot p = Slot.start ∧ u.rw.queue = s.units.rw.queue)
      ∧ (sl.state = .opened → u.rw.queue = clean
          ∧ u.slot p = { aborted with
              stage := if charging = true ∨ (∃ r, waits = some r ∧ r.role = .stage) then none else sl.stage })
      ∧ (sl.state = .committing → charging = false →
          (waits = none → u.slot p = sl ∧ u.rw.queue = s.units.rw.queue)
          ∧ (∀ r, waits = some r → r.role = .commit → u.slot p = aborted ∧ u.rw.queue = clean))
      ∧ (sl.state = .aborting →
          (charging = false → u.slot p = aborted ∧ u.rw.queue = s.units.rw.queue)
          ∧ (charging = true → u.slot p = { aborted with stage := none } ∧ u.rw.queue = clean))
      -- the space wait list and the charge record
      ∧ (waits = none → u.iu.spaceWait = iu.spaceWait ∧ u.iu.charges = iu.charges)
      ∧ (∀ r, waits = some r →
          (r.role = .single → u.iu.spaceWait = rest ∧ u.iu.charges = iu.charges.filter (fun e => e.staged || e.port != p))
          ∧ (∀ before e after, r.role = .stage → sl.state = .opened → iu.charges = before ++ e :: after →
              e.staged = true → e.port = p → e.key = r.key →
              (∀ g ∈ after, ¬ (g.staged = true ∧ g.port = p ∧ g.key = r.key)) →
              u.iu.spaceWait = rest ∧ u.iu.charges = before ++ after)
          ∧ (r.role = .commit → sl.state = .committing → u.iu.spaceWait = rest ∧ u.iu.charges = iu.charges))
      ∧ u.iu.entries = iu.entries ∧ u.iu.segs = iu.segs ∧ u.iu.commitSet = iu.commitSet
      -- the Policy Unit, the engine and the Notice Unit
      ∧ u.pu.views.get p = s.units.pu.shadow.viewFor p
      ∧ (∀ staged, s.units.pu.session = .opened p staged → u.pu.session = .none)
      ∧ (∀ q staged w, q ≠ p → s.units.pu.session = .opened q staged ∨ s.units.pu.session = .committing q staged w →
          u.pu.session = s.units.pu.session)
      ∧ (∀ staged w, s.units.pu.session = .committing p staged w →
          (∀ t, w.step = .valid t → t ≠ 1 ∨ s.units.pu.io.presented = true →
            u.pu.session = .committing p staged { w with noResult := true })
          ∧ ((∀ t, w.step ≠ .valid t) → s.units.pu.io.presented = true →
            u.pu.session = .committing p staged { w with stopping := true })
          ∧ ((∀ t, w.step ≠ .valid t) ∨ w.step = .valid 1 → s.units.pu.io.presented = false →
            u.pu.session = .none ∧ u.pu.io = ⟨none, false⟩))
      ∧ u.ce.owed = s.units.ce.owed.filter (· != p)
      ∧ u.notices p = ⟨[], [], false, 0⟩ ∧ u.nu.posts = s.units.nu.posts.filter (fun x => x.dest != .one p)
      ∧ (∀ q, q ≠ p → u.port q = s.units.port q ∧ u.slot q = s.units.slot q ∧ u.notices q = s.units.notices q
          ∧ u.pu.views.get q = s.units.pu.views.get q))
  -- an idle Writer takes the clean at once
  ∧ (∀ (p : Port) (s : State) (m : Member) (ms : List Member), Quiet p s → (s.units.port p).state ≠ .mounting →
    let sl := s.units.slot p
    sl.state = .opened → s.units.rw.cur = none → sl.members = m :: ms → sl.stage = none → chargeOut p s.units = false →
    waitingJob p s.units = none →
    ∃ u, exec (.portReset p) s = .next (s.withUnits u)
      ∧ u.slot p = { sl with state := .aborting, lease := none, reason := none, pending := none, reply := none }
      ∧ (u.port p).state = .busy ∧ (u.port p).draining = true
      ∧ u.rw = { s.units.rw with
          queue := [], cur := some ⟨.abortClean p, .retiring (.aborted 0) m.loc 0 1, [m.loc]⟩,
          io := ⟨some ⟨.writer, m.loc.seg, .program m.loc.cell (0xEF :: List.replicate 15 0xFF)⟩, false⟩ })
  -- while it drains
  ∧ ∀ (p : Port) (s : State), s.running = true → (s.units.port p).frame = none → (s.units.port p).outcome = none →
    (s.units.port p).handOver = false → s.writerSteady → (s.units.port p).draining = true →
    workEnded p s.units = false →
    ∃ u, exec (.portReset p) s = .next (s.withUnits u)
      ∧ u.port p = { s.units.port p with
          command := 0, results := Results.zero, inHand := none, outcome := none, doneCause := false, collision := false,
          enDone := true, enNotice := true, lastOut := s.statusOut p }
      ∧ u.notices p = ⟨[], [], false, 0⟩ ∧ u.pu.views.get p = s.units.pu.shadow.viewFor p
      ∧ u.pu.session = s.units.pu.session ∧ u.tm = s.units.tm ∧ u.rw = s.units.rw ∧ u.iu = s.units.iu ∧ u.ce = s.units.ce

/-- RESULT_POST between frames: the output fields are written, the others of the window cleared, the bytes laid from offset
0 of the buffer, the DONE cause TRUE, the port DONE (R175); within a frame, or with no outcome, nothing. That posting is
this row is the model's choice (log 11). -/
def Obligations.ResultPostTakes : Prop :=
  ∀ (p : Port) (s : State), s.running = true →
    let x := s.units.port p
    (∀ o, x.outcome = some o → x.frame = none →
      exec (.resultPost p) s = .next (s.withUnits (s.units.setPort p { x with
        state := .done, doneCause := true, results := o.fields,
        buffer := o.data.take 256 ++ x.buffer.drop (min 256 o.data.length), inHand := none, outcome := none })))
    ∧ (x.outcome = none → exec (.resultPost p) s = .next s)
    ∧ (x.frame ≠ none → exec (.resultPost p) s = .next s)

/-- A port that takes no command: a MOUNTING one answers at once and stays MOUNTING, INFO with the record of R122, any other
command NOT_READY, a code outside the table UNKNOWN_COMMAND; a BUSY one discards the code and sets the collision flag
(R122, R171, R172). That the answer of a MOUNTING port leaves its collision flag CLEAR is read by inference (log 38). -/
def Obligations.MountingAndBusyPorts : Prop :=
  ∀ (p : Port) (s : State), Quiet p s →
    let x := s.units.port p
    let posted (code : Byte) (o : Posting) : State := s.withUnits (s.units.setPort p { x with
      command := code, results := o.fields, buffer := o.data ++ x.buffer.drop o.data.length, doneCause := true,
      collision := false, inHand := none, lastOut := s.statusOut p })
    let collided : State := s.withUnits (s.units.setPort p { x with collision := true, lastOut := s.statusOut p })
    (x.state = .mounting →
      (∀ c : Cmd, c ≠ .info → exec (c.row p) s = .next (posted c.code (Posting.code .notReady)))
      ∧ exec (.info p) s = .next (posted Cmd.info.code
          ⟨(Posting.code .ok).fields, [2, s.units.me.phase.byte, 0, 0] ++ toBytes 2 s.units.me.rolled
            ++ toBytes 2 s.units.me.discarded ++ toBytes 2 s.units.me.faults ++ List.replicate 21 0⟩)
      ∧ ∀ code, (Instr.unknownCommand p code).wf = true →
          exec (.unknownCommand p code) s = .next (posted code (Posting.code .unknownCommand)))
    ∧ (x.state = .busy →
      (∀ c : Cmd, exec (c.row p) s = .next collided) ∧ ∀ code, exec (.unknownCommand p code) s = .next collided)

/-! ## The commands of a port -/

/-- A code outside the table is taken and answered UNKNOWN_COMMAND; and the tests of a command in their order, each with its
result code, posted at once: bound slot, right or authority, lock, range (R143, R176). That a command row is a whole frame
with that one byte, and that the checks fall in the step of the command, are the model's choices (logs 8, 12). -/
def Obligations.CommandsAreCheckedInOrder : Prop :=
  (∀ (p : Port) (code : Byte) (s : State), Taking p s → (Instr.unknownCommand p code).wf = true →
    exec (.unknownCommand p code) s = .next (s.withUnits (s.units.setPort p { s.units.port p with
      state := .busy, doneCause := false, collision := false, command := code, inHand := none,
      outcome := some (Posting.code .unknownCommand), lastOut := s.statusOut p })))
  ∧ ∀ (c : Cmd) (p : Port) (s : State), Taking p s →
    let q := (s.units.port p).params
    let sh := s.units.pu.shadow
    let refused (e : ResultCode) : Prop := exec (c.row p) s = .next (s.withUnits (s.answered p c (Posting.code e)))
    let reads := c ∈ [Cmd.read, .stat, .list, .watch]
    let writes := c ∈ [Cmd.write, .delete, .begin, .stageWrite, .stageDelete]
    (reads ∨ writes ∨ c = .freeze → resolve p q.slot s.units = none → refused .unbound)
    ∧ (∀ part, resolve p q.slot s.units = some part →
        (reads → sh.mayRead p part = false → refused .denied)
        ∧ (writes ∨ c = .freeze → sh.mayWrite p part = false → refused .denied)
        ∧ (writes → sh.mayWrite p part = true → lockOf s.units part ≠ .opened → refused .locked))
    ∧ (c ∈ [Cmd.policyLoad, .policyCommit, .policyDiscard, .reclaim] → sh.authority p = false → refused .denied)
    ∧ (∀ part, admitted c p part s → outOfRange c q → refused .badParam)

/-- READ and STAT: of a key the port's own open transaction does not hold, a LOOKUP; of a staged WRITE, a PIN or the outputs
of the member; of a staged DELETE, NOT_FOUND (R90, R177). -/
def Obligations.ReadAndStatBegin : Prop :=
  ∀ (p : Port) (part : Nat) (s : State),
    let k := (s.units.port p).params.key.toNat
    let own (m : Member) : Prop := (s.units.slot p).state = .opened ∧ (s.units.slot p).part = part
      ∧ (s.units.slot p).members.find? (fun m => m.key == k) = some m
    (Passing .read p part s →
      ((∀ m, ¬ own m) →
        exec (.read p) s
          = .next (s.withUnits (present (.port p) (.lookup part k true) (s.takingAt p .read (.lookup part k)))))
      ∧ (∀ m, own m → m.op = .write →
        exec (.read p) s
          = .next (s.withUnits (present (.txn p) (.pin m.loc)
              (s.takingAt p .read (.pinning ⟨part, k, m.loc, m.length, m.gen, m.cells, true⟩)))))
      ∧ (∀ m, own m → m.op = .delete →
        exec (.read p) s = .next (s.withUnits (s.answered p .read (Posting.code .notFound)))))
    ∧ (Passing .stat p part s →
      ((∀ m, ¬ own m) →
        exec (.stat p) s
          = .next (s.withUnits (present (.port p) (.lookup part k false) (s.takingAt p .stat (.lookup part k)))))
      ∧ (∀ m, own m → m.op = .write →
        exec (.stat p) s
          = .next (s.withUnits (s.answered p .stat ⟨{ Results.zero with
              code := 0x01, recLength := BitVec.ofNat 8 m.length, gen := BitVec.ofNat 32 m.gen,
              cells := BitVec.ofNat 8 m.cells, flags := 1 }, []⟩)))
      ∧ (∀ m, own m → m.op = .delete →
        exec (.stat p) s = .next (s.withUnits (s.answered p .stat (Posting.code .notFound)))))

/-- WRITE and DELETE: refused IN_TXN to the holder of the partition's claim and HELD to another port; otherwise a CHARGE for
1 + ceil(length/16) cells (R10, R42, R76). -/
def Obligations.WriteAndDeleteBegin : Prop :=
  ∀ (p : Port) (part : Nat) (s : State),
    let q := (s.units.port p).params
    let holds (h : Port) : Prop := (s.units.slot h).part = part
      ∧ ((s.units.slot h).state = .opened ∨ (s.units.slot h).state = .committing ∨ (s.units.slot h).state = .aborting)
    (Passing .write p part s →
      ((∀ h, ¬ holds h) → exec (.write p) s = .next (s.withUnits
        (present (.port p) (.charge part q.key.toNat .write (1 + (q.length.toNat + 15) / 16))
          (s.takingAt p .write (.charging part)))))
      ∧ (∀ h, holds h → (∀ g, holds g → g = h) → exec (.write p) s = .next (s.withUnits
          (s.answered p .write (Posting.code (if h = p then .inTxn else .held))))))
    ∧ (Passing .delete p part s →
      ((∀ h, ¬ holds h) → exec (.delete p) s = .next (s.withUnits
        (present (.port p) (.charge part q.key.toNat .delete 1) (s.takingAt p .delete (.charging part)))))
      ∧ (∀ h, holds h → (∀ g, holds g → g = h) → exec (.delete p) s = .next (s.withUnits
          (s.answered p .delete (Posting.code (if h = p then .inTxn else .held))))))

/-- BEGIN: in a slot NONE or ENDED of an unclaimed partition it is granted, with the first number from the counter on, 1
after 65,535, that is not in use, a lease of the length in the shadow and an empty member list; of a claimed one it waits,
if it asks to and the port's wait limit is not 0, or is HELD; in another slot state it is refused IN_TXN (R75 to R82). The
clock counts quarters of 10 ms (log 2). The clock's unit of 2.5 ms is the model's choice (log 2). -/
def Obligations.BeginTakes : Prop :=
  ∀ (p : Port) (part : Nat) (s : State), Passing .begin p part s →
    let sl := s.units.slot p
    let length := (s.units.pu.shadow.part part).lease
    let limit := (s.units.pu.shadow.ports.get p).waitLimit
    let unclaimed := ∀ h, ¬ (s.units.slot h).holds part = true
    let free := sl.state = .none ∨ sl.state = .ended
    let waits := (s.units.port p).params.flags.getLsbD 1 = true ∧ 0 < limit
    (free → unclaimed →
      ∃ n u, exec (.begin p) s = .next (s.withUnits u)
        ∧ (numberInUse p s.units.tm.counter s.units = false → n = s.units.tm.counter)
        ∧ s.units.firstFreeNumber (fun q => q ≠ p) n
        ∧ u.slot p = { Slot.start with
            state := .opened, part := part, number := n,
            lease := some ⟨s.units.clock + 4 * length, s.units.clock + 3 * length, true⟩ }
        ∧ u.tm.counter = (if 65535 ≤ n then 1 else n + 1)
        ∧ u.port p = (s.answered p .begin ⟨{ Results.zero with
            code := 0x01, txn := BitVec.ofNat 16 n, lease := BitVec.ofNat 16 length }, []⟩).port p
        ∧ (∀ q, q ≠ p → u.slot q = s.units.slot q ∧ u.port q = s.units.port q)
        ∧ u.tm.queues = s.units.tm.queues ∧ u.iu = s.units.iu ∧ u.rw = s.units.rw ∧ u.pu = s.units.pu
        ∧ u.nu = s.units.nu ∧ u.ce = s.units.ce)
    ∧ (free → ¬ unclaimed → waits →
      exec (.begin p) s = .next (s.withUnits
        (setClaimQueue part (claimQueue part s.units ++ [p]) ((s.taking p .begin).setSlot p { Slot.start with
          state := .waiting, part := part, waitUntil := some (s.units.clock + 4 * limit) }))))
    ∧ (free → ¬ unclaimed → ¬ waits →
      exec (.begin p) s = .next (s.withUnits
        ((s.answered p .begin (Posting.code .held)).setSlot p (if sl.state = .ended then Slot.start else sl))))
    ∧ (¬ free → exec (.begin p) s = .next (s.withUnits (s.answered p .begin (Posting.code .inTxn))))

/-- STAGE_WRITE and STAGE_DELETE in OPEN, where no end is due to the transaction: WRONG_PARTITION, then TXN_FULL for a 17th
member, then a CHARGE, the stage noted in the slot (R86). That a stage finds the slot OPEN until the lock event of another
port's FREEZE, or of an apply point, is taken is the model's choice (log 53). -/
def Obligations.StageTakes : Prop :=
  ∀ (p : Port) (part : Nat) (s : State),
    let q := (s.units.port p).params
    let sl := s.units.slot p
    let full := (∀ m ∈ sl.members, m.key ≠ q.key.toNat) ∧ 16 ≤ sl.members.length
    sl.state = .opened → ¬ s.units.frozenByOwn p → ¬ s.units.revoked p →
    (Passing .stageWrite p part s →
      (sl.part ≠ part →
        exec (.stageWrite p) s = .next (s.withUnits (s.answered p .stageWrite (Posting.code .wrongPartition))))
      ∧ (sl.part = part → full →
        exec (.stageWrite p) s = .next (s.withUnits (s.answered p .stageWrite (Posting.code .txnFull))))
      ∧ (sl.part = part → ¬ full →
        exec (.stageWrite p) s = .next (s.withUnits
          (present (.txn p) (.charge part q.key.toNat .stageWrite (1 + (q.length.toNat + 15) / 16))
            ((s.taking p .stageWrite).setSlot p { sl with stage := some ⟨.stageWrite, q.key.toNat⟩ })))))
    ∧ (Passing .stageDelete p part s →
      (sl.part ≠ part →
        exec (.stageDelete p) s = .next (s.withUnits (s.answered p .stageDelete (Posting.code .wrongPartition))))
      ∧ (sl.part = part → full →
        exec (.stageDelete p) s = .next (s.withUnits (s.answered p .stageDelete (Posting.code .txnFull))))
      ∧ (sl.part = part → ¬ full →
        exec (.stageDelete p) s = .next (s.withUnits
          (present (.txn p) (.charge part q.key.toNat .stageDelete 1)
            ((s.taking p .stageDelete).setSlot p { sl with stage := some ⟨.stageDelete, q.key.toNat⟩ })))))

/-- COMMIT and ABORT in OPEN: the lease stops; a COMMIT without members or stage in flight is answered OK and the claim
passes on, to the oldest waiter if there is one, whose BEGIN is granted, those that an event has shut out answered first
(log 66), and an engine in its sweep repeats it; otherwise the slot goes COMMITTING or ABORTING and its job joins the
Writer's queue, or is begun by a Writer without a job, which aborts a COMMIT that finds the generations used up (R57, R79,
R92, R94, R95, R114, log 50). A transaction command other than BEGIN that is taken after the port's own FREEZE of the
partition, or after the apply point of a policy that took away the right or the partition, finds the transaction LOCKED or
revoked: the event is taken whole before its own row, the slot is ABORTING, with CLAIM_LOST posted and the command to be
answered at its end, every other transaction the event concerns is aborted and every waiter it concerns answered, and the
event is gone from its list (R75, R80, R84, R96, R97, R147; that it is taken whole there is the model's choice, logs 53 and
66). That COMMIT and ABORT find the slot OPEN until the lock event of another port's FREEZE, or of an apply point, is taken
is the model's choice, and that an own FREEZE's end is due before a revocation's is its reading (log 53); that the event is
taken whole ahead of its row, and that a released claim passes to no waiter an event has shut out, are the model's choices
(log 66), and so is the order of several ports (log 46); the clock's unit of 2.5 ms is the model's choice (log 2). -/
def Obligations.CommitAndAbortTake : Prop :=
  ∀ (p : Port) (s : State),
    let sl := s.units.slot p
    let job : Job := .record ⟨p, .commit, .commit, sl.part, sl.members.length, 0, sl.number, [], none, 0⟩
    let undue := ¬ s.units.frozenByOwn p ∧ ¬ s.units.revoked p
    sl.state = .opened →
    (∀ (c : Cmd) (part : Nat), c ∈ [Cmd.commit, .abort, .renew, .stageWrite, .stageDelete] → Passing c p part s →
      s.units.queued →
      -- the event taken, giving `v`, the command waits for the end of the abort
      let holds (v : Units) : Prop :=
        exec (c.row p) s = .next (s.withUnits (kick (v.setSlot p { v.slot p with pending := some c })))
      (s.units.frozenByOwn p → (∀ g, (s.units.slot g).holds sl.part = true → g = p) →
        ∃ v, (s.taking p c).LockTaken sl.part v ∧ holds v
          ∧ v.tm.lockEvents = s.units.tm.lockEvents.erase ⟨sl.part, some p⟩ ∧ v.tm.revocations = s.units.tm.revocations)
      ∧ (¬ s.units.frozenByOwn p → ∀ before r after, s.units.tm.revocations = before ++ r :: after →
        (∀ x ∈ before, s.units.hitBy p x = false) → s.units.hitBy p r = true →
        ∃ v, (s.taking p c).RevocationTaken r v ∧ holds v
          ∧ v.tm.lockEvents = s.units.tm.lockEvents ∧ v.tm.revocations = before ++ after))
    ∧ (Passing .commit p 0 s → undue →
      (sl.members = [] → sl.stage = none →
        ∃ v, ((s.answered p .commit (Posting.code .ok)).setSlot p Slot.start).Released sl.part v
          ∧ exec (.commit p) s = .next (s.withUnits v))
      ∧ (¬ (sl.members = [] ∧ sl.stage = none) → s.units.rw.cur ≠ none →
        exec (.commit p) s = .next (s.withUnits
          (sendJob job ((s.taking p .commit).setSlot p { sl with state := .committing, lease := none }))))
      ∧ (¬ (sl.members = [] ∧ sl.stage = none) → s.units.rw.cur = none → s.units.rw.gen < 4294967294 →
        exec (.commit p) s = .next (s.withUnits
          (present .writer (.allocate 1)
            (((s.taking p .commit).setSlot p { sl with state := .committing, lease := none }).setRw { s.units.rw with
              gen := s.units.rw.gen + 1, queue := [],
              cur := some ⟨.record ⟨p, .commit, .commit, sl.part, sl.members.length, 0, sl.number, [],
                some s.units.rw.gen, 0⟩, .allocating, []⟩ }))))
      ∧ (¬ (sl.members = [] ∧ sl.stage = none) → s.units.rw.cur = none → 4294967294 ≤ s.units.rw.gen →
        exec (.commit p) s = .next (s.withUnits (kick
          (((s.taking p .commit).setSlot p { sl with
            state := .aborting, lease := none, reply := some .genExhausted }).setRw { s.units.rw with
              queue := [.abortClean p], cur := none, io := ⟨none, false⟩ })))))
    ∧ (Passing .abort p 0 s → undue →
      let aborting : Slot := { sl with state := .aborting, lease := none, reply := some .ok }
      (s.units.rw.cur ≠ none →
        exec (.abort p) s = .next (s.withUnits (sendJob (.abortClean p) ((s.taking p .abort).setSlot p aborting))))
      ∧ (s.units.rw.cur = none → ∀ m ms, sl.members = m :: ms →
        exec (.abort p) s = .next (s.withUnits (((s.taking p .abort).setSlot p aborting).setRw { s.units.rw with
          queue := [],
          cur := some ⟨.abortClean p, .retiring (.aborted 0) m.loc 0 1, [m.loc]⟩,
          io := ⟨some ⟨.writer, m.loc.seg, .program m.loc.cell (0xEF :: List.replicate 15 0xFF)⟩, false⟩ })))
      ∧ (s.units.rw.cur = none → sl.members = [] →
        exec (.abort p) s = .next (s.withUnits (present (.txn p) (.release (.members p))
          (((s.taking p .abort).setSlot p { aborting with holdMoves := true }).setRw
            { s.units.rw with queue := [], cur := none, io := ⟨none, false⟩ })))))

/-- RENEW in OPEN, where no end is due to the transaction, starts the lease again; a transaction command other than BEGIN in
a slot that is not OPEN is answered NO_TXN, or with the end reason of an ENDED slot, which goes NONE, or waits for the abort
under way, or IN_TXN (R75, R83). The clock's unit of 2.5 ms is the model's choice (log 2); that a transaction command in a
slot state no command reaches is answered IN_TXN is read by inference (log 33); that RENEW finds OPEN until the lock event
of another port's FREEZE, or of an apply point, is taken is the model's choice (log 53). -/
def Obligations.RenewAndCommandsOutsideOpen : Prop :=
  ∀ (c : Cmd) (p : Port) (part : Nat) (s : State), c ∈ [Cmd.stageWrite, .stageDelete, .commit, .abort, .renew] →
    Passing c p part s →
    let sl := s.units.slot p
    let length := (s.units.pu.shadow.part sl.part).lease
    (c = .renew → sl.state = .opened →
      ¬ s.units.frozenByOwn p → ¬ s.units.revoked p →
      exec (.renew p) s = .next (s.withUnits ((s.answered p .renew ⟨{ Results.zero with
        code := 0x01, lease := BitVec.ofNat 16 length }, []⟩).setSlot p { sl with
          lease := some ⟨s.units.clock + 4 * length, s.units.clock + 3 * length, true⟩ })))
    ∧ (sl.state = .none → exec (c.row p) s = .next (s.withUnits (s.answered p c (Posting.code .noTxn))))
    ∧ (∀ r, sl.state = .ended → sl.reason = some r →
        exec (c.row p) s = .next (s.withUnits ((s.answered p c (Posting.code
          (match r with | .expired => .expired | .locked => .locked | .revoked => .aborted))).setSlot p Slot.start)))
    ∧ (∀ r, sl.state = .aborting → sl.reason = some r →
        exec (c.row p) s = .next (s.withUnits ((s.taking p c).setSlot p { sl with pending := some c })))
    ∧ (sl.state = .committing ∨ sl.state = .aborting ∧ sl.reason = none →
        exec (c.row p) s = .next (s.withUnits (s.answered p c (Posting.code .inTxn))))

/-- BIND: the first case of R145 that applies decides, and nothing but the slot named changes. FREEZE: an OPEN partition goes
FROZEN and a lock event of that port is sent; a FROZEN or FIXED one stays; OK in each case (R145, R147). -/
def Obligations.BindAndFreezeTake : Prop :=
  (∀ (p : Port) (s : State), Taking p s →
    let q := (s.units.port p).params
    let legal := q.slot.toNat ≤ 3 ∧ (q.part.toNat ≤ 15 ∨ q.part = 0xFF)
    let claimed := ∃ part, resolve p q.slot s.units = some part ∧ (s.units.slot p).part = part
      ∧ ((s.units.slot p).state = .opened ∨ (s.units.slot p).state = .committing ∨ (s.units.slot p).state = .aborting)
    let unreadable := q.part ≠ 0xFF ∧ s.units.pu.shadow.mayRead p q.part.toNat = false
    let answered (c : ResultCode) : State := s.withUnits (s.answered p .bind (Posting.code c))
    (¬ legal → exec (.bind p) s = .next (answered .badParam))
    ∧ (legal → claimed → exec (.bind p) s = .next (answered .inTxn))
    ∧ (legal → ¬ claimed → unreadable → exec (.bind p) s = .next (answered .denied))
    ∧ (legal → ¬ claimed → ¬ unreadable →
        exec (.bind p) s = .next (s.withUnits ((s.answered p .bind (Posting.code .ok)).setPu { s.units.pu with
          views := s.units.pu.views.set p ((s.units.pu.views.get p).setAt q.slot.toNat
            (if q.part = 0xFF then none else some q.part.toNat)) }))))
  ∧ ∀ (p : Port) (part : Nat) (s : State), Passing .freeze p part s →
    let ok := s.answered p .freeze (Posting.code .ok)
    (lockOf s.units part = .opened →
      exec (.freeze p) s = .next (s.withUnits { ok with
        pu := { s.units.pu with locks := s.units.pu.locks.set part .frozen },
        tm := { s.units.tm with lockEvents := s.units.tm.lockEvents ++ [⟨part, some p⟩] } }))
    ∧ (lockOf s.units part ≠ .opened → exec (.freeze p) s = .next (s.withUnits ok))

/-- WATCH: a watch already held is OK, a ninth is WATCH_FULL, another is added; OK gives the partition. NOTICE_POP: the oldest
notice is removed and returned with the notices remaining and the overflow state as it stands; an empty queue returns the
overflow state and clears it; and the 16 bytes of a notice, a field its kind does not use at its none value (R157, R163,
section 11.2). -/
def Obligations.WatchAndPopTake : Prop :=
  (∀ (p : Port) (part : Nat) (s : State), Passing .watch p part s →
    let q := (s.units.port p).params
    let w : Watch := ⟨part, if q.flags.getLsbD 0 then none else some q.key.toNat⟩
    let n := s.units.notices p
    let ok := s.answered p .watch ⟨{ Results.zero with code := 0x01, watchPart := BitVec.ofNat 8 part }, []⟩
    (w ∈ n.watches → exec (.watch p) s = .next (s.withUnits ok))
    ∧ (w ∉ n.watches → 8 ≤ n.watches.length →
        exec (.watch p) s = .next (s.withUnits (s.answered p .watch (Posting.code .watchFull))))
    ∧ (w ∉ n.watches → n.watches.length < 8 →
        exec (.watch p) s = .next (s.withUnits (ok.setNotices p { n with watches := n.watches ++ [w] }))))
  ∧ (∀ (p : Port) (s : State), Taking p s →
    let n := s.units.notices p
    let overflow : Byte := if n.overflow then 8 else 0
    (∀ x rest, n.queue = x :: rest →
      exec (.noticePop p) s = .next (s.withUnits ((s.answered p .noticePop ⟨{ Results.zero with
        code := 0x01, count := BitVec.ofNat 8 rest.length, flags := 4 ||| overflow,
        lost := BitVec.ofNat 8 n.lost }, x.bytes⟩).setNotices p { n with queue := rest })))
    ∧ (n.queue = [] →
      exec (.noticePop p) s = .next (s.withUnits ((s.answered p .noticePop ⟨{ Results.zero with
        code := 0x01, count := 0, flags := overflow, lost := BitVec.ofNat 8 n.lost }, []⟩).setNotices p
          { n with overflow := false, lost := 0 }))))
  ∧ ∀ n : Notice,
    let one (v : Nat) : List Byte := [BitVec.ofNat 8 v]
    let two (v : Nat) : List Byte := [BitVec.ofNat 8 (v / 256), BitVec.ofNat 8 (v % 256)]
    let gen := n.gen.getD 0
    n.bytes
      = one (match n.kind with
          | .keyChanged => 0x01 | .claimLost => 0x02 | .leaseWarning => 0x03 | .spaceLow => 0x04
          | .policyChanged => 0x05 | .policyDefaulted => 0x06 | .integrity => 0x07)
        ++ one (n.part.getD 0xFF) ++ two (n.key.getD 0xFFFF) ++ two (gen / 65536) ++ two (gen % 65536)
        ++ two (n.txn.getD 0)
        ++ one (match n.source with | none => 0xFF | some .a => 0x00 | some .b => 0x01 | some .c => 0x02 | some .d => 0x03)
        ++ one (n.seg.getD 0xFF)
        ++ one (match n.reason with
          | none => 0x00 | some .updated => 0x01 | some .deleted => 0x02 | some .expired => 0x03 | some .locked => 0x04
          | some .revoked => 0x05 | some .suspect => 0x06 | some .bad => 0x07 | some .lost => 0x08 | some .policy => 0x09)
        ++ one n.count ++ [0, 0]

/-- UNWATCH: BAD_PARAM for a partition or key out of range; OK and exactly the watch named removed when the table holds it;
otherwise NOT_FOUND and the table unchanged; no view slot, no right, and the queue as it was (R158). -/
def Obligations.UnwatchTakes : Prop :=
  ∀ (p : Port) (s : State), Taking p s →
    let q := (s.units.port p).params
    let all := q.flags.getLsbD 0
    let w : Watch := ⟨q.part.toNat, if all then none else some q.key.toNat⟩
    let n := s.units.notices p
    let bad := 15 < q.part.toNat ∨ (all = false ∧ q.key = 0xFFFF)
    (bad → exec (.unwatch p) s = .next (s.withUnits (s.answered p .unwatch (Posting.code .badParam))))
    ∧ (¬ bad → w ∈ n.watches →
        exec (.unwatch p) s = .next (s.withUnits
          ((s.answered p .unwatch (Posting.code .ok)).setNotices p { n with watches := n.watches.erase w })))
    ∧ (¬ bad → w ∉ n.watches →
        exec (.unwatch p) s = .next (s.withUnits (s.answered p .unwatch (Posting.code .notFound))))

/-- POLICY_READ, POLICY_LOAD and POLICY_DISCARD by the state of the edit session (R148 to R150). -/
def Obligations.EditSessionCommands : Prop :=
  ∀ (p : Port) (s : State),
    let session := s.units.pu.session
    let source := (s.units.port p).params.source
    let image := (s.units.port p).buffer.take 176
    let held := (∃ q staged, session = .opened q staged ∧ q ≠ p) ∨ ∃ q staged w, session = .committing q staged w
    let mine := session = .none ∨ ∃ staged, session = .opened p staged
    let outputs (bytes : List Byte) : Posting := ⟨{ Results.zero with
      code := 0x01, source := (match s.units.pu.source with | .loaded => 0 | .defaulted => 1),
      copy := (match s.units.pu.inForce with | some n => BitVec.ofNat 8 n | none => 0xFF) }, bytes⟩
    (Passing .policyRead p 0 s →
      (source = 0 → exec (.policyRead p) s
        = .next (s.withUnits (s.answered p .policyRead (outputs s.units.pu.shadow.image))))
      ∧ (∀ staged, source = 1 → session = .opened p staged → exec (.policyRead p) s
        = .next (s.withUnits (s.answered p .policyRead (outputs staged))))
      ∧ (source = 1 → session = .none → exec (.policyRead p) s
        = .next (s.withUnits (s.answered p .policyRead (Posting.code .notFound))))
      ∧ (source = 1 → held → exec (.policyRead p) s
        = .next (s.withUnits (s.answered p .policyRead (Posting.code .policyHeld)))))
    ∧ (Passing .policyLoad p 0 s →
      (mine → exec (.policyLoad p) s = .next (s.withUnits
        ((s.answered p .policyLoad (Posting.code .ok)).setPu { s.units.pu with session := .opened p image })))
      ∧ (held → exec (.policyLoad p) s
        = .next (s.withUnits (s.answered p .policyLoad (Posting.code .policyHeld)))))
    ∧ (Passing .policyDiscard p 0 s →
      (mine → exec (.policyDiscard p) s = .next (s.withUnits
        ((s.answered p .policyDiscard (Posting.code .ok)).setPu { s.units.pu with session := .none })))
      ∧ (held → exec (.policyDiscard p) s
        = .next (s.withUnits (s.answered p .policyDiscard (Posting.code .policyHeld)))))

/-- POLICY_COMMIT: NOT_FOUND without a session, POLICY_HELD from a port that does not own it, POLICY_INVALID for an image
the tests of R151 refuse; otherwise the session goes COMMITTING and the erase of the policy segment not in force is wanted.
Then the write sequence: the cells in order, each tried three times, the VALID mark, tried three times, and at the apply
point the new shadow with its views, locks, events (in ascending partition number, the model's choice, log 47), removals,
one POLICY_CHANGED, the comparison with the new low-water mark and the answer. A sequence that a reset of its port stops
ends at the completion in hand, the session NONE, with no result and no notice (log 58); one past its VALID presentation
goes on without a result (R54, R101, R144, R146, R151 to R155). The order of the lock events is the model's choice (log 47),
and that a stopped sequence posts no notice (log 58). -/
def Obligations.PolicyCommitTakes : Prop :=
  (∀ (p : Port) (s : State), Passing .policyCommit p 0 s →
    let session := s.units.pu.session
    let sh := s.units.pu.shadow
    let answered (c : ResultCode) : State := s.withUnits (s.answered p .policyCommit (Posting.code c))
    let target := if s.units.pu.inForce = some 0 then 1 else 0
    (session = .none → exec (.policyCommit p) s = .next (answered .notFound))
    ∧ ((∃ q staged, session = .opened q staged ∧ q ≠ p) ∨ (∃ q staged w, session = .committing q staged w) →
        exec (.policyCommit p) s = .next (answered .policyHeld))
    ∧ (∀ staged, session = .opened p staged →
        (∀ new, readPolicy staged = some new →
          ((∃ n, n < 16 ∧ (sh.part n).fixed = true ∧ sh.part n ≠ new.part n)
            ∨ (∀ q, (new.ports.get q).authority = false)
            ∨ (∃ q k part, k < 4 ∧ (new.ports.get q).defaultView.at k = some part ∧ (new.part part).enabled = false)
            ∨ sh.seq = 4294967295) →
          exec (.policyCommit p) s = .next (answered .policyInvalid))
        ∧ (readPolicy staged = none → exec (.policyCommit p) s = .next (answered .policyInvalid))
        ∧ (∀ new, readPolicy staged = some new →
          (∀ n, n < 16 → (sh.part n).fixed = true → sh.part n = new.part n) →
          (∃ q, (new.ports.get q).authority = true) →
          (∀ q k part, k < 4 → (new.ports.get q).defaultView.at k = some part → (new.part part).enabled = true) →
          sh.seq ≠ 4294967295 →
          exec (.policyCommit p) s = .next (s.withUnits ((s.taking p .policyCommit).setPu { s.units.pu with
            session := .committing p staged
              ⟨target, sealImage 0x7F (sh.seq + 1) (slice staged 5 169), .erase 1, false, false⟩,
            io := ⟨some ⟨.policy, target, .erase⟩, false⟩ })))))
  ∧ ∀ (p : Port) (staged : List Byte) (w : WriteSeq) (q : Request) (u : Units),
    q.who = .policy → u.pu.io = ⟨some q, true⟩ → u.pu.session = .committing p staged w →
    let wants (st : WriteStep) (op : ArrayOp) : Units := u.setPu { u.pu with
      session := .committing p staged { w with step := st }, io := ⟨some ⟨.policy, w.target, op⟩, false⟩ }
    let old := u.pu.shadow
    let ended (x : Session) (v : Units) : Units := v.setPu { u.pu with session := x, io := ⟨none, false⟩ }
    let noted (v : Units) : Units := { v with nu := { u.nu with posts := u.nu.posts
      ++ [⟨.policy, .authority, { Notice.plain .integrity with seg := some w.target, reason := some .policy }⟩] } }
    let failed : Units := noted (ended (.opened p staged) (u.withOutcome p (Posting.code .media)))
    -- the apply point
    let applied (new : Shadow) (v : Units) : Prop :=
      v.pu.shadow = new ∧ v.pu.source = .loaded ∧ v.pu.inForce = some w.target ∧ v.pu.session = .none
      ∧ (∀ g k, k < 4 → (v.pu.views.get g).at k
          = ((u.pu.views.get g).at k).filter (fun part => new.mayRead g part))
      ∧ (∀ n, n < 16 → n < u.pu.locks.length → v.pu.locks[n]? =
          if (new.part n).fixed = true ∧ (old.part n).fixed = false then some .fixed else u.pu.locks[n]?)
      ∧ (∃ fixed : List Nat, v.tm.lockEvents = u.tm.lockEvents ++ fixed.map (⟨·, none⟩) ∧ fixed.Pairwise (· < ·)
          ∧ ∀ n, n ∈ fixed ↔ n < 16 ∧ (new.part n).fixed = true ∧ (old.part n).fixed = false)
      ∧ (∃ r, v.tm.revocations = u.tm.revocations ++ [r]
          ∧ (∀ n g, (n, g) ∈ r.lost ↔ n < 16 ∧ (old.part n).rights.get g = .write ∧ (new.part n).rights.get g ≠ .write)
          ∧ ∀ n, n ∈ r.disabled ↔ n < 16 ∧ (old.part n).enabled = true ∧ (new.part n).enabled = false)
      ∧ (∃ r, v.nu.removals = u.nu.removals ++ [r] ∧ ∀ g n, (g, n) ∈ r ↔ n < 16 ∧ new.mayRead g n = false)
      ∧ (let erased := u.iu.segs.countP (·.avail)
         v.nu.posts = u.nu.posts ++ [⟨.policy, .every, { Notice.plain .policyChanged with source := some p }⟩]
            ++ (if erased ≤ new.lowWater ∧ u.iu.armed = true then [⟨.index, .every, Notice.plain .spaceLow⟩] else [])
         ∧ v.iu = { u.iu with armed := decide (new.lowWater < erased) }
         ∧ v.ce = { u.ce with lowRun := u.ce.lowRun || decide (erased ≤ new.lowWater) })
    -- a port reset has stopped the sequence, or taken its result
    (w.stopping = true → ∀ ok, programDelivered q ok u = settle p (ended .none u) ∧ eraseDelivered q ok u = settle p (ended .none u))
    ∧ (w.stopping = false → w.noResult = true → (u.port p).inHand = none →
      (∀ t, w.step = .valid t → t < 3 →
        programDelivered q false u = wants (.valid (t + 1)) (.program 0 (0x3F :: List.replicate 15 0xFF)))
      ∧ (∀ t, w.step = .valid t → 3 ≤ t → programDelivered q false u = settle p (noted (ended .none u)))
      ∧ (∀ t new, w.step = .valid t → readPolicy w.image = some new →
        let v := programDelivered q true u
        applied new v ∧ (v.port p).outcome = (u.port p).outcome))
    ∧ ∀ c : InHand, w.stopping = false → w.noResult = false → (u.port p).inHand = some c → (u.port p).draining = false →
    (∀ t, w.step = .erase t → eraseDelivered q true u = wants (.cell 0 1) (.program 0 (slice w.image 0 16)))
    ∧ (w.step = .erase 1 → eraseDelivered q false u = wants (.erase 2) .erase)
    ∧ (w.step = .erase 2 → eraseDelivered q false u = failed)
    ∧ (∀ n t, w.step = .cell n t → n < 10 →
        programDelivered q true u = wants (.cell (n + 1) 1) (.program (n + 1) (slice w.image (16 * (n + 1)) 16)))
    ∧ (∀ t, w.step = .cell 10 t →
        programDelivered q true u = wants (.valid 1) (.program 0 (0x3F :: List.replicate 15 0xFF)))
    ∧ (∀ n t, w.step = .cell n t → t < 3 →
        programDelivered q false u = wants (.cell n (t + 1)) (.program n (slice w.image (16 * n) 16)))
    ∧ (∀ t, w.step = .valid t → t < 3 →
        programDelivered q false u = wants (.valid (t + 1)) (.program 0 (0x3F :: List.replicate 15 0xFF)))
    ∧ (∀ n, w.step = .cell n 3 ∨ w.step = .valid 3 → programDelivered q false u = failed)
    ∧ (∀ t new, w.step = .valid t → readPolicy w.image = some new →
        let v := programDelivered q true u
        applied new v ∧ (v.port p).outcome = some ⟨{ Results.zero with code := 0x01, gen := BitVec.ofNat 32 new.seq }, []⟩)

/-- RECLAIM is owed by the engine, and answered NO_SPACE at once by one that waits in its sweep; INFO is answered with the
store status record: its erased count, its dead cells and erase counts over the data segments that are not BAD (with none
the two erase counts are free values, log 25), and the count of those that are (R9, R47, R102, R114, R178). The two erase
counts with no segment in use are free values (log 25); that an engine repeating its sweep is not waiting is the model's
choice (log 61). -/
def Obligations.ReclaimAndInfoTake : Prop :=
  ∀ (p : Port) (s : State),
    (Passing .reclaim p 0 s → s.units.ce.step ≠ .sweepWaiting →
      exec (.reclaim p) s = .next (s.withUnits ((s.taking p .reclaim).setCe { s.units.ce with
        owed := s.units.ce.owed ++ [p], restart := true })))
    ∧ (Passing .reclaim p 0 s → s.units.ce.step = .sweepWaiting → s.units.ce.owed = [] →
      exec (.reclaim p) s = .next (s.withUnits ((s.answered p .reclaim (Posting.code .noSpace)).setCe { s.units.ce with
        restart := true })))
    ∧ (Passing .info p 0 s →
      let segs := s.units.iu.segs
      let sound := segs.filter (fun e => decide (e.state ≠ .bad))
      ∃ least greatest : Nat,
        (sound ≠ [] → (∃ e ∈ sound, e.eraseCount = least) ∧ (∃ e ∈ sound, e.eraseCount = greatest)
          ∧ ∀ e ∈ sound, least ≤ e.eraseCount ∧ e.eraseCount ≤ greatest)
        ∧ exec (.info p) s = .next (s.withUnits (s.answered p .info ⟨{ Results.zero with code := 0x01 },
          ([if s.units.me.rolled = 0 ∧ s.units.me.discarded = 0 ∧ s.units.me.faults = 0 ∧ s.units.me.dirty = false then 0 else 1,
           (match s.units.me.phase with
             | .policy => 0 | .headers => 1 | .records => 2 | .repair => 3 | .restore => 4 | .done => 5),
           (match s.units.me.source with | .loaded => 0 | .defaulted => 1),
           (match s.units.ce.state with
             | .idle => 0 | .select => 1 | .mark => 2 | .copy => 3 | .erase => 4 | .prepare => 5)] : List Byte)
          ++ toBytes 2 s.units.me.rolled ++ toBytes 2 s.units.me.discarded ++ toBytes 2 s.units.me.faults
          ++ toBytes 1 s.units.me.badSegs ++ toBytes 1 (segs.countP (·.avail)) ++ toBytes 2 (sound.map (·.dead)).sum
          ++ toBytes 2 s.units.iu.entries.length ++ toBytes 3 least ++ toBytes 3 greatest
          ++ toBytes 1 (segs.countP (fun e => decide (e.state = .bad))) ++ toBytes 2 s.units.iu.faults
          ++ toBytes 2 s.units.media ++ toBytes 4 s.units.rw.gen⟩)))


/-! ## The claims at the Index Unit -/

/-- LOOKUP for a port, PIN and UNPIN: NOT_FOUND, or the outputs of a STAT, or a read pin and the READ of the record's cells;
BAD_PARAM, with the pin given up, for an offset beyond the record; an UNPIN of a port gives its pin up, whatever the port
has in hand, its result posted or the port reset meanwhile (R39, R48, R90, R177). That the command goes on before its UNPIN
is taken is the model's choice (log 42). -/
def Obligations.LookupAndPinsTake : Prop :=
  (∀ (p : Port) (part key : Nat) (c : InHand) (s : State), (s.units.port p).inHand = some c →
    let u := popClaim s.units
    let x := s.units.port p
    let reads (u : Units) (r : ReadWork) : Units := u.setPort p { x with
      inHand := some { c with work := .reading r },
      io := ⟨some ⟨.port p, r.loc.seg, .read r.loc.cell r.cells⟩, false⟩ }
    let gives (u : Units) (o : Posting) : Units := u.setPort p { x with outcome := some o }
    let pinned (seg : Nat) : Units := u.setIu (u.iu.takePin seg)
    (∀ forRead, s.oldestClaim (.port p) (.lookup part key forRead) → s.units.iu.find part key = none →
      exec .lookup s = .next (s.withUnits (gives u (Posting.code .notFound))))
    ∧ (∀ e, s.units.iu.find part key = some e →
      (s.oldestClaim (.port p) (.lookup part key false) →
        exec .lookup s = .next (s.withUnits (gives u ⟨{ Results.zero with
          code := 0x01, recLength := BitVec.ofNat 8 e.length, gen := BitVec.ofNat 32 e.gen,
          cells := BitVec.ofNat 8 e.cells }, []⟩)))
      ∧ (s.oldestClaim (.port p) (.lookup part key true) → c.params.offset.toNat ≤ e.length →
        exec .lookup s
          = .next (s.withUnits (reads (pinned e.loc.seg) ⟨e.part, e.key, e.loc, e.length, e.gen, e.cells, false⟩)))
      ∧ (s.oldestClaim (.port p) (.lookup part key true) → e.length < c.params.offset.toNat →
        exec .lookup s = .next (s.withUnits
          (gives (present (.port p) (.unpin e.loc.seg) (pinned e.loc.seg)) (Posting.code .badParam)))))
    ∧ (∀ r, c.work = .pinning r → s.oldestClaim (.txn p) (.pin r.loc) →
      (c.params.offset.toNat ≤ r.length →
        exec .pin s = .next (s.withUnits (reads (pinned r.loc.seg) r)))
      ∧ (r.length < c.params.offset.toNat →
        exec .pin s = .next (s.withUnits
          (gives (present (.port p) (.unpin r.loc.seg) (pinned r.loc.seg)) (Posting.code .badParam))))))
  ∧ (∀ (p : Port) (seg : Nat) (s : State), s.oldestClaim (.port p) (.unpin seg) →
    let u := popClaim s.units
    exec .unpin s = .next (s.withUnits (kick (u.setIu (u.iu.dropPin seg))))
    ∧ (s.writerSteady → exec .unpin s = .next (s.withUnits (u.setIu (u.iu.dropPin seg)))))
  ∧ ∀ (iu : IndexUnit) (seg : Nat), 2 ≤ seg → seg - 2 < iu.segs.length →
    (iu.takePin seg).seg seg = { iu.seg seg with pins := (iu.seg seg).pins + 1 }
    ∧ (iu.dropPin seg).seg seg = { iu.seg seg with pins := (iu.seg seg).pins - 1 }
    ∧ ∀ n, 2 ≤ n → n ≠ seg → (iu.takePin seg).seg n = iu.seg n ∧ (iu.dropPin seg).seg n = iu.seg n

/-- The questions of the engine, LOOKUP, NUMBER_QUERY and MEMBER_QUERY: on yes the record's cells are read, on no the record
is passed over, in the sweep once its payload has been read and found sound; and where that leads in the scan and in the
sweep, whose wait begins with NO_VICTIM and NO_SPACE to the RECLAIMs owed, and is no wait when a claim has been released
since the SWEEP (log 50). A header read: none ends the scan, an unsound one ends it with a fault and a notice, a sound one
is decided by R108, a TOMBSTONE reading WRITTEN with number 0 passed over (log 48); a named record that is unsound is lost
in the sweep, whether or not it would be copied. A record read: passed over if its state has moved on, lost if its payload
is unsound, in the scan by all that names it, otherwise copied (R39, R45, R107, R108, R113, R114; the order of the two
treatments and the READ of a record that is not copied are the model's choice, log 65). That questions without a row are
answered in the step that asks them is the model's choice (log 13). -/
def Obligations.EngineQuestionsAreAnswered : Prop :=
  (∀ (h : Header) (s : State),
    let ce := s.units.ce
    let u := popClaim s.units
    let body (u : Units) (basis : Basis) (least : RecordState) : Answer := .next (s.withUnits (u.setCe { ce with
      step := .bodyRead basis least,
      io := ⟨some ⟨.engine, ce.reading.seg, .read ce.reading.cell h.cells⟩, false⟩ }))
    let skips (u : Units) : Answer := .next (s.withUnits (recordSkipped h u))
    let holder (q : Port) : Prop := (s.units.slot q).holding = true ∧ (s.units.slot q).number = h.txn
      ∧ ∃ m ∈ (s.units.slot q).members, m.key = h.key ∧ m.loc = ce.reading
    (ce.step = .lookupClaim h → s.oldestClaim .engine (.lookup h.part h.key false) →
      (∀ e, s.units.iu.find h.part h.key = some e → e.loc = ce.reading → exec .lookup s = body u .entry .live)
      ∧ ((∀ e, s.units.iu.find h.part h.key = some e → e.loc ≠ ce.reading) → exec .lookup s = skips u))
    ∧ (ce.step = .numberClaim h → s.oldestClaim .engine (.numberQuery h.txn) →
      (∀ x ∈ s.units.iu.commitSet, x.txn = h.txn → exec .numberQuery s = body u .commitSet .live)
      ∧ ((∀ x ∈ s.units.iu.commitSet, x.txn ≠ h.txn) → exec .numberQuery s = skips u))
    ∧ (∀ basis, s.running = true → ce.step = .memberAsk h basis →
      (∀ q, holder q → (∀ g, holder g → g = q) → (basis = .memberTombstone → (s.units.slot q).state = .committing) →
        exec .memberQuery s = body s.units basis (if basis = .memberWritten then .written else .live))
      ∧ ((∀ q, holder q → basis = .memberTombstone ∧ (s.units.slot q).state ≠ .committing) →
        exec .memberQuery s = skips s.units)))
  -- a record that is not to be copied
  ∧ (∀ (h : Header) (u : Units),
    (u.ce.todo = none → recordSkipped h u = recordDone h.cells u)
    ∧ (∀ ns, u.ce.todo = some ns → 1 < h.cells → recordSkipped h u = u.setCe { u.ce with
        step := .sweepCheck, io := ⟨some ⟨.engine, u.ce.reading.seg, .read u.ce.reading.cell h.cells⟩, false⟩ })
    ∧ (∀ n ns, u.ce.todo = some (n :: ns) → h.cells ≤ 1 →
        recordSkipped h u = if crc [] = h.payCheck then recordDone h.cells u else u.lostInSweep n))
  ∧ (∀ (cells : Nat) (u : Units),
    let ce := u.ce
    let v := ce.victim.getD 0
    (ce.todo = none → ce.scan + cells < 128 →
      recordDone cells u = u.setCe { ce with
        copy := none, scan := ce.scan + cells, step := .scanRead, reading := ⟨v, ce.scan + cells⟩,
        io := ⟨some ⟨.engine, v, .read (ce.scan + cells) 1⟩, false⟩ })
    ∧ (ce.todo = none → 128 ≤ ce.scan + cells →
      recordDone cells u = present .engine (.sweep v) (u.setCe { ce with
        copy := none, scan := ce.scan + cells, step := .sweepClaim }))
    ∧ (∀ n m ns, ce.todo = some (n :: m :: ns) →
      recordDone cells u = u.setCe { ce with
        copy := none, todo := some (m :: ns), step := .sweepRead, reading := m.loc,
        io := ⟨some ⟨.engine, m.loc.seg, .read m.loc.cell 1⟩, false⟩ })
    ∧ (∀ n, ce.todo = some [n] → ce.unread = false →
      recordDone cells u = present .engine (.sweep v) (u.setCe { ce with
        copy := none, todo := some [], step := .sweepClaim }))
    ∧ (∀ n, ce.todo = some [n] → ce.unread = true → ce.owed = [] →
      let waits (st : CStep) : Units := present .engine .noVictim (u.setCe { ce with copy := none, todo := some [], step := st })
      recordDone cells u = if ce.again then present .engine (.sweep v) (waits .sweepClaim) else waits .sweepWaiting)
    ∧ (∀ n, ce.todo = some [n] → ce.unread = true →
      let w := recordDone cells u
      w.ce.owed = []
      ∧ (∀ p c, (u.port p).inHand = some c → p ∈ ce.owed → (w.port p).outcome = some (Posting.code .noSpace))
      ∧ ∀ p, p ∉ ce.owed → w.port p = u.port p))
  ∧ ∀ (q : Request) (bytes : List Byte) (u : Units), q.who = .engine → u.ce.io = ⟨some q, true⟩ →
    let ce := u.ce
    let v := ce.victim.getD 0
    let h := readHeader bytes
    let sound := h.sound ce.reading.cell = true
    let read := readDelivered q bytes u
    let w := u.setCe { ce with io := ⟨none, false⟩ }
    let goes (st : CStep) : Units := u.setCe { ce with step := st, io := ⟨none, false⟩ }
    (ce.step = .scanRead →
      (allErased bytes = true → read = present .engine (.sweep v) (goes .sweepClaim))
      ∧ (allErased bytes = false → ¬ sound → read = present .engine (.sweep v)
          { (goes .sweepClaim).setIu { u.iu with faults := min 65535 (u.iu.faults + 1) } with
            nu := { u.nu with posts := u.nu.posts ++ [⟨.engine, .authority, { Notice.plain .integrity with
              seg := some v, reason := some .lost }⟩] } }))
    ∧ (∀ n ns, ce.step = .sweepRead → ce.todo = some (n :: ns) → ¬ sound → read = w.lostInSweep n)
    ∧ (sound → (ce.step = .scanRead ∧ allErased bytes = false) ∨ (ce.step = .sweepRead ∧ ∃ n ns, ce.todo = some (n :: ns)) →
      (h.recordKind ≠ .commit → h.taken = .written → h.txn ≠ 0 → read = goes (.memberAsk h .memberWritten))
      ∧ (h.recordKind = .data → h.taken = .live →
          read = present .engine (.lookup h.part h.key false) (goes (.lookupClaim h)))
      ∧ (h.recordKind = .tombstone → h.taken = .live → h.txn ≠ 0 → read = goes (.memberAsk h .memberTombstone))
      ∧ (h.recordKind = .commit → h.taken = .live →
          read = present .engine (.numberQuery h.txn) (goes (.numberClaim h)))
      ∧ (h.taken = .opened ∨ h.taken = .retired ∨ (h.taken = .written ∧ h.txn = 0)
          ∨ (h.recordKind = .tombstone ∧ h.taken = .live ∧ h.txn = 0) → read = recordSkipped h w))
    ∧ (∀ basis least, ce.step = .bodyRead basis least →
      let stands := h.taken ≠ .retired ∧ least.rank ≤ h.taken.rank
      let whole := crc (slice bytes 16 h.length) = h.payCheck
      (¬ stands → ce.todo = none → read = recordDone h.cells w)
      -- in the scan: all that names the record now, the index by a LOSS, the commit set and the member lists by a notice
      ∧ (stands → ¬ whole → ce.todo = none →
        let told := w.heldNoted ce.reading
        (∀ e, u.iu.entries.find? (fun e => e.loc == ce.reading) = some e →
          read = present .engine (.loss e.part e.key ce.reading)
            (told.setCe { told.ce with scan := ce.scan + h.cells, step := .lossClaim }))
        ∧ ((∀ e ∈ u.iu.entries, e.loc ≠ ce.reading) → read = recordDone h.cells told))
      ∧ (∀ n ns, ce.todo = some (n :: ns) → ¬ stands ∧ whole → read = recordDone h.cells w)
      ∧ (∀ n ns, ce.todo = some (n :: ns) → ¬ whole → read = w.lostInSweep n)
      ∧ (stands → whole → read = present .engine (.allocate h.cells) (u.setCe { ce with
          copy := some ⟨ce.reading, h, bytes, basis, h.taken, 0, ce.reading⟩, step := .allocating,
          io := ⟨none, false⟩ })))
    ∧ (∀ n ns, ce.step = .sweepCheck → ce.todo = some (n :: ns) →
      read = if crc (slice bytes 16 h.length) = h.payCheck then recordDone h.cells w else w.lostInSweep n)

/-- LIST and RANGE: a LIST presents a RANGE claim of the partition after the start key, a start key of 65,535 listing from
key 0, by the Transaction Manager for the holder of the claim with members; RANGE gives the partition's entries above the
start key, the first 64 and whether more follow; without members they are the list, with members the entries of their keys
give way to the staged WRITEs; while the merged list is short of 64, or members delete keys further on, the next RANGE goes
on from the last key (log 15), the members as they stood (log 55). The index stands in ascending order whatever changes it,
and the merged list ascends (R37, R39, R91, R177). That a further RANGE may be taken for the MORE flag alone is read by
inference (log 15); that every RANGE of a LIST merges the member list as it stood when the LIST was taken is the model's
choice (log 55). -/
def Obligations.ListAndRangeTake : Prop :=
  (∀ (p : Port) (part : Nat) (s : State), Passing .list p part s →
    let q := (s.units.port p).params
    let after := if q.key = 0xFFFF then none else some q.key.toNat
    let ms := if (s.units.slot p).state = .opened ∧ (s.units.slot p).part = part then (s.units.slot p).members else []
    exec (.list p) s
      = .next (s.withUnits (present (if ms = [] then .port p else .txn p) (.range part after)
          (s.takingAt p .list (.listing part after ms [])))))
  ∧ (∀ (p : Port) (part : Nat) (after : Option Nat) (c : InHand) (ms : List Member) (before : List ListEntry) (s : State),
    (s.units.port p).inHand = some c → c.work = .listing part after ms before →
    s.oldestClaim (if ms = [] then .port p else .txn p) (.range part after) →
    let u := popClaim s.units
    let es := s.units.iu.entries.filter fun e => e.part == part && (match after with | some k => decide (k < e.key) | none => true)
    let gives (found : List ListEntry) (more : Bool) : Answer := .next (s.withUnits (u.withOutcome p ⟨{ Results.zero with
      code := 0x01, count := BitVec.ofNat 8 found.length, flags := if more then 2 else 0 },
      found.flatMap fun e => toBytes 2 e.key ++ toBytes 1 e.length ++ [if e.staged then 1 else 0]⟩))
    let more := decide (64 < es.length)
    let covered := if more then ((es.take 64).getLast?).map (·.key) else none
    let found := before ++ mergeListed ms after covered (es.take 64)
    -- a staged delete beyond the keys covered may take away what follows
    let unsure := ∃ m ∈ ms, m.op = .delete ∧ ∃ k, covered = some k ∧ k < m.key
    let goesOn := more = true ∧ (found.length < 64 ∨ found.length = 64 ∧ unsure)
    (ms = [] → before = [] →
      exec .range s = gives ((es.take 64).map fun e => ⟨e.key, e.length, false⟩) more)
    ∧ (goesOn → exec .range s = .next (s.withUnits (present (if ms = [] then .port p else .txn p) (.range part covered)
        (u.setPort p { s.units.port p with inHand := some { c with work := .listing part covered ms found } }))))
    ∧ (¬ goesOn → exec .range s = gives (found.take 64) (more || decide (64 < found.length))))
  -- the order of the index and of the list
  ∧ (let before (x y : Entry) : Prop := x.part < y.part ∨ (x.part = y.part ∧ x.key < y.key)
     ∀ es : List Entry, es.Pairwise before →
      (∀ e, (IndexUnit.insertEntry e es).Pairwise before) ∧ (∀ part key, (IndexUnit.removeEntry part key es).Pairwise before)
      ∧ (∀ part key l, (IndexUnit.moveEntry part key l es).Pairwise before)
      ∧ ∀ part, (es.filter (fun e => e.part == part)).Pairwise (fun x y => x.key < y.key))
  ∧ (∀ (ms : List Member) (after covered : Option Nat) (es : List Entry), es.Pairwise (fun x y => x.key < y.key) →
    (ms.map (·.key)).Nodup → (mergeListed ms after covered es).Pairwise (fun x y => x.key < y.key))
  ∧ ∀ (ms : List Member) (after covered : Option Nat) (es : List Entry) (x : ListEntry),
    x ∈ mergeListed ms after covered es ↔
      (∃ e ∈ es, (∀ m ∈ ms, m.key ≠ e.key) ∧ x = ⟨e.key, e.length, false⟩)
      ∨ (∃ m ∈ ms, m.op = .write ∧ inWindow after covered m.key = true ∧ x = ⟨m.key, m.length, true⟩)

/-- CHARGE: a write is refused QUOTA when the partition's charge would exceed its quota, then INDEX_FULL when the slots
used, the entries and the keys without one that have a write pending, would exceed 1,024; a delete is refused NOT_FOUND
without an entry, but for a staged WRITE of the same transaction, which it takes away; an accepted change is recorded and
its job joins the Writer's queue, and the stage of a slot that an abort has moved to ABORTING meanwhile goes on so, its
ABORT_CLEAN sent behind it (log 14; R40, R42, R76, R85 to R87). That a staged write under a later staged change keeps its
slot and its reservation is read by inference (log 26); that the CHARGE of a stage still out at an abort is taken all the
same, its job sent and the ABORT_CLEAN behind it, is the model's choice (log 14). -/
def Obligations.ChargeTakes : Prop :=
  (∀ (p : Port) (part key cells : Nat) (c : InHand) (s : State), (s.units.port p).inHand = some c →
    let u := popClaim s.units
    let x := s.units.port p
    let sl := s.units.slot p
    let quota := (s.units.pu.shadow.part part).quota
    let change (staged : Bool) (op : ChangeOp) (n : Nat) := u.iu.charges ++ [⟨p, staged, part, key, op, n⟩]
    let charge (staged : Bool) := u.iu.chargeWith (change staged .write cells) part
    let slots (staged : Bool) := { u.iu with charges := change staged .write cells }.slotsUsed
    let refused (e : ResultCode) : Answer := .next (s.withUnits (kick (u.withOutcome p (Posting.code e))))
    let accepted (op : ChangeOp) (n : Nat) (j : Job) : Answer :=
      .next (s.withUnits (kick (sendJob j (((u.setIu { u.iu with charges := change false op n }).setPort p
        { x with inHand := some { c with work := .elsewhere } })))))
    -- a staged change: the ABORT_CLEAN of an abort that came before its CHARGE follows its job (R85)
    let staged (v : Units) : Answer :=
      .next (s.withUnits (kick (if sl.state = .aborting then sendJob (.abortClean p) v else v)))
    let begun : Prop := sl.state = .opened
      ∨ (sl.state = .aborting ∧ ∀ part key op n, ⟨.txn p, .charge part key op n⟩ ∉ u.iu.claims)
    let stageAccepted (op : ChangeOp) (n : Nat) (j : Job) : Answer :=
      staged (sendJob j ((u.setIu { u.iu with charges := change true op n })))
    let stageRefused (e : ResultCode) : Answer :=
      let v : Units := u.setSlot p { sl with stage := none }
      staged (if sl.state = .opened then v.withOutcome p (Posting.code e) else v)
    let withoutKey := u.iu.charges.filter (fun e => !(e.staged && e.port == p && e.part == part && e.key == key))
    let data (role : JobRole) (part txn : Nat) : Job := .record ⟨p, role, .data, part,
      if role = .single then c.params.key.toNat else key, c.params.length.toNat, txn, c.image.take c.params.length.toNat,
      none, 0⟩
    (s.oldestClaim (.port p) (.charge part key .write cells) → c.work = .charging part → c.cmd = .write →
      (quota < charge false → exec .charge s = refused .quota)
      ∧ (charge false ≤ quota → 1024 < slots false → exec .charge s = refused .indexFull)
      ∧ (charge false ≤ quota → slots false ≤ 1024 →
          exec .charge s = accepted .write cells (data .single part 0)))
    ∧ (s.oldestClaim (.port p) (.charge part key .delete cells) → c.work = .charging part → c.cmd = .delete →
      (s.units.iu.find part key = none → exec .charge s = refused .notFound)
      ∧ (s.units.iu.find part key ≠ none → exec .charge s
          = accepted .delete 1 (.record ⟨p, .single, .tombstone, part, c.params.key.toNat, 0, 0, [], none, 0⟩)))
    ∧ (s.oldestClaim (.txn p) (.charge part key .stageWrite cells) → begun → c.cmd = .stageWrite →
      (quota < charge true → exec .charge s = stageRefused .quota)
      ∧ (charge true ≤ quota → 1024 < slots true → exec .charge s = stageRefused .indexFull)
      ∧ (charge true ≤ quota → slots true ≤ 1024 →
          exec .charge s = stageAccepted .write cells (data .stage sl.part sl.number)))
    ∧ (s.oldestClaim (.txn p) (.charge part key .stageDelete cells) → begun → c.cmd = .stageDelete →
      (s.units.iu.find part key ≠ none → exec .charge s
        = stageAccepted .delete 1 (.record ⟨p, .stage, .tombstone, sl.part, key, 0, sl.number, [], none, 0⟩))
      ∧ (s.units.iu.find part key = none → (∀ m ∈ sl.members, m.key ≠ key) → exec .charge s = stageRefused .notFound)
      ∧ (∀ m, s.units.iu.find part key = none → sl.members.find? (fun m => m.key == key) = some m →
          exec .charge s = staged (sendJob (.removal p sl.part key sl.number m.loc)
            ((u.setIu ({ u.iu with charges := withoutKey }.kill m.loc m.cells)).setSlot p
              { sl with members := sl.members.filter (fun m => m.key != key) })))))
  -- the slots used
  ∧ ∀ iu : IndexUnit, ∃ pending : List (Nat × Nat), pending.Nodup
    ∧ (∀ part key, (part, key) ∈ pending ↔
        iu.find part key = none ∧ ∃ c ∈ iu.charges, c.op = .write ∧ c.part = part ∧ c.key = key)
    ∧ iu.slotsUsed = iu.entries.length + pending.length

/-- The charge of a partition under any charge record is the sum of three parts: the cells of the entries whose key has no
staged member; the cells of every staged member, a DELETE as 0, the member of a key being the last change of it accepted; and for
each single WRITE whose key has no staged member what its record has more than the entry it would displace. So it is for no
change and for one or two changes of a key (R41). -/
def Obligations.ChargeOfAPartition : Prop :=
  (∀ (iu : IndexUnit) (cs : List ChargeEntry) (part : Nat),
    ∃ members : List ChargeEntry,
      (members.map (·.key)).Nodup
      ∧ (∀ c, c ∈ members ↔ ∃ before after, cs = before ++ c :: after ∧ c.staged = true ∧ c.part = part
          ∧ ∀ x ∈ after, ¬ (x.staged = true ∧ x.part = part ∧ x.key = c.key))
      ∧ (let unstaged (key : Nat) : Bool := decide (∀ m ∈ members, m.key ≠ key)
         iu.chargeWith cs part
          = ((iu.entries.filter fun e => e.part == part && unstaged e.key).map (·.cells)).sum
            + (members.map fun m => if m.op = .write then m.cells else 0).sum
            + ((cs.filter fun c => !c.staged && c.part == part && c.op == .write && unstaged c.key).map fun c =>
                c.cells - ((iu.find part c.key).map (·.cells)).getD 0).sum))
  ∧ ∀ (iu : IndexUnit) (p : Port) (part key cells : Nat),
    let own := (iu.entries.filter (fun e => e.part == part)).map (·.cells)
    let others := (iu.entries.filter (fun e => e.part == part && e.key != key)).map (·.cells)
    let old := ((iu.find part key).map (·.cells)).getD 0
    iu.chargeWith [] part = own.sum
    ∧ iu.chargeWith [⟨p, false, part, key, .write, cells⟩] part = own.sum + (cells - old)
    ∧ iu.chargeWith [⟨p, false, part, key, .delete, 1⟩] part = own.sum
    ∧ iu.chargeWith [⟨p, true, part, key, .write, cells⟩] part = others.sum + cells
    ∧ iu.chargeWith [⟨p, true, part, key, .delete, 1⟩] part = others.sum
    ∧ (∀ first n, iu.chargeWith [⟨p, true, part, key, first, n⟩, ⟨p, true, part, key, .write, cells⟩] part
        = others.sum + cells)
    ∧ ∀ q part', part' ≠ part → ∀ op staged k n,
        iu.chargeWith [⟨q, staged, part', k, op, n⟩] part = own.sum

/-- RELEASE: a failed single change leaves the charge record and its command is answered with the code; a stage's pending
change leaves it; a replaced one leaves it with its record's cells dead; and the RELEASE of an abort releases every member,
answers as the end reason, the command that asks or the ABORT requires, and ends the transaction: its claim passes to the
oldest waiter, if there is one that no event has shut out (log 66), an engine in its sweep repeats it (log 50), and a port
that drains after its reset goes READY when that was the last of its work (R42, R47, R69, R70, R79, R84, R87, R88, R95, R98,
R114, R179). That a claim released during a sweep is noted for its repetition is read by inference from R114 (log 50); that
a released claim passes to no waiter an event has shut out is the model's choice (log 66), and the clock's unit of 2.5 ms
too (log 2). That a stage's RELEASE is waited for by no one is the model's choice (log 42). -/
def Obligations.ReleaseTakes : Prop :=
  ∀ (p : Port) (s : State),
    let u := popClaim s.units
    let sl := s.units.slot p
    let charged (cs : List ChargeEntry) : Units := u.setIu { u.iu with charges := cs }
    (∀ r code rec, s.oldestClaim .writer (.release (.single p)) →
      s.units.rw.cur = some ⟨.record r, .releasing code, rec⟩ → r.port = p →
      exec .release s = .next (s.withUnits (kick
        ((((charged (s.units.iu.charges.filter (fun e => e.staged || e.port != p))).delivers p (Posting.code code)).setRw
          { s.units.rw with cur := none, io := ⟨none, false⟩ }).drained p))))
    ∧ (∀ key, s.oldestClaim (.txn p) (.release (.stagePending p key)) → s.writerSteady →
      exec .release s = .next (s.withUnits (charged (IndexUnit.dropLast p key s.units.iu.charges))))
    ∧ (∀ key l cells, s.oldestClaim (.txn p) (.release (.stageReplaced p key l cells)) → s.writerSteady →
      exec .release s = .next (s.withUnits (u.setIu
        ({ u.iu with charges := IndexUnit.dropFirst p key s.units.iu.charges }.kill l cells))))
    ∧ (s.oldestClaim (.txn p) (.release (.members p)) → s.writerSteady →
      let released := u.setIu (sl.members.foldl (fun iu m => iu.kill m.loc m.cells)
        { u.iu with charges := s.units.iu.charges.filter (fun e => !(e.staged && e.port == p)) })
      let ends (w : Units) (after : Slot) : Prop :=
        ∃ v, (w.setSlot p after).Released sl.part v ∧ exec .release s = .next (s.withUnits (v.drained p))
      (sl.state ≠ .aborting → exec .release s = .next (s.withUnits released))
      ∧ (sl.state = .aborting → (∀ r k, sl.reason = some r → sl.pending = some k → ends (released.delivers p (Posting.code r.code)) Slot.start)
      ∧ (∀ r, sl.reason = some r → sl.pending = none → ends released { Slot.start with state := .ended, reason := some r })
      ∧ (∀ k, sl.reason = none → sl.reply = some k → ends (released.delivers p (Posting.code k)) Slot.start)
      ∧ (sl.reason = none → sl.reply = none → ends released Slot.start)))

/-- SWITCH: the entry of the key is inserted, replaced or, by a tombstone, removed, and no other; the single change leaves
the charge record; the displaced record's cells are dead and its segment pinned; one change report is sent; and the Writer
answers the command with the generation, retires the displaced record, or retires the tombstone. UNPIN of the Writer behind
a displaced record of a single change: an overwriting WRITE is answered and ends, a DELETE's tombstone is retired, or
reported abandoned where the retire of the displaced record was short; the outcome of a command that a port reset has
dropped is dropped, and its port's drain may end (R43, R48, R62 to R64, R71, R73, R179). That the job goes on when the Index
Unit has taken its UNPIN is the model's choice (log 62). -/
def Obligations.SwitchTakes : Prop :=
  ∀ (r : RecordJob) (rec : List Location) (s : State), r.role = .single →
    -- the job of the change goes on, or ends with its outcome dropped where no command is in hand
    let goes (v : Units) (st : WStep) (rec : List Location) (io : Io) : Units :=
      v.setRw { s.units.rw with cur := some ⟨.record r, st, rec⟩, io := io }
    let ends (v : Units) : Units :=
      kick (((v.delivers r.port ⟨{ Results.zero with code := 0x01, gen := BitVec.ofNat 32 (r.gen.getD 0) }, []⟩).setRw
        { s.units.rw with cur := none, io := ⟨none, false⟩ }).drained r.port)
    let mark (d : Location) : Io := ⟨some ⟨.writer, d.seg, .program d.cell (0xEF :: List.replicate 15 0xFF)⟩, false⟩
    (∀ (l : Location) (short : Bool) (w : SwitchClaim),
      s.oldestClaim .writer (.switch w) → s.units.rw.cur = some ⟨.record r, .switching l short, rec⟩ →
      let old := s.units.iu.find w.part w.key
      let job (v : Units) (st : WStep) (io : Io) : Units := goes v st [l] io
      ∃ v : Units,
        (∀ part key, v.iu.find part key =
          if part = w.part ∧ key = w.key then
            (if w.kind = .data then some ⟨w.part, w.key, w.loc, w.length, w.gen, w.cells⟩ else none)
          else s.units.iu.find part key)
        ∧ v.iu.charges = s.units.iu.charges.filter (fun e => e.staged || e.port != w.source)
        ∧ (old = none → v.iu.segs = s.units.iu.segs)
        ∧ (∀ e, old = some e → v.iu.segs = s.units.iu.segs.modify (e.loc.seg - 2)
            (fun x => { x with live := x.live - e.cells, dead := x.dead + e.cells, pins := x.pins + 1 }))
        ∧ v.iu.commitSet = s.units.iu.commitSet ∧ v.iu.claims = s.units.iu.claims.tail
        ∧ v.nu = { s.units.nu with
            reports := s.units.nu.reports ++ [⟨w.part, w.key, w.gen, w.source, decide (w.kind ≠ .data)⟩] }
        ∧ v.ports = s.units.ports ∧ v.tm = s.units.tm ∧ v.pu = s.units.pu ∧ v.ce = s.units.ce ∧ v.rw = s.units.rw
        ∧ (old = none → r.kind = .data → exec .switch s = .next (s.withUnits (ends v)))
        ∧ (old = none → r.kind = .tombstone → short = false →
            exec .switch s = .next (s.withUnits (job v (.retiring .tombstone l 0 1) (mark l))))
        ∧ (old = none → r.kind = .tombstone → short = true →
            exec .switch s = .next (s.withUnits
              (present .writer (.report (.dead l 1)) (job v (.reporting .abandoned l) s.units.rw.io))))
        ∧ (∀ e, old = some e → short = false →
            exec .switch s = .next (s.withUnits (job v (.retiring .displaced e.loc 0 1) (mark e.loc))))
        ∧ (∀ e, old = some e → short = true →
            exec .switch s = .next (s.withUnits
              (present .writer (.unpin e.loc.seg) (job v (.unpinning (.single false)) s.units.rw.io)))))
    -- the UNPIN behind the displaced record
    ∧ ∀ (seg : Nat) (ok : Bool), s.oldestClaim .writer (.unpin seg) →
      s.units.rw.cur = some ⟨.record r, .unpinning (.single ok), rec⟩ →
      let u := popClaim s.units
      let v := u.setIu { u.iu with segs := u.iu.segs.modify (seg - 2) (fun x => { x with pins := x.pins - 1 }) }
      (r.kind = .data → exec .unpin s = .next (s.withUnits (ends v)))
      ∧ ∀ l, rec.head? = some l → r.kind = .tombstone →
        (ok = true → exec .unpin s = .next (s.withUnits (goes v (.retiring .tombstone l 0 1) rec (mark l))))
        ∧ (ok = false → exec .unpin s = .next (s.withUnits
            (present .writer (.report (.dead l 1)) (goes v (.reporting .abandoned l) rec s.units.rw.io))))

/-- MEMBER_REPORT: a staged record enters the member list, at the tail, or in the place of an earlier record of its key,
whose charge is released and which is retired. COMMIT_SWITCH: the entries of the members' keys change and no other, the
transaction's changes leave the charge record, its number joins the commit set, the displaced cells are dead and their
segments pinned, one report is sent for each member, and the COMPLETE job joins the Writer's queue. COMPLETE takes the
members in list order: the LIVE program at the location asked for, the retire and UNPIN of what it displaced, and for a
TOMBSTONE, sealed against moves, its own retire and report; a LIVE program short after 3 skips the rest of its member, its
write head closed first (log 39). ABORT_CLEAN retires each member. Both then ask again for every location, moves held until
the next program is presented, and act at one that moved; at last the COMMIT record is retired where the set names it, or
the RELEASE of the members is made (R44, R45, R65 to R69, R71, R87). What a short LIVE or a short retire does to a tombstone
member (logs 41, 43), and the closing of a write head that a status program has made suspect (log 39: shutClaim, shutting),
are read by inference; the partition and key that a suspect notice names are the model's choice (log 23). That the job goes
on when its UNPIN is taken (log 62), and that a RELEASE of a replaced member is waited for by no one (log 42), are the
model's choices. -/
def Obligations.MembersAreListedAndSwitched : Prop :=
  (∀ (r : RecordJob) (l : Location) (rec : List Location) (s : State), s.running = true →
    s.units.rw.cur = some ⟨.record r, .memberReporting l, rec⟩ → r.role = .stage →
    let p := r.port
    let sl := s.units.slot p
    let m : Member := ⟨r.key, if r.kind = .data then .write else .delete, r.length, r.gen.getD 0, l,
      1 + (r.length + 15) / 16, false⟩
    let free := { s.units.rw with cur := none, io := ⟨none, false⟩ }
    (∀ o, sl.members.find? (fun x => x.key == r.key) = some o →
      exec .memberReport s = .next (s.withUnits
        ((present (.txn p) (.release (.stageReplaced p r.key o.loc o.cells))
          (s.units.setSlot p { sl with members := sl.members.map fun x => if x.key = r.key then m else x })).setRw
            { s.units.rw with
              cur := some ⟨.record r, .retiring .replaced o.loc 0 1, rec⟩,
              io := ⟨some ⟨.writer, o.loc.seg, .program o.loc.cell (0xEF :: List.replicate 15 0xFF)⟩, false⟩ })))
    ∧ (∀ c, (∀ x ∈ sl.members, x.key ≠ r.key) → sl.state = .opened → s.serves p c →
      exec .memberReport s = .next (s.withUnits (kick
        (((s.units.setSlot p { sl with members := sl.members ++ [m], stage := none }).withOutcome p ⟨{ Results.zero with
          code := 0x01, gen := BitVec.ofNat 32 (r.gen.getD 0) }, []⟩).setRw free))))
    ∧ ((∀ x ∈ sl.members, x.key ≠ r.key) → sl.state = .aborting →
      exec .memberReport s = .next (s.withUnits (kick
        ((s.units.setSlot p { sl with members := sl.members ++ [m], stage := none }).setRw free)))))
  ∧ (∀ (p : Port) (part txn : Nat) (l : Location) (r : RecordJob) (st : WStep) (rec : List Location) (s : State),
    s.oldestClaim .writer (.commitSwitch part txn l p) → s.units.rw.cur = some ⟨.record r, st, rec⟩ → r.port = p →
    (s.units.slot p).state = .committing →
    let ms := (s.units.slot p).members
    let distinct := (ms.map (·.key)).Nodup
    ∃ (v : Units) (displaced : List (Option Displaced)),
      exec .commitSwitch s = .next (s.withUnits (kick v))
      ∧ (distinct → ∀ part' key, v.iu.find part' key =
          match (if part' = part then ms.find? (fun m : Member => m.key == key) else none) with
          | some m => if m.op = .write then some ⟨part, m.key, m.loc, m.length, m.gen, m.cells⟩ else none
          | none => s.units.iu.find part' key)
      ∧ displaced.length = ms.length
      ∧ (distinct → ∀ (i : Nat) (m : Member), ms[i]? = some m →
          displaced[i]? = some ((s.units.iu.find part m.key).map fun e => ⟨e.loc, e.cells⟩))
      ∧ v.iu.charges = s.units.iu.charges.filter (fun e => !(e.staged && e.port == p))
      ∧ v.iu.commitSet = s.units.iu.commitSet ++ [⟨txn, part, l⟩]
      ∧ (∀ k e, s.units.iu.segs[k]? = some e →
          let gone := (displaced.filterMap (fun d => d)).filter (fun d => d.loc.seg - 2 == k)
          let cells := (gone.map (·.cells)).sum
          v.iu.segs[k]? = some { e with live := e.live - cells, dead := e.dead + cells, pins := e.pins + gone.length })
      ∧ v.iu = { s.units.iu with
          entries := v.iu.entries, charges := v.iu.charges, commitSet := v.iu.commitSet, segs := v.iu.segs,
          claims := s.units.iu.claims.tail }
      ∧ v.nu = { s.units.nu with
          reports := s.units.nu.reports ++ ms.map (fun m : Member => ChangeReport.mk part m.key m.gen p (decide (m.op = .delete))) }
      ∧ v.slot p = { s.units.slot p with committed := true } ∧ (∀ q, q ≠ p → v.slot q = s.units.slot q)
      ∧ v.ports = s.units.ports ∧ v.pu = s.units.pu ∧ v.ce = s.units.ce
      ∧ v.rw = { s.units.rw with
          cur := none, io := ⟨none, false⟩, queue := s.units.rw.queue ++ [.complete p r.part r.txn displaced] })
  -- COMPLETE
  ∧ (∀ (p : Port) (part txn : Nat) (ds : List (Option Displaced)) (rec : List Location),
    let job : Job := .complete p part txn ds
    let asks (v : Units) (rec : List Location) (st : WStep) (l : Location) (b : Byte) : Units := v.setRw { v.rw with
      cur := some ⟨job, st, rec⟩, io := ⟨some ⟨.writer, l.seg, .program l.cell (b :: List.replicate 15 0xFF)⟩, false⟩ }
    let claims (v : Units) (st : WStep) (c : Claim) : Units :=
      present .writer c (v.setRw { v.rw with cur := some ⟨job, st, rec⟩, io := ⟨none, false⟩ })
    let at' (rec : List Location) (i : Nat) (l : Location) := if i < rec.length then rec.set i l else rec ++ [l]
    -- the check of every member's location
    let checks (v w : Units) : Prop :=
      let ms := (v.slot p).members
      let held := v.setSlot p { v.slot p with holdMoves := true }
      (∀ (i : Nat) (m : Member) (l : Location), ms[i]? = some m → rec[i]? = some l → m.loc ≠ l →
        (∀ (k : Nat) (m' : Member) (l' : Location), k < i → ms[k]? = some m' → rec[k]? = some l' → m'.loc = l') →
        w = asks held (rec.set i m.loc) (.memberLive i m.loc 1 true) m.loc 0x1F)
      ∧ ((∀ (i : Nat) (m : Member) (l : Location), ms[i]? = some m → rec[i]? = some l → m.loc = l) →
        ∀ e, v.iu.commitSet.find? (fun e => e.txn == txn) = some e →
          w = asks held rec (.retiring .commitRecord e.loc 0 1) e.loc 0xEF)
    let goesTo (i : Nat) (v w : Units) : Prop :=
      (∀ m : Member, (v.slot p).members[i]? = some m → w = asks v (at' rec i m.loc) (.memberLive i m.loc 1 false) m.loc 0x1F)
      ∧ ((v.slot p).members.length ≤ i → checks v w)
    -- the end of a member: its own retire where it is a TOMBSTONE
    let buries (i : Nat) (retired : Bool) (v w : Units) : Prop := ∀ m : Member, (v.slot p).members[i]? = some m →
      let closed := v.setSlot p { v.slot p with
        members := (v.slot p).members.modify i (fun m => { m with isSealed := true }) }
      (m.op = .write → goesTo (i + 1) v w)
      ∧ (m.op = .delete → retired = true → w = asks closed rec (.retiring (.tombOf i) m.loc 0 1) m.loc 0xEF)
      ∧ (m.op = .delete → retired = false → w = claims closed (.reporting (.tombOf i) m.loc) (.report (.dead m.loc 1)))
    let skips (i : Nat) (v w : Units) : Prop :=
      (∀ d : Displaced, ds[i]? = some (some d) → w = claims v (.unpinning (.skipped i)) (.unpin d.loc.seg))
      ∧ ((ds[i]?).join = none → goesTo (i + 1) v w)
    (∀ (rest : List Job) (u : Units), rec = [] → u.rw.cur = none → u.rw.queue = job :: rest →
      goesTo 0 (u.setRw { u.rw with queue := rest }) (kick u))
    ∧ (∀ (i : Nat) (l : Location) (tries : Nat) (again : Bool) (q : Request) (u : Units), q.who = .writer →
      u.rw.io = ⟨some q, true⟩ → u.rw.cur = some ⟨job, .memberLive i l tries again, rec⟩ →
      let m := (u.slot p).members[i]?
      let suspect : Units := { u with
        iu := { u.iu with segs := u.iu.segs.modify (l.seg - 2) (fun x => { x with suspect := true }) },
        nu := { u.nu with posts := u.nu.posts ++ if (u.iu.seg l.seg).suspect = true then [] else
          [⟨.writer, .authority, { Notice.plain .integrity with
            part := some (u.slot p).part, key := m.map (fun m : Member => m.key), seg := some l.seg,
            reason := some .suspect }⟩] } }
      let done := programDelivered q true u
      let failed := programDelivered q false u
      (again = true → checks u done)
      ∧ (∀ d : Displaced, again = false → ds[i]? = some (some d) → done = asks u rec (.retiring (.oldOf i) d.loc 0 1) d.loc 0xEF)
      ∧ (again = false → (ds[i]?).join = none → buries i true u done)
      ∧ (tries < 3 → failed = asks u (at' rec i l) (.memberLive i l (tries + 1) again) l 0x1F)
      ∧ (3 ≤ tries → u.iu.writeHead = some l.seg →
          failed = claims suspect (.shutClaim l.seg (.memberLive i l tries again)) (.close l.seg .suspect))
      ∧ (3 ≤ tries → u.iu.writeHead ≠ some l.seg →
          (again = true → checks suspect failed) ∧ (again = false → skips i suspect failed)))
    ∧ (∀ (i seg tries t : Nat) (l : Location) (again ok : Bool) (q : Request) (u : Units), q.who = .writer →
      u.rw.io = ⟨some q, true⟩ → u.rw.cur = some ⟨job, .shutting seg tries (.memberLive i l t again), rec⟩ →
      ok = true ∨ 3 ≤ tries ∧ (u.iu.seg seg).suspect = true →
      let v := u.setIu { u.iu with segs := u.iu.segs.modify (seg - 2) (fun x => { x with state := .full }) }
      (again = true → checks v (programDelivered q ok u)) ∧ (again = false → skips i v (programDelivered q ok u)))
    ∧ ∀ (i : Nat) (s : State), s.units.rw.io = ⟨none, false⟩ →
      let u := popClaim s.units
      (∀ (seg : Nat) (whose : WUnpin), s.oldestClaim .writer (.unpin seg) →
        s.units.rw.cur = some ⟨job, .unpinning whose, rec⟩ →
        let v := u.setIu { u.iu with segs := u.iu.segs.modify (seg - 2) (fun x => { x with pins := x.pins - 1 }) }
        (∀ ok, whose = .member i ok → ∃ w, exec .unpin s = .next (s.withUnits w) ∧ buries i ok v w)
        ∧ (whose = .skipped i → ∃ w, exec .unpin s = .next (s.withUnits w) ∧ goesTo (i + 1) v w))
      ∧ (∀ (l : Location) (cells : Nat) (k : Location), s.oldestClaim .writer (.report (.dead l cells)) →
        s.units.rw.cur = some ⟨job, .reporting (.tombOf i) k, rec⟩ →
        let v := u.setIu { u.iu with
          segs := u.iu.segs.modify (l.seg - 2) (fun x => { x with live := x.live - cells, dead := x.dead + cells }) }
        ∃ w, exec .report s = .next (s.withUnits w) ∧ goesTo (i + 1) v w))
  -- ABORT_CLEAN
  ∧ (∀ (p : Port) (rec : List Location),
    let job : Job := .abortClean p
    let asks (v : Units) (rec : List Location) (st : WStep) (l : Location) (b : Byte) : Units := v.setRw { v.rw with
      cur := some ⟨job, st, rec⟩, io := ⟨some ⟨.writer, l.seg, .program l.cell (b :: List.replicate 15 0xFF)⟩, false⟩ }
    let cleans (v w : Units) : Prop :=
      let ms := (v.slot p).members
      let held := v.setSlot p { v.slot p with holdMoves := true }
      (∀ m : Member, ms[rec.length]? = some m →
        w = asks v (rec ++ [m.loc]) (.retiring (.aborted rec.length) m.loc 0 1) m.loc 0xEF)
      ∧ (∀ (i : Nat) (m : Member) (l : Location), ms.length ≤ rec.length → ms[i]? = some m → rec[i]? = some l → m.loc ≠ l →
        (∀ (k : Nat) (m' : Member) (l' : Location), k < i → ms[k]? = some m' → rec[k]? = some l' → m'.loc = l') →
        w = asks held (rec.set i m.loc) (.retiring (.aborted i) m.loc 0 1) m.loc 0xEF)
      ∧ (ms.length ≤ rec.length →
        (∀ (i : Nat) (m : Member) (l : Location), ms[i]? = some m → rec[i]? = some l → m.loc = l) →
        w = kick (present (.txn p) (.release (.members p)) (held.setRw { v.rw with cur := none, io := ⟨none, false⟩ })))
    (∀ (rest : List Job) (u : Units), rec = [] → u.rw.cur = none → u.rw.queue = job :: rest →
      (u.slot p).state = .aborting → cleans (u.setRw { u.rw with queue := rest }) (kick u))
    ∧ ∀ (i : Nat) (l : Location) (k tries : Nat) (q : Request) (u : Units), q.who = .writer → u.rw.io = ⟨some q, true⟩ →
      u.rw.cur = some ⟨job, .retiring (.aborted i) l k tries, rec⟩ → (u.slot p).state = .aborting →
      let sl := u.slot p
      (k = 3 → cleans u (programDelivered q true u))
      ∧ (3 ≤ tries → u.iu.writeHead ≠ some l.seg → cleans { u with
          iu := { u.iu with segs := u.iu.segs.modify (l.seg - 2) (fun x => { x with suspect := true }) },
          tm := { u.tm with retained := u.tm.retained ++ [(sl.number, l.seg)] },
          nu := { u.nu with posts := u.nu.posts ++ if (u.iu.seg l.seg).suspect = true then [] else
            [⟨.writer, .authority, { Notice.plain .integrity with
              part := some sl.part, key := (sl.members[i]?).map (fun m : Member => m.key), seg := some l.seg,
              reason := some .suspect }⟩] } } (programDelivered q false u)))
  -- a program presented ends the hold of moves
  ∧ ∀ (p : Port) (q : Request) (j : Job) (st : WStep) (rec : List Location) (s : State), s.running = true →
    s.ac.accepts q = true → q.who = .writer → s.units.rw.io = ⟨some q, false⟩ → s.units.rw.cur = some ⟨j, st, rec⟩ →
    (∃ part txn ds i l tries, j = .complete p part txn ds ∧ st = .memberLive i l tries true)
      ∨ (∃ i l k tries, j = .abortClean p ∧ st = .retiring (.aborted i) l k tries) →
    ∃ t, exec (.arrayRequest ⟨q, none⟩) s = .next t ∧ t.array = s.array
      ∧ t.units = (s.units.setSlot p { s.units.slot p with holdMoves := false }).setRw { s.units.rw with io := ⟨some q, true⟩ }

/-- COPY_SWITCH: where the index or the commit set still names the original, its location becomes the copy's and the
original's cells are dead; otherwise it is STALE, the copy's cells are dead and the copy is retired. MEMBER_MOVE: the
member's location becomes the copy's, and after the commit point a DATA copy is handed to the index, a TOMBSTONE copy, which
no entry names, reported (log 40); a move waits while the slot holds its moves or a PIN is out, and is STALE without such a
member or with a sealed one. Before that a copy is built to its target in the order of R109, handed over by what its
decision rested on, and left behind when a build program fails: retired once but for a COMMIT, and reported; a STALE copy is
retired with up to 3 presentations of each mark, its segment suspect when short (R13, R46, R68, R89, R90, R109 to R112).
That a TOMBSTONE copied after the commit point is reported and not switched is read by inference (log 40); that a short
retire of a STALE copy posts no notice where its segment is suspect already, and names no key for a COMMIT copy, is the
model's choice (log 23). -/
def Obligations.CopiesAreHandedOver : Prop :=
  (∀ (k : Copy) (thenMove : Bool) (what : CopyFor) (orig copy : Location) (cells : Nat) (s : State),
    s.oldestClaim .engine (.copySwitch what orig copy cells) → s.units.ce.copy = some k →
    s.units.ce.step = .copySwitching thenMove →
    let u := popClaim s.units
    let goesOn (v : Units) : Answer := .next (s.withUnits
      (if thenMove then v.setCe { s.units.ce with step := .moving .afterSwitch } else recordDone k.hdr.cells v))
    let stale : Answer := .next (s.withUnits ((u.setIu (u.iu.kill copy cells)).setCe { s.units.ce with
      step := .retiring .stale 0 1,
      io := ⟨some ⟨.engine, k.loc.seg, .program k.loc.cell (0xEF :: List.replicate 15 0xFF)⟩, false⟩ }))
    (∀ part key e, what = .entry part key → s.units.iu.find part key = some e → e.loc = orig →
      ∃ iu : IndexUnit, exec .copySwitch s = goesOn (u.setIu (iu.kill orig cells))
        ∧ (∀ part' key', iu.find part' key' =
            if part' = part ∧ key' = key then some { e with loc := copy } else s.units.iu.find part' key')
        ∧ iu.segs = s.units.iu.segs ∧ iu.charges = s.units.iu.charges ∧ iu.commitSet = s.units.iu.commitSet)
    ∧ (∀ part key, what = .entry part key → (∀ e, s.units.iu.find part key = some e → e.loc ≠ orig) →
      exec .copySwitch s = stale)
    ∧ (∀ txn, what = .commitMember txn → (∃ x ∈ s.units.iu.commitSet, x.txn = txn ∧ x.loc = orig) →
      exec .copySwitch s = goesOn (u.setIu ({ u.iu with commitSet := IndexUnit.moveCommit txn copy u.iu.commitSet }.kill
        orig cells)))
    ∧ (∀ txn, what = .commitMember txn → (∀ x ∈ s.units.iu.commitSet, x.txn = txn → x.loc ≠ orig) →
      exec .copySwitch s = stale))
  ∧ (∀ (k : Copy) (why : CMove) (s : State), s.running = true → s.units.ce.copy = some k →
    s.units.ce.step = .moving why →
    let holder (q : Port) : Prop := (s.units.slot q).holding = true ∧ (s.units.slot q).number = k.hdr.txn
      ∧ ∃ m ∈ (s.units.slot q).members, m.key = k.hdr.key ∧ m.loc = k.orig
    let pin (q : Port) : Prop := ∃ c r, (s.units.port q).inHand = some c ∧ c.work = .pinning r
    let moved (q : Port) : Units := s.units.setSlot q { s.units.slot q with
      members := (s.units.slot q).members.map fun m => if m.key = k.hdr.key then { m with loc := k.loc } else m }
    let step (v : Units) (st : CStep) : Units := v.setCe { s.units.ce with step := st }
    let stale : Prop := (why = .afterSwitch → exec .memberMove s = .next (s.withUnits (recordDone k.hdr.cells s.units)))
      ∧ (why ≠ .afterSwitch → exec .memberMove s = .next (s.withUnits (s.units.setCe { s.units.ce with
          step := .retiring .staleReport 0 1,
          io := ⟨some ⟨.engine, k.loc.seg, .program k.loc.cell (0xEF :: List.replicate 15 0xFF)⟩, false⟩ })))
    -- the transaction takes no member move for now
    let held : Prop := ∃ q, (s.units.slot q).holding = true ∧ (s.units.slot q).number = k.hdr.txn
      ∧ (s.units.slot q).holdMoves = true
    (held → exec .memberMove s = .next s)
    ∧ (¬ held → (∀ q, ¬ holder q) → stale)
    ∧ ∀ q, holder q → (∀ g, holder g → g = q) → ¬ held →
      (pin q → exec .memberMove s = .next s)
      ∧ ∀ m, (s.units.slot q).members.find? (fun m => m.key == k.hdr.key) = some m → ¬ pin q →
        (m.isSealed = true → stale)
        ∧ (m.isSealed = false → why = .afterSwitch →
          exec .memberMove s = .next (s.withUnits (recordDone k.hdr.cells (moved q))))
        ∧ (m.isSealed = false → why = .written → (s.units.slot q).committed = true → k.hdr.recordKind = .data →
          exec .memberMove s = .next (s.withUnits (present .engine
            (.copySwitch (.entry k.hdr.part k.hdr.key) k.orig k.loc k.hdr.cells) (step (moved q) (.copySwitching false)))))
        ∧ (m.isSealed = false → why = .tombstone
            ∨ why = .written ∧ ((s.units.slot q).committed = false ∨ k.hdr.recordKind ≠ .data) →
          exec .memberMove s = .next (s.withUnits (present .engine
            (.report (.dead k.orig k.hdr.cells)) (step (moved q) (.reporting .original))))))
  -- the programs of a copy
  ∧ ∀ (k : Copy) (q : Request) (u : Units), q.who = .engine → u.ce.io = ⟨some q, true⟩ → u.ce.copy = some k →
    let ce := u.ce
    let cells := k.hdr.cells
    let asks (st : CStep) (cell : Nat) (bytes : List Byte) : Units := u.setCe { ce with
      step := st, io := ⟨some ⟨.engine, k.loc.seg, .program cell bytes⟩, false⟩ }
    let marks (st : CStep) (b : Byte) : Units := asks st k.loc.cell (b :: List.replicate 15 0xFF)
    let waits (st : CStep) (v : Units) : Units := v.setCe { ce with step := st, io := ⟨none, false⟩ }
    let claims (st : CStep) (c : Claim) (v : Units) : Units := present .engine c (waits st v)
    let done := programDelivered q true u
    let failed := programDelivered q false u
    let handedOver : Units := match k.basis with
      | .entry => claims (.copySwitching (decide (k.hdr.txn ≠ 0)))
          (.copySwitch (.entry k.hdr.part k.hdr.key) k.orig k.loc cells) u
      | .memberWritten => waits (.moving .written) u
      | .memberTombstone => waits (.moving .tombstone) u
      | .commitSet => claims (.copySwitching false) (.copySwitch (.commitMember k.hdr.txn) k.orig k.loc cells) u
    (ce.step = .header → done =
      if k.hdr.recordKind = .commit then marks .live 0x1F
      else if 1 < cells then asks (.payload 0) (k.loc.cell + 1) (slice k.bytes 16 16)
      else marks .written 0x3F)
    ∧ (∀ i, ce.step = .payload i → done =
      if i + 2 < cells then asks (.payload (i + 1)) (k.loc.cell + (i + 2)) (slice k.bytes (16 * (i + 2)) 16)
      else marks .written 0x3F)
    ∧ (ce.step = .written → done = if k.target = .live then marks .live 0x1F else handedOver)
    ∧ (ce.step = .live → done = handedOver)
    ∧ (ce.step = .header ∨ (∃ i, ce.step = .payload i) ∨ ce.step = .written ∨ ce.step = .live → failed =
      if k.hdr.recordKind = .commit then claims (.reporting .failed) (.report (.dead k.loc cells)) u
      else marks (.retiring .failed 0 1) 0xEF)
    ∧ (∀ why i tries, ce.step = .retiring why i tries →
      let mark (i : Nat) : Byte := [0xEF, 0xDF, 0xBF, 0x7F].getD i 0
      let ends (v : Units) : Units := match why with
        | .stale => recordDone cells (v.setCe { ce with io := ⟨none, false⟩ })
        | .staleReport => claims (.reporting .discarded) (.report (.dead k.loc cells)) v
        | .failed => claims (.reporting .failed) (.report (.dead k.loc cells)) v
      let suspect : Units := { u with
        iu := { u.iu with segs := u.iu.segs.modify (k.loc.seg - 2) (fun x => { x with suspect := true }) },
        nu := { u.nu with posts := u.nu.posts ++ if (u.iu.seg k.loc.seg).suspect = true then [] else
          [⟨.engine, .authority, { Notice.plain .integrity with
            part := some k.hdr.part, key := (if k.hdr.recordKind = .commit then none else some k.hdr.key),
            seg := some k.loc.seg, reason := some .suspect }⟩] } }
      (i < 3 → done = marks (.retiring why (i + 1) 1) (mark (i + 1)))
      ∧ (i = 3 → done = ends u)
      ∧ (why = .failed → failed = ends u)
      ∧ (why ≠ .failed → i ≤ 3 → tries < 3 → failed = marks (.retiring why i (tries + 1)) (mark i))
      ∧ (why ≠ .failed → 3 ≤ tries → failed = ends suspect))

/-- REPORT: the record's cells go from live to dead; a failed record's segment is then closed suspect, a tombstone's report
ends its command or goes on with the next member; a retired COMMIT record's number leaves the commit set, or the record is
retired again where the set now names it; each TOMBSTONE member left short of LIVE is then reported dead (log 43); and the
COMMIT is answered OK and the claim passes on, to the oldest waiter if there is one that no event has shut out (log 66), at
which an engine in its sweep repeats it; the outcome of a command that a port reset has dropped is dropped, and its port's
drain may end (R15, R45, R47, R63, R67, R68, R70, R71, R79, R81, R93, R98, R110 to R112, R114, R179, log 50). That a
TOMBSTONE member left short of LIVE is reported dead at this moment, and that a claim released during a sweep is noted for
its repetition (the engine's field again), are read by inference from R15 and R114 (logs 43, 50); that a released claim
passes to no waiter an event has shut out is the model's choice (log 66); the clock's unit of 2.5 ms is the model's choice
(log 2). -/
def Obligations.ReportTakes : Prop :=
  ∀ (s : State),
    let u := popClaim s.units
    let dead (l : Location) (cells : Nat) : Units := u.setIu { u.iu with
      segs := u.iu.segs.modify (l.seg - 2) (fun x => { x with live := x.live - cells, dead := x.dead + cells }) }
    let free := { s.units.rw with cur := none, io := ⟨none, false⟩ }
    -- a COMPLETE behind its COMMIT record
    let ends (p : Port) (job : Job) (rec : List Location) (v : Units) : Prop :=
      let sl := s.units.slot p
      let left (m : Member) : Prop := m.op = .delete ∧ m.isSealed = false
      let ended := (v.delivers p (Posting.code .ok)).setSlot p Slot.start
      (∀ i m, sl.members[i]? = some m → left m → (∀ k x, k < i → sl.members[k]? = some x → ¬ left x) →
        exec .report s = .next (s.withUnits (present .writer (.report (.dead m.loc 1))
          ((v.setSlot p { sl with members := sl.members.modify i (fun m => { m with isSealed := true }) }).setRw
            { s.units.rw with cur := some ⟨job, .reporting .leftTomb m.loc, rec⟩ }))))
      ∧ ((∀ m ∈ sl.members, ¬ left m) → sl.state = .committing →
        ∃ t, ended.Released sl.part t ∧ exec .report s = .next (s.withUnits (kick ((t.setRw free).drained p))))
      ∧ ((∀ m ∈ sl.members, ¬ left m) → sl.state ≠ .committing →
        exec .report s = .next (s.withUnits (kick ((v.setRw free).drained p))))
    (∀ l cells r k rec, s.oldestClaim .writer (.report (.dead l cells)) →
      s.units.rw.cur = some ⟨.record r, .reporting .failed k, rec⟩ →
      exec .report s = .next (s.withUnits (present .writer (.close k.seg .suspect)
        ((dead l cells).setRw { s.units.rw with cur := some ⟨.record r, .suspectClaim k, rec⟩ }))))
    ∧ (∀ l cells r what k rec, s.oldestClaim .writer (.report (.dead l cells)) →
      s.units.rw.cur = some ⟨.record r, .reporting what k, rec⟩ → what ≠ .failed → r.role = .single →
      exec .report s = .next (s.withUnits (kick ((((dead l cells).delivers r.port ⟨{ Results.zero with
        code := 0x01, gen := BitVec.ofNat 32 (r.gen.getD 0) }, []⟩).setRw free).drained r.port))))
    ∧ (∀ l cells p part txn ds i k rec m, s.oldestClaim .writer (.report (.dead l cells)) →
      s.units.rw.cur = some ⟨.complete p part txn ds, .reporting (.tombOf i) k, rec⟩ →
      (s.units.slot p).members[i + 1]? = some m →
      exec .report s = .next (s.withUnits ((dead l cells).setRw { s.units.rw with
        cur := some ⟨.complete p part txn ds, .memberLive (i + 1) m.loc 1 false,
          if i + 1 < rec.length then rec.set (i + 1) m.loc else rec ++ [m.loc]⟩,
        io := ⟨some ⟨.writer, m.loc.seg, .program m.loc.cell (0x1F :: List.replicate 15 0xFF)⟩, false⟩ })))
    ∧ (∀ l p part txn ds k rec x, s.oldestClaim .writer (.report (.commitRetired txn l)) →
      s.units.rw.cur = some ⟨.complete p part txn ds, .reporting .commitRecord k, rec⟩ →
      s.units.iu.commitSet.find? (fun e => e.txn == txn) = some x →
      (x.loc ≠ l →
        exec .report s = .next (s.withUnits (u.setRw { s.units.rw with
          cur := some ⟨.complete p part txn ds, .retiring .commitRecord x.loc 0 1, rec⟩,
          io := ⟨some ⟨.writer, x.loc.seg, .program x.loc.cell (0xEF :: List.replicate 15 0xFF)⟩, false⟩ })))
      ∧ (x.loc = l → ends p (.complete p part txn ds) rec
          (u.setIu { (dead l 1).iu with commitSet := s.units.iu.commitSet.filter (fun e => e.txn != txn) })))
    ∧ (∀ l p part txn ds k rec, s.oldestClaim .writer (.report (.dead l 1)) →
      s.units.rw.cur = some ⟨.complete p part txn ds, .reporting .leftTomb k, rec⟩ →
      ends p (.complete p part txn ds) rec (dead l 1))
    ∧ (∀ l cells k, s.oldestClaim .engine (.report (.dead l cells)) → s.units.ce.copy = some k → s.writerSteady →
      (s.units.ce.step = .reporting .failed →
        exec .report s = .next (s.withUnits (present .engine (.close k.loc.seg .suspect)
          ((dead l cells).setCe { s.units.ce with step := .suspectClaim }))))
      ∧ (∀ what, s.units.ce.step = .reporting what → what ≠ .failed →
        exec .report s = .next (s.withUnits (recordDone k.hdr.cells (dead l cells)))))

/-- LOSS: an entry that names the lost record is removed, its cells dead, one integrity fault counted and one notice posted
to the authority ports; an entry that no longer does is left. SWEEP: every entry, commit set member and staged member that
lies in the victim is named, and with none the erase follows (R114, R116, R137). That a LOSS counts and posts when it
removes an entry is read by inference (log 20); the order in which a sweep reads what is named is the model's choice (log
52). -/
def Obligations.LossAndSweepTake : Prop :=
  (∀ (part key : Nat) (l : Location) (s : State), s.oldestClaim .engine (.loss part key l) →
    let u := popClaim s.units
    let lost : Notice := { Notice.plain .integrity with
      part := some part, key := some key, seg := some (s.units.ce.victim.getD 0), reason := some .lost }
    (∀ e, s.units.iu.find part key = some e → e.loc = l →
      ∃ iu : IndexUnit, exec .loss s = .next (s.withUnits (recordDone 0 { u.setIu iu with nu := { s.units.nu with
          posts := s.units.nu.posts ++ [⟨.engine, .authority, lost⟩] } }))
        ∧ (∀ part' key', iu.find part' key' = if part' = part ∧ key' = key then none else s.units.iu.find part' key')
        ∧ iu.faults = min 65535 (s.units.iu.faults + 1)
        ∧ iu.segs = s.units.iu.segs.modify (l.seg - 2)
            (fun x => { x with live := x.live - e.cells, dead := x.dead + e.cells })
        ∧ iu.charges = s.units.iu.charges ∧ iu.commitSet = s.units.iu.commitSet)
    ∧ ((∀ e, s.units.iu.find part key = some e → e.loc ≠ l) → exec .loss s = .next (s.withUnits (recordDone 0 u))))
  ∧ ∀ (v : Nat) (s : State), s.oldestClaim .engine (.sweep v) →
    ∃ ns : List Named,
      (∀ n, n ∈ ns ↔
        (∃ e ∈ s.units.iu.entries, e.loc.seg = v ∧ n = .entry e.part e.key e.loc)
        ∨ (∃ x ∈ s.units.iu.commitSet, x.loc.seg = v ∧ n = .commitMember x.txn x.part x.loc)
        ∨ (∃ p, ∃ m ∈ (s.units.slot p).members, m.loc.seg = v
            ∧ n = .member (s.units.slot p).number (s.units.slot p).part m.key m.loc))
      ∧ (ns = [] → exec .sweep s = .next (s.withUnits ((popClaim s.units).setCe { s.units.ce with
          state := .erase, step := .waitErase, cleared := false, copy := none, todo := none })))
      ∧ (∀ n rest, ns = n :: rest → exec .sweep s = .next (s.withUnits ((popClaim s.units).setCe { s.units.ce with
          todo := some ns, unread := false, again := false, step := .sweepRead, reading := n.loc,
          io := ⟨some ⟨.engine, n.loc.seg, .read n.loc.cell 1⟩, false⟩ })))

/-- ALLOCATE: cells of the claimant's head when they fit; otherwise the head leaves its role, its unallocated cells dead,
and is closed first. A new head is the least-worn erased segment, with the next sequence number, prepared first when BLANK:
for the Writer when more than 2 erased segments remain, for the engine from any, the reserve included; the erased count is
then compared with the low-water mark. Else the Writer's job leaves for the space wait list at the answer, before a head it
has still to close (log 22; an aborted stage ends), and the engine's pass is abandoned, its low-water run OFF (R50 to R54,
R60, R84, R101, R109, R115). That the Writer closes the head a job left behind before its next job is read by inference (log
22); that an engine repeating its sweep is not waiting (log 61), and that an abandoned pass ends its low-water run when its
NO_VICTIM is presented (log 21), are the model's choices. -/
def Obligations.AllocateTakes : Prop :=
  ∀ (n : Nat) (s : State),
    let u := popClaim s.units
    let iu := s.units.iu
    let erased := iu.segs.countP (·.avail)
    let low := s.units.pu.shadow.lowWater
    let full : List Byte := 0xF8 :: List.replicate 15 0xFF
    let placed (h : Nat) : List SegEntry := iu.segs.modify (h - 2) (fun x => { x with next := x.next + n, live := x.live + n })
    let left (h : Nat) : List SegEntry := iu.segs.modify (h - 2) (fun x => { x with next := 128, dead := x.dead + (128 - x.next) })
    let leastWorn (seg : Nat) : Prop := 2 ≤ seg ∧ seg - 2 < iu.segs.length ∧ (iu.seg seg).avail = true
      ∧ ∀ k, 2 ≤ k → k - 2 < iu.segs.length → (iu.seg k).avail = true →
          (iu.seg seg).eraseCount < (iu.seg k).eraseCount ∨ ((iu.seg seg).eraseCount = (iu.seg k).eraseCount ∧ seg ≤ k)
    -- a head drawn from the erased segments, and the comparison with the low-water mark
    let drawn (before : IndexUnit) (k : NewHead) (v : Units) : Prop :=
      leastWorn k.seg ∧ k.seq = iu.seqNext
      ∧ k.prepare = (if (iu.seg k.seg).state = .blank then some (iu.seg k.seg).eraseCount else none)
      ∧ v = { u with
          iu := { before with
            segs := before.segs.modify (k.seg - 2) (fun x => { x with avail := false }),
            seqNext := iu.seqNext + 1, armed := decide (low < erased - 1) },
          ce := { s.units.ce with lowRun := s.units.ce.lowRun || decide (erased - 1 ≤ low) },
          nu := { s.units.nu with posts := s.units.nu.posts
            ++ if iu.armed = true ∧ erased - 1 ≤ low then [⟨.index, .every, Notice.plain .spaceLow⟩] else [] } }
    (∀ k : Copy, s.oldestClaim .engine (.allocate n) → s.units.ce.copy = some k → s.writerSteady →
      let asks (v : Units) (st : CStep) (seg : Nat) (bytes : List Byte) : Units :=
        v.setCe { v.ce with step := st, io := ⟨some ⟨.engine, seg, .program 0 bytes⟩, false⟩ }
      let closed (h : Nat) : IndexUnit := { u.iu with copyHead := none, segs := left h }
      (∀ h, iu.copyHead = some h → (iu.seg h).next + n ≤ 128 →
        exec .allocate s = .next (s.withUnits ((u.setIu { u.iu with segs := placed h }).setCe { s.units.ce with
          copy := some { k with loc := ⟨h, (iu.seg h).next⟩ }, step := .header,
          io := ⟨some ⟨.engine, h, .program (iu.seg h).next (k.hdr.bytes 0x7F)⟩, false⟩ })))
      ∧ (∀ h, iu.copyHead = some h → 128 < (iu.seg h).next + n → erased = 0 →
        exec .allocate s = .next (s.withUnits (asks (u.setIu (closed h)) (.head (.closing h 1 .none)) h full)))
      ∧ (∀ h, iu.copyHead = some h → 128 < (iu.seg h).next + n → 0 < erased →
        ∃ v k', drawn (closed h) k' v
          ∧ exec .allocate s = .next (s.withUnits (asks v (.head (.closing h 1 (.newHead k'))) h full)))
      ∧ (iu.copyHead = none → 0 < erased →
        ∃ v k', drawn u.iu k' v
          ∧ (∀ c, k'.prepare = some c →
              exec .allocate s = .next (s.withUnits (asks v (.head (.preparing k')) k'.seg (prepareProgram c))))
          ∧ (k'.prepare = none →
              exec .allocate s = .next (s.withUnits (asks v (.head (.opening k')) k'.seg (openProgram k'.seq)))))
      ∧ (iu.copyHead = none → erased = 0 →
        exec .allocate s = .next (s.withUnits (present .engine .noVictim
          (u.setCe { s.units.ce with step := .abandonClaim, lowRun := false })))))
    ∧ ∀ (r : RecordJob) (rec : List Location), s.oldestClaim .writer (.allocate n) →
      s.units.rw.cur = some ⟨.record r, .allocating, rec⟩ →
      let asks (v : Units) (st : WStep) (seg cell : Nat) (bytes : List Byte) : Units := v.setRw { s.units.rw with
        cur := some ⟨.record r, st, rec⟩, io := ⟨some ⟨.writer, seg, .program cell bytes⟩, false⟩ }
      let closed (h : Nat) : IndexUnit := { u.iu with writeHead := none, segs := left h }
      let waits (v : Units) : Units :=
        if r.role = .stage ∧ (s.units.slot r.port).state = .aborting then
          v.setSlot r.port { s.units.slot r.port with stage := none }
        else
          let w := (v.setIu { v.iu with spaceWait := iu.spaceWait ++ [⟨r.port, r, 1 + (r.length + 15) / 16⟩] }).setCe
            { s.units.ce with restart := true, mode := .urgent }
          if s.units.ce.step = .sweepWaiting then present .engine .noVictim w else w
      (∀ h, iu.writeHead = some h → (iu.seg h).next + n ≤ 128 →
        exec .allocate s = .next (s.withUnits (asks (u.setIu { u.iu with segs := placed h })
          (.header ⟨h, (iu.seg h).next⟩) h (iu.seg h).next
          ((newHeader r.kind r.part r.key r.length r.txn (r.gen.getD 0) r.payload).bytes 0x7F))))
      ∧ (∀ h, iu.writeHead = some h → 128 < (iu.seg h).next + n → erased ≤ 2 →
        exec .allocate s = .next (s.withUnits (asks (waits (u.setIu (closed h))) (.head (.closing h 1 .wait)) h 0 full)))
      ∧ (∀ h, iu.writeHead = some h → 128 < (iu.seg h).next + n → 2 < erased →
        ∃ v k, drawn (closed h) k v
          ∧ exec .allocate s = .next (s.withUnits (asks v (.head (.closing h 1 (.newHead k))) h 0 full)))
      ∧ (iu.writeHead = none → 2 < erased →
        ∃ v k, drawn u.iu k v
          ∧ (∀ c, k.prepare = some c →
              exec .allocate s = .next (s.withUnits (asks v (.head (.preparing k)) k.seg 0 (prepareProgram c))))
          ∧ (k.prepare = none →
              exec .allocate s = .next (s.withUnits (asks v (.head (.opening k)) k.seg 0 (openProgram k.seq)))))
      ∧ (iu.writeHead = none → erased ≤ 2 →
        exec .allocate s = .next (s.withUnits (kick ((waits u).setRw { s.units.rw with cur := none, io := ⟨none, false⟩ }))))

/-- OPENED: the segment is ACTIVE, its first cell free, and the head of its claimant, which asks again. CLOSE: a head leaves
its role and is suspect, with one notice if it was not; or a segment is BAD and out of the erased ones, with one notice and
the numbers retained with it given up. The programs of a head: a closing is presented up to 3 times and the segment is FULL
either way, suspect when short; a failed preparation or opening is withdrawn; and the closing of a failed record's head ends
in a new ALLOCATE, or, at the third failed location, in MEDIA or in the pass abandoned (R49 to R51, R60, R70, R72, R81,
R101, R109, R112, R115, R117). Partition and key of the INTEGRITY notices (log 23), that a stage's RELEASE is waited for by
no one (log 42), that an abandoned pass ends its low-water run when its NO_VICTIM is presented (log 21), and the kept victim
(log 37) are the model's choices; the values of the victim source and the erase attempts without a pass are log 5. -/
def Obligations.OpenedAndCloseTake : Prop :=
  let full : List Byte := 0xF8 :: List.replicate 15 0xFF
  let bad : List Byte := 0x7F :: List.replicate 15 0xFF
  let integrity (who : Poster) (part key : Option Nat) (reason : NoticeReason) (seg : Nat) : Post :=
    ⟨who, .authority, { Notice.plain .integrity with part := part, key := key, seg := some seg, reason := some reason }⟩
  (∀ (r : RecordJob) (rec : List Location) (s : State),
    let u := popClaim s.units
    let iu := u.iu
    let notice := integrity .writer (some r.part) (if r.kind = .commit then none else some r.key)
    (∀ h, s.oldestClaim .writer (.opened h) → s.units.rw.cur = some ⟨.record r, .openedClaim h, rec⟩ →
      exec .opened s = .next (s.withUnits (present .writer (.allocate (1 + (r.length + 15) / 16))
        ((u.setIu { iu with
          writeHead := some h.seg,
          segs := iu.segs.modify (h.seg - 2) (fun x => { x with
            state := .active, seq := some h.seq, next := 1, live := 0, dead := 0, avail := false,
            eraseCount := h.prepare.getD x.eraseCount }) }).setRw
          { s.units.rw with cur := some ⟨.record r, .allocating, rec⟩ }))))
    ∧ (∀ seg l, s.oldestClaim .writer (.close seg .suspect) → s.units.rw.cur = some ⟨.record r, .suspectClaim l, rec⟩ →
      l.seg = seg →
      exec .close s = .next (s.withUnits ({ u.setIu { iu with
          writeHead := none,
          segs := iu.segs.modify (seg - 2)
            (fun x => { x with next := 128, dead := x.dead + (128 - x.next), suspect := true }) } with
        nu := { u.nu with
          posts := if (iu.seg seg).suspect then u.nu.posts else u.nu.posts ++ [notice .suspect seg] } }.setRw
          { s.units.rw with
            cur := some ⟨.record r, .closingFailed seg 1, rec⟩, io := ⟨some ⟨.writer, seg, .program 0 full⟩, false⟩ })))
    ∧ (∀ seg, s.oldestClaim .writer (.close seg .bad) → s.units.rw.cur = some ⟨.record r, .badClaim seg, rec⟩ →
      exec .close s = .next (s.withUnits (present .writer (.allocate (1 + (r.length + 15) / 16))
        ({ u.setIu { iu with
            segs := iu.segs.modify (seg - 2) (fun x => { x with state := .bad, avail := false }) } with
          nu := { u.nu with posts := u.nu.posts ++ [notice .bad seg] },
          tm := { u.tm with retained := u.tm.retained.filter (fun x => x.2 != seg) } }.setRw
            { s.units.rw with cur := some ⟨.record r, .allocating, rec⟩ })))))
  -- the same at the engine
  ∧ (∀ (k : Copy) (s : State), s.units.ce.copy = some k →
    let u := popClaim s.units
    let iu := u.iu
    let notice := integrity .engine (some k.hdr.part) (if k.hdr.recordKind = .commit then none else some k.hdr.key)
    (∀ h, s.oldestClaim .engine (.opened h) →
      exec .opened s = .next (s.withUnits (present .engine (.allocate k.hdr.cells)
        ((u.setIu { iu with
          copyHead := some h.seg,
          segs := iu.segs.modify (h.seg - 2) (fun x => { x with
            state := .active, seq := some h.seq, next := 1, live := 0, dead := 0, avail := false,
            eraseCount := h.prepare.getD x.eraseCount }) }).setCe { s.units.ce with step := .allocating }))))
    ∧ (s.oldestClaim .engine (.close k.loc.seg .suspect) → s.units.ce.step = .suspectClaim →
      exec .close s = .next (s.withUnits ({ u.setIu { iu with
          copyHead := none,
          segs := iu.segs.modify (k.loc.seg - 2)
            (fun x => { x with next := 128, dead := x.dead + (128 - x.next), suspect := true }) } with
        nu := { u.nu with
          posts := if (iu.seg k.loc.seg).suspect then u.nu.posts else u.nu.posts ++ [notice .suspect k.loc.seg] } }.setCe
          { s.units.ce with
            step := .closingFailed k.loc.seg 1, io := ⟨some ⟨.engine, k.loc.seg, .program 0 full⟩, false⟩ })))
    ∧ (∀ seg, s.oldestClaim .engine (.close seg .bad) → s.units.ce.step = .badClaim seg →
      exec .close s = .next (s.withUnits (present .engine (.allocate k.hdr.cells)
        ({ u.setIu { iu with
            segs := iu.segs.modify (seg - 2) (fun x => { x with state := .bad, avail := false }) } with
          nu := { u.nu with posts := u.nu.posts ++ [notice .bad seg] },
          tm := { u.tm with retained := u.tm.retained.filter (fun x => x.2 != seg) } }.setCe
            { s.units.ce with step := .allocating })))))
  -- the victim withdrawn: the pass ends, every RECLAIM owed answered OK
  ∧ (∀ (seg : Nat) (s : State), s.oldestClaim .engine (.close seg .bad) → s.units.ce.step = .badVictimClaim →
    s.units.ce.victim = some seg →
    let iu := (popClaim s.units).iu
    ∃ w, exec .close s = .next (s.withUnits w)
      ∧ w.iu = { iu with segs := iu.segs.modify (seg - 2) (fun x => { x with state := .bad, avail := false }) }
      ∧ w.nu = { s.units.nu with posts := s.units.nu.posts ++ [integrity .engine none none .bad seg] }
      ∧ w.tm = { s.units.tm with retained := s.units.tm.retained.filter (fun x => x.2 != seg) }
      ∧ w.ce = { s.units.ce with
          state := .idle, kind := none, victim := s.units.ce.kept, kept := none,
          source := if s.units.ce.kept = none then .selected else .held, copy := none, attempts := 0, owed := [],
          cleared := false, step := .idle, todo := if s.units.ce.kept = none then none else s.units.ce.todo, unread := false,
          again := false, noted := if s.units.ce.kept = none then [] else s.units.ce.noted, io := ⟨none, false⟩,
          lowRun := s.units.ce.lowRun && decide (w.iu.segs.countP (·.avail) < s.units.pu.shadow.lowWater + 2) }
      ∧ w.rw = s.units.rw ∧ w.pu = s.units.pu ∧ w.me = s.units.me ∧ w.clock = s.units.clock ∧ w.media = s.units.media
      ∧ (∀ p c, (s.units.port p).inHand = some c → p ∈ s.units.ce.owed → (w.port p).outcome = some (Posting.code .ok))
      ∧ (∀ p, p ∉ s.units.ce.owed → w.port p = s.units.port p))
  -- the programs of the Writer on the header of a head
  ∧ (∀ (r : RecordJob) (st : WStep) (rec : List Location) (q : Request) (u : Units),
    q.who = .writer → u.rw.io = ⟨some q, true⟩ → u.rw.cur = some ⟨.record r, st, rec⟩ →
    let cells := 1 + (r.length + 15) / 16
    let notice := integrity .writer (some r.part) (if r.kind = .commit then none else some r.key)
    let asks (v : Units) (st : WStep) (seg : Nat) (bytes : List Byte) : Units := v.setRw { u.rw with
      cur := some ⟨.record r, st, rec⟩, io := ⟨some ⟨.writer, seg, .program 0 bytes⟩, false⟩ }
    let claims (v : Units) (r : RecordJob) (st : WStep) (c : Claim) : Units :=
      present .writer c (v.setRw { u.rw with cur := some ⟨.record r, st, rec⟩, io := ⟨none, false⟩ })
    let free (v : Units) : Units := v.setRw { v.rw with cur := none, io := ⟨none, false⟩ }
    let shut (seg : Nat) (ok : Bool) : Units := { u with
      iu := { u.iu with segs := u.iu.segs.modify (seg - 2) (fun x => { x with state := .full, suspect := x.suspect || !ok }) },
      nu := { u.nu with posts := u.nu.posts
        ++ if ok = true ∨ (u.iu.seg seg).suspect = true then [] else [notice .suspect seg] } }
    (∀ seg tries rest, st = .head (.closing seg tries rest) →
      (tries < 3 → programDelivered q false u = asks u (.head (.closing seg (tries + 1) rest)) seg full)
      ∧ ∀ ok : Bool, ok = true ∨ 3 ≤ tries →
        (∀ k c, rest = .newHead k → k.prepare = some c →
          programDelivered q ok u = asks (shut seg ok) (.head (.preparing k)) k.seg (prepareProgram c))
        ∧ (∀ k, rest = .newHead k → k.prepare = none →
          programDelivered q ok u = asks (shut seg ok) (.head (.opening k)) k.seg (openProgram k.seq))
        ∧ (rest = .wait → programDelivered q ok u = kick (settle r.port (free (shut seg ok)))))
    ∧ (∀ k, st = .head (.preparing k) →
      programDelivered q true u = asks u (.head (.opening k)) k.seg (openProgram k.seq)
      ∧ programDelivered q false u = asks u (.head (.withdrawing k.seg)) k.seg bad)
    ∧ (∀ k, st = .head (.opening k) →
      programDelivered q true u = claims u r (.openedClaim k) (.opened k)
      ∧ programDelivered q false u = asks u (.head (.withdrawing k.seg)) k.seg bad)
    ∧ (∀ seg ok, st = .head (.withdrawing seg) →
      programDelivered q ok u = claims u r (.badClaim seg) (.close seg .bad))
    -- the closing of a failed record's head (R70)
    ∧ (∀ seg tries, st = .closingFailed seg tries →
      let again : RecordJob := { r with relocs := r.relocs + 1 }
      let p := r.port
      let sl := u.slot p
      (tries < 3 → programDelivered q false u = asks u (.closingFailed seg (tries + 1)) seg full)
      ∧ ∀ ok : Bool, ok = true ∨ 3 ≤ tries →
        (r.relocs < 2 → programDelivered q ok u = claims (shut seg ok) again .allocating (.allocate cells))
        ∧ (2 ≤ r.relocs → r.role = .single →
          programDelivered q ok u = claims (shut seg ok) again (.releasing .media) (.release (.single p)))
        ∧ (∀ c, 2 ≤ r.relocs → r.role = .stage → sl.state = .opened → (u.port p).inHand = some c →
          programDelivered q ok u = kick (free ((present (.txn p) (.release (.stagePending p r.key))
            ((shut seg ok).setSlot p { sl with stage := none })).withOutcome p (Posting.code .media))))
        ∧ (2 ≤ r.relocs → r.role = .stage → sl.state = .aborting →
          programDelivered q ok u = kick (free ((shut seg ok).setSlot p { sl with stage := none })))
        ∧ (2 ≤ r.relocs → r.role = .commit → sl.state = .committing →
          programDelivered q ok u = kick (free (sendJob (.abortClean p)
            ((shut seg ok).setSlot p { sl with state := .aborting, reply := some .media }))))
        ∧ (2 ≤ r.relocs → r.role = .commit → sl.state ≠ .committing →
          programDelivered q ok u = kick ((free (shut seg ok)).drained p))))
  -- and those of the engine
  ∧ ∀ (k : Copy) (q : Request) (u : Units), q.who = .engine → u.ce.io = ⟨some q, true⟩ → u.ce.copy = some k →
    let notice := integrity .engine (some k.hdr.part) (if k.hdr.recordKind = .commit then none else some k.hdr.key)
    let asks (v : Units) (st : CStep) (seg : Nat) (bytes : List Byte) : Units :=
      v.setCe { u.ce with step := st, io := ⟨some ⟨.engine, seg, .program 0 bytes⟩, false⟩ }
    let claims (v : Units) (k : Copy) (st : CStep) (c : Claim) : Units :=
      present .engine c (v.setCe { u.ce with copy := some k, step := st, io := ⟨none, false⟩ })
    let shut (seg : Nat) (ok : Bool) : Units := { u with
      iu := { u.iu with segs := u.iu.segs.modify (seg - 2) (fun x => { x with state := .full, suspect := x.suspect || !ok }) },
      nu := { u.nu with posts := u.nu.posts
        ++ if ok = true ∨ (u.iu.seg seg).suspect = true then [] else [notice .suspect seg] } }
    let abandons (v : Units) (k : Copy) : Units := present .engine .noVictim
      (v.setCe { u.ce with copy := some k, step := .abandonClaim, lowRun := false, io := ⟨none, false⟩ })
    (∀ seg tries rest, u.ce.step = .head (.closing seg tries rest) →
      (tries < 3 → programDelivered q false u = asks u (.head (.closing seg (tries + 1) rest)) seg full)
      ∧ ∀ ok : Bool, ok = true ∨ 3 ≤ tries →
        (∀ h c, rest = .newHead h → h.prepare = some c →
          programDelivered q ok u = asks (shut seg ok) (.head (.preparing h)) h.seg (prepareProgram c))
        ∧ (∀ h, rest = .newHead h → h.prepare = none →
          programDelivered q ok u = asks (shut seg ok) (.head (.opening h)) h.seg (openProgram h.seq))
        ∧ (rest = .none → programDelivered q ok u = abandons (shut seg ok) k))
    ∧ (∀ h, u.ce.step = .head (.preparing h) →
      programDelivered q true u = asks u (.head (.opening h)) h.seg (openProgram h.seq)
      ∧ programDelivered q false u = asks u (.head (.withdrawing h.seg)) h.seg bad)
    ∧ (∀ h, u.ce.step = .head (.opening h) →
      programDelivered q true u = claims u k (.openedClaim h) (.opened h)
      ∧ programDelivered q false u = asks u (.head (.withdrawing h.seg)) h.seg bad)
    ∧ (∀ seg ok, u.ce.step = .head (.withdrawing seg) →
      programDelivered q ok u = claims u k (.badClaim seg) (.close seg .bad))
    ∧ (∀ seg tries, u.ce.step = .closingFailed seg tries →
      let again : Copy := { k with attempts := k.attempts + 1 }
      (tries < 3 → programDelivered q false u = asks u (.closingFailed seg (tries + 1)) seg full)
      ∧ ∀ ok : Bool, ok = true ∨ 3 ≤ tries →
        programDelivered q ok u = if k.attempts < 2 then claims (shut seg ok) again .allocating (.allocate k.hdr.cells)
          else abandons (shut seg ok) again)

/-- The rows of a pass at the Index Unit: RECLAIMING puts the victim in RECLAIMING and the engine in COPY at cell 1; ERASED
puts it in BLANK and the engine in PREPARE with the erase count raised by 1; PREPARED returns it to the erased segments,
answers the RECLAIMs owed OK and ends the pass, the waiting jobs rejoining the Writer's queue when more than 2 are erased;
NO_VICTIM ends every waiting job NO_SPACE, its pending change released, a stage's slot without it, a COMMIT's OPEN again
with its lease started, and ends the pass without a victim or abandons it, the victim held at the record that could not be
copied (log 49), each RECLAIM owed answered NO_SPACE (R53, R88, R94, R101, R102, R105, R106, R115, R117, R118). That the end
of a pass without a victim waits for its NO_VICTIM claim (log 21), the values of the victim source and the erase attempts
without a pass (log 5), and the kept victim (log 37) are the model's choices; that a COMMIT that waits at a draining port is
aborted (log 36), and that a pass abandoned in its sweep is taken up again there (log 49), are read by inference or chosen
as those logs say. -/
def Obligations.RowsOfAPass : Prop :=
  ∀ (s : State),
    let u := popClaim s.units
    let iu := u.iu
    let ce := s.units.ce
    let v := ce.victim.getD 0
    -- the engine without a pass: a victim held before an ERASE_ONLY pass is held again, with what is held with it
    let idle : CompactionEngine := { ce with
      state := .idle, kind := none, victim := ce.kept, kept := none,
      source := if ce.kept = none then .selected else .held, copy := none, attempts := 0, owed := [], cleared := false,
      step := .idle, todo := if ce.kept = none then none else ce.todo, unread := false, again := false,
      noted := if ce.kept = none then [] else ce.noted, io := ⟨none, false⟩ }
    (s.oldestClaim .engine (.reclaiming v) →
      exec .reclaiming s = .next (s.withUnits
        ((u.setIu { iu with segs := iu.segs.modify (v - 2) (fun x => { x with state := .reclaiming }) }).setCe { ce with
          state := .copy, scan := 1, todo := none, step := .scanRead, reading := ⟨v, 1⟩,
          io := ⟨some ⟨.engine, v, .read 1 1⟩, false⟩ })))
    ∧ (s.oldestClaim .engine (.erased v) → 2 ≤ v → v - 2 < iu.segs.length →
      exec .erased s = .next (s.withUnits
        ((u.setIu { iu with segs := iu.segs.modify (v - 2) (fun x => { x with state := .blank, seq := none }) }).setCe { ce with
          state := .prepare, step := .preparing,
          io := ⟨some ⟨.engine, v, .program 0 (prepareProgram (min 16777215 ((iu.seg v).eraseCount + 1)))⟩, false⟩ })))
    ∧ (∀ seg count, s.oldestClaim .engine (.prepared seg count) → 2 ≤ seg → seg - 2 < iu.segs.length →
      ∃ w, exec .prepared s = .next (s.withUnits (kick w))
        ∧ w.iu = { iu with
            segs := iu.segs.modify (seg - 2) (fun x => { x with
              state := .prepared, eraseCount := count, seq := none, next := 1, live := 0, dead := 0, suspect := false,
              avail := true })
            armed := iu.armed || decide (s.units.pu.shadow.lowWater < w.iu.segs.countP (·.avail))
            spaceWait := w.iu.spaceWait }
        ∧ w.tm = { s.units.tm with retained := s.units.tm.retained.filter (fun x => x.2 != seg) }
        ∧ w.rw = { s.units.rw with queue := w.rw.queue } ∧ w.nu = s.units.nu ∧ w.pu = s.units.pu ∧ w.me = s.units.me
        ∧ w.clock = s.units.clock ∧ w.media = s.units.media
        ∧ w.ce = { idle with lowRun := w.ce.lowRun, mode := w.ce.mode }
        ∧ (∀ p c, (s.units.port p).inHand = some c → p ∈ ce.owed →
            w.port p = { s.units.port p with outcome := some (Posting.code .ok) })
        ∧ (∀ p, (s.units.port p).inHand = none → w.port p = s.units.port p)
        ∧ (∀ p, p ∉ ce.owed → w.port p = s.units.port p)
        ∧ (let erased := w.iu.segs.countP (·.avail)
           (2 < erased → w.iu.spaceWait = [] ∧ w.ce.mode = .normal
              ∧ w.rw.queue = s.units.rw.queue ++ iu.spaceWait.map (fun x => Job.record x.job))
           ∧ (erased ≤ 2 → w.iu.spaceWait = iu.spaceWait ∧ w.ce.mode = ce.mode ∧ w.rw.queue = s.units.rw.queue)
           ∧ (s.units.pu.shadow.lowWater + 2 ≤ erased → w.ce.lowRun = false)
           ∧ (erased ≤ s.units.pu.shadow.lowWater → w.ce.lowRun = true)
           ∧ (s.units.pu.shadow.lowWater < erased → erased < s.units.pu.shadow.lowWater + 2 → w.ce.lowRun = ce.lowRun)))
    ∧ (s.oldestClaim .engine .noVictim → s.writerSteady → (iu.spaceWait.map (·.port)).Nodup →
      (∀ x ∈ iu.spaceWait, x.job.port = x.port ∧ (∃ c, s.serves x.port c)
        ∧ (x.job.role = .stage → (s.units.slot x.port).state = .opened)
        ∧ (x.job.role = .commit → (s.units.slot x.port).state = .committing)) →
      let owes := ce.step = .selectNone ∨ ce.step = .abandonClaim
      ∃ w, exec .noVictim s = .next (s.withUnits w)
        ∧ w.iu = { iu with spaceWait := [], charges := w.iu.charges }
        ∧ w.tm = { s.units.tm with slots := w.tm.slots } ∧ w.rw = s.units.rw ∧ w.nu = s.units.nu ∧ w.pu = s.units.pu
        ∧ w.me = s.units.me ∧ w.clock = s.units.clock
        -- the command of each waiting job, and each RECLAIM owed
        ∧ (∀ x ∈ iu.spaceWait,
            w.port x.port = { s.units.port x.port with outcome := some (Posting.code .noSpace) })
        ∧ (owes → ∀ p c, (s.units.port p).inHand = some c → p ∈ ce.owed →
            w.port p = { s.units.port p with outcome := some (Posting.code .noSpace) })
        ∧ (∀ p, (∀ x ∈ iu.spaceWait, x.port ≠ p) → ¬ (owes ∧ p ∈ ce.owed) → w.port p = s.units.port p)
        -- the pending change and the slot
        ∧ (∀ x ∈ iu.spaceWait,
            let p := x.port
            let sl := s.units.slot p
            let mine (cs : List ChargeEntry) := cs.filter (fun e => e.port == p)
            let length := (s.units.pu.shadow.part sl.part).lease
            (x.job.role = .single → mine w.iu.charges = (mine iu.charges).filter (·.staged) ∧ w.slot p = sl)
            ∧ (∀ before e after, x.job.role = .stage → mine iu.charges = before ++ e :: after → e.staged = true →
                e.key = x.job.key → (∀ g ∈ after, ¬ (g.staged = true ∧ g.key = x.job.key)) →
                mine w.iu.charges = before ++ after)
            ∧ (x.job.role = .stage → w.slot p = { sl with stage := none })
            ∧ (x.job.role = .commit → mine w.iu.charges = mine iu.charges
                ∧ w.slot p = { sl with
                    state := .opened, lease := some ⟨s.units.clock + 4 * length, s.units.clock + 3 * length, true⟩ }))
        ∧ (∀ p, (∀ x ∈ iu.spaceWait, x.port ≠ p) →
            w.slot p = s.units.slot p ∧ w.iu.charges.filter (fun e => e.port == p) = iu.charges.filter (fun e => e.port == p))
        -- the engine
        ∧ (ce.step = .selectNone → w.ce = { idle with mode := .normal })
        ∧ (ce.step = .abandonClaim → w.ce = { idle with
            mode := .normal, victim := ce.victim, source := .held, restart := false,
            scan := (match ce.copy with | some k => k.orig.cell | none => ce.scan),
            todo := ce.todo.map (·.take 1), noted := ce.noted })
        ∧ (¬ owes → w.ce = { ce with mode := .normal }))
    -- a job that waits for a port that drains: its outcome is dropped, and a COMMIT's transaction is aborted (log 36)
    ∧ (∀ x, s.oldestClaim .engine .noVictim → s.writerSteady → iu.spaceWait = [x] → x.job.port = x.port →
      (s.units.port x.port).inHand = none → (s.units.port x.port).draining = true →
      let p := x.port
      let sl := s.units.slot p
      let left (cs : List ChargeEntry) : Units := u.setIu { iu with spaceWait := [], charges := cs }
      ∃ w, exec .noVictim s = .next (s.withUnits (kick w)) ∧ w.iu.spaceWait = []
        ∧ (x.job.role = .single →
            let cs := iu.charges.filter (fun e => e.staged || e.port != p)
            w.iu.charges = cs ∧ w.tm = s.units.tm ∧ w.rw = s.units.rw ∧ w.port p = ((left cs).drained p).port p)
        ∧ (x.job.role = .commit → sl.state = .committing →
            w.iu.charges = iu.charges ∧ w.slot p = { sl with state := .aborting } ∧ w.port p = s.units.port p
            ∧ w.rw = { s.units.rw with queue := s.units.rw.queue ++ [.abortClean p] }))

/-! ## The units between the claims -/

/-- A Writer without a job takes the oldest one queued; a record takes the next generation and asks for cells, or ends
GEN_EXHAUSTED: a single change is released, a stage answered, its pending change released, and a COMMIT aborted, to be
answered at its end (R88, R94); and a record is built in the order of R61, a failed build program retiring it. The programs
that advance a record that stands are presented up to 3 times, the RETIRED program as its four marks one after the other,
the one of a failed build once; one short after 3 makes its segment suspect, with one notice if it was not, closes it where
it is the write head, retains the number of a member's or a COMMIT's record, and the job goes on as R71 gives (R13, R49,
R57, R58, R60 to R67, R70, R71, R81, R87; the names of a notice: log 23). How a head that a status program has made suspect
is closed is read by inference (log 39); the names of a notice (log 23), that the job goes on when its UNPIN is taken (log
62), and that a stage's RELEASE is waited for by no one (log 42), are the model's choices. -/
def Obligations.WriterTakesAndBuilds : Prop :=
  (∀ u : Units, u.rw.cur.isSome = true ∨ u.rw.queue = [] → kick u = u)
  ∧ (∀ (r : RecordJob) (rest : List Job) (u : Units), u.rw.cur = none → u.rw.queue = .record r :: rest →
    let taken (r : RecordJob) (g : Nat) : Units := present .writer (.allocate (1 + (r.length + 15) / 16))
      (u.setRw { u.rw with gen := g, queue := rest, cur := some ⟨.record r, .allocating, []⟩ })
    (r.gen = none → u.rw.gen < 4294967294 → kick u = taken { r with gen := some u.rw.gen } (u.rw.gen + 1))
    ∧ (∀ g, r.gen = some g → kick u = taken r u.rw.gen)
    ∧ (r.gen = none → 4294967294 ≤ u.rw.gen → r.role = .single →
        kick u = present .writer (.release (.single r.port))
          (u.setRw { u.rw with queue := rest, cur := some ⟨.record r, .releasing .genExhausted, []⟩ }))
    ∧ (r.gen = none → 4294967294 ≤ u.rw.gen →
      let p := r.port
      let sl := u.slot p
      let free (q : List Job) : RecordWriter := { u.rw with queue := q, cur := none, io := ⟨none, false⟩ }
      (∀ c, r.role = .stage → sl.state = .opened → (u.port p).inHand = some c →
        kick u = kick ((present (.txn p) (.release (.stagePending p r.key))
          ((u.setSlot p { sl with stage := none }).withOutcome p (Posting.code .genExhausted))).setRw (free rest)))
      ∧ (r.role = .stage → sl.state = .aborting → kick u = kick ((u.setSlot p { sl with stage := none }).setRw (free rest)))
      ∧ (r.role = .commit → sl.state = .committing →
          kick u = kick ((u.setSlot p { sl with state := .aborting, reply := some .genExhausted }).setRw
            (free (rest ++ [.abortClean p]))))
      ∧ (r.role = .commit → sl.state ≠ .committing → kick u = kick ((u.setRw (free rest)).drained p))))
  ∧ (∀ (r : RecordJob) (st : WStep) (rec : List Location) (q : Request) (l : Location) (u : Units),
    q.who = .writer → u.rw.io = ⟨some q, true⟩ → u.rw.cur = some ⟨.record r, st, rec⟩ →
    let asks (st : WStep) (cell : Nat) (bytes : List Byte) : Units := u.setRw { u.rw with
      cur := some ⟨.record r, st, rec⟩, io := ⟨some ⟨.writer, l.seg, .program cell bytes⟩, false⟩ }
    let only (b : Byte) : List Byte := b :: List.replicate 15 0xFF
    let waits (st : WStep) : Units := u.setRw { u.rw with cur := some ⟨.record r, st, rec⟩, io := ⟨none, false⟩ }
    let done := programDelivered q true u
    let failed := programDelivered q false u
    (st = .header l → r.kind ≠ .commit → 0 < r.length → done = asks (.payload l 0) (l.cell + 1) (slice r.payload 0 16))
    ∧ (st = .header l → r.kind ≠ .commit → r.length = 0 → done = asks (.written l) l.cell (only 0x3F))
    ∧ (st = .header l → r.kind = .commit → done = asks (.commitLive l) l.cell (only 0x1F))
    ∧ (∀ i, st = .payload l i → 16 * (i + 1) < r.length →
        done = asks (.payload l (i + 1)) (l.cell + 1 + (i + 1)) (slice r.payload (16 * (i + 1)) 16))
    ∧ (∀ i, st = .payload l i → r.length ≤ 16 * (i + 1) → done = asks (.written l) l.cell (only 0x3F))
    ∧ (st = .written l → r.role ≠ .stage → done = asks (.live l 1) l.cell (only 0x1F))
    ∧ (st = .written l → r.role = .stage → done = waits (.memberReporting l))
    ∧ (∀ tries, st = .live l tries →
        done = present .writer (.switch ⟨r.part, r.key, l, r.length, r.gen.getD 0, 1 + (r.length + 15) / 16, r.kind, r.port⟩)
          (waits (.switching l false)))
    ∧ (∀ tries, st = .live l tries → tries < 3 → failed = asks (.live l (tries + 1)) l.cell (only 0x1F))
    ∧ (st = .commitLive l →
        done = present .writer (.commitSwitch r.part r.txn l r.port) (waits (.commitSwitching l)))
    ∧ ((st = .header l ∨ (∃ i, st = .payload l i) ∨ st = .written l) → r.kind ≠ .commit →
        failed = asks (.retiring .failed l 0 1) l.cell (only 0xEF))
    ∧ ((st = .header l ∨ st = .commitLive l) → r.kind = .commit →
        failed = present .writer (.report (.dead l (1 + (r.length + 15) / 16))) (waits (.reporting .failed l))))
  -- the programs that advance a record that stands
  ∧ (let only (b : Byte) : List Byte := b :: List.replicate 15 0xFF
     let full (seg : Nat) : Io := ⟨some ⟨.writer, seg, .program 0 (only 0xF8)⟩, false⟩
     -- what follows such a program, done or short
     let follows (j : Job) (rec : List Location) (back : WStep) (ok : Bool) (v w : Units) : Prop :=
       let claims (v : Units) (st : WStep) (c : Claim) : Units :=
         present .writer c (v.setRw { v.rw with cur := some ⟨j, st, rec⟩, io := ⟨none, false⟩ })
       let kept (txn seg : Nat) : Units :=
         if ok then v else { v with tm := { v.tm with retained := v.tm.retained ++ [(txn, seg)] } }
       -- a stage ends: answered while its slot is OPEN
       let staged (p : Port) (v : Units) (gen : Nat) : Prop :=
         let sl := v.slot p
         let free (v : Units) : Units := (v.setSlot p { sl with stage := none }).setRw { v.rw with cur := none, io := ⟨none, false⟩ }
         (∀ c, sl.state = .opened → (v.port p).inHand = some c →
           w = kick ((free v).withOutcome p ⟨{ Results.zero with code := 0x01, gen := BitVec.ofNat 32 gen }, []⟩))
         ∧ (sl.state = .aborting → w = kick (free v))
       match back, j with
       | .live l _, .record r => w = claims v (.switching l (!ok))
           (.switch ⟨r.part, r.key, l, r.length, r.gen.getD 0, 1 + (r.length + 15) / 16, r.kind, r.port⟩)
       | .retiring .displaced l _ _, _ => w = claims v (.unpinning (.single ok)) (.unpin l.seg)
       | .retiring .tombstone l _ _, _ => w = claims v (.reporting .tombstone l) (.report (.dead l 1))
       | .retiring .failed l _ _, .record r =>
           w = claims v (.reporting .failed l) (.report (.dead l (1 + (r.length + 15) / 16)))
       | .retiring .replaced l _ _, .record r => r.role = .stage → staged r.port (kept r.txn l.seg) (r.gen.getD 0)
       | .retiring .removed l _ _, .removal p _ _ txn _ => staged p (kept txn l.seg) 0
       | .retiring (.oldOf i) l _ _, _ => w = claims v (.unpinning (.member i ok)) (.unpin l.seg)
       | .retiring (.tombOf i) l _ _, .complete _ _ txn _ =>
           w = claims (kept txn l.seg) (.reporting (.tombOf i) l) (.report (.dead l 1))
       | .retiring .commitRecord l _ _, .complete _ _ txn _ =>
           w = claims (kept txn l.seg) (.reporting .commitRecord l) (.report (.commitRetired txn l))
       | _, _ => True
     (∀ (j : Job) (st : WStep) (rec : List Location) (q : Request) (l : Location) (tries : Nat) (u : Units),
       q.who = .writer → u.rw.io = ⟨some q, true⟩ → u.rw.cur = some ⟨j, st, rec⟩ →
       let asks (st : WStep) (b : Byte) : Units := u.setRw { u.rw with
         cur := some ⟨j, st, rec⟩, io := ⟨some ⟨.writer, l.seg, .program l.cell (only b)⟩, false⟩ }
       let mark (k : Nat) : Byte := [0xEF, 0xDF, 0xBF, 0x7F].getD k 0
       let ofMember (p : Port) (i : Nat) : Option Nat × Option Nat :=
         (some (u.slot p).part, ((u.slot p).members[i]?).map (fun m : Member => m.key))
       let names : Option Nat × Option Nat := match j, st with
         | .record r, _ => (some r.part, if r.kind = .commit then none else some r.key)
         | .removal _ part key _ _, _ => (some part, some key)
         | .complete p _ _ _, .retiring (.oldOf i) _ _ _ => ofMember p i
         | .complete p _ _ _, .retiring (.tombOf i) _ _ _ => ofMember p i
         | .complete _ part _ _, _ => (some part, none)
         | .abortClean p, .retiring (.aborted i) _ _ _ => ofMember p i
         | .abortClean p, _ => (some (u.slot p).part, none)
       let suspect : Units := { u with
         iu := { u.iu with segs := u.iu.segs.modify (l.seg - 2) (fun x => { x with suspect := true }) },
         nu := { u.nu with posts := u.nu.posts ++ if (u.iu.seg l.seg).suspect = true then [] else
           [⟨.writer, .authority, { Notice.plain .integrity with
             part := names.1, key := names.2, seg := some l.seg, reason := some .suspect }⟩] } }
       let short : Prop :=
         (u.iu.writeHead ≠ some l.seg → follows j rec st false suspect (programDelivered q false u))
         ∧ (u.iu.writeHead = some l.seg → programDelivered q false u = present .writer (.close l.seg .suspect)
             (suspect.setRw { u.rw with cur := some ⟨j, .shutClaim l.seg st, rec⟩, io := ⟨none, false⟩ }))
       (∀ r, j = .record r → st = .live l tries → 3 ≤ tries → short)
       ∧ (∀ why k, st = .retiring why l k tries →
         (k < 3 → programDelivered q true u = asks (.retiring why l (k + 1) 1) (mark (k + 1)))
         ∧ (k = 3 → follows j rec st true u (programDelivered q true u))
         ∧ (why = .failed → follows j rec st false u (programDelivered q false u))
         ∧ (why ≠ .failed → k ≤ 3 → tries < 3 →
             programDelivered q false u = asks (.retiring why l k (tries + 1)) (mark k))
         ∧ (why ≠ .failed → 3 ≤ tries → short)))
     -- the write head of a record so short is closed before the job goes on
     ∧ (∀ (j : Job) (seg : Nat) (back : WStep) (rec : List Location) (s : State),
       s.oldestClaim .writer (.close seg .suspect) → s.units.rw.cur = some ⟨j, .shutClaim seg back, rec⟩ →
       let u := popClaim s.units
       exec .close s = .next (s.withUnits ((u.setIu { u.iu with
           writeHead := none,
           segs := u.iu.segs.modify (seg - 2)
             (fun x => { x with next := 128, dead := x.dead + (128 - x.next), suspect := true }) }).setRw
         { s.units.rw with cur := some ⟨j, .shutting seg 1 back, rec⟩, io := full seg })))
     ∧ ∀ (j : Job) (seg tries : Nat) (back : WStep) (rec : List Location) (q : Request) (u : Units),
       q.who = .writer → u.rw.io = ⟨some q, true⟩ → u.rw.cur = some ⟨j, .shutting seg tries back, rec⟩ →
       (tries < 3 → programDelivered q false u
         = u.setRw { u.rw with cur := some ⟨j, .shutting seg (tries + 1) back, rec⟩, io := full seg })
       ∧ ∀ ok : Bool, ok = true ∨ 3 ≤ tries ∧ (u.iu.seg seg).suspect = true →
         follows j rec back false
           (u.setIu { u.iu with segs := u.iu.segs.modify (seg - 2) (fun x => { x with state := .full }) })
           (programDelivered q ok u))

/-- The READ of a port completes: the pin is given up, and the command is answered with the payload asked for, or INTEGRITY
with one more integrity fault when a test of R177 fails; the READ of a command that a port reset dropped only gives up its
pin; and a port that drains goes READY, between frames, when nothing of its work is left: no READ outstanding, no RECORD job, no
slot, no POLICY_COMMIT (R36, R48, R137, R177, R179). -/
def Obligations.PortReadsAreAnswered : Prop :=
  ∀ (p : Port) (seg : Nat) (op : ArrayOp) (bytes : List Byte) (u : Units),
    let q : Request := ⟨.port p, seg, op⟩
    let x := u.port p
    (∀ c r, x.stale ≠ some q → x.io = ⟨some q, true⟩ → x.inHand = some c → c.work = .reading r →
      let h := readHeader bytes
      let sound := h.sound r.loc.cell = true ∧ h.part = r.part ∧ h.key = r.key ∧ h.gen = r.gen
        ∧ crc (slice bytes 16 h.length) = h.payCheck
      let data := ((slice bytes 16 h.length).drop c.params.offset.toNat).take c.params.length.toNat
      (sound → readDelivered q bytes u
        = present (.port p) (.unpin r.loc.seg) (u.setPort p { x with io := ⟨none, false⟩, outcome := some ⟨{ Results.zero with
            code := 0x01, recLength := BitVec.ofNat 8 r.length, gen := BitVec.ofNat 32 r.gen,
            count := BitVec.ofNat 8 data.length, flags := if r.staged then 1 else 0 }, data⟩ }))
      ∧ (¬ sound → readDelivered q bytes u
        = present (.port p) (.unpin r.loc.seg) ((u.setIu { u.iu with faults := min 65535 (u.iu.faults + 1) }).setPort p
            { x with io := ⟨none, false⟩, outcome := some (Posting.code .integrity) })))
    ∧ (x.stale = some q →
      readDelivered q bytes u = settle p (present (.port p) (.unpin seg) (u.setPort p { x with stale := none })))
    ∧ (x.draining = true → x.frame = none → x.stale = none → hasRecordJob p u = false → (u.slot p).state = .none →
      u.pu.session.committingBy p = false →
      settle p u = u.setPort p { x with state := .ready, draining := false })

/-- LEASE_WARNING, LEASE_EXPIRY and CLAIM_WAIT_EXPIRY: one warning; the transaction aborted EXPIRED, with one CLAIM_LOST and
an ABORT_CLEAN job, a stage of it on the space wait list removed; where the CHARGE of a stage is still to be taken the
ABORT_CLEAN is sent at that CHARGE's row, behind the stage's job (R53, R84, R85, log 14); the waiting BEGIN answered
CLAIM_TIMEOUT. MODEL'S CHOICE (log 3): the clock is taken to the deadline. That a stage's CHARGE that is out at the expiry
is still taken, the ABORT_CLEAN behind its job, is the model's choice (log 14); so is the clock's unit of 2.5 ms (log 2). -/
def Obligations.TimersTake : Prop :=
  ∀ (p : Port) (s : State), s.running = true →
    let u := s.units
    let sl := u.slot p
    (∀ l, sl.state = .opened → sl.lease = some l → l.armed = true →
      exec (.leaseWarning p) s = .next (s.withUnits
        { u.setSlot p { sl with lease := some { l with armed := false } } with
          clock := max u.clock l.warnAt,
          nu := { u.nu with posts := u.nu.posts ++ [⟨.txn, .one p, { Notice.plain .leaseWarning with
            part := some sl.part, txn := some sl.number }⟩] } }))
    ∧ ((∀ l, sl.lease = some l → l.armed = false ∨ sl.state ≠ .opened) → exec (.leaseWarning p) s = .next s)
    ∧ (∀ l, sl.state = .opened → sl.lease = some l →
      let list := if u.stageWaits p then u.iu.spaceWait.filter (fun w => w.port != p) else u.iu.spaceWait
      let aborting : Units := { u.setSlot p (u.abortedSlot p .expired) with
        clock := max u.clock l.deadline,
        iu := { u.iu with spaceWait := list },
        ce := if u.stageWaits p then { u.ce with mode := if list = [] then .normal else .urgent } else u.ce,
        nu := { u.nu with posts := u.nu.posts ++ [⟨.txn, .one p, { Notice.plain .claimLost with
          part := some sl.part, txn := some sl.number, reason := some .expired }⟩] } }
      (¬ u.charging p → exec (.leaseExpiry p) s = .next (s.withUnits (kick (sendJob (.abortClean p) aborting))))
      ∧ (u.charging p → exec (.leaseExpiry p) s = .next (s.withUnits (kick aborting))))
    ∧ (sl.state ≠ .opened ∨ sl.lease = none → s.writerSteady → exec (.leaseExpiry p) s = .next s)
    ∧ (∀ t c, sl.state = .waiting → sl.waitUntil = some t → (u.port p).inHand = some c →
      exec (.claimWaitExpiry p) s = .next (s.withUnits
        { ((setClaimQueue sl.part ((claimQueue sl.part u).filter (· != p)) u).setSlot p Slot.start).withOutcome p
            (Posting.code .claimTimeout) with clock := max u.clock t }))
    ∧ (sl.state ≠ .waiting ∨ sl.waitUntil = none → exec (.claimWaitExpiry p) s = .next s)

/-- LOCK_EVENT: the holder's OPEN transaction is aborted LOCKED and every waiter of the partition answered LOCKED.
REVOCATION_EVENT: the same for each port that lost the right, with the end reason REVOKED, its waiters answered DENIED; a
port it does not concern, and one COMMITTING or ABORTING, is left. A stage of an aborted transaction leaves the space wait
list; the ABORT_CLEANs and the notices are sent in the order A to D (log 46), an ABORT_CLEAN at once unless a stage's CHARGE
is still to be taken (log 14); the waiters answered leave their queues, and no other unit changes (R53, R80, R84, R85, R96,
R97). The order in which one event takes several ports (log 46), that a CHARGE out at the event is still taken, the
ABORT_CLEAN behind its job (log 14), and that a revocation event acts by its own list, whatever the rights are then (log
56), are the model's choices. -/
def Obligations.EventsTake : Prop :=
  ∀ (s : State), s.running = true →
    let u := s.units
    (u.tm.lockEvents = [] → s.writerSteady → exec .lockEvent s = .next s)
    ∧ (∀ e rest, u.tm.lockEvents = e :: rest → u.queued →
      (∀ g h, (u.slot g).holds e.part = true → (u.slot h).holds e.part = true → g = h) →
      ∃ v, exec .lockEvent s = .next (s.withUnits (kick v)) ∧ u.LockTaken e.part v
        ∧ v.tm.lockEvents = rest ∧ v.tm.revocations = u.tm.revocations)
    ∧ (u.tm.revocations = [] → s.writerSteady → exec .revocationEvent s = .next s)
    ∧ (∀ r rest, u.tm.revocations = r :: rest → u.queued →
      ∃ v, exec .revocationEvent s = .next (s.withUnits (kick v)) ∧ u.RevocationTaken r v
        ∧ v.tm.revocations = rest ∧ v.tm.lockEvents = u.tm.lockEvents)

/-- WATCH_REMOVAL, CHANGE_REPORT and NOTICE_POST: the oldest is taken; a report reaches the ports other than its source that
watch its key and may read its partition, a post its recipients, by the shadow as it stands; and a notice is merged into a
queued KEY_CHANGED of its key, joins the tail, or, the queue holding 16, is dropped and counted (R159 to R162, R165). That a
removal takes out whatever watches it names stand then is the model's choice (log 54). -/
def Obligations.NoticesTake : Prop :=
  (∀ (s : State), s.running = true →
    let u := s.units
    (u.nu.removals = [] → exec .watchRemoval s = .next s)
    ∧ (∀ r rest, u.nu.removals = r :: rest →
      ∃ v, exec .watchRemoval s = .next (s.withUnits { u with nu := v })
        ∧ v.removals = rest ∧ v.posts = u.nu.posts ∧ v.reports = u.nu.reports
        ∧ ∀ p, v.ports.get p = { u.notices p with watches := (u.notices p).watches.filter (fun w => !r.contains (p, w.part)) })
    ∧ (u.nu.reports = [] → exec .changeReport s = .next s)
    ∧ (∀ r rest, u.nu.reports = r :: rest →
      let reached (p : Port) : Prop := p ≠ r.source
        ∧ (∃ w ∈ (u.notices p).watches, w.part = r.part ∧ (w.key = none ∨ w.key = some r.key))
        ∧ u.pu.shadow.mayRead p r.part = true
      let n : Notice := { Notice.plain .keyChanged with
        part := some r.part, key := some r.key, gen := some r.gen, source := some r.source,
        reason := some (if r.deleted then .deleted else .updated), count := 1 }
      ∃ v, exec .changeReport s = .next (s.withUnits { u with nu := v })
        ∧ v.reports = rest ∧ v.posts = u.nu.posts ∧ v.removals = u.nu.removals
        ∧ ∀ p, (reached p → v.ports.get p = (u.notices p).place n) ∧ (¬ reached p → v.ports.get p = u.notices p))
    ∧ (∀ src, (∀ x ∈ u.nu.posts, x.src ≠ src) → exec (.noticePost src) s = .next s)
    ∧ (∀ src before x after, u.nu.posts = before ++ x :: after → (∀ y ∈ before, y.src ≠ src) → x.src = src →
      let reached (p : Port) : Prop := match x.dest with
        | .one q => q = p
        | .every => True
        | .authority => (u.pu.shadow.ports.get p).authority = true
      ∃ v, exec (.noticePost src) s = .next (s.withUnits { u with nu := v })
        ∧ v.posts = before ++ after ∧ v.reports = u.nu.reports ∧ v.removals = u.nu.removals
        ∧ ∀ p, (reached p → v.ports.get p = (u.notices p).place x.notice) ∧ (¬ reached p → v.ports.get p = u.notices p)))
  ∧ ∀ (x : NoticePort) (n : Notice),
    let same (q : Notice) : Prop := n.kind = .keyChanged ∧ q.kind = .keyChanged ∧ q.part = n.part ∧ q.key = n.key
    (∀ before q after, x.queue = before ++ q :: after → (∀ y ∈ before, ¬ same y) → same q →
      x.place n = { x with queue := before ++ { q with
        gen := n.gen, source := n.source, reason := n.reason, count := min 255 (q.count + 1) } :: after })
    ∧ ((∀ q ∈ x.queue, ¬ same q) → x.queue.length < 16 → x.place n = { x with queue := x.queue ++ [n] })
    ∧ ((∀ q ∈ x.queue, ¬ same q) → 16 ≤ x.queue.length →
      x.place n = { x with overflow := true, lost := min 255 (x.lost + 1) })

/-- PASS_START follows the table of R100, its victim a FULL segment with dead cells that none precedes in the order of R104,
a held one taken up at its scan position or, left in its sweep, at that record (log 49); WRITER_CLEARANCE is given while the
Writer neither has a program in the victim nor holds a member location there; VICTIM_ERASE presents the ERASE once clearance
is given and no pin is left. The marking program is presented up to 3 times and its segment RECLAIMING either way, suspect
when short; the ERASE twice; and a second failure, or a failed preparation, withdraws the segment (R100, R101, R104 to R106,
R115 to R119). That PASS_START is the engine's decision of R100 is the model's choice (log 32), and so are the field that
keeps a held victim during an erase-only pass (log 37) and that a short marking of a victim already suspect posts no notice
(log 23). That a resumed or held victim's pass starts without demand (log 63), and that SELECT without a victim ends the
low-water run when its NO_VICTIM is presented (log 21), are the model's choices too. -/
def Obligations.EnginePassRows : Prop :=
  (∀ (s : State), s.running = true →
    let u := s.units
    let ce := u.ce
    let v := ce.victim.getD 0
    let resumed := ce.victim ≠ none ∧ ce.source = .resumed
    let wanted := ce.lowRun = true ∨ ce.owed ≠ [] ∨ u.iu.spaceWait ≠ []
    let copy : CompactionEngine := { ce with kind := some .victim, state := .copy, attempts := 0 }
    let copies : Prop :=
      (ce.todo = none → ce.scan < 128 → exec .passStart s = .next (s.withUnits (u.setCe { copy with
        step := .scanRead, reading := ⟨v, ce.scan⟩, io := ⟨some ⟨.engine, v, .read ce.scan 1⟩, false⟩ })))
      ∧ (ce.todo = none → 128 ≤ ce.scan → exec .passStart s = .next (s.withUnits
        (present .engine (.sweep v) (u.setCe { copy with step := .sweepClaim }))))
      ∧ (∀ n ns, ce.todo = some (n :: ns) → exec .passStart s = .next (s.withUnits (u.setCe { copy with
        step := .sweepRead, reading := n.loc, io := ⟨some ⟨.engine, n.loc.seg, .read n.loc.cell 1⟩, false⟩ })))
      ∧ (ce.todo = some [] → ce.unread = false → exec .passStart s = .next (s.withUnits
        (present .engine (.sweep v) (u.setCe { copy with step := .sweepClaim }))))
    let candidate (e : SegEntry) : Prop := e.state = .full ∧ 1 ≤ e.dead
    let precedes (x y : SegEntry) : Prop :=
      (x.suspect = true ∧ y.suspect = false)
      ∨ x.suspect = y.suspect ∧ (y.dead < x.dead
        ∨ x.dead = y.dead ∧ (x.eraseCount < y.eraseCount
          ∨ x.eraseCount = y.eraseCount ∧ x.seq.getD 0 < y.seq.getD 0))
    (ce.state ≠ .idle ∨ u.me.phase ≠ .done → exec .passStart s = .next s)
    ∧ (ce.state = .idle → u.me.phase = .done →
      (resumed → copies)
      ∧ (∀ seg rest, ¬ resumed → ce.pendingErase = seg :: rest →
        exec .passStart s = .next (s.withUnits (u.setCe { ce with
          kind := some .eraseOnly, kept := ce.victim, victim := some seg, source := .selected, state := .erase,
          pendingErase := rest, attempts := 1, step := .erasing, io := ⟨some ⟨.engine, seg, .erase⟩, false⟩ })))
      ∧ (ce.victim ≠ none → ce.source ≠ .resumed → ce.pendingErase = [] → ce.restart = true → copies)
      ∧ (ce.victim ≠ none → ce.source ≠ .resumed → ce.pendingErase = [] → ce.restart = false →
        exec .passStart s = .next s)
      ∧ (ce.victim = none → ce.pendingErase = [] → ¬ wanted → exec .passStart s = .next s)
      ∧ (ce.victim = none → ce.pendingErase = [] → wanted → (∀ e ∈ u.iu.segs, ¬ candidate e) →
        exec .passStart s = .next (s.withUnits (present .engine .noVictim
          (u.setCe { ce with kind := some .victim, state := .select, step := .selectNone, lowRun := false }))))
      ∧ (ce.victim = none → ce.pendingErase = [] → wanted → (∃ e ∈ u.iu.segs, candidate e) →
        ∃ seg, 2 ≤ seg ∧ seg - 2 < u.iu.segs.length ∧ candidate (u.iu.seg seg)
          ∧ (∀ e ∈ u.iu.segs, candidate e → ¬ precedes e (u.iu.seg seg))
          ∧ exec .passStart s = .next (s.withUnits (u.setCe { ce with
              kind := some .victim, victim := some seg, source := .selected, scan := 1, attempts := 0, state := .mark,
              step := .marking 1,
              io := ⟨some ⟨.engine, seg, .program 0 (0xF0 :: List.replicate 15 0xFF)⟩, false⟩ }))))
    ∧ (let inVictim := (∃ r, u.rw.io.want = some r ∧ r.seg = v)
         ∨ ∃ p part key txn l, Job.removal p part key txn l ∈ u.rw.queue ∧ l.seg = v
       (ce.step = .waitErase → ¬ inVictim →
          exec .writerClearance s = .next (s.withUnits (u.setCe { ce with cleared := true })))
       ∧ (ce.step ≠ .waitErase ∨ inVictim → exec .writerClearance s = .next s))
    ∧ (ce.step = .waitErase → ce.cleared = true → (u.iu.seg v).pins = 0 →
      exec .victimErase s = .next (s.withUnits (u.setCe { ce with
        attempts := 1, step := .erasing, io := ⟨some ⟨.engine, v, .erase⟩, false⟩ })))
    ∧ (ce.step ≠ .waitErase ∨ ce.cleared = false ∨ (u.iu.seg v).pins ≠ 0 → exec .victimErase s = .next s))
  -- the programs and the ERASE of the victim
  ∧ ∀ (q : Request) (v : Nat) (u : Units), q.who = .engine → u.ce.io = ⟨some q, true⟩ → u.ce.victim = some v →
    let ce := u.ce
    let asks (ce : CompactionEngine) (op : ArrayOp) : Units :=
      u.setCe { ce with io := ⟨some ⟨.engine, v, op⟩, false⟩ }
    let claims (w : Units) (st : CStep) (c : Claim) : Units :=
      present .engine c (w.setCe { ce with step := st, io := ⟨none, false⟩ })
    let withdrawn : Units := asks { ce with step := .withdrawing } (.program 0 (0x7F :: List.replicate 15 0xFF))
    let suspect : Units := { u with
      iu := { u.iu with segs := u.iu.segs.modify (v - 2) (fun x => { x with suspect := true }) },
      nu := { u.nu with posts := u.nu.posts ++ if (u.iu.seg v).suspect = true then [] else
        [⟨.engine, .authority, { Notice.plain .integrity with seg := some v, reason := some .suspect }⟩] } }
    let raised := min 16777215 ((u.iu.seg v).eraseCount + 1)
    (∀ tries, ce.step = .marking tries →
      programDelivered q true u = claims u .reclaimingClaim (.reclaiming v)
      ∧ (tries < 3 → programDelivered q false u
          = asks { ce with step := .marking (tries + 1) } (.program 0 (0xF0 :: List.replicate 15 0xFF)))
      ∧ (3 ≤ tries → ce.copy = none → programDelivered q false u = claims suspect .reclaimingClaim (.reclaiming v)))
    ∧ (ce.step = .erasing →
      eraseDelivered q true u = claims u .erasedClaim (.erased v)
      ∧ (ce.attempts < 2 → eraseDelivered q false u = asks { ce with attempts := 2 } .erase)
      ∧ (2 ≤ ce.attempts → eraseDelivered q false u = withdrawn))
    ∧ (ce.step = .preparing →
      programDelivered q true u = claims u .preparedClaim (.prepared v raised) ∧ programDelivered q false u = withdrawn)
    ∧ (∀ ok, ce.step = .withdrawing → programDelivered q ok u = claims u .badVictimClaim (.close v .bad))

/-! ## Mount and the stored layouts -/

/-- Mount. POLICY: segments 0 and 1 are read and the usable image of the higher sequence number is loaded, or the factory
default at the greatest number of an image whose check matched (R123, R124). HEADERS: each is classified in turn, an
all-ones one by a BLANK_CHECK, with the values kept; the ACTIVE ones get up to 3 closing programs and are FULL either way
(R125, R127). RECORDS: by sequence, then DIRTY and BAD (log 17), from cell 1; all ones or an unsound header ends a segment,
the fault noted with its cell; sound ones enter the survey and, of FULL and RECLAIMING segments, the candidates, a DATA one
that reads WRITTEN or LIVE with its payload tested (R128). REPAIR: who is promoted, who is current and what each of the six
groups programs, what each decision counts, up to 3 programs for LIVE and for each mark of RETIRED, and what follows one
left short (R129 to R133, log 18 for the moments of the counts). Hand-over: one entry per key, the segment table, the
counters, the heads, locks, views, ports and notices, a RECLAIMING victim resumed at scan position 1, and the low-water
compare with the SPACE_LOW arm (R54, R99, R126, R133 to R136, R170). Where neither of two equal generations lies in a
RECLAIMING segment the one kept is a free value (log 16). That a promoted member below another version is counted as a loser
is read by inference (log 19). That POLICY_DEFAULTED is mount's own post (log 64), and the engine's victim source without a
victim (log 5), are the model's choices; the sequence number kept from a header is log 44. -/
def Obligations.MountHandsOver : Prop :=
  let asks (v : Units) (st : MountStep) (seg : Nat) (op : ArrayOp) : Units :=
    v.setMe { v.me with step := st, io := ⟨some ⟨.mount, seg, op⟩, false⟩ }
  let marks (b : Byte) : List Byte := b :: List.replicate 15 0xFF
  let up (n : Nat) (m : Option Nat) : Option Nat := some (max n (m.getD 0))
  let cls (m : MountEngine) (seg : Nat) : SegState := ((m.classes.find? (fun c => c.seg == seg)).map (·.cls)).getD .dirty
  let sq (m : MountEngine) (seg : Nat) : Nat := ((m.classes.find? (fun c => c.seg == seg)).bind (·.seq)).getD 0
  let scanned (m : MountEngine) (seg : Nat) : Bool := decide (cls m seg = .full ∨ cls m seg = .reclaiming)
  let faulted (part key seg cell : Option Nat) (v : Units) : Units := v.setMe { v.me with
    faults := min 65535 (v.me.faults + 1), posts := v.me.posts ++ [⟨part, key, seg, cell⟩] }
  let dropped (v : Units) : Units := v.setMe { v.me with discarded := min 65535 (v.me.discarded + 1) }
  let goes (v : Units) : Units := repairNext (7 - v.me.group) v
  -- what one completed request leads to
  (∀ (bytes : List Byte) (u : Units) (q : Request), q.who = .mount → u.me.io = ⟨some q, true⟩ →
    let w : Units := u.setMe { u.me with io := ⟨none, false⟩ }
    let judged (n : Nat) : Units := w.setMe { w.me with
      images := w.me.images ++ (match usableImage bytes with | some x => [(n, x)] | none => []),
      greatest := if crc (slice bytes 1 173) = field bytes 174 2 then max w.me.greatest (field bytes 1 4) else w.me.greatest }
    let loaded (sh : Shadow) (src : PolicySource) (held : Option Nat) : Units :=
      (w.setPu { w.pu with shadow := sh, source := src, inForce := held }).setMe
        { (judged 1).me with source := src, phase := .headers }
    let classed (seg : Nat) (k : SegState) (count sq : Option Nat) : Units := w.setMe { w.me with
      classes := w.me.classes ++ [⟨seg, k, count, sq⟩],
      maxErase := match count with | some n => up n w.me.maxErase | none => w.me.maxErase,
      maxSeq := match sq with | some n => up n w.me.maxSeq | none => w.me.maxSeq,
      dirty := w.me.dirty || decide (k = .dirty), badSegs := w.me.badSegs + (if k = .bad then 1 else 0) }
    let following (seg : Nat) (v : Units) : Units :=
      if seg < 63 then asks v (.header (seg + 1)) (seg + 1) (.read 0 1)
      else nextClosing (v.setMe { v.me with todo := (v.me.classes.filter (fun c => c.cls == .active)).map (·.seg) })
    let h := readHeader bytes
    let surveyed : Units := w.setMe { w.me with
      maxGen := up h.gen w.me.maxGen, maxTxn := if h.txn = 0 then w.me.maxTxn else up h.txn w.me.maxTxn }
    let behind (seg cell : Nat) (v : Units) : Units :=
      let next := cell + (1 + (h.length + 15) / 16)
      if next < 128 then asks v (.scanHeader seg next) seg (.read next 1) else nextScan v
    let listed (seg cell : Nat) (sound : Bool) (v : Units) : Units :=
      if scanned v.me seg = false then v
      else
        let v' : Units := v.setMe { v.me with cands := v.me.cands ++ [⟨h.part, h.key, h.recordKind, h.taken, h.gen, h.txn,
          ⟨seg, cell⟩, h.length, 1 + (h.length + 15) / 16, sound⟩] }
        let out : Bool := decide (h.recordKind ≠ .commit ∧ (h.taken = .opened ∨ (h.taken = .written ∧ h.txn = 0)
          ∨ ((h.taken = .written ∨ h.taken = .live) ∧ sound = false)))
        let v' := if out then dropped v' else v'
        if sound then v' else faulted (some h.part) (some h.key) (some seg) none v'
    (u.me.step = .policy 0 → readDelivered q bytes u = asks (judged 0) (.policy 1) 1 (.read 0 11))
    ∧ (u.me.step = .policy 1 → ∃ v, readDelivered q bytes u = asks v (.header 2) 2 (.read 0 1)
      ∧ ((judged 1).me.images = [] → v = loaded { Shadow.factory with seq := (judged 1).me.greatest } .defaulted none)
      ∧ (∀ n x, (judged 1).me.images = [(n, x)] → v = loaded x .loaded (some n))
      ∧ (∀ x y, (judged 1).me.images = [(0, x), (1, y)] →
          v = if y.seq ≤ x.seq then loaded x .loaded (some 0) else loaded y .loaded (some 1)))
    ∧ (∀ seg k, u.me.step = .header seg → classify bytes = some k →
      readDelivered q bytes u = following seg (classed seg k
        (if crc (slice bytes 1 3) = field bytes 4 2 then some (field bytes 1 3) else none)
        (if crc (slice bytes 6 4) = field bytes 10 2 ∧ allErased (slice bytes 6 4) = false then some (field bytes 6 4)
          else none)))
    ∧ (∀ seg, u.me.step = .header seg → classify bytes = none →
      readDelivered q bytes u = asks u (.blank seg) seg .blankCheck)
    ∧ (∀ seg ones, u.me.step = .blank seg →
      blankDelivered q ones u = following seg (classed seg (if ones then .blank else .dirty) none none))
    ∧ (∀ seg tries ok, u.me.step = .closing seg tries →
      (ok = false → tries < 3 →
        programDelivered q ok u = asks u (.closing seg (tries + 1)) seg (.program 0 (marks 0xF8)))
      ∧ (ok = true ∨ 3 ≤ tries → programDelivered q ok u = nextClosing (w.setMe { w.me with
          classes := w.me.classes.map fun c => if c.seg = seg then { c with cls := .full } else c })))
    ∧ (∀ seg cell, u.me.step = .scanHeader seg cell →
      (allErased bytes = true → readDelivered q bytes u = nextScan w)
      ∧ (allErased bytes = false → h.sound cell = false → readDelivered q bytes u
          = nextScan (if scanned u.me seg then faulted none none (some seg) (some cell) w else w))
      ∧ (allErased bytes = false → h.sound cell = true →
          let tested := scanned u.me seg = true ∧ h.recordKind = .data ∧ (h.taken = .written ∨ h.taken = .live)
          (tested → readDelivered q bytes u
            = asks surveyed (.scanBody seg cell) seg (.read cell (1 + (h.length + 15) / 16)))
          ∧ (¬ tested → readDelivered q bytes u = behind seg cell (listed seg cell true surveyed))))
    ∧ (∀ seg cell, u.me.step = .scanBody seg cell → readDelivered q bytes u
        = behind seg cell (listed seg cell (decide (crc (slice bytes 16 h.length) = h.payCheck)) w))
    ∧ (∀ mark tries c rest ok, u.me.step = .repair mark tries → u.me.progs = c :: rest →
      let again (mark tries : Nat) : Units := asks u (.repair mark tries) c.loc.seg (.program c.loc.cell
        (marks (if u.me.group = 2 then 0x1F else match mark with | 0 => 0xEF | 1 => 0xDF | 2 => 0xBF | _ => 0x7F)))
      let done (v : Units) : Units := goes (v.setMe { v.me with progs := rest })
      (ok = true → u.me.group = 2 →
        programDelivered q ok u = done (w.setMe { w.me with rolled := min 65535 (w.me.rolled + 1) }))
      ∧ (ok = true → u.me.group ≠ 2 → mark < 3 → programDelivered q ok u = again (mark + 1) 1)
      ∧ (ok = true → u.me.group ≠ 2 → 3 ≤ mark → programDelivered q ok u = done w)
      ∧ (ok = false → tries < 3 → programDelivered q ok u = again mark (tries + 1))
      ∧ (ok = false → 3 ≤ tries → u.me.group = 2 → programDelivered q ok u
          = done (dropped (faulted (some c.part) (some c.key) (some c.loc.seg) none
              (w.setMe { w.me with givenUp := w.me.givenUp ++ [c.loc] }))))
      ∧ (ok = false → 3 ≤ tries → u.me.group ≠ 2 →
          let member := c.kind ≠ .commit ∧ c.state = .written ∧ c.txn ≠ 0 ∧ c.payload = true
          programDelivered q ok u = done (w.setMe { w.me with
            short := w.me.short ++ (if u.me.group = 4 then [c.loc] else []),
            retained := w.me.retained ++ (if u.me.group = 3 ∨ u.me.group = 6 ∨ (u.me.group = 5 ∧ member)
              then [(c.txn, c.loc.seg)] else []) }))))
  -- from segment to segment, from phase to phase, from group to group
  ∧ (∀ v : Units,
    (∀ seg rest, v.me.todo = seg :: rest →
      nextClosing v = asks (v.setMe { v.me with todo := rest }) (.closing seg 1) seg (.program 0 (marks 0xF8))
      ∧ nextScan v = asks (v.setMe { v.me with todo := rest }) (.scanHeader seg 1) seg (.read 1 1))
    ∧ (v.me.todo = [] →
      (∃ first, first.Perm ((v.me.classes.map (·.seg)).filter (scanned v.me))
        ∧ first.Pairwise (fun a b => sq v.me a ≤ sq v.me b)
        ∧ nextClosing v = nextScan (v.setMe { v.me with
            phase := .records,
            todo := first ++ (v.me.classes.map (·.seg)).filter (fun g => decide (cls v.me g = .dirty ∨ cls v.me g = .bad)) }))
      ∧ nextScan v = goes (v.setMe { v.me with phase := .repair, group := 0, progs := [] }))
    ∧ (∀ c rest, v.me.group < 7 → v.me.progs = c :: rest → goes v
        = asks v (.repair 0 1) c.loc.seg (.program c.loc.cell (marks (if v.me.group = 2 then 0x1F else 0xEF))))
    ∧ (v.me.progs = [] → v.me.group < 6 →
      let m := v.me
      let turned (count : Nat) (excess : List Candidate) : Units := v.setMe { m with
        group := m.group + 1, progs := groupRecords m (m.group + 1),
        discarded := if count = 0 then m.discarded else min 65535 (m.discarded + count),
        faults := if excess = [] then m.faults else min 65535 (m.faults + excess.length),
        posts := m.posts ++ excess.map fun c => ⟨some c.part, some c.key, some c.loc.seg, none⟩ }
      goes v = goes (
        if m.group = 2 then turned (m.cands.countP (fun c => decide (c.kind ≠ .commit ∧ c.state = .written ∧ c.txn ≠ 0
          ∧ c.payload = true) && !(groupRecords m 2).any (fun x => x.loc == c.loc))) []
        else if m.group = 3 then turned (groupRecords m 4).length (overCapacity m)
        else turned 0 []))
    ∧ (v.me.progs = [] → v.me.group = 6 →
      goes v = handOverTables (v.setMe { v.me with phase := .restore, group := 7 })))
  -- the decisions
  ∧ (∀ m : MountEngine,
    let inside (x : Candidate) : Prop := cls m x.loc.seg = .reclaiming
    let version (x : Candidate) : Prop := x.kind ≠ .commit ∧ x.state = .live ∧ x.payload = true
    let member (x : Candidate) : Prop := x.kind ≠ .commit ∧ x.state = .written ∧ x.txn ≠ 0 ∧ x.payload = true
    let commit (x : Candidate) : Prop := x.kind = .commit ∧ x.state = .live
    let among (l : Location) (xs : List Candidate) : Prop := ∃ y ∈ xs, y.loc = l
    let below (x y : Candidate) : Prop := x.gen < y.gen
      ∨ (x.gen = y.gen ∧ inside x ∧ (¬ inside y ∨ sq m x.loc.seg < sq m y.loc.seg))
    let decided (x : Candidate) : Prop := x ∈ m.cands ∧ member x
      ∧ ∃ c ∈ m.cands, commit c ∧ c.part = x.part ∧ c.txn = x.txn ∧ x.gen < c.gen
    let sameKey (x y : Candidate) : Prop := x.part = y.part ∧ x.key = y.key
    let promoted := groupRecords m 2
    let commits := groupRecords m 6
    let decider (x : Candidate) : Prop := x ∈ m.cands ∧ (version x ∨ (among x.loc promoted ∧ x.loc ∉ m.givenUp))
    let current := currentVersions m
    let loser (x : Candidate) : Prop := decider x ∧ ¬ among x.loc current
    let excess := overCapacity m
    groupRecords m 1 = m.cands.filter (fun x => decide (x.kind ≠ .commit ∧ (x.state = .opened
      ∨ (x.state = .written ∧ x.txn = 0) ∨ ((x.state = .written ∨ x.state = .live) ∧ x.payload = false))))
    ∧ ((∀ x, x ∈ commits ↔ x ∈ m.cands ∧ commit x) ∧ commits.Pairwise (fun a b => a.gen ≤ b.gen))
    ∧ (∀ x ∈ promoted, decided x ∧ ∃ b, decided b ∧ b.loc = x.loc ∧ sameKey b x ∧ b.txn = x.txn
        ∧ ∀ y, decided y → sameKey y x → y.txn = x.txn → ¬ below b y)
    ∧ (∀ x, decided x → ∃ y ∈ promoted, sameKey y x ∧ y.txn = x.txn)
    ∧ (∀ x ∈ promoted, ∀ y ∈ promoted, sameKey x y → x.txn = y.txn → x.loc = y.loc)
    ∧ promoted.Pairwise (fun x y => ∃ c ∈ commits, c.part = x.part ∧ c.txn = x.txn
        ∧ ∀ d ∈ commits, d.part = y.part → d.txn = y.txn → c.gen ≤ d.gen)
    ∧ ((groupRecords m 3).Sublist m.cands ∧ ∀ x, x ∈ groupRecords m 3 ↔
        x ∈ m.cands ∧ ((member x ∧ ¬ among x.loc promoted) ∨ x.loc ∈ m.givenUp))
    ∧ (∀ x ∈ current, decider x ∧ ∃ b, decider b ∧ b.loc = x.loc ∧ sameKey b x
        ∧ ∀ y, decider y → sameKey y x → ¬ below b y)
    ∧ (∀ x, decider x → ∃ y ∈ current, sameKey y x)
    ∧ (∀ x ∈ current, ∀ y ∈ current, sameKey x y → x.loc = y.loc)
    ∧ ((indexed m ++ excess).Perm (current.filter (fun x => x.kind == .data))
        ∧ (indexed m).length = min 1024 (current.countP (fun x => x.kind == .data))
        ∧ ∀ x ∈ indexed m, ∀ y ∈ excess, y.gen ≤ x.gen)
    ∧ (∀ x, x ∈ groupRecords m 4 ↔ loser x ∨ x ∈ excess)
    ∧ ∀ x, x ∈ groupRecords m 5 ↔ x ∈ current ∧ x.kind = .tombstone ∧ ∀ y, loser y → sameKey y x → y.loc ∉ m.short)
  -- the hand-over
  ∧ ∀ (u : Units),
    let v := handOverTables u
    let m := u.me
    let kept := indexed m
    let count (seg : Nat) : Nat :=
      ((m.classes.find? (fun c => c.seg == seg)).bind (·.count)).getD (m.maxErase.getD 0)
    let place (seg : Nat) : SegState :=
      if cls m seg ≠ .reclaiming then cls m seg
      else if v.ce.victim = some seg then .reclaiming
      else if kept.any (fun c => c.loc.seg == seg) then .full else .dirty
    let live (seg : Nat) : Nat := ((kept.filter (fun c => c.loc.seg == seg)).map (·.cells)).sum
    v.me = { m with phase := .done, step := .done, todo := [], progs := [], io := ⟨none, false⟩ }
    ∧ (∀ p, (v.port p).state =
        if (u.port p).state ≠ .mounting then (u.port p).state
        else if (u.port p).frame ≠ none then .mounting
        else if (u.port p).doneCause then .done else .ready)
    ∧ v.rw.gen = m.maxGen.getD 0 + 1
    ∧ v.tm.counter = (if 65535 ≤ m.maxTxn.getD 0 then 1 else m.maxTxn.getD 0 + 1)
    ∧ v.tm.retained = m.retained
    ∧ v.iu.seqNext = (match m.maxSeq with | some n => n + 1 | none => 0)
    ∧ v.iu.faults = m.faults ∧ v.iu.charges = [] ∧ v.iu.commitSet = [] ∧ v.iu.spaceWait = []
    ∧ v.iu.writeHead = none ∧ v.iu.copyHead = none
    ∧ (∀ e ∈ v.iu.entries, ∃ c ∈ kept, e = ⟨c.part, c.key, c.loc, c.length, c.gen, c.cells⟩)
    ∧ (∀ c ∈ kept, ∃ e ∈ v.iu.entries, e.part = c.part ∧ e.key = c.key)
    ∧ v.iu.entries.Pairwise (fun a b => a.part < b.part ∨ (a.part = b.part ∧ a.key < b.key))
    ∧ v.iu.segs.length = 62
    ∧ (∀ seg, 2 ≤ seg → seg < 64 →
      (place seg = .blank → v.iu.seg seg = ⟨.blank, m.maxErase.getD 0, none, 1, 0, 0, 0, false, true⟩)
      ∧ (place seg = .prepared → v.iu.seg seg = ⟨.prepared, count seg, none, 1, 0, 0, 0, false, true⟩)
      ∧ (∀ k, place seg = k → k = .full ∨ k = .reclaiming → v.iu.seg seg
          = ⟨k, count seg, (m.classes.find? (fun c => c.seg == seg)).bind (·.seq), 128, live seg, 127 - live seg, 0, false, false⟩)
      ∧ (∀ k, place seg = k → k = .dirty ∨ k = .bad → v.iu.seg seg = ⟨k, count seg, none, 128, 0, 127, 0, false, false⟩))
    ∧ v.pu.locks = u.pu.shadow.parts.map (fun e => if e.fixed then .fixed else .opened)
    ∧ (∀ p, v.pu.views.get p = u.pu.shadow.viewFor p)
    ∧ (∀ p, (v.slot p).state = .none)
    ∧ v.ce.state = .idle ∧ v.ce.step = .idle ∧ v.ce.mode = .normal ∧ v.ce.scan = 1 ∧ v.ce.todo = none ∧ v.ce.copy = none
    ∧ v.ce.owed = [] ∧ v.ce.attempts = 0
    ∧ v.ce.pendingErase = ((List.range 62).map (· + 2)).filter (fun seg => decide (place seg = .dirty))
    ∧ (∀ seg, v.ce.victim = some seg → cls m seg = .reclaiming ∧ ∀ g, cls m g = .reclaiming → sq m g ≤ sq m seg)
    ∧ (v.ce.victim = none → ∀ g, cls m g ≠ .reclaiming)
    ∧ (v.ce.source = .resumed ↔ v.ce.victim ≠ none)
    ∧ (let low := decide (v.iu.segs.countP (·.avail) ≤ u.pu.shadow.lowWater)
       v.ce.lowRun = low ∧ v.iu.armed = !low
       ∧ v.nu.posts = u.nu.posts
          ++ (if m.source = .defaulted then [⟨.mount, .every, Notice.plain .policyDefaulted⟩] else [])
          ++ m.posts.map (fun f => ⟨.mount, .authority, { Notice.plain .integrity with
              part := f.part, key := f.key, seg := f.seg, reason := some .lost }⟩)
          ++ (if low then [⟨.index, .every, Notice.plain .spaceLow⟩] else []))

/-- The stored layouts read back: a header written is the header read, and a new record's header is sound in each state; a
status byte reads the last of its unbroken run of cleared marks; a prepared segment header classifies PREPARED with its
count, an opened one ACTIVE with its sequence number, then FULL, RECLAIMING and BAD as their marks are programmed over it,
and any 16 bytes by the first line of R8 that matches; and the policy image has its fields at their offsets, reads back as
the policy while VALID, is not usable BLANK or WRITTEN, and, written by a commit with a new number and made VALID, reads
as the staged policy at that number (R3, R4, R6, R8, R11 to R13, R16, R123, R152, R181). -/
def Obligations.StoredLayoutsReadBack : Prop :=
  (∀ (h : Header) (st : Byte), h.kind < 256 → h.part < 256 → h.length < 256 → h.key < 65536 → h.txn < 65536 →
    h.gen < 4294967296 → h.payCheck < 65536 → h.hdrCheck < 65536 → readHeader (h.bytes st) = { h with status := st })
  ∧ (∀ (kind : RecordKind) (part key length txn gen cell : Nat) (payload : List Byte) (st : Byte),
    part ≤ 15 → txn < 65536 → 1 ≤ gen → gen ≤ 4294967293 → 1 ≤ cell → cell + (1 + (length + 15) / 16) ≤ 128 →
    (kind = .data → length ≤ 240 ∧ key ≤ 65534) → (kind = .tombstone → length = 0 ∧ key ≤ 65534) →
    (kind = .commit → length = 0 ∧ 1 ≤ key ∧ key ≤ 16 ∧ 1 ≤ txn) → st ∈ [0x7F, 0x3F, 0x1F, 0x0F] →
    let h := readHeader ((newHeader kind part key length txn gen payload).bytes st)
    h.sound cell = true ∧ h.recordKind = kind ∧ h.gen = gen ∧ h.txn = txn ∧ h.key = key ∧ h.payCheck = crc payload)
  ∧ (∀ (count seq : Nat), count < 16777216 → seq < 4294967295 →
    let prepared := prepareProgram count
    let onto (a b : List Byte) : List Byte := List.zipWith (· &&& ·) a b
    let opened := onto prepared (openProgram seq)
    let mark (b : Byte) : List Byte := onto opened (firstByteProgram b)
    classify prepared = some .prepared ∧ keptCount prepared = some count
    ∧ classify opened = some .active ∧ keptCount opened = some count ∧ keptSeq opened = some seq
    ∧ classify (mark 0xF8) = some .full ∧ classify (onto (mark 0xF8) (firstByteProgram 0xF0)) = some .reclaiming
    ∧ classify (mark 0x7F) = some .bad ∧ classify (onto prepared (firstByteProgram 0x7F)) = some .bad)
  ∧ (∀ b : Byte, readStatus b =
      if b.getLsbD 7 then .free else if b.getLsbD 6 then .opened else if b.getLsbD 5 then .written
      else if b.getLsbD 4 then .live else .retired)
  ∧ (∀ bs : List Byte,
    let first := bs.getD 0 0xFF
    let countOk := crc (slice bs 1 3) = field bs 4 2
    let numberOk := crc (slice bs 6 4) = field bs 10 2
    (first.getLsbD 7 = false → classify bs = some .bad)
    ∧ (first = 0xFF → allErased (slice bs 0 16) = true → classify bs = none)
    ∧ (first = 0xFF → allErased (slice bs 0 16) = false → classify bs = some .dirty)
    ∧ (first = 0xFE → countOk → slice bs 6 6 = List.replicate 6 0xFF → classify bs = some .prepared)
    ∧ (first = 0xFE → ¬ countOk ∨ slice bs 6 6 ≠ List.replicate 6 0xFF → classify bs = some .dirty)
    ∧ (∀ k ∈ [(0xFC, SegState.active), (0xF8, .full), (0xF0, .reclaiming)], first = k.1 →
        (countOk → numberOk → classify bs = some k.2) ∧ (¬ countOk ∨ ¬ numberOk → classify bs = some .dirty))
    ∧ (first.getLsbD 7 = true → first ∉ [0xFF, 0xFE, 0xFC, 0xF8, 0xF0] → classify bs = some .dirty))
  ∧ (∀ s : Shadow, s.parts.length = 16 →
    (∀ e ∈ s.parts, e.quota ≤ 7874 ∧ 1 ≤ e.lease ∧ e.lease ≤ 6000) →
    (∀ p, (s.ports.get p).waitLimit < 256 ∧
      ∀ k part, k < 4 → (s.ports.get p).defaultView.at k = some part → part ≤ 15) →
    3 ≤ s.lowWater → s.lowWater ≤ 16 → s.seq < 4294967296 →
    let image := s.image
    let flag (b : Bool) (v : Nat) : Nat := if b then v else 0
    let right (r : Right) : Byte := match r with | .none => 0 | .read => 1 | .write => 2
    let view (v : Option Nat) : Byte := match v with | some part => BitVec.ofNat 8 part | none => 0xFF
    image.length = 176 ∧ image.getD 0 0 = 0x3F ∧ field image 1 4 = s.seq
    ∧ (∀ n e, s.parts[n]? = some e → field image (5 + 9 * n) 1 = flag e.enabled 1 + flag e.fixed 2
        ∧ field image (6 + 9 * n) 2 = e.quota ∧ field image (8 + 9 * n) 2 = e.lease
        ∧ slice image (10 + 9 * n) 4 = [right e.rights.a, right e.rights.b, right e.rights.c, right e.rights.d])
    ∧ (∀ n p, (n, p) ∈ [(0, Port.a), (1, .b), (2, .c), (3, .d)] →
        let e := s.ports.get p
        field image (149 + 6 * n) 1 = flag e.authority 1 ∧ field image (150 + 6 * n) 1 = e.waitLimit
        ∧ slice image (151 + 6 * n) 4
          = [view e.defaultView.a, view e.defaultView.b, view e.defaultView.c, view e.defaultView.d])
    ∧ field image 173 1 = s.lowWater ∧ field image 174 2 = crc (slice image 1 173)
    ∧ usableImage image = some s
    ∧ usableImage (0xFF :: image.tail) = none ∧ usableImage (0x7F :: image.tail) = none)
  ∧ (∀ (staged : List Byte) (s : Shadow) (n : Nat), staged.length = 176 → readPolicy staged = some s → n < 4294967296 →
    let written := sealImage 0x7F n (slice staged 5 169)
    written.length = 176 ∧ usableImage written = none ∧ usableImage (0x3F :: written.tail) = some { s with seq := n })
  ∧ crc [0x31, 0x32, 0x33, 0x34, 0x35, 0x36, 0x37, 0x38, 0x39] = 0x29B1
end

