-- ==== Sys2Proof/Laws/ArrayCtl.lean ====
section
/-! SUPPORT. What the operations of the Array Controller do: the choice of the arbiter, and that each keeps the controller
sound (R19, R20, R26 to R33). -/

namespace Sys2Proof.Machine

namespace ArrayController

/-! ## The arbiter -/

theorem either_of_or {α : Type} {a b : Option α} {x : α} (h : a.or b = some x) : a = some x ∨ b = some x := by
  cases a with
  | none => exact Or.inr (by simpa using h)
  | some y => exact Or.inl (by simpa using h)

/-- The arbiter chooses a queued request (R27). -/
theorem mem_of_choose {urgent : Bool} {qs : List Queued} {q : Queued} (h : choose urgent qs = some q) : q ∈ qs := by
  unfold choose at h
  simp only [Option.orElse_eq_orElse, Option.orElse_eq_or] at h
  rcases either_of_or h with h | h
  · exact List.mem_of_find?_eq_some h
  rcases either_of_or h with h | h
  · cases urgent with
    | true => exact List.mem_of_find?_eq_some (by simpa using h)
    | false => simp at h
  rcases either_of_or h with h | h
  · exact List.mem_of_find?_eq_some h
  rcases either_of_or h with h | h
  · exact List.mem_of_find?_eq_some h
  rcases either_of_or h with h | h
  · cases urgent with
    | true => simp at h
    | false => exact List.mem_of_find?_eq_some (by simpa using h)
  · exact List.mem_of_find?_eq_some h

/-- While a READ is queued the arbiter grants a READ, the oldest (R27). -/
theorem choose_read {urgent : Bool} {qs : List Queued} (h : qs.any Queued.isRead = true) :
    choose urgent qs = qs.find? Queued.isRead := by
  cases hf : qs.find? Queued.isRead with
  | none =>
    rw [List.find?_eq_none] at hf
    rw [List.any_eq_true] at h
    obtain ⟨q, hq, hr⟩ := h
    exact absurd hr (hf q hq)
  | some q => simp [choose, hf]

theorem isSome_choose {urgent : Bool} {qs : List Queued} (h : ∀ q ∈ qs, legal q.req = true) (hne : qs ≠ []) :
    (choose urgent qs).isSome = true := by
  obtain ⟨q, qs', rfl⟩ : ∃ q qs', qs = q :: qs' := by
    cases qs with
    | nil => exact absurd rfl hne
    | cons a l => exact ⟨a, l, rfl⟩
  have hq := h q (by simp)
  have hfind : ∀ p : Queued → Bool, p q = true → ((q :: qs').find? p).isSome = true := by
    intro p hp
    simp [hp]
  unfold choose
  simp only [Option.orElse_eq_orElse, Option.orElse_eq_or, Option.isSome_or, Bool.or_eq_true]
  cases hr : q.isRead with
  | true => exact Or.inl (hfind _ hr)
  | false =>
    right
    obtain ⟨o, who, seg, op⟩ := q
    cases who with
    | port p => cases op <;> simp_all [legal, permitted, Queued.isRead, ArrayOp.isRead]
    | writer => right; left; exact hfind _ (by simp)
    | policy => right; right; left; exact hfind _ (by simp)
    | engine =>
      cases urgent with
      | true => left; simp
      | false => right; right; right; left; simp
    | mount => right; right; right; right; exact hfind _ (by simp)

/-! ## Orders of arrival (R26, R33) -/

/-- A request that leaves the queue leaves the others in order. -/
theorem inOrder_erase {held queue : List Queued} {n : Nat} (h : InOrder held queue n) (q : Queued) :
    InOrder held (queue.erase q) n := by
  refine ⟨h.1.sublist List.erase_sublist, h.2.1, fun a ha b hb => h.2.2.1 a ha b (List.mem_of_mem_erase hb), fun x hx => ?_⟩
  rcases List.mem_append.1 hx with hx | hx
  · exact h.2.2.2 x (List.mem_append_left _ hx)
  · exact h.2.2.2 x (List.mem_append_right _ (List.mem_of_mem_erase hx))

/-- A list in order stays so with the next arrival at its end. -/
theorem pairwise_snoc {qs : List Queued} {n : Nat} (h : qs.Pairwise (fun a b => a.order < b.order))
    (hn : ∀ q ∈ qs, q.order < n) (r : Request) :
    (qs ++ [(⟨n, r⟩ : Queued)]).Pairwise (fun a b => a.order < b.order) := by
  rw [List.pairwise_append]
  refine ⟨h, List.pairwise_singleton _ _, fun a ha b hb => ?_⟩
  rw [List.mem_singleton.1 hb]
  exact hn a ha

/-- The next arrival joins the queue. -/
theorem inOrder_join {held queue : List Queued} {n : Nat} (h : InOrder held queue n) (r : Request) :
    InOrder held (queue ++ [⟨n, r⟩]) (n + 1) := by
  refine ⟨pairwise_snoc h.1 (fun q hq => h.2.2.2 q (List.mem_append_right _ hq)) r, h.2.1, fun a ha b hb => ?_, fun x hx => ?_⟩
  · have := h.2.2.2 a (List.mem_append_left _ ha)
    rcases List.mem_append.1 hb with hb | hb
    · exact h.2.2.1 a ha b hb
    · rw [List.mem_singleton.1 hb]; simp only; omega
  · rw [← List.append_assoc] at hx
    rcases List.mem_append.1 hx with hx | hx
    · have := h.2.2.2 x hx; omega
    · rw [List.mem_singleton.1 hx]; simp only; omega

/-- The next arrival is held. -/
theorem inOrder_hold {held queue : List Queued} {n : Nat} (h : InOrder held queue n) (r : Request) :
    InOrder (held ++ [⟨n, r⟩]) queue (n + 1) := by
  refine ⟨h.1, pairwise_snoc h.2.1 (fun q hq => h.2.2.2 q (List.mem_append_left _ hq)) r, fun a ha b hb => ?_, fun x hx => ?_⟩
  · have := h.2.2.2 b (List.mem_append_right _ hb)
    rcases List.mem_append.1 ha with ha | ha
    · exact h.2.2.1 a ha b hb
    · rw [List.mem_singleton.1 ha]; simp only; omega
  · rcases List.mem_append.1 hx with hx | hx
    · rcases List.mem_append.1 hx with hx | hx
      · have := h.2.2.2 x (List.mem_append_left _ hx); omega
      · rw [List.mem_singleton.1 hx]; simp only; omega
    · have := h.2.2.2 x (List.mem_append_right _ hx); omega

/-- A held read joins the queue and nothing is lost (R33). -/
theorem perm_insertByOrder (q : Queued) : ∀ qs : List Queued, List.Perm (insertByOrder q qs) (q :: qs)
  | [] => List.Perm.refl _
  | x :: xs => by
    unfold insertByOrder
    split
    · exact List.Perm.refl _
    · exact ((perm_insertByOrder q xs).cons x).trans (List.Perm.swap q x xs)

theorem perm_foldl_insertByOrder : ∀ held qs : List Queued,
    List.Perm (held.foldl (fun qs q => insertByOrder q qs) qs) (held ++ qs)
  | [], _ => List.Perm.refl _
  | h :: hs, qs => by
    refine (perm_foldl_insertByOrder hs (insertByOrder h qs)).trans ?_
    exact (List.Perm.append_left hs (perm_insertByOrder h qs)).trans List.perm_middle

/-- A held read joins the queue at its order of arrival (R33). -/
theorem pairwise_insertByOrder (q : Queued) : ∀ qs : List Queued, qs.Pairwise (fun a b => a.order < b.order) →
    (∀ x ∈ qs, q.order ≠ x.order) → (insertByOrder q qs).Pairwise (fun a b => a.order < b.order)
  | [], _, _ => List.pairwise_singleton _ _
  | x :: xs, h, hne => by
    rw [List.pairwise_cons] at h
    unfold insertByOrder
    split
    · rename_i hlt
      rw [List.pairwise_cons]
      refine ⟨fun y hy => ?_, List.pairwise_cons.2 h⟩
      rcases List.mem_cons.1 hy with rfl | hy
      · exact hlt
      · exact Nat.lt_trans hlt (h.1 y hy)
    · rename_i hlt
      rw [List.pairwise_cons]
      refine ⟨fun y hy => ?_, pairwise_insertByOrder q xs h.2 fun y hy => hne y (List.mem_cons_of_mem _ hy)⟩
      have := hne x List.mem_cons_self
      rcases List.mem_cons.1 ((perm_insertByOrder q xs).mem_iff.1 hy) with rfl | hy
      · omega
      · exact h.1 y hy

/-- Every held read joins the queue (R33). -/
theorem inOrder_merge : ∀ {held queue : List Queued} {n : Nat}, InOrder held queue n →
    InOrder [] (held.foldl (fun qs q => insertByOrder q qs) queue) n
  | [], _, _, h => h
  | x :: xs, queue, n, h => by
    obtain ⟨h1, h2, h3, h4⟩ := h
    rw [List.pairwise_cons] at h2
    refine inOrder_merge (held := xs) (queue := insertByOrder x queue) (n := n)
      ⟨pairwise_insertByOrder x queue h1 (h3 x List.mem_cons_self), h2.2, fun a ha b hb => ?_, fun y hy => ?_⟩
    · rcases List.mem_cons.1 ((perm_insertByOrder x queue).mem_iff.1 hb) with rfl | hb
      · have := h2.1 a ha; omega
      · exact h3 a (List.mem_cons_of_mem _ ha) b hb
    · refine h4 y ?_
      rcases List.mem_append.1 hy with hy | hy
      · exact List.mem_append_left _ (List.mem_cons_of_mem _ hy)
      · rcases List.mem_cons.1 ((perm_insertByOrder x queue).mem_iff.1 hy) with rfl | hy
        · exact List.mem_append_left _ List.mem_cons_self
        · exact List.mem_append_right _ hy

/-- A request granted from a free array (R27): what the arbiter needs, and what it leaves. -/
theorem sound_grantFree {urgent : Bool} {c : ArrayController} (hl : ∀ q ∈ c.queue, legal q.req = true)
    (hn : (c.queue.map (fun q => q.req.who)).Nodup) (hr : c.running = none) (hs : c.suspended = none)
    (hh : c.held = []) (h0 : c.suspendCount = 0 ∧ c.grantCount = 0) (ho : InOrder c.held c.queue c.arrivals) :
    (grantFree urgent c).Sound := by
  unfold grantFree
  cases hc : choose urgent c.queue with
  | none =>
    have hq : c.queue = [] := by
      cases hqs : c.queue with
      | nil => rfl
      | cons x xs =>
        have := isSome_choose (urgent := urgent) hl (by rw [hqs]; simp)
        rw [hc] at this
        simp at this
    show c.Sound
    exact {
      legal := by simp [known, hr, hs, hh, hq]
      single := by simp [known, hr, hs, hh, hq]
      free := fun _ => ⟨hq, hs, hh⟩
      suspension := by simp [hs]
      bounds := by omega
      held := by simp [hh]
      idle := fun _ => h0
      waits := by simp [hr]
      ordered := ho }
  | some q =>
    show (c.grant q).Sound
    have hm := mem_of_choose hc
    have hp : List.Perm (q :: c.queue.erase q) c.queue := (List.perm_cons_erase hm).symm
    exact {
      legal := by
        intro x hx
        simp only [known, grant, hs, hh, Option.toList_some, Option.toList_none, List.append_nil,
          List.cons_append, List.nil_append] at hx
        exact hl x (hp.mem_iff.1 hx)
      single := by
        simp only [known, grant, hs, hh, Option.toList_some, Option.toList_none, List.append_nil,
          List.cons_append, List.nil_append]
        exact ((hp.map _).nodup_iff).2 hn
      free := by simp [grant]
      suspension := by simp [grant, hs]
      bounds := by simp only [grant]; omega
      held := by simp [grant, hh]
      idle := fun _ => h0
      waits := by
        intro e he hee hany
        simp only [grant, Option.some.injEq] at he hany
        subst he
        have hany' : c.queue.any Queued.isRead = true := by
          rw [List.any_eq_true] at hany ⊢
          obtain ⟨x, hx, hxr⟩ := hany
          exact ⟨x, List.mem_of_mem_erase hx, hxr⟩
        rw [choose_read hany'] at hc
        have := List.find?_some hc
        obtain ⟨o, who, seg, op⟩ := q
        cases op <;> simp_all [Queued.isRead, ArrayOp.isRead, ArrayOp.isErase]
      ordered := inOrder_erase ho q }

/-! ## Each operation keeps the controller sound -/

/-- The controller at reset (R35). -/
theorem sound_start : start.Sound where
  legal := by simp [known, start]
  single := by simp [known, start]
  free := by simp [start]
  suspension := by simp [start]
  bounds := by simp [start]
  held := by simp [start]
  idle := by simp [start]
  waits := by simp [start]
  ordered := by simp [start, InOrder]

/-- A completion delivered changes nothing the rules bound (R25). -/
theorem sound_complete {c : ArrayController} (h : c.Sound) (r : Request) (o : ArrayOutcome) (bs : List Byte) :
    (c.complete r o bs).Sound where
  legal := h.legal
  single := h.single
  free := h.free
  suspension := h.suspension
  bounds := h.bounds
  held := h.held
  idle := h.idle
  waits := h.waits
  ordered := h.ordered

/-- An interface with nothing outstanding is that of no known request (R19). -/
theorem not_known_of_not_outstanding {c : ArrayController} {who : Requester} (h : c.outstanding who = false) :
    ∀ q ∈ c.known, q.req.who ≠ who := by
  intro q hq he
  simp only [outstanding, Bool.or_eq_false_iff, List.any_eq_false, Option.any_eq_false] at h
  obtain ⟨⟨⟨h1, h2⟩, h3⟩, h4⟩ := h
  simp only [known, List.mem_append, Option.mem_toList] at hq
  rcases hq with ((hq | hq) | hq) | hq
  · have := h3 q hq; simp [he] at this
  · have := h4 q hq; simp [he] at this
  · exact h2 q hq (by simp [he])
  · exact h1 q hq (by simp [he])

theorem erasing_of_suspended {c : ArrayController} {e : Queued} (h : c.suspended = some e) :
    c.erasing = some e := by simp [erasing, h]

theorem erasing_cases {c : ArrayController} {e : Queued} (h : c.erasing = some e) :
    c.suspended = some e ∨ (c.suspended = none ∧ c.running = some e ∧ e.req.op.isErase = true) := by
  unfold erasing at h
  cases hs : c.suspended with
  | some x => rw [hs] at h; exact Or.inl h
  | none =>
    rw [hs] at h
    simp only [Option.filter_eq_some_iff] at h
    exact Or.inr ⟨rfl, h.1, h.2⟩

theorem no_held_of_not_erasing {c : ArrayController} (h : c.Sound) (he : c.erasing = none) : c.held = [] := by
  cases hh : c.held with
  | nil => rfl
  | cons q qs =>
    obtain ⟨_, e, he', _⟩ := h.held q (by simp [hh])
    simp [he] at he'

/-- The order of the parts of what is known does not matter. -/
theorem legal_of_known {c : ArrayController} {q : Queued} (h : c.Sound) (hq : q ∈ c.queue) :
    ArrayController.legal q.req = true := h.legal q (by simp [known, hq])

theorem nodup_queue {c : ArrayController} (h : c.Sound) : (c.queue.map (fun q => q.req.who)).Nodup := by
  have := h.single
  simp only [known, List.map_append] at this
  exact (List.nodup_append.1 this).2.1

theorem resume_none {c : ArrayController} {e : Queued} (h : c.queue.find? Queued.isRead = none) :
    c.resume e = { c with running := some e, suspended := none, grantCount := 0 } := by
  simp [resume, h]

theorem resume_some {c : ArrayController} {e q : Queued} (h : c.queue.find? Queued.isRead = some q) :
    c.resume e =
      if c.suspendCount < 8 then
        { c with queue := c.queue.erase q, running := some q, suspended := some e,
                 suspendCount := c.suspendCount + 1, grantCount := 1 }
      else { c with running := some e, suspended := none, grantCount := 0 } := by
  simp [resume, suspend, grant, h]

theorem serve_none {c : ArrayController} {e : Queued} (h : c.queue.find? Queued.isRead = none) :
    c.serve e = c.resume e := by
  simp [serve, h]

theorem serve_some {c : ArrayController} {e q : Queued} (h : c.queue.find? Queued.isRead = some q) :
    c.serve e =
      if c.grantCount < 7 then
        { c with queue := c.queue.erase q, running := some q, grantCount := c.grantCount + 1 }
      else c.resume e := by
  simp [serve, grant, h]

/-! ### The array fallen free -/

/-- What holds when the array has fallen free and the grant is still to come: what `Sound` asks but for the operation in
progress. -/
structure Fallen (c : ArrayController) : Prop where
  running : c.running = none
  legal : ∀ q ∈ c.known, ArrayController.legal q.req = true
  single : (c.known.map (fun q => q.req.who)).Nodup
  suspension : ∀ e, c.suspended = some e → e.req.op.isErase = true ∧ 1 ≤ c.suspendCount
  bounds : c.suspendCount ≤ 8 ∧ c.grantCount ≤ 7
  held : ∀ q ∈ c.held, q.isRead = true ∧ ∃ e, c.suspended = some e ∧ q.req.seg = e.req.seg
  idle : c.suspended = none → c.suspendCount = 0 ∧ c.grantCount = 0
  ordered : InOrder c.held c.queue c.arrivals

/-- A READ, PROGRAM or BLANK_CHECK ends (R25). -/
theorem fallen_endOp {c : ArrayController} (h : c.Sound) {q : Queued} (hq : c.running = some q)
    (hne : q.req.op.isErase = false) : c.endOp.Fallen := by
  have hera : c.erasing = c.suspended := by
    cases hs : c.suspended with
    | none => simp [erasing, hs, hq, hne, Option.filter]
    | some e => exact erasing_of_suspended hs
  have hk : c.known = q :: c.endOp.known := by simp [known, hq, endOp]
  exact {
    running := rfl
    legal := fun x hx => h.legal x (by rw [hk]; exact List.mem_cons_of_mem _ hx)
    single := by
      have := h.single
      rw [hk, List.map_cons, List.nodup_cons] at this
      exact this.2
    suspension := fun e he => ⟨(h.suspension e he).1, (h.suspension e he).2.2.1⟩
    bounds := h.bounds
    held := fun x hx => by
      have := h.held x hx
      rwa [hera] at this
    idle := fun hs => h.idle (by rw [hera]; exact hs)
    ordered := h.ordered }

theorem erasing_of_running {c : ArrayController} {e : Queued} (h : c.Sound) (hr : c.running = some e)
    (he : e.req.op.isErase = true) : c.suspended = none ∧ c.erasing = some e := by
  cases hs : c.suspended with
  | none => exact ⟨rfl, by simp [erasing, hs, hr, he, Option.filter]⟩
  | some x =>
    obtain ⟨_, ⟨q, hq, hread⟩, _⟩ := h.suspension x hs
    rw [hr] at hq
    cases hq
    obtain ⟨o, who, seg, op⟩ := e
    cases op <;> simp_all [Queued.isRead, ArrayOp.isRead, ArrayOp.isErase]

/-- The ERASE in progress ends (R25, R33). -/
theorem fallen_endErase {c : ArrayController} (h : c.Sound) {e : Queued} (hr : c.running = some e)
    (he : e.req.op.isErase = true) : c.endErase.Fallen := by
  obtain ⟨hs, _⟩ := erasing_of_running h hr he
  have hp := perm_foldl_insertByOrder c.held c.queue
  have hk : c.endErase.known = c.held.foldl (fun qs q => insertByOrder q qs) c.queue := by
    simp [known, endErase, hs]
  have hk' : c.known = e :: (c.held ++ c.queue) := by simp [known, hr, hs]
  exact {
    running := rfl
    legal := fun x hx => by
      rw [hk] at hx
      exact h.legal x (by rw [hk']; exact List.mem_cons_of_mem _ (hp.mem_iff.1 hx))
    single := by
      rw [hk]
      refine ((hp.map _).nodup_iff).2 ?_
      have := h.single
      rw [hk', List.map_cons, List.nodup_cons] at this
      exact this.2
    suspension := fun x hx => by simp [endErase, hs] at hx
    bounds := by simp [endErase]
    held := by simp [endErase]
    idle := fun _ => ⟨rfl, rfl⟩
    ordered := inOrder_merge h.ordered }

/-- A completion delivered changes nothing the rules bound (R25). -/
theorem fallen_complete {c : ArrayController} (h : c.Fallen) (r : Request) (o : ArrayOutcome) (bs : List Byte) :
    (c.complete r o bs).Fallen where
  running := h.running
  legal := h.legal
  single := h.single
  suspension := h.suspension
  bounds := h.bounds
  held := h.held
  idle := h.idle
  ordered := h.ordered

/-- The grant from a free array: the next READ of a suspension, the resumption, or the arbiter's choice (R27, R31). -/
theorem sound_grantNext {urgent : Bool} {c : ArrayController} (h : c.Fallen) : (c.grantNext urgent).Sound := by
  have hrun := h.running
  unfold grantNext
  cases hs : c.suspended with
  | none =>
    have hh : c.held = [] := by
      cases hh : c.held with
      | nil => rfl
      | cons x xs =>
        obtain ⟨_, e, he, _⟩ := h.held x (by simp [hh])
        rw [hs] at he
        cases he
    refine sound_grantFree (fun x hx => h.legal x (by simp [known, hx])) ?_ hrun hs hh (h.idle hs) h.ordered
    have := h.single
    simpa [known, hrun, hs, hh] using this
  | some e =>
    have hsp := h.suspension e hs
    have hb := h.bounds
    have hheld : ∀ x ∈ c.held, x.isRead = true ∧ x.req.seg = e.req.seg := by
      intro x hx
      obtain ⟨h1, e', h2, h3⟩ := h.held x hx
      rw [hs] at h2
      cases h2
      exact ⟨h1, h3⟩
    have hlegal : ∀ x, x = e ∨ x ∈ c.held ∨ x ∈ c.queue → ArrayController.legal x.req = true := by
      intro x hx
      apply h.legal
      simp only [known, hs, List.mem_append, Option.mem_toList]
      rcases hx with hx | hx | hx <;> simp [hx]
    have hnd : ((e :: c.held ++ c.queue).map (fun q => q.req.who)).Nodup := by
      have := h.single
      simpa [known, hrun, hs] using this
    -- what a READ granted with `n` suspensions and `g` grants leaves
    have granted : ∀ (x : Queued) (n g : Nat), x ∈ c.queue → x.isRead = true → 1 ≤ n → n ≤ 8 → 1 ≤ g → g ≤ 7 →
        ({ c with queue := c.queue.erase x, running := some x, suspended := some e, suspendCount := n,
                  grantCount := g } : ArrayController).Sound := by
      intro x n g hx hr hn1 hn8 hg1 hg7
      have hp : List.Perm (x :: c.queue.erase x) c.queue := (List.perm_cons_erase hx).symm
      have hp' : List.Perm (x :: e :: c.held ++ c.queue.erase x) (e :: c.held ++ c.queue) := by
        have h1 : List.Perm (x :: (e :: c.held) ++ c.queue.erase x) ((e :: c.held) ++ x :: c.queue.erase x) :=
          (List.perm_middle (a := x) (l₁ := e :: c.held) (l₂ := c.queue.erase x)).symm
        exact h1.trans (List.Perm.append_left _ hp)
      exact {
        legal := by
          intro y hy
          simp only [known, Option.toList_some, List.cons_append, List.nil_append] at hy
          have := (hp'.mem_iff).1 hy
          simp only [List.cons_append, List.mem_cons, List.mem_append] at this
          exact hlegal y this
        single := by
          simp only [known, Option.toList_some, List.cons_append, List.nil_append]
          exact ((hp'.map _).nodup_iff).2 hnd
        free := by simp
        suspension := by
          intro e' he'
          simp only [Option.some.injEq] at he'
          subst he'
          exact ⟨hsp.1, ⟨x, rfl, hr⟩, hn1, hg1⟩
        bounds := ⟨hn8, hg7⟩
        held := by
          intro y hy
          exact ⟨(hheld y hy).1, e, rfl, (hheld y hy).2⟩
        idle := by simp [erasing]
        waits := by
          intro e' he' hee
          simp only [Option.some.injEq] at he'
          subst he'
          obtain ⟨o, who, seg, op⟩ := x
          cases op <;> simp_all [Queued.isRead, ArrayOp.isRead, ArrayOp.isErase]
        ordered := inOrder_erase h.ordered x }
    -- the erase goes on
    have resumed : ∀ n, n ≤ 8 → (c.queue.any Queued.isRead = true → n = 8) →
        ({ c with running := some e, suspended := none, suspendCount := n, grantCount := 0 } :
          ArrayController).Sound := by
      intro n hn hw
      exact {
        legal := by
          intro y hy
          simp only [known, Option.toList_some, Option.toList_none, List.cons_append, List.nil_append,
            List.append_nil, List.mem_cons, List.mem_append] at hy
          exact hlegal y hy
        single := by simpa only [known, Option.toList_some, Option.toList_none, List.cons_append, List.nil_append,
            List.append_nil] using hnd
        free := by simp
        suspension := by simp
        bounds := ⟨hn, Nat.zero_le _⟩
        held := by
          intro y hy
          exact ⟨(hheld y hy).1, e, by simp [erasing, Option.filter, hsp.1], (hheld y hy).2⟩
        idle := by simp [erasing, Option.filter, hsp.1]
        waits := by
          intro e' _ _ hany
          exact hw hany
        ordered := h.ordered }
    have resume_sound : ∀ g : Nat, (resume { c with running := none, suspended := some e, grantCount := g } e).Sound := by
      intro g
      cases hf : c.queue.find? Queued.isRead with
      | none =>
        rw [resume_none (by exact hf)]
        refine resumed c.suspendCount hb.1 fun hany => ?_
        rw [List.find?_eq_none] at hf
        obtain ⟨y, hy, hyr⟩ := List.any_eq_true.1 hany
        exact absurd hyr (hf y hy)
      | some x =>
        rw [resume_some (by exact hf)]
        by_cases hlt : c.suspendCount < 8
        · rw [if_pos (by exact hlt)]
          exact granted x (c.suspendCount + 1) 1 (List.mem_of_find?_eq_some hf) (List.find?_some hf) (by omega)
            (by omega) (by omega) (by omega)
        · rw [if_neg (by exact hlt)]
          exact resumed c.suspendCount hb.1 fun _ => by omega
    have hc : c = { c with running := none, suspended := some e } := by rw [← hrun, ← hs]
    show (c.serve e).Sound
    rw [show c.serve e = serve { c with running := none, suspended := some e } e from congrArg (·.serve e) hc]
    cases hf : c.queue.find? Queued.isRead with
    | none =>
      rw [serve_none (by exact hf)]
      exact resume_sound c.grantCount
    | some x =>
      rw [serve_some (by exact hf)]
      by_cases hlt : c.grantCount < 7
      · rw [if_pos (by exact hlt)]
        exact granted x c.suspendCount (c.grantCount + 1) (List.mem_of_find?_eq_some hf) (List.find?_some hf)
          hsp.2 hb.1 (by omega) (by omega)
      · rw [if_neg (by exact hlt)]
        exact resume_sound c.grantCount

/-- What the checks of presentation let through (R19, R20). -/
theorem accepts_iff {c : ArrayController} {r : Request} (h : c.accepts r = true) :
    ArrayController.legal r = true ∧ c.outstanding r.who = false
      ∧ (r.op.changes = true → ∀ e, c.erasing = some e → e.req.seg ≠ r.seg) := by
  simp only [accepts, Bool.and_eq_true, Bool.not_eq_true', decide_eq_true_eq, Bool.and_eq_false_iff] at h
  obtain ⟨⟨⟨⟨h1, h2⟩, h3⟩, h4⟩, h5⟩ := h
  refine ⟨by simp [legal, h1, h2, h3], h4, fun hc e he heq => ?_⟩
  rcases h5 with h5 | h5
  · simp [hc] at h5
  · simp [he, heq] at h5

/-- A fresh request beside what is known keeps every interface at one (R19). -/
theorem nodup_cons_of_free {c : ArrayController} (hs : (c.known.map (fun q => q.req.who)).Nodup) {r : Request}
    (hn : c.outstanding r.who = false) (o : Nat) {l : List Queued} (hp : List.Perm l (⟨o, r⟩ :: c.known)) :
    (l.map (fun q => q.req.who)).Nodup := by
  refine ((hp.map _).nodup_iff).2 ?_
  rw [List.map_cons, List.nodup_cons]
  refine ⟨?_, hs⟩
  rw [List.mem_map]
  rintro ⟨q, hq, he⟩
  exact not_known_of_not_outstanding hn q hq he

theorem nodup_snoc {c : ArrayController} (h : c.Sound) {r : Request} (hn : c.outstanding r.who = false) (o : Nat)
    {l : List Queued} (hp : List.Perm l (⟨o, r⟩ :: c.known)) : (l.map (fun q => q.req.who)).Nodup :=
  nodup_cons_of_free h.single hn o hp

theorem legal_snoc {c : ArrayController} (h : c.Sound) {r : Request} (hl : ArrayController.legal r = true) (o : Nat)
    {l : List Queued} (hp : List.Perm l (⟨o, r⟩ :: c.known)) :
    ∀ q ∈ l, ArrayController.legal q.req = true := by
  intro q hq
  rcases List.mem_cons.1 (hp.mem_iff.1 hq) with rfl | hq
  · exact hl
  · exact h.legal q hq

theorem known_join {c : ArrayController} (r : Request) :
    List.Perm (c.join r).known (⟨c.arrivals, r⟩ :: c.known) := by
  simp only [known, join]
  rw [← List.append_assoc]
  exact List.perm_append_singleton _ _

/-- A held request beside what is known. -/
theorem known_hold {c : ArrayController} (r : Request) : List.Perm (c.hold r).known (⟨c.arrivals, r⟩ :: c.known) := by
  simp only [known, hold]
  rw [← List.append_assoc (as := c.running.toList ++ c.suspended.toList)]
  rw [List.append_assoc (as := (c.running.toList ++ c.suspended.toList) ++ c.held), List.singleton_append]
  exact List.perm_middle

/-- An accepted request that waits in the queue (R26). -/
theorem sound_join {c : ArrayController} (h : c.Sound) {r : Request} (hl : ArrayController.legal r = true)
    (hn : c.outstanding r.who = false) (hrun : c.running ≠ none)
    (hw : r.op.isRead = true → ∀ e, c.running = some e → e.req.op.isErase = true → c.suspendCount = 8) :
    (c.join r).Sound where
  legal := legal_snoc h hl _ (known_join r)
  single := nodup_snoc h hn _ (known_join r)
  free := fun hr => absurd hr hrun
  suspension := h.suspension
  bounds := h.bounds
  held := h.held
  idle := h.idle
  waits := by
    intro e he hee hany
    simp only [join, List.any_append, List.any_cons, List.any_nil, Bool.or_false, Bool.or_eq_true] at hany
    rcases hany with hany | hany
    · exact h.waits e he hee hany
    · exact hw hany e he hee
  ordered := inOrder_join h.ordered r

/-- A held read (R33). -/
theorem sound_hold {c : ArrayController} (h : c.Sound) {r : Request} (hl : ArrayController.legal r = true)
    (hn : c.outstanding r.who = false) {e : Queued} (he : c.erasing = some e) (hr : r.op.isRead = true)
    (hs : r.seg = e.req.seg) : (c.hold r).Sound := by
  have hp := known_hold (c := c) r
  exact {
    legal := legal_snoc h hl _ hp
    single := nodup_snoc h hn _ hp
    free := by
      intro hrun
      have hf := h.free hrun
      rcases erasing_cases he with hx | ⟨_, hx, _⟩
      · rw [hf.2.1] at hx; simp at hx
      · rw [show c.running = none from hrun] at hx; simp at hx
    suspension := h.suspension
    bounds := h.bounds
    held := by
      intro q hq
      simp only [hold, List.mem_append, List.mem_singleton] at hq
      rcases hq with hq | rfl
      · exact h.held q hq
      · exact ⟨hr, e, he, hs⟩
    idle := h.idle
    waits := h.waits
    ordered := inOrder_hold h.ordered r }

/-- A request accepted while the array has fallen free (R25, R33). -/
theorem fallen_enter {c : ArrayController} (h : c.Fallen) {r : Request} (ha : c.accepts r = true) : (c.enter r).Fallen := by
  obtain ⟨hl, hn, _⟩ := accepts_iff ha
  have hrun := h.running
  have hera : c.erasing = c.suspended := by
    cases hs : c.suspended with
    | none => simp [erasing, hs, hrun]
    | some e => exact erasing_of_suspended hs
  have legal_of {l : List Queued} (hp : List.Perm l (⟨c.arrivals, r⟩ :: c.known)) :
      ∀ q ∈ l, ArrayController.legal q.req = true := fun q hq => by
    rcases List.mem_cons.1 (hp.mem_iff.1 hq) with rfl | hq
    · exact hl
    · exact h.legal q hq
  unfold enter
  split
  · rename_i hc
    simp only [Bool.and_eq_true, Option.any_eq_true, beq_iff_eq, hera] at hc
    obtain ⟨hr, e, he, hseg⟩ := hc
    exact {
      running := hrun
      legal := legal_of (known_hold r)
      single := nodup_cons_of_free h.single hn _ (known_hold r)
      suspension := h.suspension
      bounds := h.bounds
      held := fun x hx => by
        simp only [hold, List.mem_append, List.mem_singleton] at hx
        rcases hx with hx | rfl
        · exact h.held x hx
        · exact ⟨hr, e, he, hseg⟩
      idle := h.idle
      ordered := inOrder_hold h.ordered r }
  · exact {
      running := hrun
      legal := legal_of (known_join r)
      single := nodup_cons_of_free h.single hn _ (known_join r)
      suspension := h.suspension
      bounds := h.bounds
      held := h.held
      idle := h.idle
      ordered := inOrder_join h.ordered r }

/-- A READ suspends the running erase (R30): it is the only READ queued. -/
theorem sound_suspend {c : ArrayController} (h : c.Sound) {r : Request} (hl : ArrayController.legal r = true)
    (hn : c.outstanding r.who = false) {e : Queued} (hrun : c.running = some e) (he : e.req.op.isErase = true)
    (hr : r.op.isRead = true) (hlt : c.suspendCount < 8) :
    (c.join r).queue.find? Queued.isRead = some ⟨c.arrivals, r⟩
    ∧ ((c.join r).suspend e ⟨c.arrivals, r⟩).Sound := by
  obtain ⟨hs, hera⟩ := erasing_of_running h hrun he
  have hnone : c.queue.any Queued.isRead = false := by
    cases hq : c.queue.any Queued.isRead with
    | false => rfl
    | true => have := h.waits e hrun he hq; omega
  have hfind : (c.join r).queue.find? Queued.isRead = some ⟨c.arrivals, r⟩ := by
    rw [List.any_eq_false] at hnone
    simp only [join, List.find?_append]
    rw [List.find?_eq_none.2 hnone]
    simp [Queued.isRead, hr]
  refine ⟨hfind, ?_⟩
  have hm : (⟨c.arrivals, r⟩ : Queued) ∈ (c.join r).queue := List.mem_of_find?_eq_some hfind
  have hpq : List.Perm (⟨c.arrivals, r⟩ :: (c.join r).queue.erase ⟨c.arrivals, r⟩) (c.queue ++ [⟨c.arrivals, r⟩]) :=
    (List.perm_cons_erase hm).symm
  have hp : List.Perm ((c.join r).suspend e ⟨c.arrivals, r⟩).known (⟨c.arrivals, r⟩ :: c.known) := by
    simp only [known, suspend, grant, hrun, hs, Option.toList_some, Option.toList_none, List.cons_append,
      List.nil_append, List.append_nil]
    have h1 : List.Perm ((c.join r).held ++ (c.join r).queue.erase ⟨c.arrivals, r⟩) (c.held ++ c.queue) := by
      refine List.Perm.append_left _ ?_
      have := hpq.trans (List.perm_append_singleton _ _)
      exact List.Perm.cons_inv this
    exact (h1.cons e).cons _
  exact {
    legal := legal_snoc h hl _ hp
    single := nodup_snoc h hn _ hp
    free := by simp [suspend, grant]
    suspension := by
      intro x hx
      simp only [suspend, Option.some.injEq] at hx
      subst hx
      exact ⟨he, ⟨⟨c.arrivals, r⟩, rfl, hr⟩, by simp [suspend], by simp [suspend]⟩
    bounds := by
      simp only [suspend, join]
      omega
    held := by
      intro q hq
      obtain ⟨h1, x, h2, h3⟩ := h.held q hq
      rw [hera] at h2
      cases h2
      exact ⟨h1, e, by simp [erasing, suspend], h3⟩
    idle := by simp [erasing, suspend]
    waits := by
      intro x hx hxe
      simp only [suspend, grant, Option.some.injEq] at hx
      subst hx
      obtain ⟨who, seg, op⟩ := r
      cases op <;> simp_all [ArrayOp.isRead, ArrayOp.isErase]
    ordered := inOrder_erase (inOrder_join h.ordered r) _ }

/-- An accepted request keeps the controller sound (R19, R20, R26 to R33). -/
theorem sound_accept {urgent : Bool} {c : ArrayController} (h : c.Sound) {r : Request} (ha : c.accepts r = true) :
    (c.accept urgent r).Sound := by
  obtain ⟨hl, hn, _⟩ := accepts_iff ha
  unfold accept
  cases he : c.erasing with
  | none =>
    simp only
    cases hrun : c.running with
    | none =>
      simp only [Option.isNone_none, if_true]
      obtain ⟨hq, hs, hh⟩ := h.free hrun
      exact sound_grantFree (c := c.join r) (by simp [join, hq, hl]) (by simp [join, hq]) hrun hs hh (h.idle he)
        (inOrder_join h.ordered r)
    | some x =>
      simp only [Option.isNone_some, Bool.false_eq_true, if_false]
      refine sound_join h hl hn (by simp [hrun]) fun _ y hy hye => ?_
      rw [(erasing_of_running h hy hye).2] at he
      simp at he
  | some e =>
    have hrun : c.running ≠ none := by
      intro hr
      have hf := h.free hr
      rcases erasing_cases he with hx | ⟨_, hx, _⟩
      · rw [hf.2.1] at hx; simp at hx
      · rw [hr] at hx; simp at hx
    simp only
    by_cases h1 : (r.op.isRead && r.seg == e.req.seg) = true
    · rw [if_pos h1]
      simp only [Bool.and_eq_true, beq_iff_eq] at h1
      exact sound_hold h hl hn he h1.1 h1.2
    rw [if_neg h1]
    by_cases h2 : (r.op.isRead && c.suspended.isNone && decide (c.suspendCount < 8)) = true
    · rw [if_pos h2]
      simp only [Bool.and_eq_true, decide_eq_true_eq, Option.isNone_iff_eq_none] at h2
      rcases erasing_cases he with hx | ⟨_, hx, hxe⟩
      · rw [h2.1.2] at hx; simp at hx
      obtain ⟨hf, hsound⟩ := sound_suspend h hl hn hx hxe h2.1.1 h2.2
      rw [hf]
      exact hsound
    · rw [if_neg h2]
      refine sound_join h hl hn hrun fun hr y hy hye => ?_
      have hsn := (erasing_of_running h hy hye).1
      simp only [Bool.and_eq_true, decide_eq_true_eq, Option.isNone_iff_eq_none, not_and] at h2
      have := h2 ⟨hr, hsn⟩
      have := h.bounds
      omega

/-- What a loss of power or RESET_N cuts off was accepted (R35). -/
theorem legal_cutOff {c : ArrayController} (h : c.Sound) : ∀ r, c.cutOff = some r → ArrayController.legal r = true := by
  intro r hr
  unfold cutOff at hr
  cases hs : c.suspended with
  | some e =>
    rw [hs] at hr
    cases hr
    exact h.legal e (by simp [known, hs])
  | none =>
    rw [hs] at hr
    simp only [Option.map_eq_some_iff] at hr
    obtain ⟨q, hq, rfl⟩ := hr
    exact h.legal q (by simp [known, hq])

/-- The operation in progress was accepted (R20). -/
theorem legal_running {c : ArrayController} (h : c.Sound) {q : Queued} (hq : c.running = some q) :
    ArrayController.legal q.req = true := h.legal q (by simp [known, hq])

end ArrayController

end Sys2Proof.Machine
end

