-- ==== Sys2Proof/Laws/ArrayOps.lean ====
section
/-! SUPPORT. What the array rows come to when they have work (R19 to R25), what the arbiter's grant leaves (R27), and what the
array fallen free comes to with and without a presentation (R25). -/

namespace Sys2Proof.Machine

theorem operation_of_running {s : State} {q : Queued} (h : s.running = true) (hq : s.ac.running = some q) :
    s.operation = some q.req := by
  simp [State.operation, h, hq]

theorem execArrayRequest_accepted {s : State} {r : Request} (hr : s.running = true) (ha : s.ac.accepts r = true) :
    execArrayRequest ⟨r, none⟩ s
      = .next { s with ac := s.ac.accept s.units.urgent r, units := notePresented r s.units } := by
  simp [execArrayRequest, hr, presentRequest, ha]

theorem execArrayRequest_rejected {s : State} {r : Request} (hr : s.running = true) (ha : s.ac.accepts r = false) :
    execArrayRequest ⟨r, none⟩ s = .next { s with ac := s.ac.complete r .rejected [] } := by
  simp [execArrayRequest, hr, presentRequest, ha]

/-- A completion, with or without a request that joins it, ends the operation in progress (R21 to R25). -/
theorem exec_joined (c : Ending) (j : Option Request) (s : State) :
    exec (c.joined j) s = .next (endOperation c j s) := by
  cases j <;> cases c <;> rfl

theorem endOperation_read {s : State} {o : Nat} {who : Requester} {seg first count : Nat} {j : Option Request}
    (hr : s.running = true) (hq : s.ac.running = some ⟨o, who, seg, .read first count⟩) :
    endOperation .read j s = readDone ⟨who, seg, .read first count⟩ first count j s := by
  simp [endOperation, operation_of_running hr hq]

theorem endOperation_program {s : State} {o : Nat} {who : Requester} {seg cell : Nat} {bytes stuck : List Byte}
    {j : Option Request} (hr : s.running = true) (hq : s.ac.running = some ⟨o, who, seg, .program cell bytes⟩) :
    endOperation (.program stuck) j s = programDone ⟨who, seg, .program cell bytes⟩ cell bytes stuck j s := by
  simp [endOperation, operation_of_running hr hq]

theorem endOperation_erase {s : State} {o : Nat} {who : Requester} {seg : Nat} {e : EraseEnd} {j : Option Request}
    (hr : s.running = true) (hq : s.ac.running = some ⟨o, who, seg, .erase⟩) :
    endOperation (.erase e) j s = eraseDone ⟨who, seg, .erase⟩ e j s := by
  simp [endOperation, operation_of_running hr hq]

theorem endOperation_blankCheck {s : State} {o : Nat} {who : Requester} {seg : Nat} {j : Option Request}
    (hr : s.running = true) (hq : s.ac.running = some ⟨o, who, seg, .blankCheck⟩) :
    endOperation .blankCheck j s = blankDone ⟨who, seg, .blankCheck⟩ j s := by
  simp [endOperation, operation_of_running hr hq]

namespace ArrayController

/-- A grant from a free array: the arbiter's choice, and what it leaves. -/
theorem grantFree_running {urgent : Bool} {c : ArrayController} (h : c.running = none) :
    (grantFree urgent c).running = choose urgent c.queue := by
  unfold grantFree
  split <;> simp_all [grant]

theorem grantFree_frame (urgent : Bool) (c : ArrayController) :
    (grantFree urgent c).held = c.held ∧ (grantFree urgent c).arrivals = c.arrivals
      ∧ (grantFree urgent c).suspendCount = c.suspendCount ∧ (grantFree urgent c).suspended = c.suspended := by
  unfold grantFree
  split <;> simp [grant]

theorem grantNext_unsuspended {urgent : Bool} {c : ArrayController} (h : c.suspended = none) :
    c.grantNext urgent = grantFree urgent c := by
  simp [grantNext, h]

theorem grantNext_suspended {urgent : Bool} {c : ArrayController} {e : Queued} (h : c.suspended = some e) :
    c.grantNext urgent = c.serve e := by
  simp [grantNext, h]

theorem resume_delivered (c : ArrayController) (e : Queued) : (c.resume e).delivered = c.delivered := by
  unfold resume
  dsimp only
  split
  · split <;> rfl
  · rfl

/-- A grant delivers nothing (R25). -/
theorem grantNext_delivered (urgent : Bool) (c : ArrayController) : (c.grantNext urgent).delivered = c.delivered := by
  unfold grantNext
  split
  · unfold serve
    split
    · split
      · rfl
      · exact resume_delivered _ _
    · exact resume_delivered _ _
  · unfold grantFree
    split <;> rfl

end ArrayController

/-! ## The array fallen free (R25) -/

/-- The array falls free with no presentation: the grant alone. -/
@[simp] theorem arrayFree_none (urgent : Bool) (s : State) :
    arrayFree urgent none s = { s with ac := s.ac.grantNext urgent } := rfl

/-- A presentation that falls together with the completion, accepted: it joins before the grant. -/
theorem arrayFree_accepted {urgent : Bool} {r : Request} {s : State} (h : s.ac.accepts r = true) :
    arrayFree urgent (some r) s
      = { s with ac := (s.ac.enter r).grantNext urgent, units := notePresented r s.units } := by
  simp [arrayFree, h]

/-- The same, refused: it completes REJECTED, and the grant is what it is without it. -/
theorem arrayFree_rejected {urgent : Bool} {r : Request} {s : State} (h : s.ac.accepts r = false) :
    arrayFree urgent (some r) s = { s with ac := (s.ac.complete r .rejected []).grantNext urgent } := by
  simp [arrayFree, h]

/-- What the fall of the array leaves alone. -/
theorem arrayFree_frame (urgent : Bool) (j : Option Request) (s : State) :
    (arrayFree urgent j s).array = s.array ∧ (arrayFree urgent j s).pending = s.pending
      ∧ (arrayFree urgent j s).powered = s.powered ∧ (arrayFree urgent j s).resetLow = s.resetLow := by
  cases j with
  | none => exact ⟨rfl, rfl, rfl, rfl⟩
  | some r => cases h : s.ac.accepts r <;> simp [arrayFree, h]

/-- With or without a presentation, the grant from a free array keeps the controller sound (R19, R20, R25 to R33). -/
theorem sound_arrayFree {urgent : Bool} {j : Option Request} {s : State} (h : s.ac.Fallen) :
    (arrayFree urgent j s).ac.Sound := by
  cases j with
  | none => exact ArrayController.sound_grantNext h
  | some r =>
    cases ha : s.ac.accepts r with
    | false => rw [arrayFree_rejected ha]; exact ArrayController.sound_grantNext (ArrayController.fallen_complete h _ _ _)
    | true => rw [arrayFree_accepted ha]; exact ArrayController.sound_grantNext (ArrayController.fallen_enter h ha)

end Sys2Proof.Machine
end

