-- ==== Sys2Proof/Laws/State.lean ====
section
/-! SUPPORT. What each update of the state leaves in each field: one lemma per field per update, all simp. -/

namespace Sys2Proof.Machine

/-! ## The four ports -/

@[simp] theorem Four.get_set_self {α : Type} (f : Four α) (p : Port) (x : α) : (f.set p x).get p = x := by
  cases p <;> rfl

theorem Four.get_set_of_ne {α : Type} (f : Four α) {p q : Port} (h : p ≠ q) (x : α) : (f.set p x).get q = f.get q := by
  cases p <;> cases q <;> first | rfl | exact absurd rfl h

@[simp] theorem Four.set_set {α : Type} (f : Four α) (p : Port) (x y : α) : (f.set p x).set p y = f.set p y := by
  cases p <;> rfl

@[simp] theorem Four.set_get {α : Type} (f : Four α) (p : Port) : f.set p (f.get p) = f := by
  cases p <;> rfl

/-! ## The units -/

namespace Units

@[simp] theorem clock_setPort (u : Units) (p : Port) (x : MasterPort) : (u.setPort p x).clock = u.clock := rfl
@[simp] theorem media_setPort (u : Units) (p : Port) (x : MasterPort) : (u.setPort p x).media = u.media := rfl
@[simp] theorem pu_setPort (u : Units) (p : Port) (x : MasterPort) : (u.setPort p x).pu = u.pu := rfl
@[simp] theorem tm_setPort (u : Units) (p : Port) (x : MasterPort) : (u.setPort p x).tm = u.tm := rfl
@[simp] theorem rw_setPort (u : Units) (p : Port) (x : MasterPort) : (u.setPort p x).rw = u.rw := rfl
@[simp] theorem iu_setPort (u : Units) (p : Port) (x : MasterPort) : (u.setPort p x).iu = u.iu := rfl
@[simp] theorem ce_setPort (u : Units) (p : Port) (x : MasterPort) : (u.setPort p x).ce = u.ce := rfl
@[simp] theorem nu_setPort (u : Units) (p : Port) (x : MasterPort) : (u.setPort p x).nu = u.nu := rfl
@[simp] theorem me_setPort (u : Units) (p : Port) (x : MasterPort) : (u.setPort p x).me = u.me := rfl

@[simp] theorem clock_modPort (u : Units) (p : Port) (f : MasterPort → MasterPort) : (u.modPort p f).clock = u.clock := rfl
@[simp] theorem media_modPort (u : Units) (p : Port) (f : MasterPort → MasterPort) : (u.modPort p f).media = u.media := rfl
@[simp] theorem pu_modPort (u : Units) (p : Port) (f : MasterPort → MasterPort) : (u.modPort p f).pu = u.pu := rfl
@[simp] theorem tm_modPort (u : Units) (p : Port) (f : MasterPort → MasterPort) : (u.modPort p f).tm = u.tm := rfl
@[simp] theorem rw_modPort (u : Units) (p : Port) (f : MasterPort → MasterPort) : (u.modPort p f).rw = u.rw := rfl
@[simp] theorem iu_modPort (u : Units) (p : Port) (f : MasterPort → MasterPort) : (u.modPort p f).iu = u.iu := rfl
@[simp] theorem ce_modPort (u : Units) (p : Port) (f : MasterPort → MasterPort) : (u.modPort p f).ce = u.ce := rfl
@[simp] theorem nu_modPort (u : Units) (p : Port) (f : MasterPort → MasterPort) : (u.modPort p f).nu = u.nu := rfl
@[simp] theorem me_modPort (u : Units) (p : Port) (f : MasterPort → MasterPort) : (u.modPort p f).me = u.me := rfl

@[simp] theorem clock_setSlot (u : Units) (p : Port) (x : Slot) : (u.setSlot p x).clock = u.clock := rfl
@[simp] theorem media_setSlot (u : Units) (p : Port) (x : Slot) : (u.setSlot p x).media = u.media := rfl
@[simp] theorem ports_setSlot (u : Units) (p : Port) (x : Slot) : (u.setSlot p x).ports = u.ports := rfl
@[simp] theorem pu_setSlot (u : Units) (p : Port) (x : Slot) : (u.setSlot p x).pu = u.pu := rfl
@[simp] theorem rw_setSlot (u : Units) (p : Port) (x : Slot) : (u.setSlot p x).rw = u.rw := rfl
@[simp] theorem iu_setSlot (u : Units) (p : Port) (x : Slot) : (u.setSlot p x).iu = u.iu := rfl
@[simp] theorem ce_setSlot (u : Units) (p : Port) (x : Slot) : (u.setSlot p x).ce = u.ce := rfl
@[simp] theorem nu_setSlot (u : Units) (p : Port) (x : Slot) : (u.setSlot p x).nu = u.nu := rfl
@[simp] theorem me_setSlot (u : Units) (p : Port) (x : Slot) : (u.setSlot p x).me = u.me := rfl

@[simp] theorem clock_modSlot (u : Units) (p : Port) (f : Slot → Slot) : (u.modSlot p f).clock = u.clock := rfl
@[simp] theorem media_modSlot (u : Units) (p : Port) (f : Slot → Slot) : (u.modSlot p f).media = u.media := rfl
@[simp] theorem ports_modSlot (u : Units) (p : Port) (f : Slot → Slot) : (u.modSlot p f).ports = u.ports := rfl
@[simp] theorem pu_modSlot (u : Units) (p : Port) (f : Slot → Slot) : (u.modSlot p f).pu = u.pu := rfl
@[simp] theorem rw_modSlot (u : Units) (p : Port) (f : Slot → Slot) : (u.modSlot p f).rw = u.rw := rfl
@[simp] theorem iu_modSlot (u : Units) (p : Port) (f : Slot → Slot) : (u.modSlot p f).iu = u.iu := rfl
@[simp] theorem ce_modSlot (u : Units) (p : Port) (f : Slot → Slot) : (u.modSlot p f).ce = u.ce := rfl
@[simp] theorem nu_modSlot (u : Units) (p : Port) (f : Slot → Slot) : (u.modSlot p f).nu = u.nu := rfl
@[simp] theorem me_modSlot (u : Units) (p : Port) (f : Slot → Slot) : (u.modSlot p f).me = u.me := rfl

@[simp] theorem clock_setNotices (u : Units) (p : Port) (x : NoticePort) : (u.setNotices p x).clock = u.clock := rfl
@[simp] theorem media_setNotices (u : Units) (p : Port) (x : NoticePort) : (u.setNotices p x).media = u.media := rfl
@[simp] theorem ports_setNotices (u : Units) (p : Port) (x : NoticePort) : (u.setNotices p x).ports = u.ports := rfl
@[simp] theorem pu_setNotices (u : Units) (p : Port) (x : NoticePort) : (u.setNotices p x).pu = u.pu := rfl
@[simp] theorem tm_setNotices (u : Units) (p : Port) (x : NoticePort) : (u.setNotices p x).tm = u.tm := rfl
@[simp] theorem rw_setNotices (u : Units) (p : Port) (x : NoticePort) : (u.setNotices p x).rw = u.rw := rfl
@[simp] theorem iu_setNotices (u : Units) (p : Port) (x : NoticePort) : (u.setNotices p x).iu = u.iu := rfl
@[simp] theorem ce_setNotices (u : Units) (p : Port) (x : NoticePort) : (u.setNotices p x).ce = u.ce := rfl
@[simp] theorem me_setNotices (u : Units) (p : Port) (x : NoticePort) : (u.setNotices p x).me = u.me := rfl

@[simp] theorem clock_setIu (u : Units) (x : IndexUnit) : (u.setIu x).clock = u.clock := rfl
@[simp] theorem media_setIu (u : Units) (x : IndexUnit) : (u.setIu x).media = u.media := rfl
@[simp] theorem ports_setIu (u : Units) (x : IndexUnit) : (u.setIu x).ports = u.ports := rfl
@[simp] theorem pu_setIu (u : Units) (x : IndexUnit) : (u.setIu x).pu = u.pu := rfl
@[simp] theorem tm_setIu (u : Units) (x : IndexUnit) : (u.setIu x).tm = u.tm := rfl
@[simp] theorem rw_setIu (u : Units) (x : IndexUnit) : (u.setIu x).rw = u.rw := rfl
@[simp] theorem ce_setIu (u : Units) (x : IndexUnit) : (u.setIu x).ce = u.ce := rfl
@[simp] theorem nu_setIu (u : Units) (x : IndexUnit) : (u.setIu x).nu = u.nu := rfl
@[simp] theorem me_setIu (u : Units) (x : IndexUnit) : (u.setIu x).me = u.me := rfl

@[simp] theorem iu_setIu (u : Units) (x : IndexUnit) : (u.setIu x).iu = x := rfl
@[simp] theorem setIu_setIu (u : Units) (x y : IndexUnit) : (u.setIu x).setIu y = u.setIu y := rfl

@[simp] theorem clock_setCe (u : Units) (x : CompactionEngine) : (u.setCe x).clock = u.clock := rfl
@[simp] theorem media_setCe (u : Units) (x : CompactionEngine) : (u.setCe x).media = u.media := rfl
@[simp] theorem ports_setCe (u : Units) (x : CompactionEngine) : (u.setCe x).ports = u.ports := rfl
@[simp] theorem pu_setCe (u : Units) (x : CompactionEngine) : (u.setCe x).pu = u.pu := rfl
@[simp] theorem tm_setCe (u : Units) (x : CompactionEngine) : (u.setCe x).tm = u.tm := rfl
@[simp] theorem rw_setCe (u : Units) (x : CompactionEngine) : (u.setCe x).rw = u.rw := rfl
@[simp] theorem iu_setCe (u : Units) (x : CompactionEngine) : (u.setCe x).iu = u.iu := rfl
@[simp] theorem nu_setCe (u : Units) (x : CompactionEngine) : (u.setCe x).nu = u.nu := rfl
@[simp] theorem me_setCe (u : Units) (x : CompactionEngine) : (u.setCe x).me = u.me := rfl

@[simp] theorem ce_setCe (u : Units) (x : CompactionEngine) : (u.setCe x).ce = x := rfl
@[simp] theorem setCe_setCe (u : Units) (x y : CompactionEngine) : (u.setCe x).setCe y = u.setCe y := rfl

@[simp] theorem clock_setRw (u : Units) (x : RecordWriter) : (u.setRw x).clock = u.clock := rfl
@[simp] theorem media_setRw (u : Units) (x : RecordWriter) : (u.setRw x).media = u.media := rfl
@[simp] theorem ports_setRw (u : Units) (x : RecordWriter) : (u.setRw x).ports = u.ports := rfl
@[simp] theorem pu_setRw (u : Units) (x : RecordWriter) : (u.setRw x).pu = u.pu := rfl
@[simp] theorem tm_setRw (u : Units) (x : RecordWriter) : (u.setRw x).tm = u.tm := rfl
@[simp] theorem iu_setRw (u : Units) (x : RecordWriter) : (u.setRw x).iu = u.iu := rfl
@[simp] theorem ce_setRw (u : Units) (x : RecordWriter) : (u.setRw x).ce = u.ce := rfl
@[simp] theorem nu_setRw (u : Units) (x : RecordWriter) : (u.setRw x).nu = u.nu := rfl
@[simp] theorem me_setRw (u : Units) (x : RecordWriter) : (u.setRw x).me = u.me := rfl

@[simp] theorem rw_setRw (u : Units) (x : RecordWriter) : (u.setRw x).rw = x := rfl
@[simp] theorem setRw_setRw (u : Units) (x y : RecordWriter) : (u.setRw x).setRw y = u.setRw y := rfl

@[simp] theorem clock_setPu (u : Units) (x : PolicyUnit) : (u.setPu x).clock = u.clock := rfl
@[simp] theorem media_setPu (u : Units) (x : PolicyUnit) : (u.setPu x).media = u.media := rfl
@[simp] theorem ports_setPu (u : Units) (x : PolicyUnit) : (u.setPu x).ports = u.ports := rfl
@[simp] theorem tm_setPu (u : Units) (x : PolicyUnit) : (u.setPu x).tm = u.tm := rfl
@[simp] theorem rw_setPu (u : Units) (x : PolicyUnit) : (u.setPu x).rw = u.rw := rfl
@[simp] theorem iu_setPu (u : Units) (x : PolicyUnit) : (u.setPu x).iu = u.iu := rfl
@[simp] theorem ce_setPu (u : Units) (x : PolicyUnit) : (u.setPu x).ce = u.ce := rfl
@[simp] theorem nu_setPu (u : Units) (x : PolicyUnit) : (u.setPu x).nu = u.nu := rfl
@[simp] theorem me_setPu (u : Units) (x : PolicyUnit) : (u.setPu x).me = u.me := rfl

@[simp] theorem pu_setPu (u : Units) (x : PolicyUnit) : (u.setPu x).pu = x := rfl
@[simp] theorem setPu_setPu (u : Units) (x y : PolicyUnit) : (u.setPu x).setPu y = u.setPu y := rfl

@[simp] theorem clock_setMe (u : Units) (x : MountEngine) : (u.setMe x).clock = u.clock := rfl
@[simp] theorem media_setMe (u : Units) (x : MountEngine) : (u.setMe x).media = u.media := rfl
@[simp] theorem ports_setMe (u : Units) (x : MountEngine) : (u.setMe x).ports = u.ports := rfl
@[simp] theorem pu_setMe (u : Units) (x : MountEngine) : (u.setMe x).pu = u.pu := rfl
@[simp] theorem tm_setMe (u : Units) (x : MountEngine) : (u.setMe x).tm = u.tm := rfl
@[simp] theorem rw_setMe (u : Units) (x : MountEngine) : (u.setMe x).rw = u.rw := rfl
@[simp] theorem iu_setMe (u : Units) (x : MountEngine) : (u.setMe x).iu = u.iu := rfl
@[simp] theorem ce_setMe (u : Units) (x : MountEngine) : (u.setMe x).ce = u.ce := rfl
@[simp] theorem nu_setMe (u : Units) (x : MountEngine) : (u.setMe x).nu = u.nu := rfl

@[simp] theorem me_setMe (u : Units) (x : MountEngine) : (u.setMe x).me = x := rfl
@[simp] theorem setMe_setMe (u : Units) (x y : MountEngine) : (u.setMe x).setMe y = u.setMe y := rfl

@[simp] theorem tm_queues_setSlot (u : Units) (p : Port) (x : Slot) : (u.setSlot p x).tm.queues = u.tm.queues := rfl
@[simp] theorem tm_counter_setSlot (u : Units) (p : Port) (x : Slot) : (u.setSlot p x).tm.counter = u.tm.counter := rfl
@[simp] theorem tm_retained_setSlot (u : Units) (p : Port) (x : Slot) : (u.setSlot p x).tm.retained = u.tm.retained := rfl
@[simp] theorem tm_lockEvents_setSlot (u : Units) (p : Port) (x : Slot) : (u.setSlot p x).tm.lockEvents = u.tm.lockEvents := rfl
@[simp] theorem tm_revocations_setSlot (u : Units) (p : Port) (x : Slot) : (u.setSlot p x).tm.revocations = u.tm.revocations := rfl
@[simp] theorem nu_posts_setNotices (u : Units) (p : Port) (x : NoticePort) :
    (u.setNotices p x).nu.posts = u.nu.posts := rfl
@[simp] theorem nu_reports_setNotices (u : Units) (p : Port) (x : NoticePort) :
    (u.setNotices p x).nu.reports = u.nu.reports := rfl
@[simp] theorem nu_removals_setNotices (u : Units) (p : Port) (x : NoticePort) :
    (u.setNotices p x).nu.removals = u.nu.removals := rfl

/-! ## Reading one piece after a change of another -/

@[simp] theorem port_setPort_self (u : Units) (p : Port) (x : MasterPort) : (u.setPort p x).port p = x :=
  Four.get_set_self _ _ _
theorem port_setPort_of_ne (u : Units) {p q : Port} (h : p ≠ q) (x : MasterPort) :
    (u.setPort p x).port q = u.port q := Four.get_set_of_ne _ h _
@[simp] theorem port_setSlot (u : Units) (p : Port) (x : Slot) (q : Port) :
    (u.setSlot p x).port q = u.port q := rfl
@[simp] theorem port_setNotices (u : Units) (p : Port) (x : NoticePort) (q : Port) :
    (u.setNotices p x).port q = u.port q := rfl
@[simp] theorem port_setIu (u : Units) (x : IndexUnit) (q : Port) :
    (u.setIu x).port q = u.port q := rfl
@[simp] theorem port_setCe (u : Units) (x : CompactionEngine) (q : Port) :
    (u.setCe x).port q = u.port q := rfl
@[simp] theorem port_setRw (u : Units) (x : RecordWriter) (q : Port) :
    (u.setRw x).port q = u.port q := rfl
@[simp] theorem port_setPu (u : Units) (x : PolicyUnit) (q : Port) :
    (u.setPu x).port q = u.port q := rfl
@[simp] theorem port_setMe (u : Units) (x : MountEngine) (q : Port) :
    (u.setMe x).port q = u.port q := rfl

@[simp] theorem slot_setSlot_self (u : Units) (p : Port) (x : Slot) : (u.setSlot p x).slot p = x :=
  Four.get_set_self _ _ _
theorem slot_setSlot_of_ne (u : Units) {p q : Port} (h : p ≠ q) (x : Slot) :
    (u.setSlot p x).slot q = u.slot q := Four.get_set_of_ne _ h _
@[simp] theorem slot_setPort (u : Units) (p : Port) (x : MasterPort) (q : Port) :
    (u.setPort p x).slot q = u.slot q := rfl
@[simp] theorem slot_modPort (u : Units) (p : Port) (f : MasterPort → MasterPort) (q : Port) :
    (u.modPort p f).slot q = u.slot q := rfl
@[simp] theorem slot_setNotices (u : Units) (p : Port) (x : NoticePort) (q : Port) :
    (u.setNotices p x).slot q = u.slot q := rfl
@[simp] theorem slot_setIu (u : Units) (x : IndexUnit) (q : Port) :
    (u.setIu x).slot q = u.slot q := rfl
@[simp] theorem slot_setCe (u : Units) (x : CompactionEngine) (q : Port) :
    (u.setCe x).slot q = u.slot q := rfl
@[simp] theorem slot_setRw (u : Units) (x : RecordWriter) (q : Port) :
    (u.setRw x).slot q = u.slot q := rfl
@[simp] theorem slot_setPu (u : Units) (x : PolicyUnit) (q : Port) :
    (u.setPu x).slot q = u.slot q := rfl
@[simp] theorem slot_setMe (u : Units) (x : MountEngine) (q : Port) :
    (u.setMe x).slot q = u.slot q := rfl

@[simp] theorem notices_setNotices_self (u : Units) (p : Port) (x : NoticePort) : (u.setNotices p x).notices p = x :=
  Four.get_set_self _ _ _
theorem notices_setNotices_of_ne (u : Units) {p q : Port} (h : p ≠ q) (x : NoticePort) :
    (u.setNotices p x).notices q = u.notices q := Four.get_set_of_ne _ h _
@[simp] theorem notices_setPort (u : Units) (p : Port) (x : MasterPort) (q : Port) :
    (u.setPort p x).notices q = u.notices q := rfl
@[simp] theorem notices_modPort (u : Units) (p : Port) (f : MasterPort → MasterPort) (q : Port) :
    (u.modPort p f).notices q = u.notices q := rfl
@[simp] theorem notices_setSlot (u : Units) (p : Port) (x : Slot) (q : Port) :
    (u.setSlot p x).notices q = u.notices q := rfl
@[simp] theorem notices_setIu (u : Units) (x : IndexUnit) (q : Port) :
    (u.setIu x).notices q = u.notices q := rfl
@[simp] theorem notices_setCe (u : Units) (x : CompactionEngine) (q : Port) :
    (u.setCe x).notices q = u.notices q := rfl
@[simp] theorem notices_setRw (u : Units) (x : RecordWriter) (q : Port) :
    (u.setRw x).notices q = u.notices q := rfl
@[simp] theorem notices_setPu (u : Units) (x : PolicyUnit) (q : Port) :
    (u.setPu x).notices q = u.notices q := rfl
@[simp] theorem notices_setMe (u : Units) (x : MountEngine) (q : Port) :
    (u.setMe x).notices q = u.notices q := rfl

theorem modPort_eq (u : Units) (p : Port) (f : MasterPort → MasterPort) : u.modPort p f = u.setPort p (f (u.port p)) := rfl

theorem modSlot_eq (u : Units) (p : Port) (f : Slot → Slot) : u.modSlot p f = u.setSlot p (f (u.slot p)) := rfl

@[simp] theorem setPort_setPort (u : Units) (p : Port) (x y : MasterPort) :
    (u.setPort p x).setPort p y = u.setPort p y := by
  simp [setPort]

@[simp] theorem setPort_port (u : Units) (p : Port) : u.setPort p (u.port p) = u := by
  simp [setPort, port]

@[simp] theorem setSlot_setSlot (u : Units) (p : Port) (x y : Slot) : (u.setSlot p x).setSlot p y = u.setSlot p y := by
  simp [setSlot]

@[simp] theorem setNotices_setNotices (u : Units) (p : Port) (x y : NoticePort) :
    (u.setNotices p x).setNotices p y = u.setNotices p y := by
  simp [setNotices]

end Units

/-! ## The whole state -/

namespace State

@[simp] theorem pending_withUnits (s : State) (u : Units) : (s.withUnits u).pending = s.pending := rfl
@[simp] theorem powered_withUnits (s : State) (u : Units) : (s.withUnits u).powered = s.powered := rfl
@[simp] theorem resetLow_withUnits (s : State) (u : Units) : (s.withUnits u).resetLow = s.resetLow := rfl
@[simp] theorem array_withUnits (s : State) (u : Units) : (s.withUnits u).array = s.array := rfl
@[simp] theorem ac_withUnits (s : State) (u : Units) : (s.withUnits u).ac = s.ac := rfl
@[simp] theorem units_withUnits (s : State) (u : Units) : (s.withUnits u).units = u := rfl
@[simp] theorem running_withUnits (s : State) (u : Units) : (s.withUnits u).running = s.running := rfl
@[simp] theorem withUnits_withUnits (s : State) (u v : Units) : (s.withUnits u).withUnits v = s.withUnits v := rfl

end State

end Sys2Proof.Machine
end

