-- ==== Sys2Proof/Laws/Ports.lean ====
section
/-! SUPPORT. What the shared operations of the ports do: an idle Writer takes no job, a port that does not drain is not settled, and
what a frame that writes one byte comes to (R58, R167 to R173, R179). -/

namespace Sys2Proof.Machine

/-! ## Operations that have nothing to do -/

/-- A Writer with a job, or with none queued, takes none (R58). -/
theorem takeJobs_idle (u : Units) (h : u.rw.cur.isSome = true ∨ u.rw.queue = []) : ∀ fuel, takeJobs fuel u = u
  | 0 => rfl
  | fuel + 1 => by
    unfold takeJobs
    rcases h with h | h
    · cases hc : u.rw.cur with
      | none => simp [hc] at h
      | some c => rfl
    · cases hc : u.rw.cur <;> simp [h]

theorem kick_idle (u : Units) (h : u.rw.cur.isSome = true ∨ u.rw.queue = []) : kick u = u := takeJobs_idle u h _

/-- A port that does not drain stays as it is (R179). -/
theorem settle_steady (p : Port) (u : Units) (h : (u.port p).draining = false) : settle p u = u := by
  simp [settle, h]

theorem handedOver_steady {x : MasterPort} (h : x.handOver = false) : x.handedOver = x := by
  simp [MasterPort.handedOver, h]

/-- The end of a frame at a port that neither drains nor has a hand-over to take, with an idle Writer. -/
theorem frameEnd_steady {p : Port} {u : Units} (hh : (u.port p).handOver = false) (hd : (u.port p).draining = false)
    (hw : u.rw.cur.isSome = true ∨ u.rw.queue = []) :
    settle p (kick (u.modPort p MasterPort.handedOver)) = u := by
  have h1 : u.modPort p MasterPort.handedOver = u := by
    simp [Units.modPort_eq, handedOver_steady hh]
  rw [h1, kick_idle u hw, settle_steady p u hd]

/-- A rejected outcome, nothing to post: the selection leaves the port (R175). -/
theorem postResult_none {p : Port} {u : Units} (h : (u.port p).outcome = none) : postResult p u = u := by
  simp [postResult, Units.modPort_eq, h]

/-! ## Frames of one byte -/

/-- The frame a port has in hand when its second byte has been shifted. -/
def Frame.opened (b : Bool) (off : Nat) (st : Byte) : Frame := ⟨.data true off, b, false, none, none, none, st, [st, 0]⟩

/-- CS_N falls and the two address bytes of a frame are shifted (R168). -/
theorem frame_addressed {p : Port} {u : Units} (b0 off : Byte) (hf : (u.port p).frame = none)
    (ho : (u.port p).outcome = none) :
    shiftByte p off (shiftByte p b0 (selectFrame p u))
      = u.setPort p { u.port p with
          frame := some ⟨.data (b0.getLsbD 7) ((if b0.getLsbD 0 then 256 else 0) + off.toNat),
            (u.port p).state == .busy, false, none, none, none, statusByte p u, [statusByte p u, 0]⟩ } := by
  simp [selectFrame, hf, postResult_none ho, shiftByte, Units.modPort_eq, MasterPort.shift]

/-- A data byte of a write frame (R168, R169). -/
theorem shiftByte_write {p : Port} {u : Units} {f : Frame} {off : Nat} (b : Byte) (hf : (u.port p).frame = some f)
    (hp : f.phase = .data true off) :
    shiftByte p b u = u.setPort p
      { ((u.port p).writeByte f off b).1 with
        frame := some { ((u.port p).writeByte f off b).2 with phase := .data true (off + 1) } } := by
  unfold shiftByte
  rw [Units.modPort_eq]
  simp only [hf, MasterPort.shift, hp]

/-- A data byte of a read frame (R168). -/
theorem shiftByte_read {p : Port} {u : Units} {f : Frame} {off : Nat} (b : Byte) (hf : (u.port p).frame = some f)
    (hp : f.phase = .data false off) (ho : off < 512) :
    shiftByte p b u = u.setPort p
      { u.port p with
        frame := some { f with phase := .data false (off + 1), out := f.out ++ [(u.port p).windowByte off] } } := by
  unfold shiftByte
  rw [Units.modPort_eq]
  have h : ¬ windowBytes ≤ off := by
    simp only [windowBytes]
    omega
  simp only [hf, MasterPort.shift, hp, if_neg h]

/-- A byte of the buffer (R169, R172). -/
theorem writeByte_buffer (x : MasterPort) (f : Frame) (b : Byte) {off : Nat} (h1 : 256 ≤ off) (h2 : off < 512) :
    x.writeByte f off b
      = if f.beganBusy then (x, { f with collided := true }) else ({ x with buffer := x.buffer.set (off - 256) b }, f) := by
  unfold MasterPort.writeByte
  rw [if_neg (by simp only [offControl]; omega), if_neg (by simp only [offEnables]; omega),
    if_neg (by simp only [offCommand]; omega), if_pos (by simpa [bufferBase] using h1),
    if_neg (by simp only [windowBytes]; omega)]
  rfl

/-- A byte below the buffer that is neither the code, a control action nor the enables (R169, R172). -/
theorem writeByte_low (x : MasterPort) (f : Frame) (b : Byte) {off : Nat} (h1 : 3 ≤ off) (h2 : off < 256) :
    x.writeByte f off b
      = match x.params.write off b with
        | none => (x, f)
        | some q => if f.beganBusy then (x, { f with collided := true }) else ({ x with params := q }, f) := by
  unfold MasterPort.writeByte
  rw [if_neg (by simp only [offControl]; omega), if_neg (by simp only [offEnables]; omega),
    if_neg (by simp only [offCommand]; omega), if_neg (by simp only [bufferBase]; omega)]
  first | done | rfl

/-- The same for a write frame below offset 256. -/
theorem frame_opened {p : Port} {u : Units} {off : Byte} (hf : (u.port p).frame = none)
    (ho : (u.port p).outcome = none) :
    shiftByte p off (shiftByte p 0x80 (selectFrame p u))
      = u.setPort p { u.port p with
          frame := some (Frame.opened ((u.port p).state == .busy) off.toNat (statusByte p u)) } := by
  simp [selectFrame, hf, postResult_none ho, shiftByte, Units.modPort_eq, MasterPort.shift, Frame.opened]

/-- A frame that writes one byte at an offset below 256, to its end (R167, R171 to R173). -/
theorem writeFrame_eq {p : Port} {u : Units} {off b : Byte} (hf : (u.port p).frame = none)
    (ho : (u.port p).outcome = none) :
    writeFrame p off b u
      = endFrame p (u.setPort p
          (let r := (u.port p).writeByte
              (Frame.opened ((u.port p).state == .busy) off.toNat (statusByte p u)) off.toNat b
           { r.1 with frame := some { r.2 with phase := .data true (off.toNat + 1) } })) := by
  unfold writeFrame wholeFrame
  simp only [hf, Option.isSome_none, Bool.false_eq_true, if_false, List.foldl_cons, List.foldl_nil]
  rw [frame_opened hf ho]
  simp only [shiftByte, Units.modPort_eq, Units.port_setPort_self, Units.setPort_setPort, MasterPort.shift, Frame.opened]
  simp only [MasterPort.writeByte]
  repeat' split
  all_goals rfl

/-- A frame without a command or a control action, from the state its bytes leave the port in (R167, R172). -/
theorem wholeFrame_plain {p : Port} {s : State} (h : Quiet p s) {bytes : List Byte} {y : MasterPort} {f : Frame}
    (hy : bytes.foldl (fun u b => shiftByte p b u) (selectFrame p s.units) = s.units.setPort p y)
    (hf : y.frame = some f) (hc : f.control = none) (hm : f.command = none) (hh : y.handOver = false)
    (hd : y.draining = false) : wholeFrame p bytes s.units = s.units.setPort p (y.closeFrame f) := by
  have hnf := h.noFrame
  have ht : f.takes = none := by
    unfold Frame.takes
    split
    · rfl
    · simp [hm]
  have hcl : (y.closeFrame f).handOver = false ∧ (y.closeFrame f).draining = false := by
    unfold MasterPort.closeFrame
    split <;> exact ⟨hh, hd⟩
  unfold wholeFrame
  rw [hnf]
  simp only [Option.isSome_none, Bool.false_eq_true, if_false]
  rw [hy]
  unfold endFrame
  rw [Units.port_setPort_self, hf]
  simp only [hc, ht]
  have hm : (s.units.setPort p y).modPort p (fun x => x.closeFrame f) = s.units.setPort p (y.closeFrame f) := by
    simp [Units.modPort_eq]
  rw [hm]
  exact frameEnd_steady (by simpa using hcl.1) (by simpa using hcl.2) h.writer

/-- A control action: the frame that writes it, to its end (R173, R174, R179). -/
theorem controlFrame_quiet {p : Port} {s : State} (h : Quiet p s) (b : Byte) :
    writeFrame p 0x01 b s.units
      = settle p (kick ((takeControl p b (s.sentBack p (s.statusOut p))).modPort p MasterPort.handedOver)) := by
  rw [writeFrame_eq h.noFrame h.noOutcome]
  have hz : (0x01 : Byte).toNat = 1 := rfl
  rw [hz]
  have hf := h.noFrame
  unfold endFrame
  simp only [MasterPort.writeByte, Frame.opened, offControl, if_true, Units.port_setPort_self, Units.modPort_eq,
    Units.setPort_setPort, MasterPort.closeFrame, Frame.takes]
  have hsent : s.units.setPort p { s.units.port p with
        frame := none, lastOut := [statusByte p s.units, 0], collision := (s.units.port p).collision || false }
      = s.sentBack p (s.statusOut p) := by
    unfold State.sentBack State.statusOut
    rw [Bool.or_false, ← hf]
  rw [hsent]
  split <;> rename_i hk
  · exfalso
    split at hk <;> simp [Option.filter] at hk
  · rfl

/-! ## A command taken (R171, R176) -/

theorem ofCode_code (c : Cmd) : Cmd.ofCode c.code = some c := by cases c <;> rfl

theorem not_busy {p : Port} {s : State} (h : Taking p s) : ((s.units.port p).state == .busy) = false := by
  rcases h.state with hs | hs <;> simp [hs]

/-- What a command passed or refused by the checks does, before the frame ends. -/
def taken (p : Port) (c : Cmd) (s : State) : Units :=
  match checkCommand c p (s.units.port p).params s.units with
  | .error e => answer p e (s.taking p c)
  | .ok part => carryOut p c (s.units.port p).params part (s.taking p c)

/-- A frame that wrote a code and no control action (R171). -/
theorem endFrame_command {p : Port} {u : Units} {f : Frame} {code : Byte} (hf : (u.port p).frame = some f)
    (hc : f.control = none) (ht : f.takes = some code) :
    endFrame p u
      = settle p (kick ((takeCode p code (u.modPort p fun x => x.closeFrame f)).modPort p MasterPort.handedOver)) := by
  simp [endFrame, hf, hc, ht]

/-- A code of the table in READY or DONE (R176). -/
theorem takeCode_command {p : Port} {u : Units} (c : Cmd)
    (h : (u.port p).state = .ready ∨ (u.port p).state = .done) : takeCode p c.code u = takeCmd p c u := by
  unfold takeCode
  rcases h with h | h <;> rw [h] <;> simp [ofCode_code]

/-- The frame of a command at a port that takes it. -/
theorem commandCode_taking {p : Port} {s : State} (h : Taking p s) (c : Cmd) :
    writeFrame p 0x00 c.code s.units = settle p (kick ((taken p c s).modPort p MasterPort.handedOver)) := by
  have hb := not_busy h
  rw [writeFrame_eq h.noFrame h.noOutcome, hb]
  have hz : (0x00 : Byte).toNat = 0 := rfl
  rw [hz]
  rw [endFrame_command (f := ⟨.data true 1, false, false, some c.code, none, none, statusByte p s.units,
      [statusByte p s.units, 0]⟩) (code := c.code) (by simp [MasterPort.writeByte, Frame.opened, offControl, offEnables, offCommand])
      rfl (by cases c <;> rfl)]
  rw [takeCode_command c]
  · congr 3
    unfold takeCmd taken
    simp only [MasterPort.writeByte, Frame.opened, offControl, offEnables, offCommand, Units.modPort_eq,
      Units.port_setPort_self, Units.setPort_setPort, MasterPort.closeFrame, MasterPort.take]
    have ho := h.noOutcome
    have hf := h.noFrame
    simp only [Nat.reduceEqDiff, if_false, if_true, Bool.false_eq_true]
    rw [← ho, ← hf]
    rfl
  · simpa [Units.modPort_eq, MasterPort.closeFrame, MasterPort.writeByte, Frame.opened, offControl, offEnables,
      offCommand] using h.state

/-! ## Commands that are answered, or carried on -/

/-- The checks read the Policy Unit alone, which taking a command leaves (R143, R176). -/
theorem checkCommand_units {u v : Units} (h : u.pu = v.pu) (c : Cmd) (p : Port) (q : Params) :
    checkCommand c p q u = checkCommand c p q v := by
  cases u
  cases v
  simp only at h
  subst h
  rfl

/-- A row of the link while the part runs (R167). -/
theorem onLink_running {p : Port} {e : LinkEvent} {s : State} (h : s.running = true) :
    onLink p e s = .next (s.withUnits (linkEvent p e s.units)) := by
  unfold onLink
  rw [if_pos h]
  rfl

/-- A row of the link while RESET_N is asserted: zeros are shifted out (R167). -/
theorem onLink_reset {p : Port} {e : LinkEvent} {s : State} (h : s.powered = true) (hr : s.resetLow = true) :
    onLink p e s = .next (s.withUnits (s.sentBack p (zerosOut (s.units.port p).lastOut e))) := by
  have hn : s.running = false := by simp [State.running, h, hr]
  unfold onLink
  rw [if_neg (by simp [hn]), if_pos h]
  rfl

/-- A row of the link at a part without supply (R167). -/
theorem onLink_off {p : Port} {e : LinkEvent} {s : State} (h : s.powered = false) : onLink p e s = .next s := by
  have hn : s.running = false := by simp [State.running, h]
  simp [onLink, hn, h]

/-- A row of the link leaves the queue, the supply, RESET_N, the array and the Array Controller. -/
theorem onLink_frame (p : Port) (e : LinkEvent) (s : State) : ∃ u, onLink p e s = .next (s.withUnits u) := by
  unfold onLink
  split
  · exact ⟨_, rfl⟩
  · split
    · exact ⟨_, rfl⟩
    · exact ⟨s.units, rfl⟩

/-- A row that is a whole frame of one byte, while the part runs. -/
theorem onFrame_running {p : Port} {off b : Byte} {s : State} (h : s.running = true) :
    onFrame p off b s = .next (s.withUnits (writeFrame p off b s.units)) := onLink_running h

theorem commandRow_running {p : Port} {c : Cmd} {s : State} (h : s.running = true) :
    commandRow c p s = .next (s.withUnits (writeFrame p 0x00 c.code s.units)) := onFrame_running h

/-- A command carried on to units that end the frame without more. -/
theorem command_passed {p : Port} {s : State} (h : Taking p s) {c : Cmd} {u : Units} (ht : taken p c s = u)
    (hh : (u.port p).handOver = false) (hd : (u.port p).draining = false)
    (hw : u.rw.cur.isSome = true ∨ u.rw.queue = []) :
    commandRow c p s = .next (s.withUnits u) := by
  rw [commandRow_running h.running, commandCode_taking h, ht, frameEnd_steady hh hd hw]

theorem deliver_taking (p : Port) (c : Cmd) (o : Posting) (s : State) :
    deliver p o (s.taking p c) = s.answered p c o := by
  simp [deliver, State.taking, State.answered, Units.modPort_eq]

/-- A command answered in the event in which it is taken. -/
theorem command_answered {p : Port} {s : State} (h : Taking p s) {c : Cmd} {o : Posting}
    (ht : taken p c s = deliver p o (s.taking p c)) :
    commandRow c p s = .next (s.withUnits (s.answered p c o)) := by
  rw [deliver_taking] at ht
  exact command_passed h ht (by simpa [State.answered] using h.handed) (by simpa [State.answered] using h.steady)
    (by simpa [State.answered] using h.writer)

/-- A command that a check refuses (R176). -/
theorem command_refused {p : Port} {s : State} (h : Taking p s) {c : Cmd} {e : ResultCode}
    (he : checkCommand c p (s.units.port p).params s.units = .error e) :
    commandRow c p s = .next (s.withUnits (s.answered p c (Posting.code e))) := by
  refine command_answered h ?_
  unfold taken
  rw [he]
  rfl

/-- A command that passes the checks. -/
theorem taken_ok {p : Port} {s : State} {c : Cmd} {part : Nat}
    (hc : checkCommand c p (s.units.port p).params s.units = .ok part) :
    taken p c s = carryOut p c (s.units.port p).params part (s.taking p c) := by
  unfold taken
  rw [hc]

/-- The tests of R143 and R178 as the model computes them. -/
theorem checkCommand_passing {c : Cmd} {p : Port} {part : Nat} {s : State} (ha : admitted c p part s)
    (hr : ¬ outOfRange c (s.units.port p).params) :
    checkCommand c p (s.units.port p).params s.units = .ok part := by
  have hk : ∀ q : Params, q.keyOk = false → q.key = 0xFFFF := by
    intro q h
    have h1 : ¬ q.key.toNat ≤ 65534 := of_decide_eq_false h
    have h2 : q.key.toNat < 65536 := q.key.isLt
    apply BitVec.eq_of_toNat_eq
    have h3 : (0xFFFF : Half).toNat = 65535 := rfl
    rw [h3]
    omega
  have hrange : c.rangesOk (s.units.port p).params = true := by
    cases hx : c.rangesOk (s.units.port p).params with
    | true => rfl
    | false =>
      refine absurd ?_ hr
      have hk := hk (s.units.port p).params
      cases c <;> simp_all [Cmd.rangesOk, outOfRange, Params.lengthOk, Params.lengthNat, Params.offsetNat,
        Params.allFlag]
  rcases ha with ⟨hc, h1, h2⟩ | ⟨hc, h1, h2, h3⟩ | ⟨hc, h1, h2⟩ | ⟨hc, h1, h2⟩ | ⟨hc, h1⟩ <;>
    cases c <;> simp_all [checkCommand, Cmd.need]

theorem taken_passing {c : Cmd} {p : Port} {part : Nat} {s : State} (h : Passing c p part s) :
    taken p c s = carryOut p c (s.units.port p).params part (s.taking p c) :=
  taken_ok (checkCommand_passing h.admitted h.inRange)

/-! ## The gate -/

/-- A row on the units while the part runs. -/
theorem onUnits_running {f : Units → Units} {s : State} (h : s.running = true) :
    onUnits f s = .next (s.withUnits (f s.units)) := by
  unfold onUnits
  rw [if_pos h]
  rfl

/-- A row on the units while it does not (R35, R167). -/
theorem onUnits_off {f : Units → Units} {s : State} (h : s.running = false) : onUnits f s = .next s := by
  simp [onUnits, h]

theorem onUnitsKick_off {f : Units → Units} {s : State} (h : s.running = false) : onUnitsKick f s = .next s :=
  onUnits_off h

/-- A row on the units leaves the queue, the supply, RESET_N, the array and the Array Controller. -/
theorem onUnits_frame (f : Units → Units) (s : State) :
    ∃ u, onUnits f s = .next (s.withUnits u) := by
  unfold onUnits
  split
  · exact ⟨f s.units, rfl⟩
  · exact ⟨s.units, rfl⟩

theorem onUnitsKick_frame (f : Units → Units) (s : State) :
    ∃ u, onUnitsKick f s = .next (s.withUnits u) := onUnits_frame _ s

theorem onUnitsKick_running {f : Units → Units} {s : State} (h : s.running = true) :
    onUnitsKick f s = .next (s.withUnits (kick (f s.units))) := onUnits_running h

/-! ## The merged list (R91) -/

theorem mem_insertListed {e x : ListEntry} {xs : List ListEntry} : x ∈ insertListed e xs ↔ x = e ∨ x ∈ xs := by
  induction xs with
  | nil => simp [insertListed]
  | cons y ys ih =>
    simp only [insertListed]
    split
    · simp
    · simp only [List.mem_cons, ih]; exact or_left_comm

/-- A staged WRITE joins the list in its place, where no key of the list is its own. -/
theorem insertListed_ordered (e : ListEntry) (xs : List ListEntry) (h : xs.Pairwise (fun x y => x.key < y.key))
    (hn : ∀ x ∈ xs, x.key ≠ e.key) : (insertListed e xs).Pairwise (fun x y => x.key < y.key) := by
  induction xs with
  | nil => simp [insertListed]
  | cons y ys ih =>
    rw [List.pairwise_cons] at h
    simp only [insertListed]
    split
    · rename_i hlt
      rw [List.pairwise_cons, List.pairwise_cons]
      refine ⟨fun z hz => ?_, h⟩
      rcases List.mem_cons.1 hz with rfl | hz
      · exact hlt
      · exact Nat.lt_trans hlt (h.1 z hz)
    · rw [List.pairwise_cons]
      refine ⟨fun z hz => ?_, ih h.2 (fun x hx => hn x (List.mem_cons_of_mem _ hx))⟩
      rcases mem_insertListed.1 hz with rfl | hz
      · have := hn y List.mem_cons_self; omega
      · exact h.1 z hz

end Sys2Proof.Machine
end

