-- ==== Sys2Proof/Laws/Claims.lean ====
section
/-! SUPPORT. What taking a claim and presenting one change: the claims of the Index Unit and nothing else. -/

namespace Sys2Proof.Machine

@[simp] theorem popClaim_clock (u : Units) : (popClaim u).clock = u.clock := rfl
@[simp] theorem popClaim_media (u : Units) : (popClaim u).media = u.media := rfl
@[simp] theorem popClaim_ports (u : Units) : (popClaim u).ports = u.ports := rfl
@[simp] theorem popClaim_pu (u : Units) : (popClaim u).pu = u.pu := rfl
@[simp] theorem popClaim_tm (u : Units) : (popClaim u).tm = u.tm := rfl
@[simp] theorem popClaim_rw (u : Units) : (popClaim u).rw = u.rw := rfl
@[simp] theorem popClaim_ce (u : Units) : (popClaim u).ce = u.ce := rfl
@[simp] theorem popClaim_nu (u : Units) : (popClaim u).nu = u.nu := rfl
@[simp] theorem popClaim_me (u : Units) : (popClaim u).me = u.me := rfl
@[simp] theorem popClaim_port (u : Units) (q : Port) : (popClaim u).port q = u.port q := rfl
@[simp] theorem popClaim_slot (u : Units) (q : Port) : (popClaim u).slot q = u.slot q := rfl
@[simp] theorem popClaim_notices (u : Units) (q : Port) : (popClaim u).notices q = u.notices q := rfl
@[simp] theorem popClaim_iu_entries (u : Units) : (popClaim u).iu.entries = u.iu.entries := rfl
@[simp] theorem popClaim_iu_charges (u : Units) : (popClaim u).iu.charges = u.iu.charges := rfl
@[simp] theorem popClaim_iu_commitSet (u : Units) : (popClaim u).iu.commitSet = u.iu.commitSet := rfl
@[simp] theorem popClaim_iu_segs (u : Units) : (popClaim u).iu.segs = u.iu.segs := rfl
@[simp] theorem popClaim_iu_writeHead (u : Units) : (popClaim u).iu.writeHead = u.iu.writeHead := rfl
@[simp] theorem popClaim_iu_copyHead (u : Units) : (popClaim u).iu.copyHead = u.iu.copyHead := rfl
@[simp] theorem popClaim_iu_seqNext (u : Units) : (popClaim u).iu.seqNext = u.iu.seqNext := rfl
@[simp] theorem popClaim_iu_spaceWait (u : Units) : (popClaim u).iu.spaceWait = u.iu.spaceWait := rfl
@[simp] theorem popClaim_iu_armed (u : Units) : (popClaim u).iu.armed = u.iu.armed := rfl
@[simp] theorem popClaim_iu_faults (u : Units) : (popClaim u).iu.faults = u.iu.faults := rfl
@[simp] theorem popClaim_find (u : Units) (part key : Nat) : (popClaim u).iu.find part key = u.iu.find part key := rfl
@[simp] theorem popClaim_seg (u : Units) (n : Nat) : (popClaim u).iu.seg n = u.iu.seg n := rfl
@[simp] theorem popClaim_inSet (u : Units) (n : Nat) : (popClaim u).iu.inSet n = u.iu.inSet n := rfl
@[simp] theorem popClaim_erasedCount (u : Units) : (popClaim u).iu.erasedCount = u.iu.erasedCount := rfl
@[simp] theorem popClaim_claims (u : Units) : (popClaim u).iu.claims = u.iu.claims.tail := rfl

@[simp] theorem present_clock (src : Claimant) (c : Claim) (u : Units) : (present src c u).clock = u.clock := rfl
@[simp] theorem present_media (src : Claimant) (c : Claim) (u : Units) : (present src c u).media = u.media := rfl
@[simp] theorem present_ports (src : Claimant) (c : Claim) (u : Units) : (present src c u).ports = u.ports := rfl
@[simp] theorem present_pu (src : Claimant) (c : Claim) (u : Units) : (present src c u).pu = u.pu := rfl
@[simp] theorem present_tm (src : Claimant) (c : Claim) (u : Units) : (present src c u).tm = u.tm := rfl
@[simp] theorem present_rw (src : Claimant) (c : Claim) (u : Units) : (present src c u).rw = u.rw := rfl
@[simp] theorem present_ce (src : Claimant) (c : Claim) (u : Units) : (present src c u).ce = u.ce := rfl
@[simp] theorem present_nu (src : Claimant) (c : Claim) (u : Units) : (present src c u).nu = u.nu := rfl
@[simp] theorem present_me (src : Claimant) (c : Claim) (u : Units) : (present src c u).me = u.me := rfl
@[simp] theorem present_port (src : Claimant) (c : Claim) (u : Units) (q : Port) : (present src c u).port q = u.port q := rfl
@[simp] theorem present_slot (src : Claimant) (c : Claim) (u : Units) (q : Port) : (present src c u).slot q = u.slot q := rfl
@[simp] theorem present_notices (src : Claimant) (c : Claim) (u : Units) (q : Port) : (present src c u).notices q = u.notices q := rfl
@[simp] theorem present_iu_entries (src : Claimant) (c : Claim) (u : Units) : (present src c u).iu.entries = u.iu.entries := rfl
@[simp] theorem present_iu_charges (src : Claimant) (c : Claim) (u : Units) : (present src c u).iu.charges = u.iu.charges := rfl
@[simp] theorem present_iu_commitSet (src : Claimant) (c : Claim) (u : Units) : (present src c u).iu.commitSet = u.iu.commitSet := rfl
@[simp] theorem present_iu_segs (src : Claimant) (c : Claim) (u : Units) : (present src c u).iu.segs = u.iu.segs := rfl
@[simp] theorem present_iu_writeHead (src : Claimant) (c : Claim) (u : Units) : (present src c u).iu.writeHead = u.iu.writeHead := rfl
@[simp] theorem present_iu_copyHead (src : Claimant) (c : Claim) (u : Units) : (present src c u).iu.copyHead = u.iu.copyHead := rfl
@[simp] theorem present_iu_seqNext (src : Claimant) (c : Claim) (u : Units) : (present src c u).iu.seqNext = u.iu.seqNext := rfl
@[simp] theorem present_iu_spaceWait (src : Claimant) (c : Claim) (u : Units) : (present src c u).iu.spaceWait = u.iu.spaceWait := rfl
@[simp] theorem present_iu_armed (src : Claimant) (c : Claim) (u : Units) : (present src c u).iu.armed = u.iu.armed := rfl
@[simp] theorem present_iu_faults (src : Claimant) (c : Claim) (u : Units) : (present src c u).iu.faults = u.iu.faults := rfl

/-- An outcome delivered for a command in hand. -/
theorem deliver_inHand {p : Port} {o : Posting} {u : Units} {c : InHand} (h : (u.port p).inHand = some c) :
    deliver p o u = u.withOutcome p o := by
  simp [deliver, Units.modPort_eq, Units.withOutcome, h]

/-- An outcome whose command was dropped is dropped. -/
theorem deliver_dropped {p : Port} {o : Posting} {u : Units} (h : (u.port p).inHand = none) : deliver p o u = u := by
  simp [deliver, Units.modPort_eq, h]

theorem answer_inHand {p : Port} {e : ResultCode} {u : Units} {c : InHand} (h : (u.port p).inHand = some c) :
    answer p e u = u.withOutcome p (Posting.code e) := deliver_inHand h

/-- A row that takes a claim, the claim being the oldest. -/
theorem claim_row {src : Claimant} {c : Claim} {s : State} {f : Units → Units} (h : s.oldestClaim src c) :
    onUnits f s = .next (s.withUnits (f s.units)) := onUnits_running h.1

/-- A row that takes a claim and lets the Writer take its next job. -/
theorem claim_row_kick {src : Claimant} {c : Claim} {s : State} {f : Units → Units} (h : s.oldestClaim src c) :
    onUnitsKick f s = .next (s.withUnits (kick (f s.units))) := onUnitsKick_running h.1

end Sys2Proof.Machine
end

