-- ==== Sys2Proof/Laws/Txn.lean ====
section
/-! SUPPORT. The transaction number of a grant: the first from the counter on that is not in use (R81); what an abort
does (R84), what the release of a claim does (R79), what a lock event and a revocation event do (R80, R96, R97), and which of
them a transaction command takes ahead of its row. -/

namespace Sys2Proof.Machine

/-- The number `k` places after the counter, 1 after 65,535 (R81). -/
def candidate (c k : Nat) : Nat := if c + k ≤ 65535 then c + k else c + k - 65535

theorem candidate_zero {c : Nat} (h : c ≤ 65535) : candidate c 0 = c := by simp [candidate, h]

theorem nextNumber_candidate {c k : Nat} (h1 : 1 ≤ c) (h2 : c ≤ 65535) (hk : k < 65535) :
    nextNumber (candidate c k) = candidate c (k + 1) := by
  unfold nextNumber candidate
  split <;> split <;> split <;> omega

theorem candidate_inj {c j k : Nat} (h1 : 1 ≤ c) (h2 : c ≤ 65535) (hj : j < 65535) (hk : k < 65535)
    (h : candidate c j = candidate c k) : j = k := by
  unfold candidate at h
  split at h <;> split at h <;> omega

/-- The numbers that can be in use at a port's grant. -/
def numbersHeld (u : Units) : List Nat :=
  allPorts.map (fun q => (u.slot q).number) ++ u.iu.commitSet.map (·.txn) ++ u.tm.retained.map (·.1)

theorem mem_numbersHeld {p : Port} {n : Nat} {u : Units} (h : numberInUse p n u = true) : n ∈ numbersHeld u := by
  simp only [numberInUse, Bool.or_eq_true, List.any_eq_true, Bool.and_eq_true, beq_iff_eq, IndexUnit.inSet] at h
  simp only [numbersHeld, List.mem_append, List.mem_map]
  rcases h with (⟨q, hq, _, h⟩ | ⟨e, he, h⟩) | ⟨r, hr, h⟩
  · exact .inl (.inl ⟨q, hq, h⟩)
  · exact .inl (.inr ⟨e, he, h⟩)
  · exact .inr ⟨r, hr, h⟩

/-- The search passes over candidates in use alone, and gives its last one only when all before are in use. -/
theorem pickNumber_steps (p : Port) (u : Units) {c : Nat} (h1 : 1 ≤ c) (h2 : c ≤ 65535) : ∀ fuel k, k + fuel ≤ 65535 →
    ∃ i, i ≤ fuel ∧ pickNumber p u fuel (candidate c k) = candidate c (k + i)
      ∧ (∀ j, j < i → numberInUse p (candidate c (k + j)) u = true)
      ∧ (i < fuel → numberInUse p (candidate c (k + i)) u = false)
  | 0, k, _ => ⟨0, Nat.le_refl _, rfl, by omega, by omega⟩
  | fuel + 1, k, hk => by
    cases hu : numberInUse p (candidate c k) u with
    | false => exact ⟨0, by omega, by simp [pickNumber, hu], by omega, fun _ => hu⟩
    | true =>
      obtain ⟨i, hi, he, hall, hlast⟩ := pickNumber_steps p u h1 h2 fuel (k + 1) (by omega)
      refine ⟨i + 1, by omega, ?_, fun j hj => ?_, fun hlt => ?_⟩
      · rw [pickNumber, hu, if_pos rfl, nextNumber_candidate h1 h2 (by omega), he]
        congr 1; omega
      · cases j with
        | zero => exact hu
        | succ j => have := hall j (by omega); rwa [show k + (j + 1) = k + 1 + j by omega]
      · have := hlast (by omega); rwa [show k + (i + 1) = k + 1 + i by omega]

/-- A grant takes the first number from the counter on that is not in use (R81). -/
theorem newNumber_first (p : Port) (u : Units) (h1 : 1 ≤ u.tm.counter) (h2 : u.tm.counter ≤ 65535)
    (hf : u.iu.commitSet.length + u.tm.retained.length ≤ 65000) :
    ∃ k, k < 65535 ∧ newNumber p u = candidate u.tm.counter k ∧ numberInUse p (newNumber p u) u = false
      ∧ ∀ j, j < k → numberInUse p (candidate u.tm.counter j) u = true := by
  obtain ⟨i, hi, he, hall, hlast⟩ := pickNumber_steps p u h1 h2
    (4 + u.iu.commitSet.length + u.tm.retained.length) 0 (by omega)
  rw [candidate_zero h2] at he
  simp only [Nat.zero_add] at he hall hlast
  have hfree : numberInUse p (candidate u.tm.counter i) u = false := by
    by_contra hc
    simp only [Bool.not_eq_false] at hc
    -- more candidates in use than there are numbers held
    have hsub : ∀ j, j < i + 1 → candidate u.tm.counter j ∈ numbersHeld u := fun j hj => by
      rcases Nat.lt_or_ge j i with h | h
      · exact mem_numbersHeld (hall j h)
      · rw [show j = i by omega]; exact mem_numbersHeld hc
    have hi' : i = 4 + u.iu.commitSet.length + u.tm.retained.length := by
      rcases Nat.lt_or_ge i (4 + u.iu.commitSet.length + u.tm.retained.length) with h | h
      · rw [hlast h] at hc; cases hc
      · omega
    have hnd : ((List.range (i + 1)).map (candidate u.tm.counter)).Nodup := by
      rw [List.nodup_map_iff_inj_on List.nodup_range]
      intro a ha b hb hab
      rw [List.mem_range] at ha hb
      exact candidate_inj h1 h2 (by omega) (by omega) hab
    have hle := (List.subperm_of_subset hnd (l₂ := numbersHeld u) fun x hx => by
      obtain ⟨j, hj, rfl⟩ := List.mem_map.1 hx
      exact hsub j (List.mem_range.1 hj)).length_le
    simp only [List.length_map, List.length_range, numbersHeld, List.length_append, allPorts, List.length_cons,
      List.length_nil] at hle
    omega
  refine ⟨i, by omega, ?_, ?_, hall⟩
  · unfold newNumber; exact he
  · unfold newNumber; rw [he]; exact hfree

theorem holding_iff (s : Slot) : s.holding = true ↔ s.state ∈ [SlotState.opened, .committing, .aborting] := by
  simp [Slot.holding, or_assoc]

/-- The number of a grant, over units whose numbers in use are those of `v` (R81). -/
theorem newNumber_firstFree {p : Port} {u v : Units} {others : Port → Prop} (hc : u.tm.counter = v.tm.counter)
    (hr : u.tm.retained = v.tm.retained) (hm : u.iu.commitSet = v.iu.commitSet)
    (hs : ∀ g m, g ≠ p ∧ (u.slot g).holding = true ∧ (u.slot g).number = m
      ↔ others g ∧ (v.slot g).holding = true ∧ (v.slot g).number = m) :
    v.firstFreeNumber others (newNumber p u) := by
  unfold Units.firstFreeNumber
  extract_lets c candidate' used
  intro h1 h2 hf
  have hused : ∀ m, numberInUse p m u = true ↔ used m := fun m => by
    have hport : (∃ g, g ≠ p ∧ (u.slot g).holding = true ∧ (u.slot g).number = m)
        ↔ ∃ g, others g ∧ (v.slot g).state ∈ [SlotState.opened, .committing, .aborting] ∧ (v.slot g).number = m :=
      exists_congr fun g => by rw [hs g m, holding_iff]
    simp only [used, ← hport, ← hm, ← hr, numberInUse, IndexUnit.inSet, Bool.or_eq_true, List.any_eq_true,
      Bool.and_eq_true, beq_iff_eq, bne_iff_ne, or_assoc, and_assoc]
    refine or_congr ⟨fun ⟨g, _, h⟩ => ⟨g, h⟩, fun ⟨g, h⟩ => ⟨g, by cases g <;> simp [allPorts], h⟩⟩ Iff.rfl
  obtain ⟨k, hk, he, hfree, hall⟩ := newNumber_first p u (hc ▸ h1) (hc ▸ h2) (by rw [hm, hr]; exact hf)
  refine ⟨k, hk, by rw [he, hc]; rfl, fun hn => ?_, fun j hj => (hused _).1 ?_⟩
  · rw [(hused _).2 hn] at hfree; cases hfree
  · rw [hc] at hall; exact hall j hj

/-! ## Aborts (R84) -/

/-- The stage on the space wait list, as the model finds it (R53). -/
theorem stageWaits_eq (p : Port) (u : Units) : (waitingJob p u).any (fun r => r.role == .stage) = u.stageWaits p := by
  unfold waitingJob Units.stageWaits
  cases u.iu.spaceWait.find? (fun w => w.port == p) <;> rfl

/-- A CHARGE out is a claim that waits (R86). -/
theorem chargeOut_eq (p : Port) (u : Units) : chargeOut p u = u.charging p := by
  unfold chargeOut Units.charging
  congr 1
  funext m
  rcases m with ⟨src, body⟩
  cases src <;> cases body <;> simp [beq_eq_decide]

/-- The space wait list without the stage of an aborted transaction (R53, R84). -/
def listWithout (p : Port) (u : Units) : List Waiting :=
  if u.stageWaits p then u.iu.spaceWait.filter (fun w => w.port != p) else u.iu.spaceWait

/-- All that an abort the holder did not ask for does (R84). -/
theorem abortHolder_eq (r : EndReason) (p : Port) (u : Units) : abortHolder r p u =
    { u.setSlot p (u.abortedSlot p r) with
      iu := { u.iu with spaceWait := listWithout p u },
      ce := if u.stageWaits p then { u.ce with mode := if listWithout p u = [] then .normal else .urgent } else u.ce,
      nu := { u.nu with posts := u.nu.posts ++ [⟨.txn, .one p, { Notice.plain .claimLost with
        part := some (u.slot p).part, txn := some (u.slot p).number, reason := some r.notice }⟩] },
      rw := { u.rw with queue := if chargeOut p u then u.rw.queue else u.rw.queue ++ [.abortClean p] } } := by
  unfold abortHolder sendClean dropWaitingStage
  simp only [stageWaits_eq]
  have hw : ∀ x n, (post .txn (.one p) n (u.setSlot p x)).stageWaits p = u.stageWaits p := fun _ _ => rfl
  rw [hw]
  cases hs : u.stageWaits p
  · have hc : ∀ x n, chargeOut p (post .txn (.one p) n (u.setSlot p x)) = chargeOut p u := fun _ _ => rfl
    simp only [Bool.false_eq_true, if_false, hc, listWithout, hs, Units.abortedSlot]
    cases chargeOut p u <;> rfl
  · have hc : ∀ x n f, chargeOut p ((leaveSpaceList p (post .txn (.one p) n (u.setSlot p x))).modSlot p f) = chargeOut p u := fun _ _ _ => rfl
    simp only [if_true, hc, listWithout, hs, Units.abortedSlot]
    cases chargeOut p u <;> simp [sendJob, leaveSpaceList, followSpaceList, post, Units.setIu, Units.setCe, Units.setRw,
      Units.modSlot, Units.setSlot, Units.slot]

/-! ## The release of a claim (R79, R114) -/

/-- All that the release of a claim does to the engine (R114). -/
theorem wakeSweep_eq (u : Units) : wakeSweep u = u.sweepWoken := by
  simp only [wakeSweep, Units.sweepWoken, Option.isSome_iff_ne_none]

@[simp] theorem sweepWoken_port (u : Units) (p : Port) : u.sweepWoken.port p = u.port p := by
  unfold Units.sweepWoken
  split
  · rfl
  · split <;> rfl

/-- A draining port settles (R179). -/
theorem settle_eq (p : Port) (u : Units) : settle p u = u.drained p := by
  unfold settle Units.drained workEnded
  rw [Units.modPort_eq]
  congr 1
  simp only [Bool.and_eq_true, Option.isNone_iff_eq_none, Bool.not_eq_true', beq_iff_eq, and_assoc]

theorem deliver_eq (p : Port) (o : Posting) (u : Units) : deliver p o u = u.delivers p o := by
  unfold deliver Units.delivers Units.withOutcome
  rw [Units.modPort_eq]
  split <;> rename_i h
  · rw [if_neg (by simp [Option.isSome_iff_ne_none.1 h])]
  · rw [if_pos (by simpa using h), Units.setPort_port]

theorem delivers_none {p : Port} {o : Posting} {u : Units} (h : (u.port p).inHand = none) : u.delivers p o = u := if_pos h

theorem delivers_inHand {p : Port} {o : Posting} {u : Units} (h : (u.port p).inHand ≠ none) :
    u.delivers p o = u.withOutcome p o := if_neg h

/-- How an event that waits for its row ends a wait (R80, log 66). -/
theorem waitDue_eq (part : Nat) (q : Port) (u : Units) : waitDue part q u = u.waitEnds part q := by
  unfold waitDue Units.waitEnds
  simp only [List.any_eq_true, beq_iff_eq, Revocation.hits, Bool.or_eq_true, List.contains_iff_mem]

@[simp] theorem delivers_slot (u : Units) (p q : Port) (o : Posting) : (u.delivers p o).slot q = u.slot q := by
  unfold Units.delivers
  split <;> rfl

/-- A delivery leaves every command in hand. -/
theorem delivers_port_inHand (u : Units) (p q : Port) (o : Posting) :
    ((u.delivers p o).port q).inHand = (u.port q).inHand := by
  unfold Units.delivers
  split
  · rfl
  · by_cases hpq : p = q
    · subst hpq
      rw [Units.withOutcome, Units.port_setPort_self]
    · rw [Units.withOutcome, Units.port_setPort_of_ne _ hpq]

theorem delivers_port_of_ne (u : Units) {p q : Port} (o : Posting) (h : q ≠ p) : (u.delivers q o).port p = u.port p := by
  unfold Units.delivers
  split
  · rfl
  · exact Units.port_setPort_of_ne _ h _

/-- All that a grant does (R77, R79). -/
theorem grantClaim_eq (part : Nat) (q : Port) (rest : List Port) (u : Units) :
    grantClaim part q (setClaimQueue part rest u) = u.passedTo part q rest (newNumber q (setClaimQueue part rest u)) := by
  unfold grantClaim Units.passedTo
  dsimp only
  rw [deliver_eq]
  by_cases h : (u.port q).inHand = none
  · rw [delivers_none (by exact h), delivers_none (by exact h)]; rfl
  · rw [delivers_inHand (by exact h), delivers_inHand (by exact h)]; rfl

@[simp] theorem passedTo_port_of_ne (u : Units) (part n : Nat) (rest : List Port) {p q : Port} (h : q ≠ p) :
    (u.passedTo part q rest n).port p = u.port p := by
  show (Units.delivers _ q _).port p = u.port p
  rw [delivers_port_of_ne _ _ h]
  rfl

/-- An outcome for each of some ports, whose slots end (R80). -/
def Units.endSlots (u : Units) (f : Port → Option ResultCode) : Units :=
  { u with
    ports := u.ports.map fun q x =>
      match f q with
      | some c => if x.inHand = none then x else { x with outcome := some (Posting.code c) }
      | none => x
    tm := { u.tm with slots := u.tm.slots.map fun q sl => if f q = none then sl else Slot.start } }

theorem endSlots_none (u : Units) : u.endSlots (fun _ => none) = u := rfl

theorem Four.ext_get {α : Type} {x y : Four α} (h : ∀ p, x.get p = y.get p) : x = y := by
  rcases x with ⟨a, b, c, d⟩
  rcases y with ⟨a', b', c', d'⟩
  have ha := h .a; have hb := h .b; have hc := h .c; have hd := h .d
  simp only [Four.get] at ha hb hc hd
  subst ha hb hc hd
  rfl

theorem Four.get_map {α β : Type} (f : Port → α → β) (x : Four α) (p : Port) : (x.map f).get p = f p (x.get p) := by
  cases p <;> rfl

/-- Units that agree on every port and every slot, and in the rest. -/
theorem Units.eq_of_slots {u v : Units} (hp : ∀ p, u.port p = v.port p) (hs : ∀ p, u.slot p = v.slot p)
    (h : { u with ports := v.ports, tm := { u.tm with slots := v.tm.slots } } = v) : u = v := by
  have h1 : u.ports = v.ports := Four.ext_get hp
  have h2 : u.tm.slots = v.tm.slots := Four.ext_get hs
  rw [← h, ← h1, ← h2]

@[simp] theorem endSlots_port (u : Units) (f : Port → Option ResultCode) (p : Port) : (u.endSlots f).port p =
    match f p with
    | some c => if (u.port p).inHand = none then u.port p else { u.port p with outcome := some (Posting.code c) }
    | none => u.port p := Four.get_map _ _ _

@[simp] theorem endSlots_slot (u : Units) (f : Port → Option ResultCode) (p : Port) :
    (u.endSlots f).slot p = if f p = none then u.slot p else Slot.start := Four.get_map _ _ _

/-- One waiter more is answered. -/
theorem endSlots_answer (u : Units) (f : Port → Option ResultCode) (q : Port) (c : ResultCode) (hf : f q = none ∨ f q = some c) :
    answer q c ((u.endSlots f).setSlot q Slot.start) = u.endSlots fun g => if g = q then some c else f g := by
  have hi : ((u.endSlots f).port q).inHand = (u.port q).inHand := by
    rw [endSlots_port]
    split
    · split <;> rfl
    · rfl
  unfold answer
  rw [deliver_eq]
  apply Units.eq_of_slots
  · intro g
    rw [endSlots_port]
    by_cases hg : q = g
    · subst hg
      rw [if_pos rfl]
      dsimp only
      by_cases hn : (u.port q).inHand = none
      · rw [delivers_none (by exact hi.trans hn), if_pos hn]
        rw [Units.port_setSlot, endSlots_port]
        rcases hf with h | h <;> simp [h, hn]
      · rw [delivers_inHand (by rw [Units.port_setSlot, hi]; exact hn), if_neg hn]
        unfold Units.withOutcome
        rw [Units.port_setPort_self, Units.port_setSlot, endSlots_port]
        rcases hf with h | h <;> simp [h, hn]
    · rw [delivers_port_of_ne _ _ hg, Units.port_setSlot, endSlots_port, if_neg (Ne.symm hg)]
  · intro g
    have : ∀ w : Units, (w.delivers q (Posting.code c)).slot g = w.slot g := fun w => by
      unfold Units.delivers
      split <;> rfl
    rw [this, endSlots_slot]
    by_cases hg : q = g
    · subst hg
      simp
    · rw [Units.slot_setSlot_of_ne _ hg, endSlots_slot, if_neg (Ne.symm hg)]
  · unfold Units.delivers
    split <;> rfl

/-- The answers to several waiters. -/
theorem answers_eq (f : Port → Option ResultCode) (u : Units) : ∀ (qs : List Port) (done : List Port),
    qs.foldl (fun v q => match f q with | some c => answer q c (v.setSlot q Slot.start) | none => v)
        (u.endSlots fun q => if q ∈ done then f q else none)
      = u.endSlots fun q => if q ∈ done ++ qs then f q else none
  | [], done => by simp
  | q :: qs, done => by
    have hstep : (match f q with
          | some c => answer q c ((u.endSlots fun q => if q ∈ done then f q else none).setSlot q Slot.start)
          | none => u.endSlots fun q => if q ∈ done then f q else none)
        = u.endSlots fun g => if g ∈ done ++ [q] then f g else none := by
      cases hq : f q with
      | none =>
        dsimp only
        congr 1
        funext g
        by_cases hg : g = q
        · subst hg; simp [hq]
        · simp [hg]
      | some c =>
        dsimp only
        rw [endSlots_answer _ _ _ _ (by by_cases hd : q ∈ done <;> simp [hd, hq])]
        congr 1
        funext g
        by_cases hg : g = q
        · subst hg; simp [hq]
        · simp [hg]
    rw [List.foldl_cons, hstep, answers_eq f u qs (done ++ [q])]
    simp

/-- The waiters shut out are answered (R80, log 66). -/
theorem answerDue_eq (part : Nat) (u : Units) : answerDue part u = u.waitersAnswered part := by
  have h := answers_eq (fun q => waitDue part q u)
    (setClaimQueue part ((claimQueue part u).filter fun q => (waitDue part q u).isNone) u) (claimQueue part u) []
  simp only [List.not_mem_nil, if_false, endSlots_none, List.nil_append] at h
  refine h.trans ?_
  have hf : (fun q => (waitDue part q u).isNone) = fun q => decide (u.waitEnds part q = none) := by
    funext q
    rw [waitDue_eq]
    cases u.waitEnds part q <;> rfl
  rw [hf]
  simp only [waitDue_eq]
  rfl

/-- No port holds a partition (R76). -/
theorem holderOf_isNone (part : Nat) (u : Units) :
    (holderOf part u).isNone = true ↔ ∀ g, (u.slot g).holds part = false := by
  simp only [holderOf, Option.isNone_iff_eq_none, List.find?_eq_none, Bool.not_eq_true]
  exact ⟨fun h g => h g (by cases g <;> simp [allPorts]), fun h g _ => h g⟩

/-- The release of a claim (R76, R79, R80, R114, log 66). -/
theorem releaseClaim_released (part : Nat) (u : Units) : u.Released part (releaseClaim part u) := by
  unfold Units.Released releaseClaim
  rw [answerDue_eq, wakeSweep_eq]
  refine ⟨fun h => ?_, fun q rest h hf => ⟨_, newNumber_firstFree (p := q) (u := setClaimQueue part rest
    (u.waitersAnswered part)) rfl rfl rfl fun g m => Iff.rfl, ?_⟩⟩
  · congr 1
    unfold passClaim
    rcases h with h | ⟨g, hg⟩
    · simp [h]
    · split
      · rfl
      · rw [if_neg (by rw [holderOf_isNone]; intro hf; rw [hf g] at hg; cases hg)]
  · simp only [passClaim, h]
    rw [if_pos ((holderOf_isNone _ _).2 hf), grantClaim_eq]

/-- A transaction ends: its slot goes to the state given, and the claim is released (R79). -/
theorem endTransaction_eq (p : Port) (after : Slot) (u : Units) :
    endTransaction p after u = (releaseClaim (u.slot p).part (u.setSlot p after)).drained p := settle_eq _ _

/-- The number the claim passes on with, once the slot of `p` holds none (R81). -/
theorem passing_firstFree {p q : Port} {rest : List Port} {after : Slot} {part : Nat} {u v : Units}
    (ha : after.holding = false) (hc : u.tm.counter = v.tm.counter) (hr : u.tm.retained = v.tm.retained)
    (hm : u.iu.commitSet = v.iu.commitSet) (hs : ∀ g, u.slot g = v.slot g) :
    v.firstFreeNumber (fun g => g ≠ q ∧ g ≠ p) (newNumber q (setClaimQueue part rest (u.setSlot p after))) := by
  refine newNumber_firstFree hc hr hm fun g m => ?_
  by_cases hg : g = p
  · subst hg
    have : (setClaimQueue part rest (u.setSlot g after)).slot g = after := by
      show (Units.setSlot _ g _).slot g = _
      simp
    simp [this, ha]
  · have : (setClaimQueue part rest (u.setSlot p after)).slot g = v.slot g := by
      rw [← hs g]
      show (Units.setSlot _ p _).slot g = _
      simp only [Units.slot, Units.setSlot, Four.get_set_of_ne _ (Ne.symm hg)]
    simp [this, hg]

/-! ## Events (R80, R84, R96, R97) -/

theorem getD_set {α : Type} (l : List α) (i k : Nat) (x d : α) :
    (l.set i x).getD k d = if i = k ∧ k < l.length then x else l.getD k d := by
  simp only [List.getD_eq_getElem?_getD, List.getElem?_set]
  by_cases h1 : i = k
  · by_cases h2 : k < l.length
    · simp [h1, h2]
    · simp [h1, h2]
  · simp [h1]

/-- What an event has done so far: the transactions of the ports `es` aborted in that order, the waiters `ws` answered. -/
structure EventOn (u : Units) (es ws : List Port) (r : EndReason) (c : ResultCode) (v : Units) : Prop where
  slots   : ∀ p, v.slot p = if p ∈ es then u.abortedSlot p r else if p ∈ ws then Slot.start else u.slot p
  ports   : ∀ p, v.port p = if p ∈ ws then (u.delivers p (Posting.code c)).port p else u.port p
  numbers : v.tm.counter = u.tm.counter ∧ v.tm.retained = u.tm.retained
  queues  : ∀ k, claimQueue k v = (claimQueue k u).filter (fun q => decide (q ∉ ws))
  index   : v.iu = { u.iu with spaceWait := u.iu.spaceWait.filter fun w => !(decide (w.port ∈ es) && u.stageWaits w.port) }
  engine  : v.ce = if es.any u.stageWaits then { u.ce with mode := if v.iu.spaceWait = [] then .normal else .urgent } else u.ce
  notices : v.nu = { u.nu with posts := u.nu.posts ++ es.map fun p => ⟨.txn, .one p, { Notice.plain .claimLost with
    part := some (u.slot p).part, txn := some (u.slot p).number, reason := some r.notice }⟩ }
  writer  : v.rw = { u.rw with queue := u.rw.queue ++ (es.filter fun p => !u.charging p).map fun p => .abortClean p }
  others  : v.pu = u.pu ∧ v.me = u.me ∧ v.clock = u.clock ∧ v.media = u.media
  events  : v.tm.lockEvents = u.tm.lockEvents ∧ v.tm.revocations = u.tm.revocations

theorem eventOn_start (u : Units) (r : EndReason) (c : ResultCode) : EventOn u [] [] r c u where
  slots _ := rfl
  ports _ := rfl
  numbers := ⟨rfl, rfl⟩
  queues _ := by simp
  index := by simp
  engine := rfl
  notices := by simp
  writer := by simp
  others := ⟨rfl, rfl, rfl, rfl⟩
  events := ⟨rfl, rfl⟩

/-- One transaction more is aborted. -/
theorem EventOn.abort {u v : Units} {es ws : List Port} {r : EndReason} {c : ResultCode} (h : EventOn u es ws r c v)
    {p : Port} (he : p ∉ es) (hw : p ∉ ws) : EventOn u (es ++ [p]) ws r c (abortHolder r p v) := by
  have hslot : v.slot p = u.slot p := by rw [h.slots, if_neg he, if_neg hw]
  have hstage : v.stageWaits p = u.stageWaits p := by
    have : v.iu.spaceWait.find? (fun w => w.port == p) = u.iu.spaceWait.find? (fun w => w.port == p) := by
      rw [h.index]
      dsimp only
      rw [List.find?_filter]
      congr 1
      funext w
      by_cases hp : w.port = p
      · simp [hp, he]
      · simp [hp]
    unfold Units.stageWaits
    rw [this]
  have hcharge : chargeOut p v = u.charging p := by
    rw [chargeOut_eq]
    unfold Units.charging
    rw [h.index]
  have hlist : listWithout p v
      = u.iu.spaceWait.filter fun w => !(decide (w.port ∈ es ++ [p]) && u.stageWaits w.port) := by
    unfold listWithout
    rw [hstage, h.index]
    split <;> rename_i hs
    · rw [List.filter_filter]
      refine List.filter_congr fun w _ => ?_
      by_cases hp : w.port = p
      · simp [hp, hs]
      · simp [hp]
    · refine List.filter_congr fun w _ => ?_
      by_cases hp : w.port = p
      · simp [hp, hs]
      · simp [hp]
  have habort : v.abortedSlot p r = u.abortedSlot p r := by simp only [Units.abortedSlot, hslot, hstage]
  rw [abortHolder_eq]
  refine ⟨fun q => ?_, h.ports, h.numbers, h.queues, ?_, ?_, ?_, ?_, h.others, h.events⟩
  · show (v.setSlot p (v.abortedSlot p r)).slot q = _
    by_cases hq : p = q
    · subst hq; simp [habort]
    · rw [Units.slot_setSlot_of_ne _ hq, h.slots]
      simp [Ne.symm hq]
  · dsimp only
    rw [hlist, h.index]
  · dsimp only
    rw [hstage, List.any_append, hlist]
    cases hs : u.stageWaits p
    · have : v.iu.spaceWait = u.iu.spaceWait.filter fun w => !(decide (w.port ∈ es ++ [p]) && u.stageWaits w.port) := by
        rw [← hlist, listWithout, hstage, hs]; rfl
      simp only [h.engine, List.any_cons, List.any_nil, hs, Bool.or_false, Bool.false_eq_true, if_false, this]
    · simp only [List.any_cons, hs, Bool.true_or, Bool.or_true, if_true, h.engine]
      split <;> rfl
  · dsimp only
    rw [h.notices, hslot]
    simp
  · dsimp only
    rw [h.writer, hcharge]
    cases hc : u.charging p <;> simp [hc]

/-- One waiter more is answered. -/
theorem EventOn.wait {u v : Units} {es ws : List Port} {r : EndReason} {c : ResultCode} (h : EventOn u es ws r c v)
    {p : Port} (he : p ∉ es) (hq : ∀ k, p ∈ claimQueue k u → (u.slot p).part = k) :
    EventOn u es (ws ++ [p]) r c (endWait p c v) := by
  have hi : (v.port p).inHand = (u.port p).inHand := by
    rw [h.ports]
    split
    · exact delivers_port_inHand _ _ _ _
    · rfl
  unfold endWait answer
  rw [deliver_eq]
  have hrest : ∀ w : Units, (w.delivers p (Posting.code c)).tm = w.tm ∧ (w.delivers p (Posting.code c)).iu = w.iu
      ∧ (w.delivers p (Posting.code c)).ce = w.ce ∧ (w.delivers p (Posting.code c)).nu = w.nu
      ∧ (w.delivers p (Posting.code c)).rw = w.rw ∧ (w.delivers p (Posting.code c)).pu = w.pu
      ∧ (w.delivers p (Posting.code c)).me = w.me ∧ (w.delivers p (Posting.code c)).clock = w.clock
      ∧ (w.delivers p (Posting.code c)).media = w.media := fun w => by
    unfold Units.delivers
    split <;> exact ⟨rfl, rfl, rfl, rfl, rfl, rfl, rfl, rfl, rfl⟩
  obtain ⟨htm, hiu, hce, hnu, hrw, hpu, hme, hck, hmd⟩ := hrest ((leaveQueue (v.slot p).part p v).setSlot p Slot.start)
  refine ⟨fun q => ?_, fun q => ?_, ?_, fun k => ?_, ?_, ?_, ?_, ?_, ?_, ?_⟩
  · rw [delivers_slot]
    by_cases hpq : p = q
    · subst hpq
      simp [he]
    · rw [Units.slot_setSlot_of_ne _ hpq]
      show v.slot q = _
      rw [h.slots]
      simp [Ne.symm hpq]
  · by_cases hpq : p = q
    · subst hpq
      rw [if_pos (by simp)]
      by_cases hn : (u.port p).inHand = none
      · rw [delivers_none hn, delivers_none (by exact hi.trans hn)]
        show v.port p = _
        rw [h.ports, delivers_none hn]
        simp
      · rw [delivers_inHand hn, delivers_inHand (by exact fun hh => hn (hi ▸ hh))]
        unfold Units.withOutcome
        rw [Units.port_setPort_self, Units.port_setPort_self]
        have hp : ((leaveQueue (v.slot p).part p v).setSlot p Slot.start).port p = v.port p := rfl
        rw [hp, h.ports]
        split
        · rw [delivers_inHand hn, Units.withOutcome, Units.port_setPort_self]
        · rfl
    · rw [delivers_port_of_ne _ _ hpq]
      show v.port q = _
      rw [h.ports]
      simp [Ne.symm hpq]
  · rw [htm]; exact h.numbers
  · have hk : claimQueue k ((leaveQueue (v.slot p).part p v).setSlot p Slot.start) = (claimQueue k v).filter (· != p) := by
      show (v.tm.queues.set (v.slot p).part ((claimQueue (v.slot p).part v).filter (· != p))).getD k [] = _
      rw [getD_set]
      split <;> rename_i hp
      · rw [hp.1]
      · by_cases hin : p ∈ claimQueue k v
        · exfalso
          have hlen : k < v.tm.queues.length := by
            by_contra hge
            rw [claimQueue, List.getD_eq_default _ _ (by omega)] at hin
            cases hin
          rw [h.queues, List.mem_filter, decide_eq_true_eq] at hin
          have hs : v.slot p = u.slot p := by rw [h.slots, if_neg he, if_neg hin.2]
          exact hp ⟨by rw [hs]; exact hq k hin.1, hlen⟩
        · exact (List.filter_eq_self.2 fun q hq => by
            simp only [bne_iff_ne, ne_eq]
            exact fun e => hin (e ▸ hq)).symm
    have hd : claimQueue k (((leaveQueue (v.slot p).part p v).setSlot p Slot.start).delivers p (Posting.code c))
        = claimQueue k ((leaveQueue (v.slot p).part p v).setSlot p Slot.start) := by
      unfold claimQueue
      rw [htm]
    rw [hd, hk, h.queues, List.filter_filter]
    refine List.filter_congr fun q _ => ?_
    by_cases hpq : q = p <;> simp [hpq]
  · rw [hiu]; exact h.index
  · rw [hce, hiu]; exact h.engine
  · rw [hnu]; exact h.notices
  · rw [hrw]; exact h.writer
  · rw [hpu, hme, hck, hmd]; exact h.others
  · rw [htm]; exact h.events

/-- Several waiters are answered. -/
theorem EventOn.waits {u : Units} {es : List Port} {r : EndReason} {c : ResultCode} : ∀ {v : Units} {ws : List Port} (qs : List Port),
    EventOn u es ws r c v → (∀ q ∈ qs, q ∉ es) → (∀ q ∈ qs, ∀ k, q ∈ claimQueue k u → (u.slot q).part = k) →
    EventOn u es (ws ++ qs) r c (qs.foldl (fun v q => endWait q c v) v)
  | v, ws, [], h, _, _ => by simpa using h
  | v, ws, q :: qs, h, he, hq => by
    rw [List.foldl_cons, show ws ++ q :: qs = (ws ++ [q]) ++ qs by simp]
    exact (h.wait (he q (by simp)) (hq q (by simp))).waits qs (fun g hg => he g (by simp [hg]))
      fun g hg => hq g (by simp [hg])

theorem EventOn.taken {u v : Units} {es ws : List Port} {r : EndReason} {c : ResultCode} (h : EventOn u es ws r c v)
    {ends waits : Port → Bool} (he : [Port.a, .b, .c, .d].filter ends = es) (hw : ∀ p, waits p = true ↔ p ∈ ws) :
    u.EventTaken ends waits r c v := by
  have hm : ∀ p, p ∈ es ↔ ends p = true := fun p => by
    rw [← he, List.mem_filter]
    exact and_iff_right (by cases p <;> simp)
  have hany : es.any u.stageWaits = [Port.a, .b, .c, .d].any fun p => ends p && u.stageWaits p := by
    rw [← he, List.any_filter]
  constructor
  · exact fun p => by rw [h.slots]; simp only [hm, hw]
  · intro p
    rw [h.ports]
    by_cases hp : p ∈ ws
    · rw [if_pos hp, (hw p).2 hp]
      by_cases hn : (u.port p).inHand = none
      · rw [delivers_none hn]
        simp [hn]
      · rw [delivers_inHand hn, Units.withOutcome, Units.port_setPort_self]
        simp [hn]
    · rw [if_neg hp, Bool.eq_false_iff.2 fun e => hp ((hw p).1 e)]
      rfl
  · exact h.numbers
  · exact fun k => by
      rw [h.queues]
      refine List.filter_congr fun q _ => ?_
      by_cases hq : q ∈ ws <;> simp [hq, hw, Bool.eq_false_iff]
  · have : (fun w : Waiting => !(decide (w.port ∈ es) && u.stageWaits w.port))
        = fun w => !(ends w.port && u.stageWaits w.port) := by
      funext w
      simp only [hm, Bool.decide_eq_true]
    rw [h.index, this]
  · rw [h.engine, hany]
  · rw [h.notices, he]
  · have : (fun p => !u.charging p && ends p) = fun p => ends p && !u.charging p := by
      funext p
      exact Bool.and_comm _ _
    rw [h.writer, ← he, List.filter_filter, this]
  · exact h.others

/-- A lock event is taken (R80, R96). -/
theorem actLock_taken (part : Nat) (u : Units) (hq : u.queued)
    (hs : ∀ g h, (u.slot g).holds part = true → (u.slot h).holds part = true → g = h) :
    u.LockTaken part (actLock part u)
      ∧ (actLock part u).tm.lockEvents = u.tm.lockEvents ∧ (actLock part u).tm.revocations = u.tm.revocations := by
  -- the ports whose transactions are aborted, and those answered
  have key : ∀ es : List Port, EventOn u es [] .locked .locked
        (match holderOf part u with
          | some p => if (u.slot p).state = .opened then abortHolder .locked p u else u
          | none => u) →
      [Port.a, .b, .c, .d].filter (fun p => decide ((u.slot p).state = .opened ∧ (u.slot p).part = part)) = es →
      u.LockTaken part (actLock part u)
        ∧ (actLock part u).tm.lockEvents = u.tm.lockEvents ∧ (actLock part u).tm.revocations = u.tm.revocations := by
    intro es h he
    have hqueue : claimQueue part (match holderOf part u with
        | some p => if (u.slot p).state = .opened then abortHolder .locked p u else u
        | none => u) = claimQueue part u := by
      rw [h.queues]
      simp
    have hall := h.waits (claimQueue part u)
      (fun q hin => by
        rw [← he]
        simp [(hq part q hin).1])
      (fun q _ k hk => (hq k q hk).2)
    have hdef : actLock part u = (claimQueue part u).foldl (fun v q => endWait q .locked v)
        (match holderOf part u with
        | some p => if (u.slot p).state = .opened then abortHolder .locked p u else u
        | none => u) := by
      rw [← hqueue]
      rfl
    rw [hdef]
    exact ⟨hall.taken he fun p => by simp, hall.events.1, hall.events.2⟩
  have hports : ∀ f : Port → Bool, ∀ p, (∀ g, f g = true ↔ g = p) → [Port.a, .b, .c, .d].filter f = [p] := fun f p hf => by
    have : f = fun g => decide (g = p) := by
      funext g
      rw [Bool.eq_iff_iff, hf, decide_eq_true_eq]
    rw [this]
    cases p <;> rfl
  have hnone : ∀ f : Port → Bool, (∀ g, f g = false) → [Port.a, .b, .c, .d].filter f = [] := fun f hf => by
    simp [hf]
  have hholds : ∀ g, (u.slot g).state = .opened → (u.slot g).part = part → (u.slot g).holds part = true := fun g h1 h2 => by
    simp [Slot.holds, h1, h2]
  cases hp : holderOf part u with
  | none =>
    have hn : ∀ g, (u.slot g).holds part = false := fun g => by
      have := List.find?_eq_none.1 hp g (by cases g <;> simp [allPorts])
      simpa using this
    refine key [] (by simpa only [hp] using eventOn_start u _ _) (hnone _ fun g => ?_)
    rw [decide_eq_false_iff_not]
    rintro ⟨h1, h2⟩
    have := hholds g h1 h2
    rw [hn] at this
    cases this
  | some p =>
    have hh : (u.slot p).holds part = true :=
      List.find?_some (p := fun q => (u.slot q).holds part) hp
    by_cases ho : (u.slot p).state = .opened
    · refine key [p] (by simpa only [hp, ho, if_true, List.nil_append] using (eventOn_start u _ _).abort (p := p) (by simp) (by simp))
        (hports _ p fun g => ?_)
      rw [decide_eq_true_eq]
      constructor
      · rintro ⟨h1, h2⟩
        exact hs g p (hholds g h1 h2) hh
      · rintro rfl
        refine ⟨ho, ?_⟩
        simp only [Slot.holds, Bool.and_eq_true, beq_iff_eq] at hh
        exact hh.1
    · refine key [] (by simpa only [hp, ho, if_false] using eventOn_start u _ _) (hnone _ fun g => ?_)
      rw [decide_eq_false_iff_not]
      rintro ⟨h1, h2⟩
      exact ho (hs g p (hholds g h1 h2) hh ▸ h1)

/-- A revocation event is taken (R80, R97). -/
theorem actRevocation_taken (r : Revocation) (u : Units) (hq : u.queued) :
    u.RevocationTaken r (actRevocation r u)
      ∧ (actRevocation r u).tm.lockEvents = u.tm.lockEvents ∧ (actRevocation r u).tm.revocations = u.tm.revocations := by
  have hhit : ∀ p, r.hits p (u.slot p).part = u.hitBy p r := fun p => by
    unfold Revocation.hits Units.hitBy
    rw [Bool.eq_iff_iff]
    simp
  let ends (p : Port) : Bool := u.hitBy p r && decide ((u.slot p).state = .opened)
  let waits (p : Port) : Bool := u.hitBy p r && decide ((u.slot p).state = .waiting)
  have hstep : ∀ (done : List Port) (p : Port) (v : Units), p ∉ done →
      EventOn u (done.filter ends) (done.filter waits) .revoked .denied v →
      EventOn u ((done ++ [p]).filter ends) ((done ++ [p]).filter waits) .revoked .denied
        (if !r.hits p (v.slot p).part then v
          else if (v.slot p).state = .opened then abortHolder .revoked p v
          else if (v.slot p).state = .waiting then endWait p .denied v
          else v) := by
    intro done p v hd h
    have he : p ∉ done.filter ends := fun hm => hd (List.mem_filter.1 hm).1
    have hw' : p ∉ done.filter waits := fun hm => hd (List.mem_filter.1 hm).1
    have hslot : v.slot p = u.slot p := by rw [h.slots, if_neg he, if_neg hw']
    rw [hslot, hhit, List.filter_append, List.filter_append]
    cases hb : u.hitBy p r
    · simpa [ends, waits, hb] using h
    · by_cases h1 : (u.slot p).state = .opened
      · simpa [ends, waits, hb, h1] using h.abort he hw'
      · by_cases h2 : (u.slot p).state = .waiting
        · simpa [ends, waits, hb, h2] using h.wait (p := p) he fun k hk => (hq k p hk).2
        · simpa [ends, waits, hb, h1, h2] using h
  have h0 : EventOn u (([] : List Port).filter ends) (([] : List Port).filter waits) .revoked .denied u := eventOn_start u _ _
  have h1 := hstep [] .a _ (by simp) h0
  have h2 := hstep [.a] .b _ (by simp) h1
  have h3 := hstep [.a, .b] .c _ (by simp) h2
  have h4 := hstep [.a, .b, .c] .d _ (by simp) h3
  refine ⟨h4.taken rfl fun p => ?_, h4.events.1, h4.events.2⟩
  rw [List.mem_filter]
  exact (and_iff_right (by cases p <;> simp)).symm

/-- Nothing is due to a slot that is not OPEN. -/
theorem actDue_not_opened {p : Port} {u : Units} (h : (u.slot p).state ≠ .opened) : actDue p u = u := if_pos h

/-- With no event due the command finds the slot as it stands. -/
theorem actDue_undue {p : Port} {u : Units} (h1 : ¬ u.frozenByOwn p) (h2 : ¬ u.revoked p) : actDue p u = u := by
  have hf : u.tm.revocations.find? (·.hits p (u.slot p).part) = none := by
    rw [List.find?_eq_none]
    intro r hr hh
    refine h2 ⟨r, hr, ?_⟩
    simpa [Units.hitBy, Revocation.hits] using hh
  have hl : u.tm.lockEvents.contains (ownFreeze p (u.slot p).part) = false := by
    rw [Bool.eq_false_iff, ne_eq, List.contains_iff_mem]
    exact h1
  unfold actDue
  simp only [hl, hf, Bool.false_eq_true, if_false]
  exact ite_self _

/-- The lock event of the own FREEZE is taken first (R147). -/
theorem actDue_own {p : Port} {u : Units} (ho : (u.slot p).state = .opened) (h : u.frozenByOwn p) :
    actDue p u = actLock (u.slot p).part (setLockEvents (u.tm.lockEvents.erase ⟨(u.slot p).part, some p⟩) u) := by
  have hl : u.tm.lockEvents.contains (ownFreeze p (u.slot p).part) = true := List.contains_iff_mem.2 h
  unfold actDue
  simp only [ho, ne_eq, not_true_eq_false, if_false, hl, if_true]
  rfl

/-- Else the oldest revocation that concerns the port (R97). -/
theorem actDue_revoked {p : Port} {u : Units} (ho : (u.slot p).state = .opened) (h : ¬ u.frozenByOwn p)
    {before after : List Revocation} {r : Revocation} (hr : u.tm.revocations = before ++ r :: after)
    (hb : ∀ x ∈ before, u.hitBy p x = false) (hh : u.hitBy p r = true) :
    actDue p u = actRevocation r (setRevocations (before ++ after) u) := by
  have hits : ∀ x : Revocation, x.hits p (u.slot p).part = u.hitBy p x := fun x => by
    unfold Revocation.hits Units.hitBy
    rw [Bool.eq_iff_iff]
    simp
  have hl : u.tm.lockEvents.contains (ownFreeze p (u.slot p).part) = false := by
    rw [Bool.eq_false_iff, ne_eq, List.contains_iff_mem]
    exact h
  have hf : u.tm.revocations.find? (·.hits p (u.slot p).part) = some r := by
    simp only [hits, hr, List.find?_append, List.find?_cons, hh]
    rw [List.find?_eq_none.2 fun x hx => by simp [hb x hx]]
    rfl
  have hn : r ∉ before := fun hm => by rw [hb r hm] at hh; cases hh
  unfold actDue
  simp only [ho, ne_eq, not_true_eq_false, if_false, hl, hf, Bool.false_eq_true]
  rw [hr, List.erase_append_right _ hn, List.erase_cons_head]

end Sys2Proof.Machine
end

