-- ==== Sys2Proof/Laws/Engine.lean ====
section
/-! SUPPORT. What the engine does with a record that is not to be copied, and with one that is not sound (R108, R113, R114), and
the end of a pass: the RECLAIMs owed answered, the engine at rest (R101, R102, R118). -/

namespace Sys2Proof.Machine

/-- One notice for a record that a member list or the commit set names (R114). -/
theorem noteUnread_eq (part key : Option Nat) (l : Location) (u : Units) : noteUnread part key l u = u.unreadNoted part key l := by
  unfold noteUnread Units.unreadNoted
  by_cases h : l ∈ u.ce.noted
  · rw [if_pos h, if_pos (List.contains_iff_mem.2 h)]
  · rw [if_neg h, if_neg (fun hc => h (List.contains_iff_mem.1 hc))]
    rfl

/-- A named record that is not sound, in the sweep (R114). -/
theorem sweepLost_eq (n : Named) (u : Units) : sweepLost n u = u.lostInSweep n := by
  cases n with
  | entry part key l => rfl
  | commitMember txn part l => exact congrArg (recordDone 0) (noteUnread_eq _ _ _ _)
  | member txn part key l => exact congrArg (recordDone 0) (noteUnread_eq _ _ _ _)

/-- A record that is not copied, in the scan (R107). -/
theorem recordSkipped_scan {h : Header} {u : Units} (ht : u.ce.todo = none) : recordSkipped h u = recordDone h.cells u := by
  simp [recordSkipped, passOver, ht]

/-- A record with payload that the sweep names and that is not copied is read whole (R114). -/
theorem recordSkipped_read {h : Header} {u : Units} {ns : List Named} (ht : u.ce.todo = some ns) (hc : 1 < h.cells) :
    recordSkipped h u = u.setCe { u.ce with
      step := .sweepCheck, io := ⟨some ⟨.engine, u.ce.reading.seg, .read u.ce.reading.cell h.cells⟩, false⟩ } := by
  rw [recordSkipped, if_pos ⟨by rw [ht]; rfl, hc⟩]
  rfl

/-- A named record that is not copied, its bytes at hand: done, or lost (R114). -/
theorem passOver_sweep {h : Header} {bytes : List Byte} {u : Units} {n : Named} {ns : List Named} (ht : u.ce.todo = some (n :: ns)) :
    passOver h bytes u = if crc (slice bytes 16 h.length) = h.payCheck then recordDone h.cells u else u.lostInSweep n := by
  simp only [passOver, ht, payloadSound, beq_iff_eq, sweepLost_eq]

/-- A record of one cell has no payload. -/
theorem length_of_cells {h : Header} (hc : h.cells ≤ 1) : h.length = 0 := by
  unfold Header.cells recordCells at hc
  omega

/-- A named record without payload cells that is not copied (R114). -/
theorem recordSkipped_bare {h : Header} {u : Units} {n : Named} {ns : List Named} (ht : u.ce.todo = some (n :: ns))
    (hc : h.cells ≤ 1) : recordSkipped h u = if crc [] = h.payCheck then recordDone h.cells u else u.lostInSweep n := by
  rw [recordSkipped, if_neg (by omega), passOver_sweep ht, length_of_cells hc]
  rfl

/-- What names a location, split by kind. -/
theorem named_at (l : Location) (u : Units) : (namedIn l.seg u).filter (fun n => n.loc == l)
    = (u.iu.entries.filter (fun e => e.loc == l)).map (fun e => Named.entry e.part e.key e.loc)
      ++ ((u.iu.commitSet.filter (fun x => x.loc == l)).map (fun x => Named.commitMember x.txn x.part x.loc)
        ++ allPorts.flatMap fun p => ((u.slot p).members.filter (fun m => m.loc == l)).map fun m =>
          Named.member (u.slot p).number (u.slot p).part m.key m.loc) := by
  have hloc : ∀ x : Location, ((x == l) && (x.seg == l.seg)) = (x == l) := fun x => by
    by_cases h : x = l
    · simp [h]
    · simp [h]
  simp only [namedIn, IndexUnit.named, membersIn, List.filter_append, List.filter_map, List.filter_filter, List.append_assoc,
    List.filter_flatMap, Function.comp_def, Named.loc, hloc]

/-- None of what holds it besides the index is an entry. -/
theorem held_not_entry (l : Location) (u : Units) : ∀ n ∈ (u.iu.commitSet.filter (fun x => x.loc == l)).map
        (fun x => Named.commitMember x.txn x.part x.loc)
      ++ allPorts.flatMap fun p => ((u.slot p).members.filter (fun m => m.loc == l)).map fun m =>
        Named.member (u.slot p).number (u.slot p).part m.key m.loc, n.isEntry = false := fun n hn => by
  rw [List.mem_append, List.mem_map, List.mem_flatMap] at hn
  rcases hn with ⟨x, _, rfl⟩ | ⟨p, _, hm⟩
  · rfl
  · obtain ⟨m, _, rfl⟩ := List.mem_map.1 hm
    rfl

/-- The notice of a record that a member list or the commit set names (R113). -/
theorem noteHeld_eq (l : Location) (u : Units) :
    noteHeld ((namedIn l.seg u).filter (fun n => n.loc == l)) l u = u.heldNoted l := by
  have hentries : ∀ es : List Entry, (es.map (fun e => Named.entry e.part e.key e.loc)).find? (fun n => !n.isEntry) = none :=
    fun es => List.find?_eq_none.2 fun n hn => by
      obtain ⟨e, _, rfl⟩ := List.mem_map.1 hn
      simp [Named.isEntry]
  have hfirst : ∀ ns : List Named, (∀ n ∈ ns, n.isEntry = false) → ns.find? (fun n => !n.isEntry) = ns.head? := fun ns hn => by
    cases ns with
    | nil => rfl
    | cons n ns => simp [hn n (by simp)]
  have hnames : u.heldAt l = ((u.iu.commitSet.filter (fun x => x.loc == l)).map (fun x => Named.commitMember x.txn x.part x.loc)
      ++ allPorts.flatMap fun p => ((u.slot p).members.filter (fun m => m.loc == l)).map fun m =>
        Named.member (u.slot p).number (u.slot p).part m.key m.loc).map Named.names := by
    unfold Units.heldAt
    simp only [List.map_append, List.map_map, List.map_flatMap, Function.comp_def, Named.names, beq_eq_decide]
    rfl
  unfold noteHeld Units.heldNoted
  rw [named_at, List.find?_append, hentries, Option.none_or, hfirst _ (held_not_entry _ _), hnames]
  cases ((u.iu.commitSet.filter (fun x => x.loc == l)).map (fun x => Named.commitMember x.txn x.part x.loc)
      ++ allPorts.flatMap fun p => ((u.slot p).members.filter (fun m => m.loc == l)).map fun m =>
        Named.member (u.slot p).number (u.slot p).part m.key m.loc) with
  | nil => rfl
  | cons n ns => exact noteUnread_eq _ _ _ _

/-- The payload of a record that the scan would copy is not sound (R113, log 65). -/
theorem scanLost_eq (h : Header) (u : Units) : scanLost h u =
    match u.iu.entries.find? (fun e => e.loc == u.ce.reading) with
    | some e => present .engine (.loss e.part e.key u.ce.reading)
        ((u.heldNoted u.ce.reading).setCe { (u.heldNoted u.ce.reading).ce with
          scan := (u.heldNoted u.ce.reading).ce.scan + h.cells, step := .lossClaim })
    | none => recordDone h.cells (u.heldNoted u.ce.reading) := by
  have hheld : noteHeld ((namedIn u.ce.reading.seg u).filter (fun n => n.loc == u.ce.reading)) u.ce.reading u
      = u.heldNoted u.ce.reading := noteHeld_eq _ _
  have hentry : ((namedIn u.ce.reading.seg u).filter (fun n => n.loc == u.ce.reading)).find? Named.isEntry
      = (u.iu.entries.find? (fun e => e.loc == u.ce.reading)).map (fun e => Named.entry e.part e.key e.loc) := by
    rw [named_at, List.find?_append]
    have h1 : ∀ es : List Entry, ((es.filter (fun e => e.loc == u.ce.reading)).map
        (fun e => Named.entry e.part e.key e.loc)).find? Named.isEntry
        = (es.find? (fun e => e.loc == u.ce.reading)).map (fun e => Named.entry e.part e.key e.loc) := fun es => by
      rw [List.find?_map]
      simp [Function.comp_def, Named.isEntry, List.find?_filter, beq_eq_decide]
    have h2 : ∀ ns : List Named, (∀ n ∈ ns, n.isEntry = false) → ns.find? Named.isEntry = none := fun ns hn =>
      List.find?_eq_none.2 fun n hm => by simp [hn n hm]
    rw [h1, h2 _ (held_not_entry _ _), Option.or_none]
  unfold scanLost
  dsimp only
  rw [hheld, hentry]
  cases u.iu.entries.find? (fun e => e.loc == u.ce.reading) <;> rfl

/-! ## The end of a pass (R101, R102) -/

/-- A command in hand at each of the ports given is answered; a port without one is left (R102, R175). -/
def Units.answerAll (u : Units) (c : ResultCode) (ps : List Port) : Units :=
  { u with ports := u.ports.map fun p x =>
      if p ∈ ps ∧ x.inHand ≠ none then { x with outcome := some (Posting.code c) } else x }

theorem answerAll_port (u : Units) (c : ResultCode) (ps : List Port) (p : Port) : (u.answerAll c ps).port p =
    if p ∈ ps ∧ (u.port p).inHand ≠ none then { u.port p with outcome := some (Posting.code c) } else u.port p :=
  Four.get_map _ _ p

theorem foldl_answer (c : ResultCode) (ps : List Port) : ∀ u : Units, ps.foldl (fun u p => answer p c u) u = u.answerAll c ps := by
  induction ps with
  | nil => intro u; simp [Units.answerAll, Four.map]
  | cons q ps ih =>
    intro u
    rw [List.foldl_cons, ih]
    have h : ∀ p, (answer q c u).port p =
        if p = q ∧ (u.port p).inHand ≠ none then { u.port p with outcome := some (Posting.code c) } else u.port p := by
      intro p
      unfold answer deliver Units.modPort
      by_cases hp : q = p
      · subst hp; by_cases hi : (u.port q).inHand = none <;> simp [hi, Option.isSome_iff_ne_none]
      · rw [Units.port_setPort_of_ne _ hp]; simp [Ne.symm hp]
    refine Units.eq_of_slots ?_ (fun _ => rfl) rfl
    intro p
    rw [answerAll_port, answerAll_port, h]
    by_cases hp : p = q
    · subst hp
      by_cases hi : (u.port p).inHand = none <;> simp [hi]
    · by_cases hi : (u.port p).inHand = none <;> simp [hp, hi]

theorem answerOwed_eq (c : ResultCode) (u : Units) :
    answerOwed c u = (u.answerAll c u.ce.owed).setCe { u.ce with owed := [] } := by
  unfold answerOwed; rw [foldl_answer]; rfl

/-- The engine without a pass: a victim held before an ERASE_ONLY pass is held again, with what is held with it (R114, R115). -/
def CompactionEngine.atRest (e : CompactionEngine) : CompactionEngine :=
  { e with
    state := .idle, kind := none, victim := e.kept, kept := none,
    source := if e.kept = none then .selected else .held, copy := none, attempts := 0, owed := [], cleared := false,
    step := .idle, todo := if e.kept = none then none else e.todo, unread := false, again := false,
    noted := if e.kept = none then [] else e.noted, io := ⟨none, false⟩ }

theorem toIdle_owed (c : ResultCode) (u : Units) : toIdle (answerOwed c u) = (u.answerAll c u.ce.owed).setCe u.ce.atRest := by
  rw [answerOwed_eq]
  by_cases h : u.ce.kept = none <;>
    simp [toIdle, modCe, CompactionEngine.atRest, h, Option.isSome_iff_ne_none, Io.none]

theorem passEnded_eq (u : Units) : passEnded u = (u.answerAll .ok u.ce.owed).setCe { u.ce.atRest with
    lowRun := u.ce.lowRun && decide (u.iu.erasedCount < u.pu.shadow.lowWater + 2) } := by
  unfold passEnded endRun
  have e1 : (answerOwed .ok u).pu = u.pu := by rw [answerOwed_eq]; rfl
  have e2 : (answerOwed .ok u).iu = u.iu := by rw [answerOwed_eq]; rfl
  rw [e1, e2]
  by_cases h : u.pu.shadow.lowWater + 2 ≤ u.iu.erasedCount
  · have h' : ¬ u.iu.erasedCount < u.pu.shadow.lowWater + 2 := by omega
    rw [if_pos h, answerOwed_eq]
    by_cases hk : u.ce.kept = none <;>
      simp [toIdle, modCe, CompactionEngine.atRest, hk, h', Option.isSome_iff_ne_none, Io.none]
  · have h' : u.iu.erasedCount < u.pu.shadow.lowWater + 2 := by omega
    rw [if_neg h, toIdle_owed]
    simp [CompactionEngine.atRest, h']

end Sys2Proof.Machine
end

