-- ==== Sys2Proof/Laws/Index.lean ====
section
/-! SUPPORT. The index table under the changes of the claims: which keys are found after an insertion, a removal, a move or a
switch (R37, R43, R44, R46), the segment table under cells killed and pins, and the staged changes that a charge counts (R41). -/

namespace Sys2Proof.Machine

open IndexUnit

/-- The entry found for a key among entries. -/
theorem IndexUnit.find_eq (iu : IndexUnit) (part key : Nat) :
    iu.find part key = iu.entries.find? (fun e => e.part == part && e.key == key) := rfl

/-- After an insertion the entry is found at its key, and every other key as before (R43). -/
theorem find_insertEntry (e : Entry) (part key : Nat) (es : List Entry) :
    (insertEntry e es).find? (fun x => x.part == part && x.key == key)
      = if part = e.part ∧ key = e.key then some e else es.find? (fun x => x.part == part && x.key == key) := by
  induction es with
  | nil => simp only [insertEntry, List.find?_cons, List.find?_nil]; grind
  | cons x xs ih =>
    simp only [insertEntry]
    split
    · simp only [List.find?_cons]; grind
    · split
      · simp only [List.find?_cons]; grind
      · simp only [List.find?_cons, ih]; grind

/-- After a removal its key is not found, and every other key as before (R43). -/
theorem find_removeEntry (p k part key : Nat) (es : List Entry) :
    (removeEntry p k es).find? (fun x => x.part == part && x.key == key)
      = if part = p ∧ key = k then none else es.find? (fun x => x.part == part && x.key == key) := by
  unfold removeEntry
  induction es with
  | nil => simp
  | cons x xs ih =>
    simp only [List.filter_cons]
    split
    · simp only [List.find?_cons, ih]; grind
    · simp only [List.find?_cons, ih]; grind

/-- After a move the key's entry is at the copy, and every other key as before (R46). -/
theorem find_moveEntry (p k : Nat) (copy : Location) (part key : Nat) (es : List Entry) :
    (moveEntry p k copy es).find? (fun x => x.part == part && x.key == key)
      = if part = p ∧ key = k then (es.find? (fun x => x.part == part && x.key == key)).map (fun e => { e with loc := copy })
        else es.find? (fun x => x.part == part && x.key == key) := by
  unfold moveEntry
  induction es with
  | nil => simp
  | cons x xs ih =>
    simp only [List.map_cons, List.find?_cons, ih]
    grind

/-- Displacing a record changes no entry. -/
theorem displace_entries (iu : IndexUnit) (old : Option Entry) : (iu.displace old).1.entries = iu.entries := by
  cases old <;> rfl

theorem displace_charges (iu : IndexUnit) (old : Option Entry) : (iu.displace old).1.charges = iu.charges := by
  cases old <;> rfl

theorem displace_commitSet (iu : IndexUnit) (old : Option Entry) : (iu.displace old).1.commitSet = iu.commitSet := by
  cases old <;> rfl

theorem displace_claims (iu : IndexUnit) (old : Option Entry) : (iu.displace old).1.claims = iu.claims := by
  cases old <;> rfl

/-- One key switched: its entry is the new one or gone, every other key as before (R43). -/
theorem find_switchKey (iu : IndexUnit) (e : Entry) (deletes : Bool) (part key : Nat) :
    (iu.switchKey e deletes).1.find part key
      = if part = e.part ∧ key = e.key then (if deletes then none else some e) else iu.find part key := by
  unfold switchKey
  simp only [find_eq, displace_entries]
  cases deletes
  · simp only [Bool.false_eq_true, if_false]; exact find_insertEntry _ _ _ _
  · simp only [if_true]; exact find_removeEntry _ _ _ _ _

/-- What a switch of one key displaces (R43). -/
theorem switchKey_displaced (iu : IndexUnit) (e : Entry) (deletes : Bool) :
    (iu.switchKey e deletes).2 = (iu.find e.part e.key).map fun x => ⟨x.loc, x.cells⟩ := by
  unfold switchKey displace
  cases iu.find e.part e.key <;> rfl

theorem switchKey_charges (iu : IndexUnit) (e : Entry) (deletes : Bool) :
    (iu.switchKey e deletes).1.charges = iu.charges := displace_charges _ _

theorem switchKey_commitSet (iu : IndexUnit) (e : Entry) (deletes : Bool) :
    (iu.switchKey e deletes).1.commitSet = iu.commitSet := displace_commitSet _ _

theorem switchKey_claims (iu : IndexUnit) (e : Entry) (deletes : Bool) :
    (iu.switchKey e deletes).1.claims = iu.claims := displace_claims _ _

/-- The members switched one after another leave the charge record and the commit set (R44). -/
theorem switchMembers_charges (part : Nat) (ms : List Member) : ∀ iu, (switchMembers part ms iu).1.charges = iu.charges := by
  induction ms with
  | nil => exact fun _ => rfl
  | cons m ms ih => intro iu; exact (ih _).trans (switchKey_charges _ _ _)

theorem switchMembers_commitSet (part : Nat) (ms : List Member) :
    ∀ iu, (switchMembers part ms iu).1.commitSet = iu.commitSet := by
  induction ms with
  | nil => exact fun _ => rfl
  | cons m ms ih => intro iu; exact (ih _).trans (switchKey_commitSet _ _ _)

theorem switchMembers_length (part : Nat) (ms : List Member) : ∀ iu, (switchMembers part ms iu).2.length = ms.length := by
  induction ms with
  | nil => exact fun _ => rfl
  | cons m ms ih => intro iu; simp [switchMembers, ih]

/-- What each member displaces, the keys of the members being distinct (R44). -/
theorem switchMembers_displaced (part : Nat) (ms : List Member) : (ms.map (·.key)).Nodup → ∀ iu,
    ∀ (i : Nat) (m : Member), ms[i]? = some m →
      (switchMembers part ms iu).2[i]? = some ((iu.find part m.key).map fun e => ⟨e.loc, e.cells⟩) := by
  induction ms with
  | nil => simp
  | cons x xs ih =>
    intro hn iu i m hi
    simp only [List.map_cons, List.nodup_cons] at hn
    simp only [switchMembers]
    cases i with
    | zero =>
      simp only [List.getElem?_cons_zero, Option.some.injEq] at hi ⊢
      subst hi
      exact switchKey_displaced _ _ _
    | succ j =>
      simp only [List.getElem?_cons_succ] at hi ⊢
      rw [ih hn.2 _ j m hi, find_switchKey]
      have : m.key ≠ x.key := by
        intro h
        apply hn.1
        rw [← h]
        exact List.mem_map_of_mem (List.mem_of_getElem? hi)
      simp [this]

/-- The entries after the members of a transaction with distinct keys have been switched (R44). -/
theorem find_switchMembers (part : Nat) (ms : List Member) : (ms.map (·.key)).Nodup → ∀ iu part' key,
    (switchMembers part ms iu).1.find part' key =
      match (if part' = part then ms.find? (fun m : Member => m.key == key) else none) with
      | some m => if m.op = .write then some ⟨part, m.key, m.loc, m.length, m.gen, m.cells⟩ else none
      | none => iu.find part' key := by
  induction ms with
  | nil => intro _ iu part' key; simp [switchMembers]
  | cons x xs ih =>
    intro hn iu part' key
    simp only [List.map_cons, List.nodup_cons] at hn
    simp only [switchMembers]
    rw [ih hn.2, find_switchKey]
    by_cases hp : part' = part
    · simp only [hp, if_true, List.find?_cons, true_and]
      by_cases hk : x.key = key
      · have hnone : xs.find? (fun m => m.key == key) = none := by
          rw [List.find?_eq_none]
          intro y hy hyk
          apply hn.1
          rw [hk, ← eq_of_beq hyk]
          exact List.mem_map_of_mem hy
        simp only [hk, hnone, beq_self_eq_true, if_true]
        cases x.op <;> rfl
      · have h1 : (x.key == key) = false := by simpa using hk
        have h2 : ¬ key = x.key := fun h => hk h.symm
        simp only [h1, h2, if_false]
    · simp [hp]

/-- Cells killed: the entry of the segment, and the rest of the table. -/
theorem segs_kill (iu : IndexUnit) (l : Location) (cells : Nat) :
    (iu.kill l cells).segs
      = iu.segs.modify (l.seg - 2) (fun x => { x with live := x.live - cells, dead := x.dead + cells }) := rfl

/-- A displaced record's segment: its cells dead, and a pin on it (R43). -/
theorem segs_displaced (iu : IndexUnit) (l : Location) (cells : Nat) :
    ((iu.kill l cells).takePin l.seg).segs = iu.segs.modify (l.seg - 2)
      (fun x => { x with live := x.live - cells, dead := x.dead + cells, pins := x.pins + 1 }) := by
  simp only [takePin, kill, modSeg, List.modify_modify_eq]
  rfl

/-! ## The staged changes that stand (R41) -/

theorem eraseDups_nodup {α : Type} [BEq α] [LawfulBEq α] (l : List α) : l.eraseDups.Nodup := by
  generalize hn : l.length = n
  induction n using Nat.strongRecOn generalizing l with
  | _ n ih =>
    cases l with
    | nil => simp
    | cons a l =>
      rw [List.eraseDups_cons, List.nodup_cons]
      refine ⟨fun hm => ?_, ih _ ?_ _ rfl⟩
      · have := (List.mem_filter.1 (List.mem_eraseDups.1 hm)).2
        simp at this
      · have := List.length_filter_le (fun b => !b == a) l
        simp only [List.length_cons] at hn
        omega

/-- The last change of a key that is staged (R41, R42). -/
theorem IndexUnit.stagedFor_eq_some {cs : List ChargeEntry} {part key : Nat} {c : ChargeEntry} : stagedFor cs part key = some c ↔
    ∃ before after, cs = before ++ c :: after ∧ (c.staged = true ∧ c.part = part ∧ c.key = key)
      ∧ ∀ x ∈ after, ¬ (x.staged = true ∧ x.part = part ∧ x.key = key) := by
  have hp : ∀ x : ChargeEntry, (x.staged && x.part == part && x.key == key) = true
      ↔ (x.staged = true ∧ x.part = part ∧ x.key = key) := fun x => by simp [and_assoc]
  unfold stagedFor
  rw [List.getLast?_eq_head?_reverse, ← List.filter_reverse, List.head?_filter, List.find?_eq_some_iff_append]
  constructor
  · rintro ⟨h, as, bs, he, ha⟩
    refine ⟨bs.reverse, as.reverse, ?_, (hp c).1 h, fun x hx hh => ?_⟩
    · rw [← List.reverse_reverse cs, he]; simp
    · have := ha x (List.mem_reverse.1 hx)
      rw [(hp x).2 hh] at this
      cases this
  · rintro ⟨before, after, rfl, h, ha⟩
    refine ⟨(hp c).2 h, after.reverse, before.reverse, by simp, fun x hx => ?_⟩
    rw [Bool.not_eq_true', Bool.eq_false_iff]
    exact fun hh => ha x (List.mem_reverse.1 hx) ((hp x).1 hh)

/-- The staged changes that stand: of each key the last (R41). -/
theorem IndexUnit.mem_stagedOf {cs : List ChargeEntry} {part : Nat} {c : ChargeEntry} : c ∈ stagedOf cs part ↔
    ∃ before after, cs = before ++ c :: after ∧ c.staged = true ∧ c.part = part
      ∧ ∀ x ∈ after, ¬ (x.staged = true ∧ x.part = part ∧ x.key = c.key) := by
  unfold stagedOf
  simp only [List.mem_filterMap, List.mem_eraseDups, List.mem_map, List.mem_filter, Bool.and_eq_true, beq_iff_eq]
  constructor
  · rintro ⟨key, _, h⟩
    obtain ⟨before, after, he, ⟨h1, h2, rfl⟩, ha⟩ := stagedFor_eq_some.1 h
    exact ⟨before, after, he, h1, h2, ha⟩
  · rintro ⟨before, after, rfl, h1, h2, ha⟩
    exact ⟨c.key, ⟨c, ⟨by simp, h1, h2⟩, rfl⟩, stagedFor_eq_some.2 ⟨before, after, rfl, ⟨h1, h2, rfl⟩, ha⟩⟩

/-- A key has at most one (R41). -/
theorem IndexUnit.stagedOf_keys_nodup (cs : List ChargeEntry) (part : Nat) : ((stagedOf cs part).map (·.key)).Nodup := by
  have : (stagedOf cs part).map (·.key)
      = (((cs.filter (fun c => c.staged && c.part == part)).map (·.key)).eraseDups).filter
          fun key => (stagedFor cs part key).isSome := by
    unfold stagedOf
    generalize ((cs.filter (fun c => c.staged && c.part == part)).map (·.key)).eraseDups = ks
    induction ks with
    | nil => rfl
    | cons key ks ih =>
      rw [List.filterMap_cons, List.filter_cons]
      cases h : stagedFor cs part key with
      | none => simpa using ih
      | some c =>
        obtain ⟨_, _, _, ⟨_, _, hk⟩, _⟩ := stagedFor_eq_some.1 h
        simpa [hk] using ih
  rw [this]
  exact (eraseDups_nodup _).filter _

/-- A key without a staged member (R41). -/
theorem IndexUnit.stagedFor_isNone (cs : List ChargeEntry) (part key : Nat) :
    (stagedFor cs part key).isNone = decide (∀ m ∈ stagedOf cs part, m.key ≠ key) := by
  rw [Bool.eq_iff_iff, decide_eq_true_eq, Option.isNone_iff_eq_none]
  constructor
  · intro h m hm hk
    obtain ⟨before, after, he, h1, h2, ha⟩ := mem_stagedOf.1 hm
    subst hk
    have := stagedFor_eq_some.2 ⟨before, after, he, ⟨h1, h2, rfl⟩, ha⟩
    rw [h] at this
    cases this
  · intro h
    cases hs : stagedFor cs part key with
    | none => rfl
    | some c =>
      obtain ⟨before, after, he, ⟨h1, h2, rfl⟩, ha⟩ := stagedFor_eq_some.1 hs
      exact absurd rfl (h c (mem_stagedOf.2 ⟨before, after, he, h1, h2, ha⟩))

end Sys2Proof.Machine
end

