-- ==== Sys2Proof/Laws/Memory.lean ====
section
/-! SUPPORT. The array: reading after laying bytes, and that every memory operation keeps the canonical form. -/

namespace Sys2Proof.Machine

namespace Memory

/-- The canonical form, as a property of all entries. -/
theorem wf_iff (m : Memory) :
    wf m = true ↔ m.Pairwise (fun c d => c.1 < d.1) ∧ ∀ c ∈ m, c.2 ≠ delivered c.1 := by
  induction m with
  | nil => simp [wf]
  | cons c cs ih =>
    simp only [wf, Bool.and_eq_true, ih, List.pairwise_cons, List.mem_cons, List.all_eq_true, decide_eq_true_eq]
    constructor
    · rintro ⟨⟨h1, h2⟩, h3, h4⟩
      refine ⟨⟨h2, h3⟩, ?_⟩
      rintro d (rfl | hd)
      · simpa using h1
      · exact h4 d hd
    · rintro ⟨⟨h2, h3⟩, h4⟩
      exact ⟨⟨by simpa using h4 c (Or.inl rfl), h2⟩, h3, fun d hd => h4 d (Or.inr hd)⟩

/-- Where the entries of bytes laid from an address stand, and that none equals what is delivered there. -/
theorem mem_entriesFrom {c : Host.Cell} : ∀ {bs : List Byte} {a : Nat}, c ∈ entriesFrom a bs →
    a ≤ c.1 ∧ c.1 < a + bs.length ∧ c.2 ≠ delivered c.1
  | [], _, h => by simp [entriesFrom] at h
  | b :: bs, a, h => by
    unfold entriesFrom at h
    split at h
    · have := mem_entriesFrom h
      simp only [List.length_cons]; exact ⟨by omega, by omega, this.2.2⟩
    · rename_i hb
      rcases List.mem_cons.1 h with rfl | h
      · simp only [List.length_cons]; exact ⟨by omega, by omega, hb⟩
      · have := mem_entriesFrom h
        simp only [List.length_cons]; exact ⟨by omega, by omega, this.2.2⟩

theorem pairwise_entriesFrom : ∀ (bs : List Byte) (a : Nat),
    (entriesFrom a bs).Pairwise (fun c d => c.1 < d.1)
  | [], _ => by simp [entriesFrom]
  | b :: bs, a => by
    unfold entriesFrom
    split
    · exact pairwise_entriesFrom bs (a + 1)
    · refine List.pairwise_cons.2 ⟨fun c hc => ?_, pairwise_entriesFrom bs (a + 1)⟩
      have := (mem_entriesFrom hc).1
      show a < c.1
      omega

/-- Laying bytes keeps the canonical form. -/
theorem wf_writeRange {m : Memory} (h : wf m = true) (a : Nat) (bs : List Byte) :
    wf (writeRange m a bs) = true := by
  rw [wf_iff] at h ⊢
  obtain ⟨hp, hd⟩ := h
  unfold writeRange
  constructor
  · rw [List.pairwise_append, List.pairwise_append]
    refine ⟨⟨hp.filter _, pairwise_entriesFrom bs a, ?_⟩, hp.filter _, ?_⟩
    · intro c hc d hd'
      have h1 : c.1 < a := by simpa using (List.mem_filter.1 hc).2
      have h2 := (mem_entriesFrom hd').1
      omega
    · intro c hc d hd'
      have h3 : a + bs.length ≤ d.1 := by simpa using (List.mem_filter.1 hd').2
      rcases List.mem_append.1 hc with hc | hc
      · have h1 : c.1 < a := by simpa using (List.mem_filter.1 hc).2
        omega
      · have h2 := (mem_entriesFrom hc).2.1
        omega
  · intro c hc
    rcases List.mem_append.1 hc with hc | hc
    · rcases List.mem_append.1 hc with hc | hc
      · exact hd c (List.mem_filter.1 hc).1
      · exact (mem_entriesFrom hc).2.2
    · exact hd c (List.mem_filter.1 hc).1

/-- Laying bytes inside the array keeps every entry inside it. -/
theorem inArray_writeRange {m : Memory} (h : inArray m = true) {a : Nat} {bs : List Byte}
    (ha : a + bs.length ≤ 131072) : inArray (writeRange m a bs) = true := by
  unfold inArray writeRange at *
  rw [List.all_eq_true] at h ⊢
  intro c hc
  rcases List.mem_append.1 hc with hc | hc
  · rcases List.mem_append.1 hc with hc | hc
    · exact h c (List.mem_filter.1 hc).1
    · have := (mem_entriesFrom hc).2.1
      simp only [decide_eq_true_eq]; omega
  · exact h c (List.mem_filter.1 hc).1

theorem lookup_append (a : Nat) : ∀ (xs ys : Memory),
    List.lookup a (xs ++ ys) = (List.lookup a xs).or (List.lookup a ys)
  | [], ys => by simp [List.lookup]
  | (k, v) :: xs, ys => by
    simp only [List.cons_append, List.lookup_cons]
    cases h : a == k <;> simp [lookup_append a xs ys]

theorem lookup_none_of_forall (a : Nat) : ∀ (xs : Memory), (∀ c ∈ xs, c.1 ≠ a) → List.lookup a xs = none
  | [], _ => rfl
  | (k, v) :: xs, h => by
    have hk : k ≠ a := h (k, v) (by simp)
    simp only [List.lookup_cons]
    have : (a == k) = false := by simp; omega
    rw [this]
    exact lookup_none_of_forall a xs fun c hc => h c (by simp [hc])

theorem lookup_filter (a : Nat) (p : Host.Cell → Bool) : ∀ (xs : Memory), (∀ v, p (a, v) = true) →
    List.lookup a (xs.filter p) = List.lookup a xs
  | [], _ => rfl
  | (k, v) :: xs, h => by
    have ih := lookup_filter a p xs h
    by_cases hk : a = k
    · subst hk
      simp [h v]
    · have hne : (a == k) = false := by simpa using hk
      cases hp : p (k, v) <;> simp [hp, List.lookup_cons, hne, ih]

theorem lookup_entriesFrom (x : Nat) : ∀ (bs : List Byte) (a : Nat), a ≤ x → x < a + bs.length →
    (List.lookup x (entriesFrom a bs)).getD (delivered x) = bs.getD (x - a) erasedByte
  | [], a, h1, h2 => by simp at h2; omega
  | b :: bs, a, h1, h2 => by
    simp only [List.length_cons] at h2
    unfold entriesFrom
    by_cases hx : x = a
    · subst hx
      split
      · rename_i hb
        rw [lookup_none_of_forall]
        · simp [hb]
        · intro c hc
          have := (mem_entriesFrom hc).1
          omega
      · simp
    · have hlt : a + 1 ≤ x := by omega
      have ih := lookup_entriesFrom x bs (a + 1) hlt (by omega)
      have hsub : x - a = (x - (a + 1)) + 1 := by omega
      split
      · rw [ih, hsub, List.getD_cons_succ]
      · have hne : (x == a) = false := by simpa using hx
        rw [List.lookup_cons, hne, hsub, List.getD_cons_succ]
        exact ih

/-- A byte that bytes were laid over reads as laid. -/
theorem read_writeRange_inside (m : Memory) {a x : Nat} {bs : List Byte} (h1 : a ≤ x) (h2 : x < a + bs.length) :
    (writeRange m a bs).read x = bs.getD (x - a) erasedByte := by
  unfold read writeRange
  rw [lookup_append, lookup_append, lookup_none_of_forall x (m.filter _), lookup_none_of_forall x (m.filter _)]
  · simp only [Option.none_or, Option.or_none]
    exact lookup_entriesFrom x bs a h1 h2
  · intro c hc
    have : a + bs.length ≤ c.1 := by simpa using (List.mem_filter.1 hc).2
    omega
  · intro c hc
    have : c.1 < a := by simpa using (List.mem_filter.1 hc).2
    omega

/-- Every other byte reads as before. -/
theorem read_writeRange_outside (m : Memory) {a x : Nat} {bs : List Byte} (h : x < a ∨ a + bs.length ≤ x) :
    (writeRange m a bs).read x = m.read x := by
  unfold read writeRange
  rw [lookup_append, lookup_append, lookup_none_of_forall x (entriesFrom a bs)]
  · simp only [Option.or_none]
    rcases h with h | h
    · rw [lookup_filter x _ m (fun _ => by simpa using h), lookup_none_of_forall x (m.filter _)]
      · simp
      · intro c hc
        have : a + bs.length ≤ c.1 := by simpa using (List.mem_filter.1 hc).2
        omega
    · rw [lookup_none_of_forall x (m.filter _), lookup_filter x _ m (fun _ => by simpa using h)]
      · simp
      · intro c hc
        have : c.1 < a := by simpa using (List.mem_filter.1 hc).2
        omega
  · intro c hc
    have h1 := (mem_entriesFrom hc).1
    have h2 := (mem_entriesFrom hc).2.1
    omega

@[simp] theorem length_readRange (m : Memory) (a n : Nat) : (m.readRange a n).length = n := by simp [readRange]

/-- A byte of a range read. -/
theorem getD_readRange (m : Memory) {a n k : Nat} (h : k < n) (d : Byte) :
    (m.readRange a n).getD k d = m.read (a + k) := by
  simp [readRange, List.getD_eq_getElem?_getD, h]

end Memory

/-- The length of what a PROGRAM leaves in a cell. -/
theorem length_programBytes : ∀ (h s t : List Byte), (programBytes h s t).length = min h.length s.length
  | [], _, _ => by simp [programBytes]
  | _ :: _, [], _ => by simp [programBytes]
  | h :: hs, s :: ss, t => by simp [programBytes, length_programBytes hs ss t.tail]

@[simp] theorem length_eraseBytes (h : List Byte) (k : List (Nat × Byte)) : (eraseBytes h k).length = h.length := by
  simp [eraseBytes]

/-- A byte of what a PROGRAM leaves (R2, R22). -/
theorem getD_programBytes : ∀ (h s t : List Byte) (k : Nat), k < h.length → k < s.length →
    (programBytes h s t).getD k erasedByte = programByte (h.getD k 0) (s.getD k 0) (t.getD k 0)
  | [], _, _, k, hk, _ => by simp at hk
  | _ :: _, [], _, k, _, hk => by simp at hk
  | h :: hs, s :: ss, t, 0, _, _ => by cases t <;> simp [programBytes]
  | h :: hs, s :: ss, t, k + 1, h1, h2 => by
    simp only [List.length_cons] at h1 h2
    have := getD_programBytes hs ss t.tail k (by omega) (by omega)
    cases t <;> simpa [programBytes] using this

/-- A PROGRAM keeps the canonical form (R2). -/
theorem wf_programCell {m : Memory} (h : m.wf = true) (seg c : Nat) (sup stuck : List Byte) :
    (programCell m seg c sup stuck).wf = true := Memory.wf_writeRange h _ _

/-- An ERASE keeps the canonical form (R2). -/
theorem wf_eraseSegment {m : Memory} (h : m.wf = true) (seg : Nat) (k : List (Nat × Byte)) :
    (eraseSegment m seg k).wf = true := Memory.wf_writeRange h _ _

/-- What a reset abandons keeps the canonical form (R2, R35). -/
theorem wf_abandon {m : Memory} (h : m.wf = true) (t : Torn) (r : Option Request) : (abandon m t r).wf = true := by
  unfold abandon
  split
  · exact wf_programCell h _ _ _ _
  · exact wf_eraseSegment h _ _
  · exact h

/-- A PROGRAM of a cell that exists stays inside the array. -/
theorem inArray_programCell {m : Memory} (h : m.inArray = true) {seg c : Nat} (hs : seg < 64) (hc : c ≤ 127)
    (sup stuck : List Byte) : (programCell m seg c sup stuck).inArray = true := by
  apply Memory.inArray_writeRange h
  simp only [length_programBytes, Memory.cell, Memory.length_readRange, cellBase, segBase, Config.segmentBytes,
    Config.cellBytes]
  omega

/-- An ERASE of a segment that exists stays inside the array. -/
theorem inArray_eraseSegment {m : Memory} (h : m.inArray = true) {seg : Nat} (hs : seg < 64)
    (k : List (Nat × Byte)) : (eraseSegment m seg k).inArray = true := by
  apply Memory.inArray_writeRange h
  simp only [length_eraseBytes, Memory.segment, Memory.length_readRange, segBase, Config.segmentBytes]
  omega

/-- What a reset abandons of a request that passed its checks stays inside the array. -/
theorem inArray_abandon {m : Memory} (h : m.inArray = true) (t : Torn) {r : Option Request}
    (hr : ∀ q, r = some q → ArrayController.legal q = true) : (abandon m t r).inArray = true := by
  unfold abandon
  split
  · rename_i seg cell bytes
    have := hr _ rfl
    simp only [ArrayController.legal, ArrayOp.inRange, Bool.and_eq_true, decide_eq_true_eq] at this
    exact inArray_programCell h this.1.1 this.1.2 _ _
  · have := hr _ rfl
    simp only [ArrayController.legal, Bool.and_eq_true, decide_eq_true_eq] at this
    exact inArray_eraseSegment h this.1.1 _
  · exact h

/-! ## What a byte reads after a PROGRAM and after an ERASE (R2) -/

theorem programByte_zero (h x : Byte) : programByte h x 0 = h &&& x := by simp [programByte]

/-- No bit is set. -/
theorem programByte_or_held (h x k : Byte) : programByte h x k ||| h = h := by
  unfold programByte
  apply BitVec.eq_of_getLsbD_eq
  intro i hi
  simp
  cases h.getLsbD i <;> cases x.getLsbD i <;> cases k.getLsbD i <;> simp

/-- No bit outside the target is cleared. -/
theorem and_or_programByte (h x k : Byte) : (h &&& x) ||| programByte h x k = programByte h x k := by
  unfold programByte
  apply BitVec.eq_of_getLsbD_eq
  intro i hi
  simp

/-- A byte of the array after a PROGRAM. -/
theorem read_programCell (m : Memory) (seg c : Nat) (bytes stuck : List Byte) (hb : bytes.length = 16) (a : Nat) :
    (programCell m seg c bytes stuck).read a =
      if cellBase seg c ≤ a ∧ a < cellBase seg c + 16 then
        programByte (m.read a) (bytes.getD (a - cellBase seg c) 0) (stuck.getD (a - cellBase seg c) 0)
      else m.read a := by
  unfold programCell
  have hl : (programBytes (m.cell seg c) bytes stuck).length = 16 := by
    simp [length_programBytes, Memory.cell, Config.cellBytes, hb]
  split
  · rename_i h
    rw [Memory.read_writeRange_inside _ h.1 (by omega)]
    rw [getD_programBytes _ _ _ _ (by simp [Memory.cell, Config.cellBytes]; omega) (by omega)]
    unfold Memory.cell
    rw [Memory.getD_readRange _ (by simp [Config.cellBytes]; omega)]
    rw [show cellBase seg c + (a - cellBase seg c) = a by omega]
  · rw [Memory.read_writeRange_outside]
    omega

/-- A byte of the array after an ERASE. -/
theorem read_eraseSegment (m : Memory) (seg : Nat) (k : List (Nat × Byte)) (a : Nat) :
    (eraseSegment m seg k).read a =
      if segBase seg ≤ a ∧ a < segBase seg + 2048 then
        m.read a ||| ~~~ ((List.lookup (a - segBase seg) k).getD 0)
      else m.read a := by
  unfold eraseSegment
  have hl : (eraseBytes (m.segment seg) k).length = 2048 := by simp [Memory.segment, Config.segmentBytes]
  split
  · rename_i h
    rw [Memory.read_writeRange_inside _ h.1 (by omega)]
    unfold eraseBytes
    rw [List.getD_eq_getElem?_getD]
    simp only [List.getElem?_map, List.getElem?_zipIdx]
    have hm : (m.segment seg)[a - segBase seg]? = some (m.read a) := by
      unfold Memory.segment Memory.readRange
      simp only [List.getElem?_map, Config.segmentBytes]
      rw [List.getElem?_range (by omega)]
      simp only [Option.map_some]
      rw [show segBase seg + (a - segBase seg) = a by omega]
    rw [hm]
    simp
  · rw [Memory.read_writeRange_outside]
    omega

end Sys2Proof.Machine
end

