-- ==== Sys2Proof/Laws/Mount.lean ====
section
/-! SUPPORT. The lists of the Mount Engine: the orders it scans and programs in, and the candidate it keeps of several
(R126, R128, R129, R131 to R133). -/

namespace Sys2Proof.Machine

/-! ## Insertion in order -/

theorem insertBySeq_perm (m : MountEngine) (seg : Nat) (xs : List Nat) : (insertBySeq m seg xs).Perm (seg :: xs) := by
  induction xs with
  | nil => exact .refl _
  | cons x xs ih =>
    simp only [insertBySeq]
    split
    · exact .refl _
    · exact (List.Perm.cons x ih).trans (List.Perm.swap seg x xs)

theorem insertBySeq_sorted (m : MountEngine) (seg : Nat) {xs : List Nat}
    (h : xs.Pairwise (fun a b => seqOf a m ≤ seqOf b m)) :
    (insertBySeq m seg xs).Pairwise (fun a b => seqOf a m ≤ seqOf b m) := by
  induction xs with
  | nil => simp [insertBySeq]
  | cons x xs ih =>
    rw [List.pairwise_cons] at h
    simp only [insertBySeq]
    split
    case isTrue hlt =>
      rw [List.pairwise_cons]
      refine ⟨fun a ha => ?_, List.pairwise_cons.mpr h⟩
      rcases List.mem_cons.mp ha with rfl | ha
      · omega
      · have := h.1 a ha; omega
    case isFalse hge =>
      rw [List.pairwise_cons]
      refine ⟨fun a ha => ?_, ih h.2⟩
      rcases List.mem_cons.mp ((insertBySeq_perm m seg xs).mem_iff.mp ha) with rfl | ha
      · omega
      · exact h.1 a ha

/-- Segments put in order of sequence number are the same segments, in that order (R126, R128). -/
theorem foldl_insertBySeq (m : MountEngine) (xs ys : List Nat) (h : ys.Pairwise (fun a b => seqOf a m ≤ seqOf b m)) :
    (xs.foldl (fun ys s => insertBySeq m s ys) ys).Perm (xs ++ ys)
      ∧ (xs.foldl (fun ys s => insertBySeq m s ys) ys).Pairwise (fun a b => seqOf a m ≤ seqOf b m) := by
  induction xs generalizing ys with
  | nil => exact ⟨.refl _, h⟩
  | cons x xs ih =>
    obtain ⟨hp, hs⟩ := ih (insertBySeq m x ys) (insertBySeq_sorted m x h)
    exact ⟨hp.trans (((insertBySeq_perm m x ys).append_left xs).trans List.perm_middle), hs⟩

theorem insertByGen_perm (c : Candidate) (xs : List Candidate) : (insertByGen c xs).Perm (c :: xs) := by
  induction xs with
  | nil => exact .refl _
  | cons x xs ih =>
    simp only [insertByGen]
    split
    · exact .refl _
    · exact (List.Perm.cons x ih).trans (List.Perm.swap c x xs)

theorem insertByGen_sorted (c : Candidate) {xs : List Candidate} (h : xs.Pairwise (fun a b => b.gen ≤ a.gen)) :
    (insertByGen c xs).Pairwise (fun a b => b.gen ≤ a.gen) := by
  induction xs with
  | nil => simp [insertByGen]
  | cons x xs ih =>
    rw [List.pairwise_cons] at h
    simp only [insertByGen]
    split
    case isTrue hlt =>
      rw [List.pairwise_cons]
      refine ⟨fun a ha => ?_, List.pairwise_cons.mpr h⟩
      rcases List.mem_cons.mp ha with rfl | ha
      · omega
      · have := h.1 a ha; omega
    case isFalse hge =>
      rw [List.pairwise_cons]
      refine ⟨fun a ha => ?_, ih h.2⟩
      rcases List.mem_cons.mp ((insertByGen_perm c xs).mem_iff.mp ha) with rfl | ha
      · omega
      · exact h.1 a ha

/-- Candidates put in falling order of generation are the same candidates, in that order (R132, R133). -/
theorem foldl_insertByGen (xs ys : List Candidate) (h : ys.Pairwise (fun a b => b.gen ≤ a.gen)) :
    (xs.foldl (fun ys c => insertByGen c ys) ys).Perm (xs ++ ys)
      ∧ (xs.foldl (fun ys c => insertByGen c ys) ys).Pairwise (fun a b => b.gen ≤ a.gen) := by
  induction xs generalizing ys with
  | nil => exact ⟨.refl _, h⟩
  | cons x xs ih =>
    obtain ⟨hp, hs⟩ := ih (insertByGen x ys) (insertByGen_sorted x h)
    exact ⟨hp.trans (((insertByGen_perm x ys).append_left xs).trans List.perm_middle), hs⟩

theorem commitOrder_spec (m : MountEngine) :
    (commitOrder m).Perm (commitsOf m) ∧ (commitOrder m).Pairwise (fun a b => a.gen ≤ b.gen) := by
  obtain ⟨hp, hs⟩ := foldl_insertByGen (commitsOf m) [] .nil
  refine ⟨(List.reverse_perm _).trans (by simpa using hp), ?_⟩
  rw [commitOrder, List.pairwise_reverse]
  exact hs

theorem currentData_spec (m : MountEngine) :
    (currentData m).Perm ((currentVersions m).filter (fun c => c.kind == RecordKind.data))
      ∧ (currentData m).Pairwise (fun a b => b.gen ≤ a.gen) := by
  simpa [currentData] using foldl_insertByGen ((currentVersions m).filter (fun c => c.kind == RecordKind.data)) [] .nil

theorem reclaimingSegs_spec (m : MountEngine) :
    (∀ seg, seg ∈ reclaimingSegs m ↔ seg ∈ m.classes.map (·.seg) ∧ classOf seg m = .reclaiming)
      ∧ (reclaimingSegs m).Pairwise (fun a b => seqOf b m ≤ seqOf a m) := by
  obtain ⟨hp, hs⟩ := foldl_insertBySeq m ((m.classes.map (·.seg)).filter (fun s => classOf s m == .reclaiming)) [] .nil
  refine ⟨fun seg => ?_, by rw [reclaimingSegs, List.pairwise_reverse]; exact hs⟩
  rw [reclaimingSegs, List.mem_reverse, hp.mem_iff]
  simp only [List.append_nil, List.mem_filter, beq_iff_eq]

/-! ## The candidate kept (R129) -/

/-- `y` is preferred to `x` by R129. -/
def Candidate.below (m : MountEngine) (x y : Candidate) : Prop :=
  x.gen < y.gen ∨ (x.gen = y.gen ∧ classOf x.loc.seg m = .reclaiming
    ∧ (classOf y.loc.seg m ≠ .reclaiming ∨ seqOf x.loc.seg m < seqOf y.loc.seg m))

theorem beats_not_below {m : MountEngine} {x y : Candidate} (h : x.beats m y = true) : ¬ x.below m y := by
  unfold Candidate.beats at h
  unfold Candidate.below
  grind

theorem not_beats_not_below {m : MountEngine} {x y : Candidate} (h : x.beats m y = false) : ¬ y.below m x := by
  unfold Candidate.beats at h
  unfold Candidate.below
  grind

theorem Candidate.below_trans_not {m : MountEngine} {x y z : Candidate} (h : ¬ x.below m y) (h' : ¬ y.below m z) :
    ¬ x.below m z := by
  unfold Candidate.below at *
  grind

/-- The one kept of a list is of the list, and none of the list is preferred to it (R129). -/
theorem bestOf_spec {m : MountEngine} {xs : List Candidate} {b : Candidate} (h : bestOf m xs = some b) :
    b ∈ xs ∧ ∀ y ∈ xs, ¬ b.below m y := by
  induction xs generalizing b with
  | nil => simp [bestOf] at h
  | cons c cs ih =>
    have irrefl : ∀ x : Candidate, ¬ x.below m x := by intro x; unfold Candidate.below; grind
    simp only [bestOf] at h
    cases hb : bestOf m cs with
    | none =>
      have hcs : cs = [] := by
        cases cs with
        | nil => rfl
        | cons d ds =>
          simp only [bestOf] at hb
          split at hb
          · cases hb
          · split at hb <;> cases hb
      rw [hb] at h
      cases h
      subst hcs
      exact ⟨by simp, fun y hy => by simp only [List.mem_singleton] at hy; subst hy; exact irrefl _⟩
    | some d =>
      obtain ⟨hd, hmax⟩ := ih hb
      rw [hb] at h
      cases hbt : d.beats m c with
      | true =>
        simp only [hbt, if_true, Option.some.injEq] at h
        subst h
        refine ⟨List.mem_cons_of_mem _ hd, fun y hy => ?_⟩
        rcases List.mem_cons.mp hy with rfl | hy
        · exact beats_not_below hbt
        · exact hmax y hy
      | false =>
        simp only [hbt, Bool.false_eq_true, if_false, Option.some.injEq] at h
        subst h
        refine ⟨List.mem_cons_self, fun y hy => ?_⟩
        rcases List.mem_cons.mp hy with rfl | hy
        · exact irrefl _
        · exact Candidate.below_trans_not (not_beats_not_below hbt) (hmax y hy)

/-- One is kept of every list with a candidate in it. -/
theorem bestOf_isSome {m : MountEngine} {xs : List Candidate} {x : Candidate} (h : x ∈ xs) : ∃ b, bestOf m xs = some b := by
  cases xs with
  | nil => cases h
  | cons c cs =>
    simp only [bestOf]
    split
    · exact ⟨_, rfl⟩
    · split <;> exact ⟨_, rfl⟩

/-- The records kept of a list, one for each class of a relation `same`: each is at the place of one that none of its class is
preferred to, every class has one, and a class has it at one place (R129, R131). -/
theorem kept_spec (m : MountEngine) (same : Candidate → Candidate → Bool) (ds : List Candidate)
    (hrefl : ∀ x, same x x = true) (hsymm : ∀ x y, same x y = true → same y x = true)
    (htrans : ∀ x y z, same x y = true → same y z = true → same x z = true) :
    let ks := ds.filter fun x => (bestOf m (ds.filter (fun y => same y x))).any (fun b => b.loc == x.loc)
    (∀ x ∈ ks, x ∈ ds ∧ ∃ b ∈ ds, b.loc = x.loc ∧ same b x = true ∧ ∀ y ∈ ds, same y x = true → ¬ b.below m y)
    ∧ (∀ x ∈ ds, ∃ y ∈ ks, same y x = true)
    ∧ (∀ x ∈ ks, ∀ y ∈ ks, same x y = true → x.loc = y.loc) := by
  intro ks
  have hk : ∀ x, x ∈ ks ↔ x ∈ ds ∧ ∃ b, bestOf m (ds.filter (fun y => same y x)) = some b ∧ b.loc = x.loc := by
    intro x
    simp only [ks, List.mem_filter]
    cases bestOf m (ds.filter (fun y => same y x)) <;> simp
  have hclass : ∀ x y, same x y = true → ds.filter (fun z => same z x) = ds.filter (fun z => same z y) := by
    intro x y h
    refine List.filter_congr fun z _ => ?_
    cases h1 : same z x
    · cases h2 : same z y
      · rfl
      · rw [htrans z y x h2 (hsymm x y h)] at h1; cases h1
    · rw [htrans z x y h1 h]
  refine ⟨fun x hx => ?_, fun x hx => ?_, fun x hx y hy h => ?_⟩
  · obtain ⟨hm, b, hb, hl⟩ := (hk x).mp hx
    obtain ⟨hb1, hb2⟩ := bestOf_spec hb
    rw [List.mem_filter] at hb1
    exact ⟨hm, b, hb1.1, hl, hb1.2, fun y hy hs => hb2 y (List.mem_filter.mpr ⟨hy, hs⟩)⟩
  · obtain ⟨b, hb⟩ := bestOf_isSome (m := m) (List.mem_filter.mpr ⟨hx, hrefl x⟩ : x ∈ ds.filter (fun y => same y x))
    have hb1 := List.mem_filter.mp (bestOf_spec hb).1
    exact ⟨b, (hk b).mpr ⟨hb1.1, b, by rw [hclass b x hb1.2]; exact hb, rfl⟩, hb1.2⟩
  · obtain ⟨_, b, hb, hl⟩ := (hk x).mp hx
    obtain ⟨_, c, hc, hl'⟩ := (hk y).mp hy
    rw [hclass x y h, hc] at hb
    cases hb
    rw [← hl, hl']

/-! ## What the decisions rest on (R129 to R133) -/

theorem beats_congr {m n : MountEngine} (h : m.classes = n.classes) (x y : Candidate) : x.beats m y = x.beats n y := by
  have hc : ∀ seg, classOf seg m = classOf seg n := fun seg => by simp only [classOf, classEntry, h]
  have hs : ∀ seg, seqOf seg m = seqOf seg n := fun seg => by simp only [seqOf, classEntry, h]
  unfold Candidate.beats
  simp only [hc, hs]

theorem bestOf_congr {m n : MountEngine} (h : m.classes = n.classes) (xs : List Candidate) : bestOf m xs = bestOf n xs := by
  induction xs with
  | nil => rfl
  | cons c cs ih => simp only [bestOf, ih, beats_congr h]

theorem promotedMembers_congr {m n : MountEngine} (hc : m.classes = n.classes) (hx : m.cands = n.cands) :
    promotedMembers m = promotedMembers n := by
  simp only [promotedMembers, decidedMembers, commitsOf, hx, bestOf_congr hc]

theorem currentVersions_congr {m n : MountEngine} (hc : m.classes = n.classes) (hx : m.cands = n.cands)
    (hg : m.givenUp = n.givenUp) : currentVersions m = currentVersions n := by
  simp only [currentVersions, deciders, promotedMembers_congr hc hx, hx, hg, bestOf_congr hc]

/-- The decisions rest on the classes, the candidates and the members given up alone, and on the losers left short. -/
theorem groupRecords_congr {m n : MountEngine} (hc : m.classes = n.classes) (hx : m.cands = n.cands)
    (hg : m.givenUp = n.givenUp) (hs : m.short = n.short) (group : Nat) : groupRecords m group = groupRecords n group := by
  have hd : deciders m = deciders n := by simp only [deciders, promotedMembers_congr hc hx, hx, hg]
  unfold groupRecords
  split
  · rw [hx]
  · simp only [promotionOrder, commitOrder, commitsOf, promotedMembers_congr hc hx, hx]
  · simp only [promotedMembers_congr hc hx, hx, hg]
  · simp only [losersOf, overCapacity, currentData, currentVersions_congr hc hx hg, hd]
  · simp only [buriedTombstones, losersOf, currentVersions_congr hc hx hg, hd, hs]
  · simp only [commitOrder, commitsOf, hx]
  · rfl

/-! ## What the groups count (R129 to R133) -/

/-- Discarding record after record. -/
theorem foldl_mountDiscard {α : Type} (xs : List α) (u : Units) :
    xs.foldl (fun u _ => mountDiscard u) u
      = u.setMe { u.me with discarded := if xs.length = 0 then u.me.discarded else min 65535 (u.me.discarded + xs.length) } := by
  induction xs generalizing u with
  | nil => rfl
  | cons x xs ih =>
    rw [List.foldl_cons, ih]
    simp only [mountDiscard, modMe, saturate, List.length_cons, Units.me_setMe, Units.setMe_setMe]
    congr 2
    split <;> simp <;> omega

/-- Discarding record after record with a fault each. -/
theorem foldl_mountExcess (xs : List Candidate) (u : Units) :
    xs.foldl (fun u c => mountDiscard (mountFault (some c.part) (some c.key) (some c.loc.seg) none u)) u
      = u.setMe { u.me with
          discarded := if xs.length = 0 then u.me.discarded else min 65535 (u.me.discarded + xs.length),
          faults := if xs.length = 0 then u.me.faults else min 65535 (u.me.faults + xs.length),
          posts := u.me.posts ++ xs.map (fun c => ⟨some c.part, some c.key, some c.loc.seg, none⟩) } := by
  induction xs generalizing u with
  | nil => simp; rfl
  | cons x xs ih =>
    rw [List.foldl_cons, ih]
    simp only [mountDiscard, mountFault, modMe, saturate, List.length_cons, Units.me_setMe, Units.setMe_setMe, List.map_cons,
      List.append_assoc, List.singleton_append]
    congr 2
    · split <;> simp <;> omega
    · split <;> simp <;> omega

/-- A promoted member is one of group 2, and the other way round (R132). -/
theorem mem_promotionOrder (m : MountEngine) (x : Candidate) : x ∈ promotionOrder m ↔ x ∈ promotedMembers m := by
  simp only [promotionOrder, List.mem_eraseDups, List.mem_flatMap, List.mem_filter, Bool.and_eq_true, beq_iff_eq]
  constructor
  · rintro ⟨c, _, h, _⟩
    exact h
  · intro h
    have hd : x ∈ decidedMembers m := (List.mem_filter.mp h).1
    simp only [decidedMembers, List.mem_filter, Bool.and_eq_true, List.any_eq_true, Candidate.decides, beq_iff_eq] at hd
    obtain ⟨_, _, c, hc, ⟨hp, ht⟩, _⟩ := hd
    exact ⟨c, (commitOrder_spec m).1.mem_iff.mpr hc, h, hp, ht⟩

/-- Keeping first occurrences and keeping some of the elements can be done in either order. -/
theorem eraseDups_filter_comm {α : Type} [BEq α] [LawfulBEq α] (p : α → Bool) (l : List α) :
    (l.filter p).eraseDups = l.eraseDups.filter p := by
  induction h : l.length using Nat.strongRecOn generalizing l with
  | _ n ih =>
    cases l with
    | nil => simp
    | cons a as =>
      subst h
      have hlen : (as.filter (fun b => !b == a)).length < (a :: as).length :=
        Nat.lt_succ_of_le (List.length_filter_le _ _)
      rw [List.eraseDups_cons]
      cases hp : p a with
      | true =>
        rw [List.filter_cons_of_pos hp, List.filter_cons_of_pos hp, List.eraseDups_cons, ← ih _ hlen _ rfl]
        simp only [List.filter_filter, Bool.and_comm]
      | false =>
        rw [List.filter_cons_of_neg (by simp [hp]), List.filter_cons_of_neg (by simp [hp]), ← ih _ hlen _ rfl]
        congr 1
        rw [List.filter_filter]
        refine List.filter_congr fun x _ => ?_
        cases hx : p x with
        | false => rfl
        | true =>
          have : x ≠ a := fun e => by rw [e, hp] at hx; cases hx
          simp [this]

/-- The promoted members stand transaction by transaction in the order of their commit candidates (R132). -/
theorem promotionOrder_sorted (cs ps : List Candidate) (h : cs.Pairwise (fun a b => a.gen ≤ b.gen)) :
    ((cs.flatMap fun c => ps.filter (fun x => c.part == x.part && c.txn == x.txn)).eraseDups).Pairwise
      (fun x y => ∃ c ∈ cs, c.part = x.part ∧ c.txn = x.txn
        ∧ ∀ d ∈ cs, d.part = y.part → d.txn = y.txn → c.gen ≤ d.gen) := by
  induction cs with
  | nil => simp
  | cons c cs ih =>
    rw [List.pairwise_cons] at h
    rw [List.flatMap_cons, List.eraseDups_append, List.pairwise_append]
    have first : ∀ d ∈ c :: cs, c.gen ≤ d.gen := fun d hd => by
      rcases List.mem_cons.mp hd with rfl | hd
      · exact Nat.le_refl _
      · exact h.1 d hd
    have hit : ∀ x ∈ (ps.filter (fun x => c.part == x.part && c.txn == x.txn)).eraseDups, c.part = x.part ∧ c.txn = x.txn := by
      intro x hx
      rw [List.mem_eraseDups, List.mem_filter] at hx
      simpa using hx.2
    refine ⟨List.pairwise_of_forall_mem_list fun x hx y _ => ?_, ?_, fun x hx y _ => ?_⟩
    · exact ⟨c, List.mem_cons_self, (hit x hx).1, (hit x hx).2, fun d hd _ _ => first d hd⟩
    · rw [List.removeAll, eraseDups_filter_comm]
      have := (ih h.2).filter (fun x => !(ps.filter (fun x => c.part == x.part && c.txn == x.txn)).elem x)
      refine this.imp_of_mem fun {x y} hx hy hxy => ?_
      obtain ⟨d, hd, h1, h2, h3⟩ := hxy
      refine ⟨d, List.mem_cons_of_mem _ hd, h1, h2, fun e he h4 h5 => ?_⟩
      rcases List.mem_cons.mp he with rfl | he
      · exfalso
        rw [List.mem_filter, List.mem_eraseDups, List.mem_flatMap] at hy
        obtain ⟨⟨g, _, hg⟩, hn⟩ := hy
        have hyp := (List.mem_filter.mp hg).1
        simp [List.mem_filter, hyp, h4, h5] at hn
      · exact h3 e he h4 h5
    · exact ⟨c, List.mem_cons_self, (hit x hx).1, (hit x hx).2, fun d hd _ _ => first d hd⟩

/-! ## The restored index (R133) -/

/-- Entries by rising partition and key, one for each (R37). -/
def entriesSorted (es : List Entry) : Prop := es.Pairwise (fun a b => IndexUnit.Entry.before a b = true)

theorem mem_insertEntry {e x : Entry} {es : List Entry} (h : x ∈ IndexUnit.insertEntry e es) : x = e ∨ x ∈ es := by
  induction es with
  | nil => exact .inl (List.mem_singleton.mp h)
  | cons y ys ih =>
    simp only [IndexUnit.insertEntry] at h
    split at h
    · exact List.mem_cons.mp h
    · split at h
      · exact (List.mem_cons.mp h).imp_right (List.mem_cons_of_mem _)
      · rcases List.mem_cons.mp h with rfl | h
        · exact .inr List.mem_cons_self
        · exact (ih h).imp_right (List.mem_cons_of_mem _)

/-- The key inserted has an entry, and so has every key that had one. -/
theorem insertEntry_keeps {e x : Entry} {es : List Entry} (h : x = e ∨ x ∈ es) :
    ∃ y ∈ IndexUnit.insertEntry e es, y.part = x.part ∧ y.key = x.key := by
  induction es with
  | nil =>
    rcases h with rfl | h
    · exact ⟨x, List.mem_singleton.mpr rfl, rfl, rfl⟩
    · cases h
  | cons z zs ih =>
    simp only [IndexUnit.insertEntry]
    split
    · rcases h with rfl | h
      · exact ⟨x, List.mem_cons_self, rfl, rfl⟩
      · exact ⟨x, List.mem_cons_of_mem _ h, rfl, rfl⟩
    · split
      case isTrue heq =>
        rcases h with rfl | h
        · exact ⟨x, List.mem_cons_self, rfl, rfl⟩
        · rcases List.mem_cons.mp h with rfl | h
          · exact ⟨e, List.mem_cons_self, heq.1.symm, heq.2.symm⟩
          · exact ⟨x, List.mem_cons_of_mem _ h, rfl, rfl⟩
      case isFalse =>
        have go : x = e ∨ x ∈ zs → ∃ y ∈ z :: IndexUnit.insertEntry e zs, y.part = x.part ∧ y.key = x.key := fun h => by
          obtain ⟨y, hy, hk⟩ := ih h
          exact ⟨y, List.mem_cons_of_mem _ hy, hk⟩
        rcases h with rfl | h
        · exact go (.inl rfl)
        · rcases List.mem_cons.mp h with rfl | h
          · exact ⟨x, List.mem_cons_self, rfl, rfl⟩
          · exact go (.inr h)

theorem insertEntry_sorted {es : List Entry} (h : entriesSorted es) (e : Entry) : entriesSorted (IndexUnit.insertEntry e es) := by
  unfold entriesSorted at *
  induction es with
  | nil => simp [IndexUnit.insertEntry]
  | cons x xs ih =>
    rw [List.pairwise_cons] at h
    simp only [IndexUnit.insertEntry]
    split
    case isTrue hb =>
      refine List.pairwise_cons.mpr ⟨fun a ha => ?_, List.pairwise_cons.mpr h⟩
      rcases List.mem_cons.mp ha with rfl | ha
      · exact hb
      · have := h.1 a ha
        simp only [IndexUnit.Entry.before, decide_eq_true_eq] at *
        omega
    case isFalse hb =>
      split
      case isTrue heq =>
        refine List.pairwise_cons.mpr ⟨fun a ha => ?_, h.2⟩
        have := h.1 a ha
        simp only [IndexUnit.Entry.before, decide_eq_true_eq] at *
        omega
      case isFalse hne =>
        refine List.pairwise_cons.mpr ⟨fun a ha => ?_, ih h.2⟩
        rcases mem_insertEntry ha with rfl | ha
        · simp only [IndexUnit.Entry.before, decide_eq_true_eq] at *
          omega
        · exact h.1 a ha

/-- Entries put in one after the other: each is one of them, each of their keys has one, and they stand in order (R133). -/
theorem foldl_insertEntry (cs : List Candidate) (es : List Entry) (h : entriesSorted es) :
    let r := cs.foldl (fun es c => IndexUnit.insertEntry c.entry es) es
    entriesSorted r ∧ (∀ e ∈ r, e ∈ es ∨ ∃ c ∈ cs, e = c.entry)
      ∧ (∀ e ∈ es, ∃ y ∈ r, y.part = e.part ∧ y.key = e.key)
      ∧ ∀ c ∈ cs, ∃ y ∈ r, y.part = c.part ∧ y.key = c.key := by
  induction cs generalizing es with
  | nil => exact ⟨h, fun e he => .inl he, fun e he => ⟨e, he, rfl, rfl⟩, by simp⟩
  | cons c cs ih =>
    obtain ⟨h1, h2, h3, h4⟩ := ih (IndexUnit.insertEntry c.entry es) (insertEntry_sorted h c.entry)
    simp only [List.foldl_cons]
    have keep : ∀ x, x = c.entry ∨ x ∈ es → ∃ y ∈ cs.foldl (fun es c => IndexUnit.insertEntry c.entry es)
        (IndexUnit.insertEntry c.entry es), y.part = x.part ∧ y.key = x.key := fun x hx => by
      obtain ⟨y, hy, hp, hk⟩ := insertEntry_keeps hx
      obtain ⟨z, hz, hp', hk'⟩ := h3 y hy
      exact ⟨z, hz, hp'.trans hp, hk'.trans hk⟩
    refine ⟨h1, fun e he => ?_, fun e he => keep e (.inr he), fun d hd => ?_⟩
    · rcases h2 e he with he | ⟨d, hd, rfl⟩
      · rcases mem_insertEntry he with rfl | he
        · exact .inr ⟨c, List.mem_cons_self, rfl⟩
        · exact .inl he
      · exact .inr ⟨d, List.mem_cons_of_mem _ hd, rfl⟩
    · rcases List.mem_cons.mp hd with rfl | hd
      · exact keep d.entry (.inl rfl)
      · exact h4 d hd

/-! ## The hand-over (R136) -/

/-- The notices of mount's faults, one after the other. -/
theorem foldl_postLost (fs : List MountFault) (u : Units) :
    fs.foldl (fun u f => postIntegrity .mount .lost f.part f.key f.seg u) u
      = { u with nu := { u.nu with posts := u.nu.posts ++ fs.map fun f => ⟨.mount, .authority,
          { Notice.plain .integrity with part := f.part, key := f.key, seg := f.seg, reason := some .lost }⟩ } } := by
  induction fs generalizing u with
  | nil => simp
  | cons f fs ih =>
    rw [List.foldl_cons, ih, List.map_cons]
    simp only [postIntegrity, post, List.append_assoc, List.singleton_append]

/-- Everything the hand-over leaves (R136). -/
theorem handOverTables_eq (u : Units) :
    let m := u.me
    let sh := u.pu.shadow
    let low := decide ((restoredIndex m).segs.countP (·.avail) ≤ sh.lowWater)
    let victim := (reclaimingSegs m).head?
    let notices : List Post :=
      (if m.source = .defaulted then [⟨.mount, .every, Notice.plain .policyDefaulted⟩] else [])
        ++ m.posts.map (fun f => ⟨.mount, .authority,
            { Notice.plain .integrity with part := f.part, key := f.key, seg := f.seg, reason := some .lost }⟩)
        ++ (if low then [⟨.index, .every, Notice.plain .spaceLow⟩] else [])
    handOverTables u = { u with
      iu := { restoredIndex m with armed := !low },
      rw := { RecordWriter.start with gen := m.maxGen.getD 0 + 1 },
      tm := { TxnManager.start with counter := nextNumber (m.maxTxn.getD 0), retained := m.retained },
      ce := { CompactionEngine.start with
        pendingErase := pendingErases m, victim := victim,
        source := if victim.isSome then .resumed else .selected, lowRun := low },
      pu := { u.pu with locks := sh.locks, views := ⟨sh.viewFor .a, sh.viewFor .b, sh.viewFor .c, sh.viewFor .d⟩ },
      ports := u.ports.map fun _ x => x.ready,
      me := { m with phase := .done, step := .done, todo := [], progs := [], io := Io.none },
      nu := { u.nu with posts := u.nu.posts ++ notices } } := by
  intro m sh low victim notices
  have harm : (restoredIndex u.me).armed = true := rfl
  simp only [handOverTables, mountNotices, foldl_postLost, compareLow, compareRun, allPorts, List.foldl_cons, List.foldl_nil,
    setDefaultView, modMe, post, Units.setIu, Units.setRw, Units.setCe, Units.setPu, Units.setMe, IndexUnit.erasedCount]
  by_cases hd : u.me.source = .defaulted <;>
    by_cases hl : (restoredIndex u.me).segs.countP (·.avail) ≤ u.pu.shadow.lowWater
  all_goals
    simp only [hd, hl, harm, low, notices, m, sh, victim, decide_true, decide_false, if_true, if_false,
      List.append_assoc, List.append_nil, List.nil_append, Bool.false_eq_true]
    rfl

end Sys2Proof.Machine
end

