-- ==== Sys2Proof/Laws/Writer.lean ====
section
/-! SUPPORT. The writer job queue: what ends a job leaves in it, and that a Writer without a job takes jobs until it has one or
none is queued (R58). -/

namespace Sys2Proof.Machine

/-! ## What leaves the Writer as it is -/

@[simp] theorem settle_rw (p : Port) (u : Units) : (settle p u).rw = u.rw := by
  unfold settle
  split <;> rfl

@[simp] theorem deliver_rw (p : Port) (o : Posting) (u : Units) : (deliver p o u).rw = u.rw := rfl
@[simp] theorem answer_rw (p : Port) (c : ResultCode) (u : Units) : (answer p c u).rw = u.rw := rfl
@[simp] theorem holdMoves_rw (p : Port) (b : Bool) (u : Units) : (holdMoves p b u).rw = u.rw := rfl
@[simp] theorem grantClaim_rw (part : Nat) (p : Port) (u : Units) : (grantClaim part p u).rw = u.rw := rfl

@[simp] theorem wakeSweep_rw (u : Units) : (wakeSweep u).rw = u.rw := by
  unfold wakeSweep
  split
  · rfl
  · split <;> rfl

@[simp] theorem answerDue_rw (part : Nat) (u : Units) : (answerDue part u).rw = u.rw := by
  have : ∀ (qs : List Port) (v : Units), (qs.foldl (fun v q =>
      match waitDue part q u with
      | some c => answer q c (v.setSlot q Slot.start)
      | none => v) v).rw = v.rw := fun qs => by
    induction qs with
    | nil => exact fun _ => rfl
    | cons q qs ih =>
      intro v
      rw [List.foldl_cons, ih]
      split <;> rfl
  exact this _ _

@[simp] theorem releaseClaim_rw (part : Nat) (u : Units) : (releaseClaim part u).rw = u.rw := by
  unfold releaseClaim passClaim
  rw [wakeSweep_rw]
  split
  · rw [answerDue_rw]
  · split
    · rw [grantClaim_rw, ← answerDue_rw part u]
      rfl
    · rw [answerDue_rw]

@[simp] theorem endTransaction_rw (p : Port) (after : Slot) (u : Units) : (endTransaction p after u).rw = u.rw := by
  simp only [endTransaction, settle_rw, releaseClaim_rw]
  rfl

@[simp] theorem stageEnded_rw (p : Port) (o : Posting) (u : Units) : (stageEnded p o u).rw = u.rw := by
  unfold stageEnded
  dsimp only
  split <;> rfl

@[simp] theorem stageFailed_rw (p : Port) (key : Nat) (c : ResultCode) (u : Units) : (stageFailed p key c u).rw = u.rw := by
  simp only [stageFailed, stageEnded_rw]
  split <;> rfl

@[simp] theorem completeEnded_rw (p : Port) (u : Units) : (completeEnded p u).rw = u.rw := by
  unfold completeEnded inState
  split
  · simp only [endTransaction_rw, answer_rw]
  · rfl

/-- A COMMIT that fails in COMMITTING sends its ABORT_CLEAN (R94). -/
theorem commitFailed_rw (c : ResultCode) (p : Port) (u : Units) : (commitFailed c p u).rw =
    if (u.slot p).state = .committing then { u.rw with queue := u.rw.queue ++ [.abortClean p] } else u.rw := by
  unfold commitFailed inState
  split <;> rfl

@[simp] theorem abortCleanEnded_rw (p : Port) (u : Units) : (abortCleanEnded p u).rw = u.rw := rfl

@[simp] theorem finish_rw (p : Port) (u : Units) : (finish p u).rw = { u.rw with cur := none, io := Io.none } := by
  simp only [finish, settle_rw]
  rfl

/-! ## Jobs taken (R58) -/

/-- The jobs a queued job can make the Writer take: its own, and for a record the clean of a commit that fails. -/
def Job.turns : Job → Nat
  | .record _ => 2
  | _ => 1

def turnsOf (js : List Job) : Nat := (js.map Job.turns).sum

theorem turnsOf_le (js : List Job) : turnsOf js ≤ 2 * js.length := by
  induction js with
  | nil => exact Nat.le_refl _
  | cons j js ih =>
    have : j.turns ≤ 2 := by cases j <;> simp [Job.turns]
    simp only [turnsOf, List.map_cons, List.sum_cons, List.length_cons] at *
    omega

theorem turnsOf_append (xs ys : List Job) : turnsOf (xs ++ ys) = turnsOf xs + turnsOf ys := by
  simp [turnsOf]

/-- A Writer that is at work. -/
def busy (u : Units) : Prop := u.rw.cur.isSome = true

theorem goProgram_cur (st : WStep) (seg cell : Nat) (bytes : List Byte) (u : Units) (h : busy u) :
    busy (goProgram st seg cell bytes u) := by
  unfold busy at *
  simp only [goProgram, writerProgram, goStep]
  simpa using h

theorem goClaim_cur (st : WStep) (c : Claim) (u : Units) (h : busy u) : busy (goClaim st c u) := by
  unfold busy at *
  simp only [goClaim, present_rw, goStep]
  simpa using h

theorem goMemberLive_cur (i : Nat) (l : Location) (tries : Nat) (again : Bool) (u : Units) (h : busy u) :
    busy (goMemberLive i l tries again u) := by
  refine goProgram_cur _ _ _ _ _ ?_
  unfold busy at *
  simp only [modJob]
  simpa using h

theorem goAborted_cur (i : Nat) (l : Location) (u : Units) (h : busy u) : busy (goAborted i l u) := by
  refine goProgram_cur _ _ _ _ _ ?_
  unfold busy at *
  simp only [modJob]
  simpa using h

/-- A job taken leaves the Writer at work, or has ended with at most one more turn left in the queue than before. -/
theorem startJob_turns (j : Job) (u : Units) :
    busy (startJob j u) ∨ turnsOf (startJob j u).rw.queue + 1 ≤ turnsOf u.rw.queue + j.turns := by
  have hb : busy (u.setRw { u.rw with cur := some ⟨j, .allocating, []⟩ }) := rfl
  cases j with
  | record r =>
    simp only [startJob, startRecord]
    split
    · exact .inl (goClaim_cur _ _ _ hb)
    · split
      · unfold recordFailed
        split
        · exact .inl (goClaim_cur _ _ _ hb)
        · refine .inr ?_
          simp only [finish_rw, stageFailed_rw, Job.turns]
          show turnsOf u.rw.queue + 1 ≤ _
          omega
        · refine .inr ?_
          simp only [finish_rw, commitFailed_rw, Job.turns]
          split
          · show turnsOf (u.rw.queue ++ [Job.abortClean r.port]) + 1 ≤ _
            rw [turnsOf_append]
            simp [turnsOf, Job.turns]
          · show turnsOf u.rw.queue + 1 ≤ _
            omega
      · refine .inl (goClaim_cur _ _ _ ?_)
        unfold busy
        simp [modJob]
  | removal p part key txn l => exact .inl (goProgram_cur _ _ _ _ _ hb)
  | complete p part txn ds =>
    simp only [startJob, promoteFrom]
    split
    · exact .inl (goMemberLive_cur _ _ _ _ _ hb)
    · simp only [checkPromoted]
      split
      · exact .inl (goMemberLive_cur _ _ _ _ _ hb)
      · simp only [retireCommit]
        split
        · exact .inl (goProgram_cur _ _ _ _ _ hb)
        · simp only [endComplete]
          split
          · exact .inl (goClaim_cur _ _ _ hb)
          · refine .inr ?_
            simp only [finish_rw, completeEnded_rw, holdMoves_rw, Job.turns]
            exact Nat.le_refl _
  | abortClean p =>
    simp only [startJob, cleanNext]
    split
    · exact .inl (goAborted_cur _ _ _ hb)
    · split
      · exact .inl (goAborted_cur _ _ _ hb)
      · refine .inr ?_
        simp only [finish_rw, abortCleanEnded_rw, holdMoves_rw, Job.turns]
        exact Nat.le_refl _

theorem takeJobs_busy (fuel : Nat) (u : Units) (h : busy u) : takeJobs fuel u = u := takeJobs_idle u (.inl h) fuel

/-- Fuel for every turn is enough: more changes nothing. -/
theorem takeJobs_enough (fuel : Nat) (u : Units) (h : turnsOf u.rw.queue ≤ fuel) : takeJobs (fuel + 1) u = takeJobs fuel u := by
  induction fuel generalizing u with
  | zero =>
    have : u.rw.queue = [] := by
      cases hq : u.rw.queue with
      | nil => rfl
      | cons j js =>
        rw [hq] at h
        have : 1 ≤ j.turns := by cases j <;> simp [Job.turns]
        simp only [turnsOf, List.map_cons, List.sum_cons] at h
        omega
    exact takeJobs_idle u (.inr this) _
  | succ fuel ih =>
    rw [takeJobs]
    conv => rhs; rw [takeJobs]
    split
    · rename_i j rest hc hq
      rcases startJob_turns j (u.setRw { u.rw with queue := rest }) with hb | ht
      · rw [takeJobs_busy _ _ hb, takeJobs_busy _ _ hb]
      · refine ih _ ?_
        rw [hq] at h
        simp only [turnsOf, List.map_cons, List.sum_cons] at h ht ⊢
        have hr : (u.setRw { u.rw with queue := rest }).rw.queue = rest := rfl
        rw [hr] at ht
        omega
    · rfl

theorem takeJobs_kick (fuel : Nat) (u : Units) (h : turnsOf u.rw.queue ≤ fuel) : takeJobs fuel u = kick u := by
  have go : ∀ k, takeJobs (turnsOf u.rw.queue + k) u = takeJobs (turnsOf u.rw.queue) u := fun k => by
    induction k with
    | zero => rfl
    | succ k ih => rw [← Nat.add_assoc, takeJobs_enough _ _ (Nat.le_add_right _ _), ih]
  have hk : turnsOf u.rw.queue ≤ 2 * u.rw.queue.length + 1 := Nat.le_succ_of_le (turnsOf_le _)
  rw [kick, ← Nat.add_sub_cancel' h, ← Nat.add_sub_cancel' hk, go, go]

/-- A Writer without a job takes the oldest one queued, and goes on behind it when it ends as it is taken (R58). -/
theorem kick_next {u : Units} {j : Job} {rest : List Job} (hc : u.rw.cur = none) (hq : u.rw.queue = j :: rest) :
    kick u = kick (startJob j (u.setRw { u.rw with queue := rest })) := by
  rw [kick, hq, takeJobs, hc, hq]
  dsimp only
  rcases startJob_turns j (u.setRw { u.rw with queue := rest }) with hb | ht
  · rw [takeJobs_busy _ _ hb, kick, takeJobs_busy _ _ hb]
  · refine takeJobs_kick _ _ ?_
    generalize startJob j (u.setRw { u.rw with queue := rest }) = v at ht ⊢
    have hr : (u.setRw { u.rw with queue := rest }).rw.queue = rest := rfl
    have h1 := turnsOf_le rest
    have h2 : j.turns ≤ 2 := by cases j <;> simp [Job.turns]
    rw [hr] at ht
    simp only [List.length_cons]
    omega

end Sys2Proof.Machine
end

