-- ==== Sys2Proof/Laws/Tables.lean ====
section
/-! SUPPORT. What every function of the units leaves of the tables that stay in order (R37, R76, R139, R157, R162). -/

set_option linter.unusedTactic false
set_option linter.unreachableTactic false

namespace Sys2Proof.Machine

/-- What the tables of `Units.Ordered` hold: the entries, the state and partition of each slot, the claim wait queues, the watches
and notices, the partitions of the policy and the images that mount has read. -/
def Units.kept (u : Units) : List Entry × (Port → SlotState × Nat) × List (List Port) × Four NoticePort × List PartEntry
    × List (Nat × Shadow) :=
  (u.iu.entries, fun p => ((u.slot p).state, (u.slot p).part), u.tm.queues, u.nu.ports, u.pu.shadow.parts, u.me.images)

theorem holds_of_kept {s t : Slot} (h1 : t.state = s.state) (h2 : t.part = s.part) (k : Nat) : t.holds k = s.holds k := by
  simp [Slot.holds, h1, h2]

theorem Units.Ordered.of_kept {u v : Units} (h : v.kept = u.kept) (hu : u.Ordered) : v.Ordered := by
  simp only [Units.kept, Prod.mk.injEq] at h
  obtain ⟨he, hs, hq, hn, hp, hi⟩ := h
  have hs' : ∀ p, (v.slot p).state = (u.slot p).state ∧ (v.slot p).part = (u.slot p).part := fun p => by
    have := congrFun hs p; simpa using this
  have hh : ∀ p k, (v.slot p).holds k = (u.slot p).holds k := fun p k => holds_of_kept (hs' p).1 (hs' p).2 k
  have hc : ∀ k, claimQueue k v = claimQueue k u := fun k => by simp [claimQueue, hq]
  have hnp : ∀ p, v.notices p = u.notices p := fun p => by simp [Units.notices, hn]
  refine ⟨he ▸ hu.entries, ⟨?_, ?_, ?_, ?_, ?_, ?_⟩, fun p => hnp p ▸ hu.notices p, hq ▸ hu.queues, hp ▸ hu.policy,
    hi ▸ hu.images⟩
  · intro p q k; rw [hh, hh]; exact hu.claims.single p q k
  · intro k q; rw [hc, (hs' q).1, (hs' q).2]; exact hu.claims.queued k q
  · intro p; rw [hc, (hs' p).1, (hs' p).2]; exact hu.claims.found p
  · intro k; rw [hc]; exact hu.claims.once k
  · intro k; rw [hc]; intro h; obtain ⟨p, hp⟩ := hu.claims.claimed k h; exact ⟨p, by rw [hh]; exact hp⟩
  · intro k; rw [hc]; exact hu.claims.short k

@[simp] theorem kept_setPort (u : Units) (p : Port) (x : MasterPort) : (u.setPort p x).kept = u.kept := rfl
@[simp] theorem kept_modPort (u : Units) (p : Port) (f : MasterPort → MasterPort) : (u.modPort p f).kept = u.kept := rfl
@[simp] theorem kept_setCe (u : Units) (x : CompactionEngine) : (u.setCe x).kept = u.kept := rfl
@[simp] theorem kept_setRw (u : Units) (x : RecordWriter) : (u.setRw x).kept = u.kept := rfl
@[simp] theorem kept_setIu (u : Units) (x : IndexUnit) (h : x.entries = u.iu.entries) : (u.setIu x).kept = u.kept := by
  simp [Units.kept, h, Units.slot]
@[simp] theorem kept_setPu (u : Units) (x : PolicyUnit) (h : x.shadow.parts = u.pu.shadow.parts) : (u.setPu x).kept = u.kept := by
  simp [Units.kept, h, Units.slot]
@[simp] theorem kept_setMe (u : Units) (x : MountEngine) (h : x.images = u.me.images) : (u.setMe x).kept = u.kept := by
  simp [Units.kept, h, Units.slot]
@[simp] theorem kept_setSlot (u : Units) (p : Port) (x : Slot) (h1 : x.state = (u.slot p).state) (h2 : x.part = (u.slot p).part) :
    (u.setSlot p x).kept = u.kept := by
  simp only [Units.kept, Prod.mk.injEq]
  refine ⟨rfl, ?_, rfl, rfl, rfl, rfl⟩
  funext q
  by_cases hq : p = q
  · subst hq; simp [h1, h2]
  · rw [Units.slot_setSlot_of_ne _ hq]
@[simp] theorem kept_modSlot (u : Units) (p : Port) (f : Slot → Slot) (h1 : (f (u.slot p)).state = (u.slot p).state)
    (h2 : (f (u.slot p)).part = (u.slot p).part) : (u.modSlot p f).kept = u.kept := kept_setSlot u p _ h1 h2

@[simp] theorem kept_present (s : Claimant) (c : Claim) (u : Units) : (present s c u).kept = u.kept := rfl
@[simp] theorem kept_popClaim (u : Units) : (popClaim u).kept = u.kept := rfl
@[simp] theorem kept_post (s : Poster) (d : Recipients) (n : Notice) (u : Units) : (post s d n u).kept = u.kept := rfl
@[simp] theorem kept_postIntegrity (s : Poster) (r : NoticeReason) (a b c : Option Nat) (u : Units) :
    (postIntegrity s r a b c u).kept = u.kept := rfl
@[simp] theorem kept_deliver (p : Port) (o : Posting) (u : Units) : (deliver p o u).kept = u.kept := rfl
@[simp] theorem kept_answer (p : Port) (c : ResultCode) (u : Units) : (answer p c u).kept = u.kept := rfl
@[simp] theorem kept_sendJob (j : Job) (u : Units) : (sendJob j u).kept = u.kept := rfl
@[simp] theorem kept_sendReport (r : ChangeReport) (u : Units) : (sendReport r u).kept = u.kept := rfl
@[simp] theorem kept_countFault (u : Units) : (countFault u).kept = u.kept := rfl
@[simp] theorem kept_followSpaceList (u : Units) : (followSpaceList u).kept = u.kept := rfl
@[simp] theorem kept_leaveSpaceList (p : Port) (u : Units) : (leaveSpaceList p u).kept = u.kept := rfl
@[simp] theorem kept_joinSpaceList (r : RecordJob) (n : Nat) (u : Units) : (joinSpaceList r n u).kept = u.kept := by
  unfold joinSpaceList; dsimp only; split <;> rfl
@[simp] theorem kept_settle (p : Port) (u : Units) : (settle p u).kept = u.kept := by unfold settle; split <;> rfl
@[simp] theorem kept_reachTime (t : Nat) (u : Units) : (reachTime t u).kept = u.kept := rfl
@[simp] theorem kept_dropRetained (n : Nat) (u : Units) : (dropRetained n u).kept = u.kept := rfl
@[simp] theorem kept_retainNumber (n m : Nat) (u : Units) : (retainNumber n m u).kept = u.kept := rfl
@[simp] theorem kept_startLease (p : Port) (u : Units) : (startLease p u).kept = u.kept := kept_modSlot _ _ _ rfl rfl
@[simp] theorem kept_wakeSweep (u : Units) : (wakeSweep u).kept = u.kept := by
  unfold wakeSweep; split
  · rfl
  · split <;> rfl
@[simp] theorem kept_markSuspect (n : Nat) (u : Units) : (markSuspect n u).1.kept = u.kept := rfl
@[simp] theorem kept_compareRun (u : Units) : (compareRun u).kept = u.kept := by unfold compareRun; split <;> rfl
@[simp] theorem kept_compareLow (u : Units) : (compareLow u).kept = u.kept := by
  unfold compareLow; simp only [kept_compareRun]; split
  · split <;> rfl
  · rfl
@[simp] theorem kept_compareRise (u : Units) : (compareRise u).kept = u.kept := by
  unfold compareRise; rw [kept_compareRun]; split <;> rfl
@[simp] theorem kept_tick (u : Units) (n : Nat) : ({ u with clock := n } : Units).kept = u.kept := rfl
@[simp] theorem kept_media (u : Units) (n : Nat) : ({ u with media := n } : Units).kept = u.kept := rfl
@[simp] theorem kept_holdMoves (p : Port) (b : Bool) (u : Units) : (holdMoves p b u).kept = u.kept := kept_modSlot _ _ _ rfl rfl
@[simp] theorem kept_dropWaitingStage (p : Port) (u : Units) : (dropWaitingStage p u).kept = u.kept := by
  unfold dropWaitingStage; split
  · rw [kept_modSlot _ _ _ rfl rfl, kept_leaveSpaceList]
  · rfl
@[simp] theorem kept_sendClean (p : Port) (u : Units) : (sendClean p u).kept = u.kept := by unfold sendClean; split <;> rfl

/-! ## The Compaction Engine -/
@[simp] theorem kept_modCe (f) (u : Units) : (modCe f u).kept = u.kept := rfl
@[simp] theorem kept_engineStep (a) (u : Units) : (engineStep a u).kept = u.kept := rfl
@[simp] theorem kept_engineAsk (a b c) (u : Units) : (engineAsk a b c u).kept = u.kept := rfl
@[simp] theorem kept_engineMark (a b c d) (u : Units) : (engineMark a b c d u).kept = u.kept := rfl
@[simp] theorem kept_engineRead (a b c) (u : Units) : (engineRead a b c u).kept = u.kept := rfl
@[simp] theorem kept_engineClaim (a b) (u : Units) : (engineClaim a b u).kept = u.kept := rfl

@[simp] theorem kept_foldl {α : Type} (f : Units → α → Units) (h : ∀ u x, (f u x).kept = u.kept) (xs : List α) :
    ∀ u, (xs.foldl f u).kept = u.kept := by
  induction xs with
  | nil => intro u; rfl
  | cons x xs ih => intro u; rw [List.foldl_cons, ih, h]
@[simp] theorem kept_writerProgram (seg cell : Nat) (b : List Byte) (u : Units) : (writerProgram seg cell b u).kept = u.kept := rfl
@[simp] theorem kept_engineRequest (seg : Nat) (op : ArrayOp) (u : Units) : (engineRequest seg op u).kept = u.kept := rfl
@[simp] theorem entries_nowFull (iu : IndexUnit) (seg : Nat) : (iu.nowFull seg).entries = iu.entries := by cases iu; rfl
@[simp] theorem kept_nowFull (u : Units) (seg : Nat) : (u.setIu (u.iu.nowFull seg)).kept = u.kept := rfl
@[simp] theorem kept_takeMove (txn key : Nat) (orig copy : Location) (u : Units) :
    (takeMove txn key orig copy u).1.kept = u.kept := by
  unfold takeMove
  split; · rfl
  split; · rfl
  dsimp only
  split; · rfl
  split; · rfl
  exact kept_setSlot _ _ _ rfl rfl
@[simp] theorem kept_engineSuspect (seg : Nat) (u : Units) : (engineSuspect seg u).kept = u.kept := by
  unfold engineSuspect; repeat' (first | rfl | (simp; done) | split | dsimp only)
@[simp] theorem kept_answerOwed (c : ResultCode) (u : Units) : (answerOwed c u).kept = u.kept := by
  unfold answerOwed; rw [kept_modCe]; exact kept_foldl _ (by simp) _ _
-- repeat' (first | rfl | (simp; done) | split | dsimp only)
@[simp] theorem kept_toIdle (u : Units) : (toIdle u).kept = u.kept := by
  unfold toIdle; repeat' (first | rfl | (simp; done) | split | dsimp only)
@[simp] theorem kept_endRun (u : Units) : (endRun u).kept = u.kept := by
  unfold endRun; repeat' (first | rfl | (simp; done) | split | dsimp only)
@[simp] theorem kept_passEnded (u : Units) : (passEnded u).kept = u.kept := by
  unfold passEnded; repeat' (first | rfl | (simp; done) | split | dsimp only)
@[simp] theorem kept_toErase (u : Units) : (toErase u).kept = u.kept := by
  unfold toErase; repeat' (first | rfl | (simp; done) | split | dsimp only)
@[simp] theorem kept_presentErase (attempt : Nat) (u : Units) : (presentErase attempt u).kept = u.kept := by
  unfold presentErase; repeat' (first | rfl | (simp; done) | split | dsimp only)
@[simp] theorem kept_withdrawVictim (u : Units) : (withdrawVictim u).kept = u.kept := by
  unfold withdrawVictim; repeat' (first | rfl | (simp; done) | split | dsimp only)
@[simp] theorem kept_prepareVictim (u : Units) : (prepareVictim u).kept = u.kept := by
  unfold prepareVictim; repeat' (first | rfl | (simp; done) | split | dsimp only)
@[simp] theorem kept_toSweep (u : Units) : (toSweep u).kept = u.kept := by
  unfold toSweep; repeat' (first | rfl | (simp; done) | split | dsimp only)
@[simp] theorem kept_scanNext (u : Units) : (scanNext u).kept = u.kept := by
  unfold scanNext; repeat' (first | rfl | (simp; done) | split | dsimp only)
@[simp] theorem kept_waitInSweep (u : Units) : (waitInSweep u).kept = u.kept := by
  unfold waitInSweep; repeat' (first | rfl | (simp; done) | split | dsimp only)
@[simp] theorem kept_sweepNext (u : Units) : (sweepNext u).kept = u.kept := by
  unfold sweepNext; repeat' (first | rfl | (simp; done) | split | dsimp only)
@[simp] theorem kept_recordDone (cells : Nat) (u : Units) : (recordDone cells u).kept = u.kept := by
  unfold recordDone; repeat' (first | rfl | (simp; done) | split | dsimp only)
@[simp] theorem kept_presentLoss (part key : Nat) (l : Location) (u : Units) : (presentLoss part key l u).kept = u.kept := by
  unfold presentLoss; repeat' (first | rfl | (simp; done) | split | dsimp only)
@[simp] theorem kept_noteUnread (part key : Option Nat) (l : Location) (u : Units) : (noteUnread part key l u).kept = u.kept := by
  unfold noteUnread; repeat' (first | rfl | (simp; done) | split | dsimp only)
@[simp] theorem kept_sweepLost (n : Named) (u : Units) : (sweepLost n u).kept = u.kept := by
  unfold sweepLost; repeat' (first | rfl | (simp; done) | split | dsimp only)
@[simp] theorem kept_noteHeld (named : List Named) (l : Location) (u : Units) : (noteHeld named l u).kept = u.kept := by
  unfold noteHeld; repeat' (first | rfl | (simp; done) | split | dsimp only)
@[simp] theorem kept_scanLost (h : Header) (u : Units) : (scanLost h u).kept = u.kept := by
  unfold scanLost; repeat' (first | rfl | (simp; done) | split | dsimp only)
@[simp] theorem kept_recordLost (h : Header) (u : Units) : (recordLost h u).kept = u.kept := by
  unfold recordLost; repeat' (first | rfl | (simp; done) | split | dsimp only)
@[simp] theorem kept_passOver (h : Header) (bytes : List Byte) (u : Units) : (passOver h bytes u).kept = u.kept := by
  unfold passOver; repeat' (first | rfl | (simp; done) | split | dsimp only)
@[simp] theorem kept_recordSkipped (h : Header) (u : Units) : (recordSkipped h u).kept = u.kept := by
  unfold recordSkipped; repeat' (first | rfl | (simp; done) | split | dsimp only)
@[simp] theorem kept_decideRecord (h : Header) (u : Units) : (decideRecord h u).kept = u.kept := by
  unfold decideRecord; repeat' (first | rfl | (simp; done) | split | dsimp only)
@[simp] theorem kept_readBody (h : Header) (basis : Basis) (u : Units) : (readBody h basis u).kept = u.kept := by
  unfold readBody; repeat' (first | rfl | (simp; done) | split | dsimp only)
@[simp] theorem kept_copyAllocate (c : Copy) (u : Units) : (copyAllocate c u).kept = u.kept := by
  unfold copyAllocate; repeat' (first | rfl | (simp; done) | split | dsimp only)
@[simp] theorem kept_engineHead (h : HeadStep) (u : Units) : (engineHead h u).kept = u.kept := by
  unfold engineHead; repeat' (first | rfl | (simp; done) | split | dsimp only)
@[simp] theorem kept_abandonPass (u : Units) : (abandonPass u).kept = u.kept := by
  unfold abandonPass; repeat' (first | rfl | (simp; done) | split | dsimp only)
@[simp] theorem kept_followCopyAllocate (rest : AllocRest) (u : Units) : (followCopyAllocate rest u).kept = u.kept := by
  unfold followCopyAllocate; repeat' (first | rfl | (simp; done) | split | dsimp only)
@[simp] theorem kept_copyMark (st : CStep) (b : Byte) (c : Copy) (u : Units) : (copyMark st b c u).kept = u.kept := by
  unfold copyMark; repeat' (first | rfl | (simp; done) | split | dsimp only)
@[simp] theorem kept_copyPayload (c : Copy) (i : Nat) (u : Units) : (copyPayload c i u).kept = u.kept := by
  unfold copyPayload; repeat' (first | rfl | (simp; done) | split | dsimp only)
@[simp] theorem kept_copyRetire (why : CRetire) (mark tries : Nat) (c : Copy) (u : Units) :
    (copyRetire why mark tries c u).kept = u.kept := by
  unfold copyRetire; repeat' (first | rfl | (simp; done) | split | dsimp only)
@[simp] theorem kept_handOver (c : Copy) (u : Units) : (handOver c u).kept = u.kept := by
  unfold handOver; repeat' (first | rfl | (simp; done) | split | dsimp only)
@[simp] theorem kept_engineReport (what : CReport) (l : Location) (c : Copy) (u : Units) :
    (engineReport what l c u).kept = u.kept := by
  unfold engineReport; repeat' (first | rfl | (simp; done) | split | dsimp only)
@[simp] theorem kept_copySwitched (moved : Bool) (u : Units) : (copySwitched moved u).kept = u.kept := by
  unfold copySwitched; repeat' (first | rfl | (simp; done) | split | dsimp only)
@[simp] theorem kept_moveMember (u : Units) : (moveMember u).kept = u.kept := by
  unfold moveMember; repeat' (first | rfl | (simp; done) | split | dsimp only)
@[simp] theorem kept_failCopy (c : Copy) (u : Units) : (failCopy c u).kept = u.kept := by
  unfold failCopy; repeat' (first | rfl | (simp; done) | split | dsimp only)
@[simp] theorem kept_copyRetired (why : CRetire) (c : Copy) (u : Units) : (copyRetired why c u).kept = u.kept := by
  unfold copyRetired; repeat' (first | rfl | (simp; done) | split | dsimp only)
@[simp] theorem kept_copyRetireDone (ok : Bool) (why : CRetire) (mark tries : Nat) (c : Copy) (u : Units) :
    (copyRetireDone ok why mark tries c u).kept = u.kept := by
  unfold copyRetireDone; repeat' (first | rfl | (simp; done) | split | dsimp only)
@[simp] theorem kept_copyAgain (c : Copy) (u : Units) : (copyAgain c u).kept = u.kept := by
  unfold copyAgain; repeat' (first | rfl | (simp; done) | split | dsimp only)
@[simp] theorem kept_engineHeadDone (ok : Bool) (h : HeadStep) (u : Units) : (engineHeadDone ok h u).kept = u.kept := by
  unfold engineHeadDone; repeat' (first | rfl | (simp; done) | split | dsimp only)
@[simp] theorem kept_copyBuildDone (ok : Bool) (st : CStep) (c : Copy) (u : Units) : (copyBuildDone ok st c u).kept = u.kept := by
  unfold copyBuildDone; repeat' (first | rfl | (simp; done) | split | dsimp only)
@[simp] theorem kept_engineProgramDone (ok : Bool) (u : Units) : (engineProgramDone ok u).kept = u.kept := by
  unfold engineProgramDone; repeat' (first | rfl | (simp; done) | split | dsimp only)
@[simp] theorem kept_engineEraseDone (ok : Bool) (u : Units) : (engineEraseDone ok u).kept = u.kept := by
  unfold engineEraseDone; repeat' (first | rfl | (simp; done) | split | dsimp only)
@[simp] theorem kept_engineReadDone (bytes : List Byte) (u : Units) : (engineReadDone bytes u).kept = u.kept := by
  unfold engineReadDone; repeat' (first | rfl | (simp; done) | split | dsimp only)
@[simp] theorem kept_engineAnswered (yes : Bool) (u : Units) : (engineAnswered yes u).kept = u.kept := by
  unfold engineAnswered; repeat' (first | rfl | (simp; done) | split | dsimp only)
@[simp] theorem kept_askMember (u : Units) : (askMember u).kept = u.kept := by
  unfold askMember; repeat' (first | rfl | (simp; done) | split | dsimp only)
@[simp] theorem kept_engineAllocated (close : Option Nat) (rest : AllocRest) (u : Units) :
    (engineAllocated close rest u).kept = u.kept := by
  unfold engineAllocated; repeat' (first | rfl | (simp; done) | split | dsimp only)
@[simp] theorem kept_engineAgain (u : Units) : (engineAgain u).kept = u.kept := by
  unfold engineAgain; repeat' (first | rfl | (simp; done) | split | dsimp only)
@[simp] theorem kept_engineClosed (fresh : Bool) (u : Units) : (engineClosed fresh u).kept = u.kept := by
  unfold engineClosed; repeat' (first | rfl | (simp; done) | split | dsimp only)
@[simp] theorem kept_engineReported (u : Units) : (engineReported u).kept = u.kept := by
  unfold engineReported; repeat' (first | rfl | (simp; done) | split | dsimp only)
@[simp] theorem kept_engineMarked (u : Units) : (engineMarked u).kept = u.kept := by
  unfold engineMarked; repeat' (first | rfl | (simp; done) | split | dsimp only)
@[simp] theorem kept_engineSwept (named : List Named) (u : Units) : (engineSwept named u).kept = u.kept := by
  unfold engineSwept; repeat' (first | rfl | (simp; done) | split | dsimp only)
@[simp] theorem kept_engineLost (part key : Nat) (removed : Bool) (u : Units) : (engineLost part key removed u).kept = u.kept := by
  unfold engineLost; repeat' (first | rfl | (simp; done) | split | dsimp only)
@[simp] theorem kept_engineErased (u : Units) : (engineErased u).kept = u.kept := by
  unfold engineErased; repeat' (first | rfl | (simp; done) | split | dsimp only)
@[simp] theorem kept_engineNoVictim (u : Units) : (engineNoVictim u).kept = u.kept := by
  unfold engineNoVictim; repeat' (first | rfl | (simp; done) | split | dsimp only)
@[simp] theorem kept_startSelect (u : Units) : (startSelect u).kept = u.kept := by
  unfold startSelect; repeat' (first | rfl | (simp; done) | split | dsimp only)
@[simp] theorem kept_startCopy (u : Units) : (startCopy u).kept = u.kept := by
  unfold startCopy; repeat' (first | rfl | (simp; done) | split | dsimp only)
@[simp] theorem kept_startEraseOnly (seg : Nat) (rest : List Nat) (u : Units) : (startEraseOnly seg rest u).kept = u.kept := by
  unfold startEraseOnly; repeat' (first | rfl | (simp; done) | split | dsimp only)
@[simp] theorem kept_startPass (u : Units) : (startPass u).kept = u.kept := by
  unfold startPass; repeat' (first | rfl | (simp; done) | split | dsimp only)
@[simp] theorem kept_giveClearance (u : Units) : (giveClearance u).kept = u.kept := by
  unfold giveClearance; repeat' (first | rfl | (simp; done) | split | dsimp only)
@[simp] theorem kept_eraseVictim (u : Units) : (eraseVictim u).kept = u.kept := by
  unfold eraseVictim; repeat' (first | rfl | (simp; done) | split | dsimp only)
@[simp] theorem kept_takeReclaim (p : Port) (u : Units) : (takeReclaim p u).kept = u.kept := by
  unfold takeReclaim; repeat' (first | rfl | (simp; done) | split | dsimp only)
@[simp] theorem kept_dropReclaim (p : Port) (u : Units) : (dropReclaim p u).kept = u.kept := by
  unfold dropReclaim; repeat' (first | rfl | (simp; done) | split | dsimp only)

/-! ## The Notice Unit -/

/-! ## The Policy Unit -/
@[simp] theorem kept_setDefaultView (p : Port) (u : Units) : (setDefaultView p u).kept = u.kept := by
  unfold setDefaultView; repeat' (first | rfl | (simp; done) | split | dsimp only)
@[simp] theorem kept_setLock (part : Nat) (l : LockLevel) (u : Units) : (setLock part l u).kept = u.kept := by
  unfold setLock; repeat' (first | rfl | (simp; done) | split | dsimp only)
@[simp] theorem kept_freezePart (p : Port) (part : Nat) (u : Units) : (freezePart p part u).kept = u.kept := by
  unfold freezePart; repeat' (first | rfl | (simp; done) | split | dsimp only)
@[simp] theorem kept_bindSlot (p : Port) (slot target : Byte) (u : Units) : (bindSlot p slot target u).1.kept = u.kept := by
  unfold bindSlot; repeat' (first | rfl | (simp; done) | split | dsimp only)
@[simp] theorem kept_loadPolicy (p : Port) (image : List Byte) (u : Units) : (loadPolicy p image u).1.kept = u.kept := by
  unfold loadPolicy; repeat' (first | rfl | (simp; done) | split | dsimp only)
@[simp] theorem kept_discardPolicy (p : Port) (u : Units) : (discardPolicy p u).1.kept = u.kept := by
  unfold discardPolicy; repeat' (first | rfl | (simp; done) | split | dsimp only)
@[simp] theorem kept_policyRequest (seg : Nat) (op : ArrayOp) (u : Units) : (policyRequest seg op u).kept = u.kept := by
  unfold policyRequest; repeat' (first | rfl | (simp; done) | split | dsimp only)
@[simp] theorem kept_setSession (x : Session) (u : Units) : (setSession x u).kept = u.kept := by
  unfold setSession; repeat' (first | rfl | (simp; done) | split | dsimp only)
@[simp] theorem kept_commitPolicy (p : Port) (u : Units) : (commitPolicy p u).1.kept = u.kept := by
  unfold commitPolicy; repeat' (first | rfl | (simp; done) | split | dsimp only)
@[simp] theorem kept_goSequence (p : Port) (staged : List Byte) (w : WriteSeq) (u : Units) :
    (goSequence p staged w u).kept = u.kept := by
  unfold goSequence; repeat' (first | rfl | (simp; done) | split | dsimp only)
@[simp] theorem kept_failSequence (p : Port) (staged : List Byte) (w : WriteSeq) (u : Units) :
    (failSequence p staged w u).kept = u.kept := by
  unfold failSequence; repeat' (first | rfl | (simp; done) | split | dsimp only)
@[simp] theorem kept_resetPolicy (p : Port) (u : Units) : (resetPolicy p u).kept = u.kept := by
  unfold resetPolicy; repeat' (first | rfl | (simp; done) | split | dsimp only)

/-! ## The Transaction Manager -/
@[simp] theorem kept_abortCleanEnded (p : Port) (u : Units) : (abortCleanEnded p u).kept = u.kept := by
  unfold abortCleanEnded; repeat' (first | rfl | (simp; done) | split | dsimp only)
@[simp] theorem kept_setLockEvents (es : List LockEvent) (u : Units) : (setLockEvents es u).kept = u.kept := by
  unfold setLockEvents; repeat' (first | rfl | (simp; done) | split | dsimp only)
@[simp] theorem kept_setRevocations (rs : List Revocation) (u : Units) : (setRevocations rs u).kept = u.kept := by
  unfold setRevocations; repeat' (first | rfl | (simp; done) | split | dsimp only)
@[simp] theorem kept_stageCharged (p : Port) (key : Nat) (a : IndexUnit.ChargeAnswer) (u : Units) :
    (stageCharged p key a u).kept = u.kept := by
  unfold stageCharged; repeat' (first | rfl | (simp; done) | split | dsimp only)
@[simp] theorem kept_stageEnded (p : Port) (o : Posting) (u : Units) : (stageEnded p o u).kept = u.kept := by
  unfold stageEnded; repeat' (first | rfl | (simp; done) | split | dsimp only)
@[simp] theorem kept_stageFailed (p : Port) (key : Nat) (c : ResultCode) (u : Units) : (stageFailed p key c u).kept = u.kept := by
  unfold stageFailed; repeat' (first | rfl | (simp; done) | split | dsimp only)
@[simp] theorem kept_takeMember (p : Port) (m : Member) (u : Units) : (takeMember p m u).1.kept = u.kept := by
  unfold takeMember; repeat' (first | rfl | (simp; done) | split | dsimp only)
@[simp] theorem kept_warnLease (p : Port) (u : Units) : (warnLease p u).kept = u.kept := by
  unfold warnLease; repeat' (first | rfl | (simp; done) | split | dsimp only)
@[simp] theorem kept_endWaitingStage (p : Port) (u : Units) : (endWaitingStage p u).kept = u.kept := by
  unfold endWaitingStage; repeat' (first | rfl | (simp; done) | split | dsimp only)

/-! ## The Index Unit -/
@[simp] theorem entries_takePin (iu : IndexUnit) (n : Nat) : (iu.takePin n).entries = iu.entries := by cases iu; rfl
@[simp] theorem entries_dropPin (iu : IndexUnit) (n : Nat) : (iu.dropPin n).entries = iu.entries := by cases iu; rfl
@[simp] theorem entries_kill (iu : IndexUnit) (l : Location) (n : Nat) : (iu.kill l n).entries = iu.entries := by cases iu; rfl
@[simp] theorem entries_modSeg (iu : IndexUnit) (n : Nat) (f : SegEntry → SegEntry) :
    (iu.modSeg n f).entries = iu.entries := by cases iu; rfl
@[simp] theorem entries_setHead (iu : IndexUnit) (b : Bool) (h : Option Nat) : (iu.setHead b h).entries = iu.entries := by
  unfold IndexUnit.setHead; split <;> rfl
@[simp] theorem entries_leaveRole (iu : IndexUnit) (n : Nat) : (iu.leaveRole n).entries = iu.entries := by cases iu; rfl
@[simp] theorem entries_takeOpened (iu : IndexUnit) (b : Bool) (h : NewHead) : (iu.takeOpened b h).entries = iu.entries := by
  simp [IndexUnit.takeOpened]
@[simp] theorem entries_takeClose (iu : IndexUnit) (b : Bool) (n : Nat) (r : CloseReason) :
    (iu.takeClose b n r).entries = iu.entries := by unfold IndexUnit.takeClose; split <;> simp
@[simp] theorem entries_takePrepared (iu : IndexUnit) (n c : Nat) : (iu.takePrepared n c).entries = iu.entries := by cases iu; rfl
@[simp] theorem entries_takeReclaiming (iu : IndexUnit) (n : Nat) : (iu.takeReclaiming n).entries = iu.entries := by cases iu; rfl
@[simp] theorem entries_takeErased (iu : IndexUnit) (n : Nat) : (iu.takeErased n).entries = iu.entries := by cases iu; rfl
@[simp] theorem entries_openHead (iu : IndexUnit) (b : Bool) : (iu.openHead b).1.entries = iu.entries := by
  unfold IndexUnit.openHead
  generalize (if b = true then 0 else 2) = k
  split
  · split
    · rename_i h; unfold IndexUnit.takeHead at h; split at h
      · simp at h
      · simp only [Option.some.injEq] at h; subst h; rfl
    · rfl
  · rfl
@[simp] theorem entries_takeAllocate (iu : IndexUnit) (b : Bool) (n : Nat) : (iu.takeAllocate b n).1.entries = iu.entries := by
  unfold IndexUnit.takeAllocate; split
  · dsimp only; split <;> simp
  · simp
@[simp] theorem entries_chargeWrite (iu : IndexUnit) (p : Port) (b : Bool) (k l c q : Nat) :
    (iu.chargeWrite p b k l c q).1.entries = iu.entries := by
  unfold IndexUnit.chargeWrite; dsimp only; split
  · rfl
  · split <;> rfl
@[simp] theorem entries_takeCharge (iu : IndexUnit) (p : Port) (k l : Nat) (o : ChargeOp) (c q : Nat) (d : Option Displaced) :
    (iu.takeCharge p k l o c q d).1.entries = iu.entries := by
  unfold IndexUnit.takeCharge; split
  · simp
  · simp
  · split <;> rfl
  · split
    · rfl
    · split <;> rfl
theorem entries_killAll (ms : List Member) : ∀ iu : IndexUnit,
    (ms.foldl (fun iu m => iu.kill m.loc m.cells) iu).entries = iu.entries := by
  induction ms with
  | nil => intro iu; rfl
  | cons m ms ih => intro iu; rw [List.foldl_cons, ih]; rfl
@[simp] theorem entries_takeRelease (iu : IndexUnit) (w : ReleaseWhat) (ms : List Member) :
    (iu.takeRelease w ms).entries = iu.entries := by
  unfold IndexUnit.takeRelease; split
  · rfl
  · rfl
  · rfl
  · rw [entries_killAll]
@[simp] theorem entries_takeCommitReport (iu : IndexUnit) (n : Nat) (l : Location) :
    (iu.takeCommitReport n l).1.entries = iu.entries := by
  unfold IndexUnit.takeCommitReport; split
  · rfl
  · split <;> rfl
@[simp] theorem kept_modMe (f : MountEngine → MountEngine) (u : Units) (h : (f u.me).images = u.me.images) :
    (modMe f u).kept = u.kept := kept_setMe u _ h
@[simp] theorem kept_startPolicyCommit (p : Port) (u : Units) : (startPolicyCommit p u).kept = u.kept := by
  unfold startPolicyCommit; split
  · rename_i h; rw [kept_answer, ← kept_commitPolicy p u, h]
  · rename_i h; rw [← kept_commitPolicy p u, h]
@[simp] theorem kept_withdrawClaims (p : Port) (u : Units) : (withdrawClaims p u).kept = u.kept := by
  unfold withdrawClaims; dsimp only; split
  · split
    · rw [kept_sendJob, kept_modSlot _ _ _ rfl rfl]; exact kept_setIu _ _ rfl
    · rw [kept_modSlot _ _ _ rfl rfl]; exact kept_setIu _ _ rfl
  · exact kept_setIu _ _ rfl
@[simp] theorem kept_mountNotices (u : Units) : (mountNotices u).kept = u.kept := by
  unfold mountNotices; dsimp only
  rw [kept_foldl _ (fun u f => kept_postIntegrity _ _ _ _ _ u)]; split <;> rfl

/-! ## The Record Writer -/
@[simp] theorem kept_goStep (st : WStep) (u : Units) : (goStep st u).kept = u.kept := by
  unfold goStep; repeat' (first | rfl | (simp; done) | split | dsimp only)
@[simp] theorem kept_modJob (f : CurJob → CurJob) (u : Units) : (modJob f u).kept = u.kept := by
  unfold modJob; repeat' (first | rfl | (simp; done) | split | dsimp only)
@[simp] theorem kept_goProgram (st : WStep) (seg cell : Nat) (bytes : List Byte) (u : Units) :
    (goProgram st seg cell bytes u).kept = u.kept := by
  unfold goProgram; repeat' (first | rfl | (simp; done) | split | dsimp only)
@[simp] theorem kept_goClaim (st : WStep) (c : Claim) (u : Units) : (goClaim st c u).kept = u.kept := by
  unfold goClaim; repeat' (first | rfl | (simp; done) | split | dsimp only)
@[simp] theorem kept_finish (p : Port) (u : Units) : (finish p u).kept = u.kept := by
  unfold finish; repeat' (first | rfl | (simp; done) | split | dsimp only)
@[simp] theorem kept_writerSuspect (seg : Nat) (u : Units) : (writerSuspect seg u).kept = u.kept := by
  unfold writerSuspect; repeat' (first | rfl | (simp; done) | split | dsimp only)
@[simp] theorem kept_goHead (h : HeadStep) (u : Units) : (goHead h u).kept = u.kept := by
  unfold goHead; repeat' (first | rfl | (simp; done) | split | dsimp only)
@[simp] theorem kept_goAllocate (r : RecordJob) (u : Units) : (goAllocate r u).kept = u.kept := by
  unfold goAllocate; repeat' (first | rfl | (simp; done) | split | dsimp only)
@[simp] theorem kept_goRetire (why : RetireWhy) (l : Location) (mark tries : Nat) (u : Units) :
    (goRetire why l mark tries u).kept = u.kept := by
  unfold goRetire; repeat' (first | rfl | (simp; done) | split | dsimp only)
@[simp] theorem kept_goMemberLive (i : Nat) (l : Location) (tries : Nat) (again : Bool) (u : Units) :
    (goMemberLive i l tries again u).kept = u.kept := by
  unfold goMemberLive; repeat' (first | rfl | (simp; done) | split | dsimp only)
@[simp] theorem kept_goHeader (r : RecordJob) (l : Location) (u : Units) : (goHeader r l u).kept = u.kept := by
  unfold goHeader; repeat' (first | rfl | (simp; done) | split | dsimp only)
@[simp] theorem kept_goPayload (r : RecordJob) (l : Location) (i : Nat) (u : Units) : (goPayload r l i u).kept = u.kept := by
  unfold goPayload; repeat' (first | rfl | (simp; done) | split | dsimp only)
@[simp] theorem kept_goWritten (l : Location) (u : Units) : (goWritten l u).kept = u.kept := by
  unfold goWritten; repeat' (first | rfl | (simp; done) | split | dsimp only)
@[simp] theorem kept_goLive (l : Location) (tries : Nat) (u : Units) : (goLive l tries u).kept = u.kept := by
  unfold goLive; repeat' (first | rfl | (simp; done) | split | dsimp only)
@[simp] theorem kept_goCommitLive (l : Location) (u : Units) : (goCommitLive l u).kept = u.kept := by
  unfold goCommitLive; repeat' (first | rfl | (simp; done) | split | dsimp only)
@[simp] theorem kept_goSwitch (r : RecordJob) (l : Location) (short : Bool) (u : Units) : (goSwitch r l short u).kept = u.kept := by
  unfold goSwitch; repeat' (first | rfl | (simp; done) | split | dsimp only)
@[simp] theorem kept_recordEnded (r : RecordJob) (u : Units) : (recordEnded r u).kept = u.kept := by
  unfold recordEnded; repeat' (first | rfl | (simp; done) | split | dsimp only)
@[simp] theorem kept_removalEnded (p : Port) (u : Units) : (removalEnded p u).kept = u.kept := by
  unfold removalEnded; repeat' (first | rfl | (simp; done) | split | dsimp only)
@[simp] theorem kept_waitForSpace (r : RecordJob) (u : Units) : (waitForSpace r u).kept = u.kept := by
  unfold waitForSpace; repeat' (first | rfl | (simp; done) | split | dsimp only)
@[simp] theorem kept_followAllocate (rest : AllocRest) (u : Units) : (followAllocate rest u).kept = u.kept := by
  unfold followAllocate; repeat' (first | rfl | (simp; done) | split | dsimp only)
@[simp] theorem kept_sealMember (p : Port) (i : Nat) (u : Units) : (sealMember p i u).kept = u.kept := by
  unfold sealMember; repeat' (first | rfl | (simp; done) | split | dsimp only)
@[simp] theorem kept_goAborted (i : Nat) (l : Location) (u : Units) : (goAborted i l u).kept = u.kept := by
  unfold goAborted; repeat' (first | rfl | (simp; done) | split | dsimp only)
@[simp] theorem kept_cleanNext (p : Port) (u : Units) : (cleanNext p u).kept = u.kept := by
  unfold cleanNext; repeat' (first | rfl | (simp; done) | split | dsimp only)
@[simp] theorem kept_failBuild (r : RecordJob) (l : Location) (u : Units) : (failBuild r l u).kept = u.kept := by
  unfold failBuild; repeat' (first | rfl | (simp; done) | split | dsimp only)
@[simp] theorem kept_retired (why : RetireWhy) (l : Location) (ok : Bool) (c : CurJob) (u : Units) :
    (retired why l ok c u).kept = u.kept := by
  unfold retired; repeat' (first | rfl | (simp; done) | split | dsimp only)
@[simp] theorem kept_headDone (ok : Bool) (h : HeadStep) (u : Units) : (headDone ok h u).kept = u.kept := by
  unfold headDone; repeat' (first | rfl | (simp; done) | split | dsimp only)
@[simp] theorem kept_closedSuspect (ok : Bool) (seg : Nat) (u : Units) : (closedSuspect ok seg u).kept = u.kept := by
  unfold closedSuspect; repeat' (first | rfl | (simp; done) | split | dsimp only)
@[simp] theorem kept_goClosing (st : WStep) (seg : Nat) (u : Units) : (goClosing st seg u).kept = u.kept := by
  unfold goClosing; repeat' (first | rfl | (simp; done) | split | dsimp only)
@[simp] theorem kept_leaveForSpace (rest : AllocRest) (u : Units) : (leaveForSpace rest u).kept = u.kept := by
  unfold leaveForSpace; repeat' (first | rfl | (simp; done) | split | dsimp only)
@[simp] theorem kept_writerAllocated (close : Option Nat) (rest : AllocRest) (u : Units) :
    (writerAllocated close rest u).kept = u.kept := by
  unfold writerAllocated; repeat' (first | rfl | (simp; done) | split | dsimp only)
@[simp] theorem kept_writerAgain (u : Units) : (writerAgain u).kept = u.kept := by
  unfold writerAgain; repeat' (first | rfl | (simp; done) | split | dsimp only)
@[simp] theorem kept_writerSwitched (old : Option Displaced) (u : Units) : (writerSwitched old u).kept = u.kept := by
  unfold writerSwitched; repeat' (first | rfl | (simp; done) | split | dsimp only)
@[simp] theorem kept_writerCommitted (displaced : List (Option Displaced)) (u : Units) :
    (writerCommitted displaced u).kept = u.kept := by
  unfold writerCommitted; repeat' (first | rfl | (simp; done) | split | dsimp only)
@[simp] theorem kept_writerClosed (fresh : Bool) (u : Units) : (writerClosed fresh u).kept = u.kept := by
  unfold writerClosed; repeat' (first | rfl | (simp; done) | split | dsimp only)
@[simp] theorem kept_writerReleased (u : Units) : (writerReleased u).kept = u.kept := by
  unfold writerReleased; repeat' (first | rfl | (simp; done) | split | dsimp only)
@[simp] theorem kept_reportMember (u : Units) : (reportMember u).kept = u.kept := by
  unfold reportMember; repeat' (first | rfl | (simp; done) | split | dsimp only)
@[simp] theorem kept_writerPresented (u : Units) : (writerPresented u).kept = u.kept := by
  unfold writerPresented; repeat' (first | rfl | (simp; done) | split | dsimp only)

/-! ## The Mount Engine -/
@[simp] theorem kept_mountAsk (st : MountStep) (seg : Nat) (op : ArrayOp) (u : Units) : (mountAsk st seg op u).kept = u.kept := by
  unfold mountAsk; repeat' (first | rfl | (simp; done) | split | dsimp only)
@[simp] theorem kept_mountFault (part key seg cell : Option Nat) (u : Units) : (mountFault part key seg cell u).kept = u.kept := by
  unfold mountFault; repeat' (first | rfl | (simp; done) | split | dsimp only)
@[simp] theorem kept_mountDiscard (u : Units) : (mountDiscard u).kept = u.kept := by
  unfold mountDiscard; repeat' (first | rfl | (simp; done) | split | dsimp only)
@[simp] theorem kept_groupCounts (group : Nat) (u : Units) : (groupCounts group u).kept = u.kept := by
  unfold groupCounts; repeat' (first | rfl | (simp; done) | split | dsimp only)
@[simp] theorem kept_classified (seg : Nat) (cls : SegState) (bytes : List Byte) (u : Units) :
    (classified seg cls bytes u).kept = u.kept := by
  unfold classified; repeat' (first | rfl | (simp; done) | split | dsimp only)
@[simp] theorem kept_addCandidate (seg cell : Nat) (h : Header) (payload : Bool) (u : Units) :
    (addCandidate seg cell h payload u).kept = u.kept := by
  unfold addCandidate; repeat' (first | rfl | (simp; done) | split | dsimp only)
@[simp] theorem kept_surveyHeader (h : Header) (u : Units) : (surveyHeader h u).kept = u.kept := by
  unfold surveyHeader; repeat' (first | rfl | (simp; done) | split | dsimp only)
@[simp] theorem kept_giveUp (c : Candidate) (u : Units) : (giveUp c u).kept = u.kept := by
  unfold giveUp; repeat' (first | rfl | (simp; done) | split | dsimp only)
@[simp] theorem kept_retireShort (c : Candidate) (u : Units) : (retireShort c u).kept = u.kept := by
  unfold retireShort; repeat' (first | rfl | (simp; done) | split | dsimp only)

/-! ## The ports -/
@[simp] theorem kept_postResult (p : Port) (u : Units) : (postResult p u).kept = u.kept := by
  unfold postResult; repeat' (first | rfl | (simp; done) | split | dsimp only)
@[simp] theorem kept_setWork (p : Port) (w : Work) (u : Units) : (setWork p w u).kept = u.kept := by
  unfold setWork; repeat' (first | rfl | (simp; done) | split | dsimp only)
@[simp] theorem kept_goRead (p : Port) (r : ReadWork) (u : Units) : (goRead p r u).kept = u.kept := by
  unfold goRead; repeat' (first | rfl | (simp; done) | split | dsimp only)
@[simp] theorem kept_startLookup (p : Port) (forRead : Bool) (part key : Nat) (u : Units) :
    (startLookup p forRead part key u).kept = u.kept := by
  unfold startLookup; repeat' (first | rfl | (simp; done) | split | dsimp only)
@[simp] theorem kept_portLooked (p : Port) (forRead : Bool) (e : Option Entry) (u : Units) :
    (portLooked p forRead e u).kept = u.kept := by
  unfold portLooked; repeat' (first | rfl | (simp; done) | split | dsimp only)
@[simp] theorem kept_portPinned (p : Port) (u : Units) : (portPinned p u).kept = u.kept := by
  unfold portPinned; repeat' (first | rfl | (simp; done) | split | dsimp only)
@[simp] theorem kept_portReadDone (p : Port) (bytes : List Byte) (u : Units) : (portReadDone p bytes u).kept = u.kept := by
  unfold portReadDone; repeat' (first | rfl | (simp; done) | split | dsimp only)
@[simp] theorem kept_staleReadDone (p : Port) (r : Request) (u : Units) : (staleReadDone p r u).kept = u.kept := by
  unfold staleReadDone; repeat' (first | rfl | (simp; done) | split | dsimp only)
@[simp] theorem kept_askRange (p : Port) (part : Nat) (after : Option Nat) (ms : List Member) (found : List ListEntry) (u : Units) :
    (askRange p part after ms found u).kept = u.kept := by
  unfold askRange; repeat' (first | rfl | (simp; done) | split | dsimp only)
@[simp] theorem kept_startList (p : Port) (part : Nat) (after : Option Nat) (u : Units) :
    (startList p part after u).kept = u.kept := by
  unfold startList; repeat' (first | rfl | (simp; done) | split | dsimp only)
@[simp] theorem kept_portRanged (p : Port) (es : List Entry) (more : Bool) (u : Units) :
    (portRanged p es more u).kept = u.kept := by
  unfold portRanged; repeat' (first | rfl | (simp; done) | split | dsimp only)
@[simp] theorem kept_startSingle (p : Port) (op : ChargeOp) (part key cells : Nat) (u : Units) :
    (startSingle p op part key cells u).kept = u.kept := by
  unfold startSingle; repeat' (first | rfl | (simp; done) | split | dsimp only)
@[simp] theorem kept_portCharged (p : Port) (a : IndexUnit.ChargeAnswer) (u : Units) : (portCharged p a u).kept = u.kept := by
  unfold portCharged; repeat' (first | rfl | (simp; done) | split | dsimp only)
@[simp] theorem kept_collide (p : Port) (u : Units) : (collide p u).kept = u.kept := by
  unfold collide; repeat' (first | rfl | (simp; done) | split | dsimp only)
@[simp] theorem kept_dropRead (p : Port) (u : Units) : (dropRead p u).kept = u.kept := by
  unfold dropRead; repeat' (first | rfl | (simp; done) | split | dsimp only)
@[simp] theorem kept_dropWaitingSingle (p : Port) (u : Units) : (dropWaitingSingle p u).kept = u.kept := by
  unfold dropWaitingSingle; repeat' (first | rfl | (simp; done) | split | dsimp only)
@[simp] theorem kept_selectFrame (p : Port) (u : Units) : (selectFrame p u).kept = u.kept := by
  unfold selectFrame; repeat' (first | rfl | (simp; done) | split | dsimp only)
@[simp] theorem kept_shiftByte (p : Port) (b : Byte) (u : Units) : (shiftByte p b u).kept = u.kept := by
  unfold shiftByte; repeat' (first | rfl | (simp; done) | split | dsimp only)

/-! ## The answers to claims -/
@[simp] theorem kept_lookupClaim (src : Claimant) (part key : Nat) (forRead : Bool) (u : Units) :
    (lookupClaim src part key forRead u).kept = u.kept := by
  unfold lookupClaim; repeat' (first | rfl | (simp; done) | split | dsimp only)
@[simp] theorem kept_rangeClaim (src : Claimant) (part : Nat) (after : Option Nat) (u : Units) :
    (rangeClaim src part after u).kept = u.kept := by
  unfold rangeClaim; repeat' (first | rfl | (simp; done) | split | dsimp only)
@[simp] theorem kept_pinClaim (src : Claimant) (l : Location) (u : Units) : (pinClaim src l u).kept = u.kept := by
  unfold pinClaim; repeat' (first | rfl | (simp; done) | split | dsimp only)
@[simp] theorem kept_numberClaim (src : Claimant) (txn : Nat) (u : Units) : (numberClaim src txn u).kept = u.kept := by
  unfold numberClaim; repeat' (first | rfl | (simp; done) | split | dsimp only)
@[simp] theorem kept_chargeClaim (src : Claimant) (part key : Nat) (op : ChargeOp) (cells : Nat) (u : Units) :
    (chargeClaim src part key op cells u).kept = u.kept := by
  unfold chargeClaim; repeat' (first | rfl | (simp; done) | split | dsimp only)
@[simp] theorem kept_allocateClaim (src : Claimant) (n : Nat) (u : Units) : (allocateClaim src n u).kept = u.kept := by
  unfold allocateClaim; repeat' (first | rfl | (simp; done) | split | dsimp only)
@[simp] theorem kept_openedClaim (src : Claimant) (h : NewHead) (u : Units) : (openedClaim src h u).kept = u.kept := by
  unfold openedClaim; repeat' (first | rfl | (simp; done) | split | dsimp only)
@[simp] theorem kept_closeClaim (src : Claimant) (seg : Nat) (reason : CloseReason) (u : Units) :
    (closeClaim src seg reason u).kept = u.kept := by
  unfold closeClaim; repeat' (first | rfl | (simp; done) | split | dsimp only)
@[simp] theorem kept_sweepClaim (victim : Nat) (u : Units) : (sweepClaim victim u).kept = u.kept := by
  unfold sweepClaim; repeat' (first | rfl | (simp; done) | split | dsimp only)
@[simp] theorem kept_reclaimingClaim (seg : Nat) (u : Units) : (reclaimingClaim seg u).kept = u.kept := by
  unfold reclaimingClaim; repeat' (first | rfl | (simp; done) | split | dsimp only)
@[simp] theorem kept_erasedClaim (seg : Nat) (u : Units) : (erasedClaim seg u).kept = u.kept := by
  unfold erasedClaim; repeat' (first | rfl | (simp; done) | split | dsimp only)
@[simp] theorem kept_releaseWaiting (u : Units) : (releaseWaiting u).kept = u.kept := rfl
@[simp] theorem kept_preparedClaim (seg count : Nat) (u : Units) : (preparedClaim seg count u).kept = u.kept := by
  unfold preparedClaim; dsimp only
  rw [kept_passEnded]
  split
  · rw [kept_releaseWaiting, kept_compareRise, kept_dropRetained]; exact kept_setIu _ _ rfl
  · rw [kept_compareRise, kept_dropRetained]; exact kept_setIu _ _ rfl
end Sys2Proof.Machine
end

