-- ==== Sys2Proof/Laws/Ordered.lean ====
section
/-! SUPPORT. The operations on the partition claims and the Transaction Manager keep the tables of the units in order, a
release of a claim by way of a claim that nobody holds for now (R75 to R80, R84, R92 to R98). -/

set_option linter.constructorNameAsVariable false

namespace Sys2Proof.Machine

/-- What `Units.Ordered` says apart from the claims. -/
structure Units.OtherTables (u : Units) : Prop where
  entries  : u.iu.entries.Pairwise fun x y => x.part < y.part ∨ (x.part = y.part ∧ x.key < y.key)
  notices  : ∀ p, (u.notices p).Bounded
  queues   : u.tm.queues.length = 16
  policy   : u.pu.shadow.parts.length = 16
  images   : ∀ x ∈ u.me.images, x.2.parts.length = 16

/-- Who holds which partition, who waits for it, and the queues, with a claim that nobody holds for now at `ex`. -/
structure ClaimTable (H W : Port → Nat → Prop) (Q : Nat → List Port) (ex : Nat → Prop) : Prop where
  single  : ∀ p q k, H p k → H q k → p = q
  apart   : ∀ p k l, W p k → ¬ H p l
  waits   : ∀ k q, q ∈ Q k ↔ W q k
  once    : ∀ k, (Q k).Nodup
  claimed : ∀ k, ¬ ex k → Q k ≠ [] → ∃ p, H p k

/-- `Units.Ordered` with a claim that nobody holds for now at `ex`. -/
structure Units.OrderedBut (ex : Nat → Prop) (u : Units) : Prop extends Units.OtherTables u where
  claims : ClaimTable (fun p k => (u.slot p).holds k = true) (fun p k => (u.slot p).state = .waiting ∧ (u.slot p).part = k)
    (fun k => claimQueue k u) ex

theorem Slot.holds_iff (s : Slot) (k : Nat) :
    s.holds k = true ↔ s.part = k ∧ (s.state = .opened ∨ s.state = .committing ∨ s.state = .aborting) := by
  simp [Slot.holds, or_assoc]

theorem nodup_short {p : Port} {q : List Port} (hq : q.Nodup) (hp : p ∉ q) : q.length ≤ 3 := by
  have h := (List.nodup_cons.2 ⟨hp, hq⟩).subperm (l₂ := [Port.a, .b, .c, .d]) (by intro x _; cases x <;> simp)
  have := h.length_le; simp at this; omega

theorem Units.Ordered.orderedBut {u : Units} (h : u.Ordered) : u.OrderedBut (fun _ => False) where
  entries := h.entries
  notices := h.notices
  queues := h.queues
  policy := h.policy
  images := h.images
  claims := {
    single := fun p q k => h.claims.single p q k
    apart := by
      intro p k l hw hh
      rw [Slot.holds_iff] at hh
      rcases hh.2 with e | e | e <;> simp [hw.1] at e
    waits := fun k q => ⟨h.claims.queued k q, by rintro ⟨hw, rfl⟩; exact h.claims.found q hw⟩
    once := h.claims.once
    claimed := fun k _ => h.claims.claimed k }

theorem Units.OrderedBut.ordered {u : Units} (h : u.OrderedBut (fun _ => False)) : u.Ordered where
  entries := h.entries
  notices := h.notices
  queues := h.queues
  policy := h.policy
  images := h.images
  claims := {
    single := fun p q k => h.claims.single p q k
    queued := fun k q hq => (h.claims.waits k q).1 hq
    found := fun p hp => (h.claims.waits _ p).2 ⟨hp, rfl⟩
    once := h.claims.once
    claimed := fun k => h.claims.claimed k (fun f => f)
    short := by
      intro k
      by_cases hk : claimQueue k u = []
      · simp [hk]
      · obtain ⟨p, hp⟩ := h.claims.claimed k (fun f => f) hk
        exact nodup_short (h.claims.once k) fun hq => h.claims.apart p _ _ ((h.claims.waits k p).1 hq) hp }

theorem Units.OrderedBut.of_kept {ex : Nat → Prop} {u v : Units} (h : v.kept = u.kept) (hu : u.OrderedBut ex) :
    v.OrderedBut ex := by
  simp only [Units.kept, Prod.mk.injEq] at h
  obtain ⟨he, hs, hq, hn, hp, hi⟩ := h
  have hs' : ∀ p, (v.slot p).state = (u.slot p).state ∧ (v.slot p).part = (u.slot p).part := fun p => by
    have := congrFun hs p; simpa using this
  have hh : ∀ p k, (v.slot p).holds k = (u.slot p).holds k := fun p k => holds_of_kept (hs' p).1 (hs' p).2 k
  have hc : ∀ k, claimQueue k v = claimQueue k u := fun k => by simp [claimQueue, hq]
  have hnp : ∀ p, v.notices p = u.notices p := fun p => by simp [Units.notices, hn]
  refine ⟨⟨he ▸ hu.entries, fun p => hnp p ▸ hu.notices p, hq ▸ hu.queues, hp ▸ hu.policy, hi ▸ hu.images⟩, ?_⟩
  simp only [hh, hc, hs']
  exact hu.claims

theorem Units.OtherTables.setSlot {u : Units} (h : u.OtherTables) (p : Port) (x : Slot) : (u.setSlot p x).OtherTables :=
  ⟨h.entries, h.notices, h.queues, h.policy, h.images⟩

theorem Units.OtherTables.setClaimQueue {u : Units} (h : u.OtherTables) (k : Nat) (q : List Port) :
    (setClaimQueue k q u).OtherTables :=
  ⟨h.entries, h.notices, by simp [Machine.setClaimQueue, h.queues], h.policy, h.images⟩

theorem claimQueue_set {u : Units} (h : u.tm.queues.length = 16) (part k : Nat) (q : List Port) :
    claimQueue k (setClaimQueue part q u) = if k = part ∧ k < 16 then q else claimQueue k u := by
  unfold claimQueue Machine.setClaimQueue
  by_cases hk : k = part
  · subst hk
    by_cases hl : k < 16
    · simp [List.getD, hl, h]
    · simp [List.getD, hl, h]
  · simp [List.getD, hk, List.getElem?_set_ne (Ne.symm hk)]

/-- A slot changed that keeps what it holds and waits for. -/
theorem Units.OrderedBut.hold {ex : Nat → Prop} {u : Units} (h : u.OrderedBut ex) {p : Port} {x : Slot}
    (hh : ∀ k, x.holds k = (u.slot p).holds k) (hw : x.state ≠ .waiting) (hw' : (u.slot p).state ≠ .waiting) :
    (u.setSlot p x).OrderedBut ex := by
  refine ⟨h.setSlot p x, ?_⟩
  have h1 : ∀ q k, ((u.setSlot p x).slot q).holds k = (u.slot q).holds k := by
    intro q k
    by_cases hq : p = q
    · subst hq; simp [hh]
    · rw [Units.slot_setSlot_of_ne _ hq]
  have h2 : ∀ q k, (((u.setSlot p x).slot q).state = .waiting ∧ ((u.setSlot p x).slot q).part = k)
      = ((u.slot q).state = .waiting ∧ (u.slot q).part = k) := by
    intro q k
    by_cases hq : p = q
    · subst hq; simp [hw, hw']
    · rw [Units.slot_setSlot_of_ne _ hq]
  have h3 : ∀ k, claimQueue k (u.setSlot p x) = claimQueue k u := fun _ => rfl
  simp only [h1, h2, h3]
  exact h.claims

/-- A slot that does not wait goes to one that neither holds nor waits: what it held is held by nobody for now. -/
theorem Units.OrderedBut.release {ex : Nat → Prop} {u : Units} (h : u.OrderedBut ex) {p : Port} {x : Slot}
    (hh : ∀ k, x.holds k = false) (hw : x.state ≠ .waiting) (hw' : (u.slot p).state ≠ .waiting) :
    (u.setSlot p x).OrderedBut (fun k => ex k ∨ (u.slot p).holds k = true) := by
  refine ⟨h.setSlot p x, ?_⟩
  have h1 : ∀ q k, ((u.setSlot p x).slot q).holds k = true ↔ q ≠ p ∧ (u.slot q).holds k = true := by
    intro q k
    by_cases hq : p = q
    · subst hq; simp [hh]
    · rw [Units.slot_setSlot_of_ne _ hq]; simp [Ne.symm hq]
  have h2 : ∀ q k, (((u.setSlot p x).slot q).state = .waiting ∧ ((u.setSlot p x).slot q).part = k)
      = ((u.slot q).state = .waiting ∧ (u.slot q).part = k) := by
    intro q k
    by_cases hq : p = q
    · subst hq; simp [hw, hw']
    · rw [Units.slot_setSlot_of_ne _ hq]
  have h3 : ∀ k, claimQueue k (u.setSlot p x) = claimQueue k u := fun _ => rfl
  simp only [h1, h2, h3]
  exact {
    single := fun a b k ha hb => h.claims.single a b k ha.2 hb.2
    apart := fun a k l ha hb => h.claims.apart a k l ha hb.2
    waits := h.claims.waits
    once := h.claims.once
    claimed := by
      intro k hk hq
      obtain ⟨a, ha⟩ := h.claims.claimed k (fun e => hk (.inl e)) hq
      refine ⟨a, ?_, ha⟩
      rintro rfl
      exact hk (.inr ha) }

theorem Units.OrderedBut.mono {ex ex' : Nat → Prop} {u : Units} (h : u.OrderedBut ex) (he : ∀ k, ex k → ex' k) : u.OrderedBut ex' :=
  ⟨h.toOtherTables, { h.claims with claimed := fun k hk => h.claims.claimed k (fun e => hk (he k e)) }⟩

/-- Waiters leave their queues, their slots going to ones that neither hold nor wait. -/
theorem Units.OrderedBut.leave {ex : Nat → Prop} {u v : Units} (h : u.OrderedBut ex) (hv : v.OtherTables) (R : Port → Prop)
    (hs : ∀ q, R q → (∀ k, (v.slot q).holds k = false) ∧ (v.slot q).state ≠ .waiting ∧ (u.slot q).state = .waiting)
    (hn : ∀ q, ¬ R q → v.slot q = u.slot q) (hQ : ∀ k, (claimQueue k v).Nodup ∧ ∀ q,
        q ∈ claimQueue k v ↔ q ∈ claimQueue k u ∧ ¬ R q) :
    v.OrderedBut ex := by
  refine ⟨hv, ?_⟩
  exact {
    single := by
      intro a b k ha hb
      have f : ∀ c, (v.slot c).holds k = true → (u.slot c).holds k = true := by
        intro c hc
        by_cases hr : R c
        · simp [(hs c hr).1] at hc
        · rwa [hn c hr] at hc
      exact h.claims.single a b k (f a ha) (f b hb)
    apart := by
      intro a k l ha hb
      by_cases hr : R a
      · exact (hs a hr).2.1 ha.1
      · rw [hn a hr] at ha hb; exact h.claims.apart a k l ha hb
    waits := by
      intro k q
      rw [(hQ k).2 q, h.claims.waits]
      by_cases hr : R q
      · simp [hr, (hs q hr).2.1]
      · simp [hr, hn q hr]
    once := fun k => (hQ k).1
    claimed := by
      intro k hk hq
      obtain ⟨q, hq'⟩ := List.exists_mem_of_ne_nil _ hq
      have := ((hQ k).2 q).1 hq'
      obtain ⟨a, ha⟩ := h.claims.claimed k hk (List.ne_nil_of_mem this.1)
      refine ⟨a, ?_⟩
      by_cases hr : R a
      · have hw := (hs a hr).2.2
        rw [Slot.holds_iff] at ha
        rcases ha.2 with e | e | e <;> simp [hw] at e
      · rwa [hn a hr] }


theorem Slot.start_holds (k : Nat) : Slot.start.holds k = false := by simp [Slot.start, Slot.holds]

theorem Units.OrderedBut.kept {ex : Nat → Prop} {u v : Units} (hu : u.OrderedBut ex) (h : v.kept = u.kept) :
    v.OrderedBut ex := .of_kept h hu

theorem Units.OrderedBut.endWait {ex : Nat → Prop} {u : Units} (h : u.OrderedBut ex) {p : Port} (c : ResultCode)
    (hw : (u.slot p).state = .waiting) : (endWait p c u).OrderedBut ex := by
  refine Units.OrderedBut.kept (u := (leaveQueue (u.slot p).part p u).setSlot p Slot.start) ?_ rfl
  refine h.leave ((h.setClaimQueue _ _).setSlot _ _) (fun q => q = p) ?_ ?_ ?_
  · rintro q rfl
    rw [Units.slot_setSlot_self]
    exact ⟨Slot.start_holds, by simp [Slot.start], hw⟩
  · intro q hq
    rw [Units.slot_setSlot_of_ne _ (Ne.symm hq)]; rfl
  · intro k
    have e : claimQueue k ((leaveQueue (u.slot p).part p u).setSlot p Slot.start)
        = claimQueue k (setClaimQueue (u.slot p).part ((claimQueue (u.slot p).part u).filter (· != p)) u) := rfl
    rw [e, claimQueue_set h.queues]
    split
    · rename_i hk; obtain ⟨rfl, _⟩ := hk
      exact ⟨(h.claims.once _).filter _, fun q => by simp⟩
    · rename_i hk
      refine ⟨h.claims.once _, fun q => ⟨fun hq => ⟨hq, ?_⟩, fun hq => hq.1⟩⟩
      rintro rfl
      have h1 := (h.claims.waits k q).1 hq
      apply hk
      refine ⟨h1.2.symm, ?_⟩
      rcases Nat.lt_or_ge k 16 with hl | hl
      · exact hl
      · simp [claimQueue, List.getD, h.queues, hl] at hq

theorem Units.OrderedBut.endWaits {ex : Nat → Prop} (c : ResultCode) : ∀ (qs : List Port) {u : Units}, u.OrderedBut ex → qs.Nodup →
    (∀ q ∈ qs, (u.slot q).state = .waiting) → (qs.foldl (fun v q => Machine.endWait q c v) u).OrderedBut ex
  | [], _, h, _, _ => h
  | q :: qs, u, h, hn, hw => by
    rw [List.foldl_cons]
    rw [List.nodup_cons] at hn
    refine Units.OrderedBut.endWaits c qs (h.endWait c (hw q (by simp))) hn.2 ?_
    intro a ha
    have hne : q ≠ a := by rintro rfl; exact hn.1 ha
    have e : (Machine.endWait q c u).slot a = ((leaveQueue (u.slot q).part q u).setSlot q Slot.start).slot a := rfl
    rw [e, Units.slot_setSlot_of_ne _ hne]
    exact hw a (by simp [ha])

theorem Units.OrderedBut.abortHolder {ex : Nat → Prop} {u : Units} (h : u.OrderedBut ex) {p : Port} (r : EndReason)
    (ho : (u.slot p).state = .opened) : (abortHolder r p u).OrderedBut ex := by
  unfold Machine.abortHolder
  refine Units.OrderedBut.kept (u := u.setSlot p { u.slot p with
    state := .aborting, reason := some r, lease := none, pending := (u.slot p).stage.map (·.cmd) }) ?_ (by simp)
  refine h.hold ?_ (by simp) (by simp [ho])
  intro k; simp [Slot.holds, ho]

theorem Units.OrderedBut.grantClaim {ex : Nat → Prop} {u : Units} {p : Port} {part : Nat} (h : u.OrderedBut ex)
    (hs : (u.slot p).state ≠ .waiting ∧ ∀ k, (u.slot p).holds k = false) (hf : ∀ q, (u.slot q).holds part = false) :
    (grantClaim part p u).OrderedBut (fun k => ex k ∧ k ≠ part) := by
  unfold Machine.grantClaim
  refine Units.OrderedBut.kept (u := u.setSlot p { Slot.start with
    state := .opened, part := part, number := newNumber p u, lease := some (newLease (leaseUnits part u) u) }) ?_ (by simp; rfl)
  generalize hx : ({ Slot.start with
    state := .opened, part := part, number := newNumber p u, lease := some (newLease (leaseUnits part u) u) } : Slot) = x
  have hxs : x.state = .opened ∧ x.part = part := by subst hx; exact ⟨rfl, rfl⟩
  have hxh : ∀ k, x.holds k = true ↔ k = part := by intro k; rw [Slot.holds_iff]; simp [hxs, eq_comm]
  refine ⟨h.setSlot p x, ?_⟩
  have h1 : ∀ q k, ((u.setSlot p x).slot q).holds k = true ↔ (q = p ∧ k = part) ∨ (q ≠ p ∧ (u.slot q).holds k = true) := by
    intro q k
    by_cases hq : p = q
    · subst hq; simp [hxh]
    · rw [Units.slot_setSlot_of_ne _ hq]; simp [Ne.symm hq]
  have h2 : ∀ q k, (((u.setSlot p x).slot q).state = .waiting ∧ ((u.setSlot p x).slot q).part = k)
      = ((u.slot q).state = .waiting ∧ (u.slot q).part = k) := by
    intro q k
    by_cases hq : p = q
    · subst hq; simp [hxs, hs.1]
    · rw [Units.slot_setSlot_of_ne _ hq]
  have h3 : ∀ k, claimQueue k (u.setSlot p x) = claimQueue k u := fun _ => rfl
  simp only [h1, h2, h3]
  exact {
    single := by
      rintro a b k (⟨rfl, rfl⟩ | ⟨ha, ha'⟩) (⟨rfl, hb⟩ | ⟨hb, hb'⟩)
      · rfl
      · simp [hf] at hb'
      · subst hb; simp [hf] at ha'
      · exact h.claims.single a b k ha' hb'
    apart := by
      rintro a k l ha (⟨rfl, rfl⟩ | ⟨hb, hb'⟩)
      · exact hs.1 ha.1
      · exact h.claims.apart a k l ha hb'
    waits := h.claims.waits
    once := h.claims.once
    claimed := by
      intro k hk hq
      by_cases hkp : k = part
      · exact ⟨p, .inl ⟨rfl, hkp⟩⟩
      · obtain ⟨a, ha⟩ := h.claims.claimed k (fun e => hk ⟨e, hkp⟩) hq
        refine ⟨a, .inr ⟨?_, ha⟩⟩
        rintro rfl
        simp [hs.2] at ha }

theorem holderOf_none {part : Nat} {u : Units} (h : (holderOf part u).isNone = true) : ∀ q, (u.slot q).holds part = false := by
  intro q
  have := List.find?_eq_none.1 (Option.isNone_iff_eq_none.1 h) q (by cases q <;> simp [allPorts])
  simpa using this

theorem Units.OrderedBut.setQueueHead {ex : Nat → Prop} {u : Units} (h : u.OrderedBut ex) {part : Nat} {q : Port} {rest : List Port}
    (hq : claimQueue part u = q :: rest) (hf : ∀ q, (u.slot q).holds part = false) :
    (Machine.grantClaim part q (setClaimQueue part rest u)).OrderedBut (fun k => ex k ∧ k ≠ part) := by
  have hl : part < 16 := by
    rcases Nat.lt_or_ge part 16 with hl | hl
    · exact hl
    · simp [claimQueue, List.getD, h.queues, hl] at hq
  have hw : (u.slot q).state = .waiting ∧ (u.slot q).part = part := (h.claims.waits part q).1 (by simp [hq])
  have hnd := h.claims.once part
  rw [hq, List.nodup_cons] at hnd
  -- the waiter leaves first, its slot taken as NONE; then it is granted
  have hv : (setClaimQueue part rest u).setSlot q Slot.start |>.OrderedBut ex := by
    refine h.leave ((h.setClaimQueue _ _).setSlot _ _) (fun a => a = q) ?_ ?_ ?_
    · rintro a rfl
      rw [Units.slot_setSlot_self]
      exact ⟨Slot.start_holds, by simp [Slot.start], hw.1⟩
    · intro a ha
      rw [Units.slot_setSlot_of_ne _ (Ne.symm ha)]; rfl
    · intro k
      have e : claimQueue k ((setClaimQueue part rest u).setSlot q Slot.start) = claimQueue k (setClaimQueue part rest u) := rfl
      rw [e, claimQueue_set h.queues]
      split
      · rename_i hk; obtain ⟨rfl, _⟩ := hk
        refine ⟨hnd.2, fun a => ?_⟩
        rw [hq, List.mem_cons]
        constructor
        · intro ha; exact ⟨.inr ha, by rintro rfl; exact hnd.1 ha⟩
        · rintro ⟨rfl | ha, hn⟩
          · exact absurd rfl hn
          · exact ha
      · rename_i hk
        refine ⟨h.claims.once k, fun a => ⟨fun ha => ⟨ha, ?_⟩, fun ha => ha.1⟩⟩
        rintro rfl
        have := (h.claims.waits k a).1 ha
        exact hk ⟨by rw [← this.2, hw.2], by rw [← this.2, hw.2]; exact hl⟩
  have hg := hv.grantClaim (p := q) (part := part) (by simp [Slot.start, Slot.holds]) (by
    intro a
    by_cases ha : q = a
    · subst ha; simp [Slot.start, Slot.holds]
    · rw [Units.slot_setSlot_of_ne _ ha]; exact hf a)
  refine Units.OrderedBut.of_kept ?_ hg
  simp only [Units.kept, Prod.mk.injEq]
  refine ⟨rfl, ?_, rfl, rfl, rfl, rfl⟩
  funext a
  have e : ∀ w : Units, (Machine.grantClaim part q w).slot a = (w.setSlot q { Slot.start with
      state := .opened, part := part, number := newNumber q w, lease := some (newLease (leaseUnits part w) w) }).slot a :=
          fun _ => rfl
  rw [e, e]
  by_cases ha : q = a
  · subst ha; simp
  · rw [Units.slot_setSlot_of_ne _ ha, Units.slot_setSlot_of_ne _ ha, Units.slot_setSlot_of_ne _ ha]

theorem Units.OrderedBut.passClaim {u : Units} {part : Nat} {ex : Nat → Prop} (h : u.OrderedBut ex) (he : ∀ k, ex k → k = part) :
    (passClaim part u).OrderedBut (fun _ => False) := by
  unfold Machine.passClaim
  split
  · rename_i hq
    refine ⟨h.toOtherTables, { h.claims with claimed := fun k _ hk => ?_ }⟩
    by_cases hkp : ex k
    · exact absurd (he k hkp ▸ hq) hk
    · exact h.claims.claimed k hkp hk
  · rename_i q rest hq
    split
    · rename_i hn
      exact (h.setQueueHead hq (holderOf_none hn)).mono fun k hk => hk.2 (he k hk.1)
    · rename_i hn
      refine ⟨h.toOtherTables, { h.claims with claimed := fun k _ hk => ?_ }⟩
      by_cases hkp : ex k
      · have := he k hkp; subst this
        cases hh : holderOf k u with
        | none => simp [hh] at hn
        | some a => exact ⟨a, by simpa using List.find?_some hh⟩
      · exact h.claims.claimed k hkp hk

theorem Units.OrderedBut.answerDue {u : Units} {part : Nat} {ex : Nat → Prop} (h : u.OrderedBut ex) :
    (answerDue part u).OrderedBut ex := by
  rw [answerDue_eq]
  have hs : ∀ q,
      (u.waitersAnswered part).slot q = if q ∈ claimQueue part u ∧ u.waitEnds part q ≠ none then Slot.start else u.slot q := by
    intro q
    simp only [Units.waitersAnswered, Units.slot, Four.get_map]
    by_cases hq : q ∈ claimQueue part u <;> by_cases hd : u.waitEnds part q = none <;> simp [hq, hd]
  have hQ : ∀ k, claimQueue k (u.waitersAnswered part) = if k = part ∧ k < 16
      then (claimQueue part u).filter (fun q => u.waitEnds part q = none) else claimQueue k u :=
          fun k => claimQueue_set h.queues part k _
  refine h.leave ⟨h.entries, h.notices, by simp [Units.waitersAnswered, h.queues], h.policy, h.images⟩
    (fun q => q ∈ claimQueue part u ∧ u.waitEnds part q ≠ none) ?_ ?_ ?_
  · intro q hq
    rw [hs, if_pos hq]
    exact ⟨Slot.start_holds, by simp [Slot.start], ((h.claims.waits part q).1 hq.1).1⟩
  · intro q hq
    rw [hs, if_neg hq]
  · intro k
    rw [hQ]
    split
    · rename_i hk; obtain ⟨rfl, _⟩ := hk
      refine ⟨(h.claims.once _).filter _, fun q => ?_⟩
      simp only [List.mem_filter, decide_eq_true_eq]
      constructor
      · rintro ⟨a, b⟩; exact ⟨a, fun c => c.2 b⟩
      · rintro ⟨a, b⟩
        refine ⟨a, ?_⟩
        by_contra hc
        exact b ⟨a, hc⟩
    · rename_i hk
      refine ⟨h.claims.once _, fun q => ⟨fun hq => ⟨hq, ?_⟩, fun hq => hq.1⟩⟩
      rintro ⟨hp, _⟩
      have h1 := (h.claims.waits k q).1 hq
      have h2 := (h.claims.waits part q).1 hp
      apply hk
      refine ⟨by rw [← h1.2, h2.2], ?_⟩
      rcases Nat.lt_or_ge k 16 with hl | hl
      · exact hl
      · simp [claimQueue, List.getD, h.queues, hl] at hq

theorem Units.OrderedBut.releaseClaim {u : Units} {part : Nat} {ex : Nat → Prop} (h : u.OrderedBut ex) (he : ∀ k, ex k → k = part) :
    (releaseClaim part u).OrderedBut (fun _ => False) :=
  ((h.answerDue (part := part)).passClaim he).kept (by simp [Machine.releaseClaim])

theorem Units.OrderedBut.endTransaction {u : Units} (h : u.OrderedBut (fun _ => False)) {p : Port} {after : Slot}
    (ha : after.state = .none ∨ after.state = .ended) (hw : (u.slot p).state ≠ .waiting) :
    (endTransaction p after u).OrderedBut (fun _ => False) := by
  unfold Machine.endTransaction
  refine Units.OrderedBut.kept (u := Machine.releaseClaim (u.slot p).part (u.setSlot p after)) ?_ (by simp)
  refine (h.release (p := p) (x := after) ?_ ?_ hw).releaseClaim ?_
  · intro k; rcases ha with e | e <;> simp [Slot.holds, e]
  · rcases ha with e | e <;> simp [e]
  · rintro k (hk | hk)
    · exact hk.elim
    · exact ((Slot.holds_iff _ _).1 hk).1.symm


/-- `Units.Ordered`, in the form the proofs use. -/
abbrev Units.InOrder (u : Units) : Prop := u.OrderedBut (fun _ => False)

theorem Units.InOrder.kept {u v : Units} (hu : u.InOrder) (h : v.kept = u.kept) : v.InOrder := Units.OrderedBut.kept hu h

theorem Units.InOrder.inState {u : Units} (h : u.InOrder) {st : SlotState} {p : Port} {f : Units → Units}
    (hf : (u.slot p).state = st → (f u).InOrder) : (inState st p f u).InOrder := by
  unfold Machine.inState; split
  · exact hf ‹_›
  · exact h

theorem Units.InOrder.abortEnded {u : Units} (h : u.InOrder) (p : Port) : (abortEnded p u).InOrder := by
  unfold Machine.abortEnded
  refine h.inState fun hs => ?_
  have hw : ∀ c, ((answer p c u).slot p).state ≠ .waiting := by intro c; simp [answer, deliver, hs]
  have ha : ∀ c, (answer p c u).InOrder := fun c => h.kept (by simp)
  dsimp only
  split
  · exact (ha _).endTransaction (.inl rfl) (hw _)
  · exact Units.OrderedBut.endTransaction h (.inr rfl) (by simp [hs])
  · split
    · exact (ha _).endTransaction (.inl rfl) (hw _)
    · exact Units.OrderedBut.endTransaction h (.inl rfl) (by simp [hs])

theorem Units.InOrder.commitFailed {u : Units} (h : u.InOrder) (c : ResultCode) (p : Port) : (commitFailed c p u).InOrder := by
  unfold Machine.commitFailed
  refine h.inState fun hs => ?_
  refine Units.InOrder.kept (u := u.setSlot p { u.slot p with state := .aborting, reply := some c }) ?_ (by simp; rfl)
  exact Units.OrderedBut.hold h (by intro k; simp [Slot.holds, hs]) (by simp) (by simp [hs])

theorem Units.InOrder.commitReturned {u : Units} (h : u.InOrder) (c : ResultCode) (p : Port) : (commitReturned c p u).InOrder := by
  unfold Machine.commitReturned
  refine h.inState fun hs => ?_
  split
  · refine Units.InOrder.kept (u := u.setSlot p { u.slot p with state := .aborting }) ?_ (by simp; rfl)
    exact Units.OrderedBut.hold h (by intro k; simp [Slot.holds, hs]) (by simp) (by simp [hs])
  · refine Units.InOrder.kept (u := u.setSlot p { u.slot p with state := .opened }) ?_ (by simp; rfl)
    exact Units.OrderedBut.hold h (by intro k; simp [Slot.holds, hs]) (by simp) (by simp [hs])

theorem Units.InOrder.completeEnded {u : Units} (h : u.InOrder) (p : Port) : (completeEnded p u).InOrder := by
  unfold Machine.completeEnded
  refine h.inState fun hs => ?_
  exact Units.OrderedBut.endTransaction (h.kept (by simp)) (.inl rfl) (by simp [answer, deliver, hs])

theorem Units.InOrder.drop {u : Units} (h : u.InOrder) {p : Port} (hn : ∀ k, (u.slot p).holds k = false) (hw :
    (u.slot p).state ≠ .waiting) :
    (u.setSlot p Slot.start).InOrder :=
  Units.OrderedBut.hold h (by intro k; rw [Slot.start_holds, hn]) (by simp [Slot.start]) hw

theorem Units.InOrder.notOpen {u : Units} (h : u.InOrder) (p : Port) (c : Cmd) : (notOpen p c u).InOrder := by
  unfold Machine.notOpen
  dsimp only
  split
  · rename_i hs _
    exact (h.drop (p := p) (by intro k; simp [Slot.holds, hs]) (by simp [hs])).kept (by simp)
  · exact h.kept (by simp)
  · exact h.kept (by simp)
  · exact h.kept (by simp)

theorem Units.InOrder.actLock {u : Units} (h : u.InOrder) (part : Nat) : (actLock part u).InOrder := by
  unfold Machine.actLock
  have hv : ∀ v : Units, v.InOrder → ((claimQueue part v).foldl (fun v q => Machine.endWait q .locked v) v).InOrder := fun v hv =>
    Units.OrderedBut.endWaits _ _ hv (hv.claims.once part) fun q hq => ((hv.claims.waits part q).1 hq).1
  refine hv _ ?_
  split
  · split
    · exact Units.OrderedBut.abortHolder h _ ‹_›
    · exact h
  · exact h

theorem Units.InOrder.actRevocation {u : Units} (h : u.InOrder) (r : Revocation) : (actRevocation r u).InOrder := by
  unfold Machine.actRevocation
  have : ∀ (ps : List Port) (u : Units), u.InOrder → (ps.foldl (fun u p =>
    if !r.hits p (u.slot p).part then u
    else if (u.slot p).state = .opened then Machine.abortHolder .revoked p u
    else if (u.slot p).state = .waiting then Machine.endWait p .denied u
    else u) u).InOrder := by
    intro ps
    induction ps with
    | nil => intro u h; exact h
    | cons p ps ih =>
      intro u h
      rw [List.foldl_cons]
      refine ih _ ?_
      split
      · exact h
      split
      · exact Units.OrderedBut.abortHolder h _ ‹_›
      split
      · exact Units.OrderedBut.endWait h _ ‹_›
      · exact h
  exact this _ _ h

theorem Units.InOrder.actDue {u : Units} (h : u.InOrder) (p : Port) : (actDue p u).InOrder := by
  unfold Machine.actDue
  dsimp only
  split
  · exact h
  split
  · refine Units.InOrder.actLock ?_ _; exact h.kept (by simp)
  split
  · refine Units.InOrder.actRevocation ?_ _; exact h.kept (by simp)
  · exact h

theorem Units.InOrder.beginFromNone {u : Units} (h : u.InOrder) {p : Port} (hn : ∀ k, (u.slot p).holds k = false)
    (hw : (u.slot p).state ≠ .waiting) (part : Nat) (wait : Bool) : (beginFromNone p part wait u).InOrder := by
  unfold Machine.beginFromNone
  split
  · exact h.kept (by simp)
  rename_i hm
  split
  · exact h.kept (by simp)
  split
  · rename_i hh
    exact (Units.OrderedBut.grantClaim h ⟨hw, hn⟩ (holderOf_none hh)).mono (by simp)
  rename_i hh
  dsimp only
  split
  · have hl : part < 16 := by
      rcases Nat.lt_or_ge part 16 with hl | hl
      · exact hl
      · simp [Shadow.mayWrite, Shadow.part, List.getD, h.policy, hl] at hm
    obtain ⟨a, ha⟩ : ∃ a, (u.slot a).holds part = true := by
      cases e : holderOf part u with
      | none => simp [e] at hh
      | some a => exact ⟨a, by simpa using List.find?_some e⟩
    generalize hx : ({ Slot.start with
        state := .waiting, part := part,
        waitUntil := some (u.clock + Config.ticksPerUnit * (u.pu.shadow.ports.get p).waitLimit) } : Slot) = x
    have hxs : x.state = .waiting ∧ x.part = part := by subst hx; exact ⟨rfl, rfl⟩
    have hxh : ∀ k, x.holds k = false := by intro k; simp [Slot.holds, hxs]
    refine ⟨((h.toOtherTables.setSlot p x).setClaimQueue part _), ?_⟩
    have h1 : ∀ q k, ((setClaimQueue part (claimQueue part (u.setSlot p x) ++ [p]) (u.setSlot p x)).slot q).holds k = true ↔
        (u.slot q).holds k = true := by
      intro q k
      have e : (setClaimQueue part (claimQueue part (u.setSlot p x) ++ [p]) (u.setSlot p x)).slot q = (u.setSlot p x).slot q := rfl
      rw [e]
      by_cases hq : p = q
      · subst hq; simp [hxh, hn]
      · rw [Units.slot_setSlot_of_ne _ hq]
    have h2 : ∀ q k, (((setClaimQueue part (claimQueue part (u.setSlot p x) ++ [p]) (u.setSlot p x)).slot q).state = .waiting ∧
        ((setClaimQueue part (claimQueue part (u.setSlot p x) ++ [p]) (u.setSlot p x)).slot q).part = k) ↔
        ((u.slot q).state = .waiting ∧ (u.slot q).part = k) ∨ (q = p ∧ k = part) := by
      intro q k
      have e : (setClaimQueue part (claimQueue part (u.setSlot p x) ++ [p]) (u.setSlot p x)).slot q = (u.setSlot p x).slot q := rfl
      rw [e]
      by_cases hq : p = q
      · subst hq; simp [hxs, hw, eq_comm]
      · rw [Units.slot_setSlot_of_ne _ hq]; simp [Ne.symm hq]
    have h3 : ∀ k, claimQueue k (setClaimQueue part (claimQueue part (u.setSlot p x) ++ [p]) (u.setSlot p x)) =
        if k = part then claimQueue part u ++ [p] else claimQueue k u := by
      intro k
      rw [claimQueue_set (u := u.setSlot p x) h.queues]
      by_cases hk : k = part
      · subst hk; simp [hl]; rfl
      · simp [hk]; rfl
    have hp : ∀ k, p ∉ claimQueue k u := fun k hk => hw ((h.claims.waits k p).1 hk).1
    refine {
      single := fun a b k ha hb => h.claims.single a b k ((h1 a k).1 ha) ((h1 b k).1 hb)
      apart := ?_
      waits := ?_
      once := ?_
      claimed := ?_ }
    · intro a k l ha hb
      rw [h2] at ha; rw [h1] at hb
      rcases ha with ha | ⟨rfl, _⟩
      · exact h.claims.apart a k l ha hb
      · simp [hn] at hb
    · intro k q
      rw [h2, h3]
      by_cases hk : k = part
      · subst hk
        rw [if_pos rfl, List.mem_append, h.claims.waits]; simp
      · rw [if_neg hk, h.claims.waits]; simp [hk]
    · intro k
      show (claimQueue k _).Nodup
      rw [h3]
      split
      · rw [List.nodup_append]
        exact ⟨h.claims.once _, by simp, by
          intro a ha b hb
          simp only [List.mem_singleton] at hb
          subst hb
          rintro rfl
          exact hp _ ha⟩
      · exact h.claims.once k
    · intro k _ hk
      by_cases e : k = part
      · subst e; exact ⟨a, (h1 a k).2 ha⟩
      · have hk' : claimQueue k u ≠ [] := by
          have := hk; simp only [h3, if_neg e] at this; exact this
        obtain ⟨b, hb⟩ := h.claims.claimed k (fun f => f) hk'
        exact ⟨b, (h1 b k).2 hb⟩
  · exact h.kept (by simp)

theorem Units.InOrder.takeBegin {u : Units} (h : u.InOrder) (p : Port) (part : Nat) (wait : Bool) :
    (takeBegin p part wait u).InOrder := by
  unfold Machine.takeBegin
  split
  · rename_i hs; exact h.beginFromNone (by intro k; simp [Slot.holds, hs]) (by simp [hs]) _ _
  · rename_i hs
    exact Units.InOrder.beginFromNone (h.drop (by intro k; simp [Slot.holds, hs]) (by simp [hs]))
      (by intro k; rw [Units.slot_setSlot_self]; exact Slot.start_holds k) (by simp [Slot.start]) _ _
  · exact h.kept (by simp)

theorem Units.InOrder.takeStage {u : Units} (h : u.InOrder) (p : Port) (c : Cmd) (part key cells : Nat) :
    (takeStage p c part key cells u).InOrder := by
  have hd := h.actDue p
  unfold Machine.takeStage
  dsimp only
  split
  · exact hd.notOpen _ _
  split
  · exact hd.kept (by simp)
  split
  · exact hd.kept (by simp)
  · exact hd.kept (by simp)

theorem Units.InOrder.takeCommit {u : Units} (h : u.InOrder) (p : Port) : (takeCommit p u).InOrder := by
  have hd := h.actDue p
  unfold Machine.takeCommit
  dsimp only
  split
  · exact hd.notOpen _ _
  rename_i hs
  simp only [ne_eq, Decidable.not_not] at hs
  split
  · exact Units.OrderedBut.endTransaction (hd.kept (by simp)) (.inl rfl) (by simp [answer, deliver, hs])
  · refine Units.InOrder.kept
      (u := (Machine.actDue p u).setSlot p { (Machine.actDue p u).slot p with state := .committing, lease := none }) ?_ (by simp)
    exact Units.OrderedBut.hold hd (by intro k; simp [Slot.holds, hs]) (by simp) (by simp [hs])

theorem Units.InOrder.takeAbort {u : Units} (h : u.InOrder) (p : Port) : (takeAbort p u).InOrder := by
  have hd := h.actDue p
  unfold Machine.takeAbort
  dsimp only
  split
  · exact hd.notOpen _ _
  rename_i hs
  simp only [ne_eq, Decidable.not_not] at hs
  refine Units.InOrder.kept (u := (Machine.actDue p u).setSlot p
    { (Machine.actDue p u).slot p with state := .aborting, lease := none, reply := some .ok }) ?_ (by simp)
  exact Units.OrderedBut.hold hd (by intro k; simp [Slot.holds, hs]) (by simp) (by simp [hs])

theorem Units.InOrder.takeRenew {u : Units} (h : u.InOrder) (p : Port) : (takeRenew p u).InOrder := by
  have hd := h.actDue p
  unfold Machine.takeRenew
  dsimp only
  split
  · exact hd.notOpen _ _
  · exact hd.kept (by simp)

theorem Units.InOrder.expireLease {u : Units} (h : u.InOrder) (p : Port) : (expireLease p u).InOrder := by
  unfold Machine.expireLease
  split
  · split
    · exact Units.OrderedBut.abortHolder (h.kept (by simp)) _ ‹_›
    · exact h
  · exact h

theorem Units.InOrder.expireWait {u : Units} (h : u.InOrder) (p : Port) : (expireWait p u).InOrder := by
  unfold Machine.expireWait
  split
  · split
    · exact Units.OrderedBut.endWait (h.kept (by simp)) _ ‹_›
    · exact h
  · exact h

theorem Units.InOrder.takeLockEvent {u : Units} (h : u.InOrder) : (takeLockEvent u).InOrder := by
  unfold Machine.takeLockEvent
  split
  · exact h
  · refine Units.InOrder.actLock ?_ _; exact h.kept (by simp)

theorem Units.InOrder.takeRevocation {u : Units} (h : u.InOrder) : (takeRevocation u).InOrder := by
  unfold Machine.takeRevocation
  split
  · exact h
  · refine Units.InOrder.actRevocation ?_ _; exact h.kept (by simp)

theorem Units.InOrder.resetTxn {u : Units} (h : u.InOrder) (p : Port) : (resetTxn p u).InOrder := by
  unfold Machine.resetTxn
  dsimp only
  split
  · exact h
  · rename_i hs
    exact (Units.OrderedBut.endWait h .ok hs).kept rfl
  · rename_i hs
    refine Units.InOrder.kept (u := u.setSlot p { u.slot p with
      state := .aborting, lease := none, reason := none, pending := none, reply := none }) ?_ (by simp)
    exact Units.OrderedBut.hold h (by intro k; simp [Slot.holds, hs]) (by simp) (by simp [hs])
  · rename_i hs
    split
    · refine Units.InOrder.kept (u := u.setSlot p { u.slot p with
        state := .aborting, lease := none, reason := none, pending := none, reply := none }) ?_ rfl
      exact Units.OrderedBut.hold h (by intro k; simp [Slot.holds, hs]) (by simp) (by simp [hs])
    · exact h
  · rename_i hs
    exact Units.OrderedBut.hold h (by intro k; simp [Slot.holds, hs]) (by simp) (by simp [hs])
  · rename_i hs
    exact h.drop (by intro k; simp [Slot.holds, hs]) (by simp [hs])

end Sys2Proof.Machine
end

