-- ==== Sys2Proof/Laws/OrderedUnits.lean ====
section
/-! SUPPORT. The operations of the other units, and the answers to the claims and the array's requests, keep the tables of the units
in order (R37, R43 to R46, R114, R136, R154, R157 to R163). -/

namespace Sys2Proof.Machine

/-! ## Notices -/

theorem mergeInto_length (n : Notice) : ∀ qs, (mergeInto n qs).length = qs.length
  | [] => rfl
  | q :: qs => by unfold mergeInto; split <;> simp [mergeInto_length n qs]

theorem NoticePort.Bounded.place {x : NoticePort} (h : x.Bounded) (n : Notice) : (x.place n).Bounded := by
  unfold NoticePort.place
  split
  · exact ⟨h.watches, h.once, by simp [mergeInto_length, h.queue], h.lost⟩
  split
  · rename_i hq
    exact ⟨h.watches, h.once, by simp [queueCapacity] at hq; simp; omega, h.lost⟩
  · exact ⟨h.watches, h.once, h.queue, by simp [saturate]⟩

theorem NoticePort.Bounded.addWatch {x : NoticePort} (h : x.Bounded) (w : Watch) : (x.addWatch w).1.Bounded := by
  unfold NoticePort.addWatch
  split
  · exact h
  rename_i hc
  split
  · exact h
  rename_i hl
  refine ⟨by simp [watchCapacity] at hl; simp; omega, ?_, h.queue, h.lost⟩
  rw [List.nodup_append]
  refine ⟨h.once, by simp, ?_⟩
  intro a ha b hb
  simp only [List.mem_singleton] at hb; subst hb
  rintro rfl
  exact hc (by simpa using ha)

theorem NoticePort.Bounded.removeWatch {x : NoticePort} (h : x.Bounded) (w : Watch) : (x.removeWatch w).1.Bounded := by
  unfold NoticePort.removeWatch
  split
  · exact ⟨Nat.le_trans List.length_erase_le h.watches, h.once.erase _, h.queue, h.lost⟩
  · exact h

theorem NoticePort.Bounded.pop {x : NoticePort} (h : x.Bounded) : x.pop.1.Bounded := by
  unfold NoticePort.pop
  split
  · rename_i hq
    have := h.queue; rw [hq] at this
    exact ⟨h.watches, h.once, by simp at this; simp; omega, h.lost⟩
  · exact ⟨h.watches, h.once, h.queue, by simp⟩

theorem Units.InOrder.setNotices {u : Units} (h : u.InOrder) {p : Port} {x : NoticePort} (hx : x.Bounded) :
    (u.setNotices p x).InOrder := by
  refine ⟨⟨h.entries, fun q => ?_, h.queues, h.policy, h.images⟩, h.claims⟩
  by_cases hq : p = q
  · subst hq; simpa using hx
  · rw [Units.notices_setNotices_of_ne _ hq]; exact h.notices q

theorem Units.InOrder.placeNotice {u : Units} (h : u.InOrder) (p : Port) (n : Notice) : (placeNotice p n u).InOrder :=
  h.setNotices ((h.notices p).place n)

theorem Units.InOrder.foldl {α : Type} {f : Units → α → Units} (hf : ∀ u x, u.InOrder → (f u x).InOrder) : ∀ (xs :
    List α) {u : Units}, u.InOrder → (xs.foldl f u).InOrder
  | [], _, h => h
  | x :: xs, u, h => by rw [List.foldl_cons]; exact Units.InOrder.foldl hf xs (hf u x h)

theorem Units.InOrder.placeFor {u : Units} (h : u.InOrder) (sel : Port → Bool) (n : Notice) : (placeFor sel n u).InOrder := by
  unfold Machine.placeFor
  refine Units.InOrder.foldl ?_ _ h
  intro u p h
  split
  · exact h.placeNotice _ _
  · exact h

theorem Units.InOrder.takePost {u : Units} (h : u.InOrder) (s : Poster) : (takePost s u).InOrder := by
  unfold Machine.takePost
  split
  · exact h
  · refine Units.InOrder.placeFor ?_ _ _; exact h.kept rfl

theorem Units.InOrder.takeReport {u : Units} (h : u.InOrder) : (takeReport u).InOrder := by
  unfold Machine.takeReport
  split
  · exact h
  · refine Units.InOrder.placeFor ?_ _ _; exact h.kept rfl

theorem Units.InOrder.takeRemoval {u : Units} (h : u.InOrder) : (takeRemoval u).InOrder := by
  unfold Machine.takeRemoval
  split
  · exact h
  · refine ⟨⟨h.entries, fun q => ?_, h.queues, h.policy, h.images⟩, h.claims⟩
    have hb := h.notices q
    simp only [Units.notices, Four.get_map] at hb ⊢
    exact ⟨Nat.le_trans (List.length_filter_le _ _) hb.watches, hb.once.filter _, hb.queue, hb.lost⟩

theorem Units.InOrder.resetNotices {u : Units} (h : u.InOrder) (p : Port) : (resetNotices p u).InOrder := by
  unfold Machine.resetNotices
  exact (h.setNotices (p := p) (x := ⟨[], [], false, 0⟩) ⟨by simp, by simp, by simp, by simp⟩).kept rfl

theorem Units.InOrder.takeWatch {u : Units} (h : u.InOrder) (p : Port) (w : Watch) : (takeWatch p w u).InOrder :=
  (h.setNotices (p := p) ((h.notices p).addWatch w)).kept (by unfold Machine.takeWatch; simp)
theorem Units.InOrder.takeUnwatch {u : Units} (h : u.InOrder) (p : Port) (w : Watch) : (takeUnwatch p w u).InOrder :=
  (h.setNotices (p := p) ((h.notices p).removeWatch w)).kept (by unfold Machine.takeUnwatch; simp)
theorem Units.InOrder.takePop {u : Units} (h : u.InOrder) (p : Port) : (takePop p u).InOrder :=
  (h.setNotices (p := p) ((h.notices p).pop)).kept (by unfold Machine.takePop; simp)

/-! ## Policy -/

theorem mapM_length {α β : Type} (f : α → Option β) : ∀ (xs : List α) {ys : List β}, xs.mapM f = some ys → ys.length = xs.length
  | [], ys, h => by simp at h; simp [h]
  | x :: xs, ys, h => by
    rw [List.mapM_cons] at h
    cases hx : f x with
    | none => simp [hx] at h
    | some y =>
      cases hr : xs.mapM f with
      | none => simp [hx, hr] at h
      | some zs =>
        simp [hx, hr] at h
        subst h
        simp [mapM_length f xs hr]

theorem readPolicy_parts {bs : List Byte} {s : Shadow} (h : readPolicy bs = some s) : s.parts.length = 16 := by
  unfold readPolicy at h
  cases hp : (List.range 16).mapM (readPart bs) with
  | none => simp [hp] at h
  | some parts =>
    have hl := mapM_length _ _ hp
    simp only [hp, Option.bind_eq_bind, Option.bind_some] at h
    rw [Option.bind_eq_some_iff] at h; obtain ⟨a, _, h⟩ := h
    rw [Option.bind_eq_some_iff] at h; obtain ⟨b, _, h⟩ := h
    rw [Option.bind_eq_some_iff] at h; obtain ⟨c, _, h⟩ := h
    rw [Option.bind_eq_some_iff] at h; obtain ⟨d, _, h⟩ := h
    split at h
    · simp only [Option.some.injEq] at h; subst h; simpa using hl
    · simp at h

theorem Units.InOrder.setParts {u : Units} (h : u.InOrder) {x : PolicyUnit} (hx : x.shadow.parts.length = 16) :
    (u.setPu x).InOrder :=
  ⟨⟨h.entries, h.notices, h.queues, hx, h.images⟩, h.claims⟩

theorem Units.InOrder.applyPolicy {u : Units} (h : u.InOrder) (p : Port) (w : WriteSeq) : (applyPolicy p w u).InOrder := by
  unfold Machine.applyPolicy
  dsimp only
  have hn : ((readPolicy w.image).getD u.pu.shadow).parts.length = 16 := by
    cases hr : readPolicy w.image with
    | none => exact h.policy
    | some s => exact readPolicy_parts hr
  generalize (readPolicy w.image).getD u.pu.shadow = new at hn ⊢
  refine Units.InOrder.kept (u := u.setPu { u.pu with shadow := new }) ?_ ?_
  · exact h.setParts hn
  · rw [kept_settle, kept_deliver, kept_compareLow]; rfl

theorem Units.InOrder.policyDone {u : Units} (h : u.InOrder) (ok : Bool) : (policyDone ok u).InOrder := by
  unfold Machine.policyDone
  split
  · split
    · exact h.kept (by simp)
    · split
      · repeat' split
        all_goals exact h.kept (by simp)
      · split
        · exact h.kept (by simp)
        split
        · exact h.kept (by simp)
        · exact h.kept (by simp)
      · split
        · exact h.applyPolicy _ _
        split
        · exact h.kept (by simp)
        · exact h.kept (by simp)
  · exact h

/-! ## Index -/

theorem before_iff (x y : Entry) : IndexUnit.Entry.before x y = true ↔ x.part < y.part ∨ (x.part = y.part ∧ x.key < y.key) := by
  simp [IndexUnit.Entry.before]

/-- The entries in ascending order. -/
def Rising (es : List Entry) : Prop := es.Pairwise fun x y => x.part < y.part ∨ (x.part = y.part ∧ x.key < y.key)

theorem Rising.insert {es : List Entry} (h : Rising es) (e : Entry) : Rising (IndexUnit.insertEntry e es) := by
  unfold Rising at *
  simp only [← before_iff] at h ⊢
  exact insertEntry_sorted h e

theorem Rising.remove {es : List Entry} (h : Rising es) (part key : Nat) : Rising (IndexUnit.removeEntry part key es) :=
  List.Pairwise.filter _ h

theorem Rising.move {es : List Entry} (h : Rising es) (part key : Nat) (l : Location) :
    Rising (IndexUnit.moveEntry part key l es) := by
  unfold Rising IndexUnit.moveEntry at *
  rw [List.pairwise_map]
  refine h.imp fun {x y} hxy => ?_
  have f : ∀ x : Entry, (if x.part = part ∧ x.key = key then ({ x with loc := l } : Entry) else x).part = x.part
      ∧ (if x.part = part ∧ x.key = key then ({ x with loc := l } : Entry) else x).key = x.key := by
    intro x; split <;> exact ⟨rfl, rfl⟩
  rw [(f x).1, (f y).1, (f x).2, (f y).2]; exact hxy

theorem Rising.switchKey {iu : IndexUnit} (h : Rising iu.entries) (e : Entry) (d : Bool) : Rising (iu.switchKey e d).1.entries := by
  unfold IndexUnit.switchKey
  dsimp only
  rw [displace_entries]
  dsimp only
  split
  · exact h.remove _ _
  · exact h.insert _

theorem Rising.switchMembers (part : Nat) : ∀ (ms : List Member) {iu :
    IndexUnit}, Rising iu.entries → Rising (IndexUnit.switchMembers part ms iu).1.entries
  | [], _, h => h
  | m :: ms, iu, h => by
    unfold IndexUnit.switchMembers
    exact Rising.switchMembers part ms (h.switchKey _ _)

theorem Rising.takeCopySwitch {iu : IndexUnit} (h : Rising iu.entries) (w : CopyFor) (o c : Location) (n : Nat) :
    Rising (iu.takeCopySwitch w o c n).1.entries := by
  unfold IndexUnit.takeCopySwitch
  split
  · split
    · rw [entries_kill]; exact h.move _ _ _
    · rw [entries_kill]; exact h
  · split
    · rw [entries_kill]; exact h
    · rw [entries_kill]; exact h

theorem Rising.takeLoss {iu : IndexUnit} (h : Rising iu.entries) (p k : Nat) (l : Location) :
    Rising (iu.takeLoss p k l).1.entries := by
  unfold IndexUnit.takeLoss
  split
  · split
    · rw [entries_kill]; exact h.remove _ _
    · exact h
  · exact h

theorem Units.InOrder.setIu {u : Units} (h : u.InOrder) {x : IndexUnit} (hx : Rising x.entries) : (u.setIu x).InOrder :=
  ⟨⟨hx, h.notices, h.queues, h.policy, h.images⟩, h.claims⟩

theorem Units.InOrder.rising {u : Units} (h : u.InOrder) : Rising u.iu.entries := h.entries


/-! ## Writer -/

theorem Units.InOrder.recordFailed {u : Units} (h : u.InOrder) (c : ResultCode) (r : RecordJob) : (recordFailed c r u).InOrder := by
  unfold Machine.recordFailed
  split
  · exact h.kept (by simp)
  · exact h.kept (by simp)
  · exact Units.InOrder.kept (h.commitFailed c r.port) (by simp)

theorem Units.InOrder.relocate {u : Units} (h : u.InOrder) (r : RecordJob) : (relocate r u).InOrder := by
  unfold Machine.relocate
  dsimp only
  split
  · exact h.kept (by simp)
  · exact Units.InOrder.recordFailed (h.kept (by simp)) _ _

theorem Units.InOrder.endComplete {u : Units} (h : u.InOrder) (p : Port) : (endComplete p u).InOrder := by
  unfold Machine.endComplete
  split
  · exact h.kept (by simp)
  · exact (h.completeEnded p).kept (by simp)

theorem Units.InOrder.retireCommit {u : Units} (h : u.InOrder) (p : Port) (txn : Nat) : (retireCommit p txn u).InOrder := by
  unfold Machine.retireCommit
  split
  · exact h.kept (by simp)
  · exact h.endComplete p

theorem Units.InOrder.checkPromoted {u : Units} (h : u.InOrder) (p : Port) (txn : Nat) : (checkPromoted p txn u).InOrder := by
  unfold Machine.checkPromoted
  dsimp only
  split
  · exact h.kept (by simp)
  · exact Units.InOrder.retireCommit (h.kept (by simp)) _ _

theorem Units.InOrder.promoteFrom {u : Units} (h : u.InOrder) (p : Port) (txn i : Nat) : (promoteFrom p txn i u).InOrder := by
  unfold Machine.promoteFrom
  split
  · exact h.kept (by simp)
  · exact h.checkPromoted _ _

theorem Units.InOrder.buryTombstone {u : Units} (h : u.InOrder) (p : Port) (txn i : Nat) (b : Bool) :
    (buryTombstone p txn i b u).InOrder := by
  unfold Machine.buryTombstone
  split
  · split
    · dsimp only
      split
      · exact h.kept (by simp)
      · exact h.kept (by simp)
    · exact h.promoteFrom _ _ _
  · exact h.promoteFrom _ _ _

theorem Units.InOrder.retireOld {u : Units} (h : u.InOrder) (p : Port) (txn i : Nat) (d : List (Option Displaced)) :
    (retireOld p txn i d u).InOrder := by
  unfold Machine.retireOld
  split
  · exact h.kept (by simp)
  · exact h.buryTombstone _ _ _ _

theorem Units.InOrder.skipMember {u : Units} (h : u.InOrder) (p : Port) (txn i : Nat) (d : List (Option Displaced)) :
    (skipMember p txn i d u).InOrder := by
  unfold Machine.skipMember
  split
  · exact h.kept (by simp)
  · exact h.promoteFrom _ _ _

theorem Units.InOrder.startRecord {u : Units} (h : u.InOrder) (r : RecordJob) : (startRecord r u).InOrder := by
  unfold Machine.startRecord
  split
  · exact h.kept (by simp)
  split
  · exact h.recordFailed _ _
  · exact h.kept (by simp)

theorem Units.InOrder.startJob {u : Units} (h : u.InOrder) (j : Job) : (startJob j u).InOrder := by
  unfold Machine.startJob
  dsimp only
  have h' := fun x => Units.InOrder.kept (v := u.setRw x) h (by simp)
  split
  · exact (h' _).startRecord _
  · exact h.kept (by simp)
  · exact (h' _).promoteFrom _ _ _
  · exact h.kept (by simp)

theorem Units.InOrder.takeJobs : ∀ (n : Nat) {u : Units}, u.InOrder → (takeJobs n u).InOrder
  | 0, _, h => h
  | n + 1, u, h => by
    unfold Machine.takeJobs
    split
    · exact Units.InOrder.takeJobs n (Units.InOrder.startJob (h.kept (by simp)) _)
    · exact h

theorem Units.InOrder.kick {u : Units} (h : u.InOrder) : (kick u).InOrder := Units.InOrder.takeJobs _ h

theorem Units.InOrder.statusDone {u : Units} (h : u.InOrder) (ok : Bool) (st : WStep) (c : CurJob) :
    (statusDone ok st c u).InOrder := by
  unfold Machine.statusDone
  split
  · exact h.kept (by simp)
  · split
    · exact h.checkPromoted _ _
    split
    · exact h.retireOld _ _ _ _
    · exact h.skipMember _ _ _ _
  · exact h.kept (by simp)
  · exact h

theorem Units.InOrder.statusShort {u : Units} (h : u.InOrder) (st : WStep) (seg : Nat) (c : CurJob) :
    (statusShort st seg c u).InOrder := by
  unfold Machine.statusShort
  dsimp only
  split
  · exact h.kept (by simp)
  · exact Units.InOrder.statusDone (h.kept (by simp)) _ _ _

theorem Units.InOrder.writerDone {u : Units} (h : u.InOrder) (ok : Bool) : (writerDone ok u).InOrder := by
  unfold Machine.writerDone
  split
  · exact h
  · repeat' split
    all_goals first
      | exact h
      | exact h.statusDone _ _ _
      | exact h.statusShort _ _ _
      | exact h.kept (by simp)
      | exact Units.InOrder.relocate (h.kept (by simp)) _
      | exact Units.InOrder.statusDone (h.kept (by simp)) _ _ _

theorem Units.InOrder.writerUnpinned {u : Units} (h : u.InOrder) : (writerUnpinned u).InOrder := by
  unfold Machine.writerUnpinned
  repeat' split
  all_goals first
    | exact h
    | exact h.buryTombstone _ _ _ _
    | exact h.promoteFrom _ _ _
    | exact h.kept (by simp)

theorem Units.InOrder.writerReported {u : Units} (h : u.InOrder) (l : Option Location) : (writerReported l u).InOrder := by
  unfold Machine.writerReported
  repeat' split
  all_goals first
    | exact h
    | exact h.endComplete _
    | exact h.promoteFrom _ _ _
    | exact h.kept (by simp)

/-! ## Ports -/

theorem kept_answerWith (p : Port) (r : Units × ResultCode) : (answerWith p r).kept = r.1.kept := by simp [answerWith]

theorem Units.InOrder.carryOut {u : Units} (h : u.InOrder) (p : Port) (c : Cmd) (q : Params) (part : Nat) :
    (carryOut p c q part u).InOrder := by
  unfold Machine.carryOut
  cases c <;> dsimp only
  case begin => exact h.takeBegin _ _ _
  case stageWrite => exact h.takeStage _ _ _ _ _
  case stageDelete => exact h.takeStage _ _ _ _ _
  case commit => exact h.takeCommit _
  case abort => exact h.takeAbort _
  case renew => exact h.takeRenew _
  case watch => exact h.takeWatch _ _
  case unwatch => exact h.takeUnwatch _ _
  case noticePop => exact h.takePop _
  case bind => exact h.kept (by rw [kept_answerWith]; simp)
  case policyLoad => exact h.kept (by rw [kept_answerWith]; simp)
  case policyDiscard => exact h.kept (by rw [kept_answerWith]; simp)
  all_goals exact h.kept (by simp)

theorem Units.InOrder.takeCmd {u : Units} (h : u.InOrder) (p : Port) (c : Cmd) : (takeCmd p c u).InOrder := by
  unfold Machine.takeCmd
  dsimp only
  split
  · exact h.kept (by simp)
  · exact Units.InOrder.carryOut (h.kept (by simp)) _ _ _ _

theorem Units.InOrder.takeCode {u : Units} (h : u.InOrder) (p : Port) (b : Byte) : (takeCode p b u).InOrder := by
  unfold Machine.takeCode
  split
  · exact h.kept (by simp)
  · exact h
  · split
    · exact h.kept (by simp)
    · exact h.takeCmd _ _

theorem Units.InOrder.endSpaceJob {u : Units} (h : u.InOrder) (c : ResultCode) (r : RecordJob) : (endSpaceJob c r u).InOrder := by
  unfold Machine.endSpaceJob
  split
  · exact h.kept (by simp)
  · exact h.kept (by simp)
  · exact (h.commitReturned c r.port).kept (by simp)

theorem Units.InOrder.takeCancel {u : Units} (h : u.InOrder) (p : Port) : (takeCancel p u).InOrder := by
  unfold Machine.takeCancel
  split
  · exact h.kept (by simp)
  split
  · split
    · exact Units.OrderedBut.endWait h _ ‹_›
    · exact h.kept (by simp)
  split
  · split
    · exact Units.InOrder.endSpaceJob (h.kept (by simp)) _ _
    · exact h.kept (by simp)
  · exact h.kept (by simp)

theorem Units.InOrder.resetWork {u : Units} (h : u.InOrder) (p : Port) : (resetWork p u).InOrder := by
  unfold Machine.resetWork
  have h1 : (dropWaitingSingle p (withdrawClaims p (dropRead p u))).InOrder := h.kept (by simp)
  exact ((h1.resetTxn p).resetNotices p).kept (by simp)

theorem Units.InOrder.takeReset {u : Units} (h : u.InOrder) (p : Port) : (takeReset p u).InOrder := by
  unfold Machine.takeReset
  split
  · exact Units.InOrder.kept (u := Machine.resetNotices p (u.modPort p MasterPort.cleared))
      (Units.InOrder.resetNotices (h.kept (by simp)) p) (by simp)
  · dsimp only
    split
    · exact (h.resetWork p).kept (by simp)
    · exact (h.resetWork p).kept (by simp)

theorem Units.InOrder.takeControl {u : Units} (h : u.InOrder) (p : Port) (b : Byte) : (takeControl p b u).InOrder := by
  unfold Machine.takeControl
  split
  · exact h.kept (by simp)
  split
  · exact h.takeCancel p
  split
  · exact h.takeReset p
  · exact h

theorem Units.InOrder.endFrame {u : Units} (h : u.InOrder) (p : Port) : (endFrame p u).InOrder := by
  unfold Machine.endFrame
  split
  · exact h
  · rename_i f _
    have h1 : (u.modPort p fun x => x.closeFrame f).InOrder := h.kept (by simp)
    refine Units.InOrder.kept (Units.InOrder.kick (Units.InOrder.kept ?_ (kept_modPort _ _ _))) (kept_settle _ _)
    obtain ⟨v, hv⟩ : ∃ v, v = u.modPort p fun x => x.closeFrame f := ⟨_, rfl⟩
    rw [← hv] at h1
    simp only [← hv]
    have h2 : (match f.control with | some b => Machine.takeControl p b v | none => v).InOrder := by
      split
      · exact h1.takeControl _ _
      · exact h1
    split
    · exact h2.takeCode _ _
    · exact h2

theorem Units.InOrder.wholeFrame {u : Units} (h : u.InOrder) (p : Port) (bs : List Byte) : (wholeFrame p bs u).InOrder := by
  unfold Machine.wholeFrame
  split
  · exact h
  · refine Units.InOrder.endFrame ?_ p
    refine Units.InOrder.foldl ?_ _ (h.kept (by simp))
    intro u b h
    exact h.kept (by simp)

theorem Units.InOrder.linkEvent {u : Units} (h : u.InOrder) (p : Port) (e : LinkEvent) : (linkEvent p e u).InOrder := by
  unfold Machine.linkEvent
  split
  · exact h.kept (by simp)
  · exact h.kept (by simp)
  · exact h.endFrame p
  · exact h.wholeFrame p _

/-! ## Claims -/

theorem Units.InOrder.releaseCharges {u : Units} (h : u.InOrder) (s : Claimant) (w : ReleaseWhat) :
    (releaseCharges s w u).InOrder := by
  unfold Machine.releaseCharges
  dsimp only
  split
  · exact h.kept (by simp)
  · exact Units.InOrder.abortEnded (h.kept (by simp)) _
  · exact h.kept (by simp)

theorem Units.InOrder.switchClaim {u : Units} (h : u.InOrder) (c : SwitchClaim) : (switchClaim c u).InOrder := by
  unfold Machine.switchClaim
  refine Units.InOrder.kept (u := u.setIu (u.iu.takeSwitch c).1) (h.setIu ?_) (by simp)
  exact Rising.switchKey (iu := { u.iu with charges := IndexUnit.dropSingle c.source u.iu.charges }) h.rising _ _

theorem Units.InOrder.commitSwitchClaim {u : Units} (h : u.InOrder) (part txn : Nat) (l : Location) (p : Port) :
    (commitSwitchClaim part txn l p u).InOrder := by
  unfold Machine.commitSwitchClaim
  refine Units.InOrder.kept (u := u.setIu (u.iu.takeCommitSwitch part txn l p (u.slot p).members).1) (h.setIu ?_) ?_
  · exact Rising.switchMembers part (u.slot p).members
      (iu := { u.iu with charges := IndexUnit.dropStaged p u.iu.charges }) h.rising
  · dsimp only
    rw [kept_writerCommitted, kept_modSlot _ _ _ rfl rfl, kept_foldl _ (fun _ _ => kept_sendReport _ _)]

theorem Units.InOrder.copySwitchClaim {u : Units} (h : u.InOrder) (w : CopyFor) (o c : Location) (n : Nat) :
    (copySwitchClaim w o c n u).InOrder := by
  unfold Machine.copySwitchClaim
  exact Units.InOrder.kept (u := u.setIu (u.iu.takeCopySwitch w o c n).1) (h.setIu (h.rising.takeCopySwitch _ _ _ _)) (by simp)

theorem Units.InOrder.lossClaim {u : Units} (h : u.InOrder) (p k : Nat) (l : Location) : (lossClaim p k l u).InOrder := by
  unfold Machine.lossClaim
  exact Units.InOrder.kept (u := u.setIu (u.iu.takeLoss p k l).1) (h.setIu (h.rising.takeLoss _ _ _)) (by simp)

theorem Units.InOrder.unpinClaim {u : Units} (h : u.InOrder) (s : Claimant) (seg : Nat) : (unpinClaim s seg u).InOrder := by
  unfold Machine.unpinClaim
  dsimp only
  split
  · exact Units.InOrder.writerUnpinned (h.kept (by simp))
  · exact h.kept (by simp)

theorem Units.InOrder.reportClaim {u : Units} (h : u.InOrder) (s : Claimant) (w : ReportWhat) : (reportClaim s w u).InOrder := by
  unfold Machine.reportClaim
  have h1 : ∀ r : IndexUnit × Option Location, r.1.entries = u.iu.entries → (u.setIu r.1).InOrder :=
      fun r hr => h.kept (kept_setIu _ _ hr)
  have h2 : (match w with
      | .dead l cells => (u.iu.kill l cells, none)
      | .commitRetired txn l => u.iu.takeCommitReport txn l : IndexUnit × Option Location).1.entries
      = u.iu.entries := by split <;> simp
  have h3 := h1 _ h2
  dsimp only
  split
  · exact h3.writerReported _
  · exact h3.kept (kept_engineReported _)
  · exact h3

theorem Units.InOrder.noVictimClaim {u : Units} (h : u.InOrder) : (noVictimClaim u).InOrder := by
  unfold Machine.noVictimClaim
  dsimp only
  refine Units.InOrder.kept (Units.InOrder.foldl (fun u r h => Units.InOrder.endSpaceJob h _ r) _ ?_) (kept_engineNoVictim _)
  exact h.kept (by simp)


/-! ## Mount -/

theorem chooseImage_mem : ∀ (xs : List (Nat × Shadow)) {y : Nat × Shadow}, chooseImage xs = some y → y ∈ xs
  | [], _, h => by simp [chooseImage] at h
  | x :: xs, y, h => by
    unfold chooseImage at h
    split at h
    · simp only [Option.some.injEq] at h; subst h; simp
    · rename_i z hz
      split at h
      · simp only [Option.some.injEq] at h; subst h; simp
      · simp only [Option.some.injEq] at h; subst h
        exact List.mem_cons_of_mem _ (chooseImage_mem xs hz)

theorem Units.InOrder.policyLoaded {u : Units} (h : u.InOrder) : (policyLoaded u).InOrder := by
  unfold Machine.policyLoaded
  split
  · rename_i seg s hs
    exact Units.InOrder.kept (h.setParts (x := { u.pu with shadow := s, source := .loaded, inForce := some seg })
      (h.images _ (chooseImage_mem _ hs))) (kept_modMe _ _ rfl)
  · exact Units.InOrder.kept (h.setParts (x := { u.pu with
      shadow := { Shadow.factory with seq := u.me.greatest }, source := .defaulted, inForce := none })
      (by simp [Shadow.factory])) (kept_modMe _ _ rfl)

theorem Units.InOrder.judgeImage {u : Units} (h : u.InOrder) (seg : Nat) (bs : List Byte) : (judgeImage seg bs u).InOrder := by
  unfold Machine.judgeImage
  refine ⟨⟨h.entries, h.notices, h.queues, h.policy, ?_⟩, h.claims⟩
  intro x hx
  simp only [modMe, Units.setMe] at hx
  split at hx
  · rename_i s hs
    rcases List.mem_append.1 hx with hx | hx
    · exact h.images _ hx
    · simp only [List.mem_singleton] at hx; subst hx
      unfold usableImage at hs
      split at hs
      · exact readPolicy_parts hs
      · simp at hs
  · exact h.images _ hx

theorem Units.InOrder.policyRead {u : Units} (h : u.InOrder) (seg : Nat) (bs : List Byte) : (policyRead seg bs u).InOrder := by
  have hj := h.judgeImage seg bs
  unfold Machine.policyRead
  dsimp only
  split
  · exact hj.kept (by simp)
  · exact Units.InOrder.kept hj.policyLoaded (by simp)

theorem Rising.insertAll (ix : List Candidate) : ∀ {es : List Entry}, Rising es →
    Rising (ix.foldl (fun es c => IndexUnit.insertEntry c.entry es) es) := by
  induction ix with
  | nil => intro es h; exact h
  | cons c cs ih => intro es h; rw [List.foldl_cons]; exact ih (h.insert _)

theorem queues_empty (k : Nat) : (List.replicate 16 ([] : List Port)).getD k [] = [] := by
  rw [List.getD_eq_getElem?_getD, List.getElem?_replicate]
  split <;> rfl

theorem Units.InOrder.handOverTables {u : Units} (h : u.InOrder) : (handOverTables u).InOrder := by
  have e := handOverTables_eq u
  dsimp only at e
  rw [e]
  refine ⟨⟨?_, ?_, ?_, ?_, ?_⟩, ?_⟩
  · exact Rising.insertAll _ List.Pairwise.nil
  · exact h.notices
  · exact List.length_replicate
  · exact h.policy
  · exact h.images
  · have hs : ∀ p, (Four.all Slot.start).get p = Slot.start := fun p => by cases p <;> rfl
    have hq : ∀ k, (List.replicate 16 ([] : List Port)).getD k [] = [] := queues_empty
    exact {
      single := fun p q k hp _ => by
        have : ((Four.all Slot.start).get p).holds k = true := hp
        rw [hs, Slot.start_holds] at this; cases this
      apart := fun p k l hp _ => by
        have : ((Four.all Slot.start).get p).state = .waiting := hp.1
        rw [hs] at this; cases this
      waits := fun k q => by
        constructor
        · intro hm
          have : q ∈ (List.replicate 16 ([] : List Port)).getD k [] := hm
          rw [hq] at this; cases this
        · rintro ⟨hw, _⟩
          have : ((Four.all Slot.start).get q).state = .waiting := hw
          rw [hs] at this; cases this
      once := fun k => by
        show ((List.replicate 16 ([] : List Port)).getD k []).Nodup
        rw [hq]; exact List.nodup_nil
      claimed := fun k _ hm => absurd (hq k) hm }

theorem Units.InOrder.repairNext : ∀ (n : Nat) {u : Units}, u.InOrder → (repairNext n u).InOrder
  | 0, u, h => Units.InOrder.handOverTables (h.kept (by simp))
  | n + 1, u, h => by
    unfold Machine.repairNext
    split
    · exact h.kept (by simp)
    · exact Units.InOrder.repairNext n (h.kept (by simp))

theorem Units.InOrder.startRepair {u : Units} (h : u.InOrder) : (startRepair u).InOrder := by
  unfold Machine.startRepair
  exact Units.InOrder.repairNext _ (h.kept (by simp))

theorem Units.InOrder.nextScan {u : Units} (h : u.InOrder) : (nextScan u).InOrder := by
  unfold Machine.nextScan
  split
  · exact h.kept (by simp)
  · exact h.startRepair

theorem Units.InOrder.startRecords {u : Units} (h : u.InOrder) : (startRecords u).InOrder := by
  unfold Machine.startRecords
  exact Units.InOrder.nextScan (h.kept (by simp))

theorem Units.InOrder.nextClosing {u : Units} (h : u.InOrder) : (nextClosing u).InOrder := by
  unfold Machine.nextClosing
  split
  · exact h.kept (by simp)
  · exact h.startRecords

theorem Units.InOrder.nextHeader {u : Units} (h : u.InOrder) (seg : Nat) : (nextHeader seg u).InOrder := by
  unfold Machine.nextHeader
  split
  · exact h.kept (by simp)
  · exact Units.InOrder.nextClosing (h.kept (by simp))

theorem Units.InOrder.headerRead {u : Units} (h : u.InOrder) (seg : Nat) (bs : List Byte) : (headerRead seg bs u).InOrder := by
  unfold Machine.headerRead
  split
  · exact Units.InOrder.nextHeader (h.kept (by simp)) _
  · exact h.kept (by simp)

theorem Units.InOrder.mountClosed {u : Units} (h : u.InOrder) (ok : Bool) (seg n : Nat) : (mountClosed ok seg n u).InOrder := by
  unfold Machine.mountClosed
  split
  · exact h.kept (by simp)
  · exact Units.InOrder.nextClosing (h.kept (by simp))

theorem Units.InOrder.scanOn {u : Units} (h : u.InOrder) (seg n : Nat) : (scanOn seg n u).InOrder := by
  unfold Machine.scanOn
  split
  · exact h.kept (by simp)
  · exact h.nextScan

theorem Units.InOrder.scanHeaderRead {u : Units} (h : u.InOrder) (seg cell : Nat) (bs : List Byte) :
    (scanHeaderRead seg cell bs u).InOrder := by
  unfold Machine.scanHeaderRead
  dsimp only
  split
  · exact h.nextScan
  split
  · refine Units.InOrder.nextScan ?_
    split
    · exact h.kept (by simp)
    · exact h
  split
  · exact h.kept (by simp)
  · exact Units.InOrder.scanOn (h.kept (by simp)) _ _

theorem Units.InOrder.scanBodyRead {u : Units} (h : u.InOrder) (seg cell : Nat) (bs : List Byte) :
    (scanBodyRead seg cell bs u).InOrder := by
  unfold Machine.scanBodyRead
  exact Units.InOrder.scanOn (h.kept (by simp)) _ _

theorem Units.InOrder.repairDone {u : Units} (h : u.InOrder) : (repairDone u).InOrder := by
  unfold Machine.repairDone
  exact Units.InOrder.repairNext _ (h.kept (by simp))

theorem Units.InOrder.repaired {u : Units} (h : u.InOrder) (ok : Bool) (a b : Nat) : (repaired ok a b u).InOrder := by
  unfold Machine.repaired
  split
  · exact h
  · dsimp only
    split
    · split
      · exact Units.InOrder.repairDone (h.kept (by simp))
      split
      · exact h.kept (by simp)
      · exact h.repairDone
    split
    · exact h.kept (by simp)
    split
    · exact Units.InOrder.repairDone (h.kept (by simp))
    · exact Units.InOrder.repairDone (h.kept (by simp))

theorem Units.InOrder.mountReadDone {u : Units} (h : u.InOrder) (bs : List Byte) : (mountReadDone bs u).InOrder := by
  unfold Machine.mountReadDone
  split
  · exact h.policyRead _ _
  · exact h.headerRead _ _
  · exact h.scanHeaderRead _ _ _
  · exact h.scanBodyRead _ _ _
  · exact h

theorem Units.InOrder.mountProgramDone {u : Units} (h : u.InOrder) (ok : Bool) : (mountProgramDone ok u).InOrder := by
  unfold Machine.mountProgramDone
  split
  · exact h.mountClosed _ _ _
  · exact h.repaired _ _ _
  · exact h

theorem Units.InOrder.mountBlankDone {u : Units} (h : u.InOrder) (ok : Bool) : (mountBlankDone ok u).InOrder := by
  unfold Machine.mountBlankDone
  split
  · exact Units.InOrder.nextHeader (h.kept (by simp)) _
  · exact h

/-! ## The array -/

theorem kept_notePresented (r : Request) (u : Units) : (notePresented r u).kept = u.kept := by
  unfold notePresented; split
  · simp
  · split <;> simp
  · simp
  · exact kept_setPu _ _ rfl
  · exact kept_setMe _ _ rfl

theorem Units.InOrder.setPuIo {u : Units} (h : u.InOrder) (io : Io) :
    (u.setPu { u.pu with io := io }).InOrder := h.kept (kept_setPu _ _ rfl)
theorem Units.InOrder.setMeIo {u : Units} (h : u.InOrder) (io : Io) :
    (u.setMe { u.me with io := io }).InOrder := h.kept (kept_setMe _ _ rfl)
theorem Units.InOrder.setRwIo {u : Units} (h : u.InOrder) (io : Io) : (u.setRw { u.rw with io := io }).InOrder := h.kept (by simp)

theorem Units.InOrder.readDelivered {u : Units} (h : u.InOrder) (r : Request) (bs : List Byte) :
    (readDelivered r bs u).InOrder := by
  unfold Machine.readDelivered
  split
  · split
    · exact h.kept (by simp)
    split
    · exact h.kept (by simp)
    · exact h
  · split
    · exact h.kept (by simp)
    · exact h
  · split
    · exact (h.setMeIo _).mountReadDone _
    · exact h
  · exact h

theorem Units.InOrder.programDelivered {u : Units} (h : u.InOrder) (r : Request) (ok : Bool) :
    (programDelivered r ok u).InOrder := by
  unfold Machine.programDelivered
  split
  · split
    · exact ((h.setRwIo _).writerDone _).kick
    · exact h
  · split
    · exact h.kept (by simp)
    · exact h
  · split
    · exact (h.setPuIo _).policyDone _
    · exact h
  · split
    · exact (h.setMeIo _).mountProgramDone _
    · exact h
  · exact h

theorem Units.InOrder.eraseDelivered {u : Units} (h : u.InOrder) (r : Request) (ok : Bool) : (eraseDelivered r ok u).InOrder := by
  unfold Machine.eraseDelivered
  split
  · split
    · exact h.kept (by simp)
    · exact h
  · split
    · exact (h.setPuIo _).policyDone _
    · exact h
  · exact h

theorem Units.InOrder.blankDelivered {u : Units} (h : u.InOrder) (r : Request) (ok : Bool) : (blankDelivered r ok u).InOrder := by
  unfold Machine.blankDelivered
  split
  · split
    · exact (h.setMeIo _).mountBlankDone _
    · exact h
  · exact h

theorem Units.InOrder.mediaFault {u : Units} (h : u.InOrder) (ok : Bool) : (mediaFault ok u).InOrder := by
  unfold Machine.mediaFault; split
  · exact h
  · exact h.kept rfl

theorem arrayFree_inOrder {s : State} (h : s.units.InOrder) (b : Bool) (j : Option Request) : (arrayFree b j s).units.InOrder := by
  unfold arrayFree
  dsimp only
  split
  · exact h
  · split
    · exact h.kept (kept_notePresented _ _)
    · exact h

theorem endOperation_inOrder {s : State} (h : s.units.InOrder) (c : Ending) (j : Option Request) :
    (endOperation c j s).units.InOrder := by
  unfold endOperation
  split
  · exact arrayFree_inOrder (h.readDelivered _ _) _ _
  · exact arrayFree_inOrder ((h.mediaFault _).programDelivered _ _) _ _
  · exact arrayFree_inOrder ((h.mediaFault _).eraseDelivered _ _) _ _
  · exact arrayFree_inOrder (h.blankDelivered _ _) _ _
  · exact h

end Sys2Proof.Machine
end

