-- ==== Sys2Proof/Tests/Slice0.lean ====
section
/-! SUPPORT. Own tests: the operand checks on ill-formed terms, reference values of the spec, and for each statement a state
and operands that meet its hypotheses. -/

namespace Sys2Proof.Tests

-- one theorem at a time: many kernel evaluations at once would each take a thread
set_option Elab.async false

open Sys2Proof Sys2Proof.Machine

/-! ## Small states -/

/-- A data segment that is prepared, with cells allocated up to `next` when it is a head or full. -/
def segAt (st : SegState) (next live dead : Nat) (avail : Bool) : SegEntry := ⟨st, 0, some 0, next, live, dead, 0, false, avail⟩

/-- A mounted part with the factory policy: segment 2 the write head, 3 the copy head, 4 FULL, 5 to 8 PREPARED; every port
READY with partition 0 in its view slot 0. -/
def mounted : Units := { Units.start with
  ports := Four.all { MasterPort.start with state := .ready },
  pu := { PolicyUnit.start with views := Four.all ⟨some 0, none, none, none⟩ },
  iu := { IndexUnit.start with
    writeHead := some 2, copyHead := some 3,
    segs := [segAt .active 5 4 0 false, segAt .active 1 0 0 false, segAt .full 128 100 27 false,
      segAt .prepared 1 0 0 true, segAt .prepared 1 0 0 true, segAt .prepared 1 0 0 true, segAt .prepared 1 0 0 true] },
  me := { MountEngine.start with phase := .done, step := .done, io := Io.none } }

/-- The mounted part, changed. -/
def part (f : Units → Units) : State := { State.reset with units := f mounted }

/-- A port's parameters, written. -/
def params (slot flags : Byte) (key : Half) (length offset partition source : Byte) (u : Units) : Units :=
  u.modPort .a fun x => { x with params := ⟨slot, flags, key, length, offset, partition, source⟩ }

/-- A command in hand at port A. -/
def holding (c : Cmd) (w : Work) (u : Units) : Units :=
  u.modPort .a fun x => { x with state := .busy, inHand := some ⟨c, x.params, x.buffer, w⟩ }

/-- The slot of port A, changed. -/
def slotA (f : Slot → Slot) (u : Units) : Units := u.modSlot .a f

/-- An OPEN slot of port A on partition 0 with some members. -/
def openA (ms : List Member) (u : Units) : Units :=
  slotA (fun s => { s with state := .opened, part := 0, number := 7, members := ms, lease := some ⟨800, 600, true⟩ }) u

/-- The Writer with a job in a step. -/
def writing (j : Job) (st : WStep) (u : Units) : Units := u.setRw { u.rw with cur := some ⟨j, st, []⟩ }

/-- The engine in a step. -/
def engineIn (st : CStep) (u : Units) : Units := u.setCe { u.ce with step := st, victim := some 4 }

/-- The Array Controller with an operation in progress. -/
def running (who : Requester) (seg : Nat) (op : ArrayOp) : State :=
  { part id with ac := { ArrayController.start with running := some ⟨0, who, seg, op⟩, arrivals := 1 } }

/-- A record of 5 bytes for partition 0, key 3. -/
def record (role : JobRole) (kind : RecordKind) : RecordJob :=
  ⟨.a, role, kind, 0, 3, if kind = .data then 5 else 0, if role = .single then 0 else 7, if kind = .data then [1, 2, 3, 4, 5] else [],
    some 9, 0⟩

/-- An entry of partition 0, key 3, at segment 4. -/
def entry3 : Entry := ⟨0, 3, ⟨4, 10⟩, 5, 8, 2⟩

def indexed (es : List Entry) (u : Units) : Units := u.setIu { u.iu with entries := es }

/-- A staged WRITE of key 3. -/
def member3 : Member := ⟨3, .write, 5, 8, ⟨2, 1⟩, 2, false⟩

/-- The header of a record of key 3. -/
def header3 : Header := newHeader .data 0 3 5 7 8 [1, 2, 3, 4, 5]

/-- A copy of the record at segment 4. -/
def copy3 : Copy := ⟨⟨4, 10⟩, header3, [], .entry, .live, 0, ⟨3, 1⟩⟩

/-- Sixteen bytes. -/
def cell16 : List Byte := 0x7F :: List.replicate 15 0xFF

/-! ## The hypotheses as decidable checks -/

def quietB (p : Port) (s : State) : Bool :=
  let x := s.units.port p
  s.running && x.frame.isNone && x.outcome.isNone && !x.draining && !x.handOver
    && (s.units.rw.cur.isSome || s.units.rw.queue.isEmpty)

theorem quiet_of {p : Port} {s : State} (h : quietB p s = true) : Quiet p s := by
  simp only [quietB, Bool.and_eq_true, Bool.not_eq_true', Option.isNone_iff_eq_none, Bool.or_eq_true, List.isEmpty_iff] at h
  obtain ⟨⟨⟨⟨⟨h1, h2⟩, h3⟩, h4⟩, h5⟩, h6⟩ := h
  exact ⟨h1, h2, h3, h4, h5, h6⟩

def takingB (p : Port) (s : State) : Bool :=
  quietB p s && ((s.units.port p).state == .ready || (s.units.port p).state == .done)

theorem taking_of {p : Port} {s : State} (h : takingB p s = true) : Taking p s := by
  simp only [takingB, Bool.and_eq_true, Bool.or_eq_true, beq_iff_eq] at h
  exact { quiet_of h.1 with state := h.2 }

def admittedB (c : Cmd) (p : Port) (part : Nat) (s : State) : Bool :=
  let q := (s.units.port p).params
  let sh := s.units.pu.shadow
  let bound := resolve p q.slot s.units == some part
  ([Cmd.read, .stat, .list, .watch].contains c && bound && sh.mayRead p part)
    || ([Cmd.write, .delete, .begin, .stageWrite, .stageDelete].contains c && bound && sh.mayWrite p part
        && lockOf s.units part == .opened)
    || (c == .freeze && bound && sh.mayWrite p part)
    || ([Cmd.policyLoad, .policyCommit, .policyDiscard, .reclaim].contains c && sh.authority p && part == 0)
    || ([Cmd.commit, .abort, .renew, .bind, .unwatch, .noticePop, .policyRead, .info].contains c && part == 0)

theorem admitted_of {c : Cmd} {p : Port} {part : Nat} {s : State} (h : admittedB c p part s = true) :
    admitted c p part s := by
  simp only [admittedB, Bool.and_eq_true, Bool.or_eq_true, beq_iff_eq, List.contains_iff_mem, and_assoc, or_assoc] at h
  exact h

def outOfRangeB (c : Cmd) (q : Params) : Bool :=
  ([Cmd.read, .stat, .write, .delete, .stageWrite, .stageDelete].contains c && q.key == 0xFFFF)
    || ([Cmd.read, .write, .stageWrite].contains c && decide (240 < q.length.toNat))
    || (c == .read && decide (240 < q.offset.toNat))
    || ([Cmd.watch, .unwatch].contains c && !q.flags.getLsbD 0 && q.key == 0xFFFF)
    || (c == .unwatch && decide (15 < q.part.toNat))
    || (c == .policyRead && decide (1 < q.source.toNat))

theorem outOfRange_iff {c : Cmd} {q : Params} : outOfRangeB c q = true ↔ outOfRange c q := by
  simp only [outOfRangeB, outOfRange, Bool.and_eq_true, Bool.or_eq_true, beq_iff_eq, List.contains_iff_mem, and_assoc,
    or_assoc, decide_eq_true_eq, Bool.not_eq_true']

def passingB (c : Cmd) (p : Port) (part : Nat) (s : State) : Bool :=
  takingB p s && admittedB c p part s && !outOfRangeB c (s.units.port p).params

theorem passing_of {c : Cmd} {p : Port} {part : Nat} {s : State} (h : passingB c p part s = true) : Passing c p part s := by
  simp only [passingB, Bool.and_eq_true, Bool.not_eq_true'] at h
  refine { taking_of h.1.1 with admitted := admitted_of h.1.2, inRange := fun ho => ?_ }
  rw [outOfRange_iff.2 ho] at h
  exact absurd h.2 (by decide)

/-! ## The operand checks refuse ill-formed terms -/

theorem test_wf_torn_program : (Instr.powerLoss ⟨List.replicate 17 0, []⟩).wf = false := by decide +kernel
theorem test_wf_torn_erase : (Instr.powerOn ⟨[], [(2048, 1)]⟩).wf = false := by decide +kernel
theorem test_wf_torn_edge : (Instr.resetNAssert ⟨List.replicate 16 0, [(2047, 1)]⟩).wf = true := by decide +kernel
theorem test_wf_unknown_zero : (Instr.unknownCommand .a 0).wf = false := by decide +kernel
theorem test_wf_unknown_known : (Instr.unknownCommand .b 0x71).wf = false := by decide +kernel
theorem test_wf_unknown_edge : (Instr.unknownCommand .b 0x72).wf = true := by decide +kernel
theorem test_wf_program_short : (Instr.arrayRequest ⟨⟨.writer, 2, .program 1 [0]⟩, none⟩).wf = false := by decide +kernel
theorem test_wf_stuck_long : (Instr.arrayProgramDone (List.replicate 17 0)).wf = false := by decide +kernel
theorem test_wf_kept_outside : (Instr.arrayEraseDone ⟨true, [(2048, 0)]⟩).wf = false := by decide +kernel
theorem test_wf_joined : let r : Request := ⟨.writer, 2, .program 1 cell16⟩
    (Instr.arrayRequest ⟨⟨.writer, 2, .program 1 [0]⟩, some .read⟩).wf = false
    ∧ (Instr.arrayRequest ⟨r, some (.program (List.replicate 17 0))⟩).wf = false
    ∧ (Instr.arrayRequest ⟨r, some (.erase ⟨true, [(2048, 0)]⟩)⟩).wf = false
    ∧ (Instr.arrayRequest ⟨r, some (.program (List.replicate 16 0))⟩).wf = true := by decide +kernel

/-! ## Reference values (R16, section 11.1, section 11.3) -/

theorem test_crc_empty : crc [] = 0xFFFF := by decide +kernel
theorem test_crc_zero : crc [0] = 0xE1F0 := by decide +kernel
theorem test_crc_digits : crc [0x31, 0x32, 0x33, 0x34, 0x35, 0x36, 0x37, 0x38, 0x39] = 0x29B1 := by decide +kernel
theorem test_crc_three_zeros : crc [0, 0, 0] = 0xCC9C := by decide +kernel
theorem test_record_states : [0xFF, 0x7F, 0x3F, 0x1F, 0x0F, 0x5F, 0xEF].map readStatus
    = [RecordState.free, .opened, .written, .live, .retired, .opened, .free] := by decide +kernel
theorem test_codes_distinct : (allCmds.map Cmd.code) = commandCodes := by decide +kernel
theorem test_header_bytes : readHeader (header3.bytes openPattern) = header3 ∧ header3.sound 1 = true
    ∧ header3.sound 126 = true ∧ header3.sound 127 = false := by decide +kernel
theorem test_prepared_classified : classify (prepareProgram 5) = some .prepared ∧ keptCount (prepareProgram 5) = some 5 := by
  decide +kernel


/-! ## States that meet the hypotheses of the statements: the block, the supply, the array -/

theorem test_step : ({ part id with pending := [.ack .a, .cancel .b] } : State).pending = .ack .a :: [.cancel .b]
    ∧ (part id).pending = [] := ⟨rfl, rfl⟩

theorem test_safe_step : Safe (part id) ∧ step (part id) = .next (part id).tick :=
  ⟨⟨by decide, by decide, ArrayController.sound_start⟩, rfl⟩

theorem test_rows_reach : ({ part id with powered := false } : State).running = false ∧ (Instr.ack .a).supply = false
    ∧ ({ part id with resetLow := true } : State).running = false ∧ (Instr.victimErase).unitsOnly = true := by decide

theorem test_supply : ({ part id with resetLow := true } : State).resetLow = true ∧ (part id).resetLow = false := by decide

theorem test_law_program : let s := running .writer 2 (.program 1 cell16)
    s.running = true ∧ s.ac.running = some ⟨0, .writer, 2, .program 1 cell16⟩ ∧ cell16.length = 16
    ∧ s.ac.cutOff = some ⟨.writer, 2, .program 1 cell16⟩ ∧ ∃ t, exec ((Ending.program []).joined none) s = .next t :=
  ⟨rfl, rfl, rfl, rfl, _, rfl⟩

theorem test_law_erase : let s := running .engine 4 .erase
    s.running = true ∧ s.ac.running = some ⟨0, .engine, 4, .erase⟩ ∧ s.ac.cutOff = some ⟨.engine, 4, .erase⟩
    ∧ (∃ t, exec ((Ending.erase ⟨false, []⟩).joined none) s = .next t) ∧ (∃ t, exec (.powerLoss ⟨[], [(0, 0)]⟩) s = .next t)
    ∧ (∀ q cell bytes, s.ac.running = some q → q.req.op ≠ .program cell bytes) := by
  refine ⟨rfl, rfl, rfl, ⟨_, rfl⟩, ⟨_, rfl⟩, ?_⟩
  intro q cell bytes h
  cases h
  exact fun h => nomatch h

theorem test_law_still : let s := running (.port .a) 4 (.read 1 1)
    s.ac.cutOff.all (fun r => !r.op.changes) = true ∧ (∀ q, s.ac.running = some q → q.req.op ≠ .erase) := by
  refine ⟨by decide, ?_⟩
  intro q h
  cases h
  exact fun h => nomatch h

/-- The Array Controller with an erase suspended for a READ, `n` times, `k` reads granted, and reads queued. -/
def suspended (n k : Nat) (queue : List Queued) : State :=
  { part id with ac := { ArrayController.start with
      running := some ⟨1, .port .a, 2, .read 1 1⟩, suspended := some ⟨0, .engine, 4, .erase⟩, suspendCount := n,
      grantCount := k, queue := queue, arrivals := 5 } }

/-- No request queued or held stands in order. -/
theorem ordered_none (n : Nat) : ArrayController.InOrder [] [] n := ⟨.nil, .nil, by simp, by simp⟩

theorem ordered_one : ArrayController.InOrder [] [⟨2, .port .b, 2, .read 1 1⟩] 5 :=
  ⟨by decide, by decide, by decide, by decide⟩

/-- The soundness of a controller whose lists are given, by its clauses. -/
theorem sound_suspended (n k : Nat) (h1 : 1 ≤ n) (h2 : n ≤ 8) (h3 : 1 ≤ k) (h4 : k ≤ 7) (queue : List Queued)
    (hl : ∀ q ∈ queue, ArrayController.legal q.req = true)
    (hs : (Requester.port .a :: .engine :: queue.map (fun q => q.req.who)).Nodup)
    (ho : ArrayController.InOrder [] queue 5) : (suspended n k queue).ac.Sound where
  legal := by
    intro q hq
    have : q = ⟨1, .port .a, 2, .read 1 1⟩ ∨ q = ⟨0, .engine, 4, .erase⟩ ∨ q ∈ queue := by
      simpa [suspended, ArrayController.known, ArrayController.start] using hq
    rcases this with h | h | h
    · subst h; decide
    · subst h; decide
    · exact hl q h
  single := by simpa [suspended, ArrayController.known, ArrayController.start] using hs
  free := by intro h; cases h
  suspension := by
    intro e he
    cases he
    exact ⟨rfl, ⟨_, rfl, rfl⟩, h1, h3⟩
  bounds := ⟨h2, h4⟩
  held := by intro q hq; cases hq
  idle := by intro h; cases h
  waits := by intro e he h; cases he; cases h
  ordered := ho

theorem test_presentation : (part id).running = true ∧ (part id).ac.Sound
    ∧ refusedAtPresentation (part id).ac ⟨.writer, 64, .program 1 cell16⟩
    ∧ refusedAtPresentation (part id).ac ⟨.port .a, 2, .read 127 2⟩
    ∧ ¬ refusedAtPresentation (part id).ac ⟨.port .a, 2, .read 127 1⟩
    ∧ ((part id).ac.interfaceFree (.port .a)) := by
  refine ⟨rfl, ArrayController.sound_start, Or.inl (by decide), Or.inr (Or.inl ⟨127, 2, rfl, by decide⟩), ?_, ?_⟩
  · rintro (h | ⟨first, count, h, hh⟩ | ⟨cell, bytes, h, _⟩ | h | ⟨⟨cell, bytes, h⟩ | h, _⟩)
    · exact absurd h (by decide)
    · cases h
      exact absurd hh (by decide)
    · cases h
    · exact h (Or.inl ⟨.a, 127, 1, rfl, rfl, by decide⟩)
    · cases h
    · cases h
  · intro q hq
    cases hq

theorem test_accepted : (part id).ac.accepts ⟨.writer, 2, .program 127 cell16⟩ = true ∧ (part id).ac.running = none
    ∧ (running (.port .a) 4 (.read 1 1)).ac.accepts ⟨.writer, 2, .program 1 cell16⟩ = true
    ∧ (running (.port .a) 4 (.read 1 1)).ac.running = some ⟨0, .port .a, 4, .read 1 1⟩ := by decide

/-- An erase in progress, suspended `n` times before. -/
def erasing (n : Nat) : State :=
  { part id with ac := { ArrayController.start with running := some ⟨0, .engine, 4, .erase⟩, suspendCount := n, arrivals := 1 } }

theorem sound_erasing (n : Nat) (h : n ≤ 8) : (erasing n).ac.Sound where
  legal := by intro q hq; simp [erasing, ArrayController.known, ArrayController.start] at hq; subst hq; decide
  single := by simp [erasing, ArrayController.known, ArrayController.start]
  free := by intro h; cases h
  suspension := by intro e he; cases he
  bounds := ⟨h, Nat.zero_le 7⟩
  held := by intro q hq; cases hq
  idle := by intro h; cases h
  waits := by intro e he h h2; cases h2
  ordered := ordered_none _

theorem test_read_during_erase :
    ((erasing 7).ac.Sound ∧ (erasing 7).ac.accepts ⟨.port .a, 2, .read 1 1⟩ = true ∧ (erasing 7).ac.suspendCount < 8)
    ∧ ((erasing 8).ac.Sound ∧ (erasing 8).ac.accepts ⟨.port .a, 2, .read 1 1⟩ = true ∧ (erasing 8).ac.suspendCount = 8)
    ∧ ((suspended 1 1 []).ac.Sound ∧ (suspended 1 1 []).ac.accepts ⟨.port .b, 2, .read 1 1⟩ = true)
    ∧ (erasing 0).ac.accepts ⟨.port .a, 4, .read 1 1⟩ = true :=
  ⟨⟨sound_erasing 7 (by decide), by decide, by decide⟩, ⟨sound_erasing 8 (by decide), by decide, by decide⟩,
    ⟨sound_suspended 1 1 (by decide) (by decide) (by decide) (by decide) [] (by simp) (by decide) (ordered_none _), by decide⟩, by decide⟩

theorem test_arbiter : (∀ q ∈ [Queued.mk 3 ⟨.writer, 2, .program 1 cell16⟩, ⟨4, .engine, 3, .program 1 cell16⟩],
      ArrayController.legal q.req = true)
    ∧ ArrayController.choose false [⟨3, .writer, 2, .program 1 cell16⟩, ⟨4, .engine, 3, .program 1 cell16⟩]
      = some ⟨3, .writer, 2, .program 1 cell16⟩
    ∧ ArrayController.choose true [⟨3, .writer, 2, .program 1 cell16⟩, ⟨4, .engine, 3, .program 1 cell16⟩]
      = some ⟨4, .engine, 3, .program 1 cell16⟩ := by decide

theorem test_read_completes : (running (.port .a) 4 (.read 0 16)).ac.running = some ⟨0, .port .a, 4, .read 0 16⟩
    ∧ (running (.port .a) 4 (.read 0 16)).ac.suspended = none := by decide

theorem test_suspension :
    (suspended 8 6 [⟨2, .port .b, 2, .read 1 1⟩]).ac.Sound ∧ (suspended 8 7 [⟨2, .port .b, 2, .read 1 1⟩]).ac.Sound
    ∧ (suspended 7 7 [⟨2, .port .b, 2, .read 1 1⟩]).ac.Sound ∧ (suspended 1 1 []).ac.Sound :=
  ⟨sound_suspended 8 6 (by decide) (by decide) (by decide) (by decide) _ (by decide) (by decide) ordered_one,
    sound_suspended 8 7 (by decide) (by decide) (by decide) (by decide) _ (by decide) (by decide) ordered_one,
    sound_suspended 7 7 (by decide) (by decide) (by decide) (by decide) _ (by decide) (by decide) ordered_one,
    sound_suspended 1 1 (by decide) (by decide) (by decide) (by decide) _ (by decide) (by decide) (ordered_none _)⟩

theorem test_erase_completes : (erasing 3).running = true ∧ (erasing 3).ac.Sound
    ∧ (erasing 3).ac.running = some ⟨0, .engine, 4, .erase⟩ := ⟨rfl, sound_erasing 3 (by decide), rfl⟩

/-- An operation in progress, nothing queued. -/
theorem sound_running {who : Requester} {seg : Nat} {op : ArrayOp} (hl : ArrayController.legal ⟨who, seg, op⟩ = true) :
    (running who seg op).ac.Sound where
  legal := by intro q hq; simp [running, ArrayController.known, ArrayController.start] at hq; subst hq; exact hl
  single := by simp [running, ArrayController.known, ArrayController.start]
  free := by intro h; cases h
  suspension := by intro e he; cases he
  bounds := ⟨Nat.zero_le 8, Nat.zero_le 7⟩
  held := by intro q hq; cases hq
  idle := fun _ => ⟨rfl, rfl⟩
  waits := by intro e h1 h h2; cases h2
  ordered := ordered_none _

theorem sound_blank : (running .mount 5 .blankCheck).ac.Sound := sound_running (by decide)

theorem test_blank_completes : (running .mount 5 .blankCheck).ac.Sound
    ∧ (running .mount 5 .blankCheck).ac.accepts ⟨.port .a, 2, .read 0 1⟩ = true := ⟨sound_blank, by decide⟩

/-- An interface with a request outstanding, and a request that no case of R20 meets. -/
theorem test_presentation_taken : (running .mount 5 .blankCheck).ac.Sound
    ∧ ¬ refusedAtPresentation (running .mount 5 .blankCheck).ac ⟨.mount, 2, .read 0 1⟩
    ∧ ¬ (running .mount 5 .blankCheck).ac.interfaceFree .mount := by
  refine ⟨sound_blank, ?_, fun h => h ⟨0, .mount, 5, .blankCheck⟩ (by decide) rfl⟩
  rintro (h | ⟨first, count, h, hh⟩ | ⟨cell, bytes, h, _⟩ | h | ⟨⟨cell, bytes, h⟩ | h, _⟩)
  · exact absurd h (by decide)
  · cases h
    exact absurd hh (by decide)
  · cases h
  · exact h (Or.inr (Or.inr (Or.inr (Or.inr ⟨rfl, Or.inl ⟨⟨0, 1, rfl⟩, by decide⟩⟩))))
  · cases h
  · cases h

/-- What joins the queue while an erase is RUNNING or SUSPENDED, a BLANK_CHECK of its segment too. -/
theorem test_accepted_erasing : (erasing 0).ac.accepts ⟨.writer, 2, .program 1 cell16⟩ = true
    ∧ (erasing 0).ac.accepts ⟨.policy, 1, .erase⟩ = true ∧ (erasing 0).ac.accepts ⟨.mount, 4, .blankCheck⟩ = true
    ∧ (suspended 1 1 []).ac.accepts ⟨.mount, 4, .blankCheck⟩ = true
    ∧ (suspended 1 1 []).ac.accepts ⟨.writer, 2, .program 1 cell16⟩ = true := by decide

/-- A Writer that wants the request, in a step that holds member moves back. -/
theorem test_accepted_writer : let r : Request := ⟨.writer, 2, .program 1 cell16⟩
    let s := part fun u => u.setRw { u.rw with
      cur := some ⟨.complete .a 0 7 [], .memberLive 0 ⟨2, 1⟩ 0 true, []⟩, io := ⟨some r, false⟩ }
    s.running = true ∧ s.ac.Sound ∧ s.ac.accepts r = true ∧ s.units.rw.io = ⟨some r, false⟩ :=
  ⟨rfl, ArrayController.sound_start, by decide, rfl⟩

/-- A request that joins a completion, taken and refused; at the end of an erase it suspends nothing. -/
theorem test_joined :
    (running (.port .a) 4 (.read 0 1)).ac.Sound ∧ (running .writer 2 (.program 1 cell16)).ac.Sound
    ∧ (∀ t, exec (.arrayRequest ⟨⟨.port .b, 2, .read 0 1⟩, some .read⟩) (running (.port .a) 4 (.read 0 1)) = .next t →
        t.ac.running = some ⟨1, .port .b, 2, .read 0 1⟩ ∧ t.ac.queue = [])
    ∧ (∀ t, exec (.arrayRequest ⟨⟨.port .b, 1, .read 0 1⟩, some .read⟩) (running (.port .a) 4 (.read 0 1)) = .next t →
        t.ac.running = none ∧ t.ac.delivered = some ⟨⟨.port .b, 1, .read 0 1⟩, .rejected, []⟩)
    ∧ ∀ t, exec (.arrayRequest ⟨⟨.port .b, 4, .read 0 1⟩, some (.erase ⟨false, []⟩)⟩)
          { erasing 3 with ac := { (erasing 3).ac with queue := [⟨1, .writer, 2, .program 1 cell16⟩], arrivals := 2 } } = .next t →
        t.ac.running = some ⟨2, .port .b, 4, .read 0 1⟩ ∧ t.ac.suspendCount = 0
        ∧ t.ac.queue = [⟨1, .writer, 2, .program 1 cell16⟩] := by
  refine ⟨sound_running (by decide), sound_running (by decide), ?_, ?_, ?_⟩ <;>
    (intro t h; cases h; decide +kernel)

/-- A request that joins the end of a READ within a suspension: queued, and of the segment under erase, held. -/
theorem test_joined_suspended (seg : Nat) (h : seg = 2 ∨ seg = 4) :
    let free : ArrayController := { (suspended 8 7 []).ac with running := none }
    ¬ refusedAtPresentation free ⟨.port .c, seg, .read 1 1⟩ ∧ free.interfaceFree (.port .c) := by
  refine ⟨?_, ?_⟩
  swap
  · have : ∀ q ∈ [Queued.mk 0 ⟨.engine, 4, .erase⟩], q.req.who ≠ .port .c := by decide
    exact this
  rintro (h1 | ⟨first, count, h1, hh⟩ | ⟨cell, bytes, h1, _⟩ | h1 | ⟨⟨cell, bytes, h1⟩ | h1, _⟩)
  · simp only at h1; omega
  · cases h1
    exact absurd hh (by decide)
  · cases h1
  · exact h1 (Or.inl ⟨.c, 1, 1, rfl, rfl, by simp only; omega⟩)
  · cases h1
  · cases h1

/-! ## The link and the commands -/

/-- Port A between frames, in each of its states. -/
def portIn (st : PortState) : State := part fun u => u.modPort .a fun x => { x with state := st }

theorem test_quiet : Quiet .a (portIn .ready) ∧ Quiet .a (portIn .busy) ∧ Quiet .a (portIn .mounting)
    ∧ Quiet .a (portIn .done) ∧ Taking .a (portIn .ready) ∧ Taking .a (portIn .done) :=
  ⟨quiet_of (by decide), quiet_of (by decide), quiet_of (by decide), quiet_of (by decide), taking_of (by decide),
    taking_of (by decide)⟩

theorem test_link : let s := part id
    let f : Frame := ⟨.first, false, false, none, none, none, 0x40, []⟩
    let g := part fun u => u.modPort .a fun x => { x with frame := some f }
    let h := part fun u => u.modPort .a fun x => { x with frame := some { f with phase := .second 0x81 } }
    s.running = true ∧ (s.units.port .a).frame = none ∧ (s.units.port .a).outcome = none
    ∧ g.running = true ∧ (g.units.port .a).frame = some f
    ∧ h.running = true ∧ (h.units.port .a).frame = some { f with phase := .second 0x81 } := by decide

/-- Port A in a frame. -/
def inFrame (st : PortState) (f : Frame) : State := part fun u => u.modPort .a fun x => { x with state := st, frame := some f }

/-- A frame's data bytes: at the ends of the buffer, the parameters and the window, each moves the offset on. -/
theorem test_data_bytes :
    let f (off : Nat) : Frame := ⟨.data true off, false, false, none, none, none, 0x40, [0x40, 0]⟩
    let sent (off : Nat) : Answer := exec (.windowWrite .a (.shift 9)) (inFrame .ready (f off))
    let moved (off : Nat) (t : State) : Prop := (t.units.port .a).frame.map (·.phase) = some (.data true (off + 1))
    (∀ t, sent 0 = .next t → (t.units.port .a).command = 9 ∧ moved 0 t)
    ∧ (∀ t, sent 3 = .next t → (t.units.port .a).params = ⟨0, 0, 0, 0, 0, 0, 0⟩ ∧ moved 3 t)
    ∧ (∀ t, sent 256 = .next t → (t.units.port .a).buffer.getD 0 0 = 9 ∧ moved 256 t)
    ∧ (∀ t, sent 511 = .next t → (t.units.port .a).buffer.getD 255 0 = 9 ∧ moved 511 t)
    ∧ (∀ t, sent 512 = .next t → (t.units.port .a).buffer = List.replicate 256 0 ∧ moved 512 t)
    ∧ (∀ t, exec (.windowWrite .a (.shift 9)) (inFrame .busy { f 256 with beganBusy := true }) = .next t →
        (t.units.port .a).frame.map (·.collided) = some true ∧ moved 256 t) := by
  refine ⟨?_, ?_, ?_, ?_, ?_, ?_⟩ <;> (intro t h; cases h; decide +kernel)

/-- The end of a frame: no command, PORT_RESET with one, ACK with one, and one alone; the last code written is taken. -/
theorem test_frame_ends :
    let f : Frame := ⟨.data true 1, false, false, some 0x71, none, none, 0x40, [0x40, 0]⟩
    (∀ c control, (inFrame .ready { f with command := c, control := control }).writerSteady)
    ∧ ((inFrame .ready f).units.port .a).handOver = false ∧ ((inFrame .ready f).units.port .a).draining = false
    ∧ ((inFrame .ready f).units.port .a).inHand = none ∧ (inFrame .ready f).statusOut .a = f.out
    ∧ (∀ t, exec (.windowWrite .a .deselect) (inFrame .ready { f with control := some 3 }) = .next t →
        (t.units.port .a).state = .ready ∧ (t.units.port .a).inHand = none)
    ∧ (∀ t, exec (.windowWrite .a .deselect) (inFrame .done { f with control := some 1 }) = .next t →
        (t.units.port .a).state = .busy ∧ (t.units.port .a).inHand.map (·.cmd) = Cmd.ofCode 0x71)
    ∧ (∀ t, exec (.windowWrite .a .deselect) (inFrame .done { f with control := some 1, command := some 0 }) = .next t →
        (t.units.port .a).state = .ready)
    ∧ (∀ t, exec (.windowWrite .a .deselect)
          (inFrame .ready { f with phase := .data true 0, command := some 0x01 }) = .next t →
        (t.units.port .a).state = .busy) := by
  refine ⟨fun _ _ => Or.inr rfl, rfl, rfl, rfl, by decide +kernel, ?_, ?_, ?_, ?_⟩ <;> (intro t h; cases h; decide +kernel)

/-- Writes at both ends of the buffer and of the parameter fields, through the frame, and what a read sends back. -/
theorem test_window :
    (∀ t, exec (.windowWrite .a (.frame [0x81, 0xFF, 9])) (part id) = .next t → (t.units.port .a).buffer.getD 255 0 = 9)
    ∧ (∀ t, exec (.windowWrite .a (.frame [0x80, 0x04, 3])) (part id) = .next t → (t.units.port .a).params.slot = 3)
    ∧ (∀ t, exec (.windowWrite .a (.frame [0x80, 0x0B, 3])) (part id) = .next t → (t.units.port .a).params.source = 3)
    ∧ (∀ t, exec (.windowWrite .a (.frame [0x00, 0x02, 0])) (part id) = .next t →
        (t.units.port .a).lastOut = [0x40, 0, 3]) := by
  refine ⟨?_, ?_, ?_, ?_⟩ <;> (intro t h; cases h; decide +kernel)

/-- The wait for space of port A. -/
def waitingForSpace : State := part fun u =>
  holding .write .elsewhere (u.setIu { u.iu with spaceWait := [⟨.a, record .single .data, 2⟩] })

theorem test_cancel : let s := part (fun u => slotA (fun x => { x with state := .waiting }) (holding .begin .elsewhere u))
    let t := part (holding .begin .elsewhere)
    let w := part (holding .read .elsewhere)
    let z := part (holding .commit .elsewhere)
    Quiet .a s ∧ (s.units.slot .a).state = .waiting
    ∧ Quiet .a t ∧ (t.units.slot .a).state ≠ .waiting
    ∧ Quiet .a waitingForSpace ∧ waitingJob .a waitingForSpace.units = some (record .single .data)
    ∧ Quiet .a z ∧ waitingJob .a z.units = none
    ∧ Quiet .a w ∧ Quiet .a (part id) ∧ ((part id).units.port .a).inHand = none :=
  ⟨quiet_of (by decide), rfl, quiet_of (by decide), by decide, quiet_of (by decide), rfl, quiet_of (by decide), rfl,
    quiet_of (by decide), quiet_of (by decide), rfl⟩

theorem test_port_reset : let s := part (fun u => u.setPu { u.pu with session := .opened .a [] })
    Quiet .a s ∧ NoWork .a s ∧ s.units.pu.session = .opened .a [] :=
  ⟨quiet_of (by decide), ⟨⟨rfl, rfl⟩, by decide, rfl, by decide, fun r => by intro h; cases h⟩, rfl⟩

theorem test_result_post : let s := part (fun u => u.modPort .a fun x => { x with outcome := some (Posting.code .ok) })
    let t := part (fun u => u.modPort .a fun x => { x with
      outcome := some (Posting.code .ok), frame := some ⟨.first, false, false, none, none, none, 0, []⟩ })
    s.running = true ∧ (s.units.port .a).outcome = some (Posting.code .ok) ∧ (s.units.port .a).frame = none
    ∧ t.running = true ∧ (t.units.port .a).frame ≠ none ∧ ((part id).units.port .a).outcome = none := by decide

/-- Port A with its parameters written: slot, flags, key, length, offset, partition, source. -/
def at_ (slot flags : Byte) (key : Half) (length offset partition source : Byte) : State :=
  part (params slot flags key length offset partition source)

/-- Each test of a command fails on its own, and passes at the last value of its range. -/
theorem test_checks :
    (Taking .a (at_ 1 0 3 5 0 0 0) ∧ resolve .a 1 (at_ 1 0 3 5 0 0 0).units = none)
    ∧ (Taking .a (at_ 4 0 3 5 0 0 0) ∧ resolve .a 4 (at_ 4 0 3 5 0 0 0).units = none)
    ∧ (let s := part (fun u => u.setPu { u.pu with shadow := { u.pu.shadow with parts := [] } })
       Taking .a s ∧ resolve .a 0 s.units = some 0 ∧ s.units.pu.shadow.mayRead .a 0 = false
       ∧ s.units.pu.shadow.mayWrite .a 0 = false)
    ∧ (let s := part (setLock 0 .frozen)
       Taking .a s ∧ s.units.pu.shadow.mayWrite .a 0 = true ∧ lockOf s.units 0 ≠ .opened)
    ∧ (let s := part (fun u => u.setPu { u.pu with
          shadow := { u.pu.shadow with ports := Four.all ⟨false, 0, ⟨none, none, none, none⟩⟩ } })
       Taking .a s ∧ s.units.pu.shadow.authority .a = false)
    ∧ (admitted .read .a 0 (at_ 0 0 3 241 0 0 0) ∧ outOfRange .read ((at_ 0 0 3 241 0 0 0).units.port .a).params)
    ∧ (admitted .read .a 0 (at_ 0 0 3 0 241 0 0) ∧ outOfRange .read ((at_ 0 0 3 0 241 0 0).units.port .a).params)
    ∧ (admitted .stat .a 0 (at_ 0 0 0xFFFF 0 0 0 0) ∧ outOfRange .stat ((at_ 0 0 0xFFFF 0 0 0 0).units.port .a).params)
    ∧ (admitted .unwatch .a 0 (at_ 0 1 0 0 0 16 0) ∧ outOfRange .unwatch ((at_ 0 1 0 0 0 16 0).units.port .a).params)
    ∧ (admitted .policyRead .a 0 (at_ 0 0 0 0 0 0 2) ∧ outOfRange .policyRead ((at_ 0 0 0 0 0 0 2).units.port .a).params)
    ∧ Passing .read .a 0 (at_ 0 0 0xFFFE 240 240 0 0) ∧ Passing .unwatch .a 0 (at_ 0 1 0 0 0 15 0)
    ∧ Passing .policyRead .a 0 (at_ 0 0 0 0 0 0 1) :=
  ⟨⟨taking_of (by decide), rfl⟩, ⟨taking_of (by decide), rfl⟩, ⟨taking_of (by decide), rfl, by decide, by decide⟩,
    ⟨taking_of (by decide), by decide, by decide⟩, ⟨taking_of (by decide), by decide⟩,
    ⟨admitted_of (by decide), outOfRange_iff.1 (by decide)⟩, ⟨admitted_of (by decide), outOfRange_iff.1 (by decide)⟩,
    ⟨admitted_of (by decide), outOfRange_iff.1 (by decide)⟩, ⟨admitted_of (by decide), outOfRange_iff.1 (by decide)⟩,
    ⟨admitted_of (by decide), outOfRange_iff.1 (by decide)⟩, passing_of (by decide), passing_of (by decide),
    passing_of (by decide)⟩

/-- The same with an OPEN slot on partition 0. -/
def inTxn (ms : List Member) : State := part fun u => openA ms (params 0 0 3 5 0 0 0 u)

theorem test_read_stat_list :
    (Passing .read .a 0 (at_ 0 0 3 5 0 0 0) ∧ ((at_ 0 0 3 5 0 0 0).units.slot .a).state ≠ .opened
      ∧ Passing .stat .a 0 (at_ 0 0 3 5 0 0 0) ∧ Passing .list .a 0 (at_ 0 0 0xFFFF 5 0 0 0))
    ∧ (Passing .read .a 0 (inTxn [member3]) ∧ Passing .stat .a 0 (inTxn [member3]) ∧ Passing .list .a 0 (inTxn [member3])
      ∧ ((inTxn [member3]).units.slot .a).state = .opened
      ∧ ((inTxn [member3]).units.slot .a).members.find? (fun m => m.key == 3) = some member3)
    ∧ (Passing .read .a 0 (inTxn [{ member3 with op := .delete }])
      ∧ ((inTxn [{ member3 with op := .delete }]).units.slot .a).members.find? (fun m => m.key == 3)
        = some { member3 with op := .delete }) :=
  ⟨⟨passing_of (by decide), by decide, passing_of (by decide), passing_of (by decide)⟩,
    ⟨passing_of (by decide), passing_of (by decide), passing_of (by decide), rfl, rfl⟩, passing_of (by decide), rfl⟩

/-- Port B holds the claim on partition 0. -/
def heldByB (q : Params) (f : Slot → Slot) : State := part fun u =>
  ((u.modPort .a fun x => { x with params := q }).modSlot .b fun s => { s with state := .opened, part := 0, number := 3 }).modSlot .a f

theorem test_write_delete_begin :
    (Passing .write .a 0 (at_ 0 0 3 240 0 0 0) ∧ Passing .delete .a 0 (at_ 0 0 3 0 0 0 0)
      ∧ Passing .begin .a 0 (at_ 0 0 3 0 0 0 0) ∧ ∀ h, ((at_ 0 0 3 0 0 0 0).units.slot h).holds 0 = false)
    ∧ (let s := heldByB ⟨0, 2, 3, 0, 0, 0, 0⟩ id
       Passing .write .a 0 s ∧ Passing .begin .a 0 s ∧ (s.units.slot .b).holds 0 = true
       ∧ (∀ g, (s.units.slot g).holds 0 = true → g = .b) ∧ (s.units.slot .a).state = .none
       ∧ (s.units.port .a).params.flags.getLsbD 1 = true ∧ 0 < (s.units.pu.shadow.ports.get .a).waitLimit)
    ∧ (let s := heldByB ⟨0, 0, 3, 0, 0, 0, 0⟩ (fun x => { x with state := .ended, reason := some .expired })
       Passing .begin .a 0 s ∧ (s.units.slot .a).state = .ended ∧ (s.units.port .a).params.flags.getLsbD 1 = false)
    ∧ (let s := inTxn []
       Passing .delete .a 0 s ∧ Passing .begin .a 0 s ∧ (s.units.slot .a).state = .opened
       ∧ (s.units.slot .a).holds 0 = true ∧ ∀ g, (s.units.slot g).holds 0 = true → g = .a) := by
  refine ⟨⟨passing_of (by decide), passing_of (by decide), passing_of (by decide), ?_⟩,
    ⟨passing_of (by decide), passing_of (by decide), by decide, ?_, rfl, by decide, by decide⟩,
    ⟨passing_of (by decide), rfl, by decide⟩, ⟨passing_of (by decide), passing_of (by decide), rfl, by decide, ?_⟩⟩
  · intro h; cases h <;> decide
  · intro g; cases g <;> decide
  · intro g; cases g <;> decide

/-- The numbers 65,535 and 1 are in use: the next grant takes 2. -/
theorem test_number_wraps : let s := part fun u => { (params 0 0 3 0 0 0 0 u) with
      tm := { u.tm with
        counter := 65535, retained := [(1, 4)],
        slots := u.tm.slots.set .c { Slot.start with state := .committing, part := 1, number := 65535 } } }
    Passing .begin .a 0 s ∧ (∀ h, (s.units.slot h).holds 0 = false)
    ∧ numberInUse .a 65535 s.units = true ∧ numberInUse .a 1 s.units = true
    ∧ ∀ t, exec (.begin .a) s = .next t → (t.units.slot .a).number = 2 ∧ t.units.tm.counter = 3 := by
  refine ⟨passing_of (by decide), ?_, by decide, by decide, ?_⟩
  · intro h; cases h <;> decide
  · intro t h; cases h; decide +kernel

/-- Sixteen members of other keys. -/
def sixteen : List Member := (List.range 16).map fun i => { member3 with key := 100 + i }

theorem test_stage :
    (let s := part fun u => slotA (fun x => { x with part := 1 }) (openA [] (params 0 0 3 5 0 0 0 u))
     Passing .stageWrite .a 0 s ∧ Passing .stageDelete .a 0 s ∧ (s.units.slot .a).part ≠ 0)
    ∧ (Passing .stageWrite .a 0 (inTxn sixteen) ∧ ((inTxn sixteen).units.slot .a).members.length = 16
      ∧ ∀ m ∈ ((inTxn sixteen).units.slot .a).members, m.key ≠ 3)
    ∧ (Passing .stageWrite .a 0 (inTxn (sixteen.drop 1)) ∧ ((inTxn (sixteen.drop 1)).units.slot .a).members.length = 15)
    ∧ (Passing .stageDelete .a 0 (inTxn [member3]) ∧ ((inTxn [member3]).units.slot .a).part = 0) :=
  ⟨⟨passing_of (by decide), passing_of (by decide), by decide⟩, ⟨passing_of (by decide), by decide, by decide⟩,
    ⟨passing_of (by decide), by decide⟩, passing_of (by decide), rfl⟩

/-- A transaction with a member and a Writer that works, or has none. -/
def committing (ms : List Member) (busy : Bool) : State := part fun u =>
  if busy then writing (.abortClean .b) .allocating (openA ms u) else openA ms u

theorem test_commit_abort :
    (Passing .commit .a 0 (committing [] false) ∧ ((committing [] false).units.slot .a).stage = none
      ∧ Port.a ∉ claimQueue 0 (committing [] false).units)
    ∧ (Passing .commit .a 0 (committing [member3] true) ∧ (committing [member3] true).units.rw.cur ≠ none
      ∧ Passing .abort .a 0 (committing [member3] true))
    ∧ (Passing .commit .a 0 (committing [member3] false) ∧ (committing [member3] false).units.rw.cur = none
      ∧ (committing [member3] false).units.rw.gen < 4294967294 ∧ Passing .abort .a 0 (committing [member3] false)
      ∧ ((committing [member3] false).units.slot .a).members = [member3]) :=
  ⟨⟨passing_of (by decide), rfl, by decide⟩, ⟨passing_of (by decide), by decide, passing_of (by decide)⟩,
    ⟨passing_of (by decide), rfl, by decide, passing_of (by decide), rfl⟩⟩

/-- A slot in a state with a reason. -/
def slotState (st : SlotState) (r : Option EndReason) : State := part (slotA fun s => { s with state := st, reason := r })

theorem test_renew_and_outside :
    Passing .renew .a 0 (inTxn []) ∧ Passing .commit .a 0 (slotState .none none)
    ∧ Passing .abort .a 0 (slotState .ended (some .revoked)) ∧ Passing .stageWrite .a 0 (slotState .ended (some .locked))
    ∧ Passing .renew .a 0 (slotState .aborting (some .expired)) ∧ Passing .stageDelete .a 0 (slotState .aborting none)
    ∧ Passing .renew .a 0 (slotState .committing none) :=
  ⟨passing_of (by decide), passing_of (by decide), passing_of (by decide), passing_of (by decide), passing_of (by decide),
    passing_of (by decide), passing_of (by decide)⟩

theorem test_bind_freeze :
    (Taking .a (at_ 4 0 0 0 0 0 0) ∧ Taking .a (at_ 0 0 0 0 0 16 0) ∧ Taking .a (at_ 3 0 0 0 0 0 0)
      ∧ Taking .a (at_ 3 0 0 0 0 0xFF 0))
    ∧ (resolve .a 0 (inTxn []).units = some 0 ∧ ((inTxn []).units.slot .a).part = 0
      ∧ ((inTxn []).units.slot .a).state = .opened ∧ Taking .a (inTxn []))
    ∧ ((at_ 1 0 0 0 0 15 0).units.pu.shadow.mayRead .a 15 = false ∧ Taking .a (at_ 1 0 0 0 0 15 0)
      ∧ (at_ 3 0 0 0 0 0 0).units.pu.shadow.mayRead .a 0 = true ∧ resolve .a 3 (at_ 3 0 0 0 0 0 0).units = none)
    ∧ (Passing .freeze .a 0 (part id) ∧ lockOf (part id).units 0 = .opened)
    ∧ (Passing .freeze .a 0 (part (setLock 0 .fixed)) ∧ lockOf (part (setLock 0 .fixed)).units 0 ≠ .opened) :=
  ⟨⟨taking_of (by decide), taking_of (by decide), taking_of (by decide), taking_of (by decide)⟩,
    ⟨rfl, rfl, rfl, taking_of (by decide)⟩, ⟨by decide, taking_of (by decide), by decide, rfl⟩,
    ⟨passing_of (by decide), rfl⟩, passing_of (by decide), by decide⟩

/-- Port A with watches and notices. -/
def noticing (ws : List Watch) (q : List Notice) (q2 : Params) : State := part fun u =>
  (u.setNotices .a ⟨ws, q, true, 2⟩).modPort .a fun x => { x with params := q2 }

def watches (n : Nat) : List Watch := (List.range n).map fun i => ⟨0, some i⟩

theorem test_watch_unwatch_pop : let q : Params := ⟨0, 0, 7, 0, 0, 0, 0⟩
    (Passing .watch .a 0 (noticing (watches 8) [] q) ∧ (⟨0, some 7⟩ : Watch) ∈ watches 8)
    ∧ (Passing .watch .a 0 (noticing (watches 8) [] { q with key := 8 }) ∧ (⟨0, some 8⟩ : Watch) ∉ watches 8
      ∧ (watches 8).length = 8)
    ∧ (Passing .watch .a 0 (noticing (watches 7) [] q) ∧ (⟨0, some 7⟩ : Watch) ∉ watches 7 ∧ (watches 7).length = 7)
    ∧ (Taking .a (noticing (watches 8) [] { q with part := 16 }) ∧ Taking .a (noticing (watches 8) [] { q with key := 0xFFFF }))
    ∧ (Taking .a (noticing (watches 8) [] { q with part := 15 }) ∧ (⟨15, some 7⟩ : Watch) ∉ watches 8)
    ∧ (Taking .a (noticing [] [Notice.plain .spaceLow] q) ∧ Taking .a (noticing [] [] q)) :=
  ⟨⟨passing_of (by decide), by decide⟩, ⟨passing_of (by decide), by decide, rfl⟩, ⟨passing_of (by decide), by decide, rfl⟩,
    ⟨taking_of (by decide), taking_of (by decide)⟩, ⟨taking_of (by decide), by decide⟩, taking_of (by decide),
    taking_of (by decide)⟩

/-- An edit session of port B or A, or one that is COMMITTING. -/
def editing (x : Session) (source : Byte) : State := part fun u => (params 0 0 0 0 0 0 source u).setPu { u.pu with session := x }

def writeSeq : WriteSeq := ⟨1, List.replicate 176 0, .erase 1, false, false⟩

theorem test_edit_session :
    (Passing .policyRead .a 0 (editing .none 0) ∧ Passing .policyRead .a 0 (editing .none 1))
    ∧ (Passing .policyRead .a 0 (editing (.opened .a []) 1) ∧ Passing .policyRead .a 0 (editing (.opened .b []) 1))
    ∧ (Passing .policyLoad .a 0 (editing (.opened .a []) 0) ∧ Passing .policyLoad .a 0 (editing (.committing .a [] writeSeq) 0))
    ∧ (Passing .policyDiscard .a 0 (editing .none 0) ∧ Passing .policyDiscard .a 0 (editing (.opened .b []) 0)) :=
  ⟨⟨passing_of (by decide), passing_of (by decide)⟩, ⟨passing_of (by decide), passing_of (by decide)⟩,
    ⟨passing_of (by decide), passing_of (by decide)⟩, passing_of (by decide), passing_of (by decide)⟩

/-- The factory policy as an image. -/
def factoryImage : List Byte := Shadow.factory.image

theorem test_policy_commit : let s := editing (.opened .a factoryImage) 0
    Passing .policyCommit .a 0 s ∧ readPolicy factoryImage = some Shadow.factory
    ∧ (∀ n, n < 16 → (s.units.pu.shadow.part n).fixed = false) ∧ (Shadow.factory.ports.get .a).authority = true
    ∧ s.units.pu.shadow.seq ≠ 4294967295 ∧ readPolicy [] = none
    ∧ Passing .policyCommit .a 0 (editing .none 0) ∧ Passing .policyCommit .a 0 (editing (.opened .b []) 0) :=
  ⟨passing_of (by decide), by decide +kernel, by decide, rfl, by decide, by decide +kernel, passing_of (by decide),
    passing_of (by decide)⟩

theorem test_policy_sequence (st : WriteStep) (q : Request) (h : q.who = .policy) :
    let u := holding .policyCommit .elsewhere (mounted.setPu { mounted.pu with
      session := .committing .a factoryImage { writeSeq with step := st, image := factoryImage }, io := ⟨some q, true⟩ })
    q.who = .policy ∧ u.pu.io = ⟨some q, true⟩ ∧ (u.port .a).inHand.isSome = true ∧ (u.port .a).draining = false :=
  ⟨h, rfl, rfl, rfl⟩

theorem test_reclaim_info : Passing .reclaim .a 0 (part id) ∧ (part id).units.ce.step ≠ .sweepWaiting
    ∧ Passing .reclaim .a 0 (part (engineIn .sweepWaiting)) ∧ (part (engineIn .sweepWaiting)).units.ce.owed = []
    ∧ Passing .info .a 0 (part id) :=
  ⟨passing_of (by decide), by decide, passing_of (by decide), rfl, passing_of (by decide)⟩

/-! ## The claims at the Index Unit -/

/-- The units changed, then a claim presented. -/
def claims (src : Claimant) (c : Claim) (f : Units → Units) : State := part fun u => present src c (f u)

/-- A READ in hand at port A with an offset, and an entry of the key if wanted. -/
def asking (off : Byte) (es : List Entry) (w : Work) (u : Units) : Units :=
  indexed es (holding .read w (params 0 0 3 5 off 0 0 u))

theorem test_lookup :
    let ask (b : Bool) (off : Byte) (es : List Entry) :=
      claims (.port .a) (.lookup 0 3 b) (asking off es .elsewhere);
    ((ask true 0 []).oldestClaim (.port .a) (.lookup 0 3 true) ∧ (ask true 0 []).units.iu.find 0 3 = none)
    ∧ ((ask false 0 [entry3]).oldestClaim (.port .a) (.lookup 0 3 false) ∧ (ask false 0 [entry3]).units.iu.find 0 3 = some entry3)
    ∧ ((ask true 5 [entry3]).oldestClaim (.port .a) (.lookup 0 3 true) ∧ (ask true 5 [entry3]).units.iu.find 0 3 = some entry3
      ∧ entry3.length = 5)
    ∧ ((ask true 6 [entry3]).oldestClaim (.port .a) (.lookup 0 3 true) ∧ ((ask true 6 [entry3]).units.port .a).inHand.isSome = true)
    := by
  unfold State.oldestClaim; decide +kernel

/-- A READ of the staged record of a slot. -/
def staged3 : ReadWork := ⟨0, 3, ⟨2, 1⟩, 5, 8, 2, true⟩

theorem test_pin_unpin :
    let pin (off : Byte) := claims (.txn .a) (.pin ⟨2, 1⟩) (asking off [] (.pinning staged3))
    let unpin := claims (.port .a) (.unpin 4) (asking 0 [] .elsewhere)
    ((pin 5).oldestClaim (.txn .a) (.pin ⟨2, 1⟩) ∧ workOf .a (pin 5).units = some (.pinning staged3) ∧ staged3.length = 5)
    ∧ ((pin 6).oldestClaim (.txn .a) (.pin ⟨2, 1⟩) ∧ workOf .a (pin 6).units = some (.pinning staged3))
    ∧ (unpin.oldestClaim (.port .a) (.unpin 4) ∧ unpin.writerSteady ∧ (unpin.units.port .a).inHand.isSome = true) := by
  unfold State.oldestClaim State.writerSteady; decide +kernel

theorem test_pins :
    let iu := mounted.iu
    2 ≤ 8 ∧ 8 - 2 < iu.segs.length ∧ (iu.takePin 8).seg 8 = { iu.seg 8 with pins := 1 } ∧ (iu.takePin 8).seg 2 = iu.seg 2 := by
  decide

/-- The engine reads a record of key 3 in the victim 4, at cell 10. -/
def judging (st : CStep) (u : Units) : Units :=
  (engineIn st u).setCe { (engineIn st u).ce with reading := ⟨4, 10⟩, scan := 10 }

theorem test_questions :
    (let q (es : List Entry) := claims .engine (.lookup 0 3 false) fun u => indexed es (judging (.lookupClaim header3) u)
     (q [entry3]).oldestClaim .engine (.lookup 0 3 false) ∧ (q [entry3]).units.iu.find 0 3 = some entry3
     ∧ (q []).units.iu.find 0 3 = none ∧ (q []).oldestClaim .engine (.lookup 0 3 false))
    ∧ (let q (xs : List CommitEntry) := claims .engine (.numberQuery 7) fun u =>
        let v := judging (.numberClaim header3) u
        v.setIu { v.iu with commitSet := xs }
       (q [⟨7, 0, ⟨4, 10⟩⟩]).oldestClaim .engine (.numberQuery 7) ∧ (q [⟨8, 0, ⟨4, 10⟩⟩]).oldestClaim .engine (.numberQuery 7)
       ∧ header3.txn = 7)
    ∧ (let q (b : Basis) (st : SlotState) := part fun u =>
        slotA (fun x => { x with state := st }) (openA [{ member3 with loc := ⟨4, 10⟩ }] (judging (.memberAsk header3 b) u))
       (q .memberWritten .opened).running = true ∧ ((q .memberWritten .opened).units.slot .a).holding = true
       ∧ ((q .memberTombstone .committing).units.slot .a).holding = true
       ∧ ((q .memberWritten .opened).units.slot .a).number = header3.txn
       ∧ ((q .memberTombstone .opened).units.slot .a).state ≠ .committing
       ∧ ((q .memberWritten .opened).units.slot .b).holding = false) := by
  unfold State.oldestClaim; decide +kernel

theorem test_record_done :
    let ce (todo : Option (List Named)) (unread : Bool) : CompactionEngine :=
      { mounted.ce with victim := some 4, scan := 126, todo := todo, unread := unread };
    ((ce none false).scan + 1 < 128 ∧ 128 ≤ (ce none false).scan + 2)
    ∧ ((ce (some [.entry 0 3 ⟨4, 10⟩, .entry 0 4 ⟨4, 12⟩]) false).todo = some [.entry 0 3 ⟨4, 10⟩, .entry 0 4 ⟨4, 12⟩])
    ∧ ((ce (some [.entry 0 3 ⟨4, 10⟩]) true).todo = some [.entry 0 3 ⟨4, 10⟩] ∧ (ce (some []) true).owed = []) := by
  decide

/-- 64 entries of partition 0, or 65. -/
def many (n : Nat) : List Entry := (List.range n).map fun i => { entry3 with key := 10 + i }

theorem test_range :
    let list (ms : List Member) (n : Nat) := claims (if ms = [] then .port .a else .txn .a) (.range 0 (some 3))
      fun u => indexed (many n) (holding .list (.listing 0 (some 3) ms []) u);
    ((list [] 65).oldestClaim (.port .a) (.range 0 (some 3)) ∧ workOf .a (list [] 65).units = some (.listing 0 (some 3) [] []))
    ∧ ((list [member3] 64).oldestClaim (.txn .a) (.range 0 (some 3)) ∧ (list [member3] 64).units.iu.entries.length = 64)
    ∧ inWindow (some 3) none 4 = true ∧ inWindow (some 3) none 3 = false ∧ inWindow none none 0 = true
    ∧ inWindow (some 3) (some 9) 9 = true ∧ inWindow (some 3) (some 9) 10 = false := by
  unfold State.oldestClaim; decide +kernel

/-- A change in hand at port A that asks for cells of partition 0, key 3, under a quota. -/
def charging (c : Cmd) (src : Claimant) (op : ChargeOp) (cells quota : Nat) (es : List Entry) (w : Work) (f : Units → Units) : State :=
  claims src (.charge 0 3 op cells) fun u =>
    let v := f (indexed es (holding c w (params 0 0 3 5 0 0 0 u)))
    v.setPu { v.pu with shadow := { v.pu.shadow with
      parts := v.pu.shadow.parts.modify 0 (fun e => { e with quota := quota }) } }

theorem test_charge_single :
    let w (quota : Nat) (es : List Entry) := charging .write (.port .a) .write 2 quota es (.charging 0) id
    let charge (s : State) := s.units.iu.chargeWith (s.units.iu.charges ++ [⟨.a, false, 0, 3, .write, 2⟩]) 0
    let slots (s : State) := ({ s.units.iu with charges := s.units.iu.charges ++ [⟨.a, false, 0, 3, .write, 2⟩] } : IndexUnit).slotsUsed
    (w 1 []).oldestClaim (.port .a) (.charge 0 3 .write 2) ∧ workOf .a (w 1 []).units = some (.charging 0)
    ∧ ((w 1 []).units.pu.shadow.part 0).quota < charge (w 1 []) ∧ charge (w 2 []) = ((w 2 []).units.pu.shadow.part 0).quota
    ∧ slots (w 3000 (many 1024)) = 1025 ∧ slots (w 3000 (many 1023)) = 1024
    ∧ charge (w 3000 (many 1024)) ≤ ((w 3000 (many 1024)).units.pu.shadow.part 0).quota := by
  unfold State.oldestClaim; decide +kernel

/-- A staged write under a later staged delete holds its slot, one for the key whichever ports stage it (R40, log 26). -/
theorem test_reservations :
    let slots (cs : List ChargeEntry) := ({ mounted.iu with charges := cs } : IndexUnit).slotsUsed
    slots [⟨.a, true, 0, 3, .write, 2⟩, ⟨.a, true, 0, 3, .delete, 1⟩] = 1
    ∧ slots [⟨.a, true, 0, 3, .write, 2⟩, ⟨.b, false, 0, 3, .write, 2⟩] = 1 ∧ slots [⟨.b, false, 0, 3, .delete, 1⟩] = 0
    ∧ ({ mounted.iu with entries := [entry3], charges := [⟨.a, true, 0, 3, .write, 2⟩] } : IndexUnit).slotsUsed = 1 := by
  decide +kernel

theorem test_charge_others :
    (let d (es : List Entry) := charging .delete (.port .a) .delete 1 2 es (.charging 0) id
     (d []).oldestClaim (.port .a) (.charge 0 3 .delete 1) ∧ (d []).units.iu.find 0 3 = none
     ∧ (d [entry3]).units.iu.find 0 3 ≠ none)
    ∧ (let w (quota : Nat) := charging .stageWrite (.txn .a) .stageWrite 2 quota [] .elsewhere (openA [])
       (w 1).oldestClaim (.txn .a) (.charge 0 3 .stageWrite 2) ∧ ((w 1).units.slot .a).state = .opened
       ∧ (w 2).units.iu.chargeWith [⟨.a, true, 0, 3, .write, 2⟩] 0 = 2)
    ∧ (let d (es : List Entry) (ms : List Member) := charging .stageDelete (.txn .a) .stageDelete 1 2 es .elsewhere (openA ms)
       (d [entry3] []).oldestClaim (.txn .a) (.charge 0 3 .stageDelete 1) ∧ (d [entry3] []).units.iu.find 0 3 ≠ none
       ∧ (d [] []).units.iu.find 0 3 = none ∧ (d [] [member3]).units.iu.find 0 3 = none
       ∧ ((d [] [member3]).units.slot .a).members.find? (fun m => m.key == 3) = some member3) := by
  unfold State.oldestClaim; decide +kernel

theorem test_release_changes :
    (let s := claims .writer (.release (.single .a)) fun u =>
      holding .write .elsewhere (writing (.record (record .single .data)) (.releasing .noSpace) u)
     s.oldestClaim .writer (.release (.single .a)) ∧ (s.units.port .a).draining = false ∧ (s.units.port .a).inHand.isSome = true
     ∧ s.units.rw.cur = some ⟨.record (record .single .data), .releasing .noSpace, []⟩)
    ∧ (let s := claims (.txn .a) (.release (.stagePending .a 3)) id
       s.oldestClaim (.txn .a) (.release (.stagePending .a 3)) ∧ s.writerSteady)
    ∧ (let s := claims (.txn .a) (.release (.stageReplaced .a 3 ⟨2, 1⟩ 2)) id
       s.oldestClaim (.txn .a) (.release (.stageReplaced .a 3 ⟨2, 1⟩ 2)) ∧ s.writerSteady) := by
  unfold State.oldestClaim State.writerSteady; decide +kernel

/-- An aborted transaction whose members are released. -/
def aborted (r : Option EndReason) (k : Option Cmd) (reply : Option ResultCode) (f : Units → Units) : State :=
  claims (.txn .a) (.release (.members .a)) fun u => f (slotA
    (fun x => { x with state := .aborting, reason := r, pending := k, reply := reply })
    (openA [member3] (holding .abort .elsewhere u)))

theorem test_release_members :
    (let s := aborted (some .expired) (some .stageWrite) none id
     s.oldestClaim (.txn .a) (.release (.members .a)) ∧ claimQueue 0 s.units = [] ∧ s.units.ce.step ≠ .sweepWaiting
     ∧ (s.units.port .a).draining = false ∧ s.writerSteady ∧ (s.units.slot .a).reason = some .expired
     ∧ (s.units.slot .a).pending = some .stageWrite)
    ∧ ((aborted (some .locked) none none id).units.slot .a).pending = none
    ∧ ((aborted none none (some .ok) id).units.slot .a).reply = some .ok
    ∧ ((aborted none none none id).units.slot .a).reply = none
    ∧ (let s := aborted none none none fun u => setClaimQueue 0 [.b]
        (u.modPort .b fun x => { x with state := .busy, inHand := some ⟨.begin, x.params, x.buffer, .elsewhere⟩ })
       s.oldestClaim (.txn .a) (.release (.members .a)) ∧ claimQueue 0 s.units = [.b]
       ∧ (s.units.port .b).inHand.isSome = true ∧ 0 < s.units.tm.queues.length ∧ s.writerSteady
       ∧ 1 ≤ s.units.tm.counter ∧ s.units.tm.counter ≤ 65535
       ∧ s.units.iu.commitSet.length + s.units.tm.retained.length ≤ 65000) := by
  unfold State.oldestClaim State.writerSteady; decide +kernel

/-- A single change at its switch. -/
def switching (kind : RecordKind) (es : List Entry) (short : Bool) : State :=
  claims .writer (.switch ⟨0, 3, ⟨2, 5⟩, 5, 9, 2, kind, .a⟩) fun u =>
    indexed es (holding .write .elsewhere (writing (.record (record .single kind)) (.switching ⟨2, 5⟩ short) u))

theorem test_switch :
    let s := switching .data [entry3] false
    s.oldestClaim .writer (.switch ⟨0, 3, ⟨2, 5⟩, 5, 9, 2, .data, .a⟩)
    ∧ s.units.rw.cur = some ⟨.record (record .single .data), .switching ⟨2, 5⟩ false, []⟩
    ∧ s.units.iu.find 0 3 = some entry3 ∧ (switching .tombstone [] true).units.iu.find 0 3 = none
    ∧ (s.units.port .a).inHand.isSome = true ∧ (s.units.port .a).draining = false
    ∧ (∃ t, exec .switch s = .next t) := by
  unfold State.oldestClaim
  exact ⟨⟨rfl, rfl⟩, rfl, rfl, rfl, rfl, rfl, _, rfl⟩

theorem test_member_report :
    let s (ms : List Member) (st : SlotState) := part fun u => slotA (fun x => { x with state := st })
      (openA ms (holding .stageWrite .elsewhere (writing (.record (record .stage .data)) (.memberReporting ⟨2, 5⟩) u)));
    ((s [member3] .opened).running = true
      ∧ (s [member3] .opened).units.rw.cur = some ⟨.record (record .stage .data), .memberReporting ⟨2, 5⟩, []⟩
      ∧ ((s [member3] .opened).units.slot .a).members.find? (fun x => x.key == 3) = some member3)
    ∧ (((s [] .opened).units.slot .a).state = .opened ∧ (s [] .opened).serves .a
        ⟨.stageWrite, mounted.ports.a.params, mounted.ports.a.buffer, .elsewhere⟩)
    ∧ ((s [{ member3 with key := 4 }] .aborting).units.slot .a).state = .aborting := by
  unfold State.serves; decide +kernel

theorem test_commit_switch :
    let s := claims .writer (.commitSwitch 0 7 ⟨2, 9⟩ .a) fun u =>
      slotA (fun x => { x with state := .committing }) (openA [member3, { member3 with key := 4, op := .delete }]
        (indexed [entry3] (writing (.record (record .commit .commit)) (.commitSwitching ⟨2, 9⟩) u)))
    s.oldestClaim .writer (.commitSwitch 0 7 ⟨2, 9⟩ .a) ∧ (s.units.slot .a).state = .committing
    ∧ s.units.rw.cur = some ⟨.record (record .commit .commit), .commitSwitching ⟨2, 9⟩, []⟩
    ∧ ((s.units.slot .a).members.map (·.key)).Nodup := by
  unfold State.oldestClaim; decide +kernel

/-- The engine with a copy in hand. -/
def copying (st : CStep) (k : Copy) (u : Units) : Units :=
  let v := engineIn st u
  v.setCe { v.ce with copy := some k, scan := 10, reading := k.orig }

theorem test_copy_switch :
    (let s (l : Location) (m : Bool) := claims .engine (.copySwitch (.entry 0 3) ⟨4, 10⟩ ⟨3, 1⟩ 2) fun u =>
      indexed [{ entry3 with loc := l }] (copying (.copySwitching m) copy3 u)
     (s ⟨4, 10⟩ false).oldestClaim .engine (.copySwitch (.entry 0 3) ⟨4, 10⟩ ⟨3, 1⟩ 2)
     ∧ (s ⟨4, 10⟩ false).units.iu.find 0 3 = some entry3 ∧ (s ⟨4, 10⟩ true).units.ce.step = .copySwitching true
     ∧ (s ⟨2, 7⟩ false).units.iu.find 0 3 = some { entry3 with loc := ⟨2, 7⟩ })
    ∧ (let s (l : Location) := claims .engine (.copySwitch (.commitMember 7) ⟨4, 10⟩ ⟨3, 1⟩ 2) fun u =>
        let v := copying (.copySwitching false) copy3 u
        v.setIu { v.iu with commitSet := [⟨7, 0, l⟩] }
       (s ⟨4, 10⟩).oldestClaim .engine (.copySwitch (.commitMember 7) ⟨4, 10⟩ ⟨3, 1⟩ 2)
       ∧ (∃ x ∈ (s ⟨4, 10⟩).units.iu.commitSet, x.txn = 7 ∧ x.loc = ⟨4, 10⟩)
       ∧ (∀ x ∈ (s ⟨2, 7⟩).units.iu.commitSet, x.txn = 7 → x.loc ≠ ⟨4, 10⟩)) := by
  unfold State.oldestClaim; decide +kernel

/-- A member move that the engine has out. -/
def moving (why : CMove) (m : Member) (f : Slot → Slot) : State :=
  part fun u => slotA f (openA [m] (copying (.moving why) copy3 u))

theorem test_member_move :
    let m : Member := { member3 with loc := ⟨4, 10⟩ }
    let ok (s : State) (why : CMove) := s.running = true ∧ s.units.ce.copy = some copy3 ∧ s.units.ce.step = .moving why
    ok (moving .written m id) .written ∧ ((moving .written m id).units.slot .a).holding = true
    ∧ ((moving .written m id).units.slot .a).members = [m] ∧ m.key = copy3.hdr.key ∧ m.loc = copy3.orig
    ∧ ((moving .written m id).units.slot .a).number = copy3.hdr.txn
    ∧ (∀ q ∈ [Port.b, .c, .d], ((moving .written m id).units.slot q).holding = false)
    ∧ ((moving .written m fun x => { x with state := .committing, committed := true }).units.slot .a).committed = true
    ∧ ((moving .tombstone m fun x => { x with holdMoves := true }).units.slot .a).holdMoves = true
    ∧ ok (moving .afterSwitch { m with isSealed := true } id) .afterSwitch
    ∧ (∀ q ∈ [Port.a, .b, .c, .d], ((moving .afterSwitch m fun _ => Slot.start).units.slot q).holding = false) := by decide +kernel

theorem test_report_writer :
    (let s (what : WReport) (role : JobRole) := claims .writer (.report (.dead ⟨2, 5⟩ 2)) fun u =>
      holding .write .elsewhere (writing (.record (record role .data)) (.reporting what ⟨2, 5⟩) u)
     (s .failed .stage).oldestClaim .writer (.report (.dead ⟨2, 5⟩ 2))
     ∧ (s .failed .stage).units.rw.cur = some ⟨.record (record .stage .data), .reporting .failed ⟨2, 5⟩, []⟩
     ∧ (s .tombstone .single).oldestClaim .writer (.report (.dead ⟨2, 5⟩ 2))
     ∧ ((s .tombstone .single).units.port .a).inHand.isSome = true)
    ∧ (let s := claims .writer (.report (.dead ⟨2, 5⟩ 1)) fun u =>
        openA [member3, { member3 with key := 4 }] (writing (.complete .a 0 7 []) (.reporting (.tombOf 0) ⟨2, 5⟩) u)
       s.oldestClaim .writer (.report (.dead ⟨2, 5⟩ 1)) ∧ (s.units.slot .a).members[0 + 1]? = some { member3 with key := 4 })
    ∧ (let s (l : Location) := claims .writer (.report (.commitRetired 7 ⟨2, 9⟩)) fun u =>
        let v := openA [] (holding .commit .elsewhere (writing (.complete .a 0 7 []) (.reporting .commitRecord ⟨2, 9⟩) u))
        v.setIu { v.iu with commitSet := [⟨7, 0, l⟩] }
       (s ⟨2, 9⟩).oldestClaim .writer (.report (.commitRetired 7 ⟨2, 9⟩)) ∧ claimQueue 0 (s ⟨2, 9⟩).units = []
       ∧ (s ⟨2, 9⟩).units.iu.commitSet.find? (fun e => e.txn == 7) = some ⟨7, 0, ⟨2, 9⟩⟩
       ∧ (s ⟨3, 1⟩).units.iu.commitSet.find? (fun e => e.txn == 7) = some ⟨7, 0, ⟨3, 1⟩⟩
       ∧ (s ⟨2, 9⟩).units.ce.step ≠ .sweepWaiting) := by
  unfold State.oldestClaim; decide +kernel

theorem test_report_engine :
    let s (what : CReport) := claims .engine (.report (.dead ⟨3, 1⟩ 2)) (copying (.reporting what) copy3)
    (s .failed).oldestClaim .engine (.report (.dead ⟨3, 1⟩ 2)) ∧ (s .failed).writerSteady
    ∧ (s .failed).units.ce.copy = some copy3 ∧ (s .original).units.ce.step = .reporting .original := by
  unfold State.oldestClaim State.writerSteady; decide +kernel

theorem test_loss_sweep :
    (let s (es : List Entry) := claims .engine (.loss 0 3 ⟨4, 10⟩) fun u => indexed es (engineIn .lossClaim u)
     (s [entry3]).oldestClaim .engine (.loss 0 3 ⟨4, 10⟩) ∧ (s [entry3]).units.iu.find 0 3 = some entry3
     ∧ (s []).units.iu.find 0 3 = none)
    ∧ (let s (es : List Entry) := claims .engine (.sweep 4) fun u => indexed es (engineIn .sweepClaim u)
       (s [entry3]).oldestClaim .engine (.sweep 4) ∧ (s []).oldestClaim .engine (.sweep 4) ∧ entry3.loc.seg = 4) := by
  unfold State.oldestClaim; decide +kernel

/-- An ALLOCATE of the Writer for a record of two cells: the write head's next cell, and which segments are erased. -/
def allocating (head : Option Nat) (next : Nat) (blank : Bool) (erased : Nat) (role : JobRole) (st : SlotState) : State :=
  claims .writer (.allocate 2) fun u =>
    let v := slotA (fun x => { x with state := st }) (writing (.record (record role .data)) .allocating u)
    v.setIu { v.iu with
      writeHead := head,
      segs := [segAt .active next 4 0 false, segAt .active 1 0 0 false, segAt .full 128 100 27 false]
        ++ List.replicate erased (segAt (if blank then .blank else .prepared) 1 0 0 true) }

theorem test_allocate_writer :
    let first := allocating (some 2) 126 false 4 .single .none
    let s := allocating (some 2) 127 false 2 .single .none
    let t := allocating (some 2) 127 true 3 .single .none
    let none2 := allocating none 1 false 2 .stage .aborting
    let none3 := allocating none 1 true 3 .single .none
    (first.oldestClaim .writer (.allocate 2) ∧ first.units.rw.cur = some ⟨.record (record .single .data), .allocating, []⟩
      ∧ (first.units.iu.seg 2).next + 2 = 128)
    ∧ (s.oldestClaim .writer (.allocate 2) ∧ (s.units.iu.seg 2).next + 2 = 129 ∧ s.units.iu.segs.countP (·.avail) = 2)
    ∧ ((t.units.iu.seg 2).next + 2 = 129 ∧ t.units.iu.segs.countP (·.avail) = 3 ∧ (t.units.iu.seg 5).state = .blank)
    ∧ (none2.units.iu.writeHead = none ∧ none2.units.iu.segs.countP (·.avail) = 2
      ∧ (none2.units.slot .a).state = .aborting ∧ none2.units.ce.step ≠ .sweepWaiting)
    ∧ (none3.units.iu.writeHead = none ∧ none3.units.iu.segs.countP (·.avail) = 3) := by
  unfold State.oldestClaim; decide +kernel

theorem test_allocate_engine :
    let s (head : Option Nat) (next erased : Nat) := claims .engine (.allocate 2) fun u =>
      let v := copying .allocating copy3 u
      v.setIu { v.iu with
        copyHead := head,
        segs := [segAt .active 1 4 0 false, segAt .active next 0 0 false] ++ List.replicate erased (segAt .prepared 1 0 0 true) }
    (s (some 3) 126 0).oldestClaim .engine (.allocate 2) ∧ ((s (some 3) 126 0).units.iu.seg 3).next + 2 = 128
    ∧ (s none 1 0).units.iu.segs.countP (·.avail) = 0 ∧ (s none 1 0).units.iu.copyHead = none
    ∧ (s none 1 0).units.ce.copy = some copy3 ∧ (s none 1 0).writerSteady := by
  unfold State.oldestClaim State.writerSteady; decide +kernel

theorem test_opened :
    let h : NewHead := ⟨5, 9, some 4⟩
    (let s := claims .writer (.opened h) (writing (.record (record .single .data)) (.openedClaim h))
     s.oldestClaim .writer (.opened h) ∧ s.units.rw.cur = some ⟨.record (record .single .data), .openedClaim h, []⟩)
    ∧ (let s := claims .engine (.opened h) (copying (.openedClaim h) copy3)
       s.oldestClaim .engine (.opened h) ∧ s.units.ce.copy = some copy3) := by
  unfold State.oldestClaim; decide +kernel

theorem test_close :
    (let s (st : WStep) (r : CloseReason) := claims .writer (.close 2 r) (writing (.record (record .single .data)) st)
     (s (.suspectClaim ⟨2, 5⟩) .suspect).oldestClaim .writer (.close 2 .suspect)
     ∧ (s (.suspectClaim ⟨2, 5⟩) .suspect).units.rw.cur = some ⟨.record (record .single .data), .suspectClaim ⟨2, 5⟩, []⟩
     ∧ (s (.badClaim 2) .bad).oldestClaim .writer (.close 2 .bad)
     ∧ (s (.badClaim 2) .bad).units.rw.cur = some ⟨.record (record .single .data), .badClaim 2, []⟩)
    ∧ (let s := claims .engine (.close 3 .suspect) (copying .suspectClaim copy3)
       s.oldestClaim .engine (.close 3 .suspect) ∧ s.units.ce.step = .suspectClaim ∧ copy3.loc.seg = 3)
    ∧ (let s := claims .engine (.close 4 .bad) (engineIn .badVictimClaim)
       s.oldestClaim .engine (.close 4 .bad) ∧ s.units.ce.step = .badVictimClaim) := by
  unfold State.oldestClaim; decide +kernel

/-- A pass of the engine, with RECLAIMs owed and jobs that wait for space. -/
def inPass (c : Claim) (st : CStep) (owed : List Port) (wait : List Waiting) : State :=
  claims .engine c fun u =>
    let v := holding .reclaim .elsewhere (engineIn st u)
    (v.setIu { v.iu with spaceWait := wait }).setCe { v.ce with owed := owed }

theorem test_pass_claims :
    (inPass (.reclaiming 4) .reclaimingClaim [] []).oldestClaim .engine (.reclaiming 4)
    ∧ (inPass (.erased 4) .erasedClaim [] []).oldestClaim .engine (.erased 4)
    ∧ (inPass (.prepared 4 1) .preparedClaim [.a] []).oldestClaim .engine (.prepared 4 1)
    ∧ ((inPass (.prepared 4 1) .preparedClaim [.a] []).units.port .a).inHand.isSome = true
    ∧ 4 - 2 < (inPass (.erased 4) .erasedClaim [] []).units.iu.segs.length
    ∧ ((inPass (.reclaiming 4) .reclaimingClaim [] []).units.ce.victim).getD 0 = 4
    ∧ (inPass (.prepared 4 1) .preparedClaim [.a] []).units.iu.segs.countP (·.avail) = 4
    ∧ (inPass (.prepared 4 1) .preparedClaim [.a] []).units.pu.shadow.lowWater = 4 := by
  unfold State.oldestClaim; decide +kernel

theorem test_no_victim :
    ((inPass .noVictim .selectNone [.a] []).oldestClaim .engine .noVictim ∧ (inPass .noVictim .selectNone [.a] []).writerSteady
      ∧ (inPass .noVictim .abandonClaim [.a] []).units.iu.spaceWait = [])
    ∧ (let r := record .single .data
       let s := inPass .noVictim .sweepWaiting [] [⟨.a, r, 1 + (r.length + 15) / 16⟩]
       s.oldestClaim .engine .noVictim ∧ s.units.iu.spaceWait = [⟨r.port, r, 1 + (r.length + 15) / 16⟩] ∧ r.role = .single
       ∧ s.units.ce.step = .sweepWaiting ∧ s.writerSteady ∧ (s.units.port .a).draining = false) := by
  unfold State.oldestClaim State.writerSteady; decide +kernel

/-! ## The units between the claims -/

theorem test_kick :
    let u (g : Option Nat) (n : Nat) : Units := mounted.setRw { mounted.rw with
      gen := n, queue := [.record { record .single .data with gen := g }] }
    (u none 4294967293).rw.cur = none ∧ (u none 4294967294).rw.gen = 4294967294 ∧ (record .single .data).role = .single
    ∧ (u (some 5) 9).rw.queue = [.record { record .single .data with gen := some 5 }]
    ∧ (mounted.rw.cur.isSome = true ∨ mounted.rw.queue = []) := by decide

theorem test_build (st : WStep) (r : RecordJob) :
    let q : Request := ⟨.writer, 2, .program 5 cell16⟩
    let u := (writing (.record r) st mounted).setRw { (writing (.record r) st mounted).rw with io := ⟨some q, true⟩ }
    q.who = .writer ∧ u.rw.io = ⟨some q, true⟩ ∧ u.rw.cur = some ⟨.record r, st, []⟩
    ∧ (record .commit .commit).length = 0 ∧ (record .single .tombstone).length = 0 ∧ 0 < (record .single .data).length
    ∧ 16 * (0 + 1) < 17 ∧ 16 ≤ 16 * (0 + 1) ∧ (2 < 3) := ⟨rfl, rfl, rfl, by decide⟩

/-- A READ that the port has out. -/
def outA (bytes : List Byte) : Units :=
  let u := holding .read (.reading ⟨0, 3, ⟨4, 10⟩, 5, 8, 2, false⟩) (params 0 0 3 5 0 0 0 mounted)
  u.modPort .a fun x => { x with io := ⟨some ⟨.port .a, 4, .read 10 2⟩, true⟩, lastOut := bytes }

theorem test_port_read : (outA []).ports.a.io = ⟨some ⟨.port .a, 4, .read 10 2⟩, true⟩ ∧ (outA []).ports.a.stale = none
    ∧ workOf .a (outA []) = some (.reading ⟨0, 3, ⟨4, 10⟩, 5, 8, 2, false⟩)
    ∧ (let bytes := header3.bytes 0x1F ++ [1, 2, 3, 4, 5]
       let h := readHeader bytes
       h.sound 10 = true ∧ h.part = 0 ∧ h.key = 3 ∧ h.gen = 8 ∧ crc (slice bytes 16 h.length) = h.payCheck)
    ∧ (readHeader []).sound 10 = false ∧ hasRecordJob .a (outA []) = false := by decide +kernel

theorem test_timers :
    let opened (armed : Bool) := part fun u => slotA (fun x => { x with lease := some ⟨800, 600, armed⟩ }) (openA [] u)
    let waits := part fun u => setClaimQueue 0 [.a] (slotA (fun x => { x with state := .waiting, waitUntil := some 40 })
      (holding .begin .elsewhere u))
    ((opened true).running = true ∧ ((opened true).units.slot .a).lease = some ⟨800, 600, true⟩
      ∧ ((opened true).units.slot .a).state = .opened ∧ waitingJob .a (opened true).units = none)
    ∧ ((opened false).units.slot .a).lease = some ⟨800, 600, false⟩
    ∧ ((part id).units.slot .a).lease = none ∧ (part id).writerSteady
    ∧ ((waits.units.slot .a).state = .waiting ∧ (waits.units.slot .a).waitUntil = some 40
      ∧ (waits.units.port .a).inHand.isSome = true) := by
  unfold State.writerSteady; decide +kernel

theorem test_events :
    (let s := part fun u =>
        let v := setClaimQueue 0 [.b] (openA [] ((holding .begin .elsewhere u).modSlot .b fun x =>
          { x with state := .waiting, part := 0 }))
        { v with tm := { v.tm with lockEvents := [⟨0, none⟩] } }
     s.running = true ∧ s.units.tm.lockEvents = [⟨0, none⟩] ∧ 0 < s.units.tm.queues.length
     ∧ (∀ q ∈ claimQueue 0 s.units, (s.units.slot q).state = .waiting ∧ (s.units.slot q).part = 0)
     ∧ (s.units.slot .a).state = .opened ∧ (∀ g ∈ [Port.b, .c, .d], (s.units.slot g).holds 0 = false))
    ∧ (let s := part fun u => { openA [] u with tm := { (openA [] u).tm with revocations := [⟨[(0, .a)], [1]⟩] } }
       s.units.tm.revocations = [⟨[(0, .a)], [1]⟩] ∧ (s.units.slot .a).part = 0 ∧ (s.units.slot .b).part = 0
       ∧ (0, Port.b) ∉ [(0, Port.a)])
    ∧ ((part id).units.tm.lockEvents = [] ∧ (part id).units.tm.revocations = [] ∧ (part id).writerSteady) := by
  unfold State.writerSteady; decide +kernel

theorem test_notices :
    (let s := part fun u => { u.setNotices .b ⟨[⟨0, none⟩], [], false, 0⟩ with nu := { (u.setNotices .b ⟨[⟨0, none⟩], [], false, 0⟩).nu with
        removals := [[(.b, 0)]], reports := [⟨0, 3, 8, .a, false⟩],
        posts := [⟨.txn, .every, Notice.plain .spaceLow⟩, ⟨.writer, .authority, Notice.plain .integrity⟩] } }
     s.running = true ∧ s.units.nu.removals = [[(.b, 0)]] ∧ s.units.nu.reports = [⟨0, 3, 8, .a, false⟩]
     ∧ s.units.nu.posts = [⟨.txn, .every, Notice.plain .spaceLow⟩] ++ ⟨.writer, .authority, Notice.plain .integrity⟩ :: []
     ∧ (s.units.notices .b).watches = [⟨0, none⟩] ∧ s.units.pu.shadow.mayRead .b 0 = true)
    ∧ (let x (n : Nat) : NoticePort := ⟨[], List.replicate n (Notice.plain .spaceLow), false, 0⟩
       (x 15).queue.length < 16 ∧ 16 ≤ (x 16).queue.length ∧ (Notice.plain .spaceLow).kind ≠ .keyChanged)
    ∧ ((part id).units.nu.removals = [] ∧ (part id).units.nu.reports = [] ∧ (part id).units.nu.posts = []) := by decide

theorem test_pass_start :
    let s (f : CompactionEngine → CompactionEngine) := part fun u => u.setCe (f u.ce)
    let noDead := part fun u => (u.setIu { u.iu with segs := [segAt .full 128 100 0 false, segAt .active 5 1 3 false] }).setCe
      { u.ce with lowRun := true }
    (part id).units.ce.state = .idle ∧ (part id).units.me.phase = .done ∧ (part id).units.ce.victim = none
    ∧ (part id).units.ce.pendingErase = [] ∧ (part id).units.ce.lowRun = false ∧ (part id).units.ce.owed = []
    ∧ (s fun ce => { ce with victim := some 4, source := .resumed }).units.ce.source = .resumed
    ∧ (s fun ce => { ce with pendingErase := [6, 7] }).units.ce.pendingErase = 6 :: [7]
    ∧ (s fun ce => { ce with victim := some 4, source := .held, restart := true }).units.ce.restart = true
    ∧ (s fun ce => { ce with lowRun := true }).units.ce.lowRun = true
    ∧ (mounted.iu.seg 4).state = .full ∧ 1 ≤ (mounted.iu.seg 4).dead
    ∧ (∀ e ∈ noDead.units.iu.segs, ¬ (e.state = .full ∧ 1 ≤ e.dead)) := by decide

theorem test_clearance :
    let s (pins : Nat) (io : Io) := part fun u =>
      let v := engineIn .waitErase u
      ((v.setCe { v.ce with cleared := true }).setRw { v.rw with io := io }).setIu { v.iu with
        segs := v.iu.segs.modify 2 (fun e => { e with pins := pins }) }
    (s 0 Io.none).units.ce.step = .waitErase ∧ (s 0 Io.none).units.ce.cleared = true ∧ ((s 0 Io.none).units.iu.seg 4).pins = 0
    ∧ ((s 1 Io.none).units.iu.seg 4).pins = 1 ∧ (s 0 Io.none).units.rw.io.want = none
    ∧ (s 0 ⟨some ⟨.writer, 4, .program 1 cell16⟩, false⟩).units.rw.io.want = some ⟨.writer, 4, .program 1 cell16⟩
    ∧ (part id).units.ce.step ≠ .waitErase := by decide

/-- The Mount Engine in a step, its READ accepted. -/
def mountIn (st : MountStep) (images : List (Nat × Shadow)) : Units :=
  mounted.setMe { mounted.me with step := st, images := images, io := ⟨some ⟨.mount, 0, .read 0 11⟩, true⟩ }

theorem test_mount :
    ((mountIn (.policy 0) []).me.step = .policy 0 ∧ (mountIn (.policy 0) []).me.io = ⟨some ⟨.mount, 0, .read 0 11⟩, true⟩)
    ∧ ((mountIn (.policy 1) [(0, Shadow.factory)]).me.images = [(0, Shadow.factory)])
    ∧ ((mountIn (.header 62) []).me.step = .header 62 ∧ classify (prepareProgram 5) = some .prepared) := by decide +kernel

theorem test_loaded : usableImage [] = none
    ∧ (mountIn (.policy 1) [(0, Shadow.factory), (1, Shadow.factory)]).me.step = .policy 1
    ∧ (mountIn (.policy 1) [(0, Shadow.factory), (1, Shadow.factory)]).me.images = [(0, Shadow.factory), (1, Shadow.factory)] :=
  ⟨by decide +kernel, rfl, rfl⟩

theorem test_layout_ranges : header3.kind < 256 ∧ header3.gen = 8 ∧ 126 + (1 + (5 + 15) / 16) = 128
    ∧ 1 + (240 + 15) / 16 = 16 := ⟨by decide +kernel, rfl, rfl, rfl⟩

/-! ## The wider cases of the statements -/

/-- In reset with power the link is ignored but shifts out zeros. -/
theorem test_reset_link : let s : State := { part id with resetLow := true }
    s.powered = true ∧ s.resetLow = true ∧ s.running = false ∧ (Instr.victimErase).supply = false
    ∧ (Instr.victimErase).onLink = false ∧ (Instr.ack .a) ∈ [Instr.attentionEnables .a 0, .ack .a, .cancel .a, .portReset .a] := by
  decide

/-- Port A whose job waits for space, in a slot. -/
def waits (c : Cmd) (r : RecordJob) (f : Slot → Slot) (cs : List ChargeEntry) : State := part fun u =>
  let v := slotA f (openA [] (holding c .elsewhere u))
  v.setIu { v.iu with spaceWait := [⟨.a, r, 2⟩], charges := cs }

theorem test_cancel_waiting :
    let charge (staged : Bool) : ChargeEntry := ⟨.a, staged, 0, 3, .write, 2⟩
    let single := waits .write (record .single .data) (fun _ => Slot.start) [charge false]
    let stage := waits .stageWrite (record .stage .data) id [charge true]
    let commit := waits .commit (record .commit .commit) (fun x => { x with state := .committing }) []
    (Quiet .a single ∧ waitingJob .a single.units = some (record .single .data))
    ∧ (Quiet .a stage ∧ waitingJob .a stage.units = some (record .stage .data) ∧ (stage.units.slot .a).state = .opened
      ∧ stage.units.iu.charges = [] ++ charge true :: [] ∧ (charge true).key = (record .stage .data).key)
    ∧ (Quiet .a commit ∧ waitingJob .a commit.units = some (record .commit .commit) ∧ (record .commit .commit).port = .a
      ∧ (commit.units.slot .a).state = .committing ∧ chargeOut .a commit.units = false) :=
  ⟨⟨quiet_of (by decide), rfl⟩, ⟨quiet_of (by decide), rfl, rfl, rfl, rfl⟩, quiet_of (by decide), rfl, rfl, rfl, rfl⟩

/-- Port A with work of each kind at its reset. -/
theorem test_port_reset_work :
    (let s := committing [member3] true
     Quiet .a s ∧ (s.units.port .a).state ≠ .mounting ∧ s.units.rw.cur ≠ none ∧ (s.units.slot .a).state = .opened)
    ∧ (let s (io : Io) := part fun u => (holding .read (.reading ⟨0, 3, ⟨4, 10⟩, 5, 8, 2, false⟩) u).modPort .a
        fun x => { x with io := io }
       Quiet .a (s Io.none) ∧ Quiet .a (s ⟨some ⟨.port .a, 4, .read 10 2⟩, false⟩)
       ∧ Quiet .a (s ⟨some ⟨.port .a, 4, .read 10 2⟩, true⟩) ∧ ((s Io.none).units.slot .a).state = .none)
    ∧ (let s (st : WriteStep) (b : Bool) := part fun u => (holding .policyCommit .elsewhere u).setPu { u.pu with
        session := .committing .a factoryImage { writeSeq with step := st },
        io := ⟨some ⟨.policy, 1, { writeSeq with step := st }.op⟩, b⟩ }
       Quiet .a (s (.valid 1) false) ∧ Quiet .a (s (.valid 2) false) ∧ Quiet .a (s (.cell 0 1) true)
       ∧ (s (.valid 1) true).units.pu.io.presented = true)
    ∧ (let s := committing [member3] false
       Quiet .a s ∧ (s.units.slot .a).state = .opened ∧ s.units.rw.cur = none ∧ (s.units.slot .a).members = member3 :: []
       ∧ (s.units.slot .a).stage = none ∧ chargeOut .a s.units = false ∧ waitingJob .a s.units = none)
    ∧ (let s := part fun u => (openA [] u).modPort .a fun x => { x with state := .busy, draining := true }
       s.running = true ∧ (s.units.port .a).frame = none ∧ (s.units.port .a).outcome = none
       ∧ (s.units.port .a).handOver = false ∧ s.writerSteady ∧ (s.units.port .a).draining = true
       ∧ workEnded .a s.units = false) :=
  ⟨⟨quiet_of (by decide), by decide, by decide, rfl⟩,
    ⟨quiet_of (by decide), quiet_of (by decide), quiet_of (by decide), rfl⟩,
    ⟨quiet_of (by decide), quiet_of (by decide), quiet_of (by decide), rfl⟩,
    ⟨quiet_of (by decide), rfl, rfl, rfl, rfl, rfl, rfl⟩, rfl, rfl, rfl, rfl, .inr rfl, rfl, by decide⟩

/-- A transaction whose partition a revocation to come concerns. -/
def revoked (busy : Bool) : State :=
  let s := committing [member3] busy
  s.withUnits { s.units with tm := { s.units.tm with revocations := [⟨[(0, .a)], []⟩] } }

theorem test_revoked : Passing .commit .a 0 (revoked true) ∧ Passing .abort .a 0 (revoked true)
    ∧ Passing .renew .a 0 (revoked true) ∧ (revoked true).units.rw.cur ≠ none ∧ chargeOut .a (revoked true).units = false
    ∧ ((revoked true).units.slot .a).state = .opened
    ∧ ∃ r ∈ (revoked true).units.tm.revocations, (((revoked true).units.slot .a).part, Port.a) ∈ r.lost :=
  ⟨passing_of (by decide), passing_of (by decide), passing_of (by decide), by decide, rfl, rfl, by decide⟩

theorem test_apply_point : let w : WriteSeq := { writeSeq with step := .valid 1, image := factoryImage }
    let q : Request := ⟨.policy, 1, w.op⟩
    let u := holding .policyCommit .elsewhere (mounted.setPu { mounted.pu with
      session := .committing .a factoryImage w, io := ⟨some q, true⟩ })
    q.who = .policy ∧ u.pu.io = ⟨some q, true⟩ ∧ u.pu.session = .committing .a factoryImage w ∧ w.stopping = false
    ∧ w.noResult = false ∧ (u.port .a).draining = false ∧ readPolicy w.image = some Shadow.factory :=
  ⟨rfl, rfl, rfl, rfl, rfl, rfl, by decide +kernel⟩

/-- The engine whose READ of a record of the victim is accepted. -/
def readingAt (st : CStep) (todo : Option (List Named)) : Units :=
  let v := judging st mounted
  v.setCe { v.ce with todo := todo, io := ⟨some ⟨.engine, 4, .read 10 1⟩, true⟩ }

theorem test_engine_reads :
    let header (k : RecordKind) (txn : Nat) := newHeader k 0 3 (if k = .data then 5 else 0) txn 8 []
    let read (k : RecordKind) (txn : Nat) (st : Byte) := readHeader ((header k txn).bytes st)
    ((readingAt .scanRead none).ce.io = ⟨some ⟨.engine, 4, .read 10 1⟩, true⟩ ∧ (readingAt .scanRead none).ce.reading.cell = 10
      ∧ allErased (List.replicate 16 0xFF) = true ∧ (readHeader (0x7F :: List.replicate 15 0xFF)).sound 10 = false)
    ∧ ((read .data 7 0x3F).sound 10 = true ∧ (read .data 7 0x3F).taken = .written ∧ (read .data 7 0x3F).txn = 7
      ∧ (read .data 0 0x1F).taken = .live ∧ (read .tombstone 7 0x1F).taken = .live
      ∧ (read .tombstone 7 0x1F).recordKind = .tombstone ∧ (read .commit 7 0x1F).recordKind = .commit
      ∧ (read .commit 7 0x3F).taken = .opened ∧ (read .data 7 0x0F).taken = .retired ∧ (read .data 0 0x3F).txn = 0)
    ∧ ((readingAt .sweepRead (some [.entry 0 3 ⟨4, 10⟩])).ce.todo = some (.entry 0 3 ⟨4, 10⟩ :: [])
      ∧ (readingAt (.bodyRead .entry .live) none).ce.step = .bodyRead .entry .live)
    ∧ (let bytes := (header3.bytes 0x1F) ++ [1, 2, 3, 4, 5]
       let h := readHeader bytes
       h.taken = .live ∧ crc (slice bytes 16 h.length) = h.payCheck
       ∧ crc (slice (header3.bytes 0x1F) 16 h.length) ≠ h.payCheck) := by decide +kernel

theorem test_charge_aborting :
    let s := charging .stageWrite (.txn .a) .stageWrite 2 2 [] .elsewhere
      (fun u => slotA (fun x => { x with state := .aborting, reason := some .expired }) (openA [] u))
    s.oldestClaim (.txn .a) (.charge 0 3 .stageWrite 2) ∧ (s.units.slot .a).state = .aborting
    ∧ (popClaim s.units).iu.claims = [] := by
  unfold State.oldestClaim; decide +kernel

theorem test_expiry_charging : let s := charging .stageWrite (.txn .a) .stageWrite 2 2 [] .elsewhere (openA [])
    (s.units.slot .a).state = .opened ∧ (s.units.slot .a).lease = some ⟨800, 600, true⟩ ∧ waitingJob .a s.units = none
    ∧ (⟨.txn .a, .charge 0 3 .stageWrite 2⟩ : ClaimMsg) ∈ s.units.iu.claims := by decide +kernel

/-- The Writer with a job in a step, its program accepted. -/
def working (j : Job) (st : WStep) (ls : List Location) (f : Units → Units) : Units :=
  let u := f mounted
  u.setRw { u.rw with cur := some ⟨j, st, ls⟩, io := ⟨some ⟨.writer, 2, .program 5 cell16⟩, true⟩ }

theorem test_complete_and_clean :
    let tomb : Member := { member3 with key := 4, op := .delete, loc := ⟨2, 7⟩, cells := 1 }
    let ds : List (Option Displaced) := [some ⟨⟨4, 10⟩, 2⟩, none]
    let job : Job := .complete .a 0 7 ds
    let open2 := openA [member3, tomb]
    (let u := (open2 mounted).setRw { mounted.rw with queue := [job] }
     u.rw.cur = none ∧ u.rw.queue = job :: [] ∧ (u.slot .a).members[0]? = some member3)
    ∧ (let u := working job (.memberLive 0 ⟨2, 1⟩ 1 false) [⟨2, 1⟩] open2
       u.rw.io = ⟨some ⟨.writer, 2, .program 5 cell16⟩, true⟩
       ∧ u.rw.cur = some ⟨job, .memberLive 0 ⟨2, 1⟩ 1 false, [⟨2, 1⟩]⟩ ∧ ds[0]? = some (some ⟨⟨4, 10⟩, 2⟩)
       ∧ u.iu.writeHead = some 2 ∧ (ds[1]?).join = none ∧ (u.slot .a).members[1]? = some tomb)
    ∧ (let u := working job (.memberLive 1 ⟨2, 7⟩ 3 true) [⟨2, 1⟩, ⟨4, 9⟩] fun u =>
        let v := open2 u
        v.setIu { v.iu with writeHead := some 5, commitSet := [⟨7, 0, ⟨2, 9⟩⟩] }
       u.iu.writeHead ≠ some 2 ∧ (u.slot .a).members.length = 2 ∧ tomb.loc ≠ ⟨4, 9⟩
       ∧ u.iu.commitSet.find? (fun e => e.txn == 7) = some ⟨7, 0, ⟨2, 9⟩⟩)
    ∧ (let u := working job (.shutting 2 3 (.memberLive 0 ⟨2, 1⟩ 3 false)) [⟨2, 1⟩] fun u =>
        let v := open2 u
        v.setIu { v.iu with segs := v.iu.segs.modify 0 (fun e => { e with suspect := true }) }
       (u.iu.seg 2).suspect = true ∧ u.rw.cur = some ⟨job, .shutting 2 3 (.memberLive 0 ⟨2, 1⟩ 3 false), [⟨2, 1⟩]⟩)
    ∧ (let s (c : Claim) (st : WStep) := claims .writer c fun u =>
        (open2 u).setRw { u.rw with cur := some ⟨job, st, [⟨2, 1⟩]⟩ }
       (s (.unpin 4) (.unpinning (.member 0 true))).oldestClaim .writer (.unpin 4)
       ∧ (s (.report (.dead ⟨2, 7⟩ 1)) (.reporting (.tombOf 1) ⟨2, 7⟩)).oldestClaim .writer (.report (.dead ⟨2, 7⟩ 1))
       ∧ (s (.unpin 4) (.unpinning (.skipped 0))).units.rw.io = ⟨none, false⟩)
    ∧ (let u := (slotA (fun x => { x with state := .aborting }) (openA [member3] mounted)).setRw
        { mounted.rw with queue := [.abortClean .a] }
       u.rw.cur = none ∧ u.rw.queue = .abortClean .a :: [] ∧ (u.slot .a).state = .aborting)
    ∧ (let u := working (.abortClean .a) (.retiring (.aborted 0) ⟨4, 9⟩ 3 3) [⟨4, 9⟩] fun u =>
        slotA (fun x => { x with state := .aborting }) (openA [member3] u)
       u.rw.cur = some ⟨.abortClean .a, .retiring (.aborted 0) ⟨4, 9⟩ 3 3, [⟨4, 9⟩]⟩ ∧ (u.slot .a).state = .aborting
       ∧ u.iu.writeHead ≠ some 4 ∧ (u.slot .a).members.length ≤ 1 ∧ member3.loc ≠ ⟨4, 9⟩)
    ∧ (let q : Request := ⟨.writer, 2, .program 1 cell16⟩
       let s := part fun u => u.setRw { u.rw with
         cur := some ⟨job, .memberLive 0 ⟨2, 1⟩ 1 true, [⟨2, 1⟩]⟩, io := ⟨some q, false⟩ }
       s.running = true ∧ s.ac.accepts q = true ∧ s.units.rw.io = ⟨some q, false⟩) := by
  unfold State.oldestClaim; decide +kernel

/-- The engine with a copy whose program is accepted. -/
def copyProgram (st : CStep) : Units :=
  let u := copying st copy3 mounted
  u.setCe { u.ce with io := ⟨some ⟨.engine, 3, .program 1 cell16⟩, true⟩ }

theorem test_copy_programs (st : CStep) : (copyProgram st).ce.io = ⟨some ⟨.engine, 3, .program 1 cell16⟩, true⟩
    ∧ (copyProgram st).ce.copy = some copy3 ∧ (copyProgram st).ce.step = st ∧ 1 < copy3.hdr.cells
    ∧ copy3.hdr.recordKind ≠ .commit ∧ copy3.target = .live ∧ copy3.attempts < 2 := ⟨rfl, rfl, rfl, by decide +kernel⟩

theorem test_head_programs :
    let h : NewHead := ⟨5, 9, some 4⟩
    let j : Job := .record (record .single .data)
    (let u := working j (.head (.closing 2 3 (.newHead h))) [] id
     u.rw.cur = some ⟨j, .head (.closing 2 3 (.newHead h)), []⟩ ∧ u.rw.io = ⟨some ⟨.writer, 2, .program 5 cell16⟩, true⟩
     ∧ h.prepare = some 4)
    ∧ (let r : RecordJob := { record .stage .data with relocs := 2 }
       let u := working (.record r) (.closingFailed 2 3) [] fun u => openA [] (holding .stageWrite .elsewhere u)
       2 ≤ r.relocs ∧ r.role = .stage ∧ (u.slot .a).state = .opened ∧ (u.port .a).inHand.isSome = true
       ∧ (record .single .data).relocs < 2)
    ∧ ((copyProgram (.head (.closing 3 1 .none))).ce.step = .head (.closing 3 1 .none)
      ∧ (copyProgram (.closingFailed 3 2)).ce.step = .closingFailed 3 2)
    ∧ (let s := claims .engine (.close 5 .bad) (copying (.badClaim 5) copy3)
       s.oldestClaim .engine (.close 5 .bad) ∧ s.units.ce.step = .badClaim 5) := by
  unfold State.oldestClaim; decide +kernel

/-- An ALLOCATE of the engine for two cells. -/
def copyAllocates (head : Option Nat) (next erased : Nat) : State :=
  claims .engine (.allocate 2) fun u =>
    let v := copying .allocating copy3 u
    v.setIu { v.iu with
      copyHead := head,
      segs := [segAt .active 1 4 0 false, segAt .active next 0 0 false] ++ List.replicate erased (segAt .blank 1 0 0 true) }

theorem test_allocate_closes :
    ((copyAllocates (some 3) 127 0).oldestClaim .engine (.allocate 2) ∧ ((copyAllocates (some 3) 127 0).units.iu.seg 3).next + 2 = 129)
    ∧ ((copyAllocates (some 3) 127 1).units.iu.segs.countP (·.avail) = 1)
    ∧ ((copyAllocates none 1 1).units.iu.copyHead = none ∧ (copyAllocates none 1 1).units.iu.segs.countP (·.avail) = 1
      ∧ ((copyAllocates none 1 1).units.iu.seg 4).state = .blank ∧ (copyAllocates none 1 1).writerSteady) := by
  unfold State.oldestClaim State.writerSteady; decide +kernel

/-- Jobs of three ports on the space wait list, one of each role. -/
def threeWait (st : CStep) : State := claims .engine .noVictim fun u =>
  let v := engineIn st (openA [] (holding .stageWrite .elsewhere u))
  let on (p : Port) (c : Cmd) (u : Units) : Units :=
    u.modPort p fun x => { x with state := .busy, inHand := some ⟨c, x.params, x.buffer, .elsewhere⟩ }
  let v := (on .c .commit (on .b .write v)).modSlot .c fun x => { x with state := .committing, part := 1, number := 8 }
  v.setIu { v.iu with
    spaceWait := [⟨.a, record .stage .data, 2⟩, ⟨.b, { record .single .data with port := .b }, 2⟩,
      ⟨.c, { record .commit .commit with port := .c }, 1⟩],
    charges := [⟨.a, true, 0, 3, .write, 2⟩, ⟨.b, false, 0, 3, .write, 2⟩] }

theorem test_no_victim_many : let s := threeWait .abandonClaim
    s.oldestClaim .engine .noVictim ∧ s.writerSteady ∧ (s.units.iu.spaceWait.map (·.port)).Nodup
    ∧ (∀ x ∈ s.units.iu.spaceWait, x.job.port = x.port ∧ (s.units.port x.port).inHand.isSome = true
        ∧ (s.units.port x.port).draining = false ∧ (x.job.role = .stage → (s.units.slot x.port).state = .opened)
        ∧ (x.job.role = .commit → (s.units.slot x.port).state = .committing))
    ∧ s.units.iu.charges.filter (fun e => e.port == .a) = [] ++ ⟨.a, true, 0, 3, .write, 2⟩ :: [] := by
  unfold State.oldestClaim State.writerSteady; decide +kernel

theorem test_status_programs :
    let j : Job := .record (record .single .data)
    ((working j (.live ⟨2, 5⟩ 3) [] id).rw.cur = some ⟨j, .live ⟨2, 5⟩ 3, []⟩ ∧ mounted.iu.writeHead = some 2
      ∧ (working j (.retiring .displaced ⟨4, 10⟩ 3 3) [] id).rw.cur = some ⟨j, .retiring .displaced ⟨4, 10⟩ 3 3, []⟩
      ∧ mounted.iu.writeHead ≠ some 4)
    ∧ (let s := claims .writer (.close 2 .suspect) (writing j (.shutClaim 2 (.live ⟨2, 5⟩ 3)))
       s.oldestClaim .writer (.close 2 .suspect) ∧ s.units.rw.cur = some ⟨j, .shutClaim 2 (.live ⟨2, 5⟩ 3), []⟩)
    ∧ (let u := working j (.shutting 2 3 (.live ⟨2, 5⟩ 3)) [] fun u =>
        u.setIu { u.iu with segs := u.iu.segs.modify 0 (fun e => { e with suspect := true }) }
       (u.iu.seg 2).suspect = true ∧ u.rw.cur = some ⟨j, .shutting 2 3 (.live ⟨2, 5⟩ 3), []⟩)
    ∧ (let r := record .stage .data
       let u := working (.record r) (.retiring .replaced ⟨4, 10⟩ 3 1) [] fun u => openA [] (holding .stageWrite .elsewhere u)
       r.role = .stage ∧ (u.slot .a).state = .opened ∧ (u.port .a).inHand.isSome = true) := by
  unfold State.oldestClaim; decide +kernel

/-- A pass that is taken up, with what its sweep has left, or cannot be cleared. -/
theorem test_pass_cases :
    let s (f : CompactionEngine → CompactionEngine) := part fun u => u.setCe (f u.ce)
    let held (todo : Option (List Named)) (scan : Nat) := s fun ce =>
      { ce with victim := some 4, source := .held, restart := true, todo := todo, scan := scan }
    ((held none 127).units.ce.scan < 128 ∧ 128 ≤ (held none 128).units.ce.scan
      ∧ (held (some [.entry 0 3 ⟨4, 10⟩]) 128).units.ce.todo = some (.entry 0 3 ⟨4, 10⟩ :: [])
      ∧ (held (some []) 128).units.ce.unread = false)
    ∧ (let q := part fun u => (engineIn .waitErase u).setRw { u.rw with queue := [.removal .a 0 3 7 ⟨4, 10⟩] }
       q.units.ce.step = .waitErase ∧ Job.removal .a 0 3 7 ⟨4, 10⟩ ∈ q.units.rw.queue ∧ q.units.ce.victim = some 4)
    ∧ (let u := (engineIn (.marking 3) mounted).setCe { (engineIn (.marking 3) mounted).ce with
        io := ⟨some ⟨.engine, 4, .program 0 cell16⟩, true⟩ }
       u.ce.io = ⟨some ⟨.engine, 4, .program 0 cell16⟩, true⟩ ∧ u.ce.victim = some 4 ∧ u.ce.step = .marking 3
       ∧ u.ce.copy = none)
    ∧ (inPass (.prepared 4 1) .preparedClaim [] []).units.ce.kept = none := by decide +kernel

theorem test_released_in_sweep :
    let s := aborted none none none fun u =>
      let v := engineIn .sweepRead u
      v.setCe { v.ce with state := .copy, todo := some [.entry 0 3 ⟨4, 10⟩] }
    s.units.ce.state = .copy ∧ s.units.ce.todo ≠ none ∧ s.writerSteady
    ∧ (aborted none none none (engineIn .sweepWaiting)).units.ce.step = .sweepWaiting := by
  unfold State.writerSteady; decide +kernel

/-- The Mount Engine with an array request accepted, changed. -/
def mountAt (st : MountStep) (f : MountEngine → MountEngine) : Units :=
  (mountIn st []).setMe (f (mountIn st []).me)

/-- A member of transaction 7 found in FULL segment 4, its COMMIT, and the record it replaces. -/
def cands3 : List Candidate :=
  [⟨0, 3, .data, .live, 5, 0, ⟨4, 1⟩, 5, 2, true⟩, ⟨0, 3, .data, .written, 8, 7, ⟨4, 10⟩, 5, 2, true⟩,
    ⟨0, 1, .commit, .live, 9, 7, ⟨4, 12⟩, 0, 1, true⟩]

def scanned4 (m : MountEngine) : MountEngine := { m with classes := [⟨4, .full, some 0, some 3⟩], cands := cands3 }

theorem test_mount_records :
    let u := mountAt (.scanHeader 4 10) scanned4
    (u.me.step = .scanHeader 4 10 ∧ u.me.io = ⟨some ⟨.mount, 0, .read 0 11⟩, true⟩
      ∧ (readHeader (header3.bytes 0x1F)).sound 10 = true ∧ (readHeader (header3.bytes 0x1F)).taken = .live
      ∧ classOf 4 u.me = .full ∧ (readHeader cell16).sound 10 = false)
    ∧ ((mountAt (.scanBody 4 10) scanned4).me.step = .scanBody 4 10)
    ∧ ((mountAt (.closing 4 3) scanned4).me.step = .closing 4 3)
    ∧ ((mountAt (.blank 63) scanned4).me.step = .blank 63 ∧ classify (List.replicate 16 0xFF) = none)
    ∧ ((mountAt (.policy 1) fun m => { m with images := [(0, Shadow.factory)] }).me.images = [(0, Shadow.factory)]) := by
  decide +kernel

theorem test_mount_repair :
    let m := scanned4 MountEngine.start
    (groupRecords m 2).map (·.loc) = [⟨4, 10⟩] ∧ (groupRecords m 6).map (·.loc) = [⟨4, 12⟩]
    ∧ (currentVersions m).map (·.loc) = [⟨4, 10⟩] ∧ (groupRecords m 4).map (·.loc) = [⟨4, 1⟩]
    ∧ groupRecords { m with givenUp := [⟨4, 10⟩] } 3 = [⟨0, 3, .data, .written, 8, 7, ⟨4, 10⟩, 5, 2, true⟩]
    ∧ (currentVersions { m with givenUp := [⟨4, 10⟩] }).map (·.loc) = [⟨4, 1⟩]
    ∧ (let u := mountAt (.repair 3 3) fun m => { scanned4 m with group := 6, progs := cands3.drop 2 }
       u.me.step = .repair 3 3 ∧ u.me.group = 6 ∧ u.me.progs = cands3[2] :: []) := by decide +kernel

theorem test_policy_image : Shadow.factory.parts.length = 16
    ∧ (∀ e ∈ Shadow.factory.parts, e.quota ≤ 7874 ∧ 1 ≤ e.lease ∧ e.lease ≤ 6000)
    ∧ (∀ p ∈ allPorts, (Shadow.factory.ports.get p).waitLimit < 256)
    ∧ 3 ≤ Shadow.factory.lowWater ∧ Shadow.factory.lowWater ≤ 16 ∧ Shadow.factory.seq < 4294967296 :=
  ⟨by decide, by decide, by decide, by decide, by decide, by decide⟩

/-! ## Ends that are due, claims that pass on, ends that nothing waits for -/

/-- A PREPARED header with a bit of the sequence number or of its check cleared is DIRTY (R8). -/
theorem test_prepared_sequence : classify ((prepareProgram 5).set 9 0xFE) = some .dirty
    ∧ classify ((prepareProgram 5).set 10 0xFE) = some .dirty ∧ classify ((prepareProgram 5).set 11 0x7F) = some .dirty
    ∧ classify ((prepareProgram 5).set 12 0) = some .prepared := by decide +kernel

/-- No end is due to a transaction. -/
theorem test_undue : ¬ (inTxn []).units.frozenByOwn .a ∧ ¬ (inTxn []).units.revoked .a
    ∧ ¬ (committing [member3] true).units.frozenByOwn .a ∧ ¬ (committing [member3] true).units.revoked .a
    ∧ ¬ (revoked true).units.frozenByOwn .a ∧ (revoked true).units.revoked .a := by
  unfold Units.frozenByOwn Units.revoked; decide

/-- Port A has frozen partition 0, on which its transaction is OPEN, and the lock event has not been taken. -/
def ownFreeze : State :=
  let s := committing [member3] true
  s.withUnits { s.units with tm := { s.units.tm with lockEvents := [⟨0, some .a⟩] } }

/-- Its next transaction command finds the transaction LOCKED. -/
theorem test_own_freeze : Passing .commit .a 0 ownFreeze ∧ Passing .stageWrite .a 0 ownFreeze
    ∧ (ownFreeze.units.slot .a).state = .opened
    ∧ ownFreeze.units.frozenByOwn .a ∧ chargeOut .a ownFreeze.units = false ∧ waitingJob .a ownFreeze.units = none
    ∧ ∀ t, exec (.commit .a) ownFreeze = .next t →
        (t.units.slot .a).state = .aborting ∧ (t.units.slot .a).reason = some .locked
        ∧ (t.units.slot .a).pending = some .commit := by
  refine ⟨passing_of (by decide), passing_of (by decide), rfl, by unfold Units.frozenByOwn; decide, rfl, rfl, ?_⟩
  intro t h; cases h; decide +kernel

/-- Port B waits for partition 0 with its BEGIN in hand. -/
def waiterB (u : Units) : Units := setClaimQueue 0 [.b]
  ((u.modPort .b fun x => { x with state := .busy, inHand := some ⟨.begin, x.params, x.buffer, .elsewhere⟩ }).modSlot .b
    fun s => { s with state := .waiting, part := 0 })

/-- An empty COMMIT passes the claim to the waiter. -/
theorem test_claim_passes : let s := part fun u => waiterB (openA [] u)
    Passing .commit .a 0 s ∧ (s.units.slot .a).state = .opened ∧ (s.units.slot .a).members = [] ∧ (s.units.slot .a).stage = none
    ∧ claimQueue 0 s.units = .b :: [] ∧ (s.units.port .b).inHand.isSome = true
    ∧ ∀ t, exec (.commit .a) s = .next t → (t.units.slot .b).state = .opened ∧ (t.units.slot .a).state = .none
        ∧ claimQueue 0 t.units = [] := by
  refine ⟨passing_of (by decide), rfl, rfl, rfl, rfl, rfl, ?_⟩
  intro t h; cases h; decide +kernel

/-- An ABORT without members and a COMMIT without a generation left, each at a Writer without a job. -/
theorem test_abort_empty_commit_exhausted :
    (let s := committing [] false
     Passing .abort .a 0 s ∧ (s.units.slot .a).members = [] ∧ s.units.rw.cur = none)
    ∧ (let s := part fun u => (openA [member3] u).setRw { u.rw with gen := 4294967294 }
       Passing .commit .a 0 s ∧ s.units.rw.cur = none ∧ 4294967294 ≤ s.units.rw.gen ∧ (s.units.slot .a).members ≠ []) :=
  ⟨⟨passing_of (by decide), rfl, rfl⟩, passing_of (by decide), rfl, by decide, by decide⟩

/-- A write sequence that a port reset has stopped, and one it has deprived of its result. -/
theorem test_sequence_reset :
    let w (stopping noResult : Bool) : WriteSeq := ⟨1, factoryImage, .valid 3, stopping, noResult⟩
    let q : Request := ⟨.policy, 1, (w true false).op⟩
    let u (w : WriteSeq) : Units := mounted.setPu { mounted.pu with
      session := .committing .a factoryImage w, io := ⟨some q, true⟩ }
    q.who = .policy ∧ (u (w true false)).pu.io = ⟨some q, true⟩
    ∧ (u (w false true)).pu.session = .committing .a factoryImage (w false true)
    ∧ ((u (w false true)).port .a).inHand = none ∧ readPolicy factoryImage = some Shadow.factory :=
  ⟨rfl, rfl, rfl, rfl, by decide +kernel⟩

/-- A LIST whose first claim leaves it short of 64, and one that a staged delete further on leaves unsure. -/
theorem test_range_goes_on :
    let found (k : Nat) := mergeListed [{ member3 with key := k, op := .delete }] (some 3) (some 73) (many 64)
    (found 10).length = 63 ∧ (found 74).length = 64 ∧ ((many 64).getLast?).map (·.key) = some 73
    ∧ (many 65).Pairwise (fun x y => x.part < y.part ∨ (x.part = y.part ∧ x.key < y.key)) := by decide +kernel

/-- A COMPLETE behind its COMMIT record: a TOMBSTONE left short of LIVE, and a waiter for the claim. -/
theorem test_complete_ends :
    let tomb : Member := { member3 with key := 4, op := .delete, loc := ⟨2, 7⟩, cells := 1 }
    let s (what : WReport) (c : Claim) (ms : List Member) := claims .writer c fun u =>
      waiterB (openA ms (holding .commit .elsewhere (writing (.complete .a 0 7 []) (.reporting what ⟨2, 9⟩) u)))
    let left := s .leftTomb (.report (.dead ⟨2, 7⟩ 1))
    (left [tomb]).oldestClaim .writer (.report (.dead ⟨2, 7⟩ 1))
    ∧ ((left [tomb]).units.slot .a).members[0]? = some tomb ∧ tomb.op = .delete ∧ tomb.isSealed = false
    ∧ (left [tomb]).units.rw.cur = some ⟨.complete .a 0 7 [], .reporting .leftTomb ⟨2, 9⟩, []⟩
    ∧ (∀ m ∈ ((left [{ tomb with isSealed := true }]).units.slot .a).members, ¬ (m.op = .delete ∧ m.isSealed = false))
    ∧ claimQueue 0 (left []).units = .b :: [] ∧ ((left []).units.port .b).inHand.isSome = true
    ∧ (left []).serves .a ⟨.commit, mounted.ports.a.params, mounted.ports.a.buffer, .elsewhere⟩ := by
  unfold State.oldestClaim State.serves; decide +kernel

/-- Jobs that find the generations used up. -/
theorem test_generations_used :
    let u (role : JobRole) (st : SlotState) : Units :=
      let v := slotA (fun x => { x with state := st }) (openA [] (holding .stageWrite .elsewhere mounted))
      v.setRw { v.rw with gen := 4294967294, queue := [.record { record role .data with gen := none }] }
    (u .stage .opened).rw.cur = none ∧ 4294967294 ≤ (u .stage .opened).rw.gen
    ∧ ((u .stage .opened).slot .a).state = .opened ∧ ((u .stage .opened).port .a).inHand.isSome = true
    ∧ ((u .stage .aborting).slot .a).state = .aborting
    ∧ (u .commit .committing).rw.queue = .record { record .commit .data with gen := none } :: [] := by decide +kernel

/-- A stage that waits for space when its transaction ends, and one whose CHARGE is out. -/
theorem test_stage_waits_at_the_end :
    let s := waits .stageWrite (record .stage .data) id []
    let c := charging .stageWrite (.txn .a) .stageWrite 2 2 [] .elsewhere (openA [])
    s.units.stageWaits .a = true ∧ (∀ x ∈ s.units.iu.claims, x.src ≠ .txn .a) ∧ (s.units.slot .a).state = .opened
    ∧ (s.units.slot .a).lease = some ⟨800, 600, true⟩
    ∧ (⟨.txn .a, .charge 0 3 .stageWrite 2⟩ : ClaimMsg) ∈ c.units.iu.claims ∧ c.units.stageWaits .a = false := by
  decide +kernel

/-- A lock event and a revocation that end a transaction, whose stage waits for space, and a wait. -/
theorem test_events_end : let s := part fun u =>
      let v := waiterB (openA [] (holding .stageWrite .elsewhere u))
      { v.setIu { v.iu with spaceWait := [⟨.a, record .stage .data, 2⟩] } with
        tm := { v.tm with lockEvents := [⟨0, some .c⟩], revocations := [⟨[(0, .a)], [0]⟩] } }
    s.running = true ∧ s.units.stageWaits .a = true ∧ s.units.tm.lockEvents = ⟨0, some .c⟩ :: []
    ∧ s.units.tm.revocations = ⟨[(0, .a)], [0]⟩ :: []
    ∧ (∀ k, k < 16 → ∀ q ∈ claimQueue k s.units, (s.units.slot q).state = .waiting ∧ (s.units.slot q).part = k)
    ∧ (∀ g ∈ allPorts, ∀ h ∈ allPorts, (s.units.slot g).holds 0 = true → (s.units.slot h).holds 0 = true → g = h)
    ∧ (∀ p ∈ allPorts, (s.units.slot p).state = .waiting → p ∈ claimQueue (s.units.slot p).part s.units)
    ∧ (∀ t, exec .lockEvent s = .next t → (t.units.slot .a).reason = some .locked ∧ t.units.iu.spaceWait = []
        ∧ (t.units.slot .b).state = .none ∧ claimQueue 0 t.units = [])
    ∧ ∀ t, exec .revocationEvent s = .next t → (t.units.slot .a).reason = some .revoked ∧ (t.units.slot .b).state = .none := by
  refine ⟨by decide, by decide, by decide, by decide, by decide, by decide, by decide, ?_, ?_⟩ <;>
    (intro t h; cases h; decide +kernel)

/-! ## Events found ahead of their row, releases that shut waiters out, records passed over in the sweep -/

/-- Port A OPEN on partition 0 and port B waiting for it, with events that wait for their row. -/
def beforeEvents (ls : List LockEvent) (rs : List Revocation) : State := part fun u =>
  let v := waiterB (openA [member3] (writing (.abortClean .d) .allocating u))
  { v with tm := { v.tm with lockEvents := ls, revocations := rs } }

/-- Only ports of the first wait queue wait. -/
theorem queued_of {u : Units} (h : ∀ k, k < u.tm.queues.length → ∀ q ∈ claimQueue k u,
    (u.slot q).state = .waiting ∧ (u.slot q).part = k) : u.queued := by
  intro k q hq
  by_cases hk : k < u.tm.queues.length
  · exact h k hk q hq
  · simp [claimQueue, List.getElem?_eq_none (Nat.le_of_not_lt hk)] at hq

/-- The port's own FREEZE and a waiter: the COMMIT finds the transaction LOCKED, the waiter is answered LOCKED, and the event is
gone. -/
theorem test_own_freeze_whole : let s := beforeEvents [⟨0, some .a⟩, ⟨1, some .c⟩] [⟨[(0, .a)], []⟩]
    Passing .commit .a 0 s ∧ s.units.queued ∧ (s.units.slot .a).state = .opened ∧ s.units.frozenByOwn .a
    ∧ (∀ g ∈ [Port.a, .b, .c, .d], (s.units.slot g).holds 0 = true → g = .a)
    ∧ ∀ t, exec (.commit .a) s = .next t →
        (t.units.slot .a).reason = some .locked ∧ (t.units.slot .a).pending = some .commit
        ∧ (t.units.slot .b).state = .none ∧ (t.units.port .b).outcome = some (Posting.code .locked)
        ∧ claimQueue 0 t.units = [] ∧ t.units.tm.lockEvents = [⟨1, some .c⟩] := by
  refine ⟨passing_of (by decide), queued_of (by decide), rfl, by unfold Units.frozenByOwn; decide, by decide, ?_⟩
  intro t h; cases h; decide +kernel

/-- The oldest revocation that concerns the port, behind one that does not: the waiter it names is answered DENIED, and that
event alone is gone. -/
theorem test_revocation_whole : let s := beforeEvents [⟨0, some .c⟩] [⟨[(1, .a)], []⟩, ⟨[(0, .a), (0, .b)], []⟩, ⟨[], [3]⟩]
    Passing .abort .a 0 s ∧ s.units.queued ∧ ¬ s.units.frozenByOwn .a
    ∧ s.units.tm.revocations = [⟨[(1, .a)], []⟩] ++ ⟨[(0, .a), (0, .b)], []⟩ :: [⟨[], [3]⟩]
    ∧ s.units.hitBy .a ⟨[(1, .a)], []⟩ = false ∧ s.units.hitBy .a ⟨[(0, .a), (0, .b)], []⟩ = true
    ∧ ∀ t, exec (.abort .a) s = .next t →
        (t.units.slot .a).reason = some .revoked ∧ (t.units.slot .a).pending = some .abort
        ∧ (t.units.port .b).outcome = some (Posting.code .denied) ∧ claimQueue 0 t.units = []
        ∧ t.units.tm.revocations = [⟨[(1, .a)], []⟩, ⟨[], [3]⟩] ∧ t.units.tm.lockEvents = [⟨0, some .c⟩] := by
  refine ⟨passing_of (by decide), queued_of (by decide), by unfold Units.frozenByOwn; decide, rfl, rfl, rfl, ?_⟩
  intro t h; cases h; decide +kernel

/-- A RELEASE of the members of port A, with ports B and C waiting and an event to come. -/
def releases (ls : List LockEvent) (rs : List Revocation) : State :=
  aborted none none (some .ok) fun u =>
    let v := waiterB u
    let v := setClaimQueue 0 [.b, .c] ((v.modPort .c fun x => { x with
      state := .busy, inHand := some ⟨.begin, x.params, x.buffer, .elsewhere⟩ }).modSlot .c
        fun s => { s with state := .waiting, part := 0 })
    { v with tm := { v.tm with lockEvents := ls, revocations := rs } }

/-- No waiter of a frozen partition is granted its claim, nor one that a revocation names; the next one is. -/
theorem test_release_shut_out :
    (∀ t, exec .release (releases [⟨0, some .a⟩] []) = .next t →
      (t.units.slot .b).state = .none ∧ (t.units.port .b).outcome = some (Posting.code .locked)
      ∧ (t.units.slot .c).state = .none ∧ claimQueue 0 t.units = [])
    ∧ (∀ t, exec .release (releases [] [⟨[(0, .b)], []⟩]) = .next t →
      (t.units.slot .b).state = .none ∧ (t.units.port .b).outcome = some (Posting.code .denied)
      ∧ (t.units.slot .c).state = .opened ∧ claimQueue 0 t.units = [])
    ∧ ∀ t, exec .release (releases [⟨1, some .a⟩] [⟨[(1, .b)], [2]⟩]) = .next t →
      (t.units.slot .b).state = .opened ∧ claimQueue 0 t.units = [.c] := by
  refine ⟨?_, ?_, ?_⟩ <;> (intro t h; cases h; decide +kernel)

/-- The RELEASE of the members of a transaction without a reason or an answer, at a port that drains. -/
theorem test_release_draining : let s := aborted none none none fun u => u.modPort .a fun x => { x with state := .busy, inHand := none, draining := true };
    s.oldestClaim (.txn .a) (.release (.members .a)) ∧ s.writerSteady ∧ (s.units.slot .a).reason = none
    ∧ (s.units.slot .a).reply = none
    ∧ ∀ t, exec .release s = .next t → (t.units.port .a).state = .ready ∧ (t.units.port .a).draining = false := by
  refine ⟨by unfold State.oldestClaim; decide, .inr rfl, rfl, rfl, ?_⟩
  intro t h; cases h; decide +kernel

/-- The UNPIN of a port whose result was posted before the row. -/
theorem test_unpin_no_command : let s := claims (.port .a) (.unpin 4) fun u => u.setIu (u.iu.takePin 4);
    s.oldestClaim (.port .a) (.unpin 4) ∧ (s.units.port .a).inHand = none ∧ s.writerSteady
    ∧ (s.units.iu.seg 4).pins = 1 ∧ ∀ t, exec .unpin s = .next t → (t.units.iu.seg 4).pins = 0 := by
  refine ⟨by unfold State.oldestClaim; decide, rfl, .inr rfl, by decide, ?_⟩
  intro t h; cases h; decide

/-- The engine whose READ of a record of the victim is accepted, with what names that record. -/
def heldTwice (st : CStep) (todo : Option (List Named)) (es : List Entry) (ms : List Member) : Units :=
  indexed es (slotA (fun x => { x with state := .committing, number := 7, members := ms }) (readingAt st todo))

/-- A record read whole with its payload altered: in the scan the member list that names it gives a notice and the entry a LOSS,
whichever of the two the decision went by. -/
theorem test_lost_by_all :
    let m : Member := { member3 with loc := ⟨4, 10⟩ }
    let q : Request := ⟨.engine, 4, .read 10 2⟩;
    let bytes := (header3.bytes 0x1F) ++ [9, 2, 3, 4, 5];
    let read (basis : Basis) (least : RecordState) (es : List Entry) (ms : List Member) : Units :=
      let u := heldTwice (.bodyRead basis least) none es ms
      readDelivered q bytes (u.setCe { u.ce with io := ⟨some q, true⟩ })
    let notices (u : Units) : List (Option Nat) := u.nu.posts.map (·.notice.key)
    (read .memberWritten .written [entry3] [m]).ce.step = .lossClaim
    ∧ notices (read .memberWritten .written [entry3] [m]) = [some 3]
    ∧ (read .entry .live [entry3] [m]).ce.step = .lossClaim ∧ notices (read .entry .live [entry3] [m]) = [some 3]
    ∧ (read .entry .live [entry3] []).ce.step = .lossClaim ∧ notices (read .entry .live [entry3] []) = []
    ∧ (read .memberWritten .written [] [m]).ce.step = .scanRead
    ∧ notices (read .memberWritten .written [] [m]) = [some 3] := by decide +kernel

/-- A LIVE DATA member whose entry is gone, in the sweep: it is not copied, its payload is read, and an unsound one makes the sweep
wait; with a sound one the sweep is repeated. -/
theorem test_sweep_checks :
    let m : Member := { member3 with loc := ⟨4, 10⟩ }
    let n : Named := .member 7 0 3 ⟨4, 10⟩
    let q : Request := ⟨.engine, 4, .read 10 2⟩;
    let u := heldTwice .sweepCheck (some [n]) [] [m]
    let read (bytes : List Byte) : Units := readDelivered q bytes (u.setCe { u.ce with io := ⟨some q, true⟩ })
    let sound := (header3.bytes 0x1F) ++ [1, 2, 3, 4, 5]
    (recordSkipped header3 (heldTwice .sweepRead (some [n]) [] [m])).ce.step = .sweepCheck ∧ 1 < header3.cells
    ∧ (u.ce.step = .sweepCheck ∧ u.ce.todo = some (n :: []))
    ∧ (read sound).ce.step = .sweepClaim ∧ (read sound).nu.posts = []
    ∧ (read ((header3.bytes 0x1F) ++ [9, 2, 3, 4, 5])).ce.step = .sweepWaiting
    ∧ (read ((header3.bytes 0x1F) ++ [9, 2, 3, 4, 5])).nu.posts.length = 1
    ∧ (newHeader .tombstone 0 3 0 7 8 []).cells ≤ 1
    ∧ (recordSkipped (newHeader .tombstone 0 3 0 7 8 []) (heldTwice .sweepRead (some [n]) [] [m])).ce.step = .sweepClaim := by
  decide +kernel

/-- The READ of a dropped command completes at a port with nothing else left: the port goes READY. -/
theorem test_dropped_read : let q : Request := ⟨.port .a, 4, .read 10 2⟩
    let u := mounted.modPort .a fun x => { x with state := .busy, draining := true, stale := some q, io := ⟨some q, true⟩ }
    let v := u.modPort .a fun x => { x with stale := none }
    (u.port .a).stale = some q ∧ ((readDelivered q [] u).port .a).state = .ready
    ∧ ((v.port .a).draining = true ∧ (v.port .a).frame = none ∧ (v.port .a).stale = none ∧ hasRecordJob .a v = false
      ∧ (v.slot .a).state = .none ∧ v.pu.session.committingBy .a = false) := by decide +kernel

/-- A revocation of a partition and of one right of another: it aborts ports A and B, of which A has a CHARGE out, so that the
Writer's queue takes the ABORT_CLEAN of B alone. -/
theorem test_revocation_mixed : let s := claims (.txn .a) (.charge 0 3 .stageWrite 2) fun u =>
      let v := (openA [] u).modSlot .b fun x => { x with state := .opened, part := 1, number := 8 }
      let v := writing (.removal .d 0 3 7 ⟨4, 10⟩) .allocating v
      { v with tm := { v.tm with revocations := [⟨[(1, .b)], [0]⟩] } }
    s.running = true ∧ s.units.queued ∧ s.units.charging .a = true ∧ s.units.charging .b = false
    ∧ ∀ t, exec .revocationEvent s = .next t → (t.units.slot .a).reason = some .revoked
        ∧ (t.units.slot .b).reason = some .revoked ∧ t.units.rw.queue = [.abortClean .b] ∧ t.units.nu.posts.length = 2 := by
  refine ⟨by decide, queued_of (by decide), by decide, by decide, ?_⟩
  intro t h; cases h; decide +kernel

/-- Changes of several keys and ports: staged members of keys 3 (replaced) and 4, a single WRITE of key 3 that adds nothing, and
two of key 5. -/
theorem test_charge_sum :
    let iu := (indexed [entry3, { entry3 with key := 5 }, { entry3 with part := 1 }] mounted).iu
    iu.chargeWith [⟨.a, true, 0, 3, .write, 7⟩, ⟨.a, true, 0, 4, .write, 3⟩, ⟨.a, true, 0, 3, .write, 4⟩,
      ⟨.b, false, 0, 3, .write, 9⟩, ⟨.c, false, 0, 5, .write, 6⟩, ⟨.d, false, 0, 5, .write, 1⟩] 0 = 2 + (4 + 3) + 4 := by decide +kernel

/-! ## Tables in order, the UNPIN of a single change, ports that drain, the low-water run -/

/-- A part whose tables are in order, with a holder, a waiter, entries, watches and a notice, and its step. -/
def inOrder : State := part fun u =>
  let v := indexed [entry3, { entry3 with key := 4 }] (waiterB (openA [member3] u))
  { v with nu := { v.nu with ports := v.nu.ports.set .a ⟨[⟨0, none⟩, ⟨0, some 3⟩], [Notice.plain .spaceLow], true, 255⟩ } }

theorem test_tables_in_order : inOrder.units.Ordered ∧ step inOrder = .next inOrder.tick := by
  have few {P : List Port → Prop} (h0 : P []) (h : ∀ k, k < 16 → P (claimQueue k inOrder.units)) : ∀ k, P (claimQueue k inOrder.units) := by
    intro k
    by_cases hk : k < 16
    · exact h k hk
    · rw [show claimQueue k inOrder.units = [] from by
        simp [claimQueue, List.getElem?_eq_none (show inOrder.units.tm.queues.length ≤ k from Nat.le_of_not_lt hk)]]
      exact h0
  have held : ∀ p, p ≠ .a → ∀ part, (inOrder.units.slot p).holds part = false := by
    intro p hp part; cases p <;> first | exact absurd rfl hp | exact Bool.and_false _
  refine ⟨⟨by decide, ⟨?_, queued_of (by decide), ?_, few (P := List.Nodup) List.nodup_nil (by decide), ?_,
    few (P := fun q => q.length ≤ 3) (Nat.zero_le _) (by decide)⟩, ?_, by decide, by decide, by decide⟩, rfl⟩
  · intro p q part hp hq
    by_cases h : p = .a
    · by_cases h' : q = .a
      · rw [h, h']
      · rw [held q h'] at hq; cases hq
    · rw [held p h] at hp; cases hp
  · intro p; cases p <;> decide
  · intro k hk
    by_cases h : k = 0
    · exact ⟨.a, by rw [h]; decide⟩
    · refine absurd ?_ hk
      by_cases hk : k < 16
      · have := (by decide : ∀ k, k < 16 → k ≠ 0 → claimQueue k inOrder.units = [])
        exact this k hk h
      · simp [claimQueue, List.getElem?_eq_none (show inOrder.units.tm.queues.length ≤ k from Nat.le_of_not_lt hk)]
  · intro p; cases p <;> exact ⟨by decide, by decide, by decide, by decide⟩

/-- A single change whose UNPIN is at hand, its port in some condition. -/
def unpinning (kind : RecordKind) (ok : Bool) (f : Units → Units) : State := claims .writer (.unpin 4) fun u =>
  let v := f (u.setIu (u.iu.takePin 4))
  v.setRw { v.rw with cur := some ⟨.record (record .single kind), .unpinning (.single ok), [⟨2, 5⟩]⟩ }

/-- Port A reset while its single change was the Writer's job. -/
def drainsA (u : Units) : Units := u.modPort .a fun x => { x with state := .busy, inHand := none, draining := true }

/-- The UNPIN behind an overwriting WRITE answers it, or ends the drain of its port; behind a DELETE the tombstone is retired, or,
the displaced record's retire short, reported abandoned. -/
theorem test_unpin_single :
    let write := unpinning .data true (holding .write .elsewhere)
    write.oldestClaim .writer (.unpin 4)
    ∧ (∀ t, exec .unpin write = .next t → t.units.rw.cur = none ∧ (t.units.iu.seg 4).pins = 0
        ∧ ((t.units.port .a).outcome.map fun o => o.fields.gen) = some 9)
    ∧ (∀ t, exec .unpin (unpinning .data true drainsA) = .next t → (t.units.port .a).state = .ready)
    ∧ (∀ t, exec .unpin (unpinning .tombstone true id) = .next t →
        t.units.rw.io.want = some ⟨.writer, 2, .program 5 (0xEF :: List.replicate 15 0xFF)⟩)
    ∧ ∀ t, exec .unpin (unpinning .tombstone false id) = .next t →
        headClaim t.units = some (.writer, .report (.dead ⟨2, 5⟩ 1)) := by
  refine ⟨by unfold State.oldestClaim; decide, ?_, ?_, ?_, ?_⟩ <;> (intro t h; cases h; decide +kernel)

/-- The SWITCH, the REPORT and the RELEASE of a change whose port drains end the drain. -/
theorem test_ends_draining :
    let switches := claims .writer (.switch ⟨0, 3, ⟨2, 5⟩, 5, 9, 2, .data, .a⟩) fun u =>
      drainsA (writing (.record (record .single .data)) (.switching ⟨2, 5⟩ false) u)
    let report := claims .writer (.report (.dead ⟨2, 5⟩ 1)) fun u =>
      drainsA (writing (.record (record .single .tombstone)) (.reporting .tombstone ⟨2, 5⟩) u)
    let release := claims .writer (.release (.single .a)) fun u =>
      drainsA (writing (.record (record .single .data)) (.releasing .media) u)
    (∀ t, exec .switch switches = .next t → (t.units.port .a).state = .ready ∧ t.units.iu.find 0 3 ≠ none)
    ∧ (∀ t, exec .report report = .next t → (t.units.port .a).state = .ready)
    ∧ ∀ t, exec .release release = .next t → (t.units.port .a).state = .ready ∧ t.units.rw.cur = none := by
  refine ⟨?_, ?_, ?_⟩ <;> (intro t h; cases h; decide +kernel)

/-- A COMPLETE at a draining port whose slot is still COMMITTING: the slot empties and the drain ends. -/
theorem test_complete_draining :
    let s := claims .writer (.report (.dead ⟨2, 7⟩ 1)) fun u =>
      drainsA (slotA (fun x => { x with state := .committing }) (openA []
        (writing (.complete .a 0 7 []) (.reporting .leftTomb ⟨2, 9⟩) u)))
    s.oldestClaim .writer (.report (.dead ⟨2, 7⟩ 1)) ∧ (s.units.slot .a).state = .committing
    ∧ ∀ t, exec .report s = .next t → (t.units.slot .a).state = .none ∧ (t.units.port .a).state = .ready := by
  refine ⟨by unfold State.oldestClaim; decide, rfl, ?_⟩
  intro t h; cases h; decide +kernel

/-- NO_VICTIM with one job of a draining port: a single change's drain ends, a COMMIT's transaction is aborted. -/
theorem test_no_victim_draining :
    let s (role : JobRole) (kind : RecordKind) (f : Slot → Slot) := claims .engine .noVictim fun u =>
      let v := drainsA (slotA f (engineIn .sweepWaiting u))
      v.setIu { v.iu with spaceWait := [⟨.a, record role kind, 2⟩], charges := [⟨.a, false, 0, 3, .write, 2⟩] }
    let commit := s .commit .commit fun x => { x with state := .committing, number := 7 }
    (s .single .data id).oldestClaim .engine .noVictim ∧ (s .single .data id).writerSteady
    ∧ (∀ t, exec .noVictim (s .single .data id) = .next t → (t.units.port .a).state = .ready ∧ t.units.iu.charges = [])
    ∧ (commit.units.slot .a).state = .committing
    ∧ ∀ t, exec .noVictim commit = .next t → (t.units.slot .a).state = .aborting ∧ (t.units.port .a).draining = true := by
  refine ⟨by unfold State.oldestClaim; decide, .inr rfl, ?_, rfl, ?_⟩ <;> (intro t h; cases h; decide +kernel)

/-- A move of a member whose location has changed meanwhile is held as well while its slot holds its moves. -/
theorem test_move_held : let s := moving .tombstone member3 fun x => { x with holdMoves := true }
    member3.loc ≠ copy3.orig ∧ (s.units.slot .a).number = copy3.hdr.txn ∧ exec .memberMove s = .next s := ⟨by decide, rfl, rfl⟩

/-- The low-water run: OFF when SELECT finds no victim; ON again where an allocation falls to the mark before NO_VICTIM is taken,
which leaves it so. -/
theorem test_low_run_stays :
    let s (run : Bool) := part fun u => (u.setCe { u.ce with lowRun := run }).setIu { u.iu with
      segs := u.iu.segs.modify 2 fun e => { e with dead := 0 } }
    (∀ t, exec .passStart (s true) = .next t → t.units.ce.lowRun = false ∧ t.units.ce.step = .selectNone)
    ∧ (∀ t, exec .noVictim (inPass .noVictim .selectNone [] []) = .next t → t.units.ce.lowRun = false)
    ∧ ∀ t, exec .noVictim (claims .engine .noVictim fun u => (engineIn .selectNone u).setCe
        { (engineIn .selectNone u).ce with lowRun := true }) = .next t → t.units.ce.lowRun = true := by
  refine ⟨?_, ?_, ?_⟩ <;> (intro t h; cases h; decide +kernel)

/-- A victim withdrawn with the mark already 2 below what is erased: its run ends. -/
theorem test_bad_victim_run : let s := claims .engine (.close 4 .bad) fun u =>
      let v := engineIn .badVictimClaim u
      (v.setCe { v.ce with lowRun := true }).setPu { v.pu with shadow := { v.pu.shadow with lowWater := 2 } }
    s.oldestClaim .engine (.close 4 .bad) ∧ s.units.ce.victim = some 4 ∧ s.units.iu.segs.countP (·.avail) = 4
    ∧ ∀ t, exec .close s = .next t → t.units.ce.lowRun = false ∧ t.units.ce.state = .idle := by
  refine ⟨by unfold State.oldestClaim; decide, rfl, by decide, ?_⟩
  intro t h; cases h; decide +kernel

/-- States that no run reaches, in which a COMMIT's job or a RELEASE of members finds no transaction to end: the job is gone, the
members are released, and no answer is given. -/
theorem test_nothing_to_end :
    let cancelled := waits .commit (record .commit .commit) (fun x => { x with state := .aborting }) []
    let exhausted : Units := (openA [] mounted).setRw { mounted.rw with
      gen := 4294967294, queue := [.record { record .commit .commit with gen := none }] }
    let media := working (.record { record .commit .commit with relocs := 2 }) (.closingFailed 2 3) [] (openA [])
    let released := claims (.txn .a) (.release (.members .a)) fun u => openA [member3] u;
    Quiet .a cancelled ∧ waitingJob .a cancelled.units = some (record .commit .commit)
    ∧ (∀ t, exec (.cancel .a) cancelled = .next t → t.units.iu.spaceWait = [] ∧ (t.units.port .a).outcome = none)
    ∧ (exhausted.slot .a).state ≠ .committing ∧ (kick exhausted).rw.cur = none ∧ (kick exhausted).rw.queue = []
    ∧ (media.slot .a).state ≠ .committing ∧ (programDelivered ⟨.writer, 2, .program 5 cell16⟩ true media).rw.cur = none
    ∧ (released.units.slot .a).state ≠ .aborting
    ∧ ∀ t, exec .release released = .next t → (t.units.slot .a).state = .opened := by
  refine ⟨quiet_of (by decide), rfl, ?_, by decide, by decide +kernel, by decide +kernel, by decide, by decide +kernel, by decide, ?_⟩ <;>
    (intro t h; cases h; decide +kernel)

end Sys2Proof.Tests
end

section
/-! SUPPORT. What every row leaves in the array (R2, R17, R22, R23, R35): a completed PROGRAM or ERASE, one cut off by the
supply or by RESET_N, and no other row, changes it; and the law of R2 that the two changes keep. -/

namespace Sys2Proof.Machine

/-! ## Rows that reach the units alone (section 2.1) -/

theorem array_onUnits {f : Units → Units} {s t : State} (h : onUnits f s = .next t) : t.array = s.array := by
  cases h
  split <;> rfl

theorem array_onLink {p : Port} {e : LinkEvent} {s t : State} (h : onLink p e s = .next t) : t.array = s.array := by
  cases h
  split
  · rfl
  · split <;> rfl

/-- The Writer taking its next job is part of what the units do (R58). -/
theorem onUnitsKick_eq_onUnits (f : Units → Units) (s : State) : ∃ g, onUnitsKick f s = onUnits g s := ⟨_, rfl⟩

/-- A row that reaches the units alone acts on them, or is an event on the link of a port. -/
theorem exec_of_unitsOnly {i : Instr} (hi : i.unitsOnly = true) (s : State) :
    (∃ f, exec i s = onUnits f s) ∨ ∃ p e, exec i s = onLink p e s := by
  cases i with
  | powerOn | powerLoss | resetNAssert | resetNRelease => cases hi
  | arrayRequest | arrayReadDone | arrayProgramDone | arrayEraseDone | arrayBlankCheckDone => cases hi
  | windowWrite | attentionEnables | ack | cancel | portReset | unknownCommand
  | read | stat | list | write | delete | begin | stageWrite | stageDelete | commit | abort | renew | bind
  | watch | unwatch | noticePop | freeze | policyRead | policyLoad | policyCommit | policyDiscard | reclaim | info =>
    exact .inr ⟨_, _, rfl⟩
  | unpin | charge | release | switch | commitSwitch | report | allocate | prepared | noVictim
  | memberReport | leaseExpiry | lockEvent | revocationEvent => exact .inl (onUnitsKick_eq_onUnits _ s)
  | _ => exact .inl ⟨_, rfl⟩

theorem array_of_unitsOnly {i : Instr} {s t : State} (h : exec i s = .next t) (hi : i.unitsOnly = true) :
    t.array = s.array := by
  obtain ⟨f, hf⟩ | ⟨p, e, he⟩ := exec_of_unitsOnly hi s
  · exact array_onUnits (hf ▸ h)
  · exact array_onLink (he ▸ h)

/-- A request presented alone changes no byte, accepted or not (R19, R20). -/
theorem array_of_presentedAlone {r : Request} {s t : State} (h : exec (.arrayRequest ⟨r, none⟩) s = .next t) :
    t.array = s.array := by
  cases h
  dsimp only
  unfold presentRequest
  split
  · split <;> rfl
  · rfl

/-! ## Completions (R21 to R25) -/

@[simp] theorem array_readDone (r : Request) (first count : Nat) (j : Option Request) (s : State) :
    (readDone r first count j s).array = s.array := (arrayFree_frame _ _ _).1

@[simp] theorem array_programDone (r : Request) (cell : Nat) (bytes stuck : List Byte) (j : Option Request) (s : State) :
    (programDone r cell bytes stuck j s).array = programCell s.array r.seg cell bytes stuck := (arrayFree_frame _ _ _).1

@[simp] theorem array_eraseDone (r : Request) (e : EraseEnd) (j : Option Request) (s : State) :
    (eraseDone r e j s).array = eraseSegment s.array r.seg e.kept := (arrayFree_frame _ _ _).1

@[simp] theorem array_blankDone (r : Request) (j : Option Request) (s : State) :
    (blankDone r j s).array = s.array := (arrayFree_frame _ _ _).1

theorem running_of_operation {s : State} {r : Request} (h : s.operation = some r) :
    ∃ q, s.ac.running = some q ∧ q.req = r := by
  unfold State.operation at h
  split at h
  · simpa using h
  · cases h

/-- An ending that changes the array is that of a PROGRAM or an ERASE in progress. -/
theorem array_endOperation (c : Ending) (j : Option Request) (s : State) :
    (endOperation c j s).array = s.array
    ∨ (∃ stuck q cell bytes, c = .program stuck ∧ s.ac.running = some q ∧ q.req.op = .program cell bytes)
    ∨ ∃ e q, c = .erase e ∧ s.ac.running = some q ∧ q.req.op = .erase := by
  unfold endOperation
  split
  case h_1 => exact .inl (array_readDone ..)
  case h_2 stuck who seg cell bytes hop =>
    obtain ⟨q, hq, hreq⟩ := running_of_operation hop
    exact .inr (.inl ⟨stuck, q, cell, bytes, rfl, hq, by rw [hreq]⟩)
  case h_3 e who seg hop =>
    obtain ⟨q, hq, hreq⟩ := running_of_operation hop
    exact .inr (.inr ⟨e, q, rfl, hq, by rw [hreq]⟩)
  case h_4 => exact .inl (array_blankDone ..)
  case h_5 => exact .inl rfl

section Completions
variable {s t : State} {q : Queued} {j : Option Request}

theorem next_of_exec_joined {c : Ending} (h : exec (c.joined j) s = .next t) : t = endOperation c j s := by
  rw [exec_joined] at h
  cases h
  rfl

theorem array_of_programCompleted {cell : Nat} {bytes stuck : List Byte} (hr : s.running = true)
    (hq : s.ac.running = some q) (hop : q.req.op = .program cell bytes)
    (h : exec ((Ending.program stuck).joined j) s = .next t) :
    t.array = programCell s.array q.req.seg cell bytes stuck := by
  obtain ⟨o, who, seg, op⟩ := q
  subst hop
  rw [next_of_exec_joined h, endOperation_program hr hq, array_programDone]

theorem array_of_eraseCompleted {e : EraseEnd} (hr : s.running = true) (hq : s.ac.running = some q)
    (hop : q.req.op = .erase) (h : exec ((Ending.erase e).joined j) s = .next t) :
    t.array = eraseSegment s.array q.req.seg e.kept := by
  obtain ⟨o, who, seg, op⟩ := q
  subst hop
  rw [next_of_exec_joined h, endOperation_erase hr hq, array_eraseDone]

theorem array_of_readCompleted (h : exec (Ending.read.joined j) s = .next t) : t.array = s.array := by
  obtain same | ⟨_, _, _, _, hc, _⟩ | ⟨_, _, hc, _⟩ := array_endOperation .read j s
  · rw [next_of_exec_joined h, same]
  · cases hc
  · cases hc

theorem array_of_blankCheckCompleted (h : exec (Ending.blankCheck.joined j) s = .next t) : t.array = s.array := by
  obtain same | ⟨_, _, _, _, hc, _⟩ | ⟨_, _, hc, _⟩ := array_endOperation .blankCheck j s
  · rw [next_of_exec_joined h, same]
  · cases hc
  · cases hc

/-- The completion of a PROGRAM where none is in progress changes nothing. -/
theorem array_of_noProgramRunning {stuck : List Byte}
    (hno : ∀ q cell bytes, s.ac.running = some q → q.req.op ≠ .program cell bytes)
    (h : exec ((Ending.program stuck).joined j) s = .next t) : t.array = s.array := by
  obtain same | ⟨_, q, cell, bytes, _, hq, hop⟩ | ⟨_, _, hc, _⟩ := array_endOperation (.program stuck) j s
  · rw [next_of_exec_joined h, same]
  · exact absurd hop (hno q cell bytes hq)
  · cases hc

/-- The completion of an ERASE where none is in progress changes nothing. -/
theorem array_of_noEraseRunning {e : EraseEnd} (hno : ∀ q, s.ac.running = some q → q.req.op ≠ .erase)
    (h : exec ((Ending.erase e).joined j) s = .next t) : t.array = s.array := by
  obtain same | ⟨_, _, _, _, hc, _⟩ | ⟨_, q, _, hq, hop⟩ := array_endOperation (.erase e) j s
  · rw [next_of_exec_joined h, same]
  · cases hc
  · exact absurd hop (hno q hq)

end Completions

/-! ## Operations cut off (R17, R35) -/

/-- The rows of the supply and of RESET_N abandon the operation in progress, and change no other byte. -/
theorem array_of_cutOff {s t : State} {torn : Torn}
    (h : exec (.powerLoss torn) s = .next t ∨ exec (.powerOn torn) s = .next t ∨ exec (.resetNAssert torn) s = .next t) :
    t.array = abandon s.array torn s.ac.cutOff := by
  obtain h | h | h := h <;> (cases h; rfl)

theorem array_of_resetNRelease {s t : State} (h : exec .resetNRelease s = .next t) : t.array = s.array := by
  cases h
  split <;> rfl

theorem abandon_program (m : Memory) (torn : Torn) {r : Request} {cell : Nat} {bytes : List Byte}
    (hop : r.op = .program cell bytes) : abandon m torn (some r) = programCell m r.seg cell bytes torn.program := by
  obtain ⟨who, seg, op⟩ := r
  subst hop
  rfl

theorem abandon_erase (m : Memory) (torn : Torn) {r : Request} (hop : r.op = .erase) :
    abandon m torn (some r) = eraseSegment m r.seg torn.erase := by
  obtain ⟨who, seg, op⟩ := r
  subst hop
  rfl

/-- Nothing in progress, a READ or a BLANK_CHECK: abandoning it leaves the array. -/
theorem abandon_of_not_changes (m : Memory) (torn : Torn) {o : Option Request}
    (h : o.all (fun r => !r.op.changes) = true) : abandon m torn o = m := by
  match o, h with
  | none, _ => rfl
  | some ⟨_, _, .read _ _⟩, _ => rfl
  | some ⟨_, _, .blankCheck⟩, _ => rfl

/-! ## The law of R2 at one byte -/

/-- A PROGRAM whose every target bit the medium clears stores the AND. -/
theorem read_programCell_completed (m : Memory) (seg cell : Nat) {bytes : List Byte} (hb : bytes.length = 16) (a : Nat) :
    (programCell m seg cell bytes []).read a =
      if cellBase seg cell ≤ a ∧ a < cellBase seg cell + 16 then m.read a &&& bytes.getD (a - cellBase seg cell) 0
      else m.read a := by
  rw [read_programCell m seg cell bytes [] hb, List.getD_nil, programByte_zero]

/-- Whatever the medium leaves undone, a PROGRAM sets no bit, stays in its cell, and clears no bit outside its target. -/
theorem programCell_law (m : Memory) (seg cell : Nat) {bytes : List Byte} (stuck : List Byte) (hb : bytes.length = 16)
    (a : Nat) :
    ((programCell m seg cell bytes stuck).read a ||| m.read a = m.read a)
    ∧ (a < cellBase seg cell ∨ cellBase seg cell + 16 ≤ a → (programCell m seg cell bytes stuck).read a = m.read a)
    ∧ (cellBase seg cell ≤ a → a < cellBase seg cell + 16 →
        (m.read a &&& bytes.getD (a - cellBase seg cell) 0) ||| (programCell m seg cell bytes stuck).read a
          = (programCell m seg cell bytes stuck).read a) := by
  rw [read_programCell m seg cell bytes stuck hb]
  by_cases inside : cellBase seg cell ≤ a ∧ a < cellBase seg cell + 16
  · rw [if_pos inside]
    exact ⟨programByte_or_held _ _ _, fun outside => by omega, fun _ _ => and_or_programByte _ _ _⟩
  · rw [if_neg inside]
    exact ⟨BitVec.or_self, fun _ => rfl, fun lo hi => absurd ⟨lo, hi⟩ inside⟩

/-- An ERASE that keeps no bit leaves its segment at ones. -/
theorem read_eraseSegment_completed (m : Memory) (seg a : Nat) :
    (eraseSegment m seg []).read a = if segBase seg ≤ a ∧ a < segBase seg + 2048 then 0xFF else m.read a := by
  have ones (b : Byte) : b ||| ~~~ 0 = 0xFF := BitVec.or_allOnes
  rw [read_eraseSegment, List.lookup_nil, Option.getD_none, ones]

/-- Whatever bits it keeps, an ERASE clears none and stays in its segment. -/
theorem eraseSegment_law (m : Memory) (seg : Nat) (kept : List (Nat × Byte)) (a : Nat) :
    (m.read a ||| (eraseSegment m seg kept).read a = (eraseSegment m seg kept).read a)
    ∧ (a < segBase seg ∨ segBase seg + 2048 ≤ a → (eraseSegment m seg kept).read a = m.read a) := by
  rw [read_eraseSegment]
  by_cases inside : segBase seg ≤ a ∧ a < segBase seg + 2048
  · rw [if_pos inside]
    exact ⟨by rw [← BitVec.or_assoc, BitVec.or_self], fun outside => by omega⟩
  · rw [if_neg inside]
    exact ⟨BitVec.or_self, fun _ => rfl⟩

/-! ## The statement -/

/-- Settles O8: each row's array is a `programCell`, an `eraseSegment` or the one before it, and both obey R2 byte by byte. -/
theorem lawOfProgramAndErase : Obligations.LawOfProgramAndErase := by
  unfold Obligations.LawOfProgramAndErase
  refine ⟨?programCompleted, ?programBounds, ?eraseCompleted, ?eraseBounds, ?eraseAbandoned, ?programAbandoned,
    ?unitRows, ?otherRows, ?nothingToAbandon, ?noProgram, ?noErase⟩
  case programCompleted =>
    intro s t q cell bytes j hr hq hop hb h
    rw [array_of_programCompleted hr hq hop h]
    exact read_programCell_completed s.array q.req.seg cell hb
  case programBounds =>
    intro s t q cell bytes stuck j hr hq hop hb h
    rw [array_of_programCompleted hr hq hop h]
    exact programCell_law s.array q.req.seg cell stuck hb
  case eraseCompleted =>
    intro s t q j hr hq hop h
    rw [array_of_eraseCompleted hr hq hop h]
    exact read_eraseSegment_completed s.array q.req.seg
  case eraseBounds =>
    intro s t q e j hr hq hop h
    rw [array_of_eraseCompleted hr hq hop h]
    exact eraseSegment_law s.array q.req.seg e.kept
  case eraseAbandoned =>
    intro s t torn r hcut hop h
    rw [array_of_cutOff h, hcut, abandon_erase _ _ hop]
    exact eraseSegment_law s.array r.seg torn.erase
  case programAbandoned =>
    intro s t torn r cell bytes hcut hop hb h
    rw [array_of_cutOff h, hcut, abandon_program _ _ hop]
    exact programCell_law s.array r.seg cell torn.program hb
  case unitRows => exact fun _ _ _ h hi => array_of_unitsOnly h hi
  case otherRows =>
    rintro i s t h (rfl | ⟨j, rfl⟩ | ⟨j, rfl⟩ | ⟨r, rfl⟩)
    · exact array_of_resetNRelease h
    · exact array_of_readCompleted h
    · exact array_of_blankCheckCompleted h
    · exact array_of_presentedAlone h
  case nothingToAbandon =>
    intro s t torn hnone h
    rw [array_of_cutOff h, abandon_of_not_changes _ _ hnone]
  case noProgram => exact fun _ _ _ _ hno h => array_of_noProgramRunning hno h
  case noErase => exact fun _ _ _ _ hno h => array_of_noEraseRunning hno h

end Sys2Proof.Machine
end

section
/-! SUPPORT. The checks at presentation (R19, R20): the controller accepts exactly the requests that no case of R20 meets and
whose interface is free; and what an acceptance adds to the requests known (R26, R27, R30, R33). -/

namespace Sys2Proof.Machine

/-! ## The operations and the requester table (section 2.2) -/

theorem isErase_iff {op : ArrayOp} : op.isErase = true ↔ op = .erase := by
  cases op <;> simp [ArrayOp.isErase]

theorem changes_iff {op : ArrayOp} : op.changes = true ↔ (∃ cell bytes, op = .program cell bytes) ∨ op = .erase := by
  cases op <;> simp [ArrayOp.changes]

/-- The cells named fail R20's range check: a READ's run of cells, or a PROGRAM's cell. -/
theorem not_inRange_iff {op : ArrayOp} : ¬ op.inRange = true ↔
    (∃ first count, op = .read first count ∧ (127 < first ∨ count < 1 ∨ 16 < count ∨ 128 < first + count))
    ∨ ∃ cell bytes, op = .program cell bytes ∧ 127 < cell := by
  cases op with
  | read first count =>
    simp only [ArrayOp.inRange, decide_eq_true_eq, ArrayOp.read.injEq, reduceCtorEq, false_and, exists_false, or_false]
    constructor
    · exact fun h => ⟨first, count, ⟨rfl, rfl⟩, by omega⟩
    · rintro ⟨_, _, ⟨rfl, rfl⟩, h⟩
      omega
  | program cell bytes => simp [ArrayOp.inRange]
  | erase | blankCheck => simp [ArrayOp.inRange]

theorem isDataSeg_iff {seg : Nat} : isDataSeg seg = true ↔ 2 ≤ seg ∧ seg < 64 := decide_eq_true_iff

theorem isPolicySeg_iff {seg : Nat} : isPolicySeg seg = true ↔ seg < 2 := decide_eq_true_iff

/-- The policy segments and the data segments are all 64 (R1). -/
theorem isPolicySeg_or_isDataSeg (seg : Nat) : (isPolicySeg seg || isDataSeg seg) = decide (seg < 64) := by
  rw [Bool.eq_iff_iff, Bool.or_eq_true, isPolicySeg_iff, isDataSeg_iff, decide_eq_true_eq]
  omega

/-- `permitted` is the table of section 2.2, read by requester and operation. -/
theorem permitted_iff (r : Request) : permitted r.who r.op r.seg = true ↔ inRequesterTable r := by
  obtain ⟨who, seg, op⟩ := r
  cases who with
  | port p => cases op <;> simp [permitted, inRequesterTable, isDataSeg_iff]
  | writer => cases op <;> simp [permitted, inRequesterTable, isDataSeg_iff]
  | engine => cases op <;> simp [permitted, inRequesterTable, isDataSeg_iff]
  | policy => cases op <;> simp [permitted, inRequesterTable, isPolicySeg_iff]
  | mount => cases op <;> simp [permitted, inRequesterTable, isDataSeg_iff, isPolicySeg_or_isDataSeg]

namespace ArrayController
variable {c : ArrayController} {r : Request} {urgent : Bool}

/-! ## What is outstanding and what is under erase (R19, R30) -/

theorem outstanding_eq_false_iff {who : Requester} : c.outstanding who = false ↔ c.interfaceFree who := by
  refine ⟨not_known_of_not_outstanding, fun hfree => ?_⟩
  rw [← Bool.not_eq_true]
  simp only [outstanding, Bool.or_eq_true, List.any_eq_true, Option.any_eq_true, beq_iff_eq]
  rintro (((⟨q, hq, hwho⟩ | ⟨q, hq, hwho⟩) | ⟨q, hq, hwho⟩) | ⟨q, hq, hwho⟩) <;>
    exact hfree q (by simp [known, hq]) hwho

/-- A suspended operation is an ERASE, and none is in progress beside it (R30). -/
def SuspendsErase (c : ArrayController) : Prop :=
  ∀ e, c.suspended = some e → e.req.op = .erase ∧ ∀ q, c.running = some q → q.req.op ≠ .erase

theorem Sound.suspendsErase (h : c.Sound) : c.SuspendsErase := fun e he => by
  refine ⟨isErase_iff.1 (h.suspension e he).1, fun q hq hop => ?_⟩
  have := (erasing_of_running h hq (isErase_iff.2 hop)).1
  rw [he] at this
  cases this

/-- The erase in progress is the ERASE that is suspended or that runs. -/
theorem erasing_eq_some_iff (h : c.SuspendsErase) {e : Queued} :
    c.erasing = some e ↔ (c.suspended = some e ∨ c.running = some e) ∧ e.req.op = .erase := by
  constructor
  · intro he
    obtain hs | ⟨_, hr, hop⟩ := erasing_cases he
    · exact ⟨.inl hs, (h e hs).1⟩
    · exact ⟨.inr hr, isErase_iff.1 hop⟩
  · rintro ⟨hs | hr, hop⟩
    · exact erasing_of_suspended hs
    · cases hs : c.suspended with
      | none => simp [erasing, hs, hr, isErase_iff.2 hop, Option.filter]
      | some x => exact absurd hop ((h x hs).2 e hr)

/-! ## The checks (R19, R20) -/

/-- The cases of R20 are the checks of the controller, one by one, but for R19's. -/
theorem refusedAtPresentation_iff (h : c.SuspendsErase) : refusedAtPresentation c r ↔
    64 ≤ r.seg ∨ ¬ r.op.inRange = true ∨ ¬ permitted r.who r.op r.seg = true
      ∨ r.op.changes = true ∧ c.erasing.any (fun e => e.req.seg == r.seg) = true := by
  have underErase : c.erasing.any (fun e => e.req.seg == r.seg) = true
      ↔ ∃ e, (c.suspended = some e ∨ c.running = some e) ∧ e.req.op = .erase ∧ e.req.seg = r.seg := by
    simp only [Option.any_eq_true, beq_iff_eq, erasing_eq_some_iff h, and_assoc]
  rw [not_inRange_iff, permitted_iff, changes_iff, underErase, or_assoc]
  exact Iff.rfl

/-- The controller accepts exactly what no case of R20 meets and whose interface is free. -/
theorem accepts_iff_not_refused (h : c.SuspendsErase) :
    c.accepts r = true ↔ ¬ refusedAtPresentation c r ∧ c.interfaceFree r.who := by
  rw [refusedAtPresentation_iff h, ← outstanding_eq_false_iff]
  simp only [accepts, Bool.and_eq_true, Bool.not_eq_true', ← Bool.not_eq_true, decide_eq_true_eq, not_or, not_not, not_le]
  tauto

theorem accepts_eq_false_of_refused (h : c.SuspendsErase) (hr : refusedAtPresentation c r) : c.accepts r = false := by
  rw [← Bool.not_eq_true, accepts_iff_not_refused h]
  exact fun ha => ha.1 hr

theorem accepts_eq_false_of_outstanding (h : c.SuspendsErase) (hf : ¬ c.interfaceFree r.who) : c.accepts r = false := by
  rw [← Bool.not_eq_true, accepts_iff_not_refused h]
  exact fun ha => hf ha.2

/-! ## What an acceptance does (R26, R27, R30, R33) -/

/-- An accepted request is held, or it joins the queue; then the free array grants a queued one, or one suspends the erase. -/
theorem accept_cases (urgent : Bool) (c : ArrayController) (r : Request) :
    c.accept urgent r = c.hold r ∨ c.accept urgent r = c.join r
    ∨ (∃ q ∈ (c.join r).queue, c.running = none ∧ c.accept urgent r = (c.join r).grant q)
    ∨ ∃ e, ∃ q ∈ (c.join r).queue, c.running = some e ∧ c.suspended = none
        ∧ c.accept urgent r = (c.join r).suspend e q := by
  unfold accept
  split
  next e he =>
    split
    next => exact .inl rfl
    next =>
      split
      next hsuspend =>
        simp only [Bool.and_eq_true, Option.isNone_iff_eq_none] at hsuspend
        obtain hs | ⟨hs, hr, _⟩ := erasing_cases he
        · rw [hs] at hsuspend
          cases hsuspend.1.2
        · dsimp only
          split
          next q hq => exact .inr (.inr (.inr ⟨e, q, List.mem_of_find?_eq_some hq, hr, hs, rfl⟩))
          next => exact .inr (.inl rfl)
      next => exact .inr (.inl rfl)
  next =>
    split
    next hr =>
      unfold grantFree
      split
      next q hq => exact .inr (.inr (.inl ⟨q, mem_of_choose hq, Option.isNone_iff_eq_none.1 hr, rfl⟩))
      next => exact .inr (.inl rfl)
    next => exact .inr (.inl rfl)

/-- A grant from a free array moves a request from the queue into progress (R26). -/
theorem known_grant {q : Queued} (hq : q ∈ c.queue) (hr : c.running = none) : List.Perm (c.grant q).known c.known := by
  have moved : List.Perm (q :: (c.suspended.toList ++ c.held ++ c.queue.erase q))
      (c.suspended.toList ++ c.held ++ c.queue) :=
    List.perm_middle.symm.trans ((List.perm_cons_erase hq).symm.append_left _)
  simpa [known, grant, hr] using moved

/-- A READ that suspends the erase enters progress, and the erase is kept beside it (R30). -/
theorem known_suspend {e q : Queued} (hq : q ∈ c.queue) (hr : c.running = some e) (hs : c.suspended = none) :
    List.Perm (c.suspend e q).known c.known := by
  have moved : List.Perm (q :: (e :: c.held ++ c.queue.erase q)) (e :: c.held ++ c.queue) :=
    List.perm_middle.symm.trans ((List.perm_cons_erase hq).symm.append_left _)
  simpa [known, suspend, grant, hr, hs] using moved

/-- An acceptance adds the request, with the next arrival order, to what is known, and nothing else. -/
theorem known_accept : List.Perm (c.accept urgent r).known (⟨c.arrivals, r⟩ :: c.known) := by
  obtain ha | ha | ⟨q, hq, hr, ha⟩ | ⟨e, q, hq, hr, hs, ha⟩ := accept_cases urgent c r <;> rw [ha]
  · exact known_hold r
  · exact known_join r
  · exact (known_grant hq hr).trans (known_join r)
  · exact (known_suspend hq hr hs).trans (known_join r)

theorem accept_arrivals : (c.accept urgent r).arrivals = c.arrivals + 1 := by
  obtain ha | ha | ⟨_, _, _, ha⟩ | ⟨_, _, _, _, _, ha⟩ := accept_cases urgent c r <;> rw [ha] <;> rfl

/-- An acceptance delivers nothing (R25). -/
theorem accept_delivered : (c.accept urgent r).delivered = c.delivered := by
  obtain ha | ha | ⟨_, _, _, ha⟩ | ⟨_, _, _, _, _, ha⟩ := accept_cases urgent c r <;> rw [ha] <;> rfl

end ArrayController

/-! ## The statement -/

/-- Settles O9: refused or outstanding is `accepts = false`, which completes REJECTED; neither is `accepts = true`, and
the request is then known with its arrival order. -/
theorem requestsAreCheckedAtPresentation : Obligations.RequestsAreCheckedAtPresentation := by
  unfold Obligations.RequestsAreCheckedAtPresentation
  intro r s hrun hsound
  have herase := hsound.suspendsErase
  refine ⟨?refused, ?outstanding, ?accepted⟩
  case refused => exact fun hr => execArrayRequest_rejected hrun (ArrayController.accepts_eq_false_of_refused herase hr)
  case outstanding =>
    exact fun _ hf => execArrayRequest_rejected hrun (ArrayController.accepts_eq_false_of_outstanding herase hf)
  case accepted =>
    intro hr hf
    have haccept := (ArrayController.accepts_iff_not_refused herase).2 ⟨hr, hf⟩
    exact ⟨_, execArrayRequest_accepted hrun haccept, rfl, ArrayController.accept_arrivals,
      ArrayController.accept_delivered, ArrayController.known_accept⟩

end Sys2Proof.Machine
end

section
/-! SUPPORT. UNWATCH (R158): its checks are the ranges of partition and key alone, and it takes the one watch named out of the
port's table, or answers NOT_FOUND. -/

namespace Sys2Proof.Machine

/-! ## The checks (R143, R178) -/

theorem keyOk_eq_false_iff (q : Params) : q.keyOk = false ↔ q.key = 0xFFFF := by
  rw [Params.keyOk, Params.keyNat, decide_eq_false_iff_not]
  bv_omega

/-- The parameters that R158 answers BAD_PARAM. -/
theorem outOfRange_unwatch_iff (q : Params) :
    outOfRange .unwatch q ↔ 15 < q.part.toNat ∨ (q.flags.getLsbD 0 = false ∧ q.key = 0xFFFF) := by
  simp [outOfRange, or_comm]

theorem rangesOk_unwatch_of_outOfRange {q : Params} (h : outOfRange .unwatch q) : Cmd.unwatch.rangesOk q = false := by
  obtain hpart | ⟨hall, hkey⟩ := (outOfRange_unwatch_iff q).1 h
  · simp [Cmd.rangesOk, hpart]
  · have hone : q.allFlag = false := hall
    simp [Cmd.rangesOk, hone, (keyOk_eq_false_iff q).2 hkey]

/-- UNWATCH is refused for its ranges, whatever the view and the rights of the port. -/
theorem checkCommand_unwatch_badParam {q : Params} (h : outOfRange .unwatch q) (p : Port) (u : Units) :
    checkCommand .unwatch p q u = .error .badParam := by
  simp [checkCommand, Cmd.need, rangesOk_unwatch_of_outOfRange h]

/-- UNWATCH needs no view slot, right or lock: in range it passes at every port that takes commands. -/
theorem passing_unwatch {p : Port} {s : State} (h : Taking p s) (hr : ¬ outOfRange .unwatch (s.units.port p).params) :
    Passing .unwatch p 0 s where
  toTaking := h
  admitted := by simp [admitted]
  inRange := hr

/-! ## The watch table (R158) -/

namespace NoticePort
variable {x : NoticePort} {w : Watch}

theorem removeWatch_of_mem (h : w ∈ x.watches) : x.removeWatch w = ({ x with watches := x.watches.erase w }, .ok) := by
  simp [removeWatch, h]

theorem removeWatch_of_not_mem (h : w ∉ x.watches) : x.removeWatch w = (x, .notFound) := by
  simp [removeWatch, h]

end NoticePort

@[simp] theorem Units.setNotices_notices (u : Units) (p : Port) : u.setNotices p (u.notices p) = u := by
  simp [Units.setNotices, Units.notices]

section Table
variable {p : Port} {w : Watch} {u : Units}

theorem takeUnwatch_of_mem (h : w ∈ (u.notices p).watches) :
    takeUnwatch p w u
      = (answer p .ok u).setNotices p { u.notices p with watches := (u.notices p).watches.erase w } := by
  rw [takeUnwatch, NoticePort.removeWatch_of_mem h]
  rfl

theorem takeUnwatch_of_not_mem (h : w ∉ (u.notices p).watches) : takeUnwatch p w u = answer p .notFound u := by
  rw [takeUnwatch, NoticePort.removeWatch_of_not_mem h, Units.setNotices_notices]

end Table

/-! ## The row -/

/-- The watch an UNWATCH names (R157, R158). -/
def Params.namedWatch (q : Params) : Watch := ⟨q.part.toNat, q.watchKey⟩

theorem notices_taking (s : State) (p : Port) (c : Cmd) (r : Port) : (s.taking p c).notices r = s.units.notices r := rfl

section Row
variable {p : Port} {s : State}

theorem taken_unwatch (h : Passing .unwatch p 0 s) :
    taken p .unwatch s = takeUnwatch p (s.units.port p).params.namedWatch (s.taking p .unwatch) :=
  taken_passing h

theorem execUnwatch_of_mem (h : Passing .unwatch p 0 s)
    (hw : (s.units.port p).params.namedWatch ∈ (s.units.notices p).watches) :
    execUnwatch p s = .next (s.withUnits ((s.answered p .unwatch (Posting.code .ok)).setNotices p
      { s.units.notices p with
        watches := (s.units.notices p).watches.erase (s.units.port p).params.namedWatch })) := by
  refine command_passed h.toTaking ?removed ?handed ?steady ?writer
  case removed =>
    rw [taken_unwatch h, takeUnwatch_of_mem (u := s.taking p .unwatch) hw, answer, deliver_taking, notices_taking]
  case handed => simpa [State.answered] using h.handed
  case steady => simpa [State.answered] using h.steady
  case writer => simpa [State.answered] using h.writer

theorem execUnwatch_of_not_mem (h : Passing .unwatch p 0 s)
    (hw : (s.units.port p).params.namedWatch ∉ (s.units.notices p).watches) :
    execUnwatch p s = .next (s.withUnits (s.answered p .unwatch (Posting.code .notFound))) :=
  command_answered h.toTaking (by rw [taken_unwatch h, takeUnwatch_of_not_mem (u := s.taking p .unwatch) hw, answer])

end Row

/-! ## The statement -/

/-- Settles O35: the cases are the ranges of the parameters, then whether the table holds the watch named. -/
theorem unwatchTakes : Obligations.UnwatchTakes := by
  unfold Obligations.UnwatchTakes
  intro p s h
  dsimp only
  rw [← outOfRange_unwatch_iff]
  refine ⟨?badParam, ?removed, ?notFound⟩
  case badParam => exact fun hbad => command_refused h (checkCommand_unwatch_badParam hbad p s.units)
  case removed => exact fun hr hw => execUnwatch_of_mem (passing_unwatch h hr) hw
  case notFound => exact fun hr hw => execUnwatch_of_not_mem (passing_unwatch h hr) hw

end Sys2Proof.Machine
end

section
/-! SUPPORT. Every row, and the tick of an empty queue, keeps the tables of the units in order (R37, R76, R139, R157, R162). -/

namespace Sys2Proof.Machine

/-! ## Rows on the units -/

theorem onUnits_inOrder {f : Units → Units} {s t : State} (hf : s.units.InOrder → (f s.units).InOrder)
    (h : s.units.InOrder) (ht : onUnits f s = .next t) : t.units.InOrder := by
  cases ht
  split
  · exact hf h
  · exact h

theorem onUnitsKick_inOrder {f : Units → Units} {s t : State} (hf : s.units.InOrder → (f s.units).InOrder)
    (h : s.units.InOrder) (ht : onUnitsKick f s = .next t) : t.units.InOrder :=
  onUnits_inOrder (fun hu => (hf hu).kick) h ht

theorem onLink_inOrder {p : Port} {e : LinkEvent} {s t : State} (h : s.units.InOrder) (ht : onLink p e s = .next t) :
    t.units.InOrder := by
  cases ht
  split
  · exact h.linkEvent p e
  · split
    · exact h.kept rfl
    · exact h

/-! ## The claims (R38) -/

section Taken
variable {u : Units} (h : u.InOrder)
include h

theorem Units.InOrder.popClaim : (popClaim u).InOrder := h.kept rfl

theorem Units.InOrder.takeLookup : (takeLookup u).InOrder := by
  unfold Machine.takeLookup
  split
  · exact h.popClaim.kept (kept_lookupClaim ..)
  · exact h

theorem Units.InOrder.takeRange : (takeRange u).InOrder := by
  unfold Machine.takeRange
  split
  · exact h.popClaim.kept (kept_rangeClaim ..)
  · exact h

theorem Units.InOrder.takePinClaim : (takePinClaim u).InOrder := by
  unfold Machine.takePinClaim
  split
  · exact h.popClaim.kept (kept_pinClaim ..)
  · exact h

theorem Units.InOrder.takeUnpin : (takeUnpin u).InOrder := by
  unfold Machine.takeUnpin
  split
  · exact h.popClaim.unpinClaim _ _
  · exact h

theorem Units.InOrder.takeNumberQuery : (takeNumberQuery u).InOrder := by
  unfold Machine.takeNumberQuery
  split
  · exact h.popClaim.kept (kept_numberClaim ..)
  · exact h

theorem Units.InOrder.takeChargeClaim : (takeChargeClaim u).InOrder := by
  unfold Machine.takeChargeClaim
  split
  · exact h.popClaim.kept (kept_chargeClaim ..)
  · exact h

theorem Units.InOrder.takeReleaseClaim : (takeReleaseClaim u).InOrder := by
  unfold Machine.takeReleaseClaim
  split
  · exact h.popClaim.releaseCharges _ _
  · exact h

theorem Units.InOrder.takeSwitchClaim : (takeSwitchClaim u).InOrder := by
  unfold Machine.takeSwitchClaim
  split
  · exact h.popClaim.switchClaim _
  · exact h

theorem Units.InOrder.takeCommitSwitchClaim : (takeCommitSwitchClaim u).InOrder := by
  unfold Machine.takeCommitSwitchClaim
  split
  · exact h.popClaim.commitSwitchClaim _ _ _ _
  · exact h

theorem Units.InOrder.takeCopySwitchClaim : (takeCopySwitchClaim u).InOrder := by
  unfold Machine.takeCopySwitchClaim
  split
  · exact h.popClaim.copySwitchClaim _ _ _ _
  · exact h

theorem Units.InOrder.takeReportClaim : (takeReportClaim u).InOrder := by
  unfold Machine.takeReportClaim
  split
  · exact h.popClaim.reportClaim _ _
  · exact h

theorem Units.InOrder.takeAllocateClaim : (takeAllocateClaim u).InOrder := by
  unfold Machine.takeAllocateClaim
  split
  · exact h.popClaim.kept (kept_allocateClaim ..)
  · exact h

theorem Units.InOrder.takeOpenedClaim : (takeOpenedClaim u).InOrder := by
  unfold Machine.takeOpenedClaim
  split
  · exact h.popClaim.kept (kept_openedClaim ..)
  · exact h

theorem Units.InOrder.takeCloseClaim : (takeCloseClaim u).InOrder := by
  unfold Machine.takeCloseClaim
  split
  · exact h.popClaim.kept (kept_closeClaim ..)
  · exact h

theorem Units.InOrder.takePreparedClaim : (takePreparedClaim u).InOrder := by
  unfold Machine.takePreparedClaim
  split
  · exact h.popClaim.kept (kept_preparedClaim ..)
  · exact h

theorem Units.InOrder.takeNoVictim : (takeNoVictim u).InOrder := by
  unfold Machine.takeNoVictim
  split
  · exact h.popClaim.noVictimClaim
  · exact h

theorem Units.InOrder.takeSweep : (takeSweep u).InOrder := by
  unfold Machine.takeSweep
  split
  · exact h.popClaim.kept (kept_sweepClaim ..)
  · exact h

theorem Units.InOrder.takeLossClaim : (takeLossClaim u).InOrder := by
  unfold Machine.takeLossClaim
  split
  · exact h.popClaim.lossClaim _ _ _
  · exact h

theorem Units.InOrder.takeReclaimingClaim : (takeReclaimingClaim u).InOrder := by
  unfold Machine.takeReclaimingClaim
  split
  · exact h.popClaim.kept (kept_reclaimingClaim ..)
  · exact h

theorem Units.InOrder.takeErasedClaim : (takeErasedClaim u).InOrder := by
  unfold Machine.takeErasedClaim
  split
  · exact h.popClaim.kept (kept_erasedClaim ..)
  · exact h

end Taken

/-! ## Reset -/

theorem Units.inOrder_start : Units.start.InOrder := by
  have hslot : ∀ p, Units.start.slot p = Slot.start := by intro p; cases p <;> rfl
  have hqueue : ∀ k, claimQueue k Units.start = [] := fun k => queues_empty k
  refine ⟨⟨List.Pairwise.nil, ?notices, rfl, rfl, by simp [Units.start, MountEngine.start]⟩, ?claims⟩
  case notices =>
    intro p
    have hn : Units.start.notices p = ⟨[], [], false, 0⟩ := by cases p <;> rfl
    rw [hn]
    exact ⟨by simp, List.nodup_nil, by simp, by simp⟩
  case claims =>
    simp only [hslot, hqueue, Slot.start_holds]
    exact ⟨by simp, by simp [Slot.start], by simp [Slot.start], by simp, by simp⟩

/-! ## Every row -/

theorem presentRequest_inOrder {s : State} (h : s.units.InOrder) (r : Request) : (presentRequest r s).units.InOrder := by
  unfold presentRequest
  split
  · exact h.kept (kept_notePresented _ _)
  · exact h

theorem execArrayRequest_inOrder {r : Presentation} {s t : State} (h : s.units.InOrder)
    (ht : execArrayRequest r s = .next t) : t.units.InOrder := by
  cases ht
  split
  · split
    · exact presentRequest_inOrder h _
    · exact h
  · exact endOperation_inOrder h _ _

theorem exec_inOrder {i : Instr} {s t : State} (h : s.units.InOrder) (ht : exec i s = .next t) : t.units.InOrder := by
  cases i with
  | powerOn | powerLoss | resetNAssert => cases ht; exact Units.inOrder_start
  | resetNRelease =>
    cases ht
    split
    · exact Units.inOrder_start
    · exact h
  | windowWrite | attentionEnables | ack | cancel | portReset | unknownCommand
  | read | stat | list | write | delete | begin | stageWrite | stageDelete | commit | abort | renew | bind
  | watch | unwatch | noticePop | freeze | policyRead | policyLoad | policyCommit | policyDiscard | reclaim | info =>
    exact onLink_inOrder h ht
  | arrayRequest => exact execArrayRequest_inOrder h ht
  | arrayReadDone | arrayProgramDone | arrayEraseDone | arrayBlankCheckDone => cases ht; exact endOperation_inOrder h _ _
  | resultPost => exact onUnits_inOrder (fun h => h.kept (kept_postResult ..)) h ht
  | lookup => exact onUnits_inOrder Units.InOrder.takeLookup h ht
  | range => exact onUnits_inOrder Units.InOrder.takeRange h ht
  | pin => exact onUnits_inOrder Units.InOrder.takePinClaim h ht
  | unpin => exact onUnitsKick_inOrder Units.InOrder.takeUnpin h ht
  | charge => exact onUnitsKick_inOrder Units.InOrder.takeChargeClaim h ht
  | release => exact onUnitsKick_inOrder Units.InOrder.takeReleaseClaim h ht
  | switch => exact onUnitsKick_inOrder Units.InOrder.takeSwitchClaim h ht
  | commitSwitch => exact onUnitsKick_inOrder Units.InOrder.takeCommitSwitchClaim h ht
  | copySwitch => exact onUnits_inOrder Units.InOrder.takeCopySwitchClaim h ht
  | report => exact onUnitsKick_inOrder Units.InOrder.takeReportClaim h ht
  | allocate => exact onUnitsKick_inOrder Units.InOrder.takeAllocateClaim h ht
  | opened => exact onUnits_inOrder Units.InOrder.takeOpenedClaim h ht
  | close => exact onUnits_inOrder Units.InOrder.takeCloseClaim h ht
  | prepared => exact onUnitsKick_inOrder Units.InOrder.takePreparedClaim h ht
  | noVictim => exact onUnitsKick_inOrder Units.InOrder.takeNoVictim h ht
  | numberQuery => exact onUnits_inOrder Units.InOrder.takeNumberQuery h ht
  | sweep => exact onUnits_inOrder Units.InOrder.takeSweep h ht
  | loss => exact onUnits_inOrder Units.InOrder.takeLossClaim h ht
  | reclaiming => exact onUnits_inOrder Units.InOrder.takeReclaimingClaim h ht
  | erased => exact onUnits_inOrder Units.InOrder.takeErasedClaim h ht
  | memberReport => exact onUnitsKick_inOrder (fun h => h.kept (kept_reportMember ..)) h ht
  | memberQuery => exact onUnits_inOrder (fun h => h.kept (kept_askMember ..)) h ht
  | memberMove => exact onUnits_inOrder (fun h => h.kept (kept_moveMember ..)) h ht
  | leaseWarning => exact onUnits_inOrder (fun h => h.kept (kept_warnLease ..)) h ht
  | leaseExpiry => exact onUnitsKick_inOrder (fun h => h.expireLease _) h ht
  | claimWaitExpiry => exact onUnits_inOrder (fun h => h.expireWait _) h ht
  | lockEvent => exact onUnitsKick_inOrder Units.InOrder.takeLockEvent h ht
  | revocationEvent => exact onUnitsKick_inOrder Units.InOrder.takeRevocation h ht
  | watchRemoval => exact onUnits_inOrder Units.InOrder.takeRemoval h ht
  | changeReport => exact onUnits_inOrder Units.InOrder.takeReport h ht
  | noticePost => exact onUnits_inOrder (fun h => h.takePost _) h ht
  | passStart => exact onUnits_inOrder (fun h => h.kept (kept_startPass ..)) h ht
  | writerClearance => exact onUnits_inOrder (fun h => h.kept (kept_giveClearance ..)) h ht
  | victimErase => exact onUnits_inOrder (fun h => h.kept (kept_eraseVictim ..)) h ht

theorem tick_inOrder {s : State} (h : s.units.InOrder) : s.tick.units.InOrder := by
  unfold State.tick
  split
  · exact h.kept rfl
  · exact h

/-- Settles O2: a tick moves the clock alone, and each row keeps the tables in order. -/
theorem stepKeepsTables : Obligations.StepKeepsTables := by
  unfold Obligations.StepKeepsTables
  intro s t h ht
  have hu : s.units.InOrder := h.orderedBut
  unfold step at ht
  split at ht
  next => cases ht; exact (tick_inOrder hu).ordered
  next c rest _ => exact (exec_inOrder (s := { s with pending := rest }) hu ht).ordered

end Sys2Proof.Machine
end

section
/-! SUPPORT. The rows by what they reach (R17, R35, R121, R167), and that every row keeps the array canonical and the Array
Controller within its rules (R2, R19, R20, R25 to R35). -/

namespace Sys2Proof.Machine

/-! ## Rows by what they reach -/

/-- A row of a port's link is an event on it. -/
theorem exec_of_onLink {i : Instr} (hi : i.onLink = true) (s : State) : ∃ p e, exec i s = onLink p e s := by
  cases i <;> first | exact ⟨_, _, rfl⟩ | cases hi

/-- A row that reaches the units alone and is not of a port's link acts on the units. -/
theorem exec_of_offLink {i : Instr} (hi : i.unitsOnly = true) (hl : i.onLink = false) (s : State) :
    ∃ f, exec i s = onUnits f s := by
  cases i with
  | powerOn | powerLoss | resetNAssert | resetNRelease => cases hi
  | arrayRequest | arrayReadDone | arrayProgramDone | arrayEraseDone | arrayBlankCheckDone => cases hi
  | unpin | charge | release | switch | commitSwitch | report | allocate | prepared | noVictim
  | memberReport | leaseExpiry | lockEvent | revocationEvent => exact onUnitsKick_eq_onUnits _ s
  | _ => first | exact ⟨_, rfl⟩ | cases hl

/-- A row that reaches the units alone leaves the queue, the supply, RESET_N, the array and the Array Controller. -/
theorem exec_unitsOnly_frame {i : Instr} (hi : i.unitsOnly = true) (s : State) : ∃ u, exec i s = .next (s.withUnits u) := by
  obtain ⟨f, hf⟩ | ⟨p, e, he⟩ := exec_of_unitsOnly hi s
  · rw [hf]; exact onUnits_frame f s
  · rw [he]; exact onLink_frame p e s

theorem endOperation_off (c : Ending) (j : Option Request) {s : State} (h : s.running = false) : endOperation c j s = s := by
  have ho : s.operation = none := by simp [State.operation, h]
  unfold endOperation
  rw [ho]
  cases c <;> rfl

/-- The rows of the Array Controller do nothing while the part does not run (R35). -/
theorem exec_arrayRow_off {i : Instr} (hu : i.unitsOnly = false) (hs : i.supply = false) {s : State} (h : s.running = false) :
    exec i s = .next s := by
  cases i with
  | powerOn | powerLoss | resetNAssert | resetNRelease => cases hs
  | arrayRequest r =>
    obtain ⟨r, c⟩ := r
    cases c with
    | none => exact congrArg _ (if_neg (by simp [h]))
    | some c => exact congrArg _ (endOperation_off c (some r) h)
  | arrayReadDone | arrayProgramDone | arrayEraseDone | arrayBlankCheckDone => exact congrArg _ (endOperation_off _ _ h)
  | _ => cases hu

theorem exec_off {i : Instr} {s : State} (h : s.running = false) (hs : i.supply = false)
    (hl : s.powered = false ∨ i.onLink = false) : exec i s = .next s := by
  cases hu : i.unitsOnly with
  | false => exact exec_arrayRow_off hu hs h
  | true =>
    cases hi : i.onLink with
    | false =>
      obtain ⟨f, hf⟩ := exec_of_offLink hu hi s
      rw [hf, onUnits_off h]
    | true =>
      obtain ⟨p, e, he⟩ := exec_of_onLink hi s
      have hp : s.powered = false := by simpa [hi] using hl
      rw [he, onLink_off hp]

theorem sentBack_lastOut (s : State) (p : Port) : s.withUnits (s.sentBack p (s.units.port p).lastOut) = s :=
  congrArg s.withUnits (s.units.setPort_port p)

/-- Settles O6: without power or in RESET_N neither the gate of the units nor that of the array opens, and a link sends zeros. -/
theorem rowsReachTheirPartOnly : Obligations.RowsReachTheirPartOnly := by
  unfold Obligations.RowsReachTheirPartOnly
  refine ⟨fun i s h hs hl => exec_off h hs hl, ?inReset, fun i s hi => exec_unitsOnly_frame hi s⟩
  intro p s b bytes i hp hr
  have hlink := fun e : LinkEvent => onLink_reset (p := p) (e := e) hp hr
  refine ⟨hlink .select, hlink (.shift b), ?deselect, ?frame, ?rows⟩
  case deselect => exact (hlink .deselect).trans (congrArg _ (sentBack_lastOut s p))
  case frame => simpa [zerosOut, State.sentBack, exec, execWindowWrite] using hlink (.frame bytes)
  case rows =>
    rintro (hi | ⟨c, rfl⟩)
    · simp only [List.mem_cons, List.not_mem_nil, or_false] at hi
      rcases hi with rfl | rfl | rfl | rfl | rfl <;> exact hlink (.frame _)
    · cases c <;> exact hlink (.frame _)

/-! ## Every row keeps the part safe -/

theorem Safe.of_frame {s t : State} (h : Safe s) (ha : t.array = s.array) (hc : t.ac = s.ac) : Safe t :=
  ⟨ha ▸ h.canonical, ha ▸ h.inside, hc ▸ h.control⟩

/-- An operation cut off leaves the array canonical, and the controller starts anew (R35). -/
theorem Safe.abandoned {s : State} (h : Safe s) (torn : Torn) : Safe (s.abandoned torn) :=
  ⟨wf_abandon h.canonical _ _, inArray_abandon h.inside _ (ArrayController.legal_cutOff h.control), ArrayController.sound_start⟩

theorem Safe.presentRequest {s : State} (h : Safe s) (r : Request) : Safe (presentRequest r s) := by
  unfold Machine.presentRequest
  split
  · exact ⟨h.canonical, h.inside, ArrayController.sound_accept h.control ‹_›⟩
  · exact ⟨h.canonical, h.inside, ArrayController.sound_complete h.control _ _ _⟩

/-- The array fallen free, whatever the completion has made of the array. -/
theorem safe_arrayFree {urgent : Bool} {j : Option Request} {s : State} (hc : s.array.wf = true) (hi : s.array.inArray = true)
    (hf : s.ac.Fallen) : Safe (arrayFree urgent j s) := by
  have ha := (arrayFree_frame urgent j s).1
  exact ⟨ha ▸ hc, ha ▸ hi, sound_arrayFree hf⟩

theorem Safe.endOperation {s : State} (h : Safe s) (c : Ending) (j : Option Request) : Safe (endOperation c j s) := by
  have fallen {q : Queued} {o : ArrayOutcome} {bs : List Byte} (hq : s.ac.running = some q) (he : q.req.op.isErase = false) :
      (s.ac.endOp.complete q.req o bs).Fallen :=
    ArrayController.fallen_complete (ArrayController.fallen_endOp h.control hq he) _ _ _
  unfold Machine.endOperation
  split
  case h_1 who seg first count hop =>
    obtain ⟨q, hq, hreq⟩ := running_of_operation hop
    exact safe_arrayFree h.canonical h.inside (hreq ▸ fallen hq (by rw [hreq]; rfl))
  case h_2 stuck who seg cell bytes hop =>
    obtain ⟨q, hq, hreq⟩ := running_of_operation hop
    have hl := ArrayController.legal_running h.control hq
    rw [hreq] at hl
    simp only [ArrayController.legal, ArrayOp.inRange, Bool.and_eq_true, decide_eq_true_eq] at hl
    obtain ⟨⟨hseg, hcell⟩, -⟩ := hl
    exact safe_arrayFree (wf_programCell h.canonical _ _ _ _) (inArray_programCell h.inside hseg hcell _ _)
      (hreq ▸ fallen hq (by rw [hreq]; rfl))
  case h_3 e who seg hop =>
    obtain ⟨q, hq, hreq⟩ := running_of_operation hop
    have hl := ArrayController.legal_running h.control hq
    rw [hreq] at hl
    simp only [ArrayController.legal, Bool.and_eq_true, decide_eq_true_eq] at hl
    obtain ⟨⟨hseg, -⟩, -⟩ := hl
    exact safe_arrayFree (wf_eraseSegment h.canonical _ _) (inArray_eraseSegment h.inside hseg _)
      (ArrayController.fallen_complete (ArrayController.fallen_endErase h.control hq (by rw [hreq]; rfl)) _ _ _)
  case h_4 who seg hop =>
    obtain ⟨q, hq, hreq⟩ := running_of_operation hop
    exact safe_arrayFree h.canonical h.inside (hreq ▸ fallen hq (by rw [hreq]; rfl))
  case h_5 => exact h

theorem Safe.exec {i : Instr} {s t : State} (h : Safe s) (ht : exec i s = .next t) : Safe t := by
  cases hu : i.unitsOnly with
  | true =>
    obtain ⟨u, hs⟩ := exec_unitsOnly_frame hu s
    rw [hs] at ht
    cases ht
    exact h.of_frame rfl rfl
  | false =>
    cases i with
    | powerOn torn | powerLoss torn | resetNAssert torn => cases ht; exact (h.abandoned torn).of_frame rfl rfl
    | resetNRelease =>
      cases ht
      split
      · exact h.of_frame rfl rfl
      · exact h
    | arrayRequest r =>
      cases ht
      split
      · split
        · exact h.presentRequest _
        · exact h
      · exact h.endOperation _ _
    | arrayReadDone | arrayProgramDone | arrayEraseDone | arrayBlankCheckDone => cases ht; exact h.endOperation _ _
    | _ => cases hu

theorem Safe.tick {s : State} (h : Safe s) : Safe s.tick := by
  unfold State.tick
  split
  · exact h.of_frame rfl rfl
  · exact h

/-- Settles O5: the rows that reach the units alone leave the array and its controller, and the others keep them. -/
theorem stepKeepsSafe : Obligations.StepKeepsSafe := by
  unfold Obligations.StepKeepsSafe
  intro s t h ht
  unfold step at ht
  split at ht
  next => cases ht; exact h.tick
  next c rest _ => exact Safe.exec (s := { s with pending := rest }) (h.of_frame rfl rfl) ht

/-! ## Steps, supply and reset -/

/-- Settles O1: the two branches of a step. -/
theorem stepRunsTheFrontCommand : Obligations.StepRunsTheFrontCommand := by
  unfold Obligations.StepRunsTheFrontCommand
  refine fun s => ⟨fun c rest h => ?front, fun h => ?tick⟩
  case front => simp only [step, h]
  case tick => simp only [step, h, State.tick, State.withUnits]

/-- Settles O7: each row's meaning, and the release by whether RESET_N is asserted. -/
theorem supplyRows : Obligations.SupplyRows := by
  unfold Obligations.SupplyRows
  exact fun t s => ⟨rfl, rfl, rfl, fun h => congrArg _ (if_pos h), fun h => congrArg _ (if_neg (by simp [h]))⟩

end Sys2Proof.Machine
end

section
/-! SUPPORT. What reset leaves (R18, R35, R55, R56, R74, R99, R121, R156): the units at their start over the array as delivered. -/

namespace Sys2Proof.Machine

/-! ## The array as delivered (R18) -/

theorem read_reset (a : Nat) : State.reset.array.read a = delivered a := rfl

theorem delivered_policy {a : Nat} (h : a < 4096) : delivered a = erasedByte :=
  if_pos (Nat.div_lt_of_lt_mul h)

theorem delivered_data {seg o : Nat} (hs : 2 ≤ seg) (ho : o < 2048) :
    delivered (segBase seg + o) = deliveredHeader.getD o erasedByte := by
  have hdiv : (segBase seg + o) / 2048 = seg := by unfold segBase Config.segmentBytes; omega
  have hmod : (segBase seg + o) % 2048 = o := by unfold segBase Config.segmentBytes; omega
  unfold delivered Config.segmentBytes
  rw [hdiv, hmod, if_neg (by unfold Config.firstData; omega)]

/-- Cell 0 of a data segment: PREPARED with erase count 0 (R6, R18). -/
theorem cell_reset {seg : Nat} (hs : 2 ≤ seg) : State.reset.array.cell seg 0 = deliveredHeader := by
  have hget : ∀ k ∈ List.range 16, delivered (cellBase seg 0 + k) = deliveredHeader.getD k erasedByte := fun k hk => by
    have hk : k < 16 := List.mem_range.1 hk
    have hb : cellBase seg 0 = segBase seg := by simp [cellBase]
    rw [hb, delivered_data hs (by omega)]
  have hcell : State.reset.array.cell seg 0 = (List.range 16).map fun k => deliveredHeader.getD k erasedByte :=
    List.map_congr_left hget
  rw [hcell]
  decide +kernel

/-- The header is six bytes, ones behind it (R6). -/
theorem deliveredHeader_getD {o : Nat} (h : 6 ≤ o) : deliveredHeader.getD o erasedByte = erasedByte := by
  obtain ⟨k, rfl⟩ : ∃ k, o = k + 6 := ⟨o - 6, by omega⟩
  have htail : deliveredHeader.drop 6 = List.replicate 10 erasedByte := by decide
  have hdrop : deliveredHeader.getD (k + 6) erasedByte = (deliveredHeader.drop 6).getD k erasedByte := by
    simp [List.getD_eq_getElem?_getD, List.getElem?_drop, Nat.add_comm]
  rw [hdrop, htail]
  simp only [List.getD_eq_getElem?_getD, List.getElem?_replicate]
  split <;> rfl

theorem preparedAtReset {seg : Nat} (hs : 2 ≤ seg) :
    readSegState ((State.reset.array.cell seg 0).getD 0 0) = some .prepared
    ∧ field (State.reset.array.cell seg 0) 1 3 = 0
    ∧ field (State.reset.array.cell seg 0) 4 2 = crc [0, 0, 0]
    ∧ ∀ a, segBase seg + 6 ≤ a → a < segBase seg + 2048 → State.reset.array.read a = 0xFF := by
  rw [cell_reset hs]
  refine ⟨by decide +kernel, by decide +kernel, by decide +kernel, fun a h1 h2 => ?_⟩
  obtain ⟨o, rfl⟩ : ∃ o, a = segBase seg + o := ⟨a - segBase seg, by omega⟩
  rw [read_reset, delivered_data hs (by omega), deliveredHeader_getD (by omega)]

/-! ## The units at reset -/

/-- A window of zeros but for the attention enables (section 10.3). -/
theorem windowByte_start {off : Nat} (h : off ≠ 2) : MasterPort.start.windowByte off = 0 := by
  unfold MasterPort.windowByte
  split
  · simp only [MasterPort.start, List.getD_eq_getElem?_getD, List.getElem?_replicate]
    split <;> rfl
  · split <;> first | rfl | exact absurd rfl h

theorem port_reset (p : Port) : State.reset.units.port p = MasterPort.start := by cases p <;> rfl

/-- Settles O3: field by field, the array by the bytes it has as delivered. -/
theorem resetValues : Obligations.ResetValues := by
  unfold Obligations.ResetValues
  refine ⟨rfl, rfl, rfl, rfl, rfl, rfl, rfl, rfl, rfl, ?ports, ?slots, fun part => queues_empty part, rfl, rfl, rfl, rfl, rfl,
    rfl, rfl, rfl, rfl, rfl, rfl, rfl, rfl, rfl, rfl, rfl, rfl, rfl, rfl, rfl, rfl, rfl, rfl, rfl, rfl, rfl, rfl, ?policy, ?data⟩
  case ports =>
    intro p
    rw [port_reset p]
    exact ⟨rfl, rfl, rfl, rfl, rfl, rfl, rfl, rfl, rfl, rfl, rfl, rfl, fun off h _ => windowByte_start h⟩
  case slots => intro p; cases p <;> exact ⟨rfl, rfl⟩
  case policy => exact fun a h => delivered_policy h
  case data => exact fun seg h _ => preparedAtReset h

/-- Settles O4: an empty array and a controller at its start, and the units at theirs. -/
theorem resetIsSafe : Obligations.ResetIsSafe :=
  ⟨⟨rfl, rfl, ArrayController.sound_start⟩, Units.inOrder_start.ordered⟩

end Sys2Proof.Machine
end

section
/-! SUPPORT. What an acceptance leaves in the Array Controller and in the unit whose request it is (R19, R26, R27, R30 to R33,
R68). -/

namespace Sys2Proof.Machine

namespace ArrayController
variable {c : ArrayController} {r : Request} {urgent : Bool} {e : Queued}

/-! ## The cases of an acceptance -/

/-- With the array free nothing is queued, and the request is granted at once (R27). -/
theorem accept_free (h : c.Sound) (ha : c.accepts r = true) (hr : c.running = none) :
    c.accept urgent r = { c with running := some ⟨c.arrivals, r⟩, arrivals := c.arrivals + 1 } := by
  obtain ⟨hq, hs, hh⟩ := h.free hr
  have hera : c.erasing = none := by simp [erasing, hs, hr]
  have hqueue : (c.join r).queue = [⟨c.arrivals, r⟩] := by simp [join, hq]
  have hchoose : choose urgent [⟨c.arrivals, r⟩] = some ⟨c.arrivals, r⟩ := by
    obtain ⟨q, hc⟩ := Option.isSome_iff_exists.1 (isSome_choose (urgent := urgent) (qs := [⟨c.arrivals, r⟩])
      (by simpa using (accepts_iff ha).1) (by simp))
    rw [hc, List.mem_singleton.1 (mem_of_choose hc)]
  unfold accept
  rw [hera]
  simp only [hr, Option.isNone_none, if_true]
  unfold grantFree
  rw [hqueue, hchoose]
  simp [grant, join, hq]

theorem accept_of_not_erasing (he : c.erasing = none) (hr : c.running ≠ none) : c.accept urgent r = c.join r := by
  unfold accept
  rw [he]
  exact if_neg (by simpa using hr)

theorem accept_of_not_read (he : c.erasing = some e) (hr : r.op.isRead = false) : c.accept urgent r = c.join r := by
  simp [accept, he, hr]

/-- A READ of the segment under erase is held (R33). -/
theorem accept_of_same_segment (he : c.erasing = some e) (hr : r.op.isRead = true) (hs : r.seg = e.req.seg) :
    c.accept urgent r = c.hold r := by
  simp [accept, he, hr, hs]

/-- A READ waits behind a suspension, and behind an erase that has been suspended 8 times (R31, R32). -/
theorem accept_of_waiting (he : c.erasing = some e) (hs : r.seg ≠ e.req.seg)
    (hw : c.suspended ≠ none ∨ c.suspendCount = 8) : c.accept urgent r = c.join r := by
  have hn : ¬ (r.op.isRead && r.seg == e.req.seg) = true := by simp [hs]
  have hn' : ¬ (r.op.isRead && c.suspended.isNone && decide (c.suspendCount < 8)) = true := by
    rcases hw with hw | hw
    · simp [hw]
    · simp [hw]
  unfold accept
  rw [he]
  simp only [hn, hn', if_false, Bool.false_eq_true]

/-- A READ of another segment suspends the running erase and is granted (R30). -/
theorem accept_suspending (h : c.Sound) (ha : c.accepts r = true) (hr : r.op.isRead = true) (hrun : c.running = some e)
    (he : e.req.op.isErase = true) (hs : r.seg ≠ e.req.seg) (hlt : c.suspendCount < 8) :
    c.accept urgent r = { c with running := some ⟨c.arrivals, r⟩, suspended := some e, arrivals := c.arrivals + 1,
                                 suspendCount := c.suspendCount + 1, grantCount := 1 } := by
  obtain ⟨hsus, hera⟩ := erasing_of_running h hrun he
  obtain ⟨hlegal, hfree, -⟩ := accepts_iff ha
  have hfind := (sound_suspend h hlegal hfree hrun he hr hlt).1
  have hself : c.queue ++ [(⟨c.arrivals, r⟩ : Queued)] = (c.join r).queue := rfl
  have herase : (c.join r).queue.erase ⟨c.arrivals, r⟩ = c.queue := by
    have hnot : (⟨c.arrivals, r⟩ : Queued) ∉ c.queue := fun hm =>
      Nat.lt_irrefl c.arrivals (h.ordered.2.2.2 _ (List.mem_append_right _ hm))
    rw [← hself, List.erase_append_right _ hnot]
    simp
  unfold accept
  rw [hera]
  simp only [hr, hsus, hlt, hs, beq_iff_eq, Bool.and_eq_true, decide_true, Option.isNone_none, and_true, and_false, if_false, if_true]
  rw [hfind]
  simp only [suspend, grant, herase]
  rfl

end ArrayController

/-! ## What the units note (R19, R68) -/

theorem Io.shown_eq (io : Io) (r : Request) : io.shown r = if io.want = some r then ⟨some r, true⟩ else io := by
  obtain ⟨want, presented⟩ := io
  unfold Io.shown
  split
  next h => rw [show want = some r from h]
  next => rfl

section Noted
variable {r : Request} {u : Units}

theorem notePresented_port {p : Port} (h : r.who = .port p) :
    notePresented r u = u.setPort p { u.port p with io := (u.port p).io.shown r } := by
  unfold notePresented
  rw [h]
  rfl

theorem notePresented_engine (h : r.who = .engine) : notePresented r u = u.setCe { u.ce with io := u.ce.io.shown r } := by
  unfold notePresented
  rw [h]

theorem notePresented_policy (h : r.who = .policy) : notePresented r u = u.setPu { u.pu with io := u.pu.io.shown r } := by
  unfold notePresented
  rw [h]

theorem notePresented_mount (h : r.who = .mount) : notePresented r u = u.setMe { u.me with io := u.me.io.shown r } := by
  unfold notePresented
  rw [h]

theorem notePresented_writer_other (h : r.who = .writer) (hio : u.rw.io ≠ ⟨some r, false⟩) : notePresented r u = u := by
  unfold notePresented
  rw [h]
  exact if_neg hio

theorem notePresented_writer (h : r.who = .writer) (hio : u.rw.io = ⟨some r, false⟩) :
    notePresented r u = writerPresented (u.setRw { u.rw with io := ⟨some r, true⟩ }) := by
  unfold notePresented
  rw [h]
  simp [hio, Io.shown]

/-- A request presented leaves the mode of the engine (R28). -/
theorem urgent_notePresented : (notePresented r u).urgent = u.urgent := by
  unfold notePresented
  split
  · rfl
  · split
    · unfold writerPresented
      split <;> rfl
    · rfl
  · rfl
  · rfl
  · rfl

end Noted

/-! ## The statements -/

section Accepted
variable {r : Request} {s : State} {e : Queued}

/-- The row of an accepted request: what the controller makes of it, and the array as it was. -/
theorem accepted_row {c : ArrayController} (hr : s.running = true) (ha : s.ac.accepts r = true)
    (hc : s.ac.accept s.units.urgent r = c) :
    ∃ t, exec (.arrayRequest ⟨r, none⟩) s = .next t ∧ t.array = s.array ∧ t.ac = c :=
  ⟨_, execArrayRequest_accepted hr ha, rfl, hc⟩

theorem erasing_of_running_erase (h : s.ac.Sound) (hq : s.ac.running = some e) (hop : e.req.op = .erase) :
    s.ac.erasing = some e := (ArrayController.erasing_eq_some_iff h.suspendsErase).2 ⟨.inr hq, hop⟩

/-- Settles O10: the case of an acceptance is that of the controller, the note that of the requester. -/
theorem acceptedRequestIsGrantedOrQueued : Obligations.AcceptedRequestIsGrantedOrQueued := by
  unfold Obligations.AcceptedRequestIsGrantedOrQueued
  intro r s hr hs ha
  dsimp only
  refine ⟨?granted, ?queued, ?erase, ?suspended, _, execArrayRequest_accepted hr ha, ?port, ?engine, ?policy, ?mount,
    ?writerOther, ?writer⟩
  case granted => exact fun hq => accepted_row hr ha (ArrayController.accept_free hs ha hq)
  case queued =>
    intro q hq hsus hop
    refine accepted_row hr ha (ArrayController.accept_of_not_erasing ?_ (by simp [hq]))
    have herase : q.req.op.isErase = false := by rw [← Bool.not_eq_true, isErase_iff]; exact hop
    simp [ArrayController.erasing, hsus, hq, herase, Option.filter]
  case erase =>
    exact fun q hq _ hop hread => accepted_row hr ha
      (ArrayController.accept_of_not_read (erasing_of_running_erase hs hq hop) hread)
  case suspended =>
    exact fun q hq hread => accepted_row hr ha
      (ArrayController.accept_of_not_read (ArrayController.erasing_of_suspended hq) hread)
  case port => intro p hp; rw [← Io.shown_eq]; exact notePresented_port hp
  case engine => intro hp; rw [← Io.shown_eq]; exact notePresented_engine hp
  case policy => intro hp; rw [← Io.shown_eq]; exact notePresented_policy hp
  case mount => intro hp; rw [← Io.shown_eq]; exact notePresented_mount hp
  case writerOther => exact fun hp hio => notePresented_writer_other hp hio
  case writer =>
    intro hp hio
    refine (notePresented_writer hp hio).trans ?_
    unfold writerPresented
    dsimp only [Units.rw_setRw]
    cases s.units.rw.cur with
    | none => rfl
    | some c =>
      obtain ⟨job, step, recorded⟩ := c
      cases job with
      | complete p part txn displaced =>
        cases step with
        | memberLive i l tries again => cases again <;> rfl
        | _ => rfl
      | abortClean p =>
        cases step with
        | retiring why l mark tries => cases why <;> rfl
        | _ => rfl
      | _ => rfl

/-- Settles O11: the erase in progress is the one given, and the case is that of its segment, phase and count. -/
theorem readDuringAnErase : Obligations.ReadDuringAnErase := by
  unfold Obligations.ReadDuringAnErase
  intro r s e hr hs ha hread hop
  have hera : s.ac.running = some e ∨ s.ac.suspended = some e → s.ac.erasing = some e := fun h =>
    (ArrayController.erasing_eq_some_iff hs.suspendsErase).2 ⟨h.symm, hop⟩
  refine ⟨?suspends, ?waits, ?during, ?held⟩
  case suspends =>
    exact fun hq hseg hlt => accepted_row hr ha
      (ArrayController.accept_suspending hs ha hread hq (isErase_iff.2 hop) hseg hlt)
  case waits =>
    exact fun hq hseg h8 => accepted_row hr ha (ArrayController.accept_of_waiting (hera (.inl hq)) hseg (.inr h8))
  case during =>
    exact fun hq hseg => accepted_row hr ha
      (ArrayController.accept_of_waiting (hera (.inr hq)) hseg (.inl (by simp [hq])))
  case held => exact fun hq hseg => accepted_row hr ha (ArrayController.accept_of_same_segment (hera hq) hread hseg)

end Accepted

end Sys2Proof.Machine
end

section
/-! SUPPORT. The arbiter's order (R27), and what the array fallen free makes of a request that falls together with the
completion (R25, R31 to R33). -/

namespace Sys2Proof.Machine

namespace ArrayController
variable {c : ArrayController} {r : Request} {urgent : Bool} {q : Queued} {qs : List Queued}

/-! ## The arbiter (R27) -/

theorem one_le_arbiterRank (urgent : Bool) (q : Queued) : 1 ≤ arbiterRank urgent q := by
  unfold arbiterRank
  split
  · exact Nat.le_refl 1
  · split <;> (try split) <;> decide

theorem arbiterRank_read (h : q.isRead = true) : arbiterRank urgent q = 1 := if_pos h

/-- The rank of a request that is no READ, by its requester (R27, R28). -/
def rankOfRequester (urgent : Bool) : Requester → Nat
  | .engine => if urgent then 2 else 5
  | .writer => 3
  | .policy => 4
  | .mount => 6
  | .port _ => 7

theorem arbiterRank_of_not_read (h : q.isRead = false) : arbiterRank urgent q = rankOfRequester urgent q.req.who := by
  unfold arbiterRank
  rw [if_neg (by simp [h])]
  rfl

/-- The arbiter's choice: the oldest READ, or with none queued a request of a requester of the least rank. -/
theorem choose_cases (h : choose urgent qs = some q) :
    qs.find? Queued.isRead = some q
    ∨ (∀ x ∈ qs, x.isRead = false) ∧ ∀ x ∈ qs, rankOfRequester urgent q.req.who ≤ rankOfRequester urgent x.req.who := by
  have found {who : Requester} {y : Queued} (hy : qs.find? (fun q => q.req.who == who) = some y) : y.req.who = who := by
    simpa using List.find?_some hy
  simp only [choose, Option.orElse_eq_orElse, Option.orElse_eq_or, Option.or_eq_some_iff] at h
  obtain h | ⟨hread, h⟩ := h
  · exact .inl h
  refine .inr ⟨by simpa [List.find?_eq_none] using hread, fun x hx => ?_⟩
  have none_of {who : Requester} (hn : qs.find? (fun q => q.req.who == who) = none) (hw : x.req.who = who) : False := by
    have hs : (qs.find? (fun q => q.req.who == who)).isSome = true := List.find?_isSome.2 ⟨x, hx, by simpa using hw⟩
    rw [hn] at hs
    cases hs
  cases urgent with
  | true =>
    simp only [if_true, reduceCtorEq, false_or, true_and] at h
    obtain h | ⟨he, h | ⟨hw, h | ⟨hp, h⟩⟩⟩ := h <;> rw [found h] <;> cases hwho : x.req.who <;>
      first | simp only [rankOfRequester, if_true]; decide | exact (none_of ‹_› hwho).elim
  | false =>
    simp only [if_false, Bool.false_eq_true, reduceCtorEq, false_or, true_and] at h
    obtain h | ⟨hw, h | ⟨hp, h | ⟨he, h⟩⟩⟩ := h <;> rw [found h] <;> cases hwho : x.req.who <;>
      first | simp only [rankOfRequester, Bool.false_eq_true, if_false]; decide | exact (none_of ‹_› hwho).elim

theorem choose_least (h : choose urgent qs = some q) : ∀ x ∈ qs, arbiterRank urgent q ≤ arbiterRank urgent x := by
  intro x hx
  obtain hf | ⟨hnone, hleast⟩ := choose_cases h
  · rw [arbiterRank_read (by simpa using List.find?_some hf)]
    exact one_le_arbiterRank _ _
  · rw [arbiterRank_of_not_read (hnone q (mem_of_choose h)), arbiterRank_of_not_read (hnone x hx)]
    exact hleast x hx

theorem choose_oldest_read (h : choose urgent qs = some q) (hq : q.isRead = true) : qs.find? Queued.isRead = some q := by
  rw [← choose_read (List.any_eq_true.2 ⟨q, mem_of_choose h, hq⟩)]
  exact h

/-! ## A grant, and a completion delivered -/

theorem grantFree_queue (urgent : Bool) (c : ArrayController) :
    (grantFree urgent c).queue = (match choose urgent c.queue with | some q => c.queue.erase q | none => c.queue) := by
  unfold grantFree
  split <;> simp_all [grant]

theorem grantFree_grantCount (urgent : Bool) (c : ArrayController) : (grantFree urgent c).grantCount = c.grantCount := by
  unfold grantFree
  split <;> rfl

/-- Delivering a completion and granting fall in any order. -/
theorem grantFree_complete (o : ArrayOutcome) (bs : List Byte) :
    grantFree urgent (c.complete r o bs) = (grantFree urgent c).complete r o bs := by
  have hq : (c.complete r o bs).queue = c.queue := rfl
  unfold grantFree
  rw [hq]
  cases choose urgent c.queue <;> rfl

/-! ## The array fallen free, no erase suspended (R25) -/

/-- The array fallen free with no erase: what the checks of a request then see. -/
def freed (c : ArrayController) (qs : List Queued) : ArrayController :=
  { c with running := none, suspended := none, queue := qs, held := [], suspendCount := 0, grantCount := 0 }

theorem freed_suspendsErase (c : ArrayController) (qs : List Queued) : (c.freed qs).SuspendsErase := by
  intro e he
  cases he

theorem erasing_freed (c : ArrayController) (qs : List Queued) : (c.freed qs).erasing = none := rfl

theorem endOp_eq_freed (h : c.Sound) (hq : c.running = some q) (hs : c.suspended = none) (hop : q.req.op ≠ .erase) :
    c.endOp = c.freed c.queue := by
  have hera : c.erasing = none := by
    have herase : q.req.op.isErase = false := by rw [← Bool.not_eq_true, isErase_iff]; exact hop
    simp [erasing, hs, hq, herase, Option.filter]
  have hheld := no_held_of_not_erasing h hera
  obtain ⟨hsc, hgc⟩ := h.idle hera
  obtain ⟨queue, arrivals, running, suspended, sc, gc, held, delivered⟩ := c
  simp only at hs hheld hsc hgc
  subst hs hheld hsc hgc
  rfl

end ArrayController

open ArrayController in
/-- A completion whose row is the fall of the array, freed of every erase, grants together with a request (R25, log 51). -/
theorem grantedTogether_of_freed {c : Ending} {s s' : State} {qs : List Queued} {ended : ArrayController} {r : Request}
    {o : ArrayOutcome} {bs : List Byte} (he : ∀ j, endOperation c j s = arrayFree s.units.urgent j s')
    (hac : s'.ac = ended.complete r o bs) (hended : ended = s.ac.freed qs) : s.grantedTogether c qs := by
  rw [hended] at hac
  have hrow : ∀ j, exec (c.joined j) s = .next (arrayFree s.units.urgent j s') := fun j => by rw [exec_joined, he]
  have haccepts : ∀ r, s'.ac.accepts r = (s.ac.freed qs).accepts r := fun r => by rw [hac]; rfl
  have hsus : s'.ac.suspended = none := by rw [hac]; rfl
  refine ⟨_, hrow none, fun r => ⟨?refused, ?accepted⟩⟩
  case refused =>
    intro hr
    have hn : s'.ac.accepts r = false := by
      rw [haccepts]
      obtain hr | hr := hr
      · exact accepts_eq_false_of_refused (freed_suspendsErase _ _) hr
      · exact accepts_eq_false_of_outstanding (freed_suspendsErase _ _) hr
    have hsus' : (s'.ac.complete r .rejected []).suspended = none := hsus
    rw [hrow, arrayFree_rejected hn, arrayFree_none, grantNext_unsuspended hsus, grantNext_unsuspended hsus', grantFree_complete]
    rfl
  case accepted =>
    intro hr hf
    have ha : s'.ac.accepts r = true := by
      rw [haccepts]
      exact (accepts_iff_not_refused (freed_suspendsErase _ _)).2 ⟨hr, hf⟩
    have henter : s'.ac.enter r = s'.ac.join r := by
      have hera : s'.ac.erasing = none := by rw [hac]; rfl
      simp [enter, hera]
    have hqueue : (s'.ac.join r).queue = qs ++ [⟨s.ac.arrivals, r⟩] := by rw [hac]; rfl
    have hrun : (s'.ac.join r).running = none := by rw [hac]; rfl
    have hgrant : (s'.ac.enter r).grantNext s.units.urgent = grantFree s.units.urgent (s'.ac.join r) := by
      rw [henter]; exact grantNext_unsuspended hsus
    obtain ⟨hheld, harr, hsc, hss⟩ := grantFree_frame s.units.urgent (s'.ac.join r)
    have hgc := grantFree_grantCount s.units.urgent (s'.ac.join r)
    have hchosen := grantFree_running (urgent := s.units.urgent) hrun
    have hleft := grantFree_queue s.units.urgent (s'.ac.join r)
    rw [hqueue] at hchosen hleft
    refine ⟨_, hrow (some r), ?_⟩
    rw [arrayFree_accepted ha, arrayFree_none, hgrant]
    refine ⟨rfl, rfl, rfl, rfl, rfl, ?delivered, harr.trans ?arrivals, hheld.trans ?held, hss.trans ?suspended, hsc.trans ?suspends,
      hgc.trans ?grants, hchosen, ?queue⟩
    case delivered =>
      have h := grantNext_delivered s.units.urgent (s'.ac.join r)
      rw [grantNext_unsuspended (c := s'.ac.join r) hsus] at h
      exact h.trans (grantNext_delivered s.units.urgent s'.ac).symm
    case queue => dsimp only; rw [hchosen]; exact hleft
    all_goals rw [hac]; rfl

/-! ## The completions -/

theorem exec_ended {c : Ending} {j : Option Request} {s t : State} (h : endOperation c j s = t) : exec (c.joined j) s = .next t := by
  rw [exec_joined, h]

section Completed
variable {s : State} {q : Queued} {o seg first count cell : Nat} {who : Requester} {bytes stuck : List Byte}

theorem getD_cells (m : Memory) (seg first count : Nat) {k : Nat} (hk : k < 16 * count) :
    (m.cells seg first count).getD k 0 = m.read (2048 * seg + 16 * first + k) := by
  unfold Memory.cells
  rw [Memory.getD_readRange m (by unfold Config.cellBytes; omega)]
  congr 1
  unfold cellBase segBase Config.segmentBytes Config.cellBytes
  omega

theorem length_cells (m : Memory) (seg first count : Nat) : (m.cells seg first count).length = 16 * count := by
  unfold Memory.cells
  rw [Memory.length_readRange, Nat.mul_comm]

theorem getD_segment (m : Memory) (seg : Nat) {k : Nat} (hk : k < 2048) :
    (m.segment seg).getD k 0 = m.read (2048 * seg + k) := by
  unfold Memory.segment
  rw [Memory.getD_readRange m hk]
  congr 1
  unfold segBase Config.segmentBytes
  omega

/-- The blank check: every byte reads 0xFF (R23, R24). -/
theorem allErased_segment (m : Memory) (seg : Nat) :
    allErased (m.segment seg) = true ↔ ∀ k, k < 2048 → m.read (2048 * seg + k) = 0xFF := by
  have hlen : (m.segment seg).length = 2048 := Memory.length_readRange m _ _
  unfold allErased
  rw [List.all_eq_true]
  constructor
  · intro h k hk
    have hb := h ((m.segment seg)[k]'(by omega)) (List.getElem_mem _)
    rw [← getD_segment m seg hk, List.getD_eq_getElem _ _ (by omega)]
    exact beq_iff_eq.1 hb
  · intro h b hb
    obtain ⟨k, hk, rfl⟩ := List.getElem_of_mem hb
    have := h k (by omega)
    rw [← getD_segment m seg (by omega), List.getD_eq_getElem _ _ hk] at this
    exact beq_iff_eq.2 this

/-- The verify, bit by bit over the bytes read back (R22). -/
theorem verified_iff : ∀ (read supplied : List Byte), read.length = supplied.length →
    (verified read supplied = true ↔ ∀ k, k < supplied.length → read.getD k 0 &&& ~~~ supplied.getD k 0 = 0)
  | [], [], _ => by simp [verified]
  | r :: rs, b :: bs, h => by
    have ih := verified_iff rs bs (by simpa using h)
    simp only [verified, Bool.and_eq_true, beq_iff_eq, ih, List.length_cons]
    constructor
    · rintro ⟨h0, hs⟩ k hk
      cases k with
      | zero => exact h0
      | succ k => exact hs k (by omega)
    · exact fun hall => ⟨hall 0 (by omega), fun k hk => hall (k + 1) (by omega)⟩

theorem verified_cell (m : Memory) (seg cell : Nat) {bytes : List Byte} (hb : bytes.length = 16) :
    verified (m.cell seg cell) bytes = true ↔
      ∀ k, k < 16 → m.read (2048 * seg + 16 * cell + k) &&& ~~~ bytes.getD k 0 = 0 := by
  have hlen : (m.cell seg cell).length = bytes.length := (Memory.length_readRange m _ _).trans hb.symm
  rw [verified_iff _ _ hlen, hb]
  refine forall₂_congr fun k hk => ?_
  have hread : (m.cell seg cell).getD k 0 = m.read (2048 * seg + 16 * cell + k) := by
    unfold Memory.cell
    rw [Memory.getD_readRange m hk]
    congr 1
    unfold cellBase segBase Config.segmentBytes Config.cellBytes
    omega
  rw [hread]

theorem mediaFault_eq (ok : Bool) (u : Units) :
    mediaFault ok u = if ok then u else { u with media := min 65535 (u.media + 1) } := rfl

/-- A request accepted joins the queue in the order of arrival, before the completion or after it (R25). -/
theorem same_grant_in_either_order {c : Ending} {q : Queued} {r r' : Request} {o : ArrayOutcome} {bs : List Byte}
    {s s' t' : State} (hr : s.running = true) (hq : s.ac.running = some q) (hsus : s.ac.suspended = none)
    (hop : q.req.op ≠ .erase) (ha : s.ac.accepts r = true)
    (hlater : endOperation c none { s with ac := s.ac.join r, units := notePresented r s.units }
      = arrayFree (notePresented r s.units).urgent none t')
    (hjoint : endOperation c (some r) s = arrayFree s.units.urgent (some r) s')
    (ht : t'.ac = (s.ac.join r).endOp.complete r' o bs) (hac : s'.ac = s.ac.endOp.complete r' o bs)
    (harr : t'.array = s'.array) :
    ∃ s₁ t v, exec (.arrayRequest ⟨r, none⟩) s = .next s₁ ∧ exec (c.joined none) s₁ = .next t
      ∧ exec (c.joined (some r)) s = .next v ∧ t.ac = v.ac ∧ t.array = v.array := by
  have herase : q.req.op.isErase = false := by rw [← Bool.not_eq_true, isErase_iff]; exact hop
  have hera : s.ac.erasing = none := by simp [ArrayController.erasing, hsus, hq, herase, Option.filter]
  have hera' : s'.ac.erasing = none := by
    rw [hac]
    simp [ArrayController.erasing, ArrayController.endOp, ArrayController.complete, hsus]
  have ha' : s'.ac.accepts r = true := by
    have hfree := (ArrayController.outstanding_eq_false_iff (c := s'.ac) (who := r.who)).2 fun x hx => by
      refine ArrayController.outstanding_eq_false_iff.1 (ArrayController.accepts_iff ha).2.1 x ?_
      rw [hac] at hx
      simp only [ArrayController.known, ArrayController.endOp, ArrayController.complete, Option.toList_none, List.nil_append] at hx
      simp only [ArrayController.known, List.mem_append] at hx ⊢
      tauto
    simp only [ArrayController.accepts, Bool.and_eq_true] at ha ⊢
    obtain ⟨⟨⟨⟨hseg, hrange⟩, hperm⟩, -⟩, -⟩ := ha
    exact ⟨⟨⟨⟨hseg, hrange⟩, hperm⟩, by rw [hfree]; rfl⟩, by rw [hera']; simp⟩
  have hfirst : exec (.arrayRequest ⟨r, none⟩) s = .next { s with ac := s.ac.join r, units := notePresented r s.units } := by
    have hjoin := ArrayController.accept_of_not_erasing (r := r) (urgent := s.units.urgent) hera (by simp [hq])
    exact (execArrayRequest_accepted hr ha).trans (by rw [hjoin])
  have henter : s'.ac.enter r = s'.ac.join r := by simp [ArrayController.enter, hera']
  refine ⟨_, _, _, hfirst, by rw [exec_joined, hlater], by rw [exec_joined, hjoint], ?grant, ?array⟩
  case grant =>
    rw [arrayFree_accepted ha', arrayFree_none, urgent_notePresented]
    dsimp only
    rw [henter, ht, hac]
    rfl
  case array => rw [(arrayFree_frame _ _ _).1, (arrayFree_frame _ _ _).1, harr]

/-- Settles O12: the order is that of the choice, and a request joins the queue before or after the completion alike. -/
theorem arbiterOrder : Obligations.ArbiterOrder := by
  unfold Obligations.ArbiterOrder
  refine ⟨fun urgent qs hl => ⟨?grants, ?least⟩, fun s q r stuck hr _ hq hsus ha => ⟨?read, ?program, ?blank⟩⟩
  case grants => exact fun hne => Option.isSome_iff_exists.1 (ArrayController.isSome_choose hl hne)
  case least =>
    exact fun q hq => ⟨ArrayController.mem_of_choose hq, ArrayController.choose_least hq, ArrayController.choose_oldest_read hq⟩
  all_goals
    obtain ⟨o, who, seg, op⟩ := q
    dsimp only
  case read =>
    intro hread
    obtain ⟨first, count, rfl⟩ : ∃ first count, op = .read first count := by
      cases op <;> first | exact ⟨_, _, rfl⟩ | cases hread
    exact same_grant_in_either_order hr hq hsus (by simp) ha (endOperation_read (o := o) hr hq) (endOperation_read hr hq)
      rfl rfl rfl
  case program =>
    rintro ⟨cell, bytes, rfl⟩
    exact same_grant_in_either_order hr hq hsus (by simp) ha (endOperation_program (o := o) hr hq) (endOperation_program hr hq)
      rfl rfl rfl
  case blank =>
    rintro rfl
    exact same_grant_in_either_order hr hq hsus (by simp) ha (endOperation_blankCheck (o := o) hr hq)
      (endOperation_blankCheck hr hq) rfl rfl rfl

/-- Settles O13: the bytes are those of the cells, and with no erase suspended the array falls to the arbiter. -/
theorem readCompletes : Obligations.ReadCompletes := by
  unfold Obligations.ReadCompletes
  intro s o who seg first count hr hq
  refine ⟨fun hs hsus => ?together, _, s.array.cells seg first count, exec_ended (c := .read) (j := none) (endOperation_read hr hq), rfl, rfl, rfl, rfl,
    length_cells _ _ _ _, fun k hk => getD_cells _ _ _ _ hk, ArrayController.grantNext_delivered _ _, rfl, fun hsus => ?granted⟩
  case together => exact grantedTogether_of_freed (fun j => endOperation_read hr hq) rfl (ArrayController.endOp_eq_freed hs hq hsus (by simp))
  case granted =>
    have hsus' : (s.ac.endOp.complete ⟨who, seg, .read first count⟩ .done (s.array.cells seg first count)).suspended = none := hsus
    obtain ⟨hheld, harr, -, -⟩ := ArrayController.grantFree_frame s.units.urgent
      (s.ac.endOp.complete ⟨who, seg, .read first count⟩ .done (s.array.cells seg first count))
    simp only [readDone, arrayFree_none, ArrayController.grantNext_unsuspended hsus']
    exact ⟨ArrayController.grantFree_running rfl, hheld, harr⟩

/-- Settles O15: the verify over the bytes read back, and the fall of the array with no erase suspended. -/
theorem programCompletes : Obligations.ProgramCompletes := by
  unfold Obligations.ProgramCompletes
  intro s o who seg cell bytes stuck hr hq hsus hb
  refine ⟨fun hs => ?together, _, verified ((programCell s.array seg cell bytes stuck).cell seg cell) bytes,
    exec_ended (c := (.program stuck)) (j := none) (endOperation_program hr hq), rfl, rfl, rfl, rfl, verified_cell _ _ _ hb, ArrayController.grantNext_delivered _ _,
    rfl, ?granted⟩
  case together => exact grantedTogether_of_freed (fun j => endOperation_program hr hq) rfl (ArrayController.endOp_eq_freed hs hq hsus (by simp))
  case granted =>
    simp only [programDone, arrayFree_none]
    rw [ArrayController.grantNext_unsuspended (by exact hsus)]
    exact ArrayController.grantFree_running rfl

/-- Settles O16: the array falls free of the erase, its held reads joined to the queue. -/
theorem eraseCompletes : Obligations.EraseCompletes := by
  unfold Obligations.EraseCompletes
  intro s o who seg e hr hs hq
  have hsus : s.ac.suspended = none := (ArrayController.erasing_of_running hs hq rfl).1
  have hfreed : s.ac.endErase = s.ac.freed (s.ac.held.foldl (fun qs q => ArrayController.insertByOrder q qs) s.ac.queue) := by
    simp only [ArrayController.endErase, ArrayController.freed, hsus]
  let ok : Bool := !e.incomplete && allErased ((eraseSegment s.array seg e.kept).segment seg)
  let c : ArrayController := s.ac.endErase.complete ⟨who, seg, .erase⟩ (if ok then .erased else .eraseFailed) []
  have hgrant : c.grantNext s.units.urgent = ArrayController.grantFree s.units.urgent c :=
    ArrayController.grantNext_unsuspended hsus
  obtain ⟨hheld, -, hcount, hsuspended⟩ := ArrayController.grantFree_frame s.units.urgent c
  have hrunning := ArrayController.grantFree_running (urgent := s.units.urgent) (c := c) rfl
  refine ⟨_, ok, exec_ended (c := (.erase e)) (j := none) (endOperation_erase hr hq), rfl, rfl, rfl, rfl, ?ok, ArrayController.grantNext_delivered _ _, rfl, ?_⟩
  case ok => simp only [ok, Bool.and_eq_true, Bool.not_eq_true', allErased_segment]; exact Iff.rfl
  change (c.grantNext s.units.urgent).suspendCount = 0 ∧ (c.grantNext s.units.urgent).grantCount = 0
    ∧ (c.grantNext s.units.urgent).held = [] ∧ (c.grantNext s.units.urgent).suspended = none ∧ _
  rw [hgrant]
  refine ⟨hcount, ArrayController.grantFree_grantCount _ c, hheld, hsuspended.trans hsus, _,
    ArrayController.perm_foldl_insertByOrder _ _, (ArrayController.inOrder_merge hs.ordered).1, ?running, ?queue, ?together⟩
  case running => exact (congrArg ArrayController.running hgrant).trans hrunning
  case queue =>
    change (c.grantNext s.units.urgent).queue = (match (c.grantNext s.units.urgent).running with | some q => _ | none => _)
    rw [hgrant, hrunning]
    exact ArrayController.grantFree_queue _ c
  case together => exact grantedTogether_of_freed (fun j => endOperation_erase hr hq) rfl hfreed

/-- Settles O17: the check of the segment's bytes, and the fall of the array with no erase in progress. -/
theorem blankCheckCompletes : Obligations.BlankCheckCompletes := by
  unfold Obligations.BlankCheckCompletes
  intro s o who seg hr hs hq
  have hsus : s.ac.suspended = none := by
    cases h : s.ac.suspended with
    | none => rfl
    | some e =>
      obtain ⟨-, ⟨q, hrun, hread⟩, -⟩ := hs.suspension e h
      rw [hq] at hrun
      cases hrun
      cases hread
  refine ⟨?together, ⟨_, allErased (s.array.segment seg), exec_ended (c := .blankCheck) (j := none) (endOperation_blankCheck hr hq), rfl, rfl, rfl, rfl,
    allErased_segment _ _, ArrayController.grantNext_delivered _ _, rfl, ?granted⟩, fun r hread ha => ?waits⟩
  case together => exact grantedTogether_of_freed (fun j => endOperation_blankCheck hr hq) rfl (ArrayController.endOp_eq_freed hs hq hsus (by simp))
  case granted =>
    simp only [blankDone, arrayFree_none]
    rw [ArrayController.grantNext_unsuspended (by exact hsus)]
    exact ArrayController.grantFree_running rfl
  case waits =>
    have hera : s.ac.erasing = none := by
      simp [ArrayController.erasing, hsus, hq, ArrayOp.isErase, Option.filter]
    have hjoin := ArrayController.accept_of_not_erasing (r := r) (urgent := s.units.urgent) hera (by simp [hq])
    obtain ⟨t, ht, -, hac⟩ := accepted_row hr ha hjoin
    exact ⟨t, ht, by rw [hac]; rfl, by rw [hac]; rfl⟩

end Completed

end Sys2Proof.Machine
end

section
/-! SUPPORT. The reads of a suspension (R31, R32): what the fall of the array comes to while an erase is SUSPENDED. -/

namespace Sys2Proof.Machine

namespace ArrayController
variable {c : ArrayController} {e q : Queued} {r : Request}

theorem resume_held (c : ArrayController) (e : Queued) : (c.resume e).held = c.held := by
  unfold resume
  dsimp only
  split
  · split <;> rfl
  · rfl

/-- The grant of a suspension leaves the held reads (R33). -/
theorem serve_held (c : ArrayController) (e : Queued) : (c.serve e).held = c.held := by
  unfold serve
  split
  · split
    · rfl
    · exact resume_held c e
  · exact resume_held c e

/-- A request that falls together with a completion of the suspension is held for the segment under erase, else queued (R33). -/
theorem enter_suspended (hs : c.suspended = some e) :
    (r.op.isRead = true ∧ r.seg = e.req.seg → c.enter r = c.hold r)
    ∧ (¬ (r.op.isRead = true ∧ r.seg = e.req.seg) → c.enter r = c.join r) := by
  have hera := erasing_of_suspended hs
  constructor
  · rintro ⟨hr, hseg⟩
    simp [enter, hera, hr, hseg]
  · intro h
    unfold enter
    rw [hera]
    exact if_neg (by simpa using h)

/-- The array fallen free accepts what no case of R20 meets and whose interface is free. -/
theorem accepts_endOp (h : c.Sound) (hr : ¬ refusedAtPresentation c.endOp r)
    (hf : c.endOp.interfaceFree r.who) : c.endOp.accepts r = true := by
  have hsus : c.endOp.SuspendsErase := by
    intro x hx
    refine ⟨isErase_iff.1 (h.suspension x hx).1, fun q hq => ?_⟩
    cases hq
  exact (accepts_iff_not_refused hsus).2 ⟨hr, hf⟩

end ArrayController

/-- Settles O14: the request that joins is held or queued, and the suspension serves the queue that this leaves. -/
theorem suspensionServesReads : Obligations.SuspensionServesReads := by
  unfold Obligations.SuspensionServesReads
  intro s o who seg first count e j hr hs hq hsus
  dsimp only
  intro hj
  let done : ArrayController := s.ac.endOp.complete ⟨who, seg, .read first count⟩ .done (s.array.cells seg first count)
  have served : ∃ c : ArrayController, (endOperation .read j s).ac = c.serve e ∧ c.suspended = some e
      ∧ c.suspendCount = s.ac.suspendCount ∧ c.grantCount = s.ac.grantCount
      ∧ (∀ r, j = some r → r.op.isRead = true ∧ r.seg = e.req.seg → c = done.hold r)
      ∧ (∀ r, j = some r → ¬ (r.op.isRead = true ∧ r.seg = e.req.seg) → c = done.join r) ∧ (j = none → c = done) := by
    rw [endOperation_read hr hq]
    unfold readDone
    cases j with
    | none => exact ⟨done, ArrayController.grantNext_suspended hsus, hsus, rfl, rfl, by simp, by simp, fun _ => rfl⟩
    | some r =>
      obtain ⟨hrefused, hfree⟩ := hj r rfl
      have ha : done.accepts r = true := ArrayController.accepts_endOp (c := s.ac) hs hrefused hfree
      have hdone : done.suspended = some e := hsus
      obtain ⟨hheld, hjoined⟩ := ArrayController.enter_suspended (r := r) hdone
      have hfields : (done.enter r).suspended = some e ∧ (done.enter r).suspendCount = s.ac.suspendCount
          ∧ (done.enter r).grantCount = s.ac.grantCount := by
        unfold ArrayController.enter
        split <;> exact ⟨hdone, rfl, rfl⟩
      dsimp only
      rw [arrayFree_accepted ha]
      refine ⟨done.enter r, ArrayController.grantNext_suspended hfields.1, hfields.1, hfields.2.1, hfields.2.2, ?_, ?_, by simp⟩
      · rintro x ⟨⟩ h
        exact hheld h
      · rintro x ⟨⟩ h
        exact hjoined h
  obtain ⟨c, hc, hcs, hcount, hgrants, hheld, hjoined, hnone⟩ := served
  have heldOf : (∀ r, j = some r → ¬ (r.op.isRead = true ∧ r.seg = e.req.seg)) → c.held = s.ac.held := fun h => by
    cases j with
    | none => rw [hnone rfl]; rfl
    | some r => rw [hjoined r rfl (h r rfl)]; rfl
  have queueOf : (∀ r, j = some r → r.op.isRead = true ∧ r.seg = e.req.seg) → c.queue = s.ac.queue := fun h => by
    cases j with
    | none => rw [hnone rfl]; rfl
    | some r => rw [hheld r rfl (h r rfl)]; rfl
  refine ⟨_, exec_ended rfl, fun r hj h => ?held, fun h => ?notHeld, c.queue, fun r hj h => ?queued, queueOf, ?served⟩
  case held => rw [hc, ArrayController.serve_held, hheld r hj h]; rfl
  case notHeld => rw [hc, ArrayController.serve_held]; exact heldOf h
  case queued => rw [hjoined r hj h]; rfl
  case served =>
    rw [hc]
    split
    next hf =>
      rw [ArrayController.serve_none hf, ArrayController.resume_none hf]
      exact ⟨rfl, rfl, rfl, hcount⟩
    next q hf =>
      rw [ArrayController.serve_some hf, hgrants]
      split
      next => exact ⟨rfl, hcs, rfl, hcount, rfl⟩
      next =>
        rw [ArrayController.resume_some hf, hcount]
        split
        next => exact ⟨rfl, rfl, rfl, rfl, rfl⟩
        next hn =>
          have h8 : s.ac.suspendCount = 8 := Nat.le_antisymm hs.bounds.1 (Nat.le_of_not_lt hn)
          exact ⟨rfl, rfl, rfl, h8⟩

end Sys2Proof.Machine
end

section
/-! SUPPORT. The frames of a port (R167 to R173, R175, R182): one link event at a time, the bytes of a frame, and its end. -/

namespace Sys2Proof.Machine

/-! ## Link events (R167) -/

theorem windowWrite_running {p : Port} {e : LinkEvent} {s : State} (h : s.running = true) :
    exec (.windowWrite p e) s = .next (s.withUnits (linkEvent p e s.units)) := onLink_running h

section Event
variable {p : Port} {b : Byte} {u : Units} {f : Frame}

theorem selectFrame_eq (hf : (u.port p).frame = none) (ho : (u.port p).outcome = none) :
    selectFrame p u = u.setPort p { u.port p with
      frame := some ⟨.first, (u.port p).state == .busy, false, none, none, none, statusByte p u, []⟩ } := by
  unfold selectFrame
  rw [postResult_none ho, hf]
  rfl

theorem shiftByte_outside (hf : (u.port p).frame = none) : shiftByte p b u = u := by
  simp only [shiftByte, Units.modPort_eq, hf, Units.setPort_port]

theorem shiftByte_first (hf : (u.port p).frame = some f) (hp : f.phase = .first) :
    shiftByte p b u = u.setPort p { u.port p with frame := some { f with phase := .second b, out := f.out ++ [f.status] } } := by
  simp only [shiftByte, Units.modPort_eq, hf, MasterPort.shift, hp]

theorem shiftByte_second {b0 : Byte} (hf : (u.port p).frame = some f) (hp : f.phase = .second b0) :
    shiftByte p b u = u.setPort p { u.port p with frame := some { f with
      phase := .data (b0.getLsbD 7) ((if b0.getLsbD 0 then 256 else 0) + b.toNat), out := f.out ++ [0] } } := by
  simp only [shiftByte, Units.modPort_eq, hf, MasterPort.shift, hp]

theorem shiftByte_readData {off : Nat} (hf : (u.port p).frame = some f) (hp : f.phase = .data false off) :
    shiftByte p b u = u.setPort p { u.port p with frame := some { f with
      phase := .data false (off + 1), out := f.out ++ [if 512 ≤ off then 0 else (u.port p).windowByte off] } } := by
  simp only [shiftByte, Units.modPort_eq, hf, MasterPort.shift, hp]
  rfl

theorem endFrame_outside (hf : (u.port p).frame = none) : endFrame p u = u := by
  unfold endFrame
  rw [hf]

end Event

/-- The bytes of a frame and its end, one event after another, come to the frame at once (R167). -/
theorem link_bytes (p : Port) : ∀ (bytes : List Byte) (s : State), s.running = true →
    State.link p (bytes.map LinkEvent.shift ++ [LinkEvent.deselect]) s
      = .next (s.withUnits (endFrame p (bytes.foldl (fun u b => shiftByte p b u) s.units)))
  | [], s, h => by
    change (match exec (.windowWrite p .deselect) s with | .next t => State.link p [] t | o => o) = _
    rw [windowWrite_running h]
    rfl
  | b :: bs, s, h => by
    change (match exec (.windowWrite p (.shift b)) s with
      | .next t => State.link p (bs.map LinkEvent.shift ++ [LinkEvent.deselect]) t | o => o) = _
    rw [windowWrite_running h]
    exact link_bytes p bs (s.withUnits (shiftByte p b s.units)) h

theorem link_frame {p : Port} {bytes : List Byte} {s : State} (h : s.running = true) (hf : (s.units.port p).frame = none) :
    exec (.windowWrite p (.frame bytes)) s = State.link p (.select :: bytes.map LinkEvent.shift ++ [LinkEvent.deselect]) s := by
  change _ = (match exec (.windowWrite p .select) s with
    | .next t => State.link p (bytes.map LinkEvent.shift ++ [LinkEvent.deselect]) t | o => o)
  rw [windowWrite_running h, windowWrite_running h]
  refine Eq.trans ?_ (link_bytes p bytes (s.withUnits (selectFrame p s.units)) h).symm
  have hwhole : wholeFrame p bytes s.units
      = endFrame p (bytes.foldl (fun u b => shiftByte p b u) (selectFrame p s.units)) := if_neg (by simp [hf])
  exact congrArg (fun u => Host.Outcome.next (s.withUnits u)) hwhole

/-! ## A data byte (R169, R171, R172) -/

section Data
variable {x : MasterPort} {f : Frame} {b : Byte} {off : Nat}

theorem writeByte_command (x : MasterPort) (f : Frame) (b : Byte) : x.writeByte f 0 b =
    if f.beganBusy then (x, { f with collided := true }) else ({ x with command := b }, { f with command := some b }) := rfl

/-- A parameter byte is stored by its row of the table of fields (section 11.3). -/
theorem writeByte_parameter {g : Nat × (Params → Byte → Params)} (hg : g ∈ parameterFields) : x.writeByte f g.1 b =
    if f.beganBusy then (x, { f with collided := true }) else ({ x with params := g.2 x.params b }, f) := by
  have hbounds : 3 ≤ g.1 ∧ g.1 < 256 := by
    simp only [parameterFields, List.mem_cons, List.not_mem_nil, or_false] at hg
    rcases hg with rfl | rfl | rfl | rfl | rfl | rfl | rfl | rfl <;> decide
  have hwrite : x.params.write g.1 b = some (g.2 x.params b) := by
    simp only [parameterFields, List.mem_cons, List.not_mem_nil, or_false] at hg
    rcases hg with rfl | rfl | rfl | rfl | rfl | rfl | rfl | rfl <;> rfl
  rw [writeByte_low x f b hbounds.1 hbounds.2, hwrite]

/-- No parameter field lies at an offset below 4 or above 11 (section 11.3). -/
theorem write_none (q : Params) (b : Byte) (h : off < 4 ∨ 12 ≤ off) : q.write off b = none := by
  unfold Params.write
  split <;> first | omega | rfl

theorem writeByte_none (h : off = 3 ∨ 12 ≤ off ∧ off < 256 ∨ 512 ≤ off) : x.writeByte f off b = (x, f) := by
  by_cases hlow : off < 256
  · rw [writeByte_low x f b (by omega) hlow, write_none _ _ (by omega)]
  · unfold MasterPort.writeByte
    rw [if_neg (by unfold offControl; omega), if_neg (by unfold offEnables; omega), if_neg (by unfold offCommand; omega),
      if_pos (by unfold bufferBase; omega), if_pos (by unfold windowBytes; omega)]

end Data

/-! ## The end of a frame (R171 to R173) -/

section Close
variable {p : Port} {u v : Units} {f g : Frame}

theorem closeFrame_eq (x : MasterPort) (f : Frame) : x.closeFrame f = { x with
    frame := none, lastOut := f.out, collision := x.collision || f.collided,
    enDone := match f.enables with | some e => e.getLsbD 0 | none => x.enDone,
    enNotice := match f.enables with | some e => e.getLsbD 1 | none => x.enNotice } := by
  unfold MasterPort.closeFrame
  cases f.enables <;> rfl

/-- The control action of a frame, when it wrote one (R182). -/
def Frame.controls (f : Frame) (p : Port) (u : Units) : Units :=
  match f.control with
  | some b => takeControl p b u
  | none => u

/-- The command a frame takes, when it takes one (R171). -/
def Frame.commands (f : Frame) (p : Port) (u : Units) : Units :=
  match f.takes with
  | some code => takeCode p code u
  | none => u

/-- The frame-end actions in their order: the enables and the collision flag, the control action, the command (R171 to R174). -/
theorem endFrame_eq (hf : (u.port p).frame = some f) : endFrame p u
    = settle p (kick ((f.commands p (f.controls p (u.setPort p ((u.port p).closeFrame f)))).modPort p MasterPort.handedOver)) := by
  unfold endFrame
  rw [hf]
  rfl

/-- Frames that close to the same port, with the same actions, end alike. -/
theorem endFrame_congr (hf : (u.port p).frame = some f) (hg : (v.port p).frame = some g)
    (h : f.commands p (f.controls p (u.setPort p ((u.port p).closeFrame f)))
      = g.commands p (g.controls p (v.setPort p ((v.port p).closeFrame g)))) : endFrame p u = endFrame p v := by
  rw [endFrame_eq hf, endFrame_eq hg, h]

theorem takes_of_reset (h : f.control = some ctlReset) : f.takes = none := if_pos h

theorem takes_of_no_reset (h : f.control ≠ some ctlReset) : f.takes = f.command.filter (· != 0) := if_neg h

theorem takeControl_ack : takeControl p ctlAck u = u.modPort p MasterPort.ack := if_pos rfl

theorem takeControl_cancel : takeControl p ctlCancel u = takeCancel p u := rfl

/-- A control byte that names no action does nothing (R182). -/
theorem takeControl_other {b : Byte} (h : b ∉ ([1, 2, 3] : List Byte)) : takeControl p b u = u := by
  simp only [List.mem_cons, List.not_mem_nil, or_false, not_or] at h
  exact (if_neg h.1).trans ((if_neg h.2.1).trans (if_neg h.2.2))

end Close

theorem ack_mounting {x : MasterPort} (h : x.state = .mounting) : x.ack = { x with doneCause := false, collision := false } := by
  unfold MasterPort.ack
  rw [h]

/-- A command taken clears what an ACK, or a CANCEL of no command, changes (R170, R171, R173, R174). -/
theorem takeCode_after {p : Port} {k : Byte} {u : Units} {x y : MasterPort} (hx : x.state ≠ .busy)
    (hy : y = x.ack ∨ y = { x with collision := true }) :
    takeCode p k (u.setPort p y) = takeCode p k (u.setPort p x) := by
  have hstate : (y.state = .mounting ↔ x.state = .mounting) ∧ y.state ≠ .busy := by
    rcases hy with rfl | rfl
    · unfold MasterPort.ack
      split <;> simp_all
    · exact ⟨Iff.rfl, hx⟩
  have hwritten (o : Posting) : ({ y.written o with collision := false } : MasterPort)
      = if x.state = .mounting then { x.written o with collision := false }
        else { y.written o with collision := false } := by
    split
    next hm =>
      rcases hy with rfl | rfl
      · rw [ack_mounting hm]
        rfl
      · rfl
    next => rfl
  have hunknown : y.takeUnknown = x.takeUnknown := by
    rcases hy with rfl | rfl
    · unfold MasterPort.ack
      split <;> rfl
    · rfl
  have htake : ∀ c, y.take c = x.take c ∧ y.params = x.params := fun c => by
    rcases hy with rfl | rfl
    · unfold MasterPort.ack
      split <;> exact ⟨rfl, rfl⟩
    · exact ⟨rfl, rfl⟩
  unfold takeCode
  simp only [Units.port_setPort_self, Units.modPort_eq, Units.setPort_setPort]
  cases hm : x.state with
  | mounting =>
    rw [hstate.1.2 hm]
    have := hwritten (mountingAnswer k u)
    rw [if_pos hm] at this
    exact congrArg (u.setPort p) this
  | busy => exact absurd hm hx
  | ready | done =>
    have hy' : y.state ≠ .mounting := fun h => by simp [hstate.1.1 h] at hm
    cases hys : y.state with
    | mounting => exact absurd hys hy'
    | busy => exact absurd hys hstate.2
    | ready | done =>
      cases hc : Cmd.ofCode k with
      | none => simp only [hunknown]
      | some c =>
        simp only [takeCmd, Units.port_setPort_self, Units.modPort_eq, Units.setPort_setPort, (htake c).1, (htake c).2]

end Sys2Proof.Machine
end

section
/-! SUPPORT. The statements about the link of a port (R167 to R173, R175, R182): events, bytes written and read, and the actions
at the end of a frame. -/

namespace Sys2Proof.Machine

/-! ## The end of a frame with one action -/

section Ends
variable {p : Port} {s : State} {f : Frame}

/-- The port a frame closes to, in the row of its end. -/
theorem deselect_running (h : s.running = true) :
    exec (.windowWrite p .deselect) s = .next (s.withUnits (endFrame p s.units)) := windowWrite_running h

/-- A frame whose end leaves a port that neither drains nor has a hand-over to take, the Writer steady. -/
theorem deselect_ends (h : s.running = true) (hf : (s.units.port p).frame = some f) (hw : s.writerSteady) {y : MasterPort}
    (hy : f.commands p (f.controls p (s.units.setPort p ((s.units.port p).closeFrame f))) = s.units.setPort p y)
    (hh : y.handOver = false) (hd : y.draining = false) :
    exec (.windowWrite p .deselect) s = .next (s.withUnits (s.units.setPort p y)) := by
  rw [deselect_running h, endFrame_eq hf, hy,
    frameEnd_steady (u := s.units.setPort p y) (by simpa using hh) (by simpa using hd) hw]

/-- Two frames in hand with the same actions, over ports that close alike, end alike. -/
theorem deselect_congr (h : s.running = true) (hf : (s.units.port p).frame = some f) {g : Frame}
    (hcl : (s.units.port p).closeFrame f = ({ s.units.port p with frame := some g } : MasterPort).closeFrame g)
    (hact : f.commands p (f.controls p (s.units.setPort p ((s.units.port p).closeFrame f)))
      = g.commands p (g.controls p (s.units.setPort p ((s.units.port p).closeFrame f)))) :
    exec (.windowWrite p .deselect) s
      = exec (.windowWrite p .deselect) (s.withUnits (s.units.setPort p { s.units.port p with frame := some g })) := by
  rw [deselect_running h, deselect_running (by exact h)]
  refine congrArg (fun u => Host.Outcome.next (s.withUnits u)) (endFrame_congr hf (g := g) (by simp) ?_)
  rw [State.units_withUnits, Units.port_setPort_self, Units.setPort_setPort, ← hcl]
  exact hact

theorem commands_none (h : f.takes = none) (u : Units) : f.commands p u = u := by
  unfold Frame.commands
  rw [h]

theorem takes_none_of_command (h : f.command = none ∨ f.command = some 0) : f.takes = none := by
  unfold Frame.takes
  split
  · rfl
  · rcases h with h | h <;> rw [h] <;> rfl

theorem commands_congr {g : Frame} (h : f.takes = g.takes) (u : Units) : f.commands p u = g.commands p u := by
  unfold Frame.commands
  rw [h]

theorem takes_some {k : Byte} (hk : f.command = some k) (h0 : k ≠ 0) (hc : f.control ≠ some ctlReset) : f.takes = some k := by
  rw [takes_of_no_reset hc, hk]
  exact (Option.filter_eq_some_iff).2 ⟨rfl, by simpa using h0⟩

theorem commands_some {k : Byte} (h : f.takes = some k) (u : Units) : f.commands p u = takeCode p k u := by
  unfold Frame.commands
  rw [h]

/-- The frame of a code written alone, when its byte has been shifted. -/
def Frame.code (k st : Byte) : Frame := ⟨.data true 1, false, false, some k, none, none, st, [st, 0]⟩

/-- It closes to the port with the code in COMMAND. -/
theorem closeFrame_code {x : MasterPort} {k st : Byte} (hf : x.frame = none) :
    ({ x with command := k, frame := some (Frame.code k st) } : MasterPort).closeFrame (Frame.code k st)
      = { x with command := k, lastOut := [st, 0] } := by
  rw [closeFrame_eq]
  simp only [Frame.code, Bool.or_false]
  rw [← hf]

/-- A code written alone to a port between frames that is not BUSY: the code in COMMAND, then taken (R171, log 8). -/
theorem codeFrame_end {k : Byte} {u : Units} (hf : (u.port p).frame = none) (ho : (u.port p).outcome = none)
    (hb : (u.port p).state ≠ .busy) (h0 : k ≠ 0) :
    writeFrame p 0x00 k u = settle p (kick ((takeCode p k (u.setPort p
      { u.port p with command := k, lastOut := [statusByte p u, 0] })).modPort p MasterPort.handedOver)) := by
  have hbusy : ((u.port p).state == .busy) = false := by simpa using hb
  have hwrite : writeFrame p 0x00 k u
      = endFrame p (u.setPort p { u.port p with command := k, frame := some (Frame.code k (statusByte p u)) }) := by
    rw [writeFrame_eq hf ho, hbusy]
    rfl
  have htakes : (Frame.code k (statusByte p u)).takes = some k := takes_some rfl h0 (by simp [Frame.code])
  rw [hwrite, endFrame_eq (f := Frame.code k (statusByte p u)) (by simp), Units.port_setPort_self, Units.setPort_setPort,
    closeFrame_code hf, commands_some htakes]
  rfl

end Ends

/-- Settles O18: an event's rule each, and the end of a frame by what it wrote. -/
theorem linkEventsMakeFrames : Obligations.LinkEventsMakeFrames := by
  unfold Obligations.LinkEventsMakeFrames
  intro p b bytes s h
  refine ⟨?select, ?outside, ?first, ?second, fun hf => link_frame h hf, ?written, ?read, ?ends⟩
  case select => intro hf ho; rw [windowWrite_running h]; simp only [linkEvent, selectFrame_eq hf ho]
  case outside =>
    intro hf
    rw [windowWrite_running h, windowWrite_running h]
    simp only [linkEvent, shiftByte_outside hf, endFrame_outside hf]
    exact ⟨rfl, rfl⟩
  case first => intro f hf hp; rw [windowWrite_running h]; simp only [linkEvent, shiftByte_first hf hp]
  case second => intro f b0 hf hp; rw [windowWrite_running h]; simp only [linkEvent, shiftByte_second hf hp]
  case read => intro f off hf hp; rw [windowWrite_running h]; simp only [linkEvent, shiftByte_readData hf hp]
  case written =>
    intro f off hf hp
    dsimp only
    have row : exec (.windowWrite p (.shift b)) s = .next (s.withUnits (s.units.setPort p
        { ((s.units.port p).writeByte f off b).1 with
          frame := some { ((s.units.port p).writeByte f off b).2 with phase := .data true (off + 1) } })) := by
      rw [windowWrite_running h]
      simp only [linkEvent, shiftByte_write b hf hp]
    rw [row]
    refine ⟨?command, ?control, ?enables, ?parameter, ?buffer, ?none⟩
    case command => rintro rfl; rw [writeByte_command]; split <;> rfl
    case control => rintro rfl; rfl
    case enables => rintro rfl; rfl
    case parameter => rintro g hg rfl; rw [writeByte_parameter hg]; split <;> rfl
    case buffer => intro h1 h2; rw [writeByte_buffer _ _ _ h1 h2]; split <;> rfl
    case none => intro ho; rw [writeByte_none ho]
  case ends =>
    intro f hf hd hh hw x closed ends endsAs
    have hcl : closed = x.closeFrame f := (closeFrame_eq x f).symm
    clear_value closed
    subst hcl
    dsimp only [ends, endsAs, x]
    have hclosed : ((s.units.port p).closeFrame f).handOver = false ∧ ((s.units.port p).closeFrame f).draining = false := by
      rw [closeFrame_eq]; exact ⟨hh, hd⟩
    refine ⟨?post, fun hcmd => ⟨fun hc => ?plain, fun hc => ?ack⟩, fun hc => ?reset, fun c hc hn => ?other,
      fun k hk h0 hb => ⟨fun hc => ?dropped, fun hc hcol hout hcode ho => ?alone⟩⟩
    case post =>
      have hpost : postResult p s.units = s.units := by
        unfold postResult
        rw [Units.modPort_eq, hf]
        split
        next => contradiction
        next => exact Units.setPort_port _ _
      exact (onUnits_running h).trans (by rw [hpost]; rfl)
    case plain =>
      refine deselect_ends h hf hw ?_ hclosed.1 hclosed.2
      rw [commands_none (takes_none_of_command hcmd)]
      unfold Frame.controls
      rw [hc]
    case ack =>
      have hack : f.commands p (f.controls p (s.units.setPort p ((s.units.port p).closeFrame f)))
          = s.units.setPort p ((s.units.port p).closeFrame f).ack := by
        rw [commands_none (takes_none_of_command hcmd)]
        unfold Frame.controls
        rw [hc]
        exact takeControl_ack.trans (by simp [Units.modPort_eq])
      have hstate : ((s.units.port p).closeFrame f).state = (s.units.port p).state := by rw [closeFrame_eq]
      refine (deselect_ends h hf hw hack ?_ ?_).trans ?_
      · unfold MasterPort.ack; split <;> exact hclosed.1
      · unfold MasterPort.ack; split <;> exact hclosed.2
      · cases hst : (s.units.port p).state <;> simp only [MasterPort.ack, hstate, hst]
    case reset =>
      refine deselect_congr h hf (by rw [closeFrame_eq, closeFrame_eq]) ?_
      rw [commands_none (takes_of_reset hc), commands_none (takes_of_reset (by exact hc))]
      rfl
    case other =>
      have hne : f.control ≠ some ctlReset := by
        rw [hc]
        rintro ⟨⟩
        exact hn (by decide)
      refine deselect_congr h hf (by rw [closeFrame_eq, closeFrame_eq]) ?_
      have hctl : f.controls p (s.units.setPort p ((s.units.port p).closeFrame f))
          = s.units.setPort p ((s.units.port p).closeFrame f) := by
        unfold Frame.controls
        rw [hc]
        exact takeControl_other hn
      rw [hctl]
      exact commands_congr (by rw [takes_of_no_reset hne, takes_of_no_reset (by simp)]) _
    case dropped =>
      have hne : f.control ≠ some ctlReset := by rcases hc with hc | ⟨hc, -⟩ <;> rw [hc] <;> decide
      refine deselect_congr h hf (by rw [closeFrame_eq, closeFrame_eq]) ?_
      rw [commands_some (takes_some hk h0 hne), commands_some (f := { f with control := none }) (takes_some hk h0 (by simp))]
      have hstate : ((s.units.port p).closeFrame f).state ≠ .busy := by rw [closeFrame_eq]; exact hb
      rcases hc with hc | ⟨hc, hin⟩
      · have hctl : f.controls p (s.units.setPort p ((s.units.port p).closeFrame f))
            = s.units.setPort p ((s.units.port p).closeFrame f).ack := by
          unfold Frame.controls
          rw [hc]
          exact takeControl_ack.trans (by simp [Units.modPort_eq])
        rw [hctl]
        exact takeCode_after hstate (.inl rfl)
      · have hctl : f.controls p (s.units.setPort p ((s.units.port p).closeFrame f))
            = s.units.setPort p { (s.units.port p).closeFrame f with collision := true } := by
          have hin' : ((s.units.port p).closeFrame f).inHand = none := by rw [closeFrame_eq]; exact hin
          unfold Frame.controls
          rw [hc]
          refine takeControl_cancel.trans ?_
          unfold takeCancel
          rw [Units.port_setPort_self, hin']
          simp [collide, Units.modPort_eq]
        rw [hctl]
        exact takeCode_after hstate (.inr rfl)
    case alone =>
      have hne : f.control ≠ some ctlReset := by simp [hc]
      have hself : (s.units.setPort p ((s.units.port p).closeFrame f)).port p = (s.units.port p).closeFrame f :=
        Units.port_setPort_self _ _ _
      have hfields : ((s.units.port p).closeFrame f).frame = none ∧ ((s.units.port p).closeFrame f).outcome = none
          ∧ ((s.units.port p).closeFrame f).state ≠ .busy ∧ ((s.units.port p).closeFrame f).command = k
          ∧ ((s.units.port p).closeFrame f).lastOut
            = [statusByte p (s.units.setPort p ((s.units.port p).closeFrame f)), 0] := by
        unfold statusByte
        rw [hself, closeFrame_eq, hcol, Bool.or_false]
        exact ⟨rfl, ho, hb, hcode, hout⟩
      obtain ⟨hframe, houtcome, hbusy, hcommand, hlast⟩ := hfields
      have hend : exec (.windowWrite p .deselect) s
          = onFrame p 0x00 k (s.withUnits (s.units.setPort p ((s.units.port p).closeFrame f))) := by
        rw [deselect_running h, onFrame_running (by exact h), endFrame_eq hf, commands_some (takes_some hk h0 hne)]
        have hstands : ({ (s.units.port p).closeFrame f with
            command := k, lastOut := [statusByte p (s.units.setPort p ((s.units.port p).closeFrame f)), 0] } : MasterPort)
            = (s.units.port p).closeFrame f := by rw [← hlast, ← hcommand]
        have hcodeEnd := codeFrame_end (p := p) (u := s.units.setPort p ((s.units.port p).closeFrame f)) (by rwa [hself])
          (by rwa [hself]) (by rwa [hself]) h0
        rw [hself, hstands, Units.setPort_setPort] at hcodeEnd
        unfold Frame.controls
        rw [hc, State.units_withUnits, hcodeEnd]
        rfl
      refine ⟨fun c hkc => ?_, fun _ => hend⟩
      rw [hend, hkc]
      cases c <;> rfl

end Sys2Proof.Machine
end

section
/-! SUPPORT. The statements about the bytes of the window and the rows at a port between frames (R122, R168 to R173, R175,
R180, R182). -/

namespace Sys2Proof.Machine

/-! ## A frame of one data byte -/

section DataFrame
variable {p : Port} {s : State} {b0 off b : Byte}

/-- The frame in hand when its two address bytes have been shifted (R168). -/
def Frame.addressed (isWrite : Bool) (off : Nat) (busy : Bool) (st : Byte) : Frame :=
  ⟨.data isWrite off, busy, false, none, none, none, st, [st, 0]⟩

theorem writeByte_frame (x : MasterPort) (f : Frame) (a : Nat) (b : Byte) (g : Option Frame) :
    ({ x with frame := g } : MasterPort).writeByte f a b
      = ({ (x.writeByte f a b).1 with frame := g }, (x.writeByte f a b).2) := by
  unfold MasterPort.writeByte
  split
  · rfl
  split
  · rfl
  split
  · split <;> rfl
  split
  · split
    · rfl
    · split <;> rfl
  · cases x.params.write a b with
    | none => rfl
    | some q => cases f.beganBusy <;> rfl

/-- A write frame that writes neither the code nor a control action. -/
theorem writeFrame_data (h : Quiet p s) {a : Nat} (ha : (if b0.getLsbD 0 then 256 else 0) + off.toNat = a)
    (hw : b0.getLsbD 7 = true) {y : MasterPort} {f : Frame}
    (hy : (s.units.port p).writeByte (Frame.addressed true a ((s.units.port p).state == .busy) (statusByte p s.units)) a b = (y, f))
    (hc : f.control = none) (hm : f.command = none) (hh : y.handOver = false) (hd : y.draining = false) :
    exec (.windowWrite p (.frame [b0, off, b])) s = .next (s.withUnits (s.units.setPort p (y.closeFrame f))) := by
  rw [windowWrite_running h.running]
  have hfold : [b0, off, b].foldl (fun u b => shiftByte p b u) (selectFrame p s.units)
      = s.units.setPort p { y with frame := some { f with phase := .data true (a + 1) } } := by
    rw [List.foldl_cons, List.foldl_cons, List.foldl_cons, List.foldl_nil, frame_addressed b0 off h.noFrame h.noOutcome, hw, ha]
    rw [shiftByte_write (f := Frame.addressed true a ((s.units.port p).state == .busy) (statusByte p s.units)) b
      (by simp [Frame.addressed]) rfl, Units.port_setPort_self, Units.setPort_setPort]
    rw [writeByte_frame, hy]
  have hclose : ({ y with frame := some { f with phase := .data true (a + 1) } } : MasterPort).closeFrame
      { f with phase := .data true (a + 1) } = y.closeFrame f := by rw [closeFrame_eq, closeFrame_eq]
  have hwhole := wholeFrame_plain h hfold rfl hc hm hh hd
  rw [hclose] at hwhole
  exact congrArg (fun u => Host.Outcome.next (s.withUnits u)) hwhole

/-- The port a frame in which nothing else was written closes to. -/
theorem closeFrame_addressed {x : MasterPort} {a : Nat} {busy : Bool} {st : Byte} (hf : x.frame = none) :
    x.closeFrame (Frame.addressed true a busy st) = { x with lastOut := [st, 0] } := by
  rw [closeFrame_eq]
  simp only [Frame.addressed, Bool.or_false]
  rw [← hf]

theorem closeFrame_collided {x : MasterPort} {a : Nat} {busy : Bool} {st : Byte} (hf : x.frame = none) :
    x.closeFrame { Frame.addressed true a busy st with collided := true } = { x with collision := true, lastOut := [st, 0] } := by
  rw [closeFrame_eq]
  simp only [Frame.addressed, Bool.or_true]
  rw [← hf]

/-- A byte that a port stores between frames, and that a BUSY one discards with a collision (R169, R172). -/
theorem writeFrame_stored (h : Quiet p s) {a : Nat} (ha : (if b0.getLsbD 0 then 256 else 0) + off.toNat = a)
    (hw : b0.getLsbD 7 = true) {y : MasterPort}
    (hy : ∀ f : Frame, (s.units.port p).writeByte f a b
      = if f.beganBusy then (s.units.port p, { f with collided := true }) else (y, f))
    (hn : y.frame = none) (hh : y.handOver = false) (hd : y.draining = false) :
    exec (.windowWrite p (.frame [b0, off, b])) s = .next (s.withUnits (s.units.setPort p
      (if (s.units.port p).state = .busy then { s.units.port p with collision := true, lastOut := s.statusOut p }
       else { y with lastOut := s.statusOut p }))) := by
  by_cases hb : (s.units.port p).state = .busy
  · have hbusy : ((s.units.port p).state == .busy) = true := by simpa using hb
    have hrow := writeFrame_data h ha hw (b := b) (by rw [hy, Frame.addressed, hbusy]; rfl) rfl rfl h.handed h.steady
    rw [hrow, if_pos hb]
    exact congrArg (fun z => Host.Outcome.next (s.withUnits (s.units.setPort p z))) (closeFrame_collided h.noFrame)
  · have hbusy : ((s.units.port p).state == .busy) = false := by simpa using hb
    have hrow := writeFrame_data h ha hw (b := b) (by rw [hy, Frame.addressed, hbusy]; rfl) rfl rfl hh hd
    rw [hrow, if_neg hb]
    exact congrArg (fun z => Host.Outcome.next (s.withUnits (s.units.setPort p z))) (closeFrame_addressed hn)

/-- A read frame of one data byte (R168). -/
theorem readFrame_data (h : Quiet p s) {a : Nat} (ha : (if b0.getLsbD 0 then 256 else 0) + off.toNat = a) (hlt : a < 512)
    (hw : b0.getLsbD 7 = false) : exec (.windowWrite p (.frame [b0, off, b])) s
      = .next (s.withUnits (s.sentBack p (s.statusOut p ++ [(s.units.port p).windowByte a]))) := by
  rw [windowWrite_running h.running]
  have hfold : [b0, off, b].foldl (fun u b => shiftByte p b u) (selectFrame p s.units)
      = s.units.setPort p { s.units.port p with frame := some ⟨.data false (a + 1), (s.units.port p).state == .busy, false,
          none, none, none, statusByte p s.units, s.statusOut p ++ [(s.units.port p).windowByte a]⟩ } := by
    rw [List.foldl_cons, List.foldl_cons, List.foldl_cons, List.foldl_nil, frame_addressed b0 off h.noFrame h.noOutcome, hw, ha]
    rw [shiftByte_read (f := Frame.addressed false a ((s.units.port p).state == .busy) (statusByte p s.units)) b
      (by simp [Frame.addressed]) rfl hlt, Units.port_setPort_self, Units.setPort_setPort]
    rfl
  have hclose : ∀ g : Frame, g.collided = false → g.enables = none →
      ({ s.units.port p with frame := some g } : MasterPort).closeFrame g = { s.units.port p with lastOut := g.out } := by
    intro g hg he
    rw [closeFrame_eq, hg, he]
    simp only [Bool.or_false]
    rw [← h.noFrame]
  have hwhole := wholeFrame_plain h hfold rfl rfl rfl h.handed h.steady
  rw [hclose _ rfl rfl] at hwhole
  exact congrArg (fun u => Host.Outcome.next (s.withUnits u)) hwhole

end DataFrame

theorem toNat_ofNat_byte {k : Nat} (h : k < 256) : (BitVec.ofNat 8 k).toNat = k := by
  rw [BitVec.toNat_ofNat]
  exact Nat.mod_eq_of_lt h

/-- Settles O19: the byte's rule at its offset, in a frame that writes it alone. -/
theorem windowWriteStoresOneByte : Obligations.WindowWriteStoresOneByte := by
  unfold Obligations.WindowWriteStoresOneByte
  intro p b s h
  refine ⟨fun k hk => ?buffer, fun f hf => ?parameter, fun off ho => ?discarded⟩
  case buffer =>
    refine writeFrame_stored h (b0 := 0x81) (a := 256 + k)
      (y := { s.units.port p with buffer := (s.units.port p).buffer.set k b }) (by rw [toNat_ofNat_byte hk]; rfl) (by decide)
      (fun f => ?_) h.noFrame h.handed h.steady
    rw [writeByte_buffer _ _ _ (by omega) (by omega), Nat.add_sub_cancel_left]
  case parameter =>
    have hbound : f.1 < 256 := by
      simp only [parameterFields, List.mem_cons, List.not_mem_nil, or_false] at hf
      rcases hf with rfl | rfl | rfl | rfl | rfl | rfl | rfl | rfl <;> decide
    exact writeFrame_stored h (b0 := 0x80) (a := f.1)
      (y := { s.units.port p with params := f.2 (s.units.port p).params b }) (by rw [toNat_ofNat_byte hbound]; exact Nat.zero_add _) (by decide)
      (fun g => writeByte_parameter hf) h.noFrame h.handed h.steady
  case discarded =>
    have hrow := writeFrame_data h (b0 := 0x80) (off := BitVec.ofNat 8 off) (b := b) (a := off)
      (by rw [toNat_ofNat_byte (by omega)]; exact Nat.zero_add _) (by decide) (writeByte_none (by omega)) rfl rfl h.handed h.steady
    rw [hrow]
    exact congrArg (fun z => Host.Outcome.next (s.withUnits (s.units.setPort p z))) (closeFrame_addressed h.noFrame)

/-! ## The bytes a master reads (R168, R169, R180, R182) -/

theorem statusByte_bits (p : Port) (u : Units) : statusByte p u =
    ((match (u.port p).state with | .mounting => 0 | .ready => 1 | .busy => 2 | .done => 3 : BitVec 2) ++ (0 : BitVec 3)
      ++ BitVec.ofBool (u.port p).doneCause ++ BitVec.ofBool (decide ((u.notices p).queue ≠ []))
      ++ BitVec.ofBool (u.port p).collision) := by
  have hn : noticeCause p u = decide ((u.notices p).queue ≠ []) := by
    unfold noticeCause
    cases (u.notices p).queue <;> rfl
  unfold statusByte
  rw [hn]
  cases (u.port p).state <;> cases (u.port p).doneCause <;> cases decide ((u.notices p).queue ≠ []) <;>
    cases (u.port p).collision <;> rfl

theorem hiByte_eq (h : Half) : hiByte h = BitVec.ofNat 8 (h.toNat / 256) := by
  apply BitVec.eq_of_toNat_eq
  simp [hiByte, Nat.shiftRight_eq_div_pow]

theorem loByte_eq (h : Half) : loByte h = BitVec.ofNat 8 (h.toNat % 256) := by
  apply BitVec.eq_of_toNat_eq
  simp [loByte]

/-- The four bytes of a word are those of its two halves (R180). -/
theorem wordBytes_eq (w : Word) :
    (w >>> 24).setWidth 8 = BitVec.ofNat 8 ((BitVec.ofNat 16 (w.toNat / 65536)).toNat / 256)
    ∧ (w >>> 16).setWidth 8 = BitVec.ofNat 8 ((BitVec.ofNat 16 (w.toNat / 65536)).toNat % 256)
    ∧ (w >>> 8).setWidth 8 = BitVec.ofNat 8 ((BitVec.ofNat 16 (w.toNat % 65536)).toNat / 256)
    ∧ w.setWidth 8 = BitVec.ofNat 8 ((BitVec.ofNat 16 (w.toNat % 65536)).toNat % 256) := by
  have hw := w.isLt
  refine ⟨?_, ?_, ?_, ?_⟩ <;> apply BitVec.eq_of_toNat_eq <;>
    simp only [BitVec.toNat_setWidth, BitVec.toNat_ushiftRight, BitVec.toNat_ofNat, Nat.shiftRight_eq_div_pow] <;> omega

/-- No field lies from 0x031 to 0x0FF (section 11.3). -/
theorem windowByte_none (x : MasterPort) {off : Nat} (h1 : 0x31 ≤ off) (h2 : off < 256) : x.windowByte off = 0 := by
  unfold MasterPort.windowByte
  rw [if_neg (by unfold bufferBase; omega)]
  split <;> first | omega | rfl

theorem windowByte_buffer (x : MasterPort) (k : Nat) : x.windowByte (256 + k) = x.buffer.getD k 0 := by
  unfold MasterPort.windowByte
  rw [if_pos (by unfold bufferBase; omega), show 256 + k - bufferBase = k from Nat.add_sub_cancel_left 256 k]

/-- The bytes below 0x031, one by one (section 11.3). -/
theorem windowBytes_fields (x : MasterPort) : (List.range 0x31).map x.windowByte
    = [x.command, 0, BitVec.ofNat 8 ((if x.enDone then 1 else 0) + (if x.enNotice then 2 else 0)), 0, x.params.slot, x.params.flags]
      ++ [hiByte x.params.key, loByte x.params.key] ++ [x.params.length, x.params.offset, x.params.part, x.params.source]
      ++ List.replicate 20 (0 : Byte)
      ++ [x.results.code, x.results.recLength, x.results.count, x.results.cells, x.results.flags, x.results.lost]
      ++ [hiByte x.results.txn, loByte x.results.txn]
      ++ [(x.results.gen >>> 24).setWidth 8, (x.results.gen >>> 16).setWidth 8, (x.results.gen >>> 8).setWidth 8,
          x.results.gen.setWidth 8]
      ++ [hiByte x.results.lease, loByte x.results.lease] ++ [x.results.watchPart, x.results.source, x.results.copy] := by
  have hen : BitVec.ofNat 8 ((if x.enDone then 1 else 0) + (if x.enNotice then 2 else 0))
      = ((if x.enDone then 1 else 0) ||| (if x.enNotice then 2 else 0) : Byte) := by
    cases x.enDone <;> cases x.enNotice <;> rfl
  rw [hen]
  rfl

theorem map_range_add {α : Type} (f : Nat → α) (m n : Nat) :
    (List.range (m + n)).map f = (List.range m).map f ++ (List.range n).map fun k => f (m + k) := by
  rw [List.range_add, List.map_append, List.map_map]
  rfl

theorem map_getD_range {α : Type} (l : List α) (d : α) : (List.range l.length).map (fun k => l.getD k d) = l := by
  apply List.ext_getElem
  · simp
  · intro i h1 h2
    simp [List.getD_eq_getElem?_getD, h2]

/-- Settles O20: a read frame's byte, the bits of the status byte, and the window field by field. -/
theorem windowReadSendsBack : Obligations.WindowReadSendsBack := by
  unfold Obligations.WindowReadSendsBack
  refine ⟨fun p b s k h hk => ⟨?low, ?high⟩, statusByte_bits, fun x hx => ?window⟩
  case low =>
    exact readFrame_data h (by rw [toNat_ofNat_byte hk]; exact Nat.zero_add _) (by omega) (by decide)
  case high =>
    rw [← windowByte_buffer]
    exact readFrame_data h (by rw [toNat_ofNat_byte hk]; rfl) (by omega) (by decide)
  case window =>
    obtain ⟨hw3, hw2, hw1, hw0⟩ := wordBytes_eq x.results.gen
    have hgap : (List.range 207).map (fun k => x.windowByte (0x31 + k)) = List.replicate 207 0 := by
      rw [List.eq_replicate_iff]
      refine ⟨by simp, fun b hb => ?_⟩
      obtain ⟨k, hk, rfl⟩ := List.mem_map.1 hb
      have := List.mem_range.1 hk
      exact windowByte_none x (by omega) (by omega)
    have hbuffer : (List.range 256).map (fun k => x.windowByte (256 + k)) = x.buffer := by
      simp only [windowByte_buffer]
      rw [← hx]
      exact map_getD_range _ _
    rw [show 512 = 0x31 + 207 + 256 from rfl, map_range_add, map_range_add, windowBytes_fields, hgap]
    refine (congrArg _ hbuffer).trans ?_
    rw [hw3, hw2, hw1, hw0]
    simp only [hiByte_eq, loByte_eq, List.append_assoc, List.cons_append, List.nil_append]

/-! ## ACK, the enables and posting (R173, R175) -/

/-- A control action that leaves a port which neither drains nor has a hand-over to take, and no other work. -/
theorem controlFrame_port {p : Port} {s : State} (h : Quiet p s) {b : Byte} {y : MasterPort}
    (hy : takeControl p b (s.sentBack p (s.statusOut p)) = s.units.setPort p y) (hh : y.handOver = false)
    (hd : y.draining = false) : onFrame p 0x01 b s = .next (s.withUnits (s.units.setPort p y)) := by
  rw [onFrame_running h.running, controlFrame_quiet h, hy,
    frameEnd_steady (u := s.units.setPort p y) (by simpa using hh) (by simpa using hd) h.writer]

theorem sentBack_port (s : State) (p : Port) (out : List Byte) :
    (s.sentBack p out).port p = { s.units.port p with lastOut := out } := Units.port_setPort_self _ _ _

theorem attnAsserted_iff {s : State} {p : Port} (h : s.running = true) : s.attnAsserted p = true ↔
    ((s.units.port p).doneCause = true ∧ (s.units.port p).enDone = true)
    ∨ ((s.units.notices p).queue ≠ [] ∧ (s.units.port p).enNotice = true) := by
  unfold State.attnAsserted attentionAsserted noticeCause
  rw [h]
  cases (s.units.notices p).queue <;> simp

/-- Settles O21: an ACK by the state of the port, and the enables at the end of their frame. -/
theorem ackAndEnablesTake : Obligations.AckAndEnablesTake := by
  unfold Obligations.AckAndEnablesTake
  intro p value s h
  refine ⟨?ack, _, ?enables, rfl, ?attn⟩
  case ack =>
    have hack : takeControl p ctlAck (s.sentBack p (s.statusOut p))
        = s.units.setPort p ({ s.units.port p with lastOut := s.statusOut p } : MasterPort).ack := by
      rw [takeControl_ack, Units.modPort_eq, sentBack_port, State.sentBack, Units.setPort_setPort]
    have hfields : ∀ x : MasterPort, x.ack.handOver = x.handOver ∧ x.ack.draining = x.draining := fun x => by
      unfold MasterPort.ack
      split <;> exact ⟨rfl, rfl⟩
    refine (controlFrame_port h hack ((hfields _).1.trans h.handed) ((hfields _).2.trans h.steady)).trans ?_
    cases hst : (s.units.port p).state <;> simp only [MasterPort.ack, hst]
  case enables =>
    have hrow := writeFrame_data h (b0 := 0x80) (off := 0x02) (b := value) (a := 2) rfl (by decide) rfl rfl rfl h.handed h.steady
    refine hrow.trans (congrArg (fun z => Host.Outcome.next (s.withUnits (s.units.setPort p z))) ?_)
    rw [closeFrame_eq]
    simp only [Frame.addressed, Bool.or_false]
    rw [← h.noFrame]
    rfl
  case attn =>
    rw [attnAsserted_iff (by exact h.running)]
    simp

/-- Settles O24: an outcome is posted between frames, over the start of the buffer. -/
theorem resultPostTakes : Obligations.ResultPostTakes := by
  unfold Obligations.ResultPostTakes
  intro p s h
  have hrow : exec (.resultPost p) s = .next (s.withUnits (postResult p s.units)) := onUnits_running h
  have hsame : s.withUnits s.units = s := rfl
  refine ⟨fun o ho hf => ?posted, fun ho => ?none, fun hf => ?within⟩
  case posted =>
    rw [hrow]
    unfold postResult
    rw [Units.modPort_eq, ho, hf]
    simp only [MasterPort.post, MasterPort.written, overlay, List.length_take]
    rw [← hf]
  case none => rw [hrow, postResult_none ho, hsame]
  case within =>
    obtain ⟨f, hf⟩ := Option.ne_none_iff_exists'.1 hf
    have hpost : postResult p s.units = s.units := by
      unfold postResult
      rw [Units.modPort_eq, hf]
      split
      next => contradiction
      next => exact Units.setPort_port _ _
    rw [hrow, hpost, hsame]

/-! ## Ports that take no command (R122, R171, R172) -/

theorem ofCode_none {code : Byte} (h : commandCodes.contains code = false) : Cmd.ofCode code = none := by
  have hcodes : allCmds.map Cmd.code = commandCodes := by decide
  unfold Cmd.ofCode
  rw [List.find?_eq_none]
  intro c hc heq
  have hmem : code ∈ commandCodes := by
    rw [← hcodes, ← beq_iff_eq.1 heq]
    exact List.mem_map_of_mem hc
  rw [← List.contains_iff_mem, h] at hmem
  cases hmem

theorem row_eq (c : Cmd) (p : Port) (s : State) : exec (c.row p) s = onFrame p 0x00 c.code s := by cases c <;> rfl

theorem code_ne_zero (c : Cmd) : c.code ≠ 0 := by cases c <;> decide

/-- A MOUNTING port answers in the event in which the code is taken (R122, R170). -/
theorem mounting_row {p : Port} {s : State} (h : Quiet p s) (hm : (s.units.port p).state = .mounting) {k : Byte} (h0 : k ≠ 0)
    {o : Posting} (ho : mountingAnswer k s.units = o) (hlen : o.data.length ≤ 256) :
    onFrame p 0x00 k s = .next (s.withUnits (s.units.setPort p { s.units.port p with
      command := k, results := o.fields, buffer := o.data ++ (s.units.port p).buffer.drop o.data.length, doneCause := true,
      collision := false, inHand := none, lastOut := s.statusOut p })) := by
  let y : MasterPort := { s.units.port p with command := k, lastOut := [statusByte p s.units, 0] }
  have htake : takeCode p k (s.units.setPort p y) = s.units.setPort p { y.written o with collision := false } := by
    have hym : ((s.units.setPort p y).port p).state = .mounting := by rw [Units.port_setPort_self]; exact hm
    have hanswer : mountingAnswer k (s.units.setPort p y) = o := ho
    unfold takeCode
    rw [hym]
    simp only [Units.modPort_eq, Units.port_setPort_self, Units.setPort_setPort, hanswer]
  rw [onFrame_running h.running, codeFrame_end h.noFrame h.noOutcome (by simp [hm]) h0, htake,
    frameEnd_steady (u := s.units.setPort p _) (by rw [Units.port_setPort_self]; exact h.handed)
      (by rw [Units.port_setPort_self]; exact h.steady) h.writer]
  refine congrArg (fun z => Host.Outcome.next (s.withUnits (s.units.setPort p z))) ?_
  simp only [MasterPort.written, overlay, List.take_of_length_le hlen, y]
  rw [← h.noOutcome]
  rfl

/-- Settles O25: a MOUNTING port by what its code stands for; a BUSY one discards the byte. -/
theorem mountingAndBusyPorts : Obligations.MountingAndBusyPorts := by
  unfold Obligations.MountingAndBusyPorts
  intro p s h
  dsimp only
  refine ⟨fun hm => ⟨fun c hc => ?notReady, ?info, fun code hcode => ?unknown⟩, fun hb => ?busy⟩
  case notReady =>
    have ho : mountingAnswer c.code s.units = Posting.code .notReady := by
      unfold mountingAnswer
      rw [ofCode_code]
      cases c <;> first | rfl | exact absurd rfl hc
    rw [row_eq]
    exact mounting_row h hm (code_ne_zero c) ho (by decide)
  case info => 
    exact mounting_row h hm (code_ne_zero .info) (o := infoOutcome (mountingRecord s.units.me)) rfl
      (by simp [infoOutcome, mountingRecord, MountEngine.counts, toBytes])
  case unknown =>
    simp only [Instr.wf, Bool.and_eq_true, Bool.not_eq_true', bne_iff_ne] at hcode
    have ho : mountingAnswer code s.units = Posting.code .unknownCommand := by
      unfold mountingAnswer
      rw [ofCode_none hcode.2]
    exact mounting_row h hm hcode.1 ho (by decide)
  case busy =>
    have hrow : ∀ code, onFrame p 0x00 code s = .next (s.withUnits (s.units.setPort p
        { s.units.port p with collision := true, lastOut := s.statusOut p })) := by
      intro code
      have hbusy : ((s.units.port p).state == .busy) = true := by simpa using hb
      have hdata := writeFrame_data h (b0 := 0x80) (off := 0x00) (b := code) (a := 0) rfl (by decide)
        (by rw [writeByte_command, Frame.addressed, hbusy]; rfl) rfl rfl h.handed h.steady
      refine hdata.trans (congrArg (fun z => Host.Outcome.next (s.withUnits (s.units.setPort p z))) ?_)
      exact closeFrame_collided h.noFrame
    exact ⟨fun c => (row_eq c p s).trans (hrow _), hrow⟩

end Sys2Proof.Machine
end


section
/-! SUPPORT. The commands of a port: the order of the checks (R143, R176, R178), and the commands that are answered or begun in
the event in which they are taken. -/

namespace Sys2Proof.Machine

/-! ## A port that takes a command -/

theorem row_command (c : Cmd) (p : Port) (s : State) : exec (c.row p) s = commandRow c p s := by cases c <;> rfl

section Taking
variable {p : Port} {c : Cmd} {s : State}

@[simp] theorem taking_slot (q : Port) : (s.taking p c).slot q = s.units.slot q := rfl
@[simp] theorem taking_pu : (s.taking p c).pu = s.units.pu := rfl
@[simp] theorem taking_tm : (s.taking p c).tm = s.units.tm := rfl
@[simp] theorem taking_iu : (s.taking p c).iu = s.units.iu := rfl
@[simp] theorem taking_rw : (s.taking p c).rw = s.units.rw := rfl
@[simp] theorem taking_ce : (s.taking p c).ce = s.units.ce := rfl
@[simp] theorem taking_nu : (s.taking p c).nu = s.units.nu := rfl
@[simp] theorem taking_me : (s.taking p c).me = s.units.me := rfl
@[simp] theorem taking_media : (s.taking p c).media = s.units.media := rfl
@[simp] theorem taking_clock : (s.taking p c).clock = s.units.clock := rfl

@[simp] theorem taking_inHand : ((s.taking p c).port p).inHand
    = some ⟨c, (s.units.port p).params, (s.units.port p).buffer, .elsewhere⟩ := by simp [State.taking]

theorem taking_handOver (h : Quiet p s) : ((s.taking p c).port p).handOver = false := by simpa [State.taking] using h.handed

theorem taking_draining (h : Quiet p s) : ((s.taking p c).port p).draining = false := by simpa [State.taking] using h.steady

@[simp] theorem taking_pu_answered {o : Posting} : (s.answered p c o).pu = s.units.pu := rfl
@[simp] theorem slot_answered {o : Posting} (q : Port) : (s.answered p c o).slot q = s.units.slot q := rfl

theorem answered_handOver (h : Quiet p s) {o : Posting} : ((s.answered p c o).port p).handOver = false := by
  simpa [State.answered] using h.handed

theorem answered_draining (h : Quiet p s) {o : Posting} : ((s.answered p c o).port p).draining = false := by
  simpa [State.answered] using h.steady

theorem takingAt_handOver (h : Quiet p s) {w : Work} : ((s.takingAt p c w).port p).handOver = false := by
  simpa [State.takingAt] using h.handed

theorem takingAt_draining (h : Quiet p s) {w : Work} : ((s.takingAt p c w).port p).draining = false := by
  simpa [State.takingAt] using h.steady

theorem answer_taking (p : Port) (c : Cmd) (e : ResultCode) (s : State) :
    answer p e (s.taking p c) = s.answered p c (Posting.code e) := deliver_taking p c _ s

theorem setWork_taking (w : Work) : setWork p w (s.taking p c) = s.takingAt p c w := by
  simp [setWork, State.taking, State.takingAt, Units.modPort_eq]

/-- A command answered, and nothing else. -/
theorem row_answered (h : Taking p s) {o : Posting} (ht : taken p c s = s.answered p c o) :
    exec (c.row p) s = .next (s.withUnits (s.answered p c o)) :=
  (row_command c p s).trans (command_answered h (ht.trans (deliver_taking p c o s).symm))

/-- A command that goes on, the Writer and the port's own frame left as they are. -/
theorem row_taken (h : Taking p s) {u : Units} (ht : taken p c s = u) (hh : (u.port p).handOver = false)
    (hd : (u.port p).draining = false) (hw : u.rw = s.units.rw) : exec (c.row p) s = .next (s.withUnits u) :=
  (row_command c p s).trans (command_passed h ht hh hd (hw ▸ h.writer))

/-- A command of a port whose work is now at another place, with a claim presented for it. -/
theorem row_presented (h : Taking p s) {src : Claimant} {m : Claim} {w : Work}
    (ht : taken p c s = present src m (s.takingAt p c w)) :
    exec (c.row p) s = .next (s.withUnits (present src m (s.takingAt p c w))) :=
  row_taken h ht (takingAt_handOver h.toQuiet) (takingAt_draining h.toQuiet) rfl

end Taking

/-! ## The checks in their order (R143, R176, R178) -/

section Checks
variable {c : Cmd} {p : Port} {q : Params} {u : Units} {part : Nat}

theorem need_reads (h : c ∈ [Cmd.read, .stat, .list, .watch]) : c.need = .slotRead := by
  cases c <;> simp_all [Cmd.need]

theorem need_writes (h : c ∈ [Cmd.write, .delete, .begin, .stageWrite, .stageDelete]) : c.need = .slotWrite true := by
  cases c <;> simp_all [Cmd.need]

theorem need_authority (h : c ∈ [Cmd.policyLoad, .policyCommit, .policyDiscard, .reclaim]) : c.need = .authority := by
  cases c <;> simp_all [Cmd.need]

theorem need_nothing (h : c ∈ [Cmd.commit, .abort, .renew, .bind, .unwatch, .noticePop, .policyRead, .info]) :
    c.need = .nothing := by
  cases c <;> simp_all [Cmd.need]

/-- A command that needs a view slot. -/
theorem need_slot (h : c ∈ [Cmd.read, .stat, .list, .watch] ∨ c ∈ [Cmd.write, .delete, .begin, .stageWrite, .stageDelete]
    ∨ c = .freeze) : c.need = .slotRead ∨ ∃ lock, c.need = .slotWrite lock := by
  rcases h with h | h | rfl
  · exact .inl (need_reads h)
  · exact .inr ⟨true, need_writes h⟩
  · exact .inr ⟨false, rfl⟩

theorem checkCommand_unbound (hn : c.need = .slotRead ∨ ∃ lock, c.need = .slotWrite lock) (h : resolve p q.slot u = none) :
    checkCommand c p q u = .error .unbound := by
  rcases hn with hn | ⟨lock, hn⟩ <;> simp [checkCommand, hn, h]

theorem checkCommand_unreadable (hn : c.need = .slotRead) (h : resolve p q.slot u = some part)
    (hr : u.pu.shadow.mayRead p part = false) : checkCommand c p q u = .error .denied := by
  simp [checkCommand, hn, h, hr]

theorem checkCommand_unwritable {lock : Bool} (hn : c.need = .slotWrite lock) (h : resolve p q.slot u = some part)
    (hr : u.pu.shadow.mayWrite p part = false) : checkCommand c p q u = .error .denied := by
  simp [checkCommand, hn, h, hr]

theorem checkCommand_locked (hn : c.need = .slotWrite true) (h : resolve p q.slot u = some part)
    (hr : u.pu.shadow.mayWrite p part = true) (hl : lockOf u part ≠ .opened) : checkCommand c p q u = .error .locked := by
  simp [checkCommand, hn, h, hr, hl]

theorem checkCommand_unauthorised (hn : c.need = .authority) (h : u.pu.shadow.authority p = false) :
    checkCommand c p q u = .error .denied := by
  simp [checkCommand, hn, h]

theorem rangesOk_of_outOfRange (h : outOfRange c q) : c.rangesOk q = false := by
  have hkey : q.key = 0xFFFF → q.keyOk = false := (keyOk_eq_false_iff q).2
  rcases h with ⟨hc, hk⟩ | ⟨hc, hl⟩ | ⟨rfl, ho⟩ | ⟨hc, ha, hk⟩ | ⟨rfl, hp⟩ | ⟨rfl, hs⟩
  · have hk := hkey hk
    cases c <;> simp_all [Cmd.rangesOk]
  · have hl : q.lengthOk = false := by
      rw [Params.lengthOk, Params.lengthNat, decide_eq_false_iff_not]
      omega
    cases c <;> simp_all [Cmd.rangesOk]
  · have ho : decide (q.offsetNat ≤ 240) = false := decide_eq_false (by rw [Params.offsetNat]; omega)
    simp only [Cmd.rangesOk, ho, Bool.and_false]
  · have hk := hkey hk
    have ha : q.allFlag = false := ha
    cases c <;> simp_all [Cmd.rangesOk]
  · simp [Cmd.rangesOk, hp]
  · simp [Cmd.rangesOk, hs]

theorem checkCommand_badParam {s : State} (ha : admitted c p part s) (h : outOfRange c (s.units.port p).params) :
    checkCommand c p (s.units.port p).params s.units = .error .badParam := by
  have hr := rangesOk_of_outOfRange h
  rcases ha with ⟨hc, h1, h2⟩ | ⟨hc, h1, h2, h3⟩ | ⟨rfl, h1, h2⟩ | ⟨hc, h1, -⟩ | ⟨hc, -⟩
  · simp [checkCommand, need_reads hc, h1, h2, hr]
  · simp [checkCommand, need_writes hc, h1, h2, h3, hr]
  · simp [checkCommand, Cmd.need, h1, h2, hr]
  · simp [checkCommand, need_authority hc, h1, hr]
  · simp [checkCommand, need_nothing hc, hr]

end Checks

/-- A code outside the table at a port that takes commands (R176). -/
theorem unknownCommand_row {p : Port} {code : Byte} {s : State} (h : Taking p s) (hw : (Instr.unknownCommand p code).wf = true) :
    exec (.unknownCommand p code) s = .next (s.withUnits (s.units.setPort p { s.units.port p with
      state := .busy, doneCause := false, collision := false, command := code, inHand := none,
      outcome := some (Posting.code .unknownCommand), lastOut := s.statusOut p })) := by
  simp only [Instr.wf, Bool.and_eq_true, Bool.not_eq_true', bne_iff_ne] at hw
  have hb : (s.units.port p).state ≠ .busy := by simpa using not_busy h
  let y : MasterPort := { s.units.port p with command := code, lastOut := [statusByte p s.units, 0] }
  have htake : takeCode p code (s.units.setPort p y) = s.units.setPort p y.takeUnknown := by
    have hy : (s.units.setPort p y).port p = y := Units.port_setPort_self ..
    unfold takeCode
    rw [hy, ofCode_none hw.2]
    rcases h.state with hs | hs <;> simp [y, hs, Units.modPort_eq]
  have hrow : exec (.unknownCommand p code) s = .next (s.withUnits (writeFrame p 0x00 code s.units)) :=
    onFrame_running h.running
  rw [hrow, codeFrame_end h.noFrame h.noOutcome hb hw.1, htake,
    frameEnd_steady (u := s.units.setPort p _) (by rw [Units.port_setPort_self]; exact h.handed)
      (by rw [Units.port_setPort_self]; exact h.steady) h.writer]
  rfl

/-- Settles O26: an unknown code is taken; each test that fails is the one `checkCommand` answers with. -/
theorem commandsAreCheckedInOrder : Obligations.CommandsAreCheckedInOrder := by
  unfold Obligations.CommandsAreCheckedInOrder
  refine ⟨fun p code s h hw => unknownCommand_row h hw, ?_⟩
  intro c p s h
  have refused : ∀ {e}, checkCommand c p (s.units.port p).params s.units = .error e →
      exec (c.row p) s = .next (s.withUnits (s.answered p c (Posting.code e))) :=
    fun he => (row_command c p s).trans (command_refused h he)
  dsimp only
  refine ⟨?unbound, fun part hpart => ⟨?unreadable, ?unwritable, ?locked⟩, ?authority, ?range⟩
  case unbound => exact fun hc hr => refused (checkCommand_unbound (need_slot hc) hr)
  case unreadable => exact fun hc hr => refused (checkCommand_unreadable (need_reads hc) hpart hr)
  case unwritable =>
    rintro (hc | rfl) hr
    · exact refused (checkCommand_unwritable (need_writes hc) hpart hr)
    · exact refused (checkCommand_unwritable (c := .freeze) rfl hpart hr)
  case locked => exact fun hc hr hl => refused (checkCommand_locked (need_writes hc) hpart hr hl)
  case authority => exact fun hc hr => refused (checkCommand_unauthorised (need_authority hc) hr)
  case range => exact fun part ha hr => refused (checkCommand_badParam ha hr)

end Sys2Proof.Machine
end


section
/-! SUPPORT. READ, STAT, WRITE and DELETE at their port (R76, R90, R177): what stands in the member lists decides between a
LOOKUP, a PIN and an answer, and the claim on the partition between a CHARGE and a refusal. -/

namespace Sys2Proof.Machine

/-! ## The member a port's own transaction has of a key (R90) -/

section Own
variable {p : Port} {part key : Nat} {u : Units} {m : Member}

/-- The member of a key in the OPEN transaction of a port on a partition. -/
def ownMember (p : Port) (part key : Nat) (u : Units) : Option Member :=
  (visibleMembers p part u).bind fun ms => ms.find? fun m => m.key == key

theorem ownMember_eq_some : ownMember p part key u = some m
    ↔ (u.slot p).state = .opened ∧ (u.slot p).part = part ∧ (u.slot p).members.find? (fun m => m.key == key) = some m := by
  unfold ownMember visibleMembers
  split
  next h => simp [h]
  next h =>
    have hno : ¬ ((u.slot p).state = .opened ∧ (u.slot p).part = part
        ∧ (u.slot p).members.find? (fun m => m.key == key) = some m) := fun hall => h ⟨hall.1, hall.2.1⟩
    simp [hno]

theorem ownMember_eq_none (h : ∀ m, ¬ ((u.slot p).state = .opened ∧ (u.slot p).part = part
    ∧ (u.slot p).members.find? (fun m => m.key == key) = some m)) : ownMember p part key u = none :=
  Option.eq_none_iff_forall_ne_some.2 fun m hm => h m (ownMember_eq_some.1 hm)

/-- With no member of the key the index is asked. -/
theorem startLookup_none {forRead : Bool} (h : ownMember p part key u = none) :
    startLookup p forRead part key u = present (.port p) (.lookup part key forRead) (setWork p (.lookup part key) u) := by
  unfold ownMember at h
  unfold startLookup
  cases hv : visibleMembers p part u with
  | none => rfl
  | some ms =>
    rw [hv, Option.bind_some] at h
    simp only [h]

/-- A member decides by itself. -/
theorem startLookup_some {forRead : Bool} (h : ownMember p part key u = some m) :
    startLookup p forRead part key u =
      if m.op = .delete then answer p .notFound u
      else if forRead then
        present (.txn p) (.pin m.loc) (setWork p (.pinning ⟨part, key, m.loc, m.length, m.gen, m.cells, true⟩) u)
      else deliver p (statOutcome ⟨part, key, m.loc, m.length, m.gen, m.cells, true⟩) u := by
  unfold ownMember at h
  unfold startLookup
  cases hv : visibleMembers p part u with
  | none => rw [hv] at h; cases h
  | some ms =>
    rw [hv, Option.bind_some] at h
    simp only [h]

end Own

theorem not_delete_of_write {m : Member} (h : m.op = .write) : ¬ m.op = .delete := by rw [h]; decide

/-- Settles O27: the member of the key, if the port's own transaction has one, answers ahead of the index. -/
theorem readAndStatBegin : Obligations.ReadAndStatBegin := by
  unfold Obligations.ReadAndStatBegin
  intro p part s
  dsimp only
  refine ⟨fun h => ⟨fun hno => ?readIndex, fun m hm hop => ?readStaged, fun m hm hop => ?readDeleted⟩,
    fun h => ⟨fun hno => ?statIndex, fun m hm hop => ?statStaged, fun m hm hop => ?statDeleted⟩⟩
  case readIndex =>
    have hown : ownMember p part (s.units.port p).params.key.toNat (s.taking p .read) = none := ownMember_eq_none hno
    exact row_presented h.toTaking ((taken_passing h).trans ((startLookup_none hown).trans (by rw [setWork_taking])))
  case readStaged =>
    have hown : ownMember p part (s.units.port p).params.key.toNat (s.taking p .read) = some m := ownMember_eq_some.2 hm
    refine row_presented h.toTaking ((taken_passing h).trans ((startLookup_some hown).trans ?_))
    rw [if_neg (not_delete_of_write hop), if_pos rfl, setWork_taking]
  case readDeleted =>
    have hown : ownMember p part (s.units.port p).params.key.toNat (s.taking p .read) = some m := ownMember_eq_some.2 hm
    refine row_answered h.toTaking ((taken_passing h).trans ((startLookup_some hown).trans ?_))
    rw [if_pos hop, answer_taking]
  case statIndex =>
    have hown : ownMember p part (s.units.port p).params.key.toNat (s.taking p .stat) = none := ownMember_eq_none hno
    exact row_presented h.toTaking ((taken_passing h).trans ((startLookup_none hown).trans (by rw [setWork_taking])))
  case statStaged =>
    have hown : ownMember p part (s.units.port p).params.key.toNat (s.taking p .stat) = some m := ownMember_eq_some.2 hm
    refine row_answered h.toTaking ((taken_passing h).trans ((startLookup_some hown).trans ?_))
    rw [if_neg (not_delete_of_write hop), if_neg (by decide), deliver_taking]
    have hflags : outputFlags true false false false = 1 := by decide
    unfold statOutcome
    rw [hflags]
    rfl
  case statDeleted =>
    have hown : ownMember p part (s.units.port p).params.key.toNat (s.taking p .stat) = some m := ownMember_eq_some.2 hm
    refine row_answered h.toTaking ((taken_passing h).trans ((startLookup_some hown).trans ?_))
    rw [if_pos hop, answer_taking]

/-! ## The claim on a partition (R76) -/

theorem holds_iff (x : Slot) (part : Nat) : x.holds part = true
    ↔ x.part = part ∧ (x.state = .opened ∨ x.state = .committing ∨ x.state = .aborting) := by
  simp [Slot.holds, or_assoc]

theorem holderOf_eq_none {part : Nat} {u : Units} (h : ∀ g, ¬ (u.slot g).holds part = true) : holderOf part u = none :=
  List.find?_eq_none.2 fun g _ => h g

/-- The one port that holds the claim is found. -/
theorem holderOf_eq_some {part : Nat} {u : Units} {g : Port} (h : (u.slot g).holds part = true)
    (hone : ∀ q, (u.slot q).holds part = true → q = g) : holderOf part u = some g := by
  cases hf : holderOf part u with
  | none => exact absurd h (List.find?_eq_none.1 hf g (by cases g <;> simp [allPorts]))
  | some q => rw [hone q (List.find?_some (p := fun q => (u.slot q).holds part) hf)]

section Single
variable {p : Port} {op : ChargeOp} {part key cells : Nat} {u : Units}

theorem startSingle_free (h : ∀ g, ¬ (u.slot g).holds part = true) :
    startSingle p op part key cells u = present (.port p) (.charge part key op cells) (setWork p (.charging part) u) := by
  rw [startSingle, holderOf_eq_none h]

theorem startSingle_held {g : Port} (h : (u.slot g).holds part = true) (hone : ∀ q, (u.slot q).holds part = true → q = g) :
    startSingle p op part key cells u = answer p (if g = p then .inTxn else .held) u := by
  rw [startSingle, holderOf_eq_some h hone]

end Single

/-- Settles O28: by the holder of the partition's claim. -/
theorem writeAndDeleteBegin : Obligations.WriteAndDeleteBegin := by
  unfold Obligations.WriteAndDeleteBegin
  intro p part s
  simp only [← holds_iff]
  refine ⟨fun h => ⟨fun hfree => ?writeFree, fun g hg hone => ?writeHeld⟩,
    fun h => ⟨fun hfree => ?deleteFree, fun g hg hone => ?deleteHeld⟩⟩
  case writeFree =>
    exact row_presented h.toTaking ((taken_passing h).trans
      ((startSingle_free (u := s.taking p .write) hfree).trans (by rw [setWork_taking]; rfl)))
  case writeHeld =>
    exact row_answered h.toTaking ((taken_passing h).trans
      ((startSingle_held (u := s.taking p .write) hg hone).trans (answer_taking ..)))
  case deleteFree =>
    exact row_presented h.toTaking ((taken_passing h).trans
      ((startSingle_free (u := s.taking p .delete) hfree).trans (by rw [setWork_taking]; rfl)))
  case deleteHeld =>
    exact row_answered h.toTaking ((taken_passing h).trans
      ((startSingle_held (u := s.taking p .delete) hg hone).trans (answer_taking ..)))

end Sys2Proof.Machine
end


section
/-! SUPPORT. BEGIN, the stages, RENEW, and the transaction commands that find their slot not OPEN (R75 to R83, R86); BIND and FREEZE
(R145, R147). -/

namespace Sys2Proof.Machine

/-! ## Outcomes and slots -/

@[simp] theorem Units.setSlot_slot (u : Units) (p : Port) : u.setSlot p (u.slot p) = u := by
  simp [Units.setSlot, Units.slot]

theorem answered_setSlot {p : Port} {c : Cmd} {o : Posting} {s : State} (x : Slot) :
    deliver p o ((s.taking p c).setSlot p x) = (s.answered p c o).setSlot p x := by
  rw [← deliver_taking]
  rfl

theorem answered_setPu {p : Port} {c : Cmd} {o : Posting} {s : State} (x : PolicyUnit) :
    deliver p o ((s.taking p c).setPu x) = (s.answered p c o).setPu x := by
  rw [← deliver_taking]
  rfl

/-! ## BEGIN (R75 to R82) -/

section Begin
variable {p : Port} {part : Nat} {wait : Bool} {u : Units}

theorem takeBegin_busy (h : ¬ ((u.slot p).state = .none ∨ (u.slot p).state = .ended)) :
    takeBegin p part wait u = answer p .inTxn u := by
  unfold takeBegin
  split
  next hs => exact absurd (.inl hs) h
  next hs => exact absurd (.inr hs) h
  next => rfl

/-- An ENDED slot is taken as an empty one. -/
theorem takeBegin_free (h : (u.slot p).state = .none ∨ (u.slot p).state = .ended) :
    takeBegin p part wait u
      = beginFromNone p part wait (u.setSlot p (if (u.slot p).state = .ended then Slot.start else u.slot p)) := by
  rcases h with h | h <;> simp [takeBegin, h]

/-- BEGIN once right and lock have passed. -/
theorem beginFromNone_eq (hw : u.pu.shadow.mayWrite p part = true) (hl : lockOf u part = .opened) :
    beginFromNone p part wait u =
      if (holderOf part u).isNone then grantClaim part p u
      else if wait && decide (0 < (u.pu.shadow.ports.get p).waitLimit) then
        setClaimQueue part (claimQueue part u ++ [p]) (u.setSlot p { Slot.start with
          state := .waiting, part := part,
          waitUntil := some (u.clock + 4 * (u.pu.shadow.ports.get p).waitLimit) })
      else answer p .held u := by
  simp only [beginFromNone, hw, hl, Bool.not_true, Bool.false_eq_true, if_false, ne_eq, not_true_eq_false]
  rfl

end Begin

theorem holding_of_free {x : Slot} (h : x.state = .none ∨ x.state = .ended) : x.holding = false := by
  rcases h with h | h <;> simp [h, Slot.holding]

/-- A slot of a port whose transaction is over holds no claim, nor does the one that takes its place. -/
theorem holding_freed {x : Slot} (h : x.state = .none ∨ x.state = .ended) :
    (if x.state = .ended then Slot.start else x).holding = false := by
  rcases h with h | h <;> simp [h, Slot.holding, Slot.start]

theorem holds_of_holding_false {x : Slot} {part : Nat} (h : x.holding = false) : x.holds part = false := by
  simp_all [Slot.holding, Slot.holds]

/-- The holder of a partition does not change with a slot that holds nothing. -/
theorem holderOf_isNone_setSlot {p : Port} {part : Nat} {x : Slot} {u : Units} (hx : x.holding = false)
    (hp : (u.slot p).holding = false) :
    (holderOf part (u.setSlot p x)).isNone = true ↔ ∀ g, ¬ (u.slot g).holds part = true := by
  rw [holderOf_isNone]
  refine forall_congr' fun g => ?_
  rw [Bool.not_eq_true]
  by_cases hg : g = p
  · subst hg
    rw [Units.slot_setSlot_self, holds_of_holding_false hx, holds_of_holding_false hp]
  · rw [Units.slot_setSlot_of_ne _ (Ne.symm hg)]

/-- The counter itself, when it is not in use. -/
theorem newNumber_of_unused {p : Port} {u : Units} (h : numberInUse p u.tm.counter u = false) : newNumber p u = u.tm.counter := by
  have hfuel : 4 + u.iu.commitSet.length + u.tm.retained.length = (3 + u.iu.commitSet.length + u.tm.retained.length) + 1 := by
    omega
  rw [newNumber, hfuel, pickNumber, h, if_neg (by decide)]

/-- What a grant leaves. -/
theorem grantClaim_parts (part : Nat) (p : Port) (u : Units) :
    let n := newNumber p u
    let v := grantClaim part p u
    v.slot p = { Slot.start with state := .opened, part := part, number := n, lease := some (newLease (leaseUnits part u) u) }
      ∧ v.tm.counter = nextNumber n
      ∧ v.port p = (deliver p (Posting.okWith { Results.zero with
          txn := BitVec.ofNat 16 n, lease := BitVec.ofNat 16 (leaseUnits part u) }) u).port p
      ∧ (∀ q, q ≠ p → v.slot q = u.slot q ∧ v.port q = u.port q)
      ∧ v.tm.queues = u.tm.queues ∧ v.iu = u.iu ∧ v.rw = u.rw ∧ v.pu = u.pu ∧ v.nu = u.nu ∧ v.ce = u.ce := by
  dsimp only
  refine ⟨Units.slot_setSlot_self u p _, rfl, rfl, fun q hq => ⟨Units.slot_setSlot_of_ne u (Ne.symm hq) _, ?_⟩, rfl, rfl, rfl,
    rfl, rfl, rfl⟩
  exact Units.port_setPort_of_ne _ (Ne.symm hq) _

section Begun
variable {p : Port} {part : Nat} {s : State} {x : Slot}

theorem numberInUse_setSlot (n : Nat) (x : Slot) (u : Units) : numberInUse p n (u.setSlot p x) = numberInUse p n u := by
  have hslots : ∀ q, (q != p && ((u.setSlot p x).slot q).holding && ((u.setSlot p x).slot q).number == n)
      = (q != p && (u.slot q).holding && (u.slot q).number == n) := by
    intro q
    by_cases hq : q = p
    · simp [hq]
    · rw [Units.slot_setSlot_of_ne _ (Ne.symm hq)]
  unfold numberInUse
  simp only [hslots]
  rfl

/-- The grant of a BEGIN at the port that takes it, its slot cleared first (R77). -/
theorem begin_granted (x : Slot) (h : Passing .begin p part s)
    (ht : taken p .begin s = grantClaim part p ((s.taking p .begin).setSlot p x)) :
    let length := (s.units.pu.shadow.part part).lease
    ∃ n u, exec (.begin p) s = .next (s.withUnits u)
      ∧ (numberInUse p s.units.tm.counter s.units = false → n = s.units.tm.counter)
      ∧ s.units.firstFreeNumber (fun q => q ≠ p) n
      ∧ u.slot p = { Slot.start with
          state := .opened, part := part, number := n,
          lease := some ⟨s.units.clock + 4 * length, s.units.clock + 3 * length, true⟩ }
      ∧ u.tm.counter = (if 65535 ≤ n then 1 else n + 1)
      ∧ u.port p = (s.answered p .begin ⟨{ Results.zero with
          code := 0x01, txn := BitVec.ofNat 16 n, lease := BitVec.ofNat 16 length }, []⟩).port p
      ∧ (∀ q, q ≠ p → u.slot q = s.units.slot q ∧ u.port q = s.units.port q)
      ∧ u.tm.queues = s.units.tm.queues ∧ u.iu = s.units.iu ∧ u.rw = s.units.rw ∧ u.pu = s.units.pu
      ∧ u.nu = s.units.nu ∧ u.ce = s.units.ce := by
  let v := (s.taking p .begin).setSlot p x
  obtain ⟨hslot, hcounter, hport, hothers, hqueues, hiu, hrw, hpu, hnu, hce⟩ := grantClaim_parts part p v
  have hanswer : ∀ o, (deliver p o v).port p = (s.answered p .begin o).port p := fun o => by
    show (deliver p o ((s.taking p .begin).setSlot p x)).port p = _
    rw [answered_setSlot]
    rfl
  have hfirst : s.units.firstFreeNumber (fun q => q ≠ p) (newNumber p v) := by
    refine newNumber_firstFree rfl rfl rfl fun g m => and_congr_right fun hg => ?_
    show (((s.taking p .begin).setSlot p x).slot g).holding = true ∧ (((s.taking p .begin).setSlot p x).slot g).number = m ↔ _
    rw [Units.slot_setSlot_of_ne _ (Ne.symm hg), taking_slot]
  refine ⟨newNumber p v, grantClaim part p v, ?_, ?_, hfirst, hslot, hcounter, hport.trans (hanswer _), ?_, hqueues, hiu, hrw,
    hpu, hnu, hce⟩
  · have hdone := hport.trans (hanswer _)
    refine row_taken (c := .begin) h.toTaking ht ?_ ?_ hrw
    · exact (congrArg MasterPort.handOver hdone).trans (answered_handOver h.toQuiet)
    · exact (congrArg MasterPort.draining hdone).trans (answered_draining h.toQuiet)
  · exact fun hfree => newNumber_of_unused ((numberInUse_setSlot (u := s.taking p .begin) _ x).trans hfree)
  · intro q hq
    obtain ⟨hs, hp⟩ := hothers q hq
    refine ⟨hs.trans ?_, hp.trans ?_⟩
    · exact (Units.slot_setSlot_of_ne _ (Ne.symm hq) _).trans rfl
    · exact Units.port_setPort_of_ne _ (Ne.symm hq) _

end Begun

/-- A BEGIN that finds its slot free, once it is cleared (R75, R77). -/
theorem taken_begin_free {p : Port} {part : Nat} {s : State} (h : Passing .begin p part s)
    (hf : (s.units.slot p).state = .none ∨ (s.units.slot p).state = .ended) :
    let v := (s.taking p .begin).setSlot p (if (s.units.slot p).state = .ended then Slot.start else s.units.slot p)
    taken p .begin s =
      if (holderOf part v).isNone then grantClaim part p v
      else if (s.units.port p).params.waitFlag && decide (0 < (s.units.pu.shadow.ports.get p).waitLimit) then
        setClaimQueue part (claimQueue part v ++ [p]) (v.setSlot p { Slot.start with
          state := .waiting, part := part, waitUntil := some (v.clock + 4 * (s.units.pu.shadow.ports.get p).waitLimit) })
      else answer p .held v := by
  have ha := h.admitted
  simp only [admitted, List.mem_cons, reduceCtorEq, List.not_mem_nil, or_self, or_false, false_and, or_true, true_and,
    false_or] at ha
  exact (taken_passing h).trans ((takeBegin_free (u := s.taking p .begin) hf).trans (beginFromNone_eq ha.2.1 ha.2.2))

/-- Settles O29: by the state of the slot, then by the claim on the partition. -/
theorem beginTakes : Obligations.BeginTakes := by
  unfold Obligations.BeginTakes
  intro p part s h
  dsimp only
  let x : Slot := if (s.units.slot p).state = .ended then Slot.start else s.units.slot p
  have hfree := taken_begin_free h
  have hholder := fun hf : (s.units.slot p).state = .none ∨ (s.units.slot p).state = .ended =>
    holderOf_isNone_setSlot (p := p) (u := s.taking p .begin) (part := part) (x := x) (holding_freed hf) (holding_of_free hf)
  refine ⟨fun hf hu => ?granted, fun hf hc hw => ?waiting, fun hf hc hw => ?held, fun hf => ?busy⟩
  case granted =>
    refine begin_granted x h ((hfree hf).trans ?_)
    rw [if_pos ((hholder hf).2 hu)]
  case waiting =>
    refine row_taken (c := .begin) h.toTaking ((hfree hf).trans ?_) (taking_handOver h.toQuiet) (taking_draining h.toQuiet) rfl
    rw [if_neg (fun hn => hc ((hholder hf).1 hn)), if_pos (by simpa [Params.waitFlag] using hw), Units.setSlot_setSlot]
    rfl
  case held =>
    refine row_taken (c := .begin) h.toTaking ((hfree hf).trans ?_) (answered_handOver h.toQuiet) (answered_draining h.toQuiet) rfl
    rw [if_neg (fun hn => hc ((hholder hf).1 hn)), if_neg (by simpa [Params.waitFlag] using hw)]
    exact answered_setSlot _
  case busy =>
    exact row_answered h.toTaking ((taken_passing h).trans
      ((takeBegin_busy (u := s.taking p .begin) hf).trans (answer_taking ..)))

end Sys2Proof.Machine
end


section
/-! SUPPORT. The stages, RENEW, and the transaction commands that find their slot not OPEN (R75, R83, R86); BIND and FREEZE (R145,
R147). -/

namespace Sys2Proof.Machine

/-! ## Stages in OPEN (R86) -/

section Stage
variable {p : Port} {c : Cmd} {part key cells : Nat} {u : Units}

/-- With no event due, a stage goes through its tests and presents its CHARGE. -/
theorem takeStage_opened (ho : (u.slot p).state = .opened) (h1 : ¬ u.frozenByOwn p) (h2 : ¬ u.revoked p) :
    takeStage p c part key cells u =
      if (u.slot p).part ≠ part then answer p .wrongPartition u
      else if !(u.slot p).members.any (fun m => m.key == key) && decide (16 ≤ (u.slot p).members.length) then
        answer p .txnFull u
      else
        present (.txn p) (.charge part key (if c = .stageWrite then ChargeOp.stageWrite else ChargeOp.stageDelete) cells)
          (u.setSlot p { u.slot p with stage := some ⟨c, key⟩ }) := by
  unfold takeStage
  rw [actDue_undue h1 h2]
  dsimp only
  rw [if_neg (not_not_intro ho)]

/-- The list is full and has no member of the key. -/
theorem full_iff {x : Slot} {key : Nat} : (!x.members.any (fun m => m.key == key) && decide (16 ≤ x.members.length)) = true
    ↔ (∀ m ∈ x.members, m.key ≠ key) ∧ 16 ≤ x.members.length := by
  simp

end Stage

/-- The three outcomes of a stage in OPEN, for either command. -/
theorem stage_rows {p : Port} {part : Nat} {c : Cmd} {cells : Nat} {s : State} (h : Passing c p part s)
    (ho : (s.units.slot p).state = .opened) (h1 : ¬ s.units.frozenByOwn p) (h2 : ¬ s.units.revoked p)
    (hc : carryOut p c (s.units.port p).params part (s.taking p c)
      = takeStage p c part (s.units.port p).params.key.toNat cells (s.taking p c)) :
    let q := (s.units.port p).params
    let sl := s.units.slot p
    let full := (∀ m ∈ sl.members, m.key ≠ q.key.toNat) ∧ 16 ≤ sl.members.length
    (sl.part ≠ part → exec (c.row p) s = .next (s.withUnits (s.answered p c (Posting.code .wrongPartition))))
      ∧ (sl.part = part → full → exec (c.row p) s = .next (s.withUnits (s.answered p c (Posting.code .txnFull))))
      ∧ (sl.part = part → ¬ full → exec (c.row p) s = .next (s.withUnits
          (present (.txn p)
            (.charge part q.key.toNat (if c = .stageWrite then ChargeOp.stageWrite else ChargeOp.stageDelete) cells)
            ((s.taking p c).setSlot p { sl with stage := some ⟨c, q.key.toNat⟩ })))) := by
  have ht : taken p c s = _ := (taken_passing h).trans (hc.trans (takeStage_opened (u := s.taking p c) ho h1 h2))
  dsimp only
  refine ⟨fun hp => ?wrong, fun hp hf => ?full, fun hp hf => ?charged⟩
  case wrong => exact row_answered h.toTaking (ht.trans ((if_pos hp).trans (answer_taking ..)))
  case full =>
    refine row_answered h.toTaking (ht.trans ((if_neg (not_not_intro hp)).trans ((if_pos ?_).trans (answer_taking ..))))
    exact full_iff.2 hf
  case charged =>
    exact row_taken h.toTaking (ht.trans ((if_neg (not_not_intro hp)).trans (if_neg fun hn => hf (full_iff.1 hn))))
      (taking_handOver h.toQuiet) (taking_draining h.toQuiet) rfl

/-- Settles O30: both stages are `stage_rows`. -/
theorem stageTakes : Obligations.StageTakes := by
  unfold Obligations.StageTakes
  intro p part s
  dsimp only
  intro ho h1 h2
  exact ⟨fun h => stage_rows h ho h1 h2 rfl, fun h => stage_rows h ho h1 h2 rfl⟩

/-! ## Outside OPEN (R75) -/

section NotOpen
variable {p : Port} {c : Cmd} {u : Units}

/-- The transaction commands other than BEGIN meet a slot that is not OPEN, once what is due to it has been taken, alike. -/
theorem carryOut_due {q : Params} {part : Nat} {v : Units} (hc : c ∈ [Cmd.stageWrite, .stageDelete, .commit, .abort, .renew])
    (hv : actDue p u = v) (h : (v.slot p).state ≠ .opened) : carryOut p c q part u = notOpen p c v := by
  simp only [List.mem_cons, List.not_mem_nil, or_false] at hc
  rcases hc with rfl | rfl | rfl | rfl | rfl
  · simp only [carryOut, takeStage, hv, if_pos h]
  · simp only [carryOut, takeStage, hv, if_pos h]
  · simp only [carryOut, takeCommit, hv, if_pos h]
  · simp only [carryOut, takeAbort, hv, if_pos h]
  · simp only [carryOut, takeRenew, hv, if_pos h]

theorem carryOut_notOpen {q : Params} {part : Nat} (hc : c ∈ [Cmd.stageWrite, .stageDelete, .commit, .abort, .renew])
    (h : (u.slot p).state ≠ .opened) : carryOut p c q part u = notOpen p c u := carryOut_due hc (actDue_not_opened h) h

theorem notOpen_none (h : (u.slot p).state = .none) : notOpen p c u = answer p .noTxn u := by
  unfold notOpen
  cases hr : (u.slot p).reason <;> simp [h]

theorem notOpen_ended {r : EndReason} (h : (u.slot p).state = .ended) (hr : (u.slot p).reason = some r) :
    notOpen p c u = answer p r.code (u.setSlot p Slot.start) := by
  simp only [notOpen, h, hr]

theorem notOpen_aborting {r : EndReason} (h : (u.slot p).state = .aborting) (hr : (u.slot p).reason = some r) :
    notOpen p c u = u.setSlot p { u.slot p with pending := some c } := by
  simp only [notOpen, h, hr]

theorem notOpen_inTxn (h : (u.slot p).state = .committing ∨ (u.slot p).state = .aborting ∧ (u.slot p).reason = none) :
    notOpen p c u = answer p .inTxn u := by
  unfold notOpen
  rcases h with h | ⟨h, hr⟩
  · cases hr : (u.slot p).reason <;> simp [h]
  · simp [h, hr]

end NotOpen

/-- RENEW in OPEN with no event due (R83). -/
theorem takeRenew_opened {p : Port} {u : Units} (ho : (u.slot p).state = .opened) (h1 : ¬ u.frozenByOwn p) (h2 : ¬ u.revoked p) :
    takeRenew p u = deliver p (Posting.okWith { Results.zero with lease := BitVec.ofNat 16 (leaseUnits (u.slot p).part u) })
      (u.setSlot p { u.slot p with lease := some (newLease (leaseUnits (u.slot p).part u) u) }) := by
  unfold takeRenew
  rw [actDue_undue h1 h2]
  dsimp only
  rw [if_neg (not_not_intro ho)]
  rfl

/-- Settles O32: RENEW starts the lease again; the others by the state of the slot. -/
theorem renewAndCommandsOutsideOpen : Obligations.RenewAndCommandsOutsideOpen := by
  unfold Obligations.RenewAndCommandsOutsideOpen
  intro c p part s hc h
  dsimp only
  have hnot : (s.units.slot p).state ≠ .opened → taken p c s = notOpen p c (s.taking p c) :=
    fun hs => (taken_passing h).trans (carryOut_notOpen (u := s.taking p c) hc hs)
  refine ⟨?renewed, fun hs => ?none, fun r hs hr => ?ended, fun r hs hr => ?aborting, fun hs => ?inTxn⟩
  case renewed =>
    rintro rfl ho h1 h2
    refine row_taken (c := .renew) h.toTaking ((taken_passing h).trans ((takeRenew_opened (u := s.taking p .renew) ho h1 h2).trans
      ((answered_setSlot _).trans ?_))) (answered_handOver h.toQuiet) (answered_draining h.toQuiet) rfl
    rfl
  case none =>
    exact row_answered h.toTaking ((hnot (by simp [hs])).trans ((notOpen_none (u := s.taking p c) hs).trans (answer_taking ..)))
  case ended =>
    refine (row_taken h.toTaking ((hnot (by simp [hs])).trans ((notOpen_ended (u := s.taking p c) hs hr).trans
      (answered_setSlot _))) (answered_handOver h.toQuiet) (answered_draining h.toQuiet) rfl).trans ?_
    cases r <;> rfl
  case aborting =>
    exact row_taken h.toTaking ((hnot (by simp [hs])).trans (notOpen_aborting (u := s.taking p c) hs hr))
      (taking_handOver h.toQuiet) (taking_draining h.toQuiet) rfl
  case inTxn =>
    have hno : (s.units.slot p).state ≠ .opened := by rcases hs with hs | hs <;> simp [hs]
    exact row_answered h.toTaking ((hnot hno).trans ((notOpen_inTxn (u := s.taking p c) hs).trans (answer_taking ..)))

/-! ## BIND and FREEZE (R145, R147) -/

/-- BIND needs no check of R143: R145 decides it in its own order. -/
theorem passing_bind {p : Port} {s : State} (h : Taking p s) : Passing .bind p 0 s where
  toTaking := h
  admitted := by simp [admitted]
  inRange := by simp [outOfRange]

section Bind
variable {p : Port} {slot target : Byte} {u : Units}

/-- The slot named resolves to a partition that the port holds. -/
theorem claimed_iff : (resolve p slot u).any (fun part => (u.slot p).holds part) = true
    ↔ ∃ part, resolve p slot u = some part ∧ (u.slot p).part = part
      ∧ ((u.slot p).state = .opened ∨ (u.slot p).state = .committing ∨ (u.slot p).state = .aborting) := by
  simp only [Option.any_eq_true, holds_iff]

end Bind

theorem freezePart_opened {p : Port} {part : Nat} {u : Units} (h : lockOf u part = .opened) :
    freezePart p part u = { u with
      pu := { u.pu with locks := u.pu.locks.set part .frozen },
      tm := { u.tm with lockEvents := u.tm.lockEvents ++ [⟨part, some p⟩] } } := if_pos h

theorem freezePart_closed {p : Port} {part : Nat} {u : Units} (h : lockOf u part ≠ .opened) : freezePart p part u = u := if_neg h

/-- Settles O33: the branches of `bindSlot` in their order; FREEZE by the lock level. -/
theorem bindAndFreezeTake : Obligations.BindAndFreezeTake := by
  unfold Obligations.BindAndFreezeTake
  refine ⟨fun p s h => ?bind, fun p part s h => ?freeze⟩
  case bind =>
    have ht : taken p .bind s
        = answerWith p (bindSlot p (s.units.port p).params.slot (s.units.port p).params.part (s.taking p .bind)) :=
      taken_passing (passing_bind h)
    have refused : ∀ {e}, bindSlot p (s.units.port p).params.slot (s.units.port p).params.part (s.taking p .bind)
        = (s.taking p .bind, e) → exec (.bind p) s = .next (s.withUnits (s.answered p .bind (Posting.code e))) := fun hb =>
      row_answered (c := .bind) h (by rw [ht, hb, answerWith, answer_taking])
    dsimp only
    simp only [← claimed_iff]
    refine ⟨fun hl => refused (if_pos hl), fun hl hc => refused ?claimed, fun hl hc hr => refused ?unreadable,
      fun hl hc hr => ?bound⟩
    case claimed => exact (if_neg (not_not_intro hl)).trans (if_pos hc)
    case unreadable =>
      exact (if_neg (not_not_intro hl)).trans ((if_neg hc).trans (if_pos ⟨hr.1, Bool.not_eq_true _ ▸ hr.2⟩))
    case bound =>
      refine row_taken (c := .bind) h (ht.trans ?_) (answered_handOver h.toQuiet) (answered_draining h.toQuiet) rfl
      have hb : bindSlot p (s.units.port p).params.slot (s.units.port p).params.part (s.taking p .bind) = _ :=
        (if_neg (not_not_intro hl)).trans ((if_neg hc).trans (if_neg fun hn => hr ⟨hn.1, Bool.not_eq_true _ ▸ hn.2⟩))
      rw [hb]
      exact answered_setPu _
  case freeze =>
    have ht : taken p .freeze s = answer p .ok (freezePart p part (s.taking p .freeze)) := taken_passing h
    dsimp only
    refine ⟨fun hl => ?opened, fun hl => ?closed⟩
    case opened =>
      refine row_taken (c := .freeze) h.toTaking (ht.trans ?_) (answered_handOver h.toQuiet) (answered_draining h.toQuiet) rfl
      rw [freezePart_opened (u := s.taking p .freeze) hl, ← deliver_taking]
      rfl
    case closed =>
      refine row_answered (c := .freeze) h.toTaking (ht.trans ?_)
      rw [freezePart_closed (u := s.taking p .freeze) hl, answer_taking]

end Sys2Proof.Machine
end


section
/-! SUPPORT. A port that neither drains nor waits to be handed over stays so through the jobs that the Writer takes and through the
release of a claim (R58, R79, R170, R179). -/

namespace Sys2Proof.Machine

/-- A port whose frame end has nothing of its own to do: no drain, no hand-over (R170, R179). -/
def Units.Steady (p : Port) (u : Units) : Prop := (u.port p).handOver = false ∧ (u.port p).draining = false

namespace Units.Steady
variable {p : Port} {u v : Units}

theorem of_quiet {s : State} (h : Quiet p s) : s.units.Steady p := ⟨h.handed, h.steady⟩

/-- What leaves the ports leaves a steady one. -/
theorem of_ports (h : u.Steady p) (hv : v.ports = u.ports) : v.Steady p := by
  simpa only [Units.Steady, Units.port, hv] using h

/-- An outcome does not touch it. -/
theorem deliver (h : u.Steady p) (q : Port) (o : Posting) : (deliver q o u).Steady p := by
  unfold Units.Steady Machine.deliver
  rw [Units.modPort_eq]
  by_cases hq : q = p
  · subst hq
    rw [Units.port_setPort_self]
    split <;> exact h
  · rw [Units.port_setPort_of_ne _ hq]
    exact h

theorem settle (h : u.Steady p) (q : Port) : (settle q u).Steady p := by
  unfold Machine.settle
  split
  · rw [Units.modPort_eq]
    by_cases hq : q = p
    · subst hq
      simpa [Units.Steady] using h.1
    · simpa [Units.Steady, Units.port_setPort_of_ne _ hq] using h
  · exact h

theorem settle_eq (h : u.Steady p) : Machine.settle p u = u := settle_steady p u h.2

theorem settle_ports (h : u.Steady p) (hv : v.ports = u.ports) : Machine.settle p v = v := (h.of_ports hv).settle_eq

theorem finish (h : u.Steady p) (q : Port) : (finish q u).Steady p :=
  Units.Steady.settle (by exact h.of_ports rfl) q

/-! ## The release of a claim (R79) -/

theorem waitersAnswered (h : u.Steady p) (part : Nat) : (u.waitersAnswered part).Steady p := by
  have hport : (u.waitersAnswered part).port p = match (if p ∈ claimQueue part u then u.waitEnds part p else none) with
      | some c => if (u.port p).inHand = none then u.port p else { u.port p with outcome := some (Posting.code c) }
      | none => u.port p := by cases p <;> rfl
  unfold Units.Steady
  rw [hport]
  split
  · split <;> exact h
  · exact h

theorem grantClaim (h : u.Steady p) (part : Nat) (q : Port) : (grantClaim part q u).Steady p :=
  Units.Steady.deliver (by exact h.of_ports rfl) q _

theorem passClaim (h : u.Steady p) (part : Nat) : (passClaim part u).Steady p := by
  unfold Machine.passClaim
  split
  · exact h
  · split
    · exact Units.Steady.grantClaim (by exact h.of_ports rfl) _ _
    · exact h

theorem sweepWoken (h : u.Steady p) : u.sweepWoken.Steady p := by
  simpa only [Units.Steady, sweepWoken_port] using h

theorem releaseClaim (h : u.Steady p) (part : Nat) : (releaseClaim part u).Steady p := by
  unfold Machine.releaseClaim
  rw [wakeSweep_eq, answerDue_eq]
  exact ((h.waitersAnswered part).passClaim part).sweepWoken

theorem endTransaction (h : u.Steady p) (q : Port) (after : Slot) : (endTransaction q after u).Steady p :=
  Units.Steady.settle (Units.Steady.releaseClaim (by exact h.of_ports rfl) _) q

/-! ## Jobs taken by the Writer (R58) -/

theorem inState (h : u.Steady p) (st : SlotState) (q : Port) {f : Units → Units} (hf : (f u).Steady p) :
    (inState st q f u).Steady p := by
  unfold Machine.inState
  split
  · exact hf
  · exact h

theorem completeEnded (h : u.Steady p) (q : Port) : (completeEnded q u).Steady p :=
  h.inState _ q ((h.deliver q _).endTransaction q _)

theorem commitFailed (h : u.Steady p) (c : ResultCode) (q : Port) : (commitFailed c q u).Steady p :=
  h.inState _ q (h.of_ports rfl)

theorem stageEnded (h : u.Steady p) (q : Port) (o : Posting) : (stageEnded q o u).Steady p := by
  unfold Machine.stageEnded
  dsimp only
  split
  · exact Units.Steady.deliver (by exact h.of_ports rfl) q o
  · exact h.of_ports rfl

theorem stageFailed (h : u.Steady p) (q : Port) (key : Nat) (c : ResultCode) : (stageFailed q key c u).Steady p := by
  unfold Machine.stageFailed
  dsimp only
  split
  · exact Units.Steady.stageEnded (by exact h.of_ports rfl) q _
  · exact h.stageEnded q _

theorem recordFailed (h : u.Steady p) (c : ResultCode) (r : RecordJob) : (recordFailed c r u).Steady p := by
  unfold Machine.recordFailed
  split
  · exact h.of_ports rfl
  · exact (h.stageFailed _ _ _).finish _
  · exact (h.commitFailed _ _).finish _

theorem startRecord (h : u.Steady p) (r : RecordJob) : (startRecord r u).Steady p := by
  unfold Machine.startRecord
  split
  · exact h.of_ports rfl
  · split
    · exact h.recordFailed _ _
    · exact h.of_ports rfl

theorem retireCommit (h : u.Steady p) (q : Port) (txn : Nat) : (retireCommit q txn u).Steady p := by
  unfold Machine.retireCommit
  split
  · exact h.of_ports rfl
  · unfold Machine.endComplete
    split
    · exact h.of_ports rfl
    · exact (h.completeEnded q).finish q

theorem promoteFrom (h : u.Steady p) (q : Port) (txn i : Nat) : (promoteFrom q txn i u).Steady p := by
  unfold Machine.promoteFrom
  split
  · exact h.of_ports rfl
  · unfold Machine.checkPromoted
    dsimp only
    split
    · exact h.of_ports rfl
    · exact Units.Steady.retireCommit (by exact h.of_ports rfl) q txn

theorem cleanNext (h : u.Steady p) (q : Port) : (cleanNext q u).Steady p := by
  unfold Machine.cleanNext
  dsimp only
  split
  · exact h.of_ports rfl
  · split
    · exact h.of_ports rfl
    · exact Units.Steady.finish (by exact h.of_ports rfl) q

theorem startJob (h : u.Steady p) (j : Job) : (startJob j u).Steady p := by
  have h' : (u.setRw { u.rw with cur := some ⟨j, .allocating, []⟩ }).Steady p := h.of_ports rfl
  cases j with
  | record r => exact h'.startRecord r
  | removal _ _ _ _ _ => exact h'.of_ports rfl
  | complete q _ txn _ => exact h'.promoteFrom q txn 0
  | abortClean q => exact h'.cleanNext q

theorem takeJobs : ∀ (fuel : Nat) {u : Units}, u.Steady p → (takeJobs fuel u).Steady p
  | 0, _, h => h
  | fuel + 1, u, h => by
    unfold Machine.takeJobs
    split
    · exact takeJobs fuel (Units.Steady.startJob (by exact h.of_ports rfl) _)
    · exact h

theorem kick (h : u.Steady p) : (kick u).Steady p := h.takeJobs _

/-- The frame of a steady port ends with the Writer's next job, and no more. -/
theorem frameEnd (h : u.Steady p) : Machine.settle p (Machine.kick (u.modPort p MasterPort.handedOver)) = Machine.kick u := by
  have hsame : u.modPort p MasterPort.handedOver = u := by
    rw [Units.modPort_eq, handedOver_steady h.1, Units.setPort_port]
  rw [hsame, h.kick.settle_eq]

end Units.Steady

theorem taking_steady {p : Port} {c : Cmd} {s : State} (h : Quiet p s) : (s.taking p c).Steady p :=
  ⟨taking_handOver h, taking_draining h⟩

/-- A command that leaves its port steady: the Writer takes its next job, if it can. -/
theorem row_kicked {p : Port} {c : Cmd} {s : State} (h : Taking p s) {u : Units} (ht : taken p c s = u) (hu : u.Steady p) :
    exec (c.row p) s = .next (s.withUnits (kick u)) := by
  rw [row_command, commandRow_running h.running, commandCode_taking h, ht, hu.frameEnd]

end Sys2Proof.Machine
end


section
/-! SUPPORT. COMMIT and ABORT at a slot in OPEN, and the transaction commands that find an event due to it (R75, R79, R84, R92,
R95 to R97, R147). -/

namespace Sys2Proof.Machine

/-! ## An event taken ahead of its row (log 66) -/

section Event
variable {p : Port} {u v : Units} {ends waits : Port → Bool} {r : EndReason} {c : ResultCode}

/-- What an event does does not speak of the events that wait. -/
theorem Units.EventTaken.of_events {es : List LockEvent} (h : (setLockEvents es u).EventTaken ends waits r c v) :
    u.EventTaken ends waits r c v :=
  ⟨h.slots, h.ports, h.numbers, h.queues, h.index, h.engine, h.notices, h.writer, h.others⟩

theorem Units.EventTaken.of_revocations {rs : List Revocation} (h : (setRevocations rs u).EventTaken ends waits r c v) :
    u.EventTaken ends waits r c v :=
  ⟨h.slots, h.ports, h.numbers, h.queues, h.index, h.engine, h.notices, h.writer, h.others⟩

theorem Units.EventTaken.steady (h : u.EventTaken ends waits r c v) (hu : u.Steady p) : v.Steady p := by
  unfold Units.Steady
  rw [h.ports]
  split <;> exact hu

/-- A transaction ended by the event is ABORTING with the reason. -/
theorem Units.EventTaken.aborting (h : u.EventTaken ends waits r c v) (he : ends p = true) :
    (v.slot p).state = .aborting ∧ (v.slot p).reason = some r := by
  rw [h.slots, he]
  exact ⟨rfl, rfl⟩

end Event

/-- A transaction command that finds its transaction ended by an event due to it waits for the end of the abort (R75, R147). -/
theorem row_due {p : Port} {c : Cmd} {part : Nat} {s : State} {v : Units} {ends waits : Port → Bool} {r : EndReason}
    {a : ResultCode} (hc : c ∈ [Cmd.commit, .abort, .renew, .stageWrite, .stageDelete]) (h : Passing c p part s)
    (hv : actDue p (s.taking p c) = v) (he : (s.taking p c).EventTaken ends waits r a v) (hp : ends p = true) :
    exec (c.row p) s = .next (s.withUnits (kick (v.setSlot p { v.slot p with pending := some c }))) := by
  obtain ⟨hst, hr⟩ := he.aborting hp
  have hc' : c ∈ [Cmd.stageWrite, .stageDelete, .commit, .abort, .renew] := by
    simp only [List.mem_cons, List.not_mem_nil, or_false] at hc ⊢
    rcases hc with rfl | rfl | rfl | rfl | rfl <;> simp
  refine row_kicked h.toTaking ((taken_passing h).trans ((carryOut_due hc' hv (by simp [hst])).trans (notOpen_aborting hst hr))) ?_
  exact (he.steady (taking_steady h.toQuiet)).of_ports rfl

/-- The event due, by its kind (R97, R147). -/
theorem rows_due {p : Port} {c : Cmd} {part : Nat} {s : State} (ho : (s.units.slot p).state = .opened)
    (hc : c ∈ [Cmd.commit, .abort, .renew, .stageWrite, .stageDelete]) (h : Passing c p part s) (hq : s.units.queued) :
    let sl := s.units.slot p
    let holds (v : Units) : Prop :=
      exec (c.row p) s = .next (s.withUnits (kick (v.setSlot p { v.slot p with pending := some c })))
    (s.units.frozenByOwn p → (∀ g, (s.units.slot g).holds sl.part = true → g = p) →
      ∃ v, (s.taking p c).LockTaken sl.part v ∧ holds v
        ∧ v.tm.lockEvents = s.units.tm.lockEvents.erase ⟨sl.part, some p⟩ ∧ v.tm.revocations = s.units.tm.revocations)
    ∧ (¬ s.units.frozenByOwn p → ∀ before r after, s.units.tm.revocations = before ++ r :: after →
      (∀ x ∈ before, s.units.hitBy p x = false) → s.units.hitBy p r = true →
      ∃ v, (s.taking p c).RevocationTaken r v ∧ holds v
        ∧ v.tm.lockEvents = s.units.tm.lockEvents ∧ v.tm.revocations = before ++ after) := by
  dsimp only
  refine ⟨fun hf hone => ?locked, fun hf before r after hr hb hh => ?revoked⟩
  case locked =>
    obtain ⟨htaken, hlocks, hrevs⟩ := actLock_taken (s.units.slot p).part
      (setLockEvents (s.units.tm.lockEvents.erase ⟨(s.units.slot p).part, some p⟩) (s.taking p c)) hq
      (fun g k hg hk => (hone g hg).trans (hone k hk).symm)
    refine ⟨_, htaken.of_events, ?_, hlocks, hrevs⟩
    exact row_due hc h (actDue_own (u := s.taking p c) ho hf) htaken.of_events (decide_eq_true ⟨ho, rfl⟩)
  case revoked =>
    obtain ⟨htaken, hlocks, hrevs⟩ := actRevocation_taken r (setRevocations (before ++ after) (s.taking p c)) hq
    refine ⟨_, htaken.of_revocations, ?_, hlocks, hrevs⟩
    exact row_due hc h (actDue_revoked (u := s.taking p c) ho hf hr hb hh) htaken.of_revocations
      (Bool.and_eq_true_iff.2 ⟨hh, decide_eq_true ho⟩)

/-! ## COMMIT (R92, R94) -/

section Commit
variable {p : Port} {u : Units}

theorem takeCommit_opened (ho : (u.slot p).state = .opened) (h1 : ¬ u.frozenByOwn p) (h2 : ¬ u.revoked p) :
    takeCommit p u =
      if (u.slot p).members.isEmpty && (u.slot p).stage.isNone then endTransaction p Slot.start (answer p .ok u)
      else sendJob (commitJob p (u.slot p)) (u.setSlot p { u.slot p with state := .committing, lease := none }) := by
  unfold takeCommit
  rw [actDue_undue h1 h2]
  dsimp only
  rw [if_neg (not_not_intro ho)]

theorem takeAbort_opened (ho : (u.slot p).state = .opened) (h1 : ¬ u.frozenByOwn p) (h2 : ¬ u.revoked p) :
    takeAbort p u
      = sendJob (.abortClean p) (u.setSlot p { u.slot p with state := .aborting, lease := none, reply := some .ok }) := by
  unfold takeAbort
  rw [actDue_undue h1 h2]
  dsimp only
  rw [if_neg (not_not_intro ho)]

/-- A job sent to a Writer with a job, or one that has nothing queued, is the only one that may be taken. -/
theorem kick_sendJob_busy (j : Job) (h : u.rw.cur ≠ none) : kick (sendJob j u) = sendJob j u :=
  kick_idle _ (.inl (Option.isSome_iff_ne_none.2 h))

theorem kick_sendJob_free (j : Job) (hc : u.rw.cur = none) (hq : u.rw.queue = []) :
    kick (sendJob j u) = kick (startJob j u) := by
  have hqueue : (sendJob j u).rw.queue = j :: [] := by
    show u.rw.queue ++ [j] = _
    rw [hq]
    rfl
  rw [kick_next (u := sendJob j u) (j := j) (rest := []) hc hqueue]
  have hsame : (sendJob j u).setRw { (sendJob j u).rw with queue := [] } = u := by
    have : { (sendJob j u).rw with queue := [] } = u.rw := by rw [← hq]; rfl
    rw [this]
    rfl
  rw [hsame]

theorem kick_busy (h : u.rw.cur ≠ none) : kick u = u := kick_idle u (.inl (Option.isSome_iff_ne_none.2 h))

end Commit

section Rows
variable {p : Port} {s : State}

/-- A Writer without a job has none queued where a quiet port ends its frame (R58). -/
theorem Quiet.queue_nil (h : Quiet p s) (hc : s.units.rw.cur = none) : s.units.rw.queue = [] := by
  rcases h.writer with hw | hw
  · rw [hc] at hw
    cases hw
  · exact hw

/-- A record job begun with generations left asks for its place (R57, R60). -/
theorem startJob_record_generation {r : RecordJob} {u : Units} (hr : r.gen = none) (hg : u.rw.gen < 4294967294) :
    startJob (.record r) u = present .writer (.allocate r.cells) (u.setRw { u.rw with
      gen := u.rw.gen + 1, cur := some ⟨.record { r with gen := some u.rw.gen }, .allocating, []⟩ }) := by
  have hlimit : ¬ Config.generationLimit ≤ u.rw.gen := by
    simp only [Config.generationLimit]
    omega
  have hgen : ¬ r.gen.isSome = true := by simp [hr]
  unfold startJob startRecord
  exact (if_neg hgen).trans ((if_neg hlimit).trans rfl)

/-- A COMMIT record job that finds the generations used up aborts its transaction (R57, R94). -/
theorem startJob_commit_exhausted {r : RecordJob} {u : Units} (hr : r.gen = none) (hrole : r.role = .commit)
    (hs : (u.slot r.port).state = .committing) (hg : 4294967294 ≤ u.rw.gen) :
    startJob (.record r) u = settle r.port ((u.setSlot r.port { u.slot r.port with
      state := .aborting, reply := some .genExhausted }).setRw { u.rw with
        queue := u.rw.queue ++ [.abortClean r.port], cur := none, io := ⟨none, false⟩ }) := by
  have hlimit : Config.generationLimit ≤ u.rw.gen := hg
  have hgen : ¬ r.gen.isSome = true := by simp [hr]
  have hs' : ((u.setRw { u.rw with cur := some ⟨.record r, .allocating, []⟩ }).slot r.port).state = .committing := hs
  unfold startJob startRecord
  refine (if_neg hgen).trans ((if_pos hlimit).trans ?_)
  rw [recordFailed, hrole]
  dsimp only
  rw [commitFailed, inState, if_pos hs']
  rfl

/-- An ABORT_CLEAN begun at a transaction with members retires the first (R69). -/
theorem startJob_clean_member {u : Units} {m : Member} {ms : List Member} (hm : (u.slot p).members = m :: ms) :
    startJob (.abortClean p) u = u.setRw { u.rw with
      cur := some ⟨.abortClean p, .retiring (.aborted 0) m.loc 0 1, [m.loc]⟩,
      io := ⟨some ⟨.writer, m.loc.seg, .program m.loc.cell (0xEF :: List.replicate 15 0xFF)⟩, false⟩ } := by
  have hat : memberAt p 0 (u.setRw { u.rw with cur := some ⟨.abortClean p, .allocating, []⟩ }) = some m := by
    show ((u.slot p).members)[0]? = some m
    rw [hm]
    rfl
  have hrec : recordedOf (u.setRw { u.rw with cur := some ⟨.abortClean p, .allocating, []⟩ }) = [] := rfl
  simp only [startJob, cleanNext, hrec, List.length_nil, hat]
  rfl

/-- An ABORT_CLEAN begun at a transaction without members ends as it is taken, and its RELEASE is presented (R69, R84). -/
theorem startJob_clean_empty {u : Units} (hm : (u.slot p).members = []) :
    startJob (.abortClean p) u = settle p (present (.txn p) (.release (.members p))
      ((u.setSlot p { u.slot p with holdMoves := true }).setRw { u.rw with cur := none, io := ⟨none, false⟩ })) := by
  have hat : memberAt p 0 (u.setRw { u.rw with cur := some ⟨.abortClean p, .allocating, []⟩ }) = none := by
    show ((u.slot p).members)[0]? = none
    rw [hm]
    rfl
  have hrec : recordedOf (u.setRw { u.rw with cur := some ⟨.abortClean p, .allocating, []⟩ }) = [] := rfl
  have hmoved : movedMember []
      ((holdMoves p true (u.setRw { u.rw with cur := some ⟨.abortClean p, .allocating, []⟩ })).slot p).members = none := by
    have : ((holdMoves p true (u.setRw { u.rw with cur := some ⟨.abortClean p, .allocating, []⟩ })).slot p).members
        = (u.slot p).members := by simp [holdMoves, Units.modSlot_eq]
    rw [this, hm]
    rfl
  simp only [startJob, cleanNext, hrec, List.length_nil, hat, hmoved]
  rfl

end Rows

/-- COMMIT in OPEN with nothing due (R79, R92, R94). -/
theorem commit_rows {p : Port} {s : State} (ho : (s.units.slot p).state = .opened) (h : Passing .commit p 0 s)
    (h1 : ¬ s.units.frozenByOwn p) (h2 : ¬ s.units.revoked p) :
    let sl := s.units.slot p
    let job : Job := .record ⟨p, .commit, .commit, sl.part, sl.members.length, 0, sl.number, [], none, 0⟩
    (sl.members = [] → sl.stage = none →
      ∃ v, ((s.answered p .commit (Posting.code .ok)).setSlot p Slot.start).Released sl.part v
        ∧ exec (.commit p) s = .next (s.withUnits v))
    ∧ (¬ (sl.members = [] ∧ sl.stage = none) → s.units.rw.cur ≠ none →
      exec (.commit p) s = .next (s.withUnits
        (sendJob job ((s.taking p .commit).setSlot p { sl with state := .committing, lease := none }))))
    ∧ (¬ (sl.members = [] ∧ sl.stage = none) → s.units.rw.cur = none → s.units.rw.gen < 4294967294 →
      exec (.commit p) s = .next (s.withUnits
        (present .writer (.allocate 1)
          (((s.taking p .commit).setSlot p { sl with state := .committing, lease := none }).setRw { s.units.rw with
            gen := s.units.rw.gen + 1, queue := [],
            cur := some ⟨.record ⟨p, .commit, .commit, sl.part, sl.members.length, 0, sl.number, [],
              some s.units.rw.gen, 0⟩, .allocating, []⟩ }))))
    ∧ (¬ (sl.members = [] ∧ sl.stage = none) → s.units.rw.cur = none → 4294967294 ≤ s.units.rw.gen →
      exec (.commit p) s = .next (s.withUnits (kick
        (((s.taking p .commit).setSlot p { sl with
          state := .aborting, lease := none, reply := some .genExhausted }).setRw { s.units.rw with
            queue := [.abortClean p], cur := none, io := ⟨none, false⟩ })))) := by
  have hsteady : (s.taking p .commit).Steady p := taking_steady h.toQuiet
  have ht : taken p .commit s = _ := (taken_passing h).trans (takeCommit_opened (u := s.taking p .commit) ho h1 h2)
  have hempty : ((s.units.slot p).members.isEmpty && (s.units.slot p).stage.isNone) = true
      ↔ (s.units.slot p).members = [] ∧ (s.units.slot p).stage = none := by simp
  let w : Units := (s.taking p .commit).setSlot p { s.units.slot p with state := .committing, lease := none }
  have hw : w.Steady p := hsteady.of_ports rfl
  have hsend : ¬ ((s.units.slot p).members = [] ∧ (s.units.slot p).stage = none) →
      exec (.commit p) s = .next (s.withUnits (kick (sendJob (commitJob p (s.units.slot p)) w))) := fun hne =>
    row_kicked (c := .commit) h.toTaking (ht.trans (if_neg fun he => hne (hempty.1 he))) (hw.of_ports rfl)
  dsimp only
  refine ⟨fun hm hs => ?ended, fun hne hc => ?queued, fun hne hc hg => ?begun, fun hne hc hg => ?exhausted⟩
  case ended =>
    have hanswer : ((s.answered p .commit (Posting.code .ok)).setSlot p Slot.start).Steady p :=
      ⟨answered_handOver h.toQuiet, answered_draining h.toQuiet⟩
    have hrel := hanswer.releaseClaim (s.units.slot p).part
    have hend : taken p .commit s = releaseClaim (s.units.slot p).part
        ((s.answered p .commit (Posting.code .ok)).setSlot p Slot.start) := by
      refine ht.trans ((if_pos (hempty.2 ⟨hm, hs⟩)).trans ?_)
      rw [answer_taking, endTransaction]
      exact hrel.settle_eq
    refine ⟨_, releaseClaim_released _ _, row_taken (c := .commit) h.toTaking hend hrel.1 hrel.2 ?_⟩
    rw [releaseClaim_rw]
    rfl
  case queued =>
    rw [hsend hne, kick_sendJob_busy (u := w) _ hc]
    rfl
  case begun =>
    have hq : s.units.rw.queue = [] := h.toQuiet.queue_nil hc
    rw [hsend hne, kick_sendJob_free (u := w) _ hc hq, commitJob, startJob_record_generation (u := w) rfl hg,
      kick_busy (by simp)]
    simp only [RecordJob.cells, recordCells, Nat.zero_add, Nat.reduceDiv, Nat.reduceAdd, ← hq]
    rfl
  case exhausted =>
    have hq : s.units.rw.queue = [] := h.toQuiet.queue_nil hc
    have hst : (w.slot p).state = .committing := by simp [w]
    rw [hsend hne, kick_sendJob_free (u := w) _ hc hq, commitJob, startJob_commit_exhausted (u := w) rfl rfl hst hg]
    dsimp only
    rw [hw.settle_ports (hv := ?ports)]
    case ports => rfl
    have hslot : { w.slot p with state := .aborting, reply := some .genExhausted }
        = { s.units.slot p with state := .aborting, lease := none, reply := some .genExhausted } := by simp [w]
    have hqueue : w.rw.queue ++ [Job.abortClean p] = [.abortClean p] := by
      show s.units.rw.queue ++ _ = _
      rw [hq]
      rfl
    rw [hslot, hqueue, Units.setSlot_setSlot]
    rfl

/-- ABORT in OPEN with nothing due (R79, R95). -/
theorem abort_rows {p : Port} {s : State} (ho : (s.units.slot p).state = .opened) (h : Passing .abort p 0 s)
    (h1 : ¬ s.units.frozenByOwn p) (h2 : ¬ s.units.revoked p) :
    let sl := s.units.slot p
    let aborting : Slot := { sl with state := .aborting, lease := none, reply := some .ok }
    (s.units.rw.cur ≠ none →
      exec (.abort p) s = .next (s.withUnits (sendJob (.abortClean p) ((s.taking p .abort).setSlot p aborting))))
    ∧ (s.units.rw.cur = none → ∀ m ms, sl.members = m :: ms →
      exec (.abort p) s = .next (s.withUnits (((s.taking p .abort).setSlot p aborting).setRw { s.units.rw with
        queue := [],
        cur := some ⟨.abortClean p, .retiring (.aborted 0) m.loc 0 1, [m.loc]⟩,
        io := ⟨some ⟨.writer, m.loc.seg, .program m.loc.cell (0xEF :: List.replicate 15 0xFF)⟩, false⟩ })))
    ∧ (s.units.rw.cur = none → sl.members = [] →
      exec (.abort p) s = .next (s.withUnits (present (.txn p) (.release (.members p))
        (((s.taking p .abort).setSlot p { aborting with holdMoves := true }).setRw
          { s.units.rw with queue := [], cur := none, io := ⟨none, false⟩ })))) := by
  have hsteady : (s.taking p .abort).Steady p := taking_steady h.toQuiet
  let w : Units := (s.taking p .abort).setSlot p { s.units.slot p with state := .aborting, lease := none, reply := some .ok }
  have hw : w.Steady p := hsteady.of_ports rfl
  have hslot : w.slot p = { s.units.slot p with state := .aborting, lease := none, reply := some .ok } := by simp [w]
  have ht : taken p .abort s = sendJob (.abortClean p) w :=
    (taken_passing h).trans (takeAbort_opened (u := s.taking p .abort) ho h1 h2)
  have hsend : exec (.abort p) s = .next (s.withUnits (kick (sendJob (.abortClean p) w))) :=
    row_kicked (c := .abort) h.toTaking ht (hw.of_ports rfl)
  dsimp only
  refine ⟨fun hc => ?queued, fun hc m ms hm => ?retiring, fun hc hm => ?empty⟩
  case queued => rw [hsend, kick_sendJob_busy (u := w) _ hc]
  case retiring =>
    have hq : s.units.rw.queue = [] := h.toQuiet.queue_nil hc
    rw [hsend, kick_sendJob_free (u := w) _ hc hq, startJob_clean_member (u := w) (m := m) (ms := ms) (by rw [hslot]; exact hm),
      kick_busy (by simp)]
    simp only [← hq]
    rfl
  case empty =>
    have hq : s.units.rw.queue = [] := h.toQuiet.queue_nil hc
    rw [hsend, kick_sendJob_free (u := w) _ hc hq, startJob_clean_empty (u := w) (by rw [hslot]; exact hm),
      hw.settle_ports (hv := ?ports), kick_idle (h := ?idle), hslot, Units.setSlot_setSlot]
    case ports => rfl
    case idle => exact .inr hq
    simp only [← hq]
    rfl

/-- Settles O31: an event due is taken first; else COMMIT and ABORT by the members and by what the Writer has. -/
theorem commitAndAbortTake : Obligations.CommitAndAbortTake := by
  unfold Obligations.CommitAndAbortTake
  intro p s
  dsimp only
  intro ho
  exact ⟨fun c part hc h hq => rows_due ho hc h hq, fun h hu => commit_rows ho h hu.1 hu.2,
    fun h hu => abort_rows ho h hu.1 hu.2⟩

end Sys2Proof.Machine
end


section
/-! SUPPORT. CANCEL (R174): a BEGIN that waits for its claim, and a job on the space wait list, end CANCELLED; every other
CANCEL sets the collision flag. -/

namespace Sys2Proof.Machine

section Charges
variable {p : Port} {key : Nat}

/-- The oldest charge of a stage is dropped, those before it being of other keys or ports. -/
theorem dropFirst_split {before after : List ChargeEntry} {e : ChargeEntry} (hs : e.staged = true) (hp : e.port = p)
    (hk : e.key = key) (hb : ∀ g ∈ before, ¬ (g.staged = true ∧ g.port = p ∧ g.key = key)) :
    IndexUnit.dropFirst p key (before ++ e :: after) = before ++ after := by
  induction before with
  | nil => simp [IndexUnit.dropFirst, hs, hp, hk]
  | cons g gs ih =>
    have hg := hb g List.mem_cons_self
    have ih := ih fun x hx => hb x (List.mem_cons_of_mem _ hx)
    simp only [List.cons_append, IndexUnit.dropFirst]
    rw [if_neg (by simpa [and_assoc] using hg), ih]

/-- The youngest charge of a stage is dropped (R53). -/
theorem dropLast_split {before after : List ChargeEntry} {e : ChargeEntry} (hs : e.staged = true) (hp : e.port = p)
    (hk : e.key = key) (ha : ∀ g ∈ after, ¬ (g.staged = true ∧ g.port = p ∧ g.key = key)) :
    IndexUnit.dropLast p key (before ++ e :: after) = before ++ after := by
  have hrev : (before ++ e :: after).reverse = after.reverse ++ e :: before.reverse := by simp
  rw [IndexUnit.dropLast, hrev, dropFirst_split hs hp hk (fun g hg => ha g (List.mem_reverse.1 hg))]
  simp

end Charges

section Cancel
variable {p : Port} {s : State} {u : Units}

/-- A CANCEL whose action leaves the port steady and the Writer as it is. -/
theorem cancel_row (h : Quiet p s) {v : Units} (hv : takeCancel p (s.sentBack p (s.statusOut p)) = v) (hs : v.Steady p)
    (hw : v.rw = s.units.rw) : exec (.cancel p) s = .next (s.withUnits v) := by
  have hrow : exec (.cancel p) s = .next (s.withUnits (writeFrame p 0x01 ctlCancel s.units)) := onFrame_running h.running
  rw [hrow, controlFrame_quiet h, takeControl_cancel, hv, frameEnd_steady hs.1 hs.2 (hw ▸ h.writer)]

theorem sentBack_steady (h : Quiet p s) (out : List Byte) : (s.sentBack p out).Steady p := by
  simpa [Units.Steady, State.sentBack] using And.intro h.handed h.steady

@[simp] theorem sentBack_inHand (out : List Byte) : ((s.sentBack p out).port p).inHand = (s.units.port p).inHand := by
  simp [State.sentBack]

/-! ## The branches of R174 -/

theorem takeCancel_idle (h : (u.port p).inHand = none) : takeCancel p u = collide p u := by simp only [takeCancel, h]

theorem takeCancel_waiting {c : InHand} (h : (u.port p).inHand = some c) (hc : c.cmd = .begin) (hs : (u.slot p).state = .waiting) :
    takeCancel p u = endWait p .cancelled u := by simp only [takeCancel, h, hc, hs, if_true]

theorem takeCancel_begun {c : InHand} (h : (u.port p).inHand = some c) (hc : c.cmd = .begin) (hs : (u.slot p).state ≠ .waiting) :
    takeCancel p u = collide p u := by simp only [takeCancel, h, hc, hs, if_true, if_false]

theorem takeCancel_listed {c : InHand} {r : RecordJob} (h : (u.port p).inHand = some c)
    (hc : c.cmd ∈ [Cmd.write, .delete, .stageWrite, .stageDelete, .commit]) (hr : waitingJob p u = some r) :
    takeCancel p u = endSpaceJob .cancelled r (leaveSpaceList p u) := by
  have hspace : c.cmd.maySpace = true ∧ c.cmd ≠ .begin := by
    simp only [List.mem_cons, List.not_mem_nil, or_false] at hc
    rcases hc with hc | hc | hc | hc | hc <;> simp [hc, Cmd.maySpace]
  simp only [takeCancel, h, hspace.2, hr, hspace.1, if_true, if_false]

theorem takeCancel_unlisted {c : InHand} (h : (u.port p).inHand = some c)
    (hc : c.cmd ∈ [Cmd.write, .delete, .stageWrite, .stageDelete, .commit]) (hr : waitingJob p u = none) :
    takeCancel p u = collide p u := by
  have hbegin : c.cmd ≠ .begin := by
    simp only [List.mem_cons, List.not_mem_nil, or_false] at hc
    rcases hc with hc | hc | hc | hc | hc <;> simp [hc]
  simp only [takeCancel, h, hbegin, hr, if_false]

theorem takeCancel_other {c : InHand} (h : (u.port p).inHand = some c)
    (hc : c.cmd ∉ [Cmd.begin, .write, .delete, .stageWrite, .stageDelete, .commit]) : takeCancel p u = collide p u := by
  simp only [List.mem_cons, List.not_mem_nil, or_false, not_or] at hc
  obtain ⟨hb, h1, h2, h3, h4, h5⟩ := hc
  have hspace : c.cmd.maySpace = false := by
    cases hcmd : c.cmd <;> simp_all [Cmd.maySpace]
  simp only [takeCancel, h, hb, hspace, if_false, Bool.false_eq_true]
  split <;> rfl

/-! ## A job that leaves the space wait list (R53, R88, R94) -/

theorem endSpaceJob_single {r : RecordJob} {e : ResultCode} (hr : r.role = .single) : endSpaceJob e r u
    = settle r.port (answer r.port e (u.setIu { u.iu with charges := IndexUnit.dropSingle r.port u.iu.charges })) := by
  simp only [endSpaceJob, hr]

theorem endSpaceJob_stage {r : RecordJob} {e : ResultCode} (hr : r.role = .stage) (ho : (u.slot r.port).state = .opened) :
    endSpaceJob e r u = settle r.port (answer r.port e
      ((u.setIu { u.iu with charges := IndexUnit.dropLast r.port r.key u.iu.charges }).setSlot r.port
        { u.slot r.port with stage := none })) := by
  simp only [endSpaceJob, hr, stageEnded, Units.slot_setIu, ho, if_true]
  rfl

theorem endSpaceJob_commit {r : RecordJob} {e : ResultCode} (hr : r.role = .commit) (hc : (u.slot r.port).state = .committing)
    (hd : (u.port r.port).draining = false) :
    endSpaceJob e r u = settle r.port (answer r.port e (u.setSlot r.port { u.slot r.port with
      state := .opened, lease := some (newLease (leaseUnits (u.slot r.port).part u) u) })) := by
  simp only [endSpaceJob, hr, commitReturned, inState, hc, hd, if_true, Bool.false_eq_true, if_false, startLease, Units.modSlot_eq,
    Units.slot_setSlot_self, Units.setSlot_setSlot]
  rfl

theorem endSpaceJob_commit_other {r : RecordJob} {e : ResultCode} (hr : r.role = .commit)
    (hc : (u.slot r.port).state ≠ .committing) :
    endSpaceJob e r u = settle r.port u := by
  simp only [endSpaceJob, hr, commitReturned, inState, hc, if_false]

end Cancel

/-- An answer at a port as it has just been set. -/
theorem answer_setPort {p : Port} {e : ResultCode} {w : Units} {y : MasterPort} {c : InHand} (h : y.inHand = some c) :
    answer p e (w.setPort p y) = w.setPort p { y with outcome := some (Posting.code e) } := by
  simp [answer, deliver, Units.modPort_eq, h]

theorem setPort_steady {p : Port} {w : Units} {y : MasterPort} (hh : y.handOver = false) (hd : y.draining = false) :
    (w.setPort p y).Steady p := by simp [Units.Steady, hh, hd]

/-- The answer to a command whose job has left the space wait list, in the frame of its CANCEL. -/
theorem cancelled_listed {p : Port} {s : State} {c : InHand} (h : Quiet p s) (hn : (s.units.port p).inHand = some c) (w : Units) :
    settle p (answer p .cancelled (w.setPort p { s.units.port p with lastOut := s.statusOut p }))
      = w.setPort p { s.units.port p with outcome := some (Posting.code .cancelled), lastOut := s.statusOut p } := by
  have hanswer := answer_setPort (p := p) (e := .cancelled) (w := w) (c := c)
    (y := { s.units.port p with lastOut := s.statusOut p }) hn
  rw [hanswer]
  exact Units.Steady.settle_eq (setPort_steady h.handed h.steady)

/-- Settles O22: by the command in hand, then by the role of the job on the space wait list. -/
theorem cancelTakes : Obligations.CancelTakes := by
  unfold Obligations.CancelTakes
  intro p s h
  let u := s.sentBack p (s.statusOut p)
  have hu : u.Steady p := sentBack_steady h _
  have hhand : (u.port p).inHand = (s.units.port p).inHand := sentBack_inHand _
  have collided : takeCancel p u = collide p u → exec (.cancel p) s = .next (s.withUnits
      (s.units.setPort p { s.units.port p with collision := true, lastOut := s.statusOut p })) := fun ht =>
    cancel_row h (ht.trans (by simp [collide, u, State.sentBack, Units.modPort_eq]))
      (by simpa [Units.Steady] using And.intro h.handed h.steady) rfl
  dsimp only
  refine ⟨fun hn => collided (takeCancel_idle (hhand.trans hn)), fun c hn hc hs => ?waiting,
    fun c hn hc hs => collided (takeCancel_begun (hhand.trans hn) hc hs),
    fun c r hn hc hr hp => ⟨?single, ?stage, ?commit, ?gone⟩,
    fun c hn hc hr => collided (takeCancel_unlisted (hhand.trans hn) hc hr),
    fun c hn hc => collided (takeCancel_other (hhand.trans hn) hc)⟩
  case waiting =>
    have hend : endWait p .cancelled u = ((leaveQueue (s.units.slot p).part p u).setSlot p Slot.start).setPort p
        { s.units.port p with outcome := some (Posting.code .cancelled), lastOut := s.statusOut p } :=
      (answer_setPort (p := p) (w := (leaveQueue (s.units.slot p).part p s.units).setSlot p Slot.start)
        (y := { s.units.port p with lastOut := s.statusOut p }) hn).trans (Units.setPort_setPort _ p _ _).symm
    refine cancel_row h ((takeCancel_waiting (hhand.trans hn) hc hs).trans hend) ?_ rfl
    simpa [Units.Steady] using And.intro h.handed h.steady
  all_goals subst hp
  all_goals
    have hlisted : takeCancel r.port u = endSpaceJob .cancelled r (leaveSpaceList r.port u) :=
      takeCancel_listed (hhand.trans hn) hc hr
  case single =>
    intro hrole
    have hdone := cancelled_listed h hn ((leaveSpaceList r.port s.units).setIu { (leaveSpaceList r.port s.units).iu with
      charges := IndexUnit.dropSingle r.port s.units.iu.charges })
    exact cancel_row h (hlisted.trans ((endSpaceJob_single hrole).trans hdone)) (setPort_steady h.handed h.steady) rfl
  case stage =>
    intro before e after hrole ho hcs hst hport hkey hafter
    have hdone := cancelled_listed h hn (((leaveSpaceList r.port s.units).setIu { (leaveSpaceList r.port s.units).iu with
      charges := IndexUnit.dropLast r.port r.key s.units.iu.charges }).setSlot r.port { s.units.slot r.port with stage := none })
    rw [← dropLast_split hst hport hkey hafter, ← hcs]
    have hstage := endSpaceJob_stage (e := .cancelled) (u := leaveSpaceList r.port u) hrole ho
    have hrow := hlisted.trans (hstage.trans hdone)
    exact cancel_row h hrow (setPort_steady h.handed h.steady) rfl
  case commit =>
    intro hrole hcommit
    have hdone := cancelled_listed h hn ((leaveSpaceList r.port s.units).setSlot r.port { s.units.slot r.port with
      state := .opened, lease := some (newLease (leaseUnits (s.units.slot r.port).part s.units) s.units) })
    have hopened := endSpaceJob_commit (e := .cancelled) (u := leaveSpaceList r.port u) hrole hcommit (hu.of_ports rfl).2
    have hrow := hlisted.trans (hopened.trans hdone)
    exact cancel_row h hrow (setPort_steady h.handed h.steady) rfl
  case gone =>
    intro hrole hcommit
    have hgone := endSpaceJob_commit_other (e := .cancelled) (u := leaveSpaceList r.port u) hrole hcommit
    have hrow := hlisted.trans (hgone.trans (hu.settle_ports rfl))
    exact cancel_row h hrow (hu.of_ports rfl) rfl

end Sys2Proof.Machine
end


section
/-! SUPPORT. WATCH and NOTICE_POP (R157, R163, section 11.2), the commands of the edit session (R148 to R150), RECLAIM and INFO
(R102, R178). -/

namespace Sys2Proof.Machine

theorem answered_setNotices {p : Port} {c : Cmd} {o : Posting} {s : State} (x : NoticePort) :
    deliver p o ((s.taking p c).setNotices p x) = (s.answered p c o).setNotices p x := by
  rw [← deliver_taking]
  rfl

theorem answered_setCe {p : Port} {c : Cmd} {o : Posting} {s : State} (x : CompactionEngine) :
    deliver p o ((s.taking p c).setCe x) = (s.answered p c o).setCe x := by
  rw [← deliver_taking]
  rfl

/-! ## WATCH (R157) -/

namespace NoticePort
variable {x : NoticePort} {w : Watch}

theorem addWatch_of_mem (h : w ∈ x.watches) : x.addWatch w = (x, .ok) := by simp [addWatch, h]

theorem addWatch_full (h : w ∉ x.watches) (hf : 8 ≤ x.watches.length) : x.addWatch w = (x, .watchFull) := by
  simp [addWatch, watchCapacity, h, hf]

theorem addWatch_new (h : w ∉ x.watches) (hf : x.watches.length < 8) :
    x.addWatch w = ({ x with watches := x.watches ++ [w] }, .ok) := by
  simp [addWatch, watchCapacity, h, Nat.not_le.2 hf]

theorem pop_cons {n : Notice} {rest : List Notice} (h : x.queue = n :: rest) : x.pop = ({ x with queue := rest },
    ⟨{ Results.zero with
        code := 0x01, count := BitVec.ofNat 8 rest.length, flags := 4 ||| (if x.overflow then 8 else 0),
        lost := BitVec.ofNat 8 x.lost }, n.bytes⟩) := by
  have hflags : outputFlags false false true x.overflow = 4 ||| (if x.overflow then 8 else 0) := by
    cases x.overflow <;> decide
  unfold pop
  rw [h]
  dsimp only
  rw [hflags]
  rfl

theorem pop_nil (h : x.queue = []) : x.pop = ({ x with overflow := false, lost := 0 },
    ⟨{ Results.zero with
        code := 0x01, count := 0, flags := if x.overflow then 8 else 0, lost := BitVec.ofNat 8 x.lost }, []⟩) := by
  have hflags : outputFlags false false false x.overflow = if x.overflow then 8 else 0 := by
    cases x.overflow <;> decide
  unfold pop
  rw [h]
  dsimp only
  rw [hflags]
  rfl

end NoticePort

theorem takeWatch_ok {p : Port} {w : Watch} {u : Units} {x : NoticePort} (h : (u.notices p).addWatch w = (x, .ok)) :
    takeWatch p w u = deliver p (Posting.okWith { Results.zero with watchPart := BitVec.ofNat 8 w.part }) (u.setNotices p x) := by
  simp only [takeWatch, h, if_true]

theorem takeWatch_refused {p : Port} {w : Watch} {u : Units} {e : ResultCode} (h : (u.notices p).addWatch w = (u.notices p, e))
    (he : e ≠ .ok) : takeWatch p w u = answer p e u := by
  simp only [takeWatch, h, he, if_false, Units.setNotices_notices]
  rfl

/-! ## The bytes of a notice (section 11.2) -/

theorem ofNat_byte_mod (v : Nat) : BitVec.ofNat 8 (v % 256) = BitVec.ofNat 8 v := by
  apply BitVec.eq_of_toNat_eq
  simp

theorem toBytes_one (v : Nat) : toBytes 1 v = [BitVec.ofNat 8 v] := by simp [toBytes]

theorem toBytes_two (v : Nat) : toBytes 2 v = [BitVec.ofNat 8 (v / 256), BitVec.ofNat 8 (v % 256)] := by
  simp [toBytes, ofNat_byte_mod]

/-- Four bytes are two halves. -/
theorem toBytes_four (v : Nat) : toBytes 4 v = toBytes 2 (v / 65536) ++ toBytes 2 (v % 65536) := by
  have hhi : BitVec.ofNat 8 (v / 256) = BitVec.ofNat 8 (v % 65536 / 256) := by
    apply BitVec.eq_of_toNat_eq
    simp only [BitVec.toNat_ofNat]
    omega
  have hlo : BitVec.ofNat 8 v = BitVec.ofNat 8 (v % 65536) := by
    apply BitVec.eq_of_toNat_eq
    simp only [BitVec.toNat_ofNat]
    omega
  have htop : v / 16777216 = v / 65536 / 256 := by omega
  simp [toBytes, htop, hhi, hlo]

theorem kind_byte (k : NoticeKind) : k.byte = BitVec.ofNat 8 (match k with
    | .keyChanged => 0x01 | .claimLost => 0x02 | .leaseWarning => 0x03 | .spaceLow => 0x04
    | .policyChanged => 0x05 | .policyDefaulted => 0x06 | .integrity => 0x07) := by cases k <;> rfl

theorem source_number (p : Option Port) : (p.map portNumber).getD 0xFF
    = match p with | none => 0xFF | some .a => 0x00 | some .b => 0x01 | some .c => 0x02 | some .d => 0x03 := by
  rcases p with _ | (_ | _ | _ | _) <;> rfl

theorem reason_byte (r : Option NoticeReason) : (r.map NoticeReason.byte).getD 0 = BitVec.ofNat 8 (match r with
    | none => 0x00 | some .updated => 0x01 | some .deleted => 0x02 | some .expired => 0x03 | some .locked => 0x04
    | some .revoked => 0x05 | some .suspect => 0x06 | some .bad => 0x07 | some .lost => 0x08 | some .policy => 0x09) := by
  rcases r with _ | r
  · rfl
  · cases r <;> rfl

/-- NOTICE_POP needs no check. -/
theorem passing_pop {p : Port} {s : State} (h : Taking p s) : Passing .noticePop p 0 s where
  toTaking := h
  admitted := by simp [admitted]
  inRange := by simp [outOfRange]

/-- Settles O34: the three outcomes of `addWatch`, the two of `pop`, and the fields of a notice one by one. -/
theorem watchAndPopTake : Obligations.WatchAndPopTake := by
  unfold Obligations.WatchAndPopTake
  refine ⟨fun p part s h => ?watch, fun p s h => ?pop, fun n => ?bytes⟩
  case watch =>
    have ht : taken p .watch s = takeWatch p ⟨part, (s.units.port p).params.watchKey⟩ (s.taking p .watch) := taken_passing h
    dsimp only
    refine ⟨fun hw => ?held, fun hw hf => ?full, fun hw hf => ?added⟩
    case held =>
      have hrow := takeWatch_ok (u := s.taking p .watch) (NoticePort.addWatch_of_mem hw)
      exact row_answered (c := .watch) h.toTaking (ht.trans (hrow.trans ((answered_setNotices _).trans
        (Units.setNotices_notices (s.answered p .watch _) p))))
    case full =>
      have hrow := takeWatch_refused (u := s.taking p .watch) (NoticePort.addWatch_full hw hf) (by decide)
      exact row_answered (c := .watch) h.toTaking (ht.trans (hrow.trans (answer_taking ..)))
    case added =>
      have hrow := takeWatch_ok (u := s.taking p .watch) (NoticePort.addWatch_new hw hf)
      exact row_taken (c := .watch) h.toTaking (ht.trans (hrow.trans (answered_setNotices _))) (answered_handOver h.toQuiet)
        (answered_draining h.toQuiet) rfl
  case pop =>
    have ht : taken p .noticePop s = takePop p (s.taking p .noticePop) := taken_passing (passing_pop h)
    have hrow : ∀ {x o}, (s.units.notices p).pop = (x, o) →
        exec (.noticePop p) s = .next (s.withUnits ((s.answered p .noticePop o).setNotices p x)) := fun {x o} hpop => by
      have hdone : takePop p (s.taking p .noticePop) = (s.answered p .noticePop o).setNotices p x := by
        rw [takePop, notices_taking, hpop]
        exact answered_setNotices _
      exact row_taken (c := .noticePop) h (ht.trans hdone) (answered_handOver h.toQuiet) (answered_draining h.toQuiet) rfl
    dsimp only
    exact ⟨fun x rest hq => hrow (NoticePort.pop_cons hq), fun hq => hrow (NoticePort.pop_nil hq)⟩
  case bytes =>
    simp only [Notice.bytes, kind_byte, reason_byte, source_number, toBytes_four, toBytes_one, toBytes_two, List.append_assoc]
      <;> rfl

/-! ## The edit session (R148 to R150) -/

section Session
variable {p : Port} {u : Units}

/-- The session is free for a port, or its own. -/
theorem loadPolicy_mine {image : List Byte} (h : u.pu.session = .none ∨ ∃ staged, u.pu.session = .opened p staged) :
    loadPolicy p image u = (u.setPu { u.pu with session := .opened p (image.take 176) }, .ok) := by
  rcases h with h | ⟨staged, h⟩ <;> simp [loadPolicy, h, imageBytes]

theorem loadPolicy_held {image : List Byte} (h : (∃ q staged, u.pu.session = .opened q staged ∧ q ≠ p)
    ∨ ∃ q staged w, u.pu.session = .committing q staged w) : loadPolicy p image u = (u, .policyHeld) := by
  rcases h with ⟨q, staged, h, hq⟩ | ⟨q, staged, w, h⟩
  · simp [loadPolicy, h, hq]
  · simp [loadPolicy, h]

theorem discardPolicy_mine (h : u.pu.session = .none ∨ ∃ staged, u.pu.session = .opened p staged) :
    discardPolicy p u = (u.setPu { u.pu with session := .none }, .ok) := by
  rcases h with h | ⟨staged, h⟩
  · have hsame : u.setPu { u.pu with session := .none } = u := by rw [← h]; rfl
    simp [discardPolicy, h, hsame]
  · simp [discardPolicy, h]

theorem discardPolicy_held (h : (∃ q staged, u.pu.session = .opened q staged ∧ q ≠ p)
    ∨ ∃ q staged w, u.pu.session = .committing q staged w) : discardPolicy p u = (u, .policyHeld) := by
  rcases h with ⟨q, staged, h, hq⟩ | ⟨q, staged, w, h⟩
  · simp [discardPolicy, h, hq]
  · simp [discardPolicy, h]

theorem readImage_held (h : (∃ q staged, u.pu.session = .opened q staged ∧ q ≠ p)
    ∨ ∃ q staged w, u.pu.session = .committing q staged w) : readImage p true u = .error .policyHeld := by
  rcases h with ⟨q, staged, h, hq⟩ | ⟨q, staged, w, h⟩
  · simp [readImage, h, hq]
  · simp [readImage, h]

theorem policyReadOutcome_error {staged : Bool} {e : ResultCode} (h : readImage p staged u = .error e) :
    policyReadOutcome p staged u = Posting.code e := by rw [policyReadOutcome, h]

theorem policyReadOutcome_ok {staged : Bool} {image : List Byte} (h : readImage p staged u = .ok image) :
    policyReadOutcome p staged u = ⟨{ Results.zero with
      code := 0x01, source := (match u.pu.source with | .loaded => 0 | .defaulted => 1),
      copy := (match u.pu.inForce with | some n => BitVec.ofNat 8 n | none => 0xFF) }, image⟩ := by
  rw [policyReadOutcome, h]
  rfl

end Session

/-- Settles O36: each command by whether the session is free, the port's own, or another's. -/
theorem editSessionCommands : Obligations.EditSessionCommands := by
  unfold Obligations.EditSessionCommands
  intro p s
  dsimp only
  refine ⟨fun h => ?read, fun h => ⟨fun hm => ?loaded, fun hh => ?loadHeld⟩,
    fun h => ⟨fun hm => ?discarded, fun hh => ?discardHeld⟩⟩
  case read =>
    have hrow : ∀ {o}, policyReadOutcome p ((s.units.port p).params.source == 1) s.units = o →
        exec (.policyRead p) s = .next (s.withUnits (s.answered p .policyRead o)) := fun {o} ho =>
      row_answered (c := .policyRead) h.toTaking ((taken_passing h).trans
        ((congrArg (fun z => deliver p z (s.taking p .policyRead)) ho).trans (deliver_taking ..)))
    refine ⟨fun hs => hrow ?shadow, fun staged hs ho => hrow ?staged, fun hs hn => hrow ?none, fun hs hh => hrow ?held⟩
    case shadow => 
      rw [hs]
      exact policyReadOutcome_ok rfl
    case staged =>
      rw [hs]
      exact policyReadOutcome_ok (by simp [readImage, ho])
    case none =>
      rw [hs]
      exact policyReadOutcome_error (by simp [readImage, hn])
    case held =>
      rw [hs]
      exact policyReadOutcome_error (readImage_held hh)
  case loaded =>
    have ht : taken p .policyLoad s = answerWith p (loadPolicy p (s.units.port p).buffer (s.taking p .policyLoad)) := by
      rw [taken_passing h, carryOut, taking_inHand]
      rfl
    refine row_taken (c := .policyLoad) h.toTaking (ht.trans ?_) (answered_handOver h.toQuiet) (answered_draining h.toQuiet) rfl
    rw [loadPolicy_mine (u := s.taking p .policyLoad) hm]
    exact answered_setPu _
  case loadHeld =>
    have ht : taken p .policyLoad s = answerWith p (loadPolicy p (s.units.port p).buffer (s.taking p .policyLoad)) := by
      rw [taken_passing h, carryOut, taking_inHand]
      rfl
    refine row_answered (c := .policyLoad) h.toTaking (ht.trans ?_)
    rw [loadPolicy_held (u := s.taking p .policyLoad) hh]
    exact answer_taking ..
  case discarded =>
    refine row_taken (c := .policyDiscard) h.toTaking ((taken_passing h).trans ?_) (answered_handOver h.toQuiet)
      (answered_draining h.toQuiet) rfl
    rw [carryOut, discardPolicy_mine (u := s.taking p .policyDiscard) hm]
    exact answered_setPu _
  case discardHeld =>
    refine row_answered (c := .policyDiscard) h.toTaking ((taken_passing h).trans ?_)
    rw [carryOut, discardPolicy_held (u := s.taking p .policyDiscard) hh]
    exact answer_taking ..

/-! ## RECLAIM and INFO (R102, R178) -/

namespace IndexUnit
variable {iu : IndexUnit}

theorem leastErase_mem (h : iu.sound ≠ []) : (∃ e ∈ iu.sound, e.eraseCount = iu.leastErase)
    ∧ ∀ e ∈ iu.sound, iu.leastErase ≤ e.eraseCount := by
  have hmin : (iu.sound.map (·.eraseCount)).min? = some iu.leastErase := by
    unfold leastErase
    cases hs : iu.sound.map (·.eraseCount) with
    | nil => exact absurd (List.map_eq_nil_iff.1 hs) h
    | cons c cs => rfl
  obtain ⟨hmem, hle⟩ := List.min?_eq_some_iff.1 hmin
  exact ⟨List.mem_map.1 hmem, fun e he => hle _ (List.mem_map_of_mem he)⟩

theorem greatestErase_mem (h : iu.sound ≠ []) : (∃ e ∈ iu.sound, e.eraseCount = iu.greatestErase)
    ∧ ∀ e ∈ iu.sound, e.eraseCount ≤ iu.greatestErase := by
  have hmax : (iu.sound.map (·.eraseCount)).max? = some iu.greatestErase := by
    unfold greatestErase
    cases hs : iu.sound.map (·.eraseCount) with
    | nil => exact absurd (List.map_eq_nil_iff.1 hs) h
    | cons c cs => rfl
  obtain ⟨hmem, hle⟩ := List.max?_eq_some_iff.1 hmax
  exact ⟨List.mem_map.1 hmem, fun e he => hle _ (List.mem_map_of_mem he)⟩

theorem sound_eq : iu.sound = iu.segs.filter (fun e => decide (e.state ≠ .bad)) := by
  refine List.filter_congr fun e _ => ?_
  cases e.state <;> rfl

theorem badCount_eq : iu.badCount = iu.segs.countP (fun e => decide (e.state = .bad)) := by
  refine List.countP_congr fun e _ => ?_
  simp

end IndexUnit

theorem clean_iff (m : MountEngine) : m.clean = true ↔ m.rolled = 0 ∧ m.discarded = 0 ∧ m.faults = 0 ∧ m.dirty = false := by
  simp [MountEngine.clean, and_assoc]

/-- Settles O38: RECLAIM by the step of the engine; INFO by the fields of its record. -/
theorem reclaimAndInfoTake : Obligations.ReclaimAndInfoTake := by
  unfold Obligations.ReclaimAndInfoTake
  intro p s
  dsimp only
  refine ⟨fun h hs => ?owed, fun h hs ho => ?answered, fun h => ?info⟩
  case owed =>
    refine row_taken (c := .reclaim) h.toTaking ((taken_passing h).trans ?_) (taking_handOver h.toQuiet) (taking_draining h.toQuiet)
      rfl
    exact if_neg hs
  case answered =>
    refine row_taken (c := .reclaim) h.toTaking ((taken_passing h).trans ?_) (answered_handOver h.toQuiet)
      (answered_draining h.toQuiet) rfl
    refine (if_pos hs).trans ?_
    have howed : ((s.taking p .reclaim).setCe
        { s.units.ce with owed := s.units.ce.owed ++ [p], restart := true }).ce.owed = [p] := by
      simp [ho]
    have hdone : answerOwed .noSpace
        ((s.taking p .reclaim).setCe { s.units.ce with owed := s.units.ce.owed ++ [p], restart := true })
        = (answer p .noSpace (s.taking p .reclaim)).setCe { s.units.ce with owed := [], restart := true } := by
      rw [answerOwed, howed]
      rfl
    refine hdone.trans ?_
    rw [answer_taking, ← ho]
  case info =>
    refine ⟨s.units.iu.leastErase, s.units.iu.greatestErase, fun hne => ?bounds, ?record⟩
    case bounds =>
      rw [← IndexUnit.sound_eq] at hne ⊢
      obtain ⟨hleast, hle⟩ := IndexUnit.leastErase_mem hne
      obtain ⟨hgreatest, hge⟩ := IndexUnit.greatestErase_mem hne
      exact ⟨hleast, hgreatest, fun e he => ⟨hle e he, hge e he⟩⟩
    case record =>
      have hclean : (if s.units.me.clean then (0 : Byte) else 1) = if s.units.me.rolled = 0 ∧ s.units.me.discarded = 0
          ∧ s.units.me.faults = 0 ∧ s.units.me.dirty = false then 0 else 1 := by
        by_cases hc : s.units.me.clean = true
        · rw [if_pos hc, if_pos ((clean_iff _).1 hc)]
        · rw [if_neg hc, if_neg (fun hn => hc ((clean_iff _).2 hn))]
      have hrow := row_answered (c := .info) h.toTaking ((taken_passing h).trans (deliver_taking ..))
      refine hrow.trans ?_
      rw [← hclean, ← IndexUnit.sound_eq, ← IndexUnit.badCount_eq]
      simp only [infoOutcome, statusRecord, MountEngine.counts, List.append_assoc]
      rfl

end Sys2Proof.Machine
end


section
/-! SUPPORT. The commit of a policy: its tests, its write sequence and its apply point (R54, R101, R144, R146, R151 to R155). -/

namespace Sys2Proof.Machine

/-! ## POLICY_COMMIT (R151, R152) -/

theorem mem_allPorts (p : Port) : p ∈ allPorts := by cases p <;> simp [allPorts]

/-- The tests of R151. -/
theorem policyAdmissible_iff {old new : Shadow} : policyAdmissible old new = true
    ↔ (∀ n, n < 16 → (old.part n).fixed = true → old.part n = new.part n)
      ∧ (∃ q, (new.ports.get q).authority = true)
      ∧ (∀ q k part, k < 4 → (new.ports.get q).defaultView.at k = some part → (new.part part).enabled = true)
      ∧ old.seq ≠ 4294967295 := by
  have hfixed : ((List.range 16).all (fun n => !(old.part n).fixed || old.part n == new.part n) = true)
      ↔ ∀ n, n < 16 → (old.part n).fixed = true → old.part n = new.part n := by
    rw [List.all_eq_true]
    refine forall_congr' fun n => ?_
    rw [List.mem_range]
    refine imp_congr_right fun _ => ?_
    cases (old.part n).fixed <;> simp
  have hauth : (allPorts.any (fun p => new.authority p) = true) ↔ ∃ q, (new.ports.get q).authority = true := by
    rw [List.any_eq_true]
    exact ⟨fun ⟨q, _, h⟩ => ⟨q, h⟩, fun ⟨q, h⟩ => ⟨q, mem_allPorts q, h⟩⟩
  have hviews : (allPorts.all (fun p => [0, 1, 2, 3].all fun k =>
        (((new.ports.get p).defaultView.at k).all fun part => (new.part part).enabled)) = true)
      ↔ ∀ q k part, k < 4 → (new.ports.get q).defaultView.at k = some part → (new.part part).enabled = true := by
    rw [List.all_eq_true]
    constructor
    · intro h q k part hk hat
      have hall := List.all_eq_true.1 (h q (mem_allPorts q)) k (by
        simp only [List.mem_cons, List.not_mem_nil, or_false]
        omega)
      rw [hat] at hall
      exact hall
    · intro h q _
      rw [List.all_eq_true]
      intro k hk
      cases hat : (new.ports.get q).defaultView.at k with
      | none => rfl
      | some part =>
        refine h q k part ?_ hat
        simp only [List.mem_cons, List.not_mem_nil, or_false] at hk
        omega
  unfold policyAdmissible
  simp only [Bool.and_eq_true, hfixed, hauth, hviews, and_assoc, bne_iff_ne]

section Commit
variable {p : Port} {u : Units}

theorem startPolicyCommit_refused {e : ResultCode} (h : commitPolicy p u = (u, some e)) :
    startPolicyCommit p u = answer p e u := by rw [startPolicyCommit, h]

theorem commitPolicy_held (h : (∃ q staged, u.pu.session = .opened q staged ∧ q ≠ p)
    ∨ ∃ q staged w, u.pu.session = .committing q staged w) : commitPolicy p u = (u, some .policyHeld) := by
  rcases h with ⟨q, staged, h, hq⟩ | ⟨q, staged, w, h⟩
  · simp [commitPolicy, h, hq]
  · simp [commitPolicy, h]

theorem commitPolicy_unreadable {staged : List Byte} (h : u.pu.session = .opened p staged) (hr : readPolicy staged = none) :
    commitPolicy p u = (u, some .policyInvalid) := by simp [commitPolicy, h, hr]

theorem commitPolicy_inadmissible {staged : List Byte} {new : Shadow} (h : u.pu.session = .opened p staged)
    (hr : readPolicy staged = some new) (ha : ¬ policyAdmissible u.pu.shadow new = true) :
    commitPolicy p u = (u, some .policyInvalid) := by simp [commitPolicy, h, hr, ha]

/-- The write sequence begins with the erase of the policy segment not in force (R152). -/
theorem startPolicyCommit_begun {staged : List Byte} {new : Shadow} (h : u.pu.session = .opened p staged)
    (hr : readPolicy staged = some new) (ha : policyAdmissible u.pu.shadow new = true) :
    let target := if u.pu.inForce = some 0 then 1 else 0
    startPolicyCommit p u = u.setPu { u.pu with
      session := .committing p staged
        ⟨target, sealImage 0x7F (u.pu.shadow.seq + 1) (slice staged 5 169), .erase 1, false, false⟩,
      io := ⟨some ⟨.policy, target, .erase⟩, false⟩ } := by
  have htarget : (match u.pu.inForce with | some 0 => 1 | _ => 0) = if u.pu.inForce = some 0 then 1 else 0 := by
    split
    next hf => rw [if_pos hf]
    next hf => rw [if_neg hf]
  dsimp only
  rw [← htarget]
  simp only [startPolicyCommit, commitPolicy, h, hr, ha, ne_eq, not_true_eq_false, if_false, Bool.not_true, Bool.false_eq_true]
  rfl

end Commit

/-! ## The write sequence (R152, R153, R155) -/

section Sequence
variable {p : Port} {staged : List Byte} {w : WriteSeq} {q : Request} {u : Units}

/-- The completion of the request that the Policy Unit waits for. -/
theorem policyDelivered (hq : q.who = .policy) (hio : u.pu.io = ⟨some q, true⟩) (ok : Bool) :
    programDelivered q ok u = policyDone ok (u.setPu { u.pu with io := ⟨none, false⟩ })
      ∧ eraseDelivered q ok u = policyDone ok (u.setPu { u.pu with io := ⟨none, false⟩ }) := by
  have hwait : u.pu.io.awaits q = true := by rw [hio]; simp [Io.awaits]
  constructor
  · simp only [programDelivered, hq, hwait, if_true]
    rfl
  · simp only [eraseDelivered, hq, hwait, if_true]
    rfl

theorem policyDone_stopping (h : u.pu.session = .committing p staged w) (hw : w.stopping = true) (ok : Bool) :
    policyDone ok u = settle p (setSession .none u) := by simp [policyDone, h, hw]

theorem policyDone_erase (h : u.pu.session = .committing p staged w) (hw : w.stopping = false) {t : Nat} (hs : w.step = .erase t)
    (ok : Bool) : policyDone ok u = if ok then goSequence p staged { w with step := .cell 0 1 } u
      else if t < 2 then goSequence p staged { w with step := .erase (t + 1) } u else failSequence p staged w u := by
  simp only [policyDone, h, hw, hs, Bool.false_eq_true, if_false]

theorem policyDone_cell (h : u.pu.session = .committing p staged w) (hw : w.stopping = false) {n t : Nat} (hs : w.step = .cell n t)
    (ok : Bool) : policyDone ok u
      = if ok then goSequence p staged { w with step := if n + 1 < 11 then .cell (n + 1) 1 else .valid 1 } u
        else if t < 3 then goSequence p staged { w with step := .cell n (t + 1) } u else failSequence p staged w u := by
  simp only [policyDone, h, hw, hs, Bool.false_eq_true, if_false, imageCells]
  rfl

theorem policyDone_valid (h : u.pu.session = .committing p staged w) (hw : w.stopping = false) {t : Nat} (hs : w.step = .valid t)
    (ok : Bool) : policyDone ok u = if ok then applyPolicy p w u
      else if t < 3 then goSequence p staged { w with step := .valid (t + 1) } u else failSequence p staged w u := by
  simp only [policyDone, h, hw, hs, Bool.false_eq_true, if_false]

/-- The notice of a sequence that has failed (R155). -/
def Units.policyNoted (u : Units) (target : Nat) : Units :=
  { u with nu := { u.nu with posts := u.nu.posts
    ++ [⟨.policy, .authority, { Notice.plain .integrity with seg := some target, reason := some .policy }⟩] } }

theorem failSequence_eq (p : Port) (staged : List Byte) (w : WriteSeq) (u : Units) : failSequence p staged w u
    = settle p (answer p .media ((setSession (if w.noResult then .none else .opened p staged) u).policyNoted w.target)) := rfl

end Sequence

/-! ## The apply point (R154) -/

/-- The comparison of the erased count with the mark (R54, R101). -/
theorem compareLow_eq (u : Units) : compareLow u = { u with
    iu := { u.iu with armed := decide (u.pu.shadow.lowWater < u.iu.erasedCount) },
    ce := { u.ce with lowRun := u.ce.lowRun || decide (u.iu.erasedCount ≤ u.pu.shadow.lowWater) },
    nu := { u.nu with posts := u.nu.posts ++
      (if u.iu.erasedCount ≤ u.pu.shadow.lowWater ∧ u.iu.armed = true then [⟨.index, .every, Notice.plain .spaceLow⟩]
       else []) } } := by
  have hcount : ∀ b, IndexUnit.erasedCount { u.iu with armed := b } = u.iu.erasedCount := fun _ => rfl
  unfold compareLow compareRun
  by_cases hle : u.iu.erasedCount ≤ u.pu.shadow.lowWater
  · have hlt : ¬ u.pu.shadow.lowWater < u.iu.erasedCount := by omega
    cases ha : u.iu.armed
    · have hsame : { u.iu with armed := false } = u.iu := by rw [← ha]
      simp [hle, hlt, hsame, Units.setCe]
    · simp [hle, hlt, hcount, Units.setCe, Units.setIu, post]
  · have hlt : u.pu.shadow.lowWater < u.iu.erasedCount := by omega
    simp [hle, hlt, hcount, Units.setIu]

theorem settle_others (p : Port) (u : Units) :
    (settle p u).pu = u.pu ∧ (settle p u).tm = u.tm ∧ (settle p u).nu = u.nu
    ∧ (settle p u).iu = u.iu ∧ (settle p u).ce = u.ce ∧ ((settle p u).port p).outcome = (u.port p).outcome := by
  unfold settle
  split
  · exact ⟨rfl, rfl, rfl, rfl, rfl, by simp [Units.modPort_eq]⟩
  · exact ⟨rfl, rfl, rfl, rfl, rfl, rfl⟩

theorem Four.at_map {α β : Type} (f : Four α) (g : α → β) {k : Nat} (hk : k < 4) :
    (f.map fun _ x => g x).at k = g (f.at k) := by
  match k, hk with
  | 0, _ | 1, _ | 2, _ | 3, _ => rfl

/-- The locks after several partitions have been fixed. -/
theorem foldl_set_getElem? (fixed : List Nat) : ∀ (ls : List LockLevel) (n : Nat), n < ls.length →
    (fixed.foldl (fun ls n => ls.set n .fixed) ls)[n]? = if n ∈ fixed then some .fixed else ls[n]? := by
  induction fixed with
  | nil => exact fun _ _ _ => rfl
  | cons m ms ih =>
    intro ls n hn
    rw [List.foldl_cons, ih _ _ (by simpa using hn), List.getElem?_set]
    by_cases hm : m = n
    · subst hm
      simp [hn]
    · simp [hm, Ne.symm hm]

theorem mem_newlyFixed {old new : Shadow} {n : Nat} : n ∈ newlyFixed old new
    ↔ n < 16 ∧ (new.part n).fixed = true ∧ (old.part n).fixed = false := by
  simp [newlyFixed]

theorem newlyFixed_ascending (old new : Shadow) : (newlyFixed old new).Pairwise (· < ·) := List.pairwise_lt_range.filter _

theorem mem_lostWrite {old new : Shadow} {n : Nat} {g : Port} : (n, g) ∈ lostWrite old new
    ↔ n < 16 ∧ (old.part n).rights.get g = .write ∧ (new.part n).rights.get g ≠ .write := by
  simp [lostWrite, mem_allPorts]

theorem mem_newlyDisabled {old new : Shadow} {n : Nat} : n ∈ newlyDisabled old new
    ↔ n < 16 ∧ (old.part n).enabled = true ∧ (new.part n).enabled = false := by
  simp [newlyDisabled]

theorem mem_unreadable {new : Shadow} {g : Port} {n : Nat} : (g, n) ∈ unreadable new ↔ n < 16 ∧ new.mayRead g n = false := by
  simp [unreadable, mem_allPorts]

/-- What the apply point of a policy makes of the units (R54, R101, R144, R146, R154). -/
def Units.PolicyApplied (u : Units) (p : Port) (w : WriteSeq) (new : Shadow) (v : Units) : Prop :=
  let old := u.pu.shadow
  v.pu.shadow = new ∧ v.pu.source = .loaded ∧ v.pu.inForce = some w.target ∧ v.pu.session = .none
  ∧ (∀ g k, k < 4 → (v.pu.views.get g).at k = ((u.pu.views.get g).at k).filter (fun part => new.mayRead g part))
  ∧ (∀ n, n < 16 → n < u.pu.locks.length → v.pu.locks[n]? =
      if (new.part n).fixed = true ∧ (old.part n).fixed = false then some .fixed else u.pu.locks[n]?)
  ∧ (∃ fixed : List Nat, v.tm.lockEvents = u.tm.lockEvents ++ fixed.map (⟨·, none⟩) ∧ fixed.Pairwise (· < ·)
      ∧ ∀ n, n ∈ fixed ↔ n < 16 ∧ (new.part n).fixed = true ∧ (old.part n).fixed = false)
  ∧ (∃ r, v.tm.revocations = u.tm.revocations ++ [r]
      ∧ (∀ n g, (n, g) ∈ r.lost ↔ n < 16 ∧ (old.part n).rights.get g = .write ∧ (new.part n).rights.get g ≠ .write)
      ∧ ∀ n, n ∈ r.disabled ↔ n < 16 ∧ (old.part n).enabled = true ∧ (new.part n).enabled = false)
  ∧ (∃ r, v.nu.removals = u.nu.removals ++ [r] ∧ ∀ g n, (g, n) ∈ r ↔ n < 16 ∧ new.mayRead g n = false)
  ∧ (let erased := u.iu.segs.countP (·.avail)
     v.nu.posts = u.nu.posts ++ [⟨.policy, .every, { Notice.plain .policyChanged with source := some p }⟩]
        ++ (if erased ≤ new.lowWater ∧ u.iu.armed = true then [⟨.index, .every, Notice.plain .spaceLow⟩] else [])
     ∧ v.iu = { u.iu with armed := decide (new.lowWater < erased) }
     ∧ v.ce = { u.ce with lowRun := u.ce.lowRun || decide (erased ≤ new.lowWater) })

/-- The Policy Unit with the new policy in force (R144, R146, R154). -/
def PolicyUnit.applied (pu : PolicyUnit) (target : Nat) (new : Shadow) : PolicyUnit :=
  { pu with
    shadow := new, source := .loaded, inForce := some target, session := .none,
    views := dropViews new pu.views,
    locks := (newlyFixed pu.shadow new).foldl (fun ls n => ls.set n .fixed) pu.locks }

/-- The units at the apply point, before the comparison with the new mark and the answer. -/
def Units.policyInForce (u : Units) (p : Port) (target : Nat) (new : Shadow) : Units :=
  { u with
    pu := u.pu.applied target new
    tm := { u.tm with
      lockEvents := u.tm.lockEvents ++ (newlyFixed u.pu.shadow new).map (LockEvent.mk · none),
      revocations := u.tm.revocations ++ [Revocation.mk (lostWrite u.pu.shadow new) (newlyDisabled u.pu.shadow new)] }
    nu := { u.nu with
      removals := u.nu.removals ++ [unreadable new],
      posts := u.nu.posts ++ [⟨.policy, .every, { Notice.plain .policyChanged with source := some p }⟩] } }

theorem applyPolicy_eq {p : Port} {w : WriteSeq} {new : Shadow} (hr : readPolicy w.image = some new) (u : Units) :
    applyPolicy p w u = settle p (deliver p (Posting.okWith { Results.zero with gen := BitVec.ofNat 32 new.seq })
      (compareLow (u.policyInForce p w.target new))) := by
  unfold applyPolicy
  rw [hr]
  rfl

section Applied
variable {p : Port} {w : WriteSeq} {new : Shadow} {u : Units}

theorem applyPolicy_applied (hr : readPolicy w.image = some new) : u.PolicyApplied p w new (applyPolicy p w u) := by
  rw [applyPolicy_eq hr, compareLow_eq]
  obtain ⟨hpu, htm, hnu, hiu, hce, -⟩ := settle_others p (deliver p
    (Posting.okWith { Results.zero with gen := BitVec.ofNat 32 new.seq }) (compareLow (u.policyInForce p w.target new)))
  rw [compareLow_eq] at hpu htm hnu hiu hce
  unfold Units.PolicyApplied
  dsimp only
  rw [hpu, htm, hnu, hiu, hce]
  refine ⟨rfl, rfl, rfl, rfl, fun g k hk => ?views, fun n hn hl => ?locks,
    ⟨_, rfl, newlyFixed_ascending _ _, fun n => mem_newlyFixed⟩,
    ⟨_, rfl, fun n g => mem_lostWrite, fun n => mem_newlyDisabled⟩, ⟨_, rfl, fun g n => mem_unreadable⟩, rfl, rfl, rfl⟩
  case views =>
    have hget : (dropViews new u.pu.views).get g
        = (u.pu.views.get g).map fun _ b => b.filter (fun part => new.mayRead g part) := Four.get_map _ _ g
    exact (congrArg (fun f => Four.at f k) hget).trans (Four.at_map _ _ hk)
  case locks =>
    refine (foldl_set_getElem? _ _ n hl).trans ?_
    simp only [mem_newlyFixed, hn, true_and]

theorem deliver_outcome {o : Posting} {c : InHand} (h : (u.port p).inHand = some c) :
    ((deliver p o u).port p).outcome = some o := by
  rw [deliver_inHand h, Units.withOutcome, Units.port_setPort_self]

/-- The apply point answers the commit (R154). -/
theorem applyPolicy_outcome {c : InHand} (hr : readPolicy w.image = some new) (h : (u.port p).inHand = some c) :
    ((applyPolicy p w u).port p).outcome = some ⟨{ Results.zero with code := 0x01, gen := BitVec.ofNat 32 new.seq }, []⟩ := by
  rw [applyPolicy_eq hr]
  obtain ⟨-, -, -, -, -, houtcome⟩ := settle_others p (deliver p
    (Posting.okWith { Results.zero with gen := BitVec.ofNat 32 new.seq }) (compareLow (u.policyInForce p w.target new)))
  rw [houtcome]
  refine deliver_outcome (c := c) ?_
  rw [compareLow_eq]
  exact h

theorem applyPolicy_dropped (hr : readPolicy w.image = some new) (h : (u.port p).inHand = none) :
    ((applyPolicy p w u).port p).outcome = (u.port p).outcome := by
  rw [applyPolicy_eq hr]
  obtain ⟨-, -, -, -, -, houtcome⟩ := settle_others p (deliver p
    (Posting.okWith { Results.zero with gen := BitVec.ofNat 32 new.seq }) (compareLow (u.policyInForce p w.target new)))
  have hhand : ((compareLow (u.policyInForce p w.target new)).port p).inHand = none := by
    rw [compareLow_eq]
    exact h
  rw [houtcome, deliver_dropped hhand, compareLow_eq]
  rfl

end Applied

/-! ## The statement -/

/-- POLICY_COMMIT by the session and the tests of R151. -/
theorem policyCommit_rows {p : Port} {s : State} (h : Passing .policyCommit p 0 s) :
    let session := s.units.pu.session
    let sh := s.units.pu.shadow
    let answered (c : ResultCode) : State := s.withUnits (s.answered p .policyCommit (Posting.code c))
    let target := if s.units.pu.inForce = some 0 then 1 else 0
    (session = .none → exec (.policyCommit p) s = .next (answered .notFound))
    ∧ ((∃ q staged, session = .opened q staged ∧ q ≠ p) ∨ (∃ q staged w, session = .committing q staged w) →
        exec (.policyCommit p) s = .next (answered .policyHeld))
    ∧ ∀ staged, session = .opened p staged →
        (∀ new, readPolicy staged = some new → ¬ policyAdmissible sh new = true →
          exec (.policyCommit p) s = .next (answered .policyInvalid))
        ∧ (readPolicy staged = none → exec (.policyCommit p) s = .next (answered .policyInvalid))
        ∧ (∀ new, readPolicy staged = some new → policyAdmissible sh new = true →
          exec (.policyCommit p) s = .next (s.withUnits ((s.taking p .policyCommit).setPu { s.units.pu with
            session := .committing p staged
              ⟨target, sealImage 0x7F (sh.seq + 1) (slice staged 5 169), .erase 1, false, false⟩,
            io := ⟨some ⟨.policy, target, .erase⟩, false⟩ }))) := by
  have ht : taken p .policyCommit s = startPolicyCommit p (s.taking p .policyCommit) := taken_passing h
  have refused : ∀ {e}, commitPolicy p (s.taking p .policyCommit) = (s.taking p .policyCommit, some e) →
      exec (.policyCommit p) s = .next (s.withUnits (s.answered p .policyCommit (Posting.code e))) := fun he =>
    row_answered (c := .policyCommit) h.toTaking (ht.trans ((startPolicyCommit_refused he).trans (answer_taking ..)))
  dsimp only
  refine ⟨fun hs => refused ?none, fun hh => refused (commitPolicy_held (u := s.taking p .policyCommit) hh),
    fun staged hs => ⟨fun new hr ha => refused ?invalid, fun hr => refused ?unreadable, fun new hr ha => ?begun⟩⟩
  case none =>
    have hs' : (s.taking p .policyCommit).pu.session = .none := hs
    rw [commitPolicy, hs']
  case invalid => exact commitPolicy_inadmissible (u := s.taking p .policyCommit) hs hr ha
  case unreadable => exact commitPolicy_unreadable (u := s.taking p .policyCommit) hs hr
  case begun =>
    exact row_taken (c := .policyCommit) h.toTaking
      (ht.trans (startPolicyCommit_begun (u := s.taking p .policyCommit) hs hr ha)) (taking_handOver h.toQuiet)
      (taking_draining h.toQuiet) rfl

/-- The answer MEDIA at a port that does not drain. -/
theorem failSequence_answered {p : Port} {staged : List Byte} {w : WriteSeq} {u : Units} {c : InHand} (hn : w.noResult = false)
    (hh : (u.port p).inHand = some c) (hd : (u.port p).draining = false) : failSequence p staged w u
      = ((setSession (.opened p staged) u).policyNoted w.target).withOutcome p (Posting.code .media) := by
  have hh' : (((setSession (.opened p staged) u).policyNoted w.target).port p).inHand = some c := hh
  rw [failSequence_eq, hn, if_neg (by decide), answer_inHand hh', settle_steady]
  rw [Units.withOutcome, Units.port_setPort_self]
  exact hd

/-- No answer at a port whose command has been dropped. -/
theorem failSequence_dropped {p : Port} {staged : List Byte} {w : WriteSeq} {u : Units} (hn : w.noResult = true)
    (hh : (u.port p).inHand = none) : failSequence p staged w u
      = settle p ((setSession .none u).policyNoted w.target) := by
  have hh' : (((setSession .none u).policyNoted w.target).port p).inHand = none := hh
  rw [failSequence_eq, hn, if_pos rfl, answer, deliver_dropped hh']

/-- Settles O37: the tests of the command; then each step of the sequence by its outcome, and the apply point. -/
theorem policyCommitTakes : Obligations.PolicyCommitTakes := by
  unfold Obligations.PolicyCommitTakes
  refine ⟨fun p s h => ?command, fun p staged w q u hq hio hs => ?sequence⟩
  case command =>
    obtain ⟨hnone, hheld, hmine⟩ := policyCommit_rows h
    refine ⟨hnone, hheld, fun staged hs => ?_⟩
    obtain ⟨hinvalid, hunreadable, hbegun⟩ := hmine staged hs
    refine ⟨fun new hr hbad => hinvalid new hr fun ha => ?_, hunreadable, fun new hr h1 h2 h3 h4 =>
      hbegun new hr (policyAdmissible_iff.2 ⟨h1, h2, h3, h4⟩)⟩
    obtain ⟨h1, ⟨g, hg⟩, h3, h4⟩ := policyAdmissible_iff.1 ha
    rcases hbad with ⟨n, hn, hf, hne⟩ | hno | ⟨g, k, part, hk, hat, hoff⟩ | hseq
    · exact hne (h1 n hn hf)
    · rw [hno g] at hg
      cases hg
    · rw [h3 g k part hk hat] at hoff
      cases hoff
    · exact h4 hseq
  case sequence =>
    have hprogram := fun ok => (policyDelivered hq hio ok).1
    have herase := fun ok => (policyDelivered hq hio ok).2
    have hs' : (u.setPu { u.pu with io := ⟨none, false⟩ }).pu.session = .committing p staged w := hs
    dsimp only
    refine ⟨fun hw ok => ?stopped,
      fun hw hn hh => ⟨fun t hst hlt => ?again, fun t hst hge => ?lost, fun t new hst hr => ?applied⟩,
      fun c hw hn hh hd => ⟨fun t hst => ?erased, fun hst => ?eraseAgain, fun hst => ?eraseFailed, fun n t hst hlt => ?cell,
        fun t hst => ?lastCell, fun n t hst hlt => ?cellAgain, fun t hst hlt => ?validAgain, fun n hst => ?failed,
        fun t new hst hr => ?answered⟩⟩
    case stopped =>
      rw [hprogram, herase, policyDone_stopping hs' hw]
      exact ⟨rfl, rfl⟩
    case again =>
      rw [hprogram, policyDone_valid hs' hw hst, if_neg (by decide), if_pos hlt]
      rfl
    case lost =>
      rw [hprogram, policyDone_valid hs' hw hst, if_neg (by decide), if_neg (by omega),
        failSequence_dropped (u := u.setPu { u.pu with io := ⟨none, false⟩ }) hn hh]
      rfl
    case applied =>
      rw [hprogram, policyDone_valid hs' hw hst, if_pos rfl]
      exact ⟨applyPolicy_applied (u := u.setPu { u.pu with io := ⟨none, false⟩ }) hr, applyPolicy_dropped hr hh⟩
    case erased =>
      rw [herase, policyDone_erase hs' hw hst, if_pos rfl]
      rfl
    case eraseAgain =>
      rw [herase, policyDone_erase hs' hw hst, if_neg (by decide), if_pos (by decide)]
      rfl
    case eraseFailed =>
      rw [herase, policyDone_erase hs' hw hst, if_neg (by decide), if_neg (by decide),
        failSequence_answered (u := u.setPu { u.pu with io := ⟨none, false⟩ }) hn hh hd]
      rfl
    case cell =>
      rw [hprogram, policyDone_cell hs' hw hst, if_pos rfl, if_pos (by omega)]
      rfl
    case lastCell =>
      rw [hprogram, policyDone_cell hs' hw hst, if_pos rfl, if_neg (by decide)]
      rfl
    case cellAgain =>
      rw [hprogram, policyDone_cell hs' hw hst, if_neg (by decide), if_pos hlt]
      rfl
    case validAgain =>
      rw [hprogram, policyDone_valid hs' hw hst, if_neg (by decide), if_pos hlt]
      rfl
    case failed =>
      rcases hst with hst | hst
      · rw [hprogram, policyDone_cell hs' hw hst, if_neg (by decide), if_neg (by decide),
        failSequence_answered (u := u.setPu { u.pu with io := ⟨none, false⟩ }) hn hh hd]
        rfl
      · rw [hprogram, policyDone_valid hs' hw hst, if_neg (by decide), if_neg (by decide),
        failSequence_answered (u := u.setPu { u.pu with io := ⟨none, false⟩ }) hn hh hd]
        rfl
    case answered =>
      rw [hprogram, policyDone_valid hs' hw hst, if_pos rfl]
      exact ⟨applyPolicy_applied (u := u.setPu { u.pu with io := ⟨none, false⟩ }) hr, applyPolicy_outcome hr hh⟩

end Sys2Proof.Machine
end


section
/-! SUPPORT. The rows of the Index Unit: each carries out the claim at the head of the order of arrival (R38); LOOKUP for a port,
PIN and UNPIN (R39, R48, R90). -/

namespace Sys2Proof.Machine

section Rows
variable {s : State} {src : Claimant}

theorem lookup_row {part key : Nat} {forRead : Bool} (h : s.oldestClaim src (.lookup part key forRead)) :
    exec .lookup s = .next (s.withUnits (lookupClaim src part key forRead (popClaim s.units))) :=
  (claim_row (f := takeLookup) h).trans (by rw [takeLookup, h.2])

theorem range_row {part : Nat} {after : Option Nat} (h : s.oldestClaim src (.range part after)) :
    exec .range s = .next (s.withUnits (rangeClaim src part after (popClaim s.units))) :=
  (claim_row (f := takeRange) h).trans (by rw [takeRange, h.2])

theorem pin_row {l : Location} (h : s.oldestClaim src (.pin l)) :
    exec .pin s = .next (s.withUnits (pinClaim src l (popClaim s.units))) :=
  (claim_row (f := takePinClaim) h).trans (by rw [takePinClaim, h.2])

theorem unpin_row {seg : Nat} (h : s.oldestClaim src (.unpin seg)) :
    exec .unpin s = .next (s.withUnits (kick (unpinClaim src seg (popClaim s.units)))) :=
  (claim_row_kick (f := takeUnpin) h).trans (by rw [takeUnpin, h.2])

theorem numberQuery_row {txn : Nat} (h : s.oldestClaim src (.numberQuery txn)) :
    exec .numberQuery s = .next (s.withUnits (numberClaim src txn (popClaim s.units))) :=
  (claim_row (f := takeNumberQuery) h).trans (by rw [takeNumberQuery, h.2])

theorem charge_row {part key : Nat} {op : ChargeOp} {cells : Nat} (h : s.oldestClaim src (.charge part key op cells)) :
    exec .charge s = .next (s.withUnits (kick (chargeClaim src part key op cells (popClaim s.units)))) :=
  (claim_row_kick (f := takeChargeClaim) h).trans (by rw [takeChargeClaim, h.2])

theorem release_row {what : ReleaseWhat} (h : s.oldestClaim src (.release what)) :
    exec .release s = .next (s.withUnits (kick (releaseCharges src what (popClaim s.units)))) :=
  (claim_row_kick (f := takeReleaseClaim) h).trans (by rw [takeReleaseClaim, h.2])

theorem switch_row {c : SwitchClaim} (h : s.oldestClaim src (.switch c)) :
    exec .switch s = .next (s.withUnits (kick (switchClaim c (popClaim s.units)))) :=
  (claim_row_kick (f := takeSwitchClaim) h).trans (by rw [takeSwitchClaim, h.2])

theorem commitSwitch_row {part txn : Nat} {l : Location} {p : Port} (h : s.oldestClaim src (.commitSwitch part txn l p)) :
    exec .commitSwitch s = .next (s.withUnits (kick (commitSwitchClaim part txn l p (popClaim s.units)))) :=
  (claim_row_kick (f := takeCommitSwitchClaim) h).trans (by rw [takeCommitSwitchClaim, h.2])

theorem copySwitch_row {what : CopyFor} {orig copy : Location} {cells : Nat}
    (h : s.oldestClaim src (.copySwitch what orig copy cells)) :
    exec .copySwitch s = .next (s.withUnits (copySwitchClaim what orig copy cells (popClaim s.units))) :=
  (claim_row (f := takeCopySwitchClaim) h).trans (by rw [takeCopySwitchClaim, h.2])

theorem report_row {what : ReportWhat} (h : s.oldestClaim src (.report what)) :
    exec .report s = .next (s.withUnits (kick (reportClaim src what (popClaim s.units)))) :=
  (claim_row_kick (f := takeReportClaim) h).trans (by rw [takeReportClaim, h.2])

theorem allocate_row {n : Nat} (h : s.oldestClaim src (.allocate n)) :
    exec .allocate s = .next (s.withUnits (kick (allocateClaim src n (popClaim s.units)))) :=
  (claim_row_kick (f := takeAllocateClaim) h).trans (by rw [takeAllocateClaim, h.2])

theorem opened_row {x : NewHead} (h : s.oldestClaim src (.opened x)) :
    exec .opened s = .next (s.withUnits (openedClaim src x (popClaim s.units))) :=
  (claim_row (f := takeOpenedClaim) h).trans (by rw [takeOpenedClaim, h.2])

theorem close_row {seg : Nat} {reason : CloseReason} (h : s.oldestClaim src (.close seg reason)) :
    exec .close s = .next (s.withUnits (closeClaim src seg reason (popClaim s.units))) :=
  (claim_row (f := takeCloseClaim) h).trans (by rw [takeCloseClaim, h.2])

theorem prepared_row {seg count : Nat} (h : s.oldestClaim src (.prepared seg count)) :
    exec .prepared s = .next (s.withUnits (kick (preparedClaim seg count (popClaim s.units)))) :=
  (claim_row_kick (f := takePreparedClaim) h).trans (by rw [takePreparedClaim, h.2])

theorem noVictim_row (h : s.oldestClaim src (.noVictim)) :
    exec .noVictim s = .next (s.withUnits (kick (noVictimClaim (popClaim s.units)))) :=
  (claim_row_kick (f := takeNoVictim) h).trans (by rw [takeNoVictim, h.2])

theorem sweep_row {victim : Nat} (h : s.oldestClaim src (.sweep victim)) :
    exec .sweep s = .next (s.withUnits (sweepClaim victim (popClaim s.units))) :=
  (claim_row (f := takeSweep) h).trans (by rw [takeSweep, h.2])

theorem loss_row {part key : Nat} {l : Location} (h : s.oldestClaim src (.loss part key l)) :
    exec .loss s = .next (s.withUnits (lossClaim part key l (popClaim s.units))) :=
  (claim_row (f := takeLossClaim) h).trans (by rw [takeLossClaim, h.2])

theorem reclaiming_row {seg : Nat} (h : s.oldestClaim src (.reclaiming seg)) :
    exec .reclaiming s = .next (s.withUnits (reclaimingClaim seg (popClaim s.units))) :=
  (claim_row (f := takeReclaimingClaim) h).trans (by rw [takeReclaimingClaim, h.2])

theorem erased_row {seg : Nat} (h : s.oldestClaim src (.erased seg)) :
    exec .erased s = .next (s.withUnits (erasedClaim seg (popClaim s.units))) :=
  (claim_row (f := takeErasedClaim) h).trans (by rw [takeErasedClaim, h.2])

end Rows

/-! ## READ and STAT at their port (R177) -/

section Reads
variable {p : Port} {c : InHand} {r : ReadWork} {u : Units}

theorem deliver_setPort {o : Posting} (h : (u.port p).inHand = some c) :
    deliver p o u = u.setPort p { u.port p with outcome := some o } := deliver_inHand h

theorem paramsOf_inHand (h : (u.port p).inHand = some c) : paramsOf p u = c.params := by simp [paramsOf, h]

/-- The READ of the record's cells is wanted. -/
theorem goRead_within (h : (u.port p).inHand = some c) (hr : c.params.offset.toNat ≤ r.length) : goRead p r u
    = u.setPort p { u.port p with
        inHand := some { c with work := .reading r },
        io := ⟨some ⟨.port p, r.loc.seg, .read r.loc.cell r.cells⟩, false⟩ } := by
  have hin : ¬ r.length < (paramsOf p u).offsetNat := by
    rw [paramsOf_inHand h, Params.offsetNat]
    omega
  rw [goRead, if_neg hin, setWork, Units.modPort_eq, Units.modPort_eq, Units.port_setPort_self, Units.setPort_setPort, h]
  rfl

/-- An offset beyond the record gives the pin up. -/
theorem goRead_beyond (h : (u.port p).inHand = some c) (hr : r.length < c.params.offset.toNat) : goRead p r u
    = (present (.port p) (.unpin r.loc.seg) u).setPort p { u.port p with outcome := some (Posting.code .badParam) } := by
  have hout : r.length < (paramsOf p u).offsetNat := by
    rw [paramsOf_inHand h, Params.offsetNat]
    exact hr
  rw [goRead, if_pos hout]
  exact deliver_setPort (u := present (.port p) (.unpin r.loc.seg) u) h

theorem portPinned_pinning (h : (u.port p).inHand = some c) (hw : c.work = .pinning r) : portPinned p u = goRead p r u := by
  simp only [portPinned, workOf, h, Option.map_some, hw]

end Reads

/-! ## Pins of a segment (R48) -/

section Segments
variable {iu : IndexUnit} {seg n : Nat} {f : SegEntry → SegEntry}

/-- The entry of the segment changed. -/
theorem seg_modSeg_self (hl : seg - 2 < iu.segs.length) : (iu.modSeg seg f).seg seg = f (iu.seg seg) := by
  simp only [IndexUnit.seg, IndexUnit.modSeg, Config.firstData, List.getD_eq_getElem?_getD, List.getElem?_modify_eq,
    List.getElem?_eq_getElem hl, Option.map_eq_map, Option.map_some, Option.getD_some]

/-- The other data segments stay. -/
theorem seg_modSeg_of_ne (hs : 2 ≤ seg) (hn : 2 ≤ n) (hne : n ≠ seg) : (iu.modSeg seg f).seg n = iu.seg n := by
  have hidx : seg - 2 ≠ n - 2 := by omega
  simp only [IndexUnit.seg, IndexUnit.modSeg, Config.firstData, List.getD_eq_getElem?_getD, List.getElem?_modify_ne _ _ hidx]

end Segments

/-- A Writer that is steady takes nothing after a claim that leaves it as it is. -/
theorem kick_steady {s : State} (h : s.writerSteady) {u : Units} (hu : u.rw = s.units.rw) : kick u = u :=
  kick_idle u (by rw [hu]; exact h)

/-- Settles O39: by the entry found and by the offset asked for. -/
theorem lookupAndPinsTake : Obligations.LookupAndPinsTake := by
  unfold Obligations.LookupAndPinsTake
  refine ⟨fun p part key c s hc => ?reads, fun p seg s h => ?unpin, fun iu seg hs hl => ?pins⟩
  case reads =>
    dsimp only
    refine ⟨fun forRead h hf => ?absent, fun e he => ⟨fun h => ?stat, fun h hr => ?read, fun h hr => ?beyond⟩,
      fun r hw h => ⟨fun hr => ?pinned, fun hr => ?pinBeyond⟩⟩
    case absent =>
      rw [lookup_row h, lookupClaim, popClaim_find, hf]
      exact congrArg (fun z => Host.Outcome.next (s.withUnits z)) (deliver_setPort (u := popClaim s.units) hc)
    case stat =>
      have hflags : outputFlags false false false false = 0 := by decide
      rw [lookup_row h, lookupClaim, popClaim_find, he]
      refine congrArg (fun z => Host.Outcome.next (s.withUnits z)) ((deliver_setPort (u := popClaim s.units) hc).trans ?_)
      rw [statOutcome, hflags]
      rfl
    case read =>
      rw [lookup_row h, lookupClaim, popClaim_find, he]
      exact congrArg (fun z => Host.Outcome.next (s.withUnits z)) (goRead_within (u := (popClaim s.units).setIu _) hc hr)
    case beyond =>
      rw [lookup_row h, lookupClaim, popClaim_find, he]
      exact congrArg (fun z => Host.Outcome.next (s.withUnits z)) (goRead_beyond (u := (popClaim s.units).setIu _) hc hr)
    case pinned =>
      have hpin : pinClaim (.txn p) r.loc (popClaim s.units) = goRead p r ((popClaim s.units).setIu
          ((popClaim s.units).iu.takePin r.loc.seg)) := portPinned_pinning (u := (popClaim s.units).setIu _) hc hw
      rw [pin_row h, hpin]
      exact congrArg (fun z => Host.Outcome.next (s.withUnits z)) (goRead_within (u := (popClaim s.units).setIu _) hc hr)
    case pinBeyond =>
      have hpin : pinClaim (.txn p) r.loc (popClaim s.units) = goRead p r ((popClaim s.units).setIu
          ((popClaim s.units).iu.takePin r.loc.seg)) := portPinned_pinning (u := (popClaim s.units).setIu _) hc hw
      rw [pin_row h, hpin]
      exact congrArg (fun z => Host.Outcome.next (s.withUnits z)) (goRead_beyond (u := (popClaim s.units).setIu _) hc hr)
  case unpin =>
    dsimp only
    refine ⟨unpin_row h, fun hw => (unpin_row h).trans ?_⟩
    rw [kick_steady hw (hu := ?writer)]
    case writer => rfl
    rfl
  case pins =>
    exact ⟨seg_modSeg_self hl, seg_modSeg_self hl, fun n hn hne => ⟨seg_modSeg_of_ne hs hn hne, seg_modSeg_of_ne hs hn hne⟩⟩

end Sys2Proof.Machine
end


section
/-! SUPPORT. The engine's questions answered, and where a record that is done, passed over or lost leads in the scan and in
the sweep (R107, R108, R113, R114). -/

namespace Sys2Proof.Machine

/-! ## The questions (R108) -/

section Questions
variable {h : Header} {u : Units}

theorem engineAnswered_lookup (hs : u.ce.step = .lookupClaim h) (yes : Bool) :
    engineAnswered yes u = if yes then readBody h .entry u else recordSkipped h u := by
  simp only [engineAnswered, hs]

theorem engineAnswered_number (hs : u.ce.step = .numberClaim h) (yes : Bool) :
    engineAnswered yes u = if yes then readBody h .commitSet u else recordSkipped h u := by
  simp only [engineAnswered, hs]

theorem askMember_eq {basis : Basis} (hs : u.ce.step = .memberAsk h basis) :
    askMember u = if memberQueried h.txn h.key u.ce.reading (basis == .memberTombstone) u then readBody h basis u
      else recordSkipped h u := by
  simp only [askMember, hs]

theorem inSet_iff (iu : IndexUnit) (txn : Nat) : iu.inSet txn = true ↔ ∃ x ∈ iu.commitSet, x.txn = txn := by
  simp [IndexUnit.inSet]

/-- The slot whose member list names a location. -/
def Units.holdsMember (u : Units) (txn key : Nat) (loc : Location) (q : Port) : Prop :=
  (u.slot q).holding = true ∧ (u.slot q).number = txn ∧ ∃ m ∈ (u.slot q).members, m.key = key ∧ m.loc = loc

theorem memberHolder_test (txn key : Nat) (loc : Location) (q : Port) (u : Units) :
    ((u.slot q).holding && (u.slot q).number == txn && (u.slot q).members.any (fun m => m.key == key && m.loc == loc)) = true
      ↔ u.holdsMember txn key loc q := by
  simp [Units.holdsMember, and_assoc]

/-- The holder found holds the member. -/
theorem memberHolder_holds {txn key : Nat} {loc : Location} {q : Port} (h : memberHolder txn key loc u = some q) :
    u.holdsMember txn key loc q := (memberHolder_test ..).1 (List.find?_some (p := fun p => (u.slot p).holding
      && (u.slot p).number == txn && (u.slot p).members.any (fun m => m.key == key && m.loc == loc)) h)

/-- The one slot that holds the member is found. -/
theorem memberHolder_eq_some {txn key : Nat} {loc : Location} {q : Port} (h : u.holdsMember txn key loc q)
    (hone : ∀ g, u.holdsMember txn key loc g → g = q) : memberHolder txn key loc u = some q := by
  cases hf : memberHolder txn key loc u with
  | none => exact absurd ((memberHolder_test ..).2 h) (List.find?_eq_none.1 hf q (mem_allPorts q))
  | some g => rw [hone g (memberHolder_holds hf)]

theorem memberQueried_yes {txn key : Nat} {loc : Location} {committing : Bool} {q : Port} (h : u.holdsMember txn key loc q)
    (hone : ∀ g, u.holdsMember txn key loc g → g = q) (hc : committing = true → (u.slot q).state = .committing) :
    memberQueried txn key loc committing u = true := by
  cases committing <;> simp_all [memberQueried, memberHolder_eq_some h hone]

theorem memberQueried_no {txn key : Nat} {loc : Location} {committing : Bool}
    (h : ∀ q, u.holdsMember txn key loc q → committing = true ∧ (u.slot q).state ≠ .committing) :
    memberQueried txn key loc committing u = false := by
  unfold memberQueried
  cases hf : memberHolder txn key loc u with
  | none => rfl
  | some q =>
    obtain ⟨hc, hs⟩ := h q (memberHolder_holds hf)
    simp [hc, hs]

end Questions

/-- The answer to the engine's question leads to the record's cells, or past the record. -/
theorem questions_answered (h : Header) (s : State) :
    let ce := s.units.ce
    let u := popClaim s.units
    let body (u : Units) (basis : Basis) (least : RecordState) : Answer := .next (s.withUnits (u.setCe { ce with
      step := .bodyRead basis least,
      io := ⟨some ⟨.engine, ce.reading.seg, .read ce.reading.cell h.cells⟩, false⟩ }))
    let skips (u : Units) : Answer := .next (s.withUnits (recordSkipped h u))
    (ce.step = .lookupClaim h → s.oldestClaim .engine (.lookup h.part h.key false) →
      (∀ e, s.units.iu.find h.part h.key = some e → e.loc = ce.reading → exec .lookup s = body u .entry .live)
      ∧ ((∀ e, s.units.iu.find h.part h.key = some e → e.loc ≠ ce.reading) → exec .lookup s = skips u))
    ∧ (ce.step = .numberClaim h → s.oldestClaim .engine (.numberQuery h.txn) →
      (∀ x ∈ s.units.iu.commitSet, x.txn = h.txn → exec .numberQuery s = body u .commitSet .live)
      ∧ ((∀ x ∈ s.units.iu.commitSet, x.txn ≠ h.txn) → exec .numberQuery s = skips u))
    ∧ (∀ basis, s.running = true → ce.step = .memberAsk h basis →
      (∀ q, s.units.holdsMember h.txn h.key ce.reading q → (∀ g, s.units.holdsMember h.txn h.key ce.reading g → g = q) →
        (basis = .memberTombstone → (s.units.slot q).state = .committing) →
        exec .memberQuery s = body s.units basis (if basis = .memberWritten then .written else .live))
      ∧ ((∀ q, s.units.holdsMember h.txn h.key ce.reading q →
          basis = .memberTombstone ∧ (s.units.slot q).state ≠ .committing) →
        exec .memberQuery s = skips s.units)) := by
  dsimp only
  refine ⟨fun hs hq => ?lookup, fun hs hq => ?number, fun basis hr hs => ?member⟩
  case lookup =>
    have hrow := lookup_row hq
    rw [lookupClaim, engineAnswered_lookup (u := popClaim s.units) hs, popClaim_find, popClaim_ce] at hrow
    refine ⟨fun e he hl => ?_, fun hno => ?_⟩
    · rw [hrow, he, if_pos (by simp [hl])]
      rfl
    · rw [hrow, if_neg]
      rw [Option.any_eq_true]
      rintro ⟨e, he, hl⟩
      exact hno e he (by simpa using hl)
  case number =>
    have hrow := numberQuery_row hq
    rw [numberClaim, engineAnswered_number (u := popClaim s.units) hs, popClaim_inSet] at hrow
    refine ⟨fun x hx ht => ?_, fun hno => ?_⟩
    · rw [hrow, if_pos ((inSet_iff _ _).2 ⟨x, hx, ht⟩)]
      rfl
    · rw [hrow, if_neg]
      rw [inSet_iff]
      exact fun ⟨x, hx, ht⟩ => hno x hx ht
  case member =>
    have hrow : exec .memberQuery s = .next (s.withUnits (askMember s.units)) := onUnits_running hr
    rw [askMember_eq hs] at hrow
    refine ⟨fun q hq hone hc => ?_, fun hno => ?_⟩
    · rw [hrow, if_pos (memberQueried_yes hq hone (fun hb => hc (by simpa using hb)))]
      cases basis <;> rfl
    · rw [hrow, memberQueried_no (fun q hq => ⟨by simpa using (hno q hq).1, (hno q hq).2⟩), if_neg (by decide)]

/-! ## The record done (R107, R114) -/

section Done
variable {cells : Nat} {n m : Named} {ns : List Named} {u : Units}

theorem recordDone_scan (ht : u.ce.todo = none) :
    recordDone cells u = scanNext (u.setCe { u.ce with copy := none, scan := u.ce.scan + cells }) := by
  simp only [recordDone, ht]
  rw [← ht]
  rfl

theorem scanNext_within (h : u.ce.scan < 128) : scanNext u = u.setCe { u.ce with
    step := .scanRead, reading := ⟨u.ce.victim.getD 0, u.ce.scan⟩,
    io := ⟨some ⟨.engine, u.ce.victim.getD 0, .read u.ce.scan 1⟩, false⟩ } := if_pos h

theorem scanNext_complete (h : 128 ≤ u.ce.scan) : scanNext u = toSweep u := if_neg (Nat.not_lt.2 h)

theorem recordDone_sweep (ht : u.ce.todo = some ns) :
    recordDone cells u = sweepNext (u.setCe { u.ce with copy := none, todo := some ns.tail }) := by
  simp only [recordDone, ht]
  rfl

theorem sweepNext_more (ht : u.ce.todo = some (n :: ns)) : sweepNext u = u.setCe { u.ce with
    step := .sweepRead, reading := n.loc, io := ⟨some ⟨.engine, n.loc.seg, .read n.loc.cell 1⟩, false⟩ } := by
  simp only [sweepNext, ht]
  rw [← ht]
  rfl

theorem sweepNext_last (ht : u.ce.todo = some []) : sweepNext u = if u.ce.unread then waitInSweep u else toSweep u := by
  simp only [sweepNext, ht]

/-- The engine comes to wait in its sweep, every RECLAIM owed answered (R114, logs 50, 61). -/
theorem waitInSweep_eq (u : Units) : waitInSweep u =
    let waits (st : CStep) : Units :=
      present .engine .noVictim ((u.answerAll .noSpace u.ce.owed).setCe { u.ce with owed := [], step := st })
    if u.ce.again then present .engine (.sweep (u.ce.victim.getD 0)) (waits .sweepClaim) else waits .sweepWaiting := by
  unfold waitInSweep
  rw [answerOwed_eq]
  rfl

theorem answerAll_nil (c : ResultCode) (u : Units) : u.answerAll c [] = u := by
  simp [Units.answerAll, Four.map]

/-- What the wait leaves of the ports. -/
theorem waitInSweep_port (p : Port) (u : Units) : (waitInSweep u).port p = (u.answerAll .noSpace u.ce.owed).port p := by
  rw [waitInSweep_eq]
  dsimp only
  split <;> rfl

theorem waitInSweep_owed (u : Units) : (waitInSweep u).ce.owed = [] := by
  rw [waitInSweep_eq]
  dsimp only
  split <;> rfl

/-- Where the record done leads. -/
theorem record_done (cells : Nat) (u : Units) :
    let ce := u.ce
    let v := ce.victim.getD 0
    (ce.todo = none → ce.scan + cells < 128 →
      recordDone cells u = u.setCe { ce with
        copy := none, scan := ce.scan + cells, step := .scanRead, reading := ⟨v, ce.scan + cells⟩,
        io := ⟨some ⟨.engine, v, .read (ce.scan + cells) 1⟩, false⟩ })
    ∧ (ce.todo = none → 128 ≤ ce.scan + cells →
      recordDone cells u = present .engine (.sweep v) (u.setCe { ce with
        copy := none, scan := ce.scan + cells, step := .sweepClaim }))
    ∧ (∀ n m ns, ce.todo = some (n :: m :: ns) →
      recordDone cells u = u.setCe { ce with
        copy := none, todo := some (m :: ns), step := .sweepRead, reading := m.loc,
        io := ⟨some ⟨.engine, m.loc.seg, .read m.loc.cell 1⟩, false⟩ })
    ∧ (∀ n, ce.todo = some [n] → ce.unread = false →
      recordDone cells u = present .engine (.sweep v) (u.setCe { ce with
        copy := none, todo := some [], step := .sweepClaim }))
    ∧ (∀ n, ce.todo = some [n] → ce.unread = true → ce.owed = [] →
      let waits (st : CStep) : Units := present .engine .noVictim (u.setCe { ce with copy := none, todo := some [], step := st })
      recordDone cells u = if ce.again then present .engine (.sweep v) (waits .sweepClaim) else waits .sweepWaiting)
    ∧ (∀ n, ce.todo = some [n] → ce.unread = true →
      let w := recordDone cells u
      w.ce.owed = []
      ∧ (∀ p c, (u.port p).inHand = some c → p ∈ ce.owed → (w.port p).outcome = some (Posting.code .noSpace))
      ∧ ∀ p, p ∉ ce.owed → w.port p = u.port p) := by
  have hlast : ∀ n, u.ce.todo = some [n] → u.ce.unread = true →
      recordDone cells u = waitInSweep (u.setCe { u.ce with copy := none, todo := some [] }) := fun n ht hu => by
    rw [recordDone_sweep ht, List.tail_cons, sweepNext_last rfl]
    exact if_pos hu
  dsimp only
  refine ⟨fun ht hlt => ?within, fun ht hle => ?complete, fun n m ns ht => ?more, fun n ht hu => ?again, fun n ht hu ho => ?waits,
    fun n ht hu => ?answers⟩
  case within =>
    rw [recordDone_scan ht]
    exact scanNext_within (u := u.setCe _) hlt
  case complete =>
    rw [recordDone_scan ht]
    exact scanNext_complete (u := u.setCe _) hle
  case more =>
    rw [recordDone_sweep ht, List.tail_cons]
    exact sweepNext_more (u := u.setCe _) rfl
  case again =>
    rw [recordDone_sweep ht, List.tail_cons, sweepNext_last rfl]
    exact if_neg (by simp [hu])
  case waits =>
    rw [hlast n ht hu, waitInSweep_eq]
    have hnone : (u.setCe { u.ce with copy := none, todo := some [] }).answerAll .noSpace u.ce.owed
        = u.setCe { u.ce with copy := none, todo := some [] } := by
      rw [ho, answerAll_nil]
    dsimp only [Units.ce_setCe]
    rw [hnone, ← ho]
    rfl
  case answers =>
    rw [hlast n ht hu]
    refine ⟨waitInSweep_owed _, fun p c hc hp => ?_, fun p hp => ?_⟩
    · have hhand : ((u.setCe { u.ce with copy := none, todo := some [] }).port p).inHand ≠ none := by
        rw [Units.port_setCe, hc]
        exact Option.some_ne_none c
      rw [waitInSweep_port, answerAll_port, if_pos ⟨hp, hhand⟩]
    · rw [waitInSweep_port, answerAll_port, if_neg (fun hn => hp hn.1)]
      rfl

end Done

/-! ## The bytes of a READ of the engine (R107, R113, R114) -/

section Bytes
variable {h : Header} {bytes : List Byte} {u : Units}

theorem readDelivered_engine {q : Request} (hq : q.who = .engine) (hio : u.ce.io = ⟨some q, true⟩) (bytes : List Byte) :
    readDelivered q bytes u = engineReadDone bytes (u.setCe { u.ce with io := ⟨none, false⟩ }) := by
  have hwait : u.ce.io.awaits q = true := by rw [hio]; simp [Io.awaits]
  simp only [readDelivered, hq, hwait, if_true]
  rfl

theorem engineReadDone_scan (hs : u.ce.step = .scanRead) : engineReadDone bytes u =
    if allErased bytes then toSweep u
    else if !(readHeader bytes).sound u.ce.reading.cell then
      toSweep (postIntegrity .engine .lost none none (some (victimOf u)) (countFault u))
    else decideRecord (readHeader bytes) u := by
  simp only [engineReadDone, hs]

theorem engineReadDone_sweep {n : Named} {ns : List Named} (hs : u.ce.step = .sweepRead) (ht : u.ce.todo = some (n :: ns)) :
    engineReadDone bytes u =
      if (readHeader bytes).sound u.ce.reading.cell then decideRecord (readHeader bytes) u else u.lostInSweep n := by
  simp only [engineReadDone, hs, ht, sweepLost_eq]

theorem engineReadDone_check (hs : u.ce.step = .sweepCheck) : engineReadDone bytes u = passOver (readHeader bytes) bytes u := by
  simp only [engineReadDone, hs]

theorem engineReadDone_body {basis : Basis} {least : RecordState} (hs : u.ce.step = .bodyRead basis least) :
    engineReadDone bytes u =
      if (readHeader bytes).taken = .retired ∨ ¬ (readHeader bytes).taken.reaches least then passOver (readHeader bytes) bytes u
      else if !payloadSound (readHeader bytes) bytes then recordLost (readHeader bytes) u
      else copyAllocate ⟨u.ce.reading, readHeader bytes, bytes, basis, (readHeader bytes).taken, 0, u.ce.reading⟩
        (u.setCe { u.ce with
          copy := some ⟨u.ce.reading, readHeader bytes, bytes, basis, (readHeader bytes).taken, 0, u.ce.reading⟩ }) := by
  simp only [engineReadDone, hs]
  rfl

/-- The record has moved on since it was decided. -/
theorem moved_on_iff {taken least : RecordState} : (taken = .retired ∨ ¬ taken.reaches least = true)
    ↔ ¬ (taken ≠ .retired ∧ least.rank ≤ taken.rank) := by
  simp only [RecordState.reaches, decide_eq_true_eq, ne_eq, not_and, Decidable.imp_iff_not_or, not_not]

theorem passOver_scan (ht : u.ce.todo = none) : passOver h bytes u = recordDone h.cells u := by
  simp only [passOver, ht]

theorem recordLost_scan (ht : u.ce.todo = none) : recordLost h u = scanLost h u := by
  simp only [recordLost, ht]

theorem recordLost_sweep {n : Named} {ns : List Named} (ht : u.ce.todo = some (n :: ns)) : recordLost h u = u.lostInSweep n := by
  simp only [recordLost, ht, sweepLost_eq]

theorem heldNoted_scan (l : Location) (u : Units) : (u.heldNoted l).ce.scan = u.ce.scan := by
  unfold Units.heldNoted
  split
  · rfl
  · unfold Units.unreadNoted
    split <;> rfl

theorem heldNoted_reading (l : Location) (u : Units) : (u.heldNoted l).ce.reading = u.ce.reading := by
  unfold Units.heldNoted
  split
  · rfl
  · unfold Units.unreadNoted
    split <;> rfl

theorem scanLost_entry {e : Entry} (hf : u.iu.entries.find? (fun e => e.loc == u.ce.reading) = some e) : scanLost h u
    = present .engine (.loss e.part e.key u.ce.reading) ((u.heldNoted u.ce.reading).setCe { (u.heldNoted u.ce.reading).ce with
        scan := u.ce.scan + h.cells, step := .lossClaim }) := by
  rw [scanLost_eq, hf, ← heldNoted_scan u.ce.reading u]

theorem scanLost_unnamed (hf : ∀ e ∈ u.iu.entries, e.loc ≠ u.ce.reading) :
    scanLost h u = recordDone h.cells (u.heldNoted u.ce.reading) := by
  have hnone : u.iu.entries.find? (fun e => e.loc == u.ce.reading) = none :=
    List.find?_eq_none.2 fun e he => by simpa using hf e he
  rw [scanLost_eq, hnone]

theorem payloadSound_iff : payloadSound h bytes = true ↔ crc (slice bytes 16 h.length) = h.payCheck := by
  simp [payloadSound]

/-! ## The decision of a sound record (R108) -/

theorem question_written (hk : h.recordKind ≠ .commit) (ht : h.taken = .written) (hn : h.txn ≠ 0) :
    question h = .member .memberWritten := by
  cases hc : h.recordKind <;> simp_all [question]

theorem question_data (hk : h.recordKind = .data) (ht : h.taken = .live) : question h = .lookup := by simp [question, hk, ht]

theorem question_tombstone (hk : h.recordKind = .tombstone) (ht : h.taken = .live) (hn : h.txn ≠ 0) :
    question h = .member .memberTombstone := by simp [question, hk, ht, hn]

theorem question_commit (hk : h.recordKind = .commit) (ht : h.taken = .live) : question h = .number := by
  simp [question, hk, ht]

theorem question_skip (h : Header) (ho : h.taken = .opened ∨ h.taken = .retired ∨ (h.taken = .written ∧ h.txn = 0)
    ∨ (h.recordKind = .tombstone ∧ h.taken = .live ∧ h.txn = 0)) : question h = .skip := by
  rcases ho with ho | ho | ⟨ho, hn⟩ | ⟨hk, ho, hn⟩
  · cases hk : h.recordKind <;> simp [question, ho, hk]
  · cases hk : h.recordKind <;> simp [question, ho, hk]
  · cases hk : h.recordKind <;> simp [question, ho, hn, hk]
  · simp [question, ho, hn, hk]

theorem decideRecord_member {basis : Basis} (hq : question h = .member basis) :
    decideRecord h u = u.setCe { u.ce with step := .memberAsk h basis } := by
  simp only [decideRecord, hq]
  rfl

theorem decideRecord_lookup (hq : question h = .lookup) : decideRecord h u
    = present .engine (.lookup h.part h.key false) (u.setCe { u.ce with step := .lookupClaim h }) := by
  simp only [decideRecord, hq]
  rfl

theorem decideRecord_number (hq : question h = .number) :
    decideRecord h u = present .engine (.numberQuery h.txn) (u.setCe { u.ce with step := .numberClaim h }) := by
  simp only [decideRecord, hq]
  rfl

theorem decideRecord_skip (hq : question h = .skip) : decideRecord h u = recordSkipped h u := by
  simp only [decideRecord, hq]

end Bytes

/-- Settles O40: the questions, the record skipped, the record done, and the bytes read by the step of the engine. -/
theorem engineQuestionsAreAnswered : Obligations.EngineQuestionsAreAnswered := by
  unfold Obligations.EngineQuestionsAreAnswered
  refine ⟨questions_answered, fun h u => ⟨recordSkipped_scan, fun ns ht hc => recordSkipped_read ht hc,
    fun n ns ht hc => recordSkipped_bare ht hc⟩, record_done, fun q bytes u hq hio => ?bytes⟩
  rw [readDelivered_engine hq hio]
  dsimp only
  refine ⟨fun hs => ⟨fun he => ?erased, fun he hno => ?unsound⟩, fun n ns hs ht hno => ?lost, fun hso hst => ?decided,
    fun basis least hs => ⟨fun hm ht => ?moved, fun hst hw ht => ⟨fun e hf => ?entry, fun hf => ?unnamed⟩,
      fun n ns ht hm => ?movedWhole, fun n ns ht hw => ?sweepLost, fun hst hw => ?copied⟩,
    fun n ns hs ht => ?checked⟩
  case erased =>
    rw [engineReadDone_scan (u := u.setCe { u.ce with io := ⟨none, false⟩ }) hs, if_pos he]
    rfl
  case unsound =>
    have hsound : (readHeader bytes).sound u.ce.reading.cell = false := by simpa using hno
    rw [engineReadDone_scan (u := u.setCe { u.ce with io := ⟨none, false⟩ }) hs, he, if_neg (by decide), Units.ce_setCe, hsound]
    rfl
  case lost =>
    rw [engineReadDone_sweep (u := u.setCe { u.ce with io := ⟨none, false⟩ }) hs ht]
    exact if_neg hno
  case decided =>
    have hdecided : engineReadDone bytes (u.setCe { u.ce with io := ⟨none, false⟩ })
        = decideRecord (readHeader bytes) (u.setCe { u.ce with io := ⟨none, false⟩ }) := by
      rcases hst with ⟨hs, he⟩ | ⟨hs, n, ns, ht⟩
      · rw [engineReadDone_scan (u := u.setCe { u.ce with io := ⟨none, false⟩ }) hs, he, if_neg (by decide),
          Units.ce_setCe, hso]
        rfl
      · rw [engineReadDone_sweep (u := u.setCe { u.ce with io := ⟨none, false⟩ }) hs ht]
        exact if_pos hso
    rw [hdecided]
    exact ⟨fun hk ht hn => decideRecord_member (question_written hk ht hn),
      fun hk ht => decideRecord_lookup (question_data hk ht),
      fun hk ht hn => decideRecord_member (question_tombstone hk ht hn),
      fun hk ht => decideRecord_number (question_commit hk ht), fun ho => decideRecord_skip (question_skip _ ho)⟩
  case moved =>
    rw [engineReadDone_body (u := u.setCe { u.ce with io := ⟨none, false⟩ }) hs, if_pos (moved_on_iff.2 hm)]
    exact passOver_scan ht
  case entry =>
    rw [engineReadDone_body (u := u.setCe { u.ce with io := ⟨none, false⟩ }) hs, if_neg (fun hn => moved_on_iff.1 hn hst),
      if_pos (by simpa [payloadSound] using hw), recordLost_scan (u := u.setCe { u.ce with io := ⟨none, false⟩ }) ht]
    exact scanLost_entry (u := u.setCe { u.ce with io := ⟨none, false⟩ }) hf
  case unnamed =>
    rw [engineReadDone_body (u := u.setCe { u.ce with io := ⟨none, false⟩ }) hs, if_neg (fun hn => moved_on_iff.1 hn hst),
      if_pos (by simpa [payloadSound] using hw), recordLost_scan (u := u.setCe { u.ce with io := ⟨none, false⟩ }) ht]
    exact scanLost_unnamed (u := u.setCe { u.ce with io := ⟨none, false⟩ }) hf
  case movedWhole =>
    rw [engineReadDone_body (u := u.setCe { u.ce with io := ⟨none, false⟩ }) hs, if_pos (moved_on_iff.2 hm.1),
      passOver_sweep (u := u.setCe { u.ce with io := ⟨none, false⟩ }) ht, if_pos hm.2]
  case sweepLost =>
    rw [engineReadDone_body (u := u.setCe { u.ce with io := ⟨none, false⟩ }) hs]
    split
    · rw [passOver_sweep (u := u.setCe { u.ce with io := ⟨none, false⟩ }) ht, if_neg hw]
    · rw [if_pos (by simpa [payloadSound] using hw), recordLost_sweep (u := u.setCe { u.ce with io := ⟨none, false⟩ }) ht]
  case copied =>
    rw [engineReadDone_body (u := u.setCe { u.ce with io := ⟨none, false⟩ }) hs, if_neg (fun hn => moved_on_iff.1 hn hst),
      if_neg (by simpa [payloadSound_iff] using hw)]
    rfl
  case checked =>
    rw [engineReadDone_check (u := u.setCe { u.ce with io := ⟨none, false⟩ }) hs]
    exact passOver_sweep ht

end Sys2Proof.Machine
end


section
/-! SUPPORT. What a partition's charge counts: the staged changes that stand when one more is recorded, the charge under records
of single changes and of changes of one key, and the index slots used (R40, R41). -/

namespace Sys2Proof.Machine

namespace IndexUnit

variable {cs : List ChargeEntry} {c : ChargeEntry} {iu : IndexUnit} {part key : Nat}

/-- A staged change recorded last stands for its key, and every other key keeps the change that stood (R41, R42). -/
theorem stagedFor_append : stagedFor (cs ++ [c]) part key
    = if c.staged = true ∧ c.part = part ∧ c.key = key then some c else stagedFor cs part key := by
  unfold stagedFor
  rw [List.filter_append]
  by_cases hc : c.staged = true ∧ c.part = part ∧ c.key = key
  · rw [if_pos hc, List.filter_cons_of_pos (by simp [hc]), List.filter_nil, List.getLast?_concat]
  · rw [if_neg hc, List.filter_cons_of_neg (by simpa [and_assoc] using hc), List.filter_nil, List.append_nil]

/-- A key without a staged change in the record. -/
theorem stagedFor_none_of (h : ∀ x ∈ cs, ¬ (x.staged = true ∧ x.part = part)) : stagedFor cs part key = none := by
  unfold stagedFor
  rw [List.filter_eq_nil_iff.2 (fun x hx => by simpa [and_assoc] using fun a b => absurd ⟨a, b⟩ (h x hx)), List.getLast?_nil]

/-- No staged change of a partition stands where the record holds none. -/
theorem stagedOf_nil_of (h : ∀ x ∈ cs, ¬ (x.staged = true ∧ x.part = part)) : stagedOf cs part = [] := by
  unfold stagedOf
  rw [List.filter_eq_nil_iff.2 (fun x hx => by simpa using fun a => fun b => h x hx ⟨a, b⟩)]
  rfl

/-- The cells of the partition's entries (R41). -/
def ownCells (iu : IndexUnit) (part : Nat) : List Nat := (iu.entries.filter (fun e => e.part == part)).map (·.cells)

/-- The cells of the partition's entries but that of one key (R41). -/
def otherCells (iu : IndexUnit) (part key : Nat) : List Nat :=
  (iu.entries.filter (fun e => e.part == part && e.key != key)).map (·.cells)

/-- What a single change adds to its partition: of a WRITE what its record has more than the one it would displace (R41). -/
def singleExtra (iu : IndexUnit) (part : Nat) (c : ChargeEntry) : Nat :=
  if c.part = part ∧ c.op = .write then c.cells - ((iu.find part c.key).map (·.cells)).getD 0 else 0

/-- Under a record without staged changes of the partition every entry counts, and every single change its extra (R41). -/
theorem chargeWith_unstaged (h : ∀ x ∈ cs, ¬ (x.staged = true ∧ x.part = part)) :
    iu.chargeWith cs part = (iu.ownCells part).sum + (cs.map (iu.singleExtra part)).sum := by
  unfold chargeWith
  simp only [stagedFor_none_of h, stagedOf_nil_of h, Option.isNone_none, Bool.and_true, List.map_nil, List.sum_nil, Nat.add_zero]
  congr 1
  induction cs with
  | nil => rfl
  | cons x xs ih =>
    have hx := h x List.mem_cons_self
    have hxs := ih fun y hy => h y (List.mem_cons_of_mem _ hy)
    rw [List.map_cons, List.sum_cons, ← hxs]
    by_cases hc : x.part = part ∧ x.op = .write
    · have hs : x.staged = false := by simpa using fun hs => hx ⟨hs, hc.1⟩
      rw [List.filter_cons_of_pos (by simp [hc, hs]), List.map_cons, List.sum_cons, singleExtra, if_pos hc]
    · rw [List.filter_cons_of_neg (by simpa [and_assoc] using fun _ => fun a b => hc ⟨a, b⟩), singleExtra, if_neg hc,
        Nat.zero_add]

/-- One staged change of a key, alone or last behind another of its key, stands alone for it (R41, R42). -/
theorem stagedOf_single (hc : c.staged = true ∧ c.part = part) : stagedOf [c] part = [c] := by
  have hf : stagedFor [c] part c.key = some c := by simp [stagedFor, hc]
  simp [stagedOf, hc, List.eraseDups_cons, hf]

theorem stagedOf_pair {x : ChargeEntry} (hx : x.staged = true ∧ x.part = part) (hc : c.staged = true ∧ c.part = part)
    (hk : x.key = c.key) : stagedOf [x, c] part = [c] := by
  have hf : stagedFor [x, c] part c.key = some c := by simp [stagedFor, hx, hc, hk]
  simp [stagedOf, hx, hc, hk, List.eraseDups_cons, hf]

/-- Under staged changes of one key its entry does not count, and the change that stands counts its cells, a DELETE none (R41). -/
theorem chargeWith_staged (hall : ∀ x ∈ cs, x.staged = true)
    (hstands : stagedOf cs part = [c]) :
    iu.chargeWith cs part = (iu.otherCells part c.key).sum + changeCells c.op c.cells := by
  have hnone : ∀ k, (stagedFor cs part k).isNone = (k != c.key) := fun k => by
    rw [stagedFor_isNone, hstands, Bool.eq_iff_iff, decide_eq_true_eq, bne_iff_ne]
    simp [eq_comm]
  have hsingle : cs.filter (fun x => !x.staged && x.part == part && x.op == .write && x.key != c.key) = [] :=
    List.filter_eq_nil_iff.2 fun x hx => by simp [hall x hx]
  unfold chargeWith
  simp only [hstands, hnone, hsingle]
  simp [otherCells]

/-- The keys with a reservation: those without an entry that have a write pending (R40). -/
theorem mem_reservations : (part, key) ∈ iu.reservations ↔
    iu.find part key = none ∧ ∃ c ∈ iu.charges, c.op = .write ∧ c.part = part ∧ c.key = key := by
  unfold reservations
  rw [List.mem_eraseDups, List.mem_map]
  constructor
  · rintro ⟨c, hc, hk⟩
    obtain ⟨rfl, rfl⟩ := Prod.mk.inj hk
    obtain ⟨hm, hop⟩ := List.mem_filter.1 hc
    simp only [Bool.and_eq_true, beq_iff_eq, Option.isNone_iff_eq_none] at hop
    exact ⟨hop.2, c, hm, hop.1, rfl, rfl⟩
  · rintro ⟨hfind, c, hm, hop, rfl, rfl⟩
    exact ⟨c, List.mem_filter.2 ⟨hm, by simp [hop, hfind]⟩, rfl⟩

end IndexUnit

open IndexUnit in
/-- Settles O43: the staged members are the changes that stand, and the records of one key are read off the two cases, no staged
change of the partition and staged changes of one key. -/
theorem chargeOfAPartition : Obligations.ChargeOfAPartition := by
  refine ⟨fun iu cs part => ⟨stagedOf cs part, stagedOf_keys_nodup cs part, fun c => mem_stagedOf, ?_⟩,
    fun iu p part key cells => ⟨?_, ?_, ?_, ?_, ?_, fun first n => ?_, fun q part' hne op staged k n => ?_⟩⟩
  · simp only [chargeWith, stagedFor_isNone, changeCells]
  · exact chargeWith_unstaged (by simp)
  · exact (chargeWith_unstaged (by simp)).trans (by simp [singleExtra, ownCells])
  · exact (chargeWith_unstaged (by simp)).trans (by simp [singleExtra, ownCells])
  · exact chargeWith_staged (by simp) (stagedOf_single ⟨rfl, rfl⟩)
  · exact chargeWith_staged (by simp) (stagedOf_single ⟨rfl, rfl⟩)
  · exact chargeWith_staged (c := ⟨p, true, part, key, .write, cells⟩) (by simp)
      (stagedOf_pair ⟨rfl, rfl⟩ ⟨rfl, rfl⟩ rfl)
  · exact (chargeWith_unstaged (by simp [hne])).trans (by simp [singleExtra, ownCells, hne])

end Sys2Proof.Machine
end


section
/-! SUPPORT. The CHARGE claim: what the Index Unit answers for each change, and what a port and a transaction do with the answer
(R42, R76, R85 to R87). -/

namespace Sys2Proof.Machine

namespace IndexUnit

variable {iu : IndexUnit} {p : Port} {staged : Bool} {part key cells quota : Nat} {lost : Option Displaced}

/-- The Index Unit with one more change recorded. -/
def recorded (iu : IndexUnit) (c : ChargeEntry) : IndexUnit := { iu with charges := iu.charges ++ [c] }

theorem chargeWrite_quota (h : quota < iu.chargeWith (iu.charges ++ [⟨p, staged, part, key, .write, cells⟩]) part) :
    iu.chargeWrite p staged part key cells quota = (iu, .refused .quota) := if_pos h

theorem chargeWrite_full (h : iu.chargeWith (iu.charges ++ [⟨p, staged, part, key, .write, cells⟩]) part ≤ quota)
    (hs : 1024 < (iu.recorded ⟨p, staged, part, key, .write, cells⟩).slotsUsed) :
    iu.chargeWrite p staged part key cells quota = (iu, .refused .indexFull) :=
  (if_neg (Nat.not_lt.2 h)).trans (if_pos hs)

theorem chargeWrite_ok (h : iu.chargeWith (iu.charges ++ [⟨p, staged, part, key, .write, cells⟩]) part ≤ quota)
    (hs : (iu.recorded ⟨p, staged, part, key, .write, cells⟩).slotsUsed ≤ 1024) :
    iu.chargeWrite p staged part key cells quota = (iu.recorded ⟨p, staged, part, key, .write, cells⟩, .ok) :=
  (if_neg (Nat.not_lt.2 h)).trans (if_neg (Nat.not_lt.2 hs))

theorem takeCharge_delete_missing (h : iu.find part key = none) :
    iu.takeCharge p part key .delete cells quota lost = (iu, .refused .notFound) := if_pos (by rw [h]; rfl)

theorem takeCharge_delete_found (h : iu.find part key ≠ none) :
    iu.takeCharge p part key .delete cells quota lost = (iu.recorded ⟨p, false, part, key, .delete, 1⟩, .ok) :=
  if_neg (by simpa using h)

theorem takeCharge_stageDelete_found (h : iu.find part key ≠ none) :
    iu.takeCharge p part key .stageDelete cells quota lost = (iu.recorded ⟨p, true, part, key, .delete, 1⟩, .ok) :=
  if_pos (by simpa [Option.isSome_iff_ne_none] using h)

theorem takeCharge_stageDelete_missing (h : iu.find part key = none) :
    iu.takeCharge p part key .stageDelete cells quota none = (iu, .refused .notFound) := by
  simp [takeCharge, h]

/-- A staged delete of a key without an entry takes the transaction's staged change away (R42, R87). -/
theorem takeCharge_stageDelete_removed {d : Displaced} (h : iu.find part key = none) :
    iu.takeCharge p part key .stageDelete cells quota (some d)
      = (({ iu with charges :=
            iu.charges.filter (fun c => !(c.staged && c.port == p && c.part == part && c.key == key)) }).kill d.loc d.cells,
          .removed) := by
  simp [takeCharge, h]

end IndexUnit

open IndexUnit

section PortCharge
variable {p : Port} {part key cells : Nat} {op : ChargeOp} {u : Units} {iu : IndexUnit} {a : ChargeAnswer} {c : InHand}
  {e : ResultCode}

theorem chargeClaim_port (h : u.iu.takeCharge p part key op cells (u.pu.shadow.part part).quota none = (iu, a)) :
    chargeClaim (.port p) part key op cells u = portCharged p a (u.setIu iu) := by
  simp only [chargeClaim, h]

/-- A change accepted: its job is sent and the port waits for its end (R76). -/
theorem portCharged_ok (h : (u.port p).inHand = some c) (hw : c.work = .charging part) :
    portCharged p .ok u = sendJob (singleJob p part c) (u.setPort p { u.port p with
      inHand := some { c with work := .elsewhere } }) := by
  simp only [portCharged, setWork, Units.modPort_eq, h, hw, Option.map_some]

theorem portCharged_refused (h : (u.port p).inHand = some c) :
    portCharged p (.refused e) u = u.withOutcome p (Posting.code e) := by
  simp only [portCharged, answer_inHand h]

theorem singleJob_write (h : c.cmd = .write) : singleJob p part c
    = .record ⟨p, .single, .data, part, c.params.key.toNat, c.params.length.toNat, 0, c.image.take c.params.length.toNat,
        none, 0⟩ := if_pos h

theorem singleJob_delete (h : c.cmd = .delete) : singleJob p part c
    = .record ⟨p, .single, .tombstone, part, c.params.key.toNat, 0, 0, [], none, 0⟩ := if_neg (by rw [h]; decide)

end PortCharge

section StageCharge
variable {p : Port} {part key cells : Nat} {op : ChargeOp} {u : Units} {iu : IndexUnit} {a : ChargeAnswer} {c : InHand}
  {e : ResultCode}

/-- A stage may have its CHARGE taken: its slot is OPEN, or is aborted meanwhile and has no other CHARGE out (R85). -/
def Units.chargeBegun (u : Units) (p : Port) : Prop :=
  (u.slot p).state = .opened
    ∨ ((u.slot p).state = .aborting ∧ ∀ part key op n, ⟨.txn p, .charge part key op n⟩ ∉ u.iu.claims)

/-- The ABORT_CLEAN of an abort that came before a stage's CHARGE follows the stage's job (R85). -/
def cleanBehind (p : Port) (sl : Slot) (v : Units) : Units :=
  if sl.state = .aborting then sendJob (.abortClean p) v else v

/-- No CHARGE of the port's stage is out. -/
theorem chargeOut_false (h : ∀ part key op n, ⟨.txn p, .charge part key op n⟩ ∉ u.iu.claims) : chargeOut p u = false := by
  rw [chargeOut, List.any_eq_false]
  rintro ⟨src, body⟩ hm hc
  simp only [Bool.and_eq_true, beq_iff_eq] at hc
  obtain ⟨rfl, hb⟩ := hc
  cases body
  case charge part key op n => exact h _ _ _ _ hm
  all_goals cases hb

/-- The answer of a stage's CHARGE changes nothing at the Index Unit. -/
theorem stageCharged_iu : (stageCharged p key a u).iu = u.iu := by
  unfold stageCharged
  cases a with
  | ok => cases (u.port p).inHand <;> rfl
  | removed =>
    dsimp only
    split <;> rfl
  | refused e =>
    by_cases h : (u.slot p).state = .opened
    · simp only [h, if_true]
      simp [answer, deliver, Units.modPort_eq]
    · simp only [h, if_false]
      rfl

/-- The CHARGE of a stage: the answer is followed, and the ABORT_CLEAN after it where an abort came before (R85). -/
theorem chargeClaim_txn (hb : u.chargeBegun p) (hi : iu.claims = u.iu.claims)
    (h : u.iu.takeCharge p part key op cells (u.pu.shadow.part part).quota (memberRecord p key u) = (iu, a)) :
    chargeClaim (.txn p) part key op cells u = cleanBehind p (u.slot p) (stageCharged p key a (u.setIu iu)) := by
  simp only [chargeClaim, h, cleanBehind]
  obtain hopen | ⟨hab, hout⟩ := hb
  · rw [if_neg (by rw [hopen]; decide), if_neg (by rw [hopen]; decide)]
  · have hfree : chargeOut p (stageCharged p key a (u.setIu iu)) = false := by
      apply chargeOut_false
      rw [stageCharged_iu]
      change ∀ part key op n, _ ∉ iu.claims
      rw [hi]
      exact hout
    rw [if_pos hab, if_pos hab, sendClean, hfree, if_neg Bool.false_ne_true]

theorem stageCharged_ok (h : (u.port p).inHand = some c) :
    stageCharged p key .ok u = sendJob (stageJob p (u.slot p) key c) u := by
  simp only [stageCharged, h]

/-- A stage refused leaves its slot; in an OPEN one its command is answered (R86, R87). -/
theorem stageCharged_refused (h : (u.port p).inHand = some c) : stageCharged p key (.refused e) u
    = if (u.slot p).state = .opened
      then (u.setSlot p { u.slot p with stage := none }).withOutcome p (Posting.code e)
      else u.setSlot p { u.slot p with stage := none } := by
  simp only [stageCharged]
  by_cases hs : (u.slot p).state = .opened
  · rw [if_pos hs, if_pos hs, answer_inHand (u := u.setSlot p { u.slot p with stage := none }) h]
  · rw [if_neg hs, if_neg hs]

/-- A staged member taken away: its record is retired by a removal job (R87). -/
theorem stageCharged_removed {m : Member} (h : (u.slot p).member key = some m) : stageCharged p key .removed u
    = sendJob (.removal p (u.slot p).part key (u.slot p).number m.loc)
        (u.setSlot p { u.slot p with members := (u.slot p).members.filter (fun m => m.key != key) }) := by
  simp only [stageCharged, h]

theorem stageJob_write {sl : Slot} (h : c.cmd = .stageWrite) : stageJob p sl key c
    = .record ⟨p, .stage, .data, sl.part, key, c.params.length.toNat, sl.number, c.image.take c.params.length.toNat,
        none, 0⟩ := if_pos h

theorem stageJob_delete {sl : Slot} (h : c.cmd = .stageDelete) : stageJob p sl key c
    = .record ⟨p, .stage, .tombstone, sl.part, key, 0, sl.number, [], none, 0⟩ := if_neg (by rw [h]; decide)

end StageCharge

section Rows
variable {s : State} {p : Port} {part key cells : Nat} {op : ChargeOp} {iu : IndexUnit} {a : ChargeAnswer} {c : InHand}
  {e : ResultCode}

theorem charge_single (h : s.oldestClaim (.port p) (.charge part key op cells))
    (ht : (popClaim s.units).iu.takeCharge p part key op cells (s.units.pu.shadow.part part).quota none = (iu, a)) :
    exec .charge s = .next (s.withUnits (kick (portCharged p a ((popClaim s.units).setIu iu)))) :=
  (charge_row h).trans (congrArg (fun z => Host.Outcome.next (s.withUnits (kick z))) (chargeClaim_port (u := popClaim s.units) ht))

theorem charge_single_accepted (h : s.oldestClaim (.port p) (.charge part key op cells))
    (hc : (s.units.port p).inHand = some c) (hw : c.work = .charging part)
    (ht : (popClaim s.units).iu.takeCharge p part key op cells (s.units.pu.shadow.part part).quota none = (iu, .ok)) :
    exec .charge s = .next (s.withUnits (kick (sendJob (singleJob p part c) (((popClaim s.units).setIu iu).setPort p
      { s.units.port p with inHand := some { c with work := .elsewhere } })))) :=
  (charge_single h ht).trans (congrArg (fun z => Host.Outcome.next (s.withUnits (kick z)))
    (portCharged_ok (u := (popClaim s.units).setIu iu) hc hw))

theorem charge_single_refused (h : s.oldestClaim (.port p) (.charge part key op cells))
    (hc : (s.units.port p).inHand = some c)
    (ht : (popClaim s.units).iu.takeCharge p part key op cells (s.units.pu.shadow.part part).quota none
      = ((popClaim s.units).iu, .refused e)) :
    exec .charge s = .next (s.withUnits (kick ((popClaim s.units).withOutcome p (Posting.code e)))) :=
  (charge_single h ht).trans (congrArg (fun z => Host.Outcome.next (s.withUnits (kick z)))
    (portCharged_refused (u := (popClaim s.units).setIu (popClaim s.units).iu) hc))

theorem charge_stage (h : s.oldestClaim (.txn p) (.charge part key op cells)) (hb : (popClaim s.units).chargeBegun p)
    (ht : (popClaim s.units).iu.takeCharge p part key op cells (s.units.pu.shadow.part part).quota
      (memberRecord p key s.units) = (iu, a)) (hi : iu.claims = (popClaim s.units).iu.claims) :
    exec .charge s = .next (s.withUnits (kick (cleanBehind p (s.units.slot p)
      (stageCharged p key a ((popClaim s.units).setIu iu))))) :=
  (charge_row h).trans (congrArg (fun z => Host.Outcome.next (s.withUnits (kick z)))
    (chargeClaim_txn (u := popClaim s.units) hb hi ht))

theorem charge_stage_accepted (h : s.oldestClaim (.txn p) (.charge part key op cells)) (hb : (popClaim s.units).chargeBegun p)
    (hc : (s.units.port p).inHand = some c)
    (ht : (popClaim s.units).iu.takeCharge p part key op cells (s.units.pu.shadow.part part).quota
      (memberRecord p key s.units) = (iu, .ok)) (hi : iu.claims = (popClaim s.units).iu.claims) :
    exec .charge s = .next (s.withUnits (kick (cleanBehind p (s.units.slot p)
      (sendJob (stageJob p (s.units.slot p) key c) ((popClaim s.units).setIu iu))))) :=
  (charge_stage h hb ht hi).trans (congrArg (fun z => Host.Outcome.next (s.withUnits (kick (cleanBehind p (s.units.slot p) z))))
    (stageCharged_ok (u := (popClaim s.units).setIu iu) hc))

theorem charge_stage_refused (h : s.oldestClaim (.txn p) (.charge part key op cells)) (hb : (popClaim s.units).chargeBegun p)
    (hc : (s.units.port p).inHand = some c)
    (ht : (popClaim s.units).iu.takeCharge p part key op cells (s.units.pu.shadow.part part).quota
      (memberRecord p key s.units) = ((popClaim s.units).iu, .refused e)) :
    exec .charge s = .next (s.withUnits (kick (cleanBehind p (s.units.slot p)
      (if (s.units.slot p).state = .opened
       then ((popClaim s.units).setSlot p { s.units.slot p with stage := none }).withOutcome p (Posting.code e)
       else (popClaim s.units).setSlot p { s.units.slot p with stage := none })))) :=
  (charge_stage h hb ht rfl).trans (congrArg (fun z => Host.Outcome.next (s.withUnits (kick (cleanBehind p (s.units.slot p) z))))
    (stageCharged_refused (u := (popClaim s.units).setIu (popClaim s.units).iu) hc))

end Rows

/-- Settles O42: each change by the Index Unit's answer, at its port or in its transaction. -/
theorem chargeTakes : Obligations.ChargeTakes := by
  refine ⟨fun p part key cells c s hc => ⟨fun h hw hcmd => ⟨fun hq => ?_, fun hq hs => ?_, fun hq hs => ?_⟩,
    fun h hw hcmd => ⟨fun hf => ?_, fun hf => ?_⟩, fun h hb hcmd => ⟨fun hq => ?_, fun hq hs => ?_, fun hq hs => ?_⟩,
    fun h hb hcmd => ⟨fun hf => ?_, fun hf hm => ?_, fun m hf hm => ?_⟩⟩,
    fun iu => ⟨iu.reservations, eraseDups_nodup _, fun part key => mem_reservations, rfl⟩⟩
  · exact charge_single_refused h hc (chargeWrite_quota hq)
  · exact charge_single_refused h hc (chargeWrite_full hq hs)
  · exact (charge_single_accepted h hc hw (chargeWrite_ok hq hs)).trans (by rw [singleJob_write hcmd]; rfl)
  · exact charge_single_refused h hc (takeCharge_delete_missing hf)
  · exact (charge_single_accepted h hc hw (takeCharge_delete_found hf)).trans (by rw [singleJob_delete hcmd]; rfl)
  · exact charge_stage_refused h hb hc (chargeWrite_quota hq)
  · exact charge_stage_refused h hb hc (chargeWrite_full hq hs)
  · exact (charge_stage_accepted h hb hc (chargeWrite_ok hq hs) rfl).trans (by rw [stageJob_write hcmd]; rfl)
  · exact (charge_stage_accepted h hb hc (takeCharge_stageDelete_found hf) rfl).trans (by rw [stageJob_delete hcmd]; rfl)
  · have hnone : memberRecord p key s.units = none := by
      rw [memberRecord, Slot.member, List.find?_eq_none.2 (fun m hmem => by simpa using hm m hmem)]
      rfl
    exact charge_stage_refused h hb hc (by rw [hnone]; exact takeCharge_stageDelete_missing hf)
  · have hsome : memberRecord p key s.units = some ⟨m.loc, m.cells⟩ := by
      rw [memberRecord, Slot.member, hm]
      rfl
    have htake := takeCharge_stageDelete_removed (iu := (popClaim s.units).iu) (p := p) (cells := cells)
      (quota := (s.units.pu.shadow.part part).quota) (d := ⟨m.loc, m.cells⟩) hf
    rw [← hsome] at htake
    have hrow := charge_stage h hb htake rfl
    exact hrow.trans (congrArg (fun z => Host.Outcome.next (s.withUnits (kick (cleanBehind p (s.units.slot p) z))))
      (stageCharged_removed (u := (popClaim s.units).setIu _) hm))

end Sys2Proof.Machine
end


section
/-! SUPPORT. LIST (R39, R91, R177): the merged list of one RANGE answer, its members and its order, and what a port does with
the answer. -/

namespace Sys2Proof.Machine

/-! ## The merged list (R91) -/

section Merged
variable {ms : List Member} {after covered : Option Nat} {es : List Entry}

theorem mem_foldl_insertListed {x : ListEntry} (ys : List ListEntry) : ∀ {xs : List ListEntry},
    x ∈ ys.foldl (fun xs e => insertListed e xs) xs ↔ x ∈ xs ∨ x ∈ ys := by
  induction ys with
  | nil => simp
  | cons y ys ih =>
    intro xs
    rw [List.foldl_cons, ih, mem_insertListed, List.mem_cons, or_comm (a := x = y), or_assoc]

/-- Entries of keys of their own, put in one after the other, keep the order. -/
theorem foldl_insertListed_ordered (ys : List ListEntry) : ∀ {xs : List ListEntry}, xs.Pairwise (fun x y => x.key < y.key) →
    (ys.map (·.key)).Nodup → (∀ x ∈ xs, ∀ y ∈ ys, x.key ≠ y.key) →
    (ys.foldl (fun xs e => insertListed e xs) xs).Pairwise (fun x y => x.key < y.key) := by
  induction ys with
  | nil => exact fun h _ _ => h
  | cons y ys ih =>
    intro xs h hn hd
    rw [List.map_cons, List.nodup_cons] at hn
    refine ih (insertListed_ordered y xs h fun x hx => hd x hx y List.mem_cons_self) hn.2 fun x hx z hz => ?_
    rcases mem_insertListed.1 hx with rfl | hx
    · exact fun hk => hn.1 (hk ▸ List.mem_map_of_mem hz)
    · exact hd x hx z (List.mem_cons_of_mem _ hz)

/-- The entries of keys without a member, as a list gives them. -/
def unstagedListed (ms : List Member) (es : List Entry) : List ListEntry :=
  (es.filter (fun e => !ms.any (fun m => m.key == e.key))).map fun e => ⟨e.key, e.length, false⟩

/-- The staged WRITEs of a window, as a list gives them. -/
def stagedListed (ms : List Member) (after covered : Option Nat) : List ListEntry :=
  (ms.filter (fun m => m.op == .write && inWindow after covered m.key)).map fun m => ⟨m.key, m.length, true⟩

theorem mergeListed_eq : mergeListed ms after covered es
    = (stagedListed ms after covered).foldl (fun xs e => insertListed e xs) (unstagedListed ms es) := rfl

theorem mem_unstagedListed {x : ListEntry} : x ∈ unstagedListed ms es
    ↔ ∃ e ∈ es, (∀ m ∈ ms, m.key ≠ e.key) ∧ x = ⟨e.key, e.length, false⟩ := by
  simp only [unstagedListed, List.mem_map, List.mem_filter, Bool.not_eq_true', List.any_eq_false, beq_iff_eq, and_assoc,
    eq_comm (b := x)]

theorem mem_stagedListed {x : ListEntry} : x ∈ stagedListed ms after covered
    ↔ ∃ m ∈ ms, m.op = .write ∧ inWindow after covered m.key = true ∧ x = ⟨m.key, m.length, true⟩ := by
  simp only [stagedListed, List.mem_map, List.mem_filter, Bool.and_eq_true, beq_iff_eq, and_assoc, eq_comm (b := x)]

/-- The merged list ascends: a staged key has no entry of its own in it, and the members' keys are distinct. -/
theorem mergeListed_ordered (he : es.Pairwise (fun x y => x.key < y.key)) (hn : (ms.map (·.key)).Nodup) :
    (mergeListed ms after covered es).Pairwise (fun x y => x.key < y.key) := by
  rw [mergeListed_eq]
  refine foldl_insertListed_ordered _ ?_ ?_ fun x hx y hy => ?_
  · exact List.pairwise_map.2 (he.filter _)
  · have hkeys : (stagedListed ms after covered).map (·.key)
        = (ms.filter (fun m => m.op == .write && inWindow after covered m.key)).map (·.key) := List.map_map
    rw [hkeys]
    exact hn.sublist (List.filter_sublist.map _)
  · obtain ⟨e, _, hne, rfl⟩ := mem_unstagedListed.1 hx
    obtain ⟨m, hm, _, _, rfl⟩ := mem_stagedListed.1 hy
    exact (hne m hm).symm

/-- Without members the list is the entries. -/
theorem mergeListed_nil : mergeListed [] after covered es = es.map fun e => ⟨e.key, e.length, false⟩ := by
  simp [mergeListed]

/-- A key is past the last one covered. -/
theorem inWindow_none_iff {k : Nat} : inWindow none covered k = false ↔ ∃ l, covered = some l ∧ l < k := by
  cases covered <;> simp [inWindow]

end Merged

/-! ## A RANGE is answered (R91) -/

section Range
variable {p : Port} {part : Nat} {after : Option Nat} {ms : List Member} {c : InHand} {u : Units} {es : List Entry} {more : Bool}
  {before : List ListEntry}

theorem listSource_eq : listSource p ms = if ms = [] then .port p else .txn p := by
  cases ms <;> rfl

/-- Another RANGE is wanted: the list is short with more to come, or a staged delete past what is covered may take a key away
(R91, log 15). -/
def rangeGoesOn (ms : List Member) (covered : Option Nat) (found : List ListEntry) (more : Bool) : Prop :=
  more = true ∧ (found.length < 64
    ∨ found.length = 64 ∧ ∃ m ∈ ms, m.op = .delete ∧ ∃ k, covered = some k ∧ k < m.key)

theorem rangeGoesOn_iff {covered : Option Nat} {found : List ListEntry} :
    (more && (decide (found.length < 64)
      || (decide (found.length = 64) && ms.any fun m => m.op == .delete && !inWindow none covered m.key))) = true
    ↔ rangeGoesOn ms covered found more := by
  simp only [rangeGoesOn, Bool.and_eq_true, Bool.or_eq_true, decide_eq_true_eq, List.any_eq_true, beq_iff_eq,
    Bool.not_eq_true', inWindow_none_iff]

/-- The last key a RANGE answer covers. -/
def rangeCovered (es : List Entry) (more : Bool) : Option Nat := if more then (es.getLast?).map (·.key) else none

theorem portRanged_again (hc : (u.port p).inHand = some c) (hw : c.work = .listing part after ms before)
    (hg : rangeGoesOn ms (rangeCovered es more) (before ++ mergeListed ms after (rangeCovered es more) es) more) :
    portRanged p es more u = present (listSource p ms) (.range part (rangeCovered es more))
      (u.setPort p { u.port p with inHand := some { c with
        work := .listing part (rangeCovered es more) ms (before ++ mergeListed ms after (rangeCovered es more) es) } }) := by
  simp only [portRanged, workOf, hc, hw, Option.map_some]
  refine (if_pos (rangeGoesOn_iff.2 hg)).trans ?_
  rw [askRange, setWork, Units.modPort_eq, hc]
  rfl

theorem portRanged_done (hc : (u.port p).inHand = some c) (hw : c.work = .listing part after ms before)
    (hg : ¬ rangeGoesOn ms (rangeCovered es more) (before ++ mergeListed ms after (rangeCovered es more) es) more) :
    portRanged p es more u
      = u.withOutcome p (listOutcome (before ++ mergeListed ms after (rangeCovered es more) es)
          (more || decide (64 < (before ++ mergeListed ms after (rangeCovered es more) es).length))) := by
  simp only [portRanged, workOf, hc, hw, Option.map_some]
  exact (if_neg (mt rangeGoesOn_iff.1 hg)).trans (deliver_inHand hc)

/-- The list's outcome, its flag written out (section 11.2). -/
theorem listOutcome_eq (found : List ListEntry) : listOutcome found more = ⟨{ Results.zero with
    code := 0x01, count := BitVec.ofNat 8 (found.take 64).length, flags := if more then 2 else 0 },
    (found.take 64).flatMap fun e => toBytes 2 e.key ++ toBytes 1 e.length ++ [if e.staged then 1 else 0]⟩ := by
  cases more <;> rfl

/-- The whole first RANGE of a LIST without members is its list. -/
theorem not_rangeGoesOn_of_nil {covered : Option Nat} {found : List ListEntry} (h : more = true → 64 ≤ found.length) :
    ¬ rangeGoesOn [] covered found more := by
  rintro ⟨hm, hlt | ⟨_, m, hmem, _⟩⟩
  · exact absurd (h hm) (by omega)
  · cases hmem

theorem rangeClaim_listSource {u : Units} : rangeClaim (if ms = [] then .port p else .txn p) part after u
    = portRanged p (u.iu.range part after).1 (u.iu.range part after).2 u := by
  by_cases h : ms = []
  · rw [if_pos h]
    rfl
  · rw [if_neg h]
    rfl

end Range

theorem visibleMembers_getD (p : Port) (part : Nat) (u : Units) : (visibleMembers p part u).getD []
    = if (u.slot p).state = .opened ∧ (u.slot p).part = part then (u.slot p).members else [] := by
  unfold visibleMembers
  split <;> rfl

/-- A LIST of the start key 65,535 begins at key 0 (R177). -/
theorem listAfter_eq (q : Params) : q.listAfter = if q.key = 0xFFFF then none else some q.key.toNat := by
  have hkey : q.key.toNat = 65535 ↔ q.key = 0xFFFF := ⟨fun h => BitVec.eq_of_toNat_eq h, fun h => by rw [h]; rfl⟩
  simp only [Params.listAfter, Params.keyNat, hkey]

/-- Settles O41: the RANGE claims of a LIST from the first to its answer, and the order of the index and the merged list. -/
theorem listAndRangeTake : Obligations.ListAndRangeTake := by
  refine ⟨fun p part s h => ?begin, fun p part after c ms before s hc hw h => ?range, fun es hes => ?index,
    fun ms after covered es he hn => mergeListed_ordered he hn,
    fun ms after covered es x => by rw [mergeListed_eq, mem_foldl_insertListed, mem_unstagedListed, mem_stagedListed]⟩
  case begin =>
    refine row_presented h.toTaking ((taken_passing h).trans ?_)
    change startList p part (s.units.port p).params.listAfter (s.taking p .list) = _
    rw [startList, visibleMembers_getD, askRange, listSource_eq, setWork_taking, listAfter_eq, taking_slot]
  case range =>
    intro u es gives more covered found unsure goesOn
    have hrow : exec .range s = .next (s.withUnits (portRanged p (es.take 64) more u)) :=
      (range_row h).trans (congrArg (fun z => Host.Outcome.next (s.withUnits z)) rangeClaim_listSource)
    have hdone : ¬ goesOn → exec .range s = gives (found.take 64) (more || decide (64 < found.length)) := fun hg =>
      hrow.trans (congrArg (fun z => Host.Outcome.next (s.withUnits z))
        ((portRanged_done (u := u) hc hw hg).trans (congrArg (u.withOutcome p) (listOutcome_eq found))))
    refine ⟨fun hms hbefore => ?_, fun hg => ?_, hdone⟩
    · have hfound : found = (es.take 64).map fun e => ⟨e.key, e.length, false⟩ := by
        change before ++ mergeListed ms after covered (es.take 64) = _
        rw [hms, hbefore, mergeListed_nil, List.nil_append]
      have hlen : found.length = min 64 es.length := by rw [hfound, List.length_map, List.length_take]
      have hstop : ¬ goesOn := by
        have hfull : more = true → 64 ≤ found.length := fun hm => by
          have := of_decide_eq_true hm
          omega
        have := not_rangeGoesOn_of_nil (covered := covered) hfull
        rwa [← hms] at this
      have hshort : (more || decide (64 < found.length)) = more := by
        rw [decide_eq_false (by omega), Bool.or_false]
      rw [hdone hstop, hshort, List.take_of_length_le (by omega), hfound]
    · refine hrow.trans (congrArg (fun z => Host.Outcome.next (s.withUnits z)) ?_)
      refine (portRanged_again (u := u) hc hw hg).trans ?_
      rw [listSource_eq]
      rfl
  case index =>
    have hes : Rising es := hes
    refine ⟨fun e => hes.insert e, fun part key => hes.remove part key, fun part key l => hes.move part key l, fun part => ?_⟩
    refine List.Pairwise.imp_of_mem (fun {x y} hx hy h => ?_) (hes.filter _)
    have hxp : x.part = part := by simpa using (List.mem_filter.1 hx).2
    have hyp : y.part = part := by simpa using (List.mem_filter.1 hy).2
    omega

end Sys2Proof.Machine
end


section
/-! SUPPORT. RELEASE, SWITCH and the UNPIN behind a switch (R42, R43, R62 to R64, R84): the steps of the Writer's current job, the
ends of a record job, and the end of an abort. -/

namespace Sys2Proof.Machine

/-! ## Steps of the current job -/

section Steps
variable {u : Units} {c : CurJob} {st : WStep}

theorem goStep_eq (h : u.rw.cur = some c) : goStep st u = u.setRw { u.rw with cur := some { c with step := st } } := by
  rw [goStep, h]
  rfl

theorem modJob_eq {f : CurJob → CurJob} (h : u.rw.cur = some c) : modJob f u = u.setRw { u.rw with cur := some (f c) } := by
  rw [modJob, h]
  rfl

theorem goProgram_eq {seg cell : Nat} {bytes : List Byte} (h : u.rw.cur = some c) : goProgram st seg cell bytes u
    = u.setRw { u.rw with cur := some { c with step := st }, io := ⟨some ⟨.writer, seg, .program cell bytes⟩, false⟩ } := by
  rw [goProgram, goStep_eq h]
  rfl

theorem goClaim_eq {m : Claim} (h : u.rw.cur = some c) :
    goClaim st m u = present .writer m (u.setRw { u.rw with cur := some { c with step := st } }) := by
  rw [goClaim, goStep_eq h]

theorem goRetire_eq {why : RetireWhy} {l : Location} {mark tries : Nat} (h : u.rw.cur = some c) : goRetire why l mark tries u
    = u.setRw { u.rw with
        cur := some { c with step := .retiring why l mark tries },
        io := ⟨some ⟨.writer, l.seg, .program l.cell (retireMark mark :: List.replicate 15 0xFF)⟩, false⟩ } :=
  goProgram_eq h

theorem goProgram_modJob {f : CurJob → CurJob} {seg cell : Nat} {bytes : List Byte} (h : u.rw.cur = some c) :
    goProgram st seg cell bytes (modJob f u)
      = u.setRw { u.rw with
          cur := some { f c with step := st },
          io := ⟨some ⟨.writer, seg, .program cell bytes⟩, false⟩ } := by
  rw [goProgram_eq (c := f c) (by rw [modJob_eq h]; rfl), modJob_eq h]
  rfl

theorem goClaim_modJob {f : CurJob → CurJob} {m : Claim} (h : u.rw.cur = some c) :
    goClaim st m (modJob f u) = present .writer m (u.setRw { u.rw with cur := some { f c with step := st } }) := by
  rw [goClaim_eq (c := f c) (by rw [modJob_eq h]; rfl), modJob_eq h]
  rfl

end Steps

/-! ## Ends of jobs (R57, R58, R179) -/

section Ends
variable {u : Units} {p : Port} {o : Posting} {r : RecordJob}

/-- The Writer without its job. -/
def RecordWriter.free (x : RecordWriter) : RecordWriter := { x with cur := none, io := ⟨none, false⟩ }

theorem finish_eq : finish p u = (u.setRw u.rw.free).drained p := settle_eq _ _

@[simp] theorem delivers_rw : (u.delivers p o).rw = u.rw := by rw [← deliver_eq, deliver_rw]

@[simp] theorem delivers_iu : (u.delivers p o).iu = u.iu := by
  unfold Units.delivers Units.withOutcome
  split <;> rfl

/-- What the Writer does meanwhile does not change what is delivered. -/
theorem delivers_setRw (x y : RecordWriter) : ((u.setRw x).delivers p o).setRw y = (u.delivers p o).setRw y := by
  unfold Units.delivers
  rw [apply_ite (Units.setRw · y), apply_ite (Units.setRw · y)]
  rfl

/-- A single change ends: its command is answered with the generation, if it is still in hand, and the Writer is free
(R62, R179). -/
theorem recordEnded_single (h : r.role = .single) : recordEnded r u
    = ((u.delivers r.port ⟨{ Results.zero with code := 0x01, gen := BitVec.ofNat 32 (r.gen.getD 0) }, []⟩).setRw
        u.rw.free).drained r.port := by
  rw [recordEnded, if_neg (by rw [h]; decide), finish_eq, deliver_eq, delivers_rw]
  rfl

end Ends

/-! ## RELEASE (R42, R84) -/

section Release
variable {u : Units} {p : Port} {r : RecordJob} {code : ResultCode} {rec : List Location}

theorem writerReleased_record (h : u.rw.cur = some ⟨.record r, .releasing code, rec⟩) :
    writerReleased u = ((u.delivers r.port (Posting.code code)).setRw u.rw.free).drained r.port := by
  simp only [writerReleased, h]
  rw [finish_eq, answer, deliver_eq, delivers_rw]

@[simp] theorem abortEnded_rw : (abortEnded p u).rw = u.rw := by
  unfold abortEnded inState
  split
  · dsimp only
    split
    · exact endTransaction_rw ..
    · exact endTransaction_rw ..
    · split <;> exact endTransaction_rw ..
  · rfl

/-- Where an abort ends: the claim released from the slot's new state, and the port's drain. -/
def Units.endsIn (u : Units) (p : Port) (after : Slot) : Units := (releaseClaim (u.slot p).part (u.setSlot p after)).drained p

theorem endTransaction_delivers {o : Posting} {after : Slot} :
    endTransaction p after (deliver p o u) = (releaseClaim (u.slot p).part ((u.delivers p o).setSlot p after)).drained p := by
  rw [endTransaction_eq, deliver_eq, delivers_slot]

section Aborting
variable (h : (u.slot p).state = .aborting)
include h

theorem abortEnded_asked {x : EndReason} {k : Cmd} (hr : (u.slot p).reason = some x) (hp : (u.slot p).pending = some k) :
    abortEnded p u = (u.delivers p (Posting.code x.code)).endsIn p Slot.start := by
  rw [abortEnded, inState, if_pos h]
  simp only [hr, hp, answer]
  rw [endTransaction_eq, deliver_eq]
  rfl

theorem abortEnded_unasked {x : EndReason} (hr : (u.slot p).reason = some x) (hp : (u.slot p).pending = none) :
    abortEnded p u = u.endsIn p { Slot.start with state := .ended, reason := some x } := by
  rw [abortEnded, inState, if_pos h]
  simp only [hr, hp]
  exact endTransaction_eq ..

theorem abortEnded_replied {x : ResultCode} (hr : (u.slot p).reason = none) (hp : (u.slot p).reply = some x) :
    abortEnded p u = (u.delivers p (Posting.code x)).endsIn p Slot.start := by
  rw [abortEnded, inState, if_pos h]
  simp only [hr, hp, answer]
  rw [endTransaction_eq, deliver_eq]
  rfl

theorem abortEnded_silent (hr : (u.slot p).reason = none) (hp : (u.slot p).reply = none) :
    abortEnded p u = u.endsIn p Slot.start := by
  rw [abortEnded, inState, if_pos h]
  simp only [hr, hp]
  exact endTransaction_eq ..

end Aborting

end Release

/-- Settles O44: the single change answers its command, a stage's changes leave the record, and an abort ends as its slot says. -/
theorem releaseTakes : Obligations.ReleaseTakes := by
  intro p s u sl charged
  refine ⟨fun r code rec h hcur hp => ?single, fun key h hs => ?pending, fun key l cells h hs => ?replaced,
    fun h hs => ?members⟩
  case single =>
    have hw := writerReleased_record (u := charged (s.units.iu.charges.filter (fun e => e.staged || e.port != p))) hcur
    rw [hp] at hw
    exact (release_row h).trans (congrArg (fun z => Host.Outcome.next (s.withUnits (kick z))) hw)
  case pending =>
    exact (release_row h).trans (congrArg (fun z => Host.Outcome.next (s.withUnits z)) (kick_steady hs rfl))
  case replaced =>
    exact (release_row h).trans (congrArg (fun z => Host.Outcome.next (s.withUnits z)) (kick_steady hs rfl))
  case members =>
    intro released ends
    have hrow : exec .release s = .next (s.withUnits (abortEnded p released)) :=
      (release_row h).trans (congrArg (fun z => Host.Outcome.next (s.withUnits z))
        (kick_steady hs (abortEnded_rw (u := released))))
    have hends : ∀ (w : Units) (after : Slot), w.slot p = sl → abortEnded p released = w.endsIn p after → ends w after :=
      fun w after hw he => ⟨_, releaseClaim_released _ _, by rw [hrow, he, Units.endsIn, hw]⟩
    refine ⟨fun hst => hrow.trans (congrArg (fun z => Host.Outcome.next (s.withUnits z)) (if_neg hst)), fun hst =>
      ⟨fun r k hr hk => ?_, fun r hr hk => ?_, fun k hr hk => ?_, fun hr hk => ?_⟩⟩
    · exact hends _ _ (delivers_slot ..) (abortEnded_asked (u := released) hst hr hk)
    · exact hends _ _ rfl (abortEnded_unasked (u := released) hst hr hk)
    · exact hends _ _ (delivers_slot ..) (abortEnded_replied (u := released) hst hr hk)
    · exact hends _ _ rfl (abortEnded_silent (u := released) hst hr hk)

/-! ## SWITCH (R43, R62 to R64) -/

section Switch
variable {iu : IndexUnit} {e : Entry} {deletes : Bool}

/-- A switch that displaces nothing leaves the segments (R43). -/
theorem switchKey_segs_none (h : iu.find e.part e.key = none) : (iu.switchKey e deletes).1.segs = iu.segs := by
  unfold IndexUnit.switchKey
  simp only [h]
  rfl

/-- The displaced record's cells are dead and its segment pinned (R43). -/
theorem switchKey_segs_some {old : Entry} (h : iu.find e.part e.key = some old) : (iu.switchKey e deletes).1.segs
    = iu.segs.modify (old.loc.seg - 2)
        (fun x => { x with live := x.live - old.cells, dead := x.dead + old.cells, pins := x.pins + 1 }) := by
  unfold IndexUnit.switchKey
  simp only [h]
  exact segs_displaced _ _ _

end Switch

section Switched
variable {u : Units} {r : RecordJob} {l : Location} {short : Bool} {rec : List Location}

/-- The job of the change once its switch is taken: its record recorded (R43). -/
def Units.switchedJob (u : Units) (r : RecordJob) (st : WStep) (l : Location) (io : Io) : Units :=
  u.setRw { u.rw with cur := some ⟨.record r, st, [l]⟩, io := io }

/-- The Writer's program of the first mark of a retire (R13, R63). -/
def retireIo (l : Location) : Io := ⟨some ⟨.writer, l.seg, .program l.cell (0xEF :: List.replicate 15 0xFF)⟩, false⟩

variable (h : u.rw.cur = some ⟨.record r, .switching l short, rec⟩)
include h

theorem writerSwitched_displaced {d : Displaced} (hs : short = false) :
    writerSwitched (some d) u = u.switchedJob r (.retiring .displaced d.loc 0 1) l (retireIo d.loc) := by
  simp only [writerSwitched, h, hs, Bool.false_eq_true, if_false]
  exact goProgram_modJob h

theorem writerSwitched_displaced_short {d : Displaced} (hs : short = true) : writerSwitched (some d) u
    = present .writer (.unpin d.loc.seg) (u.switchedJob r (.unpinning (.single false)) l u.rw.io) := by
  simp only [writerSwitched, h, hs, if_true]
  exact goClaim_modJob h

theorem writerSwitched_data (hr : r.role = .single) (hk : r.kind = .data) : writerSwitched none u
    = ((u.delivers r.port ⟨{ Results.zero with code := 0x01, gen := BitVec.ofNat 32 (r.gen.getD 0) }, []⟩).setRw
        u.rw.free).drained r.port := by
  simp only [writerSwitched, h]
  rw [if_pos (by rw [hk]; decide), modJob_eq h, recordEnded_single hr, delivers_setRw]
  rfl

theorem writerSwitched_tombstone (hk : r.kind = .tombstone) (hs : short = false) :
    writerSwitched none u = u.switchedJob r (.retiring .tombstone l 0 1) l (retireIo l) := by
  simp only [writerSwitched, h, hs, Bool.false_eq_true, if_false]
  rw [if_neg (not_not_intro hk)]
  exact goProgram_modJob h

theorem writerSwitched_tombstone_short (hk : r.kind = .tombstone) (hs : short = true) : writerSwitched none u
    = present .writer (.report (.dead l 1)) (u.switchedJob r (.reporting .abandoned l) l u.rw.io) := by
  simp only [writerSwitched, h, hs, if_true]
  rw [if_neg (not_not_intro hk)]
  exact goClaim_modJob h

end Switched

section Unpinned
variable {u : Units} {r : RecordJob} {l : Location} {ok : Bool} {rec : List Location}
  (h : u.rw.cur = some ⟨.record r, .unpinning (.single ok), rec⟩)
include h

theorem writerUnpinned_data (hr : r.role = .single) (hk : r.kind = .data) : writerUnpinned u
    = ((u.delivers r.port ⟨{ Results.zero with code := 0x01, gen := BitVec.ofNat 32 (r.gen.getD 0) }, []⟩).setRw
        u.rw.free).drained r.port := by
  simp only [writerUnpinned, h]
  rw [if_pos (by rw [hk]; decide), recordEnded_single hr]

theorem writerUnpinned_tombstone (hl : rec.head? = some l) (hk : r.kind = .tombstone) (ho : ok = true) : writerUnpinned u
    = u.setRw { u.rw with cur := some ⟨.record r, .retiring .tombstone l 0 1, rec⟩, io := retireIo l } := by
  simp only [writerUnpinned, h, hl, ho, if_true]
  rw [if_neg (not_not_intro hk)]
  exact goRetire_eq h

theorem writerUnpinned_abandoned (hl : rec.head? = some l) (hk : r.kind = .tombstone) (ho : ok = false) : writerUnpinned u
    = present .writer (.report (.dead l 1))
        (u.setRw { u.rw with cur := some ⟨.record r, .reporting .abandoned l, rec⟩ }) := by
  simp only [writerUnpinned, h, hl, ho, Bool.false_eq_true, if_false]
  rw [if_neg (not_not_intro hk)]
  exact goClaim_eq h

end Unpinned

/-- A row that leaves the Writer at work takes no further job. -/
theorem row_at_work {s : State} {o : Answer} {v w : Units} (h : o = .next (s.withUnits (kick v))) (hv : v = w)
    (hw : w.rw.cur ≠ none) : o = .next (s.withUnits w) :=
  h.trans (congrArg (fun z => Host.Outcome.next (s.withUnits z)) (hv ▸ kick_busy (hv ▸ hw)))

/-- The units once a SWITCH is carried out, before the Writer goes on: the index, and the change report sent (R43). -/
def Units.switched (u : Units) (w : SwitchClaim) : Units :=
  sendReport ⟨w.part, w.key, w.gen, w.source, w.kind != RecordKind.data⟩ (u.setIu (u.iu.takeSwitch w).1)

section SwitchRow
variable {s : State} {src : Claimant} {w : SwitchClaim}

theorem takeSwitch_displaced {iu : IndexUnit} :
    (iu.takeSwitch w).2 = (iu.find w.part w.key).map fun x => ⟨x.loc, x.cells⟩ := switchKey_displaced _ _ _

theorem switch_none (h : s.oldestClaim src (.switch w)) (hold : s.units.iu.find w.part w.key = none) :
    exec .switch s = .next (s.withUnits (kick (writerSwitched none ((popClaim s.units).switched w)))) := by
  have hd : ((popClaim s.units).iu.takeSwitch w).2 = none := takeSwitch_displaced.trans (congrArg (Option.map _) hold)
  exact (switch_row h).trans (congrArg (fun d => Host.Outcome.next (s.withUnits (kick (writerSwitched d
    ((popClaim s.units).switched w))))) hd)

theorem switch_some {e : Entry} (h : s.oldestClaim src (.switch w)) (hold : s.units.iu.find w.part w.key = some e) :
    exec .switch s = .next (s.withUnits (kick (writerSwitched (some ⟨e.loc, e.cells⟩) ((popClaim s.units).switched w)))) := by
  have hd : ((popClaim s.units).iu.takeSwitch w).2 = some ⟨e.loc, e.cells⟩ :=
    takeSwitch_displaced.trans (congrArg (Option.map _) hold)
  exact (switch_row h).trans (congrArg (fun d => Host.Outcome.next (s.withUnits (kick (writerSwitched d
    ((popClaim s.units).switched w))))) hd)

/-- The entry of the key is the change's, or gone under a tombstone, and every other key has its own (R43). -/
theorem switched_find (u : Units) (part key : Nat) : (u.switched w).iu.find part key
    = if part = w.part ∧ key = w.key then
        (if w.kind = .data then some ⟨w.part, w.key, w.loc, w.length, w.gen, w.cells⟩ else none)
      else u.iu.find part key := by
  refine (find_switchKey _ _ _ part key).trans ?_
  cases w.kind <;> rfl

theorem switched_segs_none (u : Units) (h : u.iu.find w.part w.key = none) : (u.switched w).iu.segs = u.iu.segs :=
  switchKey_segs_none (e := ⟨w.part, w.key, w.loc, w.length, w.gen, w.cells⟩) h

theorem switched_segs_some (u : Units) {old : Entry} (h : u.iu.find w.part w.key = some old) : (u.switched w).iu.segs
    = u.iu.segs.modify (old.loc.seg - 2)
        (fun x => { x with live := x.live - old.cells, dead := x.dead + old.cells, pins := x.pins + 1 }) :=
  switchKey_segs_some (e := ⟨w.part, w.key, w.loc, w.length, w.gen, w.cells⟩) h

theorem switched_nu (u : Units) : (u.switched w).nu
    = { u.nu with reports := u.nu.reports ++ [⟨w.part, w.key, w.gen, w.source, decide (w.kind ≠ .data)⟩] } := by
  have hk : (w.kind != RecordKind.data) = decide (w.kind ≠ .data) := by cases w.kind <;> rfl
  rw [Units.switched, hk]
  rfl

end SwitchRow

/-- Settles O45: the switch of the key, then the Writer's next step by what it displaced and what kind of change it is; and the
step behind the UNPIN of the displaced record. -/
theorem switchTakes : Obligations.SwitchTakes := by
  intro r rec s hr goes ends mark
  let unpinned (seg : Nat) : Units := (popClaim s.units).setIu ((popClaim s.units).iu.dropPin seg)
  have busy {c : CurJob} : some c ≠ none := Option.some_ne_none c
  refine ⟨fun l short w h hcur => ⟨(popClaim s.units).switched w, fun part key => switched_find _ part key,
    switchKey_charges _ _ _, switched_segs_none (popClaim s.units), fun e => switched_segs_some (popClaim s.units),
    switchKey_commitSet _ _ _, switchKey_claims _ _ _, switched_nu _, rfl, rfl, rfl, rfl, rfl,
    ?data, ?tomb, ?tombShort, ?old, ?oldShort⟩,
    fun seg ok h hcur => ⟨?unpinData, fun l hl hk => ⟨?unpinTomb, ?unpinAbandoned⟩⟩⟩
  case data =>
    intro hold hk
    exact (switch_none h hold).trans (congrArg (fun z => Host.Outcome.next (s.withUnits (kick z)))
      (writerSwitched_data (u := (popClaim s.units).switched w) hcur hr hk))
  case tomb =>
    intro hold hk hs
    exact row_at_work (switch_none h hold) (writerSwitched_tombstone (u := (popClaim s.units).switched w) hcur hk hs) busy
  case tombShort =>
    intro hold hk hs
    exact row_at_work (switch_none h hold) (writerSwitched_tombstone_short (u := (popClaim s.units).switched w) hcur hk hs)
      busy
  case old =>
    intro e hold hs
    exact row_at_work (switch_some h hold) (writerSwitched_displaced (u := (popClaim s.units).switched w) hcur hs) busy
  case oldShort =>
    intro e hold hs
    exact row_at_work (switch_some h hold) (writerSwitched_displaced_short (u := (popClaim s.units).switched w) hcur hs)
      busy
  case unpinData =>
    intro hk
    exact (unpin_row h).trans (congrArg (fun z => Host.Outcome.next (s.withUnits (kick z)))
      (writerUnpinned_data (u := unpinned seg) hcur hr hk))
  case unpinTomb =>
    intro ho
    exact row_at_work (unpin_row h) (writerUnpinned_tombstone (u := unpinned seg) hcur hl hk ho) busy
  case unpinAbandoned =>
    intro ho
    exact row_at_work (unpin_row h) (writerUnpinned_abandoned (u := unpinned seg) hcur hl hk ho) busy

end Sys2Proof.Machine
end


section
/-! SUPPORT. REPORT (R45, R47, R63, R67, R68, R70, R93): what the Writer's job and the engine do next, and the end of a COMPLETE
behind its COMMIT record. -/

namespace Sys2Proof.Machine

/-! ## The members of a COMPLETE (R67, R68) -/

/-- The first element that satisfies a test, with its place. -/
theorem find?_zipIdx_eq_some {α : Type} {l : List α} {test : α → Bool} {i : Nat} {a : α} (hi : l[i]? = some a)
    (ha : test a = true) (hmin : ∀ k x, k < i → l[k]? = some x → ¬ test x = true) :
    l.zipIdx.find? (fun x => test x.1) = some (a, i) := by
  obtain ⟨hlt, hget⟩ := List.getElem?_eq_some_iff.1 hi
  rw [List.find?_eq_some_iff_getElem]
  refine ⟨ha, i, by simpa using hlt, by simp [hget], fun j hj => ?_⟩
  have := hmin j l[j] hj (List.getElem?_eq_getElem (by omega))
  simpa using this

theorem find?_zipIdx_eq_none {α : Type} {l : List α} {test : α → Bool} (h : ∀ x ∈ l, ¬ test x = true) :
    l.zipIdx.find? (fun x => test x.1) = none :=
  List.find?_eq_none.2 fun x hx => h x.1 (List.fst_mem_of_mem_zipIdx hx)

section Members
variable {u : Units} {p : Port} {c : CurJob} {i : Nat} {m : Member} {ms : List Member}

/-- A TOMBSTONE whose step 3 was skipped (R67, R71). -/
def Member.leftShort (m : Member) : Prop := m.op = .delete ∧ m.isSealed = false

theorem leftShort_iff : (m.op == .delete && !m.isSealed) = true ↔ m.leftShort := by simp [Member.leftShort]

theorem leftTombstone_eq_some (hi : ms[i]? = some m) (hm : m.leftShort)
    (hmin : ∀ k x, k < i → ms[k]? = some x → ¬ x.leftShort) : leftTombstone ms = some (i, m.loc) := by
  rw [leftTombstone, find?_zipIdx_eq_some (test := fun m : Member => m.op == .delete && !m.isSealed) hi (leftShort_iff.2 hm)
    fun k x hk hx => mt leftShort_iff.1 (hmin k x hk hx)]
  rfl

theorem leftTombstone_eq_none (h : ∀ m ∈ ms, ¬ m.leftShort) : leftTombstone ms = none := by
  rw [leftTombstone, find?_zipIdx_eq_none (test := fun m : Member => m.op == .delete && !m.isSealed)
    fun m hm => mt leftShort_iff.1 (h m hm)]
  rfl

theorem memberAt_eq : memberAt p i u = (u.slot p).members[i]? := rfl

theorem goMemberLive_eq {l : Location} {tries : Nat} {again : Bool} (h : u.rw.cur = some c) : goMemberLive i l tries again u
    = u.setRw { u.rw with
        cur := some { c with step := .memberLive i l tries again, recorded := recordAt i l c.recorded },
        io := ⟨some ⟨.writer, l.seg, .program l.cell (0x1F :: List.replicate 15 0xFF)⟩, false⟩ } :=
  goProgram_modJob h

theorem promoteFrom_member {txn : Nat} (h : u.rw.cur = some c) (hm : (u.slot p).members[i]? = some m) :
    promoteFrom p txn i u = u.setRw { u.rw with
        cur := some { c with step := .memberLive i m.loc 1 false, recorded := recordAt i m.loc c.recorded },
        io := ⟨some ⟨.writer, m.loc.seg, .program m.loc.cell (0x1F :: List.replicate 15 0xFF)⟩, false⟩ } := by
  simp only [promoteFrom, memberAt_eq, hm]
  exact goMemberLive_eq h

theorem sealMember_eq : sealMember p i u
    = u.setSlot p { u.slot p with members := (u.slot p).members.modify i fun m => { m with isSealed := true } } := rfl

end Members

/-! ## The end of a COMPLETE (R68, R93) -/

section Complete
variable {u : Units} {p : Port} {c : CurJob} {i : Nat} {m : Member}

/-- A job of the Writer that is no RECORD job is not what a draining port waits for, so its end may drain the port at once
or after the Writer is free (R179). -/
theorem drained_setRw_drained {x : RecordWriter} (h : hasRecordJob p (u.setRw x) = hasRecordJob p u) :
    ((u.drained p).setRw x).drained p = (u.setRw x).drained p := by
  by_cases hd : (u.port p).draining = true ∧ (u.port p).frame = none ∧ (u.port p).stale = none ∧ hasRecordJob p u = false
      ∧ (u.slot p).state = .none ∧ u.pu.session.committingBy p = false
  · have hready : u.drained p = u.setPort p { u.port p with state := .ready, draining := false } := if_pos hd
    have hx : (u.setRw x).drained p = (u.setRw x).setPort p { u.port p with state := .ready, draining := false } :=
      if_pos (by rw [h]; exact hd)
    rw [hready, hx]
    exact if_neg (fun hn => by
      have hdrain := hn.1
      rw [Units.port_setRw, Units.port_setPort_self] at hdrain
      cases hdrain)
  · rw [show u.drained p = u from if_neg hd]

theorem hasRecordJob_free {part txn : Nat} {ds : List (Option Displaced)} {st : WStep} {rec : List Location}
    (h : u.rw.cur = some ⟨.complete p part txn ds, st, rec⟩) : hasRecordJob p (u.setRw u.rw.free) = hasRecordJob p u := by
  unfold hasRecordJob
  rw [h]
  simp [RecordWriter.free, Units.setRw, Job.recordOf]

/-- A COMPLETE in its slot: the COMMIT is answered, the claim passes on, and the Writer is free (R79, R93). -/
theorem endComplete_committing {part txn : Nat} {ds : List (Option Displaced)} {st : WStep} {rec : List Location}
    (hcur : u.rw.cur = some ⟨.complete p part txn ds, st, rec⟩) (hs : (u.slot p).state = .committing)
    (hm : ∀ m ∈ (u.slot p).members, ¬ m.leftShort) :
    endComplete p u = ((releaseClaim (u.slot p).part ((u.delivers p (Posting.code .ok)).setSlot p Slot.start)).setRw
      u.rw.free).drained p := by
  have hrw : (releaseClaim (u.slot p).part ((u.delivers p (Posting.code .ok)).setSlot p Slot.start)).rw = u.rw := by
    rw [releaseClaim_rw]
    exact delivers_rw
  have hfree := hasRecordJob_free (u := releaseClaim (u.slot p).part ((u.delivers p (Posting.code .ok)).setSlot p Slot.start))
    (hrw ▸ hcur)
  simp only [endComplete, leftTombstone_eq_none hm]
  rw [finish_eq, completeEnded_rw, completeEnded, inState, if_pos hs, answer, endTransaction_delivers]
  exact drained_setRw_drained (hrw ▸ hfree)

theorem endComplete_other (hs : (u.slot p).state ≠ .committing) (hm : ∀ m ∈ (u.slot p).members, ¬ m.leftShort) :
    endComplete p u = (u.setRw u.rw.free).drained p := by
  simp only [endComplete, leftTombstone_eq_none hm]
  rw [finish_eq, completeEnded_rw, completeEnded, inState, if_neg hs]

/-- A TOMBSTONE left short of LIVE is first reported dead (R15, log 43). -/
theorem endComplete_left (hcur : u.rw.cur = some c) (hi : (u.slot p).members[i]? = some m) (hm : m.leftShort)
    (hmin : ∀ k x, k < i → (u.slot p).members[k]? = some x → ¬ x.leftShort) :
    endComplete p u = present .writer (.report (.dead m.loc 1)) ((u.setSlot p { u.slot p with
      members := (u.slot p).members.modify i fun m => { m with isSealed := true } }).setRw
        { u.rw with cur := some { c with step := .reporting .leftTomb m.loc } }) := by
  simp only [endComplete, leftTombstone_eq_some hi hm hmin]
  exact goClaim_eq (u := sealMember p i u) hcur

end Complete

/-! ## What follows a REPORT -/

section Reported
variable {u : Units} {r : RecordJob} {what : WReport} {k : Location} {rec : List Location} {again : Option Location}

theorem writerReported_failed (h : u.rw.cur = some ⟨.record r, .reporting .failed k, rec⟩) : writerReported again u
    = present .writer (.close k.seg .suspect) (u.setRw { u.rw with cur := some ⟨.record r, .suspectClaim k, rec⟩ }) := by
  simp only [writerReported, h, if_true]
  exact goClaim_eq h

theorem writerReported_record (h : u.rw.cur = some ⟨.record r, .reporting what k, rec⟩) (hw : what ≠ .failed) :
    writerReported again u = recordEnded r u := by
  simp only [writerReported, h, if_neg hw]

variable {p : Port} {part txn : Nat} {ds : List (Option Displaced)}

theorem writerReported_tombOf {i : Nat} (h : u.rw.cur = some ⟨.complete p part txn ds, .reporting (.tombOf i) k, rec⟩) :
    writerReported again u = promoteFrom p txn (i + 1) u := by
  simp only [writerReported, h]

theorem writerReported_leftTomb (h : u.rw.cur = some ⟨.complete p part txn ds, .reporting .leftTomb k, rec⟩) :
    writerReported again u = endComplete p u := by
  simp only [writerReported, h]

theorem writerReported_commit_gone (h : u.rw.cur = some ⟨.complete p part txn ds, .reporting .commitRecord k, rec⟩) :
    writerReported none u = endComplete p u := by
  simp only [writerReported, h]

theorem writerReported_commit_moved {l : Location}
    (h : u.rw.cur = some ⟨.complete p part txn ds, .reporting .commitRecord k, rec⟩) :
    writerReported (some l) u
      = u.setRw { u.rw with cur := some ⟨.complete p part txn ds, .retiring .commitRecord l 0 1, rec⟩, io := retireIo l } := by
  simp only [writerReported, h]
  exact goRetire_eq h

theorem engineReported_failed {c : Copy} (hs : u.ce.step = .reporting .failed) (hc : u.ce.copy = some c) : engineReported u
    = present .engine (.close c.loc.seg .suspect) (u.setCe { u.ce with step := .suspectClaim }) := by
  simp only [engineReported, hs, hc]
  rw [← hc]
  rfl

theorem engineReported_record {c : Copy} {what : CReport} (hs : u.ce.step = .reporting what) (hc : u.ce.copy = some c)
    (hw : what ≠ .failed) : engineReported u = recordDone c.hdr.cells u := by
  simp only [engineReported, hs, hc]

end Reported

namespace IndexUnit
variable {iu : IndexUnit} {txn : Nat} {l : Location} {x : CommitEntry}

theorem takeCommitReport_moved (h : iu.commitSet.find? (fun e => e.txn == txn) = some x) (hx : x.loc ≠ l) :
    iu.takeCommitReport txn l = (iu, some x.loc) := by
  simp only [takeCommitReport, commitLoc, h, Option.map_some, if_neg hx]

/-- The number of a retired COMMIT record leaves the set (R45). -/
theorem takeCommitReport_gone (h : iu.commitSet.find? (fun e => e.txn == txn) = some x) (hx : x.loc = l) :
    iu.takeCommitReport txn l
      = (({ iu with commitSet := iu.commitSet.filter (fun e => e.txn != txn) }).kill l 1, none) := by
  simp only [takeCommitReport, commitLoc, h, Option.map_some, if_pos hx]

end IndexUnit

/-! ## The engine leaves the Writer as it is -/

theorem answerOwed_rw (c : ResultCode) (u : Units) : (answerOwed c u).rw = u.rw := by rw [answerOwed_eq]; rfl

theorem waitInSweep_rw (u : Units) : (waitInSweep u).rw = u.rw := by
  have hwait : (engineClaim .sweepWaiting .noVictim (answerOwed .noSpace u)).rw = u.rw := answerOwed_rw .noSpace u
  unfold waitInSweep
  split
  · rw [wakeSweep_rw, hwait]
  · exact hwait

theorem sweepNext_rw (u : Units) : (sweepNext u).rw = u.rw := by
  unfold sweepNext
  split
  · rfl
  · split
    · exact waitInSweep_rw u
    · rfl

theorem recordDone_rw (cells : Nat) (u : Units) : (recordDone cells u).rw = u.rw := by
  unfold recordDone
  split
  · exact sweepNext_rw _
  · unfold scanNext
    split <;> rfl

section Rows
variable {s : State} {l : Location} {cells txn : Nat} {iu : IndexUnit} {again : Option Location}

/-- The units with a record's cells dead. -/
def Units.killed (u : Units) (l : Location) (cells : Nat) : Units := u.setIu (u.iu.kill l cells)

theorem report_dead (h : s.oldestClaim .writer (.report (.dead l cells))) :
    exec .report s = .next (s.withUnits (kick (writerReported none ((popClaim s.units).killed l cells)))) := report_row h

theorem report_commit (h : s.oldestClaim .writer (.report (.commitRetired txn l)))
    (ht : (popClaim s.units).iu.takeCommitReport txn l = (iu, again)) :
    exec .report s = .next (s.withUnits (kick (writerReported again ((popClaim s.units).setIu iu)))) :=
  (report_row h).trans (by simp only [reportClaim, ht])

theorem report_engine (h : s.oldestClaim .engine (.report (.dead l cells))) :
    exec .report s = .next (s.withUnits (kick (engineReported ((popClaim s.units).killed l cells)))) := report_row h

end Rows

/-- Settles O48: what the Writer's job does next by what was reported, the end of a COMPLETE, and the engine's reports. -/
theorem reportTakes : Obligations.ReportTakes := by
  intro s u dead free ends
  have hends : ∀ (p : Port) (part txn : Nat) (ds : List (Option Displaced)) (st : WStep) (rec : List Location) (v : Units),
      v.rw = s.units.rw → v.slot p = s.units.slot p → s.units.rw.cur = some ⟨.complete p part txn ds, st, rec⟩ →
      exec .report s = .next (s.withUnits (kick (endComplete p v))) → ends p (.complete p part txn ds) rec v := by
    intro p part txn ds st rec v hrw hslot hcur hrow
    refine ⟨fun i m hi hm hmin => ?_, fun hm hst => ?_, fun hm hst => ?_⟩
    · have hleft := endComplete_left (u := v) (hrw ▸ hcur) (hslot ▸ hi) hm (hslot ▸ hmin)
      rw [hrw, hslot] at hleft
      exact row_at_work hrow hleft (Option.some_ne_none _)
    · have hend := endComplete_committing (u := v) (hrw ▸ hcur) (hslot ▸ hst) (hslot ▸ hm)
      rw [hrw, hslot] at hend
      exact ⟨_, releaseClaim_released _ _, hrow.trans (by rw [hend]; rfl)⟩
    · have hend := endComplete_other (u := v) (hslot ▸ hst) (hslot ▸ hm)
      rw [hrw] at hend
      exact hrow.trans (by rw [hend]; rfl)
  refine ⟨fun l cells r k rec h hcur => ?failed, fun l cells r what k rec h hcur hw hr => ?record,
    fun l cells p part txn ds i k rec m h hcur hm => ?next, fun l p part txn ds k rec x h hcur hx => ⟨fun hl => ?moved,
    fun hl => ?gone⟩, fun l p part txn ds k rec h hcur => ?left, fun l cells k h hk hs => ⟨fun hst => ?engineFailed,
    fun what hst hw => ?engineDone⟩⟩
  case failed =>
    exact row_at_work (report_dead h) (writerReported_failed (u := (popClaim s.units).killed l cells) hcur)
      (Option.some_ne_none _)
  case record =>
    exact (report_dead h).trans (congrArg (fun z => Host.Outcome.next (s.withUnits (kick z)))
      ((writerReported_record (u := (popClaim s.units).killed l cells) hcur hw).trans (recordEnded_single hr)))
  case next =>
    exact row_at_work (report_dead h) ((writerReported_tombOf (u := (popClaim s.units).killed l cells) hcur).trans
      (promoteFrom_member (u := (popClaim s.units).killed l cells) hcur hm)) (Option.some_ne_none _)
  case moved =>
    exact row_at_work (report_commit h (IndexUnit.takeCommitReport_moved hx hl))
      (writerReported_commit_moved (u := (popClaim s.units).setIu (popClaim s.units).iu) hcur) (Option.some_ne_none _)
  case gone =>
    refine hends p part txn ds _ rec _ rfl rfl hcur ?_
    have hrow := report_commit h (IndexUnit.takeCommitReport_gone hx hl)
    exact hrow.trans (congrArg (fun z => Host.Outcome.next (s.withUnits (kick z)))
      (writerReported_commit_gone (u := (popClaim s.units).setIu _) hcur))
  case left =>
    refine hends p part txn ds _ rec _ rfl rfl hcur ?_
    exact (report_dead h).trans (congrArg (fun z => Host.Outcome.next (s.withUnits (kick z)))
      (writerReported_leftTomb (u := (popClaim s.units).killed l 1) hcur))
  case engineFailed =>
    have hr := engineReported_failed (u := (popClaim s.units).killed l cells) hst hk
    exact (report_engine h).trans (congrArg (fun z => Host.Outcome.next (s.withUnits z))
      ((congrArg kick hr).trans (kick_steady hs rfl)))
  case engineDone =>
    have hr := engineReported_record (u := (popClaim s.units).killed l cells) hst hk hw
    exact (report_engine h).trans (congrArg (fun z => Host.Outcome.next (s.withUnits z))
      ((congrArg kick hr).trans (kick_steady hs (recordDone_rw ..))))

end Sys2Proof.Machine
end


section
/-! SUPPORT. The members of a transaction (R44, R65, R66, R87): a staged record entering the member list, and the members
switched together at the commit point. -/

namespace Sys2Proof.Machine

/-! ## A staged record is reported (R65, R87) -/

theorem putMember_replaced {m : Member} {ms : List Member} (h : ∃ x ∈ ms, x.key = m.key) :
    putMember m ms = ms.map fun x => if x.key = m.key then m else x :=
  if_pos (by simpa using h)

theorem putMember_new {m : Member} {ms : List Member} (h : ∀ x ∈ ms, x.key ≠ m.key) : putMember m ms = ms ++ [m] :=
  if_neg (by simpa using h)

section Taken
variable {p : Port} {m o : Member} {u : Units}

theorem takeMember_new (h : ∀ x ∈ (u.slot p).members, x.key ≠ m.key) : takeMember p m u
    = (u.setSlot p { u.slot p with members := (u.slot p).members ++ [m] }, none) := by
  have hnone : (u.slot p).member m.key = none := List.find?_eq_none.2 fun x hx => by simpa using h x hx
  simp only [takeMember, hnone, putMember_new h]

theorem takeMember_replaces (h : (u.slot p).members.find? (fun x => x.key == m.key) = some o) : takeMember p m u
    = (present (.txn p) (.release (.stageReplaced p m.key o.loc o.cells)) (u.setSlot p { u.slot p with
        members := (u.slot p).members.map fun x => if x.key = m.key then m else x }), some o.loc) := by
  have hsome : (u.slot p).member m.key = some o := h
  have hkey : o.key = m.key := by simpa using List.find?_some h
  simp only [takeMember, hsome, putMember_replaced ⟨o, List.mem_of_find?_eq_some h, hkey⟩]

end Taken

/-- A port whose work is not all ended, or that does not drain, stays as it is (R179). -/
theorem settle_of_slot {p : Port} {u : Units} (h : (u.slot p).state ≠ .none) : settle p u = u :=
  (settle_eq p u).trans (if_neg fun hn => h hn.2.2.2.2.1)

section Staged
variable {u : Units} {r : RecordJob} {l : Location} {rec : List Location}

/-- The member a staged record becomes (R65). -/
def stagedMember (r : RecordJob) (l : Location) : Member :=
  ⟨r.key, if r.kind = .data then .write else .delete, r.length, r.gen.getD 0, l, r.cells, false⟩

theorem stageEnded_opened {p : Port} {o : Posting} (h : (u.slot p).state = .opened) :
    stageEnded p o u = deliver p o (u.setSlot p { u.slot p with stage := none }) := if_pos h

theorem stageEnded_other {p : Port} {o : Posting} (h : (u.slot p).state ≠ .opened) :
    stageEnded p o u = u.setSlot p { u.slot p with stage := none } := if_neg h

/-- A staged record whose command is answered with its generation, in an OPEN slot (R87). -/
theorem recordEnded_stage_opened {c : InHand} (hr : r.role = .stage) (hst : (u.slot r.port).state = .opened)
    (hc : (u.port r.port).inHand = some c) (hd : (u.port r.port).draining = false) : recordEnded r u
    = (((u.setSlot r.port { u.slot r.port with stage := none }).withOutcome r.port ⟨{ Results.zero with
        code := 0x01, gen := BitVec.ofNat 32 (r.gen.getD 0) }, []⟩).setRw u.rw.free) := by
  rw [recordEnded, if_pos hr, stageEnded_opened hst,
    deliver_inHand (u := u.setSlot r.port { u.slot r.port with stage := none }) hc]
  refine settle_steady _ _ ?_
  rw [Units.port_setRw, Units.withOutcome, Units.port_setPort_self]
  exact hd

/-- In an ABORTING slot the end of the clean answers it (R87). -/
theorem recordEnded_stage_aborting (hr : r.role = .stage) (hst : (u.slot r.port).state = .aborting) : recordEnded r u
    = (u.setSlot r.port { u.slot r.port with stage := none }).setRw u.rw.free := by
  rw [recordEnded, if_pos hr, stageEnded_other (by rw [hst]; decide)]
  refine settle_of_slot ?_
  rw [Units.slot_setRw, Units.slot_setSlot_self, hst]
  decide

variable (h : u.rw.cur = some ⟨.record r, .memberReporting l, rec⟩)
include h

theorem reportMember_eq {t : Units × Option Location} (ht : takeMember r.port (stagedMember r l) u = t) : reportMember u
    = match t.2 with
      | some old => goRetire .replaced old 0 1 t.1
      | none => recordEnded r t.1 := by
  subst ht
  simp only [reportMember, h]
  rfl

theorem reportMember_new (hm : ∀ x ∈ (u.slot r.port).members, x.key ≠ r.key) : reportMember u
    = recordEnded r (u.setSlot r.port { u.slot r.port with members := (u.slot r.port).members ++ [stagedMember r l] }) :=
  reportMember_eq h (takeMember_new (m := stagedMember r l) hm)

theorem reportMember_replaces {o : Member} (hm : (u.slot r.port).members.find? (fun x => x.key == r.key) = some o) :
    reportMember u = (present (.txn r.port) (.release (.stageReplaced r.port r.key o.loc o.cells)) (u.setSlot r.port
        { u.slot r.port with members := (u.slot r.port).members.map fun x =>
            if x.key = r.key then stagedMember r l else x })).setRw
      { u.rw with cur := some ⟨.record r, .retiring .replaced o.loc 0 1, rec⟩, io := retireIo o.loc } :=
  (reportMember_eq h (takeMember_replaces (m := stagedMember r l) hm)).trans
    (goRetire_eq (u := present (.txn r.port) (.release (.stageReplaced r.port r.key o.loc o.cells)) (u.setSlot r.port _)) h)

end Staged

/-! ## The members switched together (R44) -/

section Switched
variable {part : Nat}

/-- The index unit with the entries and segments of another: all that a switch of keys changes in it. -/
def IndexUnit.withTables (iu x : IndexUnit) : IndexUnit := { iu with entries := x.entries, segs := x.segs }

theorem displace_frame (iu : IndexUnit) (old : Option Entry) : (iu.displace old).1 = iu.withTables (iu.displace old).1 := by
  cases old <;> rfl

theorem switchKey_frame (iu : IndexUnit) (e : Entry) (deletes : Bool) :
    (iu.switchKey e deletes).1 = iu.withTables (iu.switchKey e deletes).1 := displace_frame { iu with entries := _ } _

theorem switchMembers_frame (ms : List Member) : ∀ iu : IndexUnit,
    (IndexUnit.switchMembers part ms iu).1 = iu.withTables (IndexUnit.switchMembers part ms iu).1 := by
  induction ms with
  | nil => exact fun _ => rfl
  | cons m ms ih =>
    intro iu
    rw [IndexUnit.switchMembers]
    generalize hx : iu.switchKey _ _ = x
    have hframe : x.1 = iu.withTables x.1 := hx ▸ switchKey_frame iu _ _
    calc (IndexUnit.switchMembers part ms x.1).1
        = x.1.withTables (IndexUnit.switchMembers part ms x.1).1 := ih _
      _ = (iu.withTables x.1).withTables (IndexUnit.switchMembers part ms x.1).1 := by rw [← hframe]
      _ = iu.withTables (IndexUnit.switchMembers part ms x.1).1 := rfl

/-- A segment entry with the cells of displaced records dead, each with its pin (R43). -/
def SegEntry.displacing (e : SegEntry) (ds : List Displaced) : SegEntry :=
  { e with live := e.live - (ds.map (·.cells)).sum, dead := e.dead + (ds.map (·.cells)).sum, pins := e.pins + ds.length }

/-- The displaced records of a switch that lie in a segment, by its place in the table. -/
def displacedIn (k : Nat) (ds : List (Option Displaced)) : List Displaced :=
  (ds.filterMap (fun d => d)).filter (fun d => d.loc.seg - 2 == k)

/-- One switch at a segment entry: the cells of what it displaced there (R43). -/
theorem switchKey_seg {iu : IndexUnit} {e : Entry} {deletes : Bool} {k : Nat} {x : SegEntry} (h : iu.segs[k]? = some x) :
    (iu.switchKey e deletes).1.segs[k]? = some (x.displacing (displacedIn k [(iu.switchKey e deletes).2])) := by
  rw [switchKey_displaced]
  cases hf : iu.find e.part e.key with
  | none =>
    rw [switchKey_segs_none hf, h]
    rfl
  | some old =>
    rw [switchKey_segs_some hf, List.getElem?_modify, h]
    by_cases hk : old.loc.seg - 2 = k
    · simp [hk, displacedIn, SegEntry.displacing]
    · simp [hk, displacedIn, SegEntry.displacing]

theorem displacing_displacing (x : SegEntry) (k : Nat) (d : Option Displaced) (ds : List (Option Displaced)) :
    (x.displacing (displacedIn k [d])).displacing (displacedIn k ds) = x.displacing (displacedIn k (d :: ds)) := by
  have hsplit : displacedIn k (d :: ds) = displacedIn k [d] ++ displacedIn k ds := by
    unfold displacedIn
    rw [← List.filter_append, ← List.filterMap_append]
    rfl
  simp only [SegEntry.displacing, hsplit, List.map_append, List.sum_append, List.length_append, Nat.sub_sub, Nat.add_assoc]

theorem switchMembers_seg (ms : List Member) : ∀ {iu : IndexUnit} {k : Nat} {x : SegEntry}, iu.segs[k]? = some x →
    (IndexUnit.switchMembers part ms iu).1.segs[k]?
      = some (x.displacing (displacedIn k (IndexUnit.switchMembers part ms iu).2)) := by
  induction ms with
  | nil => exact fun h => h
  | cons m ms ih =>
    intro iu k x h
    refine (ih (switchKey_seg h)).trans ?_
    rw [displacing_displacing]
    rfl

/-- One change report for each member, in member list order (R44). -/
theorem sendReports_eq (f : Member → ChangeReport) (ms : List Member) : ∀ u : Units,
    ms.foldl (fun u m => sendReport (f m) u) u = { u with nu := { u.nu with reports := u.nu.reports ++ ms.map f } } := by
  induction ms with
  | nil => intro u; simp
  | cons m ms ih =>
    intro u
    rw [List.foldl_cons, ih]
    simp [sendReport]

end Switched

/-! ## The COMMIT_SWITCH (R44, R66) -/

section CommitSwitch
variable {s : State} {part txn : Nat} {l : Location} {p : Port} {r : RecordJob} {st : WStep} {rec : List Location}

/-- The members switched, with what they displaced, at a COMMIT_SWITCH. -/
def commitSwitched (part : Nat) (p : Port) (u : Units) : IndexUnit × List (Option Displaced) :=
  IndexUnit.switchMembers part (u.slot p).members { u.iu with charges := IndexUnit.dropStaged p u.iu.charges }

/-- The units once a COMMIT_SWITCH is carried out: the index, a report for each member, and the slot past its commit point. -/
def Units.membersSwitched (u : Units) (part txn : Nat) (l : Location) (p : Port) : Units :=
  { (u.setIu { (commitSwitched part p u).1 with
        commitSet := (commitSwitched part p u).1.commitSet ++ [⟨txn, part, l⟩] }).setSlot p
      { u.slot p with committed := true } with
    nu := { u.nu with reports := u.nu.reports ++ (u.slot p).members.map fun m : Member => m.report part p } }

theorem writerCommitted_eq {u : Units} {ds : List (Option Displaced)} (hcur : u.rw.cur = some ⟨.record r, st, rec⟩)
    (hs : (u.slot r.port).state ≠ .none) : writerCommitted ds u
      = u.setRw { u.rw with
          cur := none, io := ⟨none, false⟩, queue := u.rw.queue ++ [.complete r.port r.part r.txn ds] } := by
  simp only [writerCommitted, hcur]
  refine (settle_of_slot ?_).trans ?_
  · exact hs
  · rfl

/-- The COMPLETE of the transaction is queued and the Writer free (R66). -/
theorem commitSwitchClaim_eq {u : Units} (hcur : u.rw.cur = some ⟨.record r, st, rec⟩) (hr : r.port = p)
    (hs : (u.slot p).state = .committing) : commitSwitchClaim part txn l p u
      = (u.membersSwitched part txn l p).setRw { u.rw with
          cur := none, io := ⟨none, false⟩,
          queue := u.rw.queue ++ [.complete p r.part r.txn (commitSwitched part p u).2] } := by
  subst hr
  have hclaim : commitSwitchClaim part txn l r.port u
      = writerCommitted (commitSwitched part r.port u).2 (u.membersSwitched part txn l r.port) := by
    unfold commitSwitchClaim
    simp only [sendReports_eq]
    rfl
  have hslot : ((u.membersSwitched part txn l r.port).slot r.port).state = .committing := by
    unfold Units.membersSwitched
    exact (congrArg Slot.state (Units.slot_setSlot_self ..)).trans hs
  rw [hclaim]
  exact writerCommitted_eq (u := u.membersSwitched part txn l r.port) hcur (by rw [hslot]; decide)

end CommitSwitch

end Sys2Proof.Machine
end


section
/-! SUPPORT. The jobs on a transaction's members (R67 to R69, R71): what a COMPLETE and an ABORT_CLEAN do next, from the steps of
the Writer's job, and a segment marked suspect on the way. -/

namespace Sys2Proof.Machine

/-! ## The Writer at a step of a job -/

/-- The units with the Writer at a step of a job, its locations recorded and its request given. -/
def Units.atJob (v : Units) (job : Job) (st : WStep) (rec : List Location) (io : Io) : Units :=
  v.setRw { v.rw with cur := some ⟨job, st, rec⟩, io := io }

/-- The program of the first byte of a record, as the Writer asks for it. -/
def markIo (l : Location) (b : Byte) : Io := ⟨some ⟨.writer, l.seg, .program l.cell (b :: List.replicate 15 0xFF)⟩, false⟩

section Steps
variable {v u : Units} {job : Job} {st st' : WStep} {rec : List Location} {io : Io} {l : Location} {i tries : Nat} {p : Port}

theorem atJob_of_cur (h : u.rw.cur = some ⟨job, st, rec⟩) : u.setRw { u.rw with io := io } = u.atJob job st rec io := by
  rw [Units.atJob, ← h]

theorem eq_atJob (h : u.rw.cur = some ⟨job, st, rec⟩) : u = u.atJob job st rec u.rw.io := by
  rw [Units.atJob, ← h]
  rfl

theorem kick_atJob : kick (v.atJob job st rec io) = v.atJob job st rec io := kick_busy (Option.some_ne_none _)

theorem goRetire_atJob {why : RetireWhy} {mark : Nat} : goRetire why l mark tries (v.atJob job st rec io)
    = v.atJob job (.retiring why l mark tries) rec (markIo l (retireMark mark)) := rfl

theorem goClaim_atJob {c : Claim} : goClaim st' c (v.atJob job st rec io) = present .writer c (v.atJob job st' rec io) :=
  rfl

theorem goMemberLive_atJob {again : Bool} : goMemberLive i l tries again (v.atJob job st rec io)
    = v.atJob job (.memberLive i l tries again) (recordAt i l rec) (markIo l 0x1F) := rfl

theorem goAborted_atJob : goAborted i l (v.atJob job st rec io)
    = v.atJob job (.retiring (.aborted i) l 0 1) (recordAt i l rec) (markIo l 0xEF) := rfl

theorem holdMoves_atJob {b : Bool} : holdMoves p b (v.atJob job st rec io)
    = (v.setSlot p { v.slot p with holdMoves := b }).atJob job st rec io := rfl

theorem sealMember_atJob : sealMember p i (v.atJob job st rec io) = (sealMember p i v).atJob job st rec io := rfl

/-- A program of the Writer has completed at a step of its job. -/
theorem programDelivered_writer {q : Request} {ok : Bool} (hq : q.who = .writer) (hio : u.rw.io = ⟨some q, true⟩)
    (hcur : u.rw.cur = some ⟨job, st, rec⟩) :
    programDelivered q ok u = kick (writerDone ok (u.atJob job st rec ⟨none, false⟩)) := by
  have hawaits : u.rw.io.awaits q = true := by rw [hio]; exact beq_self_eq_true _
  rw [programDelivered, hq]
  simp only [hawaits, if_true]
  exact congrArg (fun z => kick (writerDone ok z)) (atJob_of_cur hcur)

end Steps

/-! ## Locations that moved (R68, R69) -/

section Moved
variable {rec : List Location} {ms : List Member} {i : Nat} {m : Member} {l : Location}

theorem zip_getElem?_eq_some (hm : ms[i]? = some m) (hl : rec[i]? = some l) : (ms.zip rec)[i]? = some (m, l) :=
  List.getElem?_zip_eq_some.2 ⟨hm, hl⟩

theorem movedMember_eq_some (hm : ms[i]? = some m) (hl : rec[i]? = some l) (hne : m.loc ≠ l)
    (hmin : ∀ (k : Nat) (m' : Member) (l' : Location), k < i → ms[k]? = some m' → rec[k]? = some l' → m'.loc = l') :
    movedMember rec ms = some (i, m.loc) := by
  rw [movedMember, find?_zipIdx_eq_some (test := fun x : Member × Location => x.1.loc != x.2) (zip_getElem?_eq_some hm hl)
    (by simpa using hne) fun k x hk hx => ?_]
  · rfl
  · obtain ⟨hx1, hx2⟩ := List.getElem?_zip_eq_some.1 hx
    simpa using hmin k x.1 x.2 hk hx1 hx2

theorem movedMember_eq_none (h : ∀ (i : Nat) (m : Member) (l : Location), ms[i]? = some m → rec[i]? = some l → m.loc = l) :
    movedMember rec ms = none := by
  rw [movedMember, find?_zipIdx_eq_none (test := fun x : Member × Location => x.1.loc != x.2) fun x hx => ?_]
  · rfl
  · obtain ⟨i, hi⟩ := List.mem_iff_getElem?.1 hx
    obtain ⟨hx1, hx2⟩ := List.getElem?_zip_eq_some.1 hi
    simpa using h i x.1 x.2 hx1 hx2

theorem recordAt_set (hl : rec[i]? = some l) (k : Location) : recordAt i k rec = rec.set i k :=
  if_pos (List.getElem?_eq_some_iff.1 hl).1

theorem recordAt_length (k : Location) : recordAt rec.length k rec = rec ++ [k] := if_neg (Nat.lt_irrefl _)

end Moved

/-! ## COMPLETE (R67, R68) -/

namespace Complete

section
variable (p : Port) (part txn : Nat) (ds : List (Option Displaced)) (rec : List Location)

/-- The check of every member's location: the first that moved is programmed LIVE again, or the COMMIT record is retired where
the set names it, moves held meanwhile (R68). -/
def Checks (v w : Units) : Prop :=
  let held := v.setSlot p { v.slot p with holdMoves := true }
  (∀ (i : Nat) (m : Member) (l : Location), (v.slot p).members[i]? = some m → rec[i]? = some l → m.loc ≠ l →
    (∀ (k : Nat) (m' : Member) (l' : Location), k < i → (v.slot p).members[k]? = some m' → rec[k]? = some l' →
      m'.loc = l') →
    w = held.atJob (.complete p part txn ds) (.memberLive i m.loc 1 true) (rec.set i m.loc) (markIo m.loc 0x1F))
  ∧ ((∀ (i : Nat) (m : Member) (l : Location), (v.slot p).members[i]? = some m → rec[i]? = some l → m.loc = l) →
    ∀ e, v.iu.commitSet.find? (fun e => e.txn == txn) = some e →
      w = held.atJob (.complete p part txn ds) (.retiring .commitRecord e.loc 0 1) rec (markIo e.loc 0xEF))

/-- A COMPLETE takes a member, or checks them all behind the last (R67). -/
def Goes (i : Nat) (v w : Units) : Prop :=
  (∀ m : Member, (v.slot p).members[i]? = some m →
    w = v.atJob (.complete p part txn ds) (.memberLive i m.loc 1 false) (recordAt i m.loc rec) (markIo m.loc 0x1F))
  ∧ ((v.slot p).members.length ≤ i → Checks p part txn ds rec v w)

/-- The end of a member: a TOMBSTONE is sealed and retired, or reported where the retire before it was short (R67, R71). -/
def Buries (i : Nat) (retired : Bool) (v w : Units) : Prop := ∀ m : Member, (v.slot p).members[i]? = some m →
  (m.op = .write → Goes p part txn ds rec (i + 1) v w)
  ∧ (m.op = .delete → retired = true →
      w = (sealMember p i v).atJob (.complete p part txn ds) (.retiring (.tombOf i) m.loc 0 1) rec (markIo m.loc 0xEF))
  ∧ (m.op = .delete → retired = false → w = present .writer (.report (.dead m.loc 1))
      ((sealMember p i v).atJob (.complete p part txn ds) (.reporting (.tombOf i) m.loc) rec ⟨none, false⟩))

/-- The rest of a member skipped: what it displaced is unpinned (R71). -/
def Skips (i : Nat) (v w : Units) : Prop :=
  (∀ d : Displaced, ds[i]? = some (some d) → w = present .writer (.unpin d.loc.seg)
      (v.atJob (.complete p part txn ds) (.unpinning (.skipped i)) rec ⟨none, false⟩))
  ∧ ((ds[i]?).join = none → Goes p part txn ds rec (i + 1) v w)

end

section
variable {p : Port} {part txn : Nat} {ds : List (Option Displaced)} {rec : List Location} {v w : Units} {i : Nat}
  {st : WStep} {io : Io} {x : Option (Nat × Location)}

/-! Each leaves the Writer at work, so that it takes no job behind it. -/

theorem Checks.kick (h : Checks p part txn ds rec v w) : Checks p part txn ds rec v (kick w) :=
  ⟨fun i m l hm hl hne hmin => h.1 i m l hm hl hne hmin ▸ kick_atJob, fun hall e he => h.2 hall e he ▸ kick_atJob⟩

theorem Goes.kick (h : Goes p part txn ds rec i v w) : Goes p part txn ds rec i v (kick w) :=
  ⟨fun m hm => h.1 m hm ▸ kick_atJob, fun hi => (h.2 hi).kick⟩

theorem kick_present_atJob {job : Job} {c : Claim} :
    Machine.kick (present .writer c (v.atJob job st rec io)) = present .writer c (v.atJob job st rec io) :=
  kick_busy (Option.some_ne_none _)

theorem Buries.kick {retired : Bool} (h : Buries p part txn ds rec i retired v w) :
    Buries p part txn ds rec i retired v (kick w) := fun m hm =>
  have ⟨hwrite, hretired, hshort⟩ := h m hm
  ⟨fun hop => (hwrite hop).kick, fun hop hr => hretired hop hr ▸ kick_atJob,
    fun hop hr => hshort hop hr ▸ kick_present_atJob⟩

theorem Skips.kick (h : Skips p part txn ds rec i v w) : Skips p part txn ds rec i v (kick w) :=
  ⟨fun d hd => h.1 d hd ▸ kick_present_atJob, fun hn => (h.2 hn).kick⟩

/-! What the Writer's functions do. -/

theorem moved_held {job : Job} (h : (ms : List Member) → ms = (v.slot p).members → movedMember rec ms = x) :
    movedMember (recordedOf (v.atJob job st rec io)) ((holdMoves p true (v.atJob job st rec io)).slot p).members = x :=
  h _ (by cases p <;> rfl)

theorem checkPromoted_checks :
    Checks p part txn ds rec v (checkPromoted p txn (v.atJob (.complete p part txn ds) st rec io)) := by
  refine ⟨fun i m l hm hl hne hmin => ?_, fun hall e he => ?_⟩
  · have hmoved := moved_held (st := st) (io := io) (job := .complete p part txn ds) fun ms (hms : ms = (v.slot p).members) =>
      hms ▸ movedMember_eq_some hm hl hne hmin
    simp only [checkPromoted, hmoved]
    rw [holdMoves_atJob, goMemberLive_atJob, recordAt_set hl]
  · have hmoved := moved_held (st := st) (io := io) (job := .complete p part txn ds) fun ms (hms : ms = (v.slot p).members) =>
      hms ▸ movedMember_eq_none hall
    have hloc : (holdMoves p true (v.atJob (.complete p part txn ds) st rec io)).iu.commitLoc txn = some e.loc := by
      change (v.iu.commitSet.find? (fun e => e.txn == txn)).map (·.loc) = _
      rw [he]
      rfl
    simp only [checkPromoted, hmoved, retireCommit, hloc]
    rfl

theorem promoteFrom_goes :
    Goes p part txn ds rec i v (promoteFrom p txn i (v.atJob (.complete p part txn ds) st rec io)) := by
  refine ⟨fun m hm => promoteFrom_member (u := v.atJob (.complete p part txn ds) st rec io) rfl hm, fun hi => ?_⟩
  have hnone : memberAt p i (v.atJob (.complete p part txn ds) st rec io) = none := List.getElem?_eq_none hi
  simp only [promoteFrom, hnone]
  exact checkPromoted_checks

theorem buryTombstone_buries {retired : Bool} : Buries p part txn ds rec i retired v
    (buryTombstone p txn i retired (v.atJob (.complete p part txn ds) st rec ⟨none, false⟩)) := by
  intro m hm
  have hat : memberAt p i (v.atJob (.complete p part txn ds) st rec ⟨none, false⟩) = some m := hm
  simp only [buryTombstone, hat]
  refine ⟨fun hop => ?_, fun hop hr => ?_, fun hop hr => ?_⟩
  · rw [if_neg (by rw [hop]; decide)]
    exact promoteFrom_goes
  · rw [if_pos hop, if_pos hr, sealMember_atJob]
    exact goRetire_atJob
  · rw [if_pos hop, if_neg (by rw [hr]; decide), sealMember_atJob]
    exact goClaim_atJob

theorem skipMember_skips :
    Skips p part txn ds rec i v (skipMember p txn i ds (v.atJob (.complete p part txn ds) st rec ⟨none, false⟩)) := by
  refine ⟨fun d hd => ?_, fun hn => ?_⟩
  · have hjoin : (ds[i]?).join = some d := by rw [hd]; rfl
    simp only [skipMember, hjoin]
    exact goClaim_atJob
  · simp only [skipMember, hn]
    exact promoteFrom_goes

theorem retireOld_displaced {d : Displaced} (hd : ds[i]? = some (some d)) :
    retireOld p txn i ds (v.atJob (.complete p part txn ds) st rec io)
      = v.atJob (.complete p part txn ds) (.retiring (.oldOf i) d.loc 0 1) rec (markIo d.loc 0xEF) := by
  have hjoin : (ds[i]?).join = some d := by rw [hd]; rfl
  simp only [retireOld, hjoin]
  exact goRetire_atJob

theorem retireOld_none (hn : (ds[i]?).join = none) :
    retireOld p txn i ds (v.atJob (.complete p part txn ds) st rec io)
      = buryTombstone p txn i true (v.atJob (.complete p part txn ds) st rec io) := by
  simp only [retireOld, hn]

end

end Complete

end Sys2Proof.Machine
end


section
/-! SUPPORT. The rows of the jobs on a transaction's members (R67 to R69, R71): a status program done or short after 3, a write
head closed on the way, and an ABORT_CLEAN's members. -/

namespace Sys2Proof.Machine

/-! ## A suspect segment (R49, R72) -/

section Suspect
variable {u v : Units} {c : CurJob} {job : Job} {st : WStep} {rec : List Location} {io : Io} {seg : Nat}

/-- A segment marked suspect, with its notice where the mark is new (R49, R72). -/
def Units.suspected (u : Units) (src : Poster) (seg : Nat) (part key : Option Nat) : Units :=
  { u with
    iu := { u.iu with segs := u.iu.segs.modify (seg - 2) (fun x => { x with suspect := true }) }
    nu := { u.nu with posts := u.nu.posts ++ if (u.iu.seg seg).suspect = true then [] else
      [⟨src, .authority, { Notice.plain .integrity with
        part := part, key := key, seg := some seg, reason := some .suspect }⟩] } }

theorem writerSuspect_eq (h : u.rw.cur = some c) :
    writerSuspect seg u = u.suspected .writer seg (jobNames c u).1 (jobNames c u).2 := by
  have hcur : (markSuspect seg u).1.rw.cur = some c := h
  unfold writerSuspect Units.suspected
  cases hs : (u.iu.seg seg).suspect
  · have hnew : (markSuspect seg u).2 = true := by simp [markSuspect, hs]
    simp only [hnew, h]
    rfl
  · have hold : (markSuspect seg u).2 = false := by simp [markSuspect, hs]
    simp only [hold]
    rw [if_pos trivial, List.append_nil]
    rfl

/-- A mark kept by a change of its segment. -/
theorem suspect_modSeg {iu : IndexUnit} {f : SegEntry → SegEntry} (hf : ∀ e, (f e).suspect = e.suspect) :
    ((iu.modSeg seg f).seg seg).suspect = (iu.seg seg).suspect := by
  simp only [IndexUnit.seg, IndexUnit.modSeg, List.getD_eq_getElem?_getD, List.getElem?_modify_eq]
  cases iu.segs[seg - Config.firstData]? with
  | none => rfl
  | some e => exact hf e

/-- A segment suspect already is left as it is, with no notice (R49). -/
theorem suspected_old {src : Poster} {part key : Option Nat} (h : (u.iu.seg seg).suspect = true) :
    u.suspected src seg part key = u := by
  have hsegs : u.iu.segs.modify (seg - 2) (fun x => { x with suspect := true }) = u.iu.segs := by
    refine List.ext_getElem? fun k => ?_
    rw [List.getElem?_modify]
    by_cases hk : seg - 2 = k
    · subst hk
      have hseg : (u.iu.segs[seg - 2]?.getD SegEntry.absent).suspect = true := by
        rw [← List.getD_eq_getElem?_getD]
        exact h
      cases he : u.iu.segs[seg - 2]? with
      | none => rfl
      | some e =>
        rw [he] at hseg
        have hsame : { e with suspect := true } = e := by rw [← show e.suspect = true from hseg]
        simp [hsame]
    · simp [hk]
  unfold Units.suspected
  rw [hsegs, if_pos h, List.append_nil]

theorem writerSuspect_writeHead : (writerSuspect seg u).iu.writeHead = u.iu.writeHead := by
  unfold writerSuspect
  dsimp only
  split <;> rfl

theorem statusShort_open (h : u.iu.writeHead ≠ some seg) :
    statusShort st seg c u = statusDone false st c (writerSuspect seg u) :=
  if_neg (by rw [writerSuspect_writeHead]; exact h)

theorem statusShort_head (h : u.iu.writeHead = some seg) :
    statusShort st seg c u = goClaim (.shutClaim seg st) (.close seg .suspect) (writerSuspect seg u) :=
  if_pos (by rw [writerSuspect_writeHead]; exact h)

/-- The closing of a head that left its role suspect: FULL, whether or not the program fell short (R51). -/
theorem closedSuspect_eq {ok : Bool} (hcur : u.rw.cur = some c) (h : ok = true ∨ (u.iu.seg seg).suspect = true) :
    closedSuspect ok seg u
      = u.setIu { u.iu with segs := u.iu.segs.modify (seg - 2) (fun x => { x with state := .full }) } := by
  cases ok with
  | true => rfl
  | false =>
    have hs := h.resolve_left Bool.false_ne_true
    refine (writerSuspect_eq (u := u.setIu (u.iu.nowFull seg)) hcur).trans (suspected_old ?_)
    exact (suspect_modSeg (iu := u.iu) (f := fun e => { e with state := .full }) fun _ => rfl).trans hs

end Suspect

/-! ## COMPLETE (R67, R68, R71) -/

namespace Complete
variable {p : Port} {part txn : Nat} {ds : List (Option Displaced)} {rec : List Location} {u : Units} {i tries : Nat}
  {l : Location} {again : Bool}

/-- A LIVE program of a member is done: the check where it was asked for again, or the next step of the member. -/
theorem live_done : writerDone true (u.atJob (.complete p part txn ds) (.memberLive i l tries again) rec ⟨none, false⟩)
    = if again then checkPromoted p txn (u.atJob (.complete p part txn ds) (.memberLive i l tries again) rec ⟨none, false⟩)
      else retireOld p txn i ds (u.atJob (.complete p part txn ds) (.memberLive i l tries again) rec ⟨none, false⟩) := by
  cases again <;> rfl

theorem live_again (h : tries < 3) :
    writerDone false (u.atJob (.complete p part txn ds) (.memberLive i l tries again) rec ⟨none, false⟩)
      = u.atJob (.complete p part txn ds) (.memberLive i l (tries + 1) again) (recordAt i l rec) (markIo l 0x1F) :=
  if_pos h

/-- What a skipped member leads to, behind a LIVE program that stayed short (R71). -/
def shortNext (p : Port) (part txn : Nat) (ds : List (Option Displaced)) (rec : List Location) (i : Nat) (again : Bool)
    (st : WStep) (u : Units) : Units :=
  if again then checkPromoted p txn (u.atJob (.complete p part txn ds) st rec ⟨none, false⟩)
  else skipMember p txn i ds (u.atJob (.complete p part txn ds) st rec ⟨none, false⟩)

theorem statusDone_short {st : WStep} : statusDone false (.memberLive i l tries again)
    ⟨.complete p part txn ds, st, rec⟩ (u.atJob (.complete p part txn ds) st rec ⟨none, false⟩)
      = shortNext p part txn ds rec i again st u := by
  cases again <;> rfl

theorem shortNext_follows {st : WStep} {v : Units} :
    (again = true → Checks p part txn ds rec v (Machine.kick (shortNext p part txn ds rec i again st v)))
    ∧ (again = false → Skips p part txn ds rec i v (Machine.kick (shortNext p part txn ds rec i again st v))) := by
  constructor
  · rintro rfl
    exact Checks.kick checkPromoted_checks
  · rintro rfl
    exact Skips.kick skipMember_skips

/-- The units when the segment of a member is suspect (R71, log 23). -/
def memberSuspect (p : Port) (i seg : Nat) (u : Units) : Units :=
  u.suspected .writer seg (some (u.slot p).part) (((u.slot p).members[i]?).map (·.key))

theorem writerSuspect_live {seg : Nat} :
    writerSuspect seg (u.atJob (.complete p part txn ds) (.memberLive i l tries again) rec ⟨none, false⟩)
      = (memberSuspect p i seg u).atJob (.complete p part txn ds) (.memberLive i l tries again) rec ⟨none, false⟩ :=
  writerSuspect_eq (u := u.atJob (.complete p part txn ds) (.memberLive i l tries again) rec ⟨none, false⟩) rfl

theorem live_short (h : 3 ≤ tries) :
    writerDone false (u.atJob (.complete p part txn ds) (.memberLive i l tries again) rec ⟨none, false⟩)
      = statusShort (.memberLive i l tries again) l.seg ⟨.complete p part txn ds, .memberLive i l tries again, rec⟩
          (u.atJob (.complete p part txn ds) (.memberLive i l tries again) rec ⟨none, false⟩) := if_neg (Nat.not_lt.2 h)

theorem live_short_head (h : 3 ≤ tries) (hw : u.iu.writeHead = some l.seg) :
    writerDone false (u.atJob (.complete p part txn ds) (.memberLive i l tries again) rec ⟨none, false⟩)
      = present .writer (.close l.seg .suspect) ((memberSuspect p i l.seg u).atJob (.complete p part txn ds)
          (.shutClaim l.seg (.memberLive i l tries again)) rec ⟨none, false⟩) := by
  rw [live_short h, statusShort_head (u := u.atJob _ _ _ _) hw, writerSuspect_live, goClaim_atJob]

theorem live_short_open (h : 3 ≤ tries) (hw : u.iu.writeHead ≠ some l.seg) :
    writerDone false (u.atJob (.complete p part txn ds) (.memberLive i l tries again) rec ⟨none, false⟩)
      = shortNext p part txn ds rec i again (.memberLive i l tries again) (memberSuspect p i l.seg u) := by
  rw [live_short h, statusShort_open (u := u.atJob _ _ _ _) hw, writerSuspect_live]
  exact statusDone_short

/-- The closing of a write head is over: the job goes on where the suspect mark broke it off (R71, log 39). -/
theorem shut_done {seg t : Nat} {ok : Bool} (h : ok = true ∨ 3 ≤ tries ∧ (u.iu.seg seg).suspect = true) :
    writerDone ok (u.atJob (.complete p part txn ds) (.shutting seg tries (.memberLive i l t again)) rec ⟨none, false⟩)
      = shortNext p part txn ds rec i again (.shutting seg tries (.memberLive i l t again))
          (u.setIu { u.iu with segs := u.iu.segs.modify (seg - 2) (fun x => { x with state := .full }) }) := by
  have hclosed := closedSuspect_eq (ok := ok) (seg := seg)
    (u := u.atJob (.complete p part txn ds) (.shutting seg tries (.memberLive i l t again)) rec ⟨none, false⟩) rfl
    (h.imp_right And.right)
  have hdone : writerDone ok
      (u.atJob (.complete p part txn ds) (.shutting seg tries (.memberLive i l t again)) rec ⟨none, false⟩)
      = statusDone false (.memberLive i l t again)
          ⟨.complete p part txn ds, .shutting seg tries (.memberLive i l t again), rec⟩ (closedSuspect ok seg
          (u.atJob (.complete p part txn ds) (.shutting seg tries (.memberLive i l t again)) rec ⟨none, false⟩)) := by
    cases ok with
    | true => rfl
    | false => exact if_neg (Nat.not_lt.2 (h.resolve_left Bool.false_ne_true).1)
  rw [hdone, hclosed]
  exact statusDone_short (u := u.setIu { u.iu with segs := u.iu.segs.modify (seg - 2) (fun x => { x with state := .full }) })

end Complete

/-! ## ABORT_CLEAN (R69) -/

section Clean
variable {p : Port} {rec : List Location} {v u : Units} {st : WStep} {io : Io} {i k tries : Nat} {l : Location}

/-- An ABORT_CLEAN retires its next member, then each one that moved meanwhile, and ends with the RELEASE of them all (R69). -/
def Cleans (p : Port) (rec : List Location) (v w : Units) : Prop :=
  let held := v.setSlot p { v.slot p with holdMoves := true }
  (∀ m : Member, (v.slot p).members[rec.length]? = some m →
    w = v.atJob (.abortClean p) (.retiring (.aborted rec.length) m.loc 0 1) (rec ++ [m.loc]) (markIo m.loc 0xEF))
  ∧ (∀ (i : Nat) (m : Member) (l : Location), (v.slot p).members.length ≤ rec.length → (v.slot p).members[i]? = some m →
    rec[i]? = some l → m.loc ≠ l →
    (∀ (k : Nat) (m' : Member) (l' : Location), k < i → (v.slot p).members[k]? = some m' → rec[k]? = some l' →
      m'.loc = l') →
    w = held.atJob (.abortClean p) (.retiring (.aborted i) m.loc 0 1) (rec.set i m.loc) (markIo m.loc 0xEF))
  ∧ ((v.slot p).members.length ≤ rec.length →
    (∀ (i : Nat) (m : Member) (l : Location), (v.slot p).members[i]? = some m → rec[i]? = some l → m.loc = l) →
    w = kick (present (.txn p) (.release (.members p)) (held.setRw { v.rw with cur := none, io := ⟨none, false⟩ })))

theorem cleanNext_cleans (hs : (v.slot p).state = .aborting) :
    Cleans p rec v (kick (cleanNext p (v.atJob (.abortClean p) st rec io))) := by
  have hlast : (v.slot p).members.length ≤ rec.length →
      memberAt p (recordedOf (v.atJob (.abortClean p) st rec io)).length (v.atJob (.abortClean p) st rec io) = none :=
    fun h => List.getElem?_eq_none h
  refine ⟨fun m hm => ?_, fun i m l hle hm hl hne hmin => ?_, fun hle hall => ?_⟩
  · have hat : memberAt p (recordedOf (v.atJob (.abortClean p) st rec io)).length (v.atJob (.abortClean p) st rec io) = some m :=
      hm
    simp only [cleanNext, hat]
    rw [goAborted_atJob, kick_atJob]
    exact congrArg (v.atJob _ _ · _) (recordAt_length m.loc)
  · have hmoved := Complete.moved_held (st := st) (io := io) (job := .abortClean p)
      fun ms (hms : ms = (v.slot p).members) => hms ▸ movedMember_eq_some hm hl hne hmin
    simp only [cleanNext, hlast hle, hmoved]
    rw [holdMoves_atJob, goAborted_atJob, kick_atJob, recordAt_set hl]
  · have hmoved := Complete.moved_held (st := st) (io := io) (job := .abortClean p)
      fun ms (hms : ms = (v.slot p).members) => hms ▸ movedMember_eq_none hall
    simp only [cleanNext, hlast hle, hmoved]
    refine congrArg kick ((settle_of_slot ?_).trans rfl)
    have hslot : ((holdMoves p true (v.atJob (.abortClean p) st rec io)).slot p).state = .aborting := by
      rw [← hs]
      cases p <;> rfl
    exact fun hn => by cases hslot.symm.trans hn

/-- The last mark of a member's retire is done. -/
theorem clean_done : writerDone true (u.atJob (.abortClean p) (.retiring (.aborted i) l 3 tries) rec ⟨none, false⟩)
    = cleanNext p (u.atJob (.abortClean p) (.retiring (.aborted i) l 3 tries) rec ⟨none, false⟩) := rfl

/-- A member's retire is short after 3: the segment is suspect and the transaction's number retained with it (R71, R81). -/
theorem clean_short (h : 3 ≤ tries) (hw : u.iu.writeHead ≠ some l.seg) :
    writerDone false (u.atJob (.abortClean p) (.retiring (.aborted i) l k tries) rec ⟨none, false⟩)
      = cleanNext p ((retainNumber (u.slot p).number l.seg (Complete.memberSuspect p i l.seg u)).atJob (.abortClean p)
          (.retiring (.aborted i) l k tries) rec ⟨none, false⟩) := by
  have hshort : writerDone false (u.atJob (.abortClean p) (.retiring (.aborted i) l k tries) rec ⟨none, false⟩)
      = statusShort (.retiring (.aborted i) l k tries) l.seg ⟨.abortClean p, .retiring (.aborted i) l k tries, rec⟩
          (u.atJob (.abortClean p) (.retiring (.aborted i) l k tries) rec ⟨none, false⟩) := if_neg (Nat.not_lt.2 h)
  rw [hshort, statusShort_open (u := u.atJob _ _ _ _) hw,
    writerSuspect_eq (u := u.atJob (.abortClean p) (.retiring (.aborted i) l k tries) rec ⟨none, false⟩) rfl]
  rfl

end Clean

/-- A program presented for a member that moved ends the hold of its moves (R68, R69). -/
theorem writerPresented_moved {p : Port} {u : Units} {j : Job} {st : WStep} {rec : List Location}
    (hcur : u.rw.cur = some ⟨j, st, rec⟩)
    (h : (∃ part txn ds i l tries, j = .complete p part txn ds ∧ st = .memberLive i l tries true)
      ∨ (∃ i l k tries, j = .abortClean p ∧ st = .retiring (.aborted i) l k tries)) :
    writerPresented u = holdMoves p false u := by
  obtain ⟨part, txn, ds, i, l, tries, rfl, rfl⟩ | ⟨i, l, k, tries, rfl, rfl⟩ := h
  · simp only [writerPresented, hcur]
  · simp only [writerPresented, hcur]

end Sys2Proof.Machine
end


section
/-! SUPPORT. The members of a transaction from their report to their end (R44, R45, R65 to R69, R71, R87). -/

namespace Sys2Proof.Machine

/-- An index unit that differs in its tables, its commit set set apart. -/
theorem eq_of_withTables {x y : IndexUnit} {cs : List CommitEntry} (h : x = y.withTables x) :
    { x with commitSet := cs } = { y with entries := x.entries, charges := x.charges, commitSet := cs, segs := x.segs } := by
  rw [h]
  rfl

section Rows
variable {s : State}

theorem memberReport_row (h : s.running = true) : exec .memberReport s = .next (s.withUnits (kick (reportMember s.units))) :=
  onUnitsKick_running (f := reportMember) h

section Ended
variable {u : Units} {r : RecordJob} {x : Slot}

/-- A stage ends in the slot given (R87). -/
theorem recordEnded_setSlot_opened {c : InHand} (hr : r.role = .stage) (hst : x.state = .opened)
    (hc : (u.port r.port).inHand = some c) (hd : (u.port r.port).draining = false) : recordEnded r (u.setSlot r.port x)
      = ((u.setSlot r.port { x with stage := none }).withOutcome r.port ⟨{ Results.zero with
          code := 0x01, gen := BitVec.ofNat 32 (r.gen.getD 0) }, []⟩).setRw u.rw.free := by
  have hslot := Units.slot_setSlot_self u r.port x
  rw [recordEnded_stage_opened (u := u.setSlot r.port x) (c := c) hr (by rw [hslot]; exact hst) hc hd, hslot,
    Units.setSlot_setSlot]
  rfl

theorem recordEnded_setSlot_aborting (hr : r.role = .stage) (hst : x.state = .aborting) :
    recordEnded r (u.setSlot r.port x) = (u.setSlot r.port { x with stage := none }).setRw u.rw.free := by
  have hslot := Units.slot_setSlot_self u r.port x
  rw [recordEnded_stage_aborting (u := u.setSlot r.port x) hr (by rw [hslot]; exact hst), hslot, Units.setSlot_setSlot]
  rfl

end Ended

section Unpinned
variable {u : Units} {p : Port} {part txn i : Nat} {ds : List (Option Displaced)} {rec : List Location}

theorem writerUnpinned_member {ok : Bool} (h : u.rw.cur = some ⟨.complete p part txn ds, .unpinning (.member i ok), rec⟩) :
    writerUnpinned u = buryTombstone p txn i ok u := by
  simp only [writerUnpinned, h]

theorem writerUnpinned_skipped (h : u.rw.cur = some ⟨.complete p part txn ds, .unpinning (.skipped i), rec⟩) :
    writerUnpinned u = promoteFrom p txn (i + 1) u := by
  simp only [writerUnpinned, h]

end Unpinned

end Rows

/-- Settles O46: each part by the functions of the Writer's job at the step it stands at. -/
theorem membersAreListedAndSwitched : Obligations.MembersAreListedAndSwitched := by
  refine ⟨fun r l rec s hrun hcur hr => ⟨fun o ho => ?replaced, fun c hm hst hc => ?listed, fun hm hst => ?aborting⟩,
    fun p part txn l r st rec s h hcur hr hst => ?committed, fun p part txn ds rec => ⟨fun rest u hrec hc hq => ?started,
      fun i l tries again q u hq hio hcur => ⟨?checked, ?old, ?buried, ?tried, ?headClosed, ?short⟩,
      fun i seg tries t l again ok q u hq hio hcur hok => ?shut, fun i s hio => ⟨?unpinned, ?reported⟩⟩,
    fun p rec => ⟨fun rest u hrec hc hq hst => ?cleanStarted,
      fun i l k tries q u hq hio hcur hst => ⟨fun hk => ?cleaned, fun ht hw => ?cleanShort⟩⟩,
    fun p q j st rec s hrun hacc hq hio hcur hj => ?presented⟩
  case replaced =>
    exact row_at_work (memberReport_row hrun) (reportMember_replaces hcur ho) (Option.some_ne_none _)
  case listed =>
    exact (memberReport_row hrun).trans (congrArg (fun z => Host.Outcome.next (s.withUnits (kick z)))
      ((reportMember_new hcur hm).trans (recordEnded_setSlot_opened hr hst hc.1 hc.2)))
  case aborting =>
    exact (memberReport_row hrun).trans (congrArg (fun z => Host.Outcome.next (s.withUnits (kick z)))
      ((reportMember_new hcur hm).trans (recordEnded_setSlot_aborting hr hst)))
  case committed =>
    intro ms distinct
    refine ⟨((popClaim s.units).membersSwitched part txn l p).setRw _, (commitSwitched part p (popClaim s.units)).2,
      (commitSwitch_row h).trans (congrArg (fun z => Host.Outcome.next (s.withUnits (kick z)))
        (commitSwitchClaim_eq (u := popClaim s.units) hcur hr hst)), fun hd part' key => find_switchMembers _ _ hd _ _ _,
      switchMembers_length _ _ _, fun hd => switchMembers_displaced _ _ hd _, switchMembers_charges _ _ _,
      congrArg (· ++ _) (switchMembers_commitSet _ _ _), fun k e he => switchMembers_seg ms he,
      eq_of_withTables (switchMembers_frame ms _), rfl,
      Units.slot_setSlot_self .., fun q hne =>
        Units.slot_setSlot_of_ne s.units (Ne.symm hne) { s.units.slot p with committed := true }, rfl, rfl, rfl, rfl⟩
  case started =>
    subst hrec
    rw [kick_next hc hq]
    exact Complete.Goes.kick Complete.promoteFrom_goes
  case checked =>
    rintro rfl
    rw [programDelivered_writer hq hio hcur, Complete.live_done, if_pos rfl]
    exact Complete.Checks.kick Complete.checkPromoted_checks
  case old =>
    rintro d rfl hd
    rw [programDelivered_writer hq hio hcur, Complete.live_done, if_neg Bool.false_ne_true, Complete.retireOld_displaced hd,
      kick_atJob]
    rfl
  case buried =>
    rintro rfl hn
    rw [programDelivered_writer hq hio hcur, Complete.live_done, if_neg Bool.false_ne_true, Complete.retireOld_none hn]
    exact Complete.Buries.kick Complete.buryTombstone_buries
  case tried =>
    intro ht
    rw [programDelivered_writer hq hio hcur, Complete.live_again ht, kick_atJob]
    rfl
  case headClosed =>
    intro ht hw
    rw [programDelivered_writer hq hio hcur, Complete.live_short_head ht hw, Complete.kick_present_atJob]
    rfl
  case short =>
    intro ht hw
    rw [programDelivered_writer hq hio hcur, Complete.live_short_open ht hw]
    exact Complete.shortNext_follows
  case shut =>
    intro v
    rw [programDelivered_writer hq hio hcur, Complete.shut_done hok]
    exact Complete.shortNext_follows
  case unpinned =>
    intro seg whose h hcur v
    have hv : v = v.atJob (.complete p part txn ds) (.unpinning whose) rec ⟨none, false⟩ := hio ▸ eq_atJob (u := v) hcur
    refine ⟨fun ok hw => ?_, fun hw => ?_⟩
    · subst hw
      refine ⟨_, (unpin_row h).trans (congrArg (fun z => Host.Outcome.next (s.withUnits (kick z)))
        (writerUnpinned_member (u := v) hcur)), Complete.Buries.kick ?_⟩
      rw [hv]
      exact Complete.buryTombstone_buries
    · subst hw
      refine ⟨_, (unpin_row h).trans (congrArg (fun z => Host.Outcome.next (s.withUnits (kick z)))
        (writerUnpinned_skipped (u := v) hcur)), Complete.Goes.kick ?_⟩
      rw [hv]
      exact Complete.promoteFrom_goes
  case reported =>
    intro l cells k h hcur v
    have hv : v = v.atJob (.complete p part txn ds) (.reporting (.tombOf i) k) rec ⟨none, false⟩ :=
      hio ▸ eq_atJob (u := v) hcur
    refine ⟨_, (report_dead h).trans (congrArg (fun z => Host.Outcome.next (s.withUnits (kick z)))
      (writerReported_tombOf (u := v) hcur)), Complete.Goes.kick ?_⟩
    rw [hv]
    exact Complete.promoteFrom_goes
  case cleanStarted =>
    subst hrec
    rw [kick_next hc hq]
    exact cleanNext_cleans hst
  case cleaned =>
    subst hk
    rw [programDelivered_writer hq hio hcur, clean_done]
    exact cleanNext_cleans hst
  case cleanShort =>
    rw [programDelivered_writer hq hio hcur, clean_short ht hw]
    exact cleanNext_cleans hst
  case presented =>
    refine ⟨_, execArrayRequest_accepted hrun hacc, rfl, ?_⟩
    refine (notePresented_writer hq hio).trans ?_
    exact writerPresented_moved (u := s.units.setRw _) hcur hj

end Sys2Proof.Machine
end


section
/-! SUPPORT. The copies of compaction (R46, R68, R89, R109 to R112): their hand-over by a COPY_SWITCH or a member move, and the
programs that build or retire them. -/

namespace Sys2Proof.Machine

/-! ## COPY_SWITCH (R46) -/

namespace IndexUnit
variable {iu : IndexUnit} {part key txn cells : Nat} {orig copy : Location}

theorem takeCopySwitch_entry {e : Entry} (he : iu.find part key = some e) (hl : e.loc = orig) :
    iu.takeCopySwitch (.entry part key) orig copy cells
      = (({ iu with entries := moveEntry part key copy iu.entries }).kill orig cells, true) := by
  simp [takeCopySwitch, he, hl]

theorem takeCopySwitch_entry_stale (h : ∀ e, iu.find part key = some e → e.loc ≠ orig) :
    iu.takeCopySwitch (.entry part key) orig copy cells = (iu.kill copy cells, false) := by
  have hno : ¬ (iu.find part key).any (fun e => e.loc == orig) = true := by
    simpa [Option.any_eq_true] using h
  simp only [takeCopySwitch, if_neg hno]

theorem takeCopySwitch_commit (h : ∃ x ∈ iu.commitSet, x.txn = txn ∧ x.loc = orig) :
    iu.takeCopySwitch (.commitMember txn) orig copy cells
      = (({ iu with commitSet := moveCommit txn copy iu.commitSet }).kill orig cells, true) := by
  have hyes : iu.commitSet.any (fun c => c.txn == txn && c.loc == orig) = true := by simpa using h
  simp only [takeCopySwitch, if_pos hyes]

theorem takeCopySwitch_commit_stale (h : ∀ x ∈ iu.commitSet, x.txn = txn → x.loc ≠ orig) :
    iu.takeCopySwitch (.commitMember txn) orig copy cells = (iu.kill copy cells, false) := by
  have hno : ¬ iu.commitSet.any (fun c => c.txn == txn && c.loc == orig) = true := by simpa using h
  simp only [takeCopySwitch, if_neg hno]

end IndexUnit

section CopySwitch
variable {u : Units} {k : Copy} {thenMove : Bool} (hk : u.ce.copy = some k) (hs : u.ce.step = .copySwitching thenMove)
include hk hs

theorem copySwitched_moved : copySwitched true u
    = if thenMove then engineStep (.moving .afterSwitch) u else recordDone k.hdr.cells u := by
  simp only [copySwitched, hk, hs, Bool.not_true, Bool.false_eq_true, if_false]

theorem copySwitched_stale : copySwitched false u = copyRetire .stale 0 1 k u := by
  simp only [copySwitched, hk, hs, Bool.not_false, if_true]

end CopySwitch

theorem copySwitch_taken {s : State} {what : CopyFor} {orig copy : Location} {cells : Nat} {iu : IndexUnit} {moved : Bool}
    (h : s.oldestClaim .engine (.copySwitch what orig copy cells))
    (ht : (popClaim s.units).iu.takeCopySwitch what orig copy cells = (iu, moved)) :
    exec .copySwitch s = .next (s.withUnits (copySwitched moved ((popClaim s.units).setIu iu))) :=
  (copySwitch_row h).trans (by rw [copySwitchClaim, ht])

/-! ## A member move (R68, R89, R90) -/

section Move
variable {u : Units} {txn key : Nat} {orig copy : Location} {q : Port} {m : Member}

/-- A transaction of the number takes no member move for now (R68). -/
def Units.holdsMoves (u : Units) (txn : Nat) : Prop :=
  ∃ q, (u.slot q).holding = true ∧ (u.slot q).number = txn ∧ (u.slot q).holdMoves = true

/-- A PIN is out for the command in hand of a port (R90). -/
def Units.pinning (u : Units) (q : Port) : Prop := ∃ c r, (u.port q).inHand = some c ∧ c.work = .pinning r

theorem movesHeld_iff : movesHeld txn u = true ↔ u.holdsMoves txn := by
  simp only [movesHeld, List.any_eq_true, Bool.and_eq_true, beq_iff_eq, Units.holdsMoves, and_assoc]
  exact ⟨fun ⟨q, _, h⟩ => ⟨q, h⟩, fun ⟨q, h⟩ => ⟨q, mem_allPorts q, h⟩⟩

theorem pinOut_iff : pinOut q u = true ↔ u.pinning q := by
  unfold pinOut workOf Units.pinning
  cases (u.port q).inHand with
  | none => simp
  | some c => cases hw : c.work <;> simp [hw]

theorem takeMove_held (h : u.holdsMoves txn) : takeMove txn key orig copy u = (u, .waits) := if_pos (movesHeld_iff.2 h)

variable (h : ¬ u.holdsMoves txn)
include h

theorem takeMove_nobody (hno : ∀ q, ¬ u.holdsMember txn key orig q) : takeMove txn key orig copy u = (u, .stale) := by
  have hnone : memberHolder txn key orig u = none := by
    cases hf : memberHolder txn key orig u with
    | none => rfl
    | some q => exact absurd (memberHolder_holds hf) (hno q)
  rw [takeMove, if_neg (mt movesHeld_iff.1 h), hnone]

variable (hq : u.holdsMember txn key orig q) (hone : ∀ g, u.holdsMember txn key orig g → g = q)
include hq hone

theorem takeMove_pinned (hp : u.pinning q) : takeMove txn key orig copy u = (u, .waits) := by
  rw [takeMove, if_neg (mt movesHeld_iff.1 h), memberHolder_eq_some hq hone]
  exact if_pos (pinOut_iff.2 hp)

variable (hp : ¬ u.pinning q) (hm : (u.slot q).members.find? (fun m => m.key == key) = some m)
include hp hm

theorem takeMove_sealed (hs : m.isSealed = true) : takeMove txn key orig copy u = (u, .stale) := by
  have hsealed : ((u.slot q).member key).any (·.isSealed) = true := by rw [Slot.member, hm]; exact hs
  rw [takeMove, if_neg (mt movesHeld_iff.1 h), memberHolder_eq_some hq hone]
  exact (if_neg (mt pinOut_iff.1 hp)).trans (if_pos hsealed)

theorem takeMove_moved (hs : m.isSealed = false) : takeMove txn key orig copy u
    = (u.setSlot q { u.slot q with
        members := (u.slot q).members.map fun m => if m.key = key then { m with loc := copy } else m },
       .moved (u.slot q).committed) := by
  have hopen : ¬ ((u.slot q).member key).any (·.isSealed) = true := by
    rw [Slot.member, hm, Option.any_some, hs]
    exact Bool.false_ne_true
  rw [takeMove, if_neg (mt movesHeld_iff.1 h), memberHolder_eq_some hq hone]
  exact (if_neg (mt pinOut_iff.1 hp)).trans (if_neg hopen)

end Move

section Moving
variable {u v : Units} {k : Copy} {why : CMove} (hk : u.ce.copy = some k) (hs : u.ce.step = .moving why)
include hk hs

theorem moveMember_waits (ht : takeMove k.hdr.txn k.hdr.key k.orig k.loc u = (v, .waits)) : moveMember u = u := by
  simp only [moveMember, hk, hs, ht]

/-- Behind a switch of the entry the copy is done, whatever the member list answers (R110). -/
theorem moveMember_afterSwitch {a : MoveAnswer} (ht : takeMove k.hdr.txn k.hdr.key k.orig k.loc u = (v, a)) (ha : a ≠ .waits)
    (hw : why = .afterSwitch) : moveMember u = recordDone k.hdr.cells v := by
  subst hw
  simp only [moveMember, hk, hs, ht]

theorem moveMember_stale (ht : takeMove k.hdr.txn k.hdr.key k.orig k.loc u = (v, .stale)) (hw : why ≠ .afterSwitch) :
    moveMember u = v.setCe { v.ce with
      step := .retiring .staleReport 0 1,
      io := ⟨some ⟨.engine, k.loc.seg, .program k.loc.cell (0xEF :: List.replicate 15 0xFF)⟩, false⟩ } := by
  cases why with
  | afterSwitch => exact absurd rfl hw
  | written => simp only [moveMember, hk, hs, ht]; rfl
  | tombstone => simp only [moveMember, hk, hs, ht]; rfl

/-- After the commit point a DATA copy is handed to the index (R110). -/
theorem moveMember_committed (ht : takeMove k.hdr.txn k.hdr.key k.orig k.loc u = (v, .moved true)) (hw : why = .written)
    (hd : k.hdr.recordKind = .data) : moveMember u = present .engine
      (.copySwitch (.entry k.hdr.part k.hdr.key) k.orig k.loc k.hdr.cells)
      (v.setCe { v.ce with step := .copySwitching false }) := by
  subst hw
  simp only [moveMember, hk, hs, ht, hd, if_true]
  rfl

theorem moveMember_reported {committed : Bool} (ht : takeMove k.hdr.txn k.hdr.key k.orig k.loc u = (v, .moved committed))
    (hw : why = .tombstone ∨ why = .written ∧ (committed = false ∨ k.hdr.recordKind ≠ .data)) : moveMember u
      = present .engine (.report (.dead k.orig k.hdr.cells)) (v.setCe { v.ce with step := .reporting .original }) := by
  rcases hw with rfl | ⟨rfl, rfl | hd⟩
  · cases committed <;> (simp only [moveMember, hk, hs, ht]; rfl)
  · simp only [moveMember, hk, hs, ht]
    rfl
  · cases committed
    · simp only [moveMember, hk, hs, ht]
      rfl
    · simp only [moveMember, hk, hs, ht, if_neg hd]
      rfl

end Moving

section MoveRow
variable {s : State} {v : Units} {k : Copy} {why : CMove}

theorem memberMove_row (hrun : s.running = true) (h : moveMember s.units = v) : exec .memberMove s = .next (s.withUnits v) :=
  (onUnits_running (f := moveMember) hrun).trans (congrArg (fun z => Host.Outcome.next (s.withUnits z)) h)

theorem memberMove_waits (hrun : s.running = true) (hk : s.units.ce.copy = some k) (hs : s.units.ce.step = .moving why)
    (ht : takeMove k.hdr.txn k.hdr.key k.orig k.loc s.units = (v, .waits)) : exec .memberMove s = .next s :=
  memberMove_row hrun (moveMember_waits hk hs ht)

theorem memberMove_stale (hrun : s.running = true) (hk : s.units.ce.copy = some k) (hs : s.units.ce.step = .moving why)
    (ht : takeMove k.hdr.txn k.hdr.key k.orig k.loc s.units = (s.units, .stale)) :
    (why = .afterSwitch → exec .memberMove s = .next (s.withUnits (recordDone k.hdr.cells s.units)))
    ∧ (why ≠ .afterSwitch → exec .memberMove s = .next (s.withUnits (s.units.setCe { s.units.ce with
        step := .retiring .staleReport 0 1,
        io := ⟨some ⟨.engine, k.loc.seg, .program k.loc.cell (0xEF :: List.replicate 15 0xFF)⟩, false⟩ }))) :=
  ⟨fun hw => memberMove_row hrun (moveMember_afterSwitch hk hs ht (by intro hn; cases hn) hw),
    fun hw => memberMove_row hrun (moveMember_stale hk hs ht hw)⟩

end MoveRow

/-! ## The programs of a copy (R109, R111, R112) -/

section Programs
variable {u : Units} {k : Copy} {ok : Bool} {q : Request}

/-- The engine's request answered: it wants none until it asks again. -/
def Units.engineIdle (u : Units) : Units := u.setCe { u.ce with io := ⟨none, false⟩ }

theorem programDelivered_engine (hq : q.who = .engine) (hio : u.ce.io = ⟨some q, true⟩) :
    programDelivered q ok u = engineProgramDone ok u.engineIdle := by
  have hawaits : u.ce.io.awaits q = true := by rw [hio]; exact beq_self_eq_true _
  rw [programDelivered, hq]
  exact if_pos hawaits

/-- A step that builds a copy (R109). -/
def CStep.builds (st : CStep) : Prop := st = .header ∨ (∃ i, st = .payload i) ∨ st = .written ∨ st = .live

theorem engineProgramDone_build (hk : u.ce.copy = some k) (hs : u.ce.step.builds) :
    engineProgramDone ok u = copyBuildDone ok u.ce.step k u := by
  obtain h | ⟨i, h⟩ | h | h := hs <;> simp only [engineProgramDone, hk, h]

/-- A program that builds a copy has completed at its step (R109, R112). -/
theorem programDelivered_build {st : CStep} (hq : q.who = .engine) (hio : u.ce.io = ⟨some q, true⟩) (hk : u.ce.copy = some k)
    (hs : u.ce.step = st) (hst : st.builds) : programDelivered q ok u = copyBuildDone ok st k u.engineIdle := by
  subst hs
  exact (programDelivered_engine hq hio).trans (engineProgramDone_build (u := u.engineIdle) hk hst)

theorem copyPayload_succ (k : Copy) (i : Nat) (u : Units) : copyPayload k (i + 1) u
    = engineAsk (.payload (i + 1)) k.loc.seg (.program (k.loc.cell + (i + 2)) (slice k.bytes (16 * (i + 2)) 16)) u := by
  have hcell : k.loc.cell + 1 + (i + 1) = k.loc.cell + (i + 2) := by omega
  rw [copyPayload, hcell]

/-- The hand-over by what the copy's decision rested on (R110). -/
theorem handOver_eq (k : Copy) (u : Units) : handOver k u = match k.basis with
    | .entry => engineClaim (.copySwitching (decide (k.hdr.txn ≠ 0)))
        (.copySwitch (.entry k.hdr.part k.hdr.key) k.orig k.loc k.hdr.cells) u
    | .memberWritten => engineStep (.moving .written) u
    | .memberTombstone => engineStep (.moving .tombstone) u
    | .commitSet => engineClaim (.copySwitching false) (.copySwitch (.commitMember k.hdr.txn) k.orig k.loc k.hdr.cells) u := by
  have htxn : (k.hdr.txn != 0) = decide (k.hdr.txn ≠ 0) := by rw [Bool.eq_iff_iff, bne_iff_ne, decide_eq_true_eq]
  unfold handOver
  cases k.basis <;> simp only [htxn]

theorem engineProgramDone_retire {why : CRetire} {i tries : Nat} (hk : u.ce.copy = some k)
    (hs : u.ce.step = .retiring why i tries) : engineProgramDone ok u = copyRetireDone ok why i tries k u := by
  simp only [engineProgramDone, hk, hs]

section Retired
variable {why : CRetire} {i tries : Nat}

theorem copyRetireDone_next (h : i < 3) : copyRetireDone true why i tries k u = copyRetire why (i + 1) 1 k u := if_pos h

theorem copyRetireDone_last (h : i = 3) : copyRetireDone true why i tries k u = copyRetired why k u := by
  subst h
  rfl

/-- A failed copy is retired once (R112). -/
theorem copyRetireDone_once (h : why = .failed) : copyRetireDone false why i tries k u = copyRetired why k u := if_pos h

theorem copyRetireDone_again (h : why ≠ .failed) (ht : tries < 3) :
    copyRetireDone false why i tries k u = copyRetire why i (tries + 1) k u := (if_neg h).trans (if_pos ht)

theorem copyRetireDone_short (h : why ≠ .failed) (ht : 3 ≤ tries) :
    copyRetireDone false why i tries k u = copyRetired why k (engineSuspect k.loc.seg u) :=
  (if_neg h).trans (if_neg (Nat.not_lt.2 ht))

end Retired

theorem engineSuspect_eq {seg : Nat} : engineSuspect seg u = u.suspected .engine seg (copyNames u).1 (copyNames u).2 := by
  unfold engineSuspect Units.suspected
  cases hs : (u.iu.seg seg).suspect
  · have hnew : (markSuspect seg u).2 = true := by simp [markSuspect, hs]
    simp only [hnew, if_true]
    rfl
  · have hold : (markSuspect seg u).2 = false := by simp [markSuspect, hs]
    simp only [hold]
    rw [if_neg Bool.false_ne_true, if_pos trivial, List.append_nil]
    rfl

theorem copyNames_eq (hk : u.ce.copy = some k) :
    copyNames u = (some k.hdr.part, if k.hdr.recordKind = .commit then none else some k.hdr.key) := by
  simp only [copyNames, hk]

/-- The marks of a retire (R13). -/
theorem retireMark_eq {i : Nat} (h : i ≤ 3) : ([0xEF, 0xDF, 0xBF, 0x7F] : List Byte).getD i 0 = retireMark i := by
  match i, h with
  | 0, _ => rfl
  | 1, _ => rfl
  | 2, _ => rfl
  | 3, _ => rfl

end Programs

/-- Settles O47: the answers to a COPY_SWITCH and to a member move, then the programs of a copy step by step. -/
theorem copiesAreHandedOver : Obligations.CopiesAreHandedOver := by
  refine ⟨fun k thenMove what orig copy cells s h hk hs => ⟨?entry, ?entryStale, ?commit, ?commitStale⟩,
    fun k why s hrun hk hs => ⟨?held, ?nobody, fun q hq hone hnot => ⟨?pinned, fun m hm hp =>
      ⟨?sealed, ?afterSwitch, ?committed, ?reported⟩⟩⟩,
    fun k q u hq hio hk => ⟨?header, ?payload, ?written, ?live, ?failed, ?retire⟩⟩
  case entry =>
    rintro part key e rfl he hl
    refine ⟨{ (popClaim s.units).iu with entries := IndexUnit.moveEntry part key copy s.units.iu.entries },
      (copySwitch_taken h (IndexUnit.takeCopySwitch_entry (iu := (popClaim s.units).iu) he hl)).trans
        (congrArg (fun z => Host.Outcome.next (s.withUnits z)) (copySwitched_moved (u := (popClaim s.units).setIu _) hk hs)),
      fun part' key' => ?_, rfl, rfl, rfl⟩
    refine (find_moveEntry part key copy part' key' s.units.iu.entries).trans ?_
    by_cases hkey : part' = part ∧ key' = key
    · obtain ⟨rfl, rfl⟩ := hkey
      rw [if_pos ⟨rfl, rfl⟩, if_pos ⟨rfl, rfl⟩]
      exact congrArg _ he
    · rw [if_neg hkey, if_neg hkey]
      rfl
  case entryStale =>
    rintro part key rfl hne
    exact (copySwitch_taken h (IndexUnit.takeCopySwitch_entry_stale (iu := (popClaim s.units).iu) hne)).trans
      (congrArg (fun z => Host.Outcome.next (s.withUnits z)) (copySwitched_stale (u := (popClaim s.units).setIu _) hk hs))
  case commit =>
    rintro txn rfl hx
    exact (copySwitch_taken h (IndexUnit.takeCopySwitch_commit (iu := (popClaim s.units).iu) hx)).trans
      (congrArg (fun z => Host.Outcome.next (s.withUnits z)) (copySwitched_moved (u := (popClaim s.units).setIu _) hk hs))
  case commitStale =>
    rintro txn rfl hne
    exact (copySwitch_taken h (IndexUnit.takeCopySwitch_commit_stale (iu := (popClaim s.units).iu) hne)).trans
      (congrArg (fun z => Host.Outcome.next (s.withUnits z)) (copySwitched_stale (u := (popClaim s.units).setIu _) hk hs))
  case held => exact fun hh => memberMove_waits hrun hk hs (takeMove_held hh)
  case nobody => exact fun hno hnone => memberMove_stale hrun hk hs (takeMove_nobody hno hnone)
  case pinned => exact fun hp => memberMove_waits hrun hk hs (takeMove_pinned hnot hq hone hp)
  case sealed => exact fun hsealed => memberMove_stale hrun hk hs (takeMove_sealed hnot hq hone hp hm hsealed)
  case afterSwitch =>
    exact fun hsealed hw => memberMove_row hrun (moveMember_afterSwitch hk hs (takeMove_moved hnot hq hone hp hm hsealed)
      (by intro hn; cases hn) hw)
  case committed =>
    intro hsealed hw hc hd
    have ht := takeMove_moved (copy := k.loc) hnot hq hone hp hm hsealed
    rw [hc] at ht
    exact memberMove_row hrun (moveMember_committed hk hs ht hw hd)
  case reported =>
    exact fun hsealed hw => memberMove_row hrun (moveMember_reported hk hs (takeMove_moved hnot hq hone hp hm hsealed) hw)
  case header =>
    intro hs
    exact (programDelivered_build hq hio hk hs (.inl rfl)).trans rfl
  case payload =>
    intro i hs
    refine (programDelivered_build hq hio hk hs (.inr (.inl ⟨i, rfl⟩))).trans ?_
    change (if i + 2 < k.hdr.cells then copyPayload k (i + 1) u.engineIdle else _) = _
    rw [copyPayload_succ]
    rfl
  case written =>
    intro hs
    refine (programDelivered_build hq hio hk hs (.inr (.inr (.inl rfl)))).trans ?_
    exact congrArg (fun z => if k.target = .live then copyMark .live livePattern k u.engineIdle else z) (handOver_eq k _)
  case live =>
    intro hs
    exact (programDelivered_build hq hio hk hs (.inr (.inr (.inr rfl)))).trans (handOver_eq k _)
  case failed => exact fun hs => programDelivered_build hq hio hk rfl hs
  case retire =>
    intro why i tries hs mark ends suspect
    have hdone : ∀ ok, programDelivered q ok u = copyRetireDone ok why i tries k u.engineIdle := fun ok =>
      (programDelivered_engine hq hio).trans (engineProgramDone_retire (u := u.engineIdle) hk hs)
    have hends : ∀ v : Units, v.ce = u.ce → copyRetired why k v.engineIdle = ends v := by
      intro v hv
      cases why <;> (simp only [ends, ← hv]; rfl)
    have hmark : ∀ j tries, j ≤ 3 →
        copyRetire why j tries k u.engineIdle = copyMark (.retiring why j tries) (mark j) k u.engineIdle :=
      fun j tries hj => by rw [show mark j = retireMark j from retireMark_eq hj]; rfl
    refine ⟨fun hi => ?_, fun hi => ?_, fun hw => ?_, fun hw hi ht => ?_, fun hw ht => ?_⟩
    · exact (hdone true).trans ((copyRetireDone_next hi).trans (hmark (i + 1) 1 hi))
    · exact (hdone true).trans ((copyRetireDone_last hi).trans (hends u rfl))
    · exact (hdone false).trans ((copyRetireDone_once hw).trans (hends u rfl))
    · exact (hdone false).trans ((copyRetireDone_again hw ht).trans (hmark i (tries + 1) hi))
    · refine (hdone false).trans ((copyRetireDone_short hw ht).trans ?_)
      have hsuspect : engineSuspect k.loc.seg u.engineIdle = suspect.engineIdle := by
        rw [engineSuspect_eq, copyNames_eq (u := u.engineIdle) hk]
        rfl
      rw [hsuspect]
      exact hends suspect rfl

end Sys2Proof.Machine
end


section
/-! SUPPORT. LOSS and SWEEP (R114, R116, R137): the entry of a lost record removed, and what lies in a victim named. -/

namespace Sys2Proof.Machine

/-! ## LOSS (R114) -/

section Loss
variable {iu : IndexUnit} {part key : Nat} {l : Location}

theorem takeLoss_removed {e : Entry} (he : iu.find part key = some e) (hl : e.loc = l) : iu.takeLoss part key l
    = (({ iu with entries := IndexUnit.removeEntry part key iu.entries }).kill l e.cells, true) := by
  simp only [IndexUnit.takeLoss, he, if_pos hl]

theorem takeLoss_left (h : ∀ e, iu.find part key = some e → e.loc ≠ l) : iu.takeLoss part key l = (iu, false) := by
  unfold IndexUnit.takeLoss
  split
  next e he => exact if_neg (h e he)
  next => rfl

/-- The fault and its notice when the entry was removed (R114, R137). -/
theorem engineLost_removed (u : Units) : engineLost part key true u = recordDone 0 { countFault u with
    nu := { u.nu with posts := u.nu.posts ++ [⟨.engine, .authority, { Notice.plain .integrity with
      part := some part, key := some key, seg := some (u.ce.victim.getD 0), reason := some .lost }⟩] } } := rfl

end Loss

theorem loss_taken {s : State} {part key : Nat} {l : Location} {iu : IndexUnit} {removed : Bool}
    (h : s.oldestClaim .engine (.loss part key l)) (ht : (popClaim s.units).iu.takeLoss part key l = (iu, removed)) :
    exec .loss s = .next (s.withUnits (engineLost part key removed ((popClaim s.units).setIu iu))) :=
  (loss_row h).trans (by rw [lossClaim, ht])

/-! ## SWEEP (R114) -/

/-- What names a location in a segment: index entries, commit set members and staged members (R114). -/
theorem mem_namedIn {v : Nat} {u : Units} {n : Named} : n ∈ namedIn v u ↔
    (∃ e ∈ u.iu.entries, e.loc.seg = v ∧ n = .entry e.part e.key e.loc)
    ∨ (∃ x ∈ u.iu.commitSet, x.loc.seg = v ∧ n = .commitMember x.txn x.part x.loc)
    ∨ (∃ p, ∃ m ∈ (u.slot p).members, m.loc.seg = v ∧ n = .member (u.slot p).number (u.slot p).part m.key m.loc) := by
  simp only [namedIn, IndexUnit.named, membersIn, List.mem_append, List.mem_map, List.mem_filter, List.mem_flatMap, beq_iff_eq,
    or_assoc, and_assoc, eq_comm (b := n)]
  refine or_congr_right (or_congr_right ⟨fun ⟨p, _, h⟩ => ⟨p, h⟩, fun ⟨p, h⟩ => ⟨p, mem_allPorts p, h⟩⟩)

/-- Settles O49: a LOSS by whether the entry still names the record, a SWEEP by whether anything is named. -/
theorem lossAndSweepTake : Obligations.LossAndSweepTake := by
  refine ⟨fun part key l s h => ⟨fun e he hl => ?removed, fun hne => ?left⟩,
    fun v s h => ⟨namedIn v s.units, fun n => mem_namedIn, fun hns => ?none, fun n rest hns => ?some⟩⟩
  case removed =>
    have hrow := loss_taken h (takeLoss_removed (iu := (popClaim s.units).iu) he hl)
    exact ⟨_, hrow.trans (congrArg (fun z => Host.Outcome.next (s.withUnits z)) (engineLost_removed _)),
      fun part' key' => find_removeEntry part key part' key' s.units.iu.entries, rfl, rfl, rfl, rfl⟩
  case left => exact loss_taken h (takeLoss_left (iu := (popClaim s.units).iu) hne)
  case none =>
    have hnone : (namedIn v (popClaim s.units)).isEmpty = true := by rw [show namedIn v (popClaim s.units) = [] from hns]; rfl
    exact (sweep_row h).trans (congrArg (fun z => Host.Outcome.next (s.withUnits z)) (if_pos hnone))
  case some =>
    have hsome : ¬ (namedIn v (popClaim s.units)).isEmpty = true := by
      rw [show namedIn v (popClaim s.units) = n :: rest from hns]
      exact Bool.false_ne_true
    exact (sweep_row h).trans (congrArg (fun z => Host.Outcome.next (s.withUnits z)) ((if_neg hsome).trans
      (sweepNext_more (u := (popClaim s.units).setCe { s.units.ce with
        todo := some (namedIn v s.units), unread := false, again := false }) (congrArg some hns))))

end Sys2Proof.Machine
end


section
/-! SUPPORT. Heads and allocation at the Index Unit (R50 to R52, R54): the least-worn erased segment, a head drawn from the
erased segments, and the erased count behind it. -/

namespace Sys2Proof.Machine

/-! ## The least-worn erased segment (R50) -/

/-- A numbered entry is worn less than another, or as much with a lower number. -/
def wornBefore (x y : SegEntry × Nat) : Prop :=
  x.1.eraseCount < y.1.eraseCount ∨ (x.1.eraseCount = y.1.eraseCount ∧ x.2 ≤ y.2)

theorem leastWorn_eq_none {xs : List (SegEntry × Nat)} (h : IndexUnit.leastWorn xs = none) :
    ∀ x ∈ xs, ¬ x.1.avail = true := by
  induction xs with
  | nil => simp
  | cons x xs ih =>
    rw [IndexUnit.leastWorn] at h
    cases hxs : IndexUnit.leastWorn xs with
    | none =>
      rw [hxs] at h
      have hx : ¬ x.1.avail = true := fun ha => by simp [ha] at h
      exact List.forall_mem_cons.2 ⟨hx, ih hxs⟩
    | some y =>
      rw [hxs] at h
      dsimp only at h
      split at h <;> cases h

/-- The entry chosen is available, and none that is comes before it. -/
theorem leastWorn_eq_some {xs : List (SegEntry × Nat)} {y : SegEntry × Nat} (hp : xs.Pairwise fun a b => a.2 < b.2)
    (h : IndexUnit.leastWorn xs = some y) :
    y ∈ xs ∧ y.1.avail = true ∧ ∀ x ∈ xs, x.1.avail = true → wornBefore y x := by
  induction xs generalizing y with
  | nil => cases h
  | cons x xs ih =>
    obtain ⟨hfirst, hrest⟩ := List.pairwise_cons.1 hp
    have hself : wornBefore x x := .inr ⟨rfl, Nat.le_refl _⟩
    rw [IndexUnit.leastWorn] at h
    cases hxs : IndexUnit.leastWorn xs with
    | none =>
      rw [hxs] at h
      simp only [Option.ite_none_right_eq_some, Option.some.injEq] at h
      obtain ⟨ha, rfl⟩ := h
      exact ⟨List.mem_cons_self, ha, List.forall_mem_cons.2 ⟨fun _ => hself,
        fun z hz hza => absurd hza (leastWorn_eq_none hxs z hz)⟩⟩
    | some z =>
      obtain ⟨hmem, hza, hmin⟩ := ih hrest hxs
      rw [hxs] at h
      dsimp only at h
      split at h
      next hle =>
        obtain rfl := Option.some.inj h
        rw [Bool.and_eq_true, decide_eq_true_eq] at hle
        refine ⟨List.mem_cons_self, hle.1, List.forall_mem_cons.2 ⟨fun _ => hself, fun w hw hwa => ?_⟩⟩
        have hlt := hfirst w hw
        rcases hmin w hw hwa with hworn | ⟨hworn, _⟩ <;> simp only [wornBefore] <;> omega
      next hgt =>
        obtain rfl := Option.some.inj h
        refine ⟨List.mem_cons_of_mem _ hmem, hza, List.forall_mem_cons.2 ⟨fun hxa => .inl ?_, hmin⟩⟩
        simpa [hxa] using hgt

/-! ## The segment table under changes of one entry -/

theorem countP_modify_of_eq {α : Type} {test : α → Bool} {f : α → α} (hf : ∀ x, test (f x) = test x) :
    ∀ (l : List α) (i : Nat), (l.modify i f).countP test = l.countP test
  | [], i => by simp
  | x :: l, 0 => by simp [List.countP_cons, hf]
  | x :: l, i + 1 => by simp [List.countP_cons, countP_modify_of_eq hf l i]

/-- An element that satisfied a test no longer does. -/
theorem countP_modify_drop {α : Type} {test : α → Bool} {f : α → α} (hf : ∀ x, test (f x) = false) :
    ∀ {l : List α} {i : Nat} {x : α}, l[i]? = some x → test x = true → (l.modify i f).countP test = l.countP test - 1
  | y :: l, 0, x, h, hx => by
    obtain rfl := Option.some.inj h
    simp [hf, hx]
  | y :: l, i + 1, x, h, hx => by
    have hpos : 0 < l.countP test := List.countP_pos_iff.2 ⟨x, List.mem_of_getElem? h, hx⟩
    rw [List.modify_succ_cons, List.countP_cons, List.countP_cons, countP_modify_drop hf (l := l) h hx]
    omega

namespace IndexUnit

/-- A data segment is the least-worn erased one (R50). -/
def LeastWorn (iu : IndexUnit) (seg : Nat) : Prop := 2 ≤ seg ∧ seg - 2 < iu.segs.length ∧ (iu.seg seg).avail = true
  ∧ ∀ k, 2 ≤ k → k - 2 < iu.segs.length → (iu.seg k).avail = true →
      (iu.seg seg).eraseCount < (iu.seg k).eraseCount ∨ ((iu.seg seg).eraseCount = (iu.seg k).eraseCount ∧ seg ≤ k)

theorem getElem?_seg {iu : IndexUnit} {k : Nat} (h : k - 2 < iu.segs.length) : iu.segs[k - 2]? = some (iu.seg k) := by
  rw [IndexUnit.seg, Config.firstData, List.getD_eq_getElem?_getD, List.getElem?_eq_getElem h]
  rfl

theorem mem_numbered {iu : IndexUnit} {x : SegEntry} {k : Nat} :
    (x, k) ∈ iu.segs.zipIdx 2 ↔ 2 ≤ k ∧ k - 2 < iu.segs.length ∧ x = iu.seg k := by
  rw [List.mk_mem_zipIdx_iff_le_and_getElem?_sub]
  refine and_congr_right fun _ => ⟨fun h => ?_, fun ⟨hlt, hx⟩ => hx ▸ getElem?_seg hlt⟩
  have hlt := (List.getElem?_eq_some_iff.1 h).1
  exact ⟨hlt, Option.some.inj (h.symm.trans (getElem?_seg hlt))⟩

theorem numbered_increasing (segs : List SegEntry) (n : Nat) : (segs.zipIdx n).Pairwise fun a b => a.2 < b.2 := by
  have hsnd : ((segs.zipIdx n).map Prod.snd).Pairwise (· < ·) := by
    rw [List.zipIdx_map_snd]
    exact List.pairwise_lt_range'
  exact List.pairwise_map.1 hsnd

/-- The index unit with a head drawn: its segment no longer erased, the next sequence number used (R50). -/
def drawn (iu : IndexUnit) (k : NewHead) : IndexUnit :=
  { iu.modSeg k.seg (fun e => { e with avail := false }) with seqNext := iu.seqNext + 1 }

/-- With an erased segment left, a head is drawn from the least-worn one (R50). -/
theorem takeHead_eq {iu : IndexUnit} (h : 0 < iu.erasedCount) : ∃ k : NewHead, iu.takeHead = some (iu.drawn k, k)
    ∧ iu.LeastWorn k.seg ∧ k.seq = iu.seqNext
    ∧ k.prepare = (if (iu.seg k.seg).state = .blank then some (iu.seg k.seg).eraseCount else none) := by
  cases hl : leastWorn (iu.segs.zipIdx 2) with
  | none =>
    obtain ⟨x, hx, ha⟩ := List.countP_pos_iff.1 h
    obtain ⟨i, hi⟩ := List.mem_iff_getElem?.1 hx
    have hmem : (x, i + 2) ∈ iu.segs.zipIdx 2 := List.mk_mem_zipIdx_iff_le_and_getElem?_sub.2 ⟨by omega, by simpa using hi⟩
    exact absurd ha (leastWorn_eq_none hl _ hmem)
  | some y =>
    obtain ⟨x, n⟩ := y
    obtain ⟨hmem, ha, hmin⟩ := leastWorn_eq_some (numbered_increasing _ _) hl
    obtain ⟨h2, hlt, rfl⟩ := mem_numbered.1 hmem
    refine ⟨⟨n, iu.seqNext, if (iu.seg n).state = .blank then some (iu.seg n).eraseCount else none⟩, ?_,
      ⟨h2, hlt, ha, fun k hk hkl hka => hmin (iu.seg k, k) (mem_numbered.2 ⟨hk, hkl, rfl⟩) hka⟩, rfl, rfl⟩
    change (match leastWorn (iu.segs.zipIdx 2) with | none => none | some (e, n) => _) = _
    rw [hl]
    rfl

theorem erasedCount_drawn {iu : IndexUnit} {k : NewHead} (h : iu.LeastWorn k.seg) :
    (iu.drawn k).erasedCount = iu.erasedCount - 1 := by
  obtain ⟨_, hlt, ha, _⟩ := h
  exact countP_modify_drop (test := SegEntry.avail) (fun _ => rfl) (getElem?_seg hlt) ha

/-! ## A head that leaves its role (R51) -/

theorem erasedCount_leaveRole (iu : IndexUnit) (seg : Nat) : (iu.leaveRole seg).erasedCount = iu.erasedCount :=
  countP_modify_of_eq (test := SegEntry.avail) (f := fun e => { e with next := 128, dead := e.dead + (128 - e.next) })
    (fun _ => rfl) iu.segs (seg - 2)

theorem seg_modSeg_field {α : Type} {iu : IndexUnit} {seg k : Nat} {f : SegEntry → SegEntry} {g : SegEntry → α}
    (hg : ∀ e, g (f e) = g e) : g ((iu.modSeg seg f).seg k) = g (iu.seg k) := by
  simp only [IndexUnit.seg, IndexUnit.modSeg, Config.firstData, List.getD_eq_getElem?_getD, List.getElem?_modify]
  cases iu.segs[k - 2]? with
  | none => rfl
  | some e =>
    by_cases hk : seg - 2 = k - 2
    · simp [hk, hg]
    · simp [hk]

/-- Leaving its role, a head does not change which segment is the least worn. -/
theorem leastWorn_leaveRole {iu : IndexUnit} {h k : Nat} (hl : (iu.leaveRole h).LeastWorn k) : iu.LeastWorn k := by
  have hlen : (iu.leaveRole h).segs.length = iu.segs.length := List.length_modify ..
  have havail : ∀ j, ((iu.leaveRole h).seg j).avail = (iu.seg j).avail := fun j =>
    seg_modSeg_field (g := SegEntry.avail) fun _ => rfl
  have herase : ∀ j, ((iu.leaveRole h).seg j).eraseCount = (iu.seg j).eraseCount := fun j =>
    seg_modSeg_field (g := SegEntry.eraseCount) fun _ => rfl
  simpa only [LeastWorn, hlen, havail, herase] using hl

end IndexUnit

end Sys2Proof.Machine
end


section
/-! SUPPORT. ALLOCATE (R50 to R54, R60, R84, R101, R109, R115): the Index Unit's answers, the erased count compared with the
low-water mark, and what the Writer and the engine do with the answer. -/

namespace Sys2Proof.Machine

/-! ## The answers of the Index Unit (R51, R52) -/

namespace IndexUnit
variable {iu : IndexUnit} {forCopy : Bool} {n h : Nat}

/-- The erased segments a claimant leaves: none for a copy, 2 for a record (R52). -/
def reserve (forCopy : Bool) : Nat := if forCopy then 0 else 2

/-- What a claimant is told without a segment for its head (R52). -/
def noHead (forCopy : Bool) : AllocRest := if forCopy then .none else .wait

/-- The index unit behind a head that does not fit (R51). -/
def closedHead (iu : IndexUnit) (forCopy : Bool) (h : Nat) : IndexUnit := (iu.leaveRole h).setHead forCopy none

theorem openHead_none (he : iu.erasedCount ≤ reserve forCopy) : iu.openHead forCopy = (iu, noHead forCopy) :=
  if_neg (Nat.not_lt.2 he)

theorem openHead_new (he : reserve forCopy < iu.erasedCount) : ∃ k : NewHead, iu.openHead forCopy = (iu.drawn k, .newHead k)
    ∧ iu.LeastWorn k.seg ∧ k.seq = iu.seqNext
    ∧ k.prepare = (if (iu.seg k.seg).state = .blank then some (iu.seg k.seg).eraseCount else none) := by
  obtain ⟨k, hk, hspec⟩ := takeHead_eq (iu := iu) (Nat.lt_of_le_of_lt (Nat.zero_le _) he)
  refine ⟨k, (if_pos he).trans ?_, hspec⟩
  rw [hk]

theorem takeAllocate_place (hh : iu.head forCopy = some h) (hf : (iu.seg h).next + n ≤ 128) : iu.takeAllocate forCopy n
    = (iu.modSeg h (fun e => { e with next := e.next + n, live := e.live + n }), none, .place ⟨h, (iu.seg h).next⟩) := by
  unfold takeAllocate
  rw [hh]
  exact if_pos hf

theorem takeAllocate_closes {r : IndexUnit × AllocRest} (hh : iu.head forCopy = some h) (hf : 128 < (iu.seg h).next + n)
    (hr : (iu.closedHead forCopy h).openHead forCopy = r) : iu.takeAllocate forCopy n = (r.1, some h, r.2) := by
  subst hr
  unfold takeAllocate
  rw [hh]
  exact if_neg (Nat.not_le.2 hf)

theorem takeAllocate_opens {r : IndexUnit × AllocRest} (hh : iu.head forCopy = none) (hr : iu.openHead forCopy = r) :
    iu.takeAllocate forCopy n = (r.1, none, r.2) := by
  subst hr
  unfold takeAllocate
  rw [hh]

theorem erasedCount_closedHead : (iu.closedHead forCopy h).erasedCount = iu.erasedCount := by
  refine Eq.trans ?_ (erasedCount_leaveRole iu h)
  cases forCopy <;> rfl

/-- What is drawn behind a head that leaves its role is what would have been drawn before. -/
theorem leastWorn_closedHead {k : Nat} (hl : (iu.closedHead forCopy h).LeastWorn k) : iu.LeastWorn k :=
  leastWorn_leaveRole (h := h) (by cases forCopy <;> exact hl)

theorem prepare_closedHead {k : Nat} : (if ((iu.closedHead forCopy h).seg k).state = .blank
      then some ((iu.closedHead forCopy h).seg k).eraseCount else none)
    = if (iu.seg k).state = .blank then some (iu.seg k).eraseCount else none := by
  have hseg : (iu.closedHead forCopy h).seg k = (iu.leaveRole h).seg k := by cases forCopy <;> rfl
  have hstate : ((iu.leaveRole h).seg k).state = (iu.seg k).state := seg_modSeg_field (g := SegEntry.state) fun _ => rfl
  have herase : ((iu.leaveRole h).seg k).eraseCount = (iu.seg k).eraseCount :=
    seg_modSeg_field (g := SegEntry.eraseCount) fun _ => rfl
  rw [hseg, hstate, herase]

end IndexUnit

/-! ## The comparison with the low-water mark (R54) -/

/-- The units with a head drawn from an index unit of the erased count given, compared with the low-water mark. -/
def Units.headDrawn (u : Units) (before : IndexUnit) (k : NewHead) (erased : Nat) : Units :=
  { u with
    iu := { before.drawn k with armed := decide (u.pu.shadow.lowWater < erased - 1) }
    ce := { u.ce with lowRun := u.ce.lowRun || decide (erased - 1 ≤ u.pu.shadow.lowWater) }
    nu := { u.nu with posts := u.nu.posts ++
      if before.armed = true ∧ erased - 1 ≤ u.pu.shadow.lowWater then [⟨.index, .every, Notice.plain .spaceLow⟩] else [] } }

theorem compareLow_drawn {u : Units} {before : IndexUnit} {k : NewHead} (h : before.LeastWorn k.seg) :
    compareLow (u.setIu (before.drawn k)) = u.headDrawn before k before.erasedCount := by
  have hcount : ((u.setIu (before.drawn k)).iu.erasedCount) = before.erasedCount - 1 := IndexUnit.erasedCount_drawn h
  rw [compareLow_eq, hcount, Units.headDrawn]
  simp only [and_comm (a := before.armed = true)]
  rfl

/-- The specification of a head drawn, read off the index unit before the claim. -/
structure Units.Draws (u : Units) (iu before : IndexUnit) (k : NewHead) (v : Units) : Prop where
  least   : iu.LeastWorn k.seg
  seq     : k.seq = iu.seqNext
  prepare : k.prepare = if (iu.seg k.seg).state = .blank then some (iu.seg k.seg).eraseCount else none
  units   : v = u.headDrawn before k iu.erasedCount

/-! ## What the units do with the answer (R60, R109, R115) -/

section Engine
variable {u : Units} {c : Copy} (hc : u.ce.copy = some c)
include hc

theorem engineAllocated_place (l : Location) : engineAllocated none (.place l) u = u.setCe { u.ce with
    copy := some { c with loc := l }, step := .header,
    io := ⟨some ⟨.engine, l.seg, .program l.cell (c.hdr.bytes 0x7F)⟩, false⟩ } := by
  simp only [engineAllocated, followCopyAllocate, hc]
  rfl

theorem engineAllocated_new (k : NewHead) : engineAllocated none (.newHead k) u = engineHead k.first u := by
  simp only [engineAllocated, followCopyAllocate, hc]

theorem engineAllocated_none : engineAllocated none .none u = abandonPass u := by
  simp only [engineAllocated, followCopyAllocate, hc]

end Engine

section Writer
variable {u : Units} {r : RecordJob} {st : WStep} {rec : List Location} {rest : AllocRest} {seg : Nat}

theorem curJob_eq (h : u.rw.cur = some ⟨.record r, st, rec⟩) : curJob u = some (.record r) := by
  rw [curJob, h]
  rfl

theorem leaveForSpace_wait (h : u.rw.cur = some ⟨.record r, st, rec⟩) : leaveForSpace .wait u = waitForSpace r u := by
  simp only [leaveForSpace, curJob_eq h]

theorem leaveForSpace_other (h : rest ≠ .wait) : leaveForSpace rest u = u := by
  unfold leaveForSpace
  split
  · exact absurd rfl h
  · rfl

/-- The units with a job on the space wait list, a restart event (R53, R115). -/
def Units.joinedBy (u : Units) (r : RecordJob) : Units :=
  (u.setIu { u.iu with spaceWait := u.iu.spaceWait ++ [⟨r.port, r, r.cells⟩] }).setCe
    { u.ce with restart := true, mode := .urgent }

theorem joinSpaceList_eq : joinSpaceList r r.cells u
    = if u.ce.step = .sweepWaiting then present .engine .noVictim (u.joinedBy r) else u.joinedBy r := by
  have hjoined : followSpaceList ((u.setIu { u.iu with spaceWait := u.iu.spaceWait ++ [⟨r.port, r, r.cells⟩] }).setCe
      { u.ce with restart := true }) = u.joinedBy r := by
    simp [followSpaceList, Units.joinedBy, Units.setCe, Units.setIu]
  exact congrArg (fun v => if u.ce.step = .sweepWaiting then present .engine .noVictim v else v) hjoined

/-- A job answered WAIT joins the space wait list, or ends where it stages for an aborted slot (R53, R84). -/
theorem waitForSpace_eq : waitForSpace r u
    = if r.role = .stage ∧ (u.slot r.port).state = .aborting then
        u.setSlot r.port { u.slot r.port with stage := none }
      else if u.ce.step = .sweepWaiting then present .engine .noVictim (u.joinedBy r)
      else u.joinedBy r := by
  unfold waitForSpace
  rw [joinSpaceList_eq]
  rfl

theorem waitForSpace_rw : (waitForSpace r u).rw = u.rw := by
  rw [waitForSpace_eq]
  split
  · rfl
  · split <;> rfl

/-- The port of a job that waits has work left, so its drain goes on (R73, R179). -/
theorem settle_waiting (x : RecordWriter) :
    settle r.port ((waitForSpace r u).setRw x) = (waitForSpace r u).setRw x := by
  rw [waitForSpace_eq]
  split
  next h =>
    refine settle_of_slot ?_
    rw [Units.slot_setRw, Units.slot_setSlot_self, h.2]
    decide
  next =>
    have hwork : ∀ v : Units, v.iu.spaceWait = u.iu.spaceWait ++ [⟨r.port, r, r.cells⟩] → settle r.port v = v := by
      intro v hv
      refine (settle_eq r.port v).trans (if_neg fun hn => ?_)
      have hjob : hasRecordJob r.port v = true := by simp [hasRecordJob, hv]
      rw [hjob] at hn
      exact Bool.false_ne_true hn.2.2.2.1.symm
    split
    · exact hwork _ rfl
    · exact hwork _ rfl

theorem writerAllocated_place (h : u.rw.cur = some ⟨.record r, st, rec⟩) (l : Location) :
    writerAllocated none (.place l) u = goHeader r l u := by
  simp only [writerAllocated, leaveForSpace_other (rest := .place l) (by simp), followAllocate, curJob_eq h]

theorem writerAllocated_new (h : u.rw.cur = some ⟨.record r, st, rec⟩) (k : NewHead) :
    writerAllocated none (.newHead k) u = goHead k.first u := by
  simp only [writerAllocated, leaveForSpace_other (rest := .newHead k) (by simp), followAllocate, curJob_eq h]

theorem writerAllocated_closes (hr : rest ≠ .wait) :
    writerAllocated (some seg) rest u = goHead (.closing seg 1 rest) u := by
  simp only [writerAllocated, leaveForSpace_other hr]

theorem writerAllocated_closes_wait (h : u.rw.cur = some ⟨.record r, st, rec⟩) :
    writerAllocated (some seg) .wait u = goHead (.closing seg 1 .wait) (waitForSpace r u) := by
  simp only [writerAllocated, leaveForSpace_wait h]

theorem writerAllocated_wait (h : u.rw.cur = some ⟨.record r, st, rec⟩) :
    writerAllocated none .wait u = (waitForSpace r u).setRw { u.rw with cur := none, io := ⟨none, false⟩ } := by
  have hcur : (waitForSpace r u).rw.cur = some ⟨.record r, st, rec⟩ := by rw [waitForSpace_rw, h]
  simp only [writerAllocated, leaveForSpace_wait h, followAllocate, curJob_eq hcur]
  refine (settle_waiting _).trans ?_
  rw [waitForSpace_rw]
  rfl

theorem goHead_eq {c : CurJob} {x : HeadStep} (h : u.rw.cur = some c) : goHead x u = u.setRw { u.rw with
    cur := some { c with step := .head x },
    io := ⟨some ⟨.writer, x.program.1, .program 0 x.program.2⟩, false⟩ } := goProgram_eq h

end Writer

end Sys2Proof.Machine
end


section
/-! SUPPORT. The rows of ALLOCATE (R50 to R54, R60, R109). -/

namespace Sys2Proof.Machine

section Rows
variable {s : State} {src : Claimant} {n : Nat} {iu : IndexUnit} {close : Option Nat} {rest : AllocRest} {k : NewHead}

/-- What a claimant does with the answer; a head drawn has lowered the erased count before (R54). -/
def allocateAnswered (src : Claimant) (close : Option Nat) (rest : AllocRest) (u : Units) : Units :=
  let v := match rest with | .newHead _ => compareLow u | _ => u
  if src.copies then engineAllocated close rest v else writerAllocated close rest v

theorem allocate_taken (h : s.oldestClaim src (.allocate n))
    (ht : (popClaim s.units).iu.takeAllocate src.copies n = (iu, close, rest)) :
    exec .allocate s = .next (s.withUnits (kick (allocateAnswered src close rest ((popClaim s.units).setIu iu)))) := by
  refine (allocate_row h).trans ?_
  simp only [allocateClaim, ht]
  rfl

/-- The engine's answer carried out, the Writer taking nothing meanwhile. -/
theorem allocate_engine {v w : Units} (h : s.oldestClaim .engine (.allocate n)) (hs : s.writerSteady)
    (ht : (popClaim s.units).iu.takeAllocate true n = (iu, close, rest))
    (ha : allocateAnswered .engine close rest ((popClaim s.units).setIu iu) = v) (hv : v = w) (hrw : w.rw = s.units.rw) :
    exec .allocate s = .next (s.withUnits w) := by
  subst hv ha
  exact (allocate_taken h ht).trans (congrArg (fun z => Host.Outcome.next (s.withUnits z)) (kick_steady hs hrw))

/-- The Writer's answer carried out, its job going on. -/
theorem allocate_writer {v w : Units} (h : s.oldestClaim .writer (.allocate n))
    (ht : (popClaim s.units).iu.takeAllocate false n = (iu, close, rest))
    (ha : allocateAnswered .writer close rest ((popClaim s.units).setIu iu) = v) (hv : v = w) (hcur : w.rw.cur ≠ none) :
    exec .allocate s = .next (s.withUnits w) := by
  subst ha
  exact row_at_work (allocate_taken h ht) hv hcur

theorem answered_engine_drawn {u v : Units} (hv : compareLow u = v) :
    allocateAnswered .engine close (.newHead k) u = engineAllocated close (.newHead k) v := by
  subst hv
  rfl

theorem answered_writer_drawn {u v : Units} (hv : compareLow u = v) :
    allocateAnswered .writer close (.newHead k) u = writerAllocated close (.newHead k) v := by
  subst hv
  rfl

end Rows

/-! ## A head drawn (R50, R54) -/

section Drawn
variable {u : Units} {forCopy : Bool} {h : Nat}

/-- Without a head one is drawn where the claimant's reserve allows (R52). -/
theorem opens_draws (he : IndexUnit.reserve forCopy < u.iu.erasedCount) : ∃ (k : NewHead) (x : IndexUnit) (v : Units),
    u.iu.openHead forCopy = (x, .newHead k) ∧ compareLow (u.setIu x) = v ∧ u.Draws u.iu u.iu k v := by
  obtain ⟨k, hopen, hleast, hseq, hprep⟩ := IndexUnit.openHead_new he
  exact ⟨k, _, _, hopen, rfl, hleast, hseq, hprep, compareLow_drawn hleast⟩

/-- Behind a head that leaves its role the same one is drawn. -/
theorem closes_draws (he : IndexUnit.reserve forCopy < u.iu.erasedCount) : ∃ (k : NewHead) (x : IndexUnit) (v : Units),
    (u.iu.closedHead forCopy h).openHead forCopy = (x, .newHead k) ∧ compareLow (u.setIu x) = v
    ∧ u.Draws u.iu (u.iu.closedHead forCopy h) k v := by
  have hcount := IndexUnit.erasedCount_closedHead (iu := u.iu) (forCopy := forCopy) (h := h)
  obtain ⟨k, hopen, hleast, hseq, hprep⟩ :=
    IndexUnit.openHead_new (iu := u.iu.closedHead forCopy h) (forCopy := forCopy) (by rw [hcount]; exact he)
  exact ⟨k, _, _, hopen, rfl, IndexUnit.leastWorn_closedHead hleast, hseq.trans (by cases forCopy <;> rfl),
    hprep.trans IndexUnit.prepare_closedHead, (compareLow_drawn hleast).trans (by rw [hcount])⟩

/-- A head drawn leaves the Writer and the engine's copy as they are. -/
theorem Units.Draws.rw {iu before : IndexUnit} {k : NewHead} {v : Units} (h : u.Draws iu before k v) : v.rw = u.rw := by
  rw [h.units]
  rfl

theorem Units.Draws.copy {iu before : IndexUnit} {k : NewHead} {v : Units} (h : u.Draws iu before k v) :
    v.ce.copy = u.ce.copy := by
  rw [h.units]
  rfl

theorem closes_none (he : u.iu.erasedCount ≤ IndexUnit.reserve forCopy) :
    (u.iu.closedHead forCopy h).openHead forCopy = (u.iu.closedHead forCopy h, IndexUnit.noHead forCopy) :=
  IndexUnit.openHead_none (by rw [IndexUnit.erasedCount_closedHead]; exact he)

theorem first_preparing {k : NewHead} {c : Nat} (h : k.prepare = some c) : k.first = .preparing k := by
  rw [NewHead.first, h]
  rfl

theorem first_opening {k : NewHead} (h : k.prepare = none) : k.first = .opening k := by
  rw [NewHead.first, h]
  rfl

theorem program_preparing {k : NewHead} {c : Nat} (h : k.prepare = some c) :
    (HeadStep.preparing k).program = (k.seg, prepareProgram c) := by
  rw [HeadStep.program, h]
  rfl

end Drawn

/-- Settles O50: the head's place, its closing and the new head's draw, at the engine and at the Writer. -/
theorem allocateTakes : Obligations.AllocateTakes := by
  intro n s u iu erased low full placed left leastWorn drawn
  refine ⟨fun k h hk hs => ⟨fun x hx hf => ?place, fun x hx hf he => ?close, fun x hx hf he => ?closeNew, fun hx he => ?new,
    fun hx he => ?none⟩, fun r rec h hcur => ⟨fun x hx hf => ?wPlace, fun x hx hf he => ?wClose, fun x hx hf he => ?wCloseNew,
    fun hx he => ?wNew, fun hx he => ?wNone⟩⟩
  case place =>
    exact allocate_engine h hs (IndexUnit.takeAllocate_place (iu := u.iu) hx hf) rfl
      (engineAllocated_place (u := u.setIu { u.iu with segs := placed x }) hk ⟨x, (u.iu.seg x).next⟩) rfl
  case close =>
    exact allocate_engine h hs (IndexUnit.takeAllocate_closes (iu := u.iu) hx hf (closes_none (u := u) (Nat.le_of_eq he)))
      rfl rfl rfl
  case closeNew =>
    obtain ⟨k', x', v, hopen, hv, hdraw⟩ := closes_draws (u := u) (forCopy := true) (h := x) he
    refine ⟨v, k', ⟨hdraw.least, hdraw.seq, hdraw.prepare, hdraw.units⟩, ?_⟩
    exact allocate_engine h hs (IndexUnit.takeAllocate_closes (iu := u.iu) hx hf hopen) (answered_engine_drawn hv) rfl hdraw.rw
  case new =>
    obtain ⟨k', x', v, hopen, hv, hdraw⟩ := opens_draws (u := u) (forCopy := true) he
    refine ⟨v, k', ⟨hdraw.least, hdraw.seq, hdraw.prepare, hdraw.units⟩, fun c hc => ?_, fun hc => ?_⟩
    · refine allocate_engine h hs (IndexUnit.takeAllocate_opens (iu := u.iu) hx hopen) (answered_engine_drawn hv)
        ((engineAllocated_new (hdraw.copy.trans hk) k').trans ?_) hdraw.rw
      rw [first_preparing hc, engineHead, program_preparing hc]
      rfl
    · refine allocate_engine h hs (IndexUnit.takeAllocate_opens (iu := u.iu) hx hopen) (answered_engine_drawn hv)
        ((engineAllocated_new (hdraw.copy.trans hk) k').trans ?_) hdraw.rw
      rw [first_opening hc]
      rfl
  case none =>
    exact allocate_engine h hs (IndexUnit.takeAllocate_opens (iu := u.iu) hx
      (IndexUnit.openHead_none (forCopy := true) (Nat.le_of_eq he))) rfl (engineAllocated_none (u := u.setIu u.iu) hk) rfl
  case wPlace =>
    have hg := goProgram_eq (u := u.setIu { u.iu with segs := placed x }) (st := .header ⟨x, (u.iu.seg x).next⟩) (seg := x)
      (cell := (u.iu.seg x).next) (bytes := r.header.bytes openPattern) hcur
    exact allocate_writer (v := writerAllocated none (.place ⟨x, (u.iu.seg x).next⟩) (u.setIu { u.iu with segs := placed x })) h
      (IndexUnit.takeAllocate_place (iu := u.iu) hx hf) rfl
      ((writerAllocated_place (u := u.setIu { u.iu with segs := placed x }) hcur _).trans hg) (Option.some_ne_none _)
  case wClose =>
    have hwait : (waitForSpace r (u.setIu (u.iu.closedHead false x))).rw.cur = some ⟨.record r, .allocating, rec⟩ := by
      rw [waitForSpace_rw]
      exact hcur
    have hg := goHead_eq (x := .closing x 1 .wait) hwait
    exact allocate_writer (v := writerAllocated (some x) .wait (u.setIu (u.iu.closedHead false x))) h
      (IndexUnit.takeAllocate_closes (iu := u.iu) hx hf (closes_none (u := u) he)) rfl
      ((writerAllocated_closes_wait (u := u.setIu (u.iu.closedHead false x)) hcur).trans
        (hg.trans (by rw [waitForSpace_rw, waitForSpace_eq]; rfl))) (Option.some_ne_none _)
  case wCloseNew =>
    obtain ⟨k, y, v, hopen, hv, hdraw⟩ := closes_draws (u := u) (forCopy := false) (h := x) he
    refine ⟨v, k, ⟨hdraw.least, hdraw.seq, hdraw.prepare, hdraw.units⟩, ?_⟩
    have hg := goHead_eq (x := .closing x 1 (.newHead k)) (hdraw.rw ▸ hcur)
    rw [hdraw.rw] at hg
    exact allocate_writer h (IndexUnit.takeAllocate_closes (iu := u.iu) hx hf hopen) (answered_writer_drawn hv)
      ((writerAllocated_closes (by simp)).trans hg) (Option.some_ne_none _)
  case wNew =>
    obtain ⟨k, y, v, hopen, hv, hdraw⟩ := opens_draws (u := u) (forCopy := false) he
    have hcur' : v.rw.cur = some ⟨.record r, .allocating, rec⟩ := hdraw.rw ▸ hcur
    have hg : goHead k.first v = _ := goHead_eq hcur'
    rw [hdraw.rw] at hg
    refine ⟨v, k, ⟨hdraw.least, hdraw.seq, hdraw.prepare, hdraw.units⟩, fun c hc => ?_, fun hc => ?_⟩
    · rw [first_preparing hc, program_preparing hc] at hg
      exact allocate_writer h (IndexUnit.takeAllocate_opens (iu := u.iu) hx hopen) (answered_writer_drawn hv)
        ((writerAllocated_new hcur' k).trans (by rw [first_preparing hc]; exact hg)) (Option.some_ne_none _)
    · rw [first_opening hc] at hg
      exact allocate_writer h (IndexUnit.takeAllocate_opens (iu := u.iu) hx hopen) (answered_writer_drawn hv)
        ((writerAllocated_new hcur' k).trans (by rw [first_opening hc]; exact hg)) (Option.some_ne_none _)
  case wNone =>
    have hw := writerAllocated_wait (u := u.setIu u.iu) hcur
    rw [waitForSpace_eq] at hw
    exact (allocate_taken h (IndexUnit.takeAllocate_opens (iu := u.iu) hx (IndexUnit.openHead_none (forCopy := false) he))).trans
      (congrArg (fun z => Host.Outcome.next (s.withUnits (kick z))) hw)

end Sys2Proof.Machine
end


section
/-! SUPPORT. OPENED and CLOSE (R49 to R51, R60, R72, R81, R109, R112): a segment opened, suspect or withdrawn, and the claimant
that asks again; and a withdrawn victim's pass ended (R101, R117). -/

namespace Sys2Proof.Machine

/-! ## The Index Unit's part (R50, R51) -/

namespace IndexUnit
variable {iu : IndexUnit} {forCopy : Bool} {seg : Nat}

/-- A head leaves its role and is suspect (R51). -/
theorem takeClose_suspect : iu.takeClose forCopy seg .suspect = { iu.setHead forCopy none with
    segs := iu.segs.modify (seg - 2) (fun x => { x with next := 128, dead := x.dead + (128 - x.next), suspect := true }) } := by
  have htwice : (iu.segs.modify (seg - 2) fun x => { x with next := 128, dead := x.dead + (128 - x.next) }).modify (seg - 2)
        (fun x => { x with suspect := true })
      = iu.segs.modify (seg - 2) (fun x => { x with next := 128, dead := x.dead + (128 - x.next), suspect := true }) :=
    List.modify_modify_eq ..
  cases forCopy
  · exact congrArg (fun segs => { iu with writeHead := none, segs := segs }) htwice
  · exact congrArg (fun segs => { iu with copyHead := none, segs := segs }) htwice

end IndexUnit

/-! ## Notices of a segment (R72) -/

/-- An INTEGRITY notice to the authority ports (R72). -/
def integrityPost (who : Poster) (part key : Option Nat) (reason : NoticeReason) (seg : Nat) : Post :=
  ⟨who, .authority, { Notice.plain .integrity with part := part, key := key, seg := some seg, reason := some reason }⟩

/-- The key an INTEGRITY notice of a record names: none for a COMMIT (log 23). -/
def recordKey (kind : RecordKind) (key : Nat) : Option Nat := if kind = .commit then none else some key

/-- The units with an INTEGRITY notice posted. -/
def Units.noting (u : Units) (x : Post) : Units := { u with nu := { u.nu with posts := u.nu.posts ++ [x] } }

/-- The units with the notice of a suspect segment, where the mark is new. -/
def Units.notingNew (u : Units) (old : Bool) (x : Post) : Units :=
  { u with nu := { u.nu with posts := if old then u.nu.posts else u.nu.posts ++ [x] } }

section Writer
variable {u : Units} {r : RecordJob} {rec : List Location} {st : WStep}

theorem goAllocate_eq {c : CurJob} (h : u.rw.cur = some c) : goAllocate r u
    = present .writer (.allocate r.cells) (u.setRw { u.rw with cur := some { c with step := .allocating } }) := goClaim_eq h

theorem writerAgain_eq (h : u.rw.cur = some ⟨.record r, st, rec⟩) : writerAgain u
    = present .writer (.allocate r.cells) (u.setRw { u.rw with cur := some ⟨.record r, .allocating, rec⟩ }) := by
  simp only [writerAgain, curJob_eq h]
  exact goAllocate_eq h

theorem goClosing_eq {c : CurJob} {seg : Nat} (h : u.rw.cur = some c) : goClosing st seg u = u.setRw { u.rw with
    cur := some { c with step := st },
    io := ⟨some ⟨.writer, seg, .program 0 (0xF8 :: List.replicate 15 0xFF)⟩, false⟩ } := goProgram_eq h

theorem writerClosed_suspect {l : Location} {old : Bool} (h : u.rw.cur = some ⟨.record r, .suspectClaim l, rec⟩) :
    writerClosed (!old) u
      = (u.notingNew old (integrityPost .writer (some r.part) (recordKey r.kind r.key) .suspect l.seg)).setRw { u.rw with
          cur := some ⟨.record r, .closingFailed l.seg 1, rec⟩,
          io := ⟨some ⟨.writer, l.seg, .program 0 (0xF8 :: List.replicate 15 0xFF)⟩, false⟩ } := by
  simp only [writerClosed, h]
  cases old with
  | true => exact goClosing_eq h
  | false => exact goClosing_eq (u := u.noting (integrityPost .writer (some r.part) (recordKey r.kind r.key) .suspect l.seg)) h

theorem writerClosed_bad {seg : Nat} {fresh : Bool} (h : u.rw.cur = some ⟨.record r, .badClaim seg, rec⟩) : writerClosed fresh u
    = present .writer (.allocate r.cells)
        ((u.noting (integrityPost .writer (some r.part) (recordKey r.kind r.key) .bad seg)).setRw
          { u.rw with cur := some ⟨.record r, .allocating, rec⟩ }) := by
  simp only [writerClosed, h]
  exact writerAgain_eq (u := u.noting (integrityPost .writer (some r.part) (recordKey r.kind r.key) .bad seg)) h

end Writer

section Engine
variable {u : Units} {k : Copy} (hk : u.ce.copy = some k)
include hk

theorem engineAgain_eq : engineAgain u
    = present .engine (.allocate k.hdr.cells) (u.setCe { u.ce with step := .allocating }) := by
  rw [engineAgain, hk]
  rfl

theorem engineClosed_suspect {old : Bool} (hs : u.ce.step = .suspectClaim) : engineClosed (!old) u
    = (u.notingNew old (integrityPost .engine (some k.hdr.part) (recordKey k.hdr.recordKind k.hdr.key) .suspect
        k.loc.seg)).setCe { u.ce with
          step := .closingFailed k.loc.seg 1,
          io := ⟨some ⟨.engine, k.loc.seg, .program 0 (0xF8 :: List.replicate 15 0xFF)⟩, false⟩ } := by
  simp only [engineClosed, hs, copyNames_eq hk]
  rw [hk]
  cases old <;> (dsimp only; rw [← hk]; rfl)

theorem engineClosed_bad {seg : Nat} {fresh : Bool} (hs : u.ce.step = .badClaim seg) : engineClosed fresh u
    = present .engine (.allocate k.hdr.cells)
        ((u.noting (integrityPost .engine (some k.hdr.part) (recordKey k.hdr.recordKind k.hdr.key) .bad seg)).setCe
          { u.ce with step := .allocating }) := by
  simp only [engineClosed, hs, copyNames_eq hk]
  exact engineAgain_eq (u := u.noting (integrityPost .engine (some k.hdr.part) (recordKey k.hdr.recordKind k.hdr.key) .bad seg)) hk

end Engine

section Rows
variable {s : State} {seg : Nat} {r : RecordJob} {rec : List Location} {k : Copy}

/-- The units with a segment withdrawn: BAD, no erased one, and no number retained with it (R50, R81). -/
def Units.withdrawn (u : Units) (seg : Nat) : Units :=
  { u with
    iu := { u.iu with segs := u.iu.segs.modify (seg - 2) (fun x => { x with state := .bad, avail := false }) }
    tm := { u.tm with retained := u.tm.retained.filter (fun x => x.2 != seg) } }

theorem close_suspect_writer (h : s.oldestClaim .writer (.close seg .suspect)) : exec .close s
    = .next (s.withUnits (writerClosed (!((popClaim s.units).iu.seg seg).suspect) ((popClaim s.units).setIu
        { (popClaim s.units).iu with
          writeHead := none,
          segs := (popClaim s.units).iu.segs.modify (seg - 2)
            (fun x => { x with next := 128, dead := x.dead + (128 - x.next), suspect := true }) }))) :=
  (close_row h).trans (congrArg (fun iu => Host.Outcome.next (s.withUnits (writerClosed
    (!((popClaim s.units).iu.seg seg).suspect) ((popClaim s.units).setIu iu)))) IndexUnit.takeClose_suspect)

theorem close_suspect_engine (h : s.oldestClaim .engine (.close seg .suspect)) : exec .close s
    = .next (s.withUnits (engineClosed (!((popClaim s.units).iu.seg seg).suspect) ((popClaim s.units).setIu
        { (popClaim s.units).iu with
          copyHead := none,
          segs := (popClaim s.units).iu.segs.modify (seg - 2)
            (fun x => { x with next := 128, dead := x.dead + (128 - x.next), suspect := true }) }))) :=
  (close_row h).trans (congrArg (fun iu => Host.Outcome.next (s.withUnits (engineClosed
    (!((popClaim s.units).iu.seg seg).suspect) ((popClaim s.units).setIu iu)))) IndexUnit.takeClose_suspect)

theorem close_bad_writer (h : s.oldestClaim .writer (.close seg .bad)) : exec .close s = .next (s.withUnits
    (writerClosed (!((popClaim s.units).iu.seg seg).suspect) ((popClaim s.units).withdrawn seg))) := close_row h

theorem close_bad_engine (h : s.oldestClaim .engine (.close seg .bad)) : exec .close s = .next (s.withUnits
    (engineClosed (!((popClaim s.units).iu.seg seg).suspect) ((popClaim s.units).withdrawn seg))) := close_row h

/-- A withdrawn victim ends its pass (R117). -/
theorem engineClosed_victim {u : Units} {fresh : Bool} (hs : u.ce.step = .badVictimClaim) (hv : u.ce.victim = some seg) :
    engineClosed fresh u = passEnded (u.noting (integrityPost .engine none none .bad seg)) := by
  have hvictim : victimOf u = seg := by rw [victimOf, hv]; rfl
  simp only [engineClosed, hs, hvictim]
  rfl

end Rows

end Sys2Proof.Machine
end


section
/-! SUPPORT. The programs on the header of a head (R49, R51, R60, R70, R72, R109, R112): its closing, preparation, opening and
withdrawal, and a failed record left behind. -/

namespace Sys2Proof.Machine

/-! ## A segment closed (R51) -/

section Shut
variable {u : Units} {src : Poster} {seg : Nat} {part key : Option Nat} {ok : Bool}

/-- The units with a segment FULL, and suspect with its notice where the closing fell short (R51, R72). -/
def Units.shut (u : Units) (src : Poster) (seg : Nat) (part key : Option Nat) (ok : Bool) : Units :=
  { u with
    iu := { u.iu with segs := u.iu.segs.modify (seg - 2) (fun x => { x with state := .full, suspect := x.suspect || !ok }) }
    nu := { u.nu with posts := u.nu.posts
      ++ if ok = true ∨ (u.iu.seg seg).suspect = true then [] else [integrityPost src part key .suspect seg] } }

theorem shut_done : u.shut src seg part key true = u.setIu (u.iu.nowFull seg) := by
  simp only [Units.shut, Bool.not_true, Bool.or_false, true_or, if_true, List.append_nil]
  rfl

theorem shut_short : u.shut src seg part key false = (u.setIu (u.iu.nowFull seg)).suspected src seg part key := by
  have hsegs : (u.iu.segs.modify (seg - 2) fun x => { x with state := .full }).modify (seg - 2)
        (fun x => { x with suspect := true })
      = u.iu.segs.modify (seg - 2) (fun x => { x with state := .full, suspect := x.suspect || !false }) := by
    rw [List.modify_modify_eq]
    congr 1
    funext x
    simp
  have hold : ((u.iu.nowFull seg).seg seg).suspect = (u.iu.seg seg).suspect :=
    suspect_modSeg (f := fun e => { e with state := .full }) fun _ => rfl
  unfold Units.shut Units.suspected
  simp only [Bool.false_eq_true, false_or, Units.iu_setIu, hold]
  rw [← hsegs]
  rfl

/-- The closing of a head by the Writer (R51, R72). -/
theorem closedSuspect_shut {r : RecordJob} {st : WStep} {rec : List Location} (h : u.rw.cur = some ⟨.record r, st, rec⟩) :
    closedSuspect ok seg u = u.shut .writer seg (some r.part) (recordKey r.kind r.key) ok := by
  cases ok with
  | true => exact shut_done.symm
  | false => exact (writerSuspect_eq (u := u.setIu (u.iu.nowFull seg)) h).trans shut_short.symm

/-- The closing of a head by the engine (R51, R72). -/
def engineShut (ok : Bool) (seg : Nat) (u : Units) : Units :=
  if ok then u.setIu (u.iu.nowFull seg) else engineSuspect seg (u.setIu (u.iu.nowFull seg))

theorem engineShut_shut {k : Copy} (h : u.ce.copy = some k) :
    engineShut ok seg u = u.shut .engine seg (some k.hdr.part) (recordKey k.hdr.recordKind k.hdr.key) ok := by
  cases ok with
  | true => exact shut_done.symm
  | false =>
    refine (engineSuspect_eq (u := u.setIu (u.iu.nowFull seg))).trans ?_
    rw [copyNames_eq (u := u.setIu (u.iu.nowFull seg)) h]
    exact shut_short.symm

end Shut

/-! ## The Writer's programs (R60, R70) -/

section Writer
variable {u : Units} {seg tries : Nat} {rest : AllocRest} {k : NewHead} {ok : Bool} {r : RecordJob} {st : WStep}
  {rec : List Location}

theorem headDone_closing_again (h : tries < 3) :
    headDone false (.closing seg tries rest) u = goHead (.closing seg (tries + 1) rest) u := if_pos h

theorem headDone_closed (h : ok = true ∨ 3 ≤ tries) :
    headDone ok (.closing seg tries rest) u = followAllocate rest (closedSuspect ok seg u) := by
  cases ok with
  | true => rfl
  | false => exact if_neg (Nat.not_lt.2 (h.resolve_left Bool.false_ne_true))

theorem followAllocate_new (h : u.rw.cur = some ⟨.record r, st, rec⟩) : followAllocate (.newHead k) u = goHead k.first u := by
  simp only [followAllocate, curJob_eq h]

theorem followAllocate_wait (h : u.rw.cur = some ⟨.record r, st, rec⟩) :
    followAllocate .wait u = settle r.port (u.setRw { u.rw with cur := none, io := ⟨none, false⟩ }) := by
  simp only [followAllocate, curJob_eq h]
  rfl

theorem writerDone_head {h : HeadStep} (hcur : u.rw.cur = some ⟨.record r, .head h, rec⟩) : writerDone ok u = headDone ok h u := by
  simp only [writerDone, hcur]

theorem writerDone_closingFailed_again (hcur : u.rw.cur = some ⟨.record r, .closingFailed seg tries, rec⟩) (h : tries < 3) :
    writerDone false u = goClosing (.closingFailed seg (tries + 1)) seg u := by
  simp only [writerDone, hcur, Bool.false_eq_true, if_false, if_pos h]

theorem writerDone_closingFailed (hcur : u.rw.cur = some ⟨.record r, .closingFailed seg tries, rec⟩) (h : ok = true ∨ 3 ≤ tries) :
    writerDone ok u = relocate r (closedSuspect ok seg u) := by
  simp only [writerDone, hcur]
  cases ok with
  | true => rfl
  | false => exact (if_neg Bool.false_ne_true).trans (if_neg (Nat.not_lt.2 (h.resolve_left Bool.false_ne_true)))

/-- The record with one more location left behind (R70). -/
def RecordJob.relocated (r : RecordJob) : RecordJob := { r with relocs := r.relocs + 1 }

theorem relocate_again (hcur : u.rw.cur = some ⟨.record r, st, rec⟩) (h : r.relocs < 2) : relocate r u
    = present .writer (.allocate r.cells) (u.setRw { u.rw with cur := some ⟨.record r.relocated, .allocating, rec⟩ }) :=
  (if_pos (show r.relocs + 1 ≤ 2 by omega)).trans (goClaim_modJob hcur)

/-- The third failed location ends the record MEDIA (R70). -/
theorem relocate_last (hcur : u.rw.cur = some ⟨.record r, st, rec⟩) (h : 2 ≤ r.relocs) : relocate r u
    = recordFailed .media r.relocated (u.setRw { u.rw with cur := some ⟨.record r.relocated, st, rec⟩ }) := by
  refine (if_neg (show ¬ r.relocs + 1 ≤ 2 by omega)).trans ?_
  rw [modJob_eq hcur]
  rfl

theorem recordFailed_single {c : ResultCode} (hcur : u.rw.cur = some ⟨.record r, st, rec⟩) (h : r.role = .single) :
    recordFailed c r u = present .writer (.release (.single r.port)) (u.setRw { u.rw with
      cur := some ⟨.record r, .releasing c, rec⟩ }) := by
  simp only [recordFailed, h]
  exact goClaim_eq hcur

/-- A failed stage in an OPEN slot: its pending change is released and its command answered (R88). -/
theorem recordFailed_stage_opened {c : ResultCode} {x : InHand} (h : r.role = .stage) (hs : (u.slot r.port).state = .opened)
    (hx : (u.port r.port).inHand = some x) : recordFailed c r u
      = ((present (.txn r.port) (.release (.stagePending r.port r.key)) (u.setSlot r.port { u.slot r.port with
          stage := none })).withOutcome r.port (Posting.code c)).setRw u.rw.free := by
  simp only [recordFailed, h, stageFailed, if_pos hs]
  rw [stageEnded_opened (u := present (.txn r.port) (.release (.stagePending r.port r.key)) u) hs,
    deliver_inHand (u := (present (.txn r.port) (.release (.stagePending r.port r.key)) u).setSlot r.port _) hx]
  have hslot : ((u.setSlot r.port { u.slot r.port with stage := none }).slot r.port).state = .opened :=
    (congrArg Slot.state (Units.slot_setSlot_self ..)).trans hs
  exact settle_of_slot (u := ((present (.txn r.port) (.release (.stagePending r.port r.key)) (u.setSlot r.port
    { u.slot r.port with stage := none })).withOutcome r.port (Posting.code c)).setRw u.rw.free)
      fun hn => by cases hslot.symm.trans hn

theorem recordFailed_stage_aborting {c : ResultCode} (h : r.role = .stage) (hs : (u.slot r.port).state = .aborting) :
    recordFailed c r u = (u.setSlot r.port { u.slot r.port with stage := none }).setRw u.rw.free := by
  have hopen : ¬ (u.slot r.port).state = .opened := by rw [hs]; decide
  simp only [recordFailed, h, stageFailed, if_neg hopen, stageEnded_other hopen]
  refine settle_of_slot ?_
  have hslot : ((u.setSlot r.port { u.slot r.port with stage := none }).slot r.port).state = .aborting :=
    (congrArg Slot.state (Units.slot_setSlot_self ..)).trans hs
  exact fun hn => by cases hslot.symm.trans hn

/-- A failed COMMIT aborts its transaction, the command answered at the end of the clean (R94). -/
theorem recordFailed_commit {c : ResultCode} (h : r.role = .commit) (hs : (u.slot r.port).state = .committing) :
    recordFailed c r u = (u.setSlot r.port { u.slot r.port with state := .aborting, reply := some c }).setRw
      { u.rw with cur := none, io := ⟨none, false⟩, queue := u.rw.queue ++ [.abortClean r.port] } := by
  simp only [recordFailed, h, commitFailed, inState, hs, if_true]
  refine settle_of_slot ?_
  have hslot : ((u.setSlot r.port { u.slot r.port with state := .aborting, reply := some c }).slot r.port).state = .aborting :=
    congrArg Slot.state (Units.slot_setSlot_self ..)
  exact fun hn => by cases hslot.symm.trans hn

theorem recordFailed_commit_other {c : ResultCode} (h : r.role = .commit) (hs : (u.slot r.port).state ≠ .committing) :
    recordFailed c r u = (u.setRw u.rw.free).drained r.port := by
  simp only [recordFailed, h, commitFailed, inState, if_neg hs]
  exact finish_eq

end Writer

/-! ## The engine's programs (R109, R112, R115) -/

section Engine
variable {u : Units} {seg tries : Nat} {rest : AllocRest} {h : NewHead} {ok : Bool} {k : Copy}

theorem engineHeadDone_closed (hok : ok = true ∨ 3 ≤ tries) :
    engineHeadDone ok (.closing seg tries rest) u = followCopyAllocate rest (engineShut ok seg u) := by
  cases ok with
  | true => rfl
  | false => exact if_neg (Nat.not_lt.2 (hok.resolve_left Bool.false_ne_true))

theorem followCopyAllocate_new (hk : u.ce.copy = some k) : followCopyAllocate (.newHead h) u = engineHead h.first u := by
  simp only [followCopyAllocate, hk]

theorem followCopyAllocate_none (hk : u.ce.copy = some k) : followCopyAllocate .none u = abandonPass u := by
  simp only [followCopyAllocate, hk]

theorem engineProgramDone_head {x : HeadStep} (hs : u.ce.step = .head x) : engineProgramDone ok u = engineHeadDone ok x u := by
  simp only [engineProgramDone, hs]

theorem engineProgramDone_closingFailed_again (hk : u.ce.copy = some k) (hs : u.ce.step = .closingFailed seg tries)
    (ht : tries < 3) : engineProgramDone false u = engineMark (.closingFailed seg (tries + 1)) seg 0 (segPattern .full) u := by
  simp only [engineProgramDone, hk, hs, Bool.false_eq_true, if_false, if_pos ht]

theorem engineProgramDone_closingFailed (hk : u.ce.copy = some k) (hs : u.ce.step = .closingFailed seg tries)
    (hok : ok = true ∨ 3 ≤ tries) : engineProgramDone ok u = copyAgain k (engineShut ok seg u) := by
  simp only [engineProgramDone, hk, hs]
  cases ok with
  | true => rfl
  | false => exact (if_neg Bool.false_ne_true).trans (if_neg (Nat.not_lt.2 (hok.resolve_left Bool.false_ne_true)))

end Engine

end Sys2Proof.Machine
end


section
/-! SUPPORT. OPENED, CLOSE and the programs of a head, row by row (R49 to R51, R60, R70, R72, R101, R109, R112, R115, R117). -/

namespace Sys2Proof.Machine

/-! ## The end of a pass (R101, R117) -/

/-- An engine at rest, by whether a victim is kept (R117, log 37). -/
theorem atRest_eq (ce : CompactionEngine) : ce.atRest = { ce with
    state := .idle, kind := none, victim := ce.kept, kept := none,
    source := if ce.kept = none then .selected else .held, copy := none, attempts := 0, owed := [],
    cleared := false, step := .idle, todo := if ce.kept = none then none else ce.todo, unread := false,
    again := false, noted := if ce.kept = none then [] else ce.noted, io := ⟨none, false⟩ } := rfl

theorem passEnded_port (u : Units) (p : Port) : (passEnded u).port p = (u.answerAll .ok u.ce.owed).port p := by
  rw [passEnded_eq]
  rfl

section WriterPrograms
variable {r : RecordJob} {st : WStep} {rec : List Location} {q : Request} {u : Units} {ok : Bool}
  (hq : q.who = .writer) (hio : u.rw.io = ⟨some q, true⟩)
include hq hio

/-- A program of a head, delivered to the Writer. -/
theorem delivered_head {h : HeadStep} (hcur : u.rw.cur = some ⟨.record r, .head h, rec⟩) :
    programDelivered q ok u = kick (headDone ok h (u.atJob (.record r) (.head h) rec ⟨none, false⟩)) :=
  (programDelivered_writer hq hio hcur).trans
    (congrArg kick (writerDone_head (u := u.atJob (.record r) (.head h) rec ⟨none, false⟩) rfl))

/-- A head program asked for behind the one delivered. -/
theorem delivered_asks {h x : HeadStep} {v : Units} {seg : Nat} {bytes : List Byte}
    (hcur : u.rw.cur = some ⟨.record r, .head h, rec⟩)
    (hv : headDone ok h (u.atJob (.record r) (.head h) rec ⟨none, false⟩) = goHead x v)
    (hc : v.rw.cur = some ⟨.record r, .head h, rec⟩) (hp : x.program = (seg, bytes)) : programDelivered q ok u = v.setRw { v.rw with
      cur := some ⟨.record r, .head x, rec⟩, io := ⟨some ⟨.writer, seg, .program 0 bytes⟩, false⟩ } := by
  rw [delivered_head hq hio hcur, hv, goHead_eq hc, hp]
  exact kick_busy (Option.some_ne_none _)

end WriterPrograms

/-- The closing of a head is over. -/
theorem headDone_shut {u : Units} {r : RecordJob} {rec : List Location} {ok : Bool} {seg tries : Nat} {rest : AllocRest}
    (hok : ok = true ∨ 3 ≤ tries) :
    headDone ok (.closing seg tries rest) (u.atJob (.record r) (.head (.closing seg tries rest)) rec ⟨none, false⟩)
      = followAllocate rest ((u.shut .writer seg (some r.part) (recordKey r.kind r.key) ok).atJob (.record r)
          (.head (.closing seg tries rest)) rec ⟨none, false⟩) :=
  (headDone_closed hok).trans (congrArg (followAllocate rest)
    (closedSuspect_shut (u := u.atJob (.record r) (.head (.closing seg tries rest)) rec ⟨none, false⟩) rfl))

/-- A failed stage of an OPEN slot, at the units the Writer's part is set aside from. -/
theorem stageFailed_setRw {v : Units} {rw : RecordWriter} {r : RecordJob} {x : InHand} (h : r.role = .stage)
    (hs : (v.slot r.port).state = .opened) (hx : (v.port r.port).inHand = some x) :
    recordFailed .media r (v.setRw rw) = ((present (.txn r.port) (.release (.stagePending r.port r.key)) (v.setSlot r.port
        { v.slot r.port with stage := none })).withOutcome r.port (Posting.code .media)).setRw rw.free :=
  recordFailed_stage_opened (u := v.setRw rw) h hs hx

section WriterPrograms
variable {r : RecordJob} {st : WStep} {rec : List Location} {q : Request} {u : Units} {ok : Bool}
  (hq : q.who = .writer) (hio : u.rw.io = ⟨some q, true⟩)
include hq hio

/-- A new head's first program, asked for behind the closing. -/
theorem delivered_newHead {seg tries : Nat} {k : NewHead} {x : HeadStep} {at' : Nat} {bytes : List Byte}
    (hcur : u.rw.cur = some ⟨.record r, .head (.closing seg tries (.newHead k)), rec⟩) (hok : ok = true ∨ 3 ≤ tries)
    (hx : k.first = x) (hp : x.program = (at', bytes)) :
    programDelivered q ok u = (u.shut .writer seg (some r.part) (recordKey r.kind r.key) ok).setRw { u.rw with
      cur := some ⟨.record r, .head x, rec⟩, io := ⟨some ⟨.writer, at', .program 0 bytes⟩, false⟩ } :=
  delivered_asks (v := (u.shut .writer seg (some r.part) (recordKey r.kind r.key) ok).atJob (.record r)
      (.head (.closing seg tries (.newHead k))) rec ⟨none, false⟩) hq hio hcur
    ((headDone_shut hok).trans ((followAllocate_new rfl).trans (by rw [hx]))) rfl hp

/-- A failed record's head is closed: the record's location is left behind. -/
theorem delivered_relocates {seg tries : Nat} (hcur : u.rw.cur = some ⟨.record r, .closingFailed seg tries, rec⟩)
    (hok : ok = true ∨ 3 ≤ tries) : programDelivered q ok u
      = kick (relocate r ((u.shut .writer seg (some r.part) (recordKey r.kind r.key) ok).atJob (.record r)
          (.closingFailed seg tries) rec ⟨none, false⟩)) :=
  (programDelivered_writer hq hio hcur).trans (congrArg kick
    ((writerDone_closingFailed (u := u.atJob (.record r) (.closingFailed seg tries) rec ⟨none, false⟩) rfl hok).trans
      (congrArg (relocate r)
        (closedSuspect_shut (u := u.atJob (.record r) (.closingFailed seg tries) rec ⟨none, false⟩) rfl))))

/-- The third failed location of a record. -/
theorem delivered_failed {seg tries : Nat} (hcur : u.rw.cur = some ⟨.record r, .closingFailed seg tries, rec⟩)
    (hok : ok = true ∨ 3 ≤ tries) (hn : 2 ≤ r.relocs) : programDelivered q ok u
      = kick (recordFailed .media r.relocated ((u.shut .writer seg (some r.part) (recordKey r.kind r.key) ok).atJob
          (.record r.relocated) (.closingFailed seg tries) rec ⟨none, false⟩)) :=
  (delivered_relocates hq hio hcur hok).trans (congrArg kick (relocate_last (u := Units.atJob _ _ _ _ _) rfl hn))

end WriterPrograms

section EnginePrograms
variable {k : Copy} {q : Request} {u : Units} {ok : Bool} (hq : q.who = .engine) (hio : u.ce.io = ⟨some q, true⟩)

theorem engineHead_eq {h : HeadStep} {seg : Nat} {bytes : List Byte} (hp : h.program = (seg, bytes)) :
    engineHead h u = u.setCe { u.ce with step := .head h, io := ⟨some ⟨.engine, seg, .program 0 bytes⟩, false⟩ } := by
  rw [engineHead, hp]
  rfl

/-- The closing of the copy head is over. -/
theorem engineHeadDone_shut {seg tries : Nat} {rest : AllocRest} (hk : u.ce.copy = some k) (hok : ok = true ∨ 3 ≤ tries) :
    engineHeadDone ok (.closing seg tries rest) u
      = followCopyAllocate rest (u.shut .engine seg (some k.hdr.part) (recordKey k.hdr.recordKind k.hdr.key) ok) :=
  (engineHeadDone_closed hok).trans (congrArg (followCopyAllocate rest) (engineShut_shut hk))

theorem engineHeadDone_newHead {seg tries : Nat} {h : NewHead} {x : HeadStep} {at' : Nat} {bytes : List Byte}
    (hk : u.ce.copy = some k) (hok : ok = true ∨ 3 ≤ tries) (hx : h.first = x) (hp : x.program = (at', bytes)) :
    engineHeadDone ok (.closing seg tries (.newHead h)) u
      = (u.shut .engine seg (some k.hdr.part) (recordKey k.hdr.recordKind k.hdr.key) ok).setCe
          { u.ce with step := .head x, io := ⟨some ⟨.engine, at', .program 0 bytes⟩, false⟩ } := by
  rw [engineHeadDone_shut hk hok, followCopyAllocate_new (k := k) (u := Units.shut ..) hk, hx, engineHead_eq hp]
  rfl

/-- A claim of the engine, the record it copies written out. -/
theorem engineClaim_copy {st : CStep} {c : Claim} (hk : u.ce.copy = some k) : engineClaim st c u
    = present .engine c (u.setCe { u.ce with copy := some k, step := st }) := by
  rw [← hk]
  rfl

theorem abandonPass_copy (hk : u.ce.copy = some k) : abandonPass u
    = present .engine .noVictim (u.setCe { u.ce with copy := some k, step := .abandonClaim, lowRun := false }) :=
  engineClaim_copy (u := modCe _ u) hk

/-- The attempts of a record's copy, one more (R112). -/
theorem copyAgain_eq : copyAgain k u = if k.attempts < 2
    then present .engine (.allocate k.hdr.cells)
      (u.setCe { u.ce with copy := some { k with attempts := k.attempts + 1 }, step := .allocating })
    else present .engine .noVictim (u.setCe { u.ce with
      copy := some { k with attempts := k.attempts + 1 }, step := .abandonClaim, lowRun := false }) := rfl

include hq hio

/-- A program of the copy head, delivered to the engine. -/
theorem delivered_engineHead {h : HeadStep} (hs : u.ce.step = .head h) :
    programDelivered q ok u = engineHeadDone ok h u.engineIdle :=
  (programDelivered_engine hq hio).trans (engineProgramDone_head (u := u.engineIdle) hs)

theorem delivered_engineHead_asks {h x : HeadStep} {seg : Nat} {bytes : List Byte} (hs : u.ce.step = .head h)
    (hv : engineHeadDone ok h u.engineIdle = engineHead x u.engineIdle) (hp : x.program = (seg, bytes)) :
    programDelivered q ok u = u.setCe { u.ce with step := .head x, io := ⟨some ⟨.engine, seg, .program 0 bytes⟩, false⟩ } :=
  (delivered_engineHead hq hio hs).trans (hv.trans (engineHead_eq hp))

end EnginePrograms

/-- Settles O51: OPENED and CLOSE by claimant and reason, then the programs of a head by step, at the Writer and the engine. -/
theorem openedAndCloseTake : Obligations.OpenedAndCloseTake := by
  unfold Obligations.OpenedAndCloseTake
  intro full bad integrity
  refine ⟨fun r rec s => ⟨fun h hh hcur => ?wOpened, fun seg l h hcur hl => ?wSuspect, fun seg h hcur => ?wBad⟩,
    fun k s hk => ⟨fun h hh => ?eOpened, fun h hs => ?eSuspect, fun seg h hs => ?eBad⟩,
    fun seg s h hs hv => ?victim,
    fun r st rec q u hq hio hcur => ⟨fun seg tries rest hst => ⟨fun ht => ?wCloseAgain, fun ok hok => ⟨fun k c hr hc => ?wPrepare,
      fun k hr hc => ?wOpen, fun hr => ?wFree⟩⟩, fun k hst => ⟨?wPrepared, ?wUnprepared⟩, fun k hst => ⟨?wIsOpen, ?wNotOpen⟩,
      fun seg ok hst => ?wWithdrawn, fun seg tries hst => ⟨fun ht => ?wFailedAgain, fun ok hok => ⟨fun hn => ?wRelocated,
        fun hn hr => ?wSingle, fun c hn hr hs hc => ?wStage, fun hn hr hs => ?wAborting, fun hn hr hs => ?wCommit,
        fun hn hr hs => ?wCommitOther⟩⟩⟩,
    fun k q u hq hio hk => ⟨fun seg tries rest hs => ⟨fun ht => ?eCloseAgain, fun ok hok => ⟨fun h c hr hc => ?ePrepare,
      fun h hr hc => ?eOpen, fun hr => ?eAbandon⟩⟩, fun h hs => ⟨?ePrepared, ?eUnprepared⟩, fun h hs => ⟨?eIsOpen, ?eNotOpen⟩,
      fun seg ok hs => ?eWithdrawn, fun seg tries hs => ⟨fun ht => ?eFailedAgain, fun ok hok => ?eFailed⟩⟩⟩
  case wOpened =>
    exact (opened_row hh).trans (congrArg (fun z => Host.Outcome.next (s.withUnits z))
      (writerAgain_eq (u := (popClaim s.units).setIu ((popClaim s.units).iu.takeOpened false h)) hcur))
  case wSuspect =>
    subst hl
    exact (close_suspect_writer h).trans (congrArg (fun z => Host.Outcome.next (s.withUnits z))
      (writerClosed_suspect (u := (popClaim s.units).setIu _) hcur))
  case wBad =>
    exact (close_bad_writer h).trans (congrArg (fun z => Host.Outcome.next (s.withUnits z))
      (writerClosed_bad (u := (popClaim s.units).withdrawn seg) hcur))
  case eOpened =>
    exact (opened_row hh).trans (congrArg (fun z => Host.Outcome.next (s.withUnits z))
      (engineAgain_eq (u := (popClaim s.units).setIu ((popClaim s.units).iu.takeOpened true h)) hk))
  case eSuspect =>
    exact (close_suspect_engine h).trans (congrArg (fun z => Host.Outcome.next (s.withUnits z))
      (engineClosed_suspect (k := k) (u := (popClaim s.units).setIu { (popClaim s.units).iu with
        copyHead := none,
        segs := (popClaim s.units).iu.segs.modify (k.loc.seg - 2)
          (fun x => { x with next := 128, dead := x.dead + (128 - x.next), suspect := true }) }) hk hs))
  case eBad =>
    exact (close_bad_engine h).trans (congrArg (fun z => Host.Outcome.next (s.withUnits z))
      (engineClosed_bad (u := (popClaim s.units).withdrawn seg) hk hs))
  case victim =>
    intro iu
    let ended := ((popClaim s.units).withdrawn seg).noting (integrityPost .engine none none .bad seg)
    refine ⟨passEnded ended, (close_bad_engine h).trans (congrArg (fun z => Host.Outcome.next (s.withUnits z))
      (engineClosed_victim (u := (popClaim s.units).withdrawn seg) hs hv)), ?_⟩
    have hport : ∀ p, (passEnded ended).port p
        = if p ∈ s.units.ce.owed ∧ (s.units.port p).inHand ≠ none
          then { s.units.port p with outcome := some (Posting.code .ok) } else s.units.port p :=
      fun p => (passEnded_port ended p).trans (answerAll_port ended .ok s.units.ce.owed p)
    refine ⟨?_, ?_, ?_, ?_, ?_, ?_, ?_, ?_, ?_, fun p c hc hp => ?_, fun p hp => ?_⟩
    · rw [passEnded_eq]; rfl
    · rw [passEnded_eq]; rfl
    · rw [passEnded_eq]; rfl
    · rw [passEnded_eq]; rfl
    · rw [passEnded_eq]; rfl
    · rw [passEnded_eq]; rfl
    · rw [passEnded_eq]; rfl
    · rw [passEnded_eq]; rfl
    · rw [passEnded_eq]; rfl
    · rw [hport, if_pos ⟨hp, by rw [hc]; exact Option.some_ne_none c⟩]
    · rw [hport, if_neg fun hn => hp hn.1]
  case wCloseAgain =>
    subst hst
    exact delivered_asks (v := u.atJob _ _ _ _) hq hio hcur (headDone_closing_again ht) rfl rfl
  case wPrepare =>
    subst hst hr
    exact delivered_newHead hq hio hcur hok (first_preparing hc) (program_preparing hc)
  case wOpen =>
    subst hst hr
    exact delivered_newHead hq hio hcur hok (first_opening hc) rfl
  case wFree =>
    subst hst hr
    rw [delivered_head hq hio hcur, headDone_shut hok, followAllocate_wait (u := Units.atJob _ _ _ _ _) rfl]
    rfl
  case wPrepared =>
    subst hst
    exact delivered_asks (v := u.atJob _ _ _ _) hq hio hcur rfl rfl rfl
  case wUnprepared =>
    subst hst
    exact delivered_asks (v := u.atJob _ _ _ _) hq hio hcur rfl rfl rfl
  case wIsOpen =>
    subst hst
    exact (delivered_head hq hio hcur).trans (kick_busy (Option.some_ne_none _))
  case wNotOpen =>
    subst hst
    exact delivered_asks (v := u.atJob _ _ _ _) hq hio hcur rfl rfl rfl
  case wWithdrawn =>
    subst hst
    exact (delivered_head hq hio hcur).trans (kick_busy (Option.some_ne_none _))
  case wFailedAgain =>
    subst hst
    exact (programDelivered_writer hq hio hcur).trans ((congrArg kick
      ((writerDone_closingFailed_again (u := u.atJob _ _ _ _) rfl ht).trans (goClosing_eq rfl))).trans
        (kick_busy (Option.some_ne_none _)))
  case wRelocated =>
    subst hst
    exact (delivered_relocates hq hio hcur hok).trans ((congrArg kick (relocate_again (u := Units.atJob _ _ _ _ _) rfl hn)).trans
      (kick_busy (Option.some_ne_none _)))
  case wSingle =>
    subst hst
    exact (delivered_failed hq hio hcur hok hn).trans ((congrArg kick
      (recordFailed_single (u := Units.atJob _ _ _ _ _) (r := r.relocated) rfl hr)).trans (kick_busy (Option.some_ne_none _)))
  case wStage =>
    subst hst
    exact (delivered_failed hq hio hcur hok hn).trans (congrArg kick
      (stageFailed_setRw (r := r.relocated) hr hs hc))
  case wAborting =>
    subst hst
    exact (delivered_failed hq hio hcur hok hn).trans (congrArg kick
      (recordFailed_stage_aborting (u := Units.atJob _ _ _ _ _) (r := r.relocated) hr hs))
  case wCommit =>
    subst hst
    exact (delivered_failed hq hio hcur hok hn).trans (congrArg kick
      (recordFailed_commit (u := Units.atJob _ _ _ _ _) (r := r.relocated) hr hs))
  case wCommitOther =>
    subst hst
    exact (delivered_failed hq hio hcur hok hn).trans (congrArg kick
      (recordFailed_commit_other (u := Units.atJob _ _ _ _ _) (r := r.relocated) hr hs))
  case eCloseAgain => exact delivered_engineHead_asks hq hio hs (if_pos ht) rfl
  case ePrepare =>
    subst hr
    exact (delivered_engineHead hq hio hs).trans
      (engineHeadDone_newHead (u := u.engineIdle) hk hok (first_preparing hc) (program_preparing hc))
  case eOpen =>
    subst hr
    exact (delivered_engineHead hq hio hs).trans
      (engineHeadDone_newHead (u := u.engineIdle) hk hok (first_opening hc) rfl)
  case eAbandon =>
    subst hr
    exact (delivered_engineHead hq hio hs).trans ((engineHeadDone_shut (u := u.engineIdle) hk hok).trans
      ((followCopyAllocate_none (u := u.engineIdle.shut _ _ _ _ _) hk).trans
        (abandonPass_copy (u := u.engineIdle.shut _ _ _ _ _) hk)))
  case ePrepared => exact delivered_engineHead_asks hq hio hs rfl rfl
  case eUnprepared => exact delivered_engineHead_asks hq hio hs rfl rfl
  case eIsOpen => exact (delivered_engineHead hq hio hs).trans (engineClaim_copy (u := u.engineIdle) hk)
  case eNotOpen => exact delivered_engineHead_asks hq hio hs rfl rfl
  case eWithdrawn => exact (delivered_engineHead hq hio hs).trans (engineClaim_copy (u := u.engineIdle) hk)
  case eFailedAgain =>
    exact (programDelivered_engine hq hio).trans (engineProgramDone_closingFailed_again (k := k) (u := u.engineIdle) hk hs ht)
  case eFailed =>
    rw [programDelivered_engine hq hio, engineProgramDone_closingFailed (k := k) (u := u.engineIdle) hk hs hok,
      engineShut_shut (k := k) (u := u.engineIdle) hk, copyAgain_eq]
    rfl

end Sys2Proof.Machine
end


section
/-! SUPPORT. The READ of a port delivered (R36, R48, R177) and a drained port READY (R179). -/

namespace Sys2Proof.Machine

section PortRead
variable {p : Port} {r : ReadWork} {bytes : List Byte} {u : Units} {q : Request} {c : InHand}

theorem withOutcome_setPort {x : MasterPort} {o : Posting} :
    (u.setPort p x).withOutcome p o = u.setPort p { x with outcome := some o } := by
  rw [Units.withOutcome, Units.port_setPort_self, Units.setPort_setPort]

/-- The tests of R177 on the bytes read, one by one. -/
theorem readSound_iff : readSound r bytes = true ↔ (readHeader bytes).sound r.loc.cell = true
    ∧ (readHeader bytes).part = r.part ∧ (readHeader bytes).key = r.key ∧ (readHeader bytes).gen = r.gen
    ∧ crc (slice bytes 16 (readHeader bytes).length) = (readHeader bytes).payCheck := by
  simp only [readSound, payloadSound, Bool.and_eq_true, beq_iff_eq, and_assoc]

theorem outputFlags_staged (staged : Bool) : outputFlags staged false false false = if staged then 1 else 0 := by
  cases staged <;> rfl

/-- The READ a command waits for (R177). -/
theorem readDelivered_port (hq : q.who = .port p) (hs : (u.port p).stale ≠ some q) (hio : (u.port p).io = ⟨some q, true⟩) :
    readDelivered q bytes u = portReadDone p bytes (u.setPort p { u.port p with io := ⟨none, false⟩ }) := by
  have hawaits : (u.port p).io.awaits q = true := by rw [hio]; exact beq_self_eq_true _
  rw [readDelivered, hq]
  exact (if_neg hs).trans (if_pos hawaits)

/-- The READ of a dropped command (R36, R48). -/
theorem readDelivered_stale (hq : q.who = .port p) (hs : (u.port p).stale = some q) :
    readDelivered q bytes u = staleReadDone p q u := by
  rw [readDelivered, hq]
  exact if_pos hs

theorem portReadDone_sound (hc : (u.port p).inHand = some c) (hw : c.work = .reading r) (h : readSound r bytes = true) :
    portReadDone p bytes u
      = (present (.port p) (.unpin r.loc.seg) u).withOutcome p (readOutcome r c.params bytes) := by
  have hwork : workOf p u = some (.reading r) := by rw [workOf, hc]; exact congrArg some hw
  have hparams : paramsOf p (present (.port p) (.unpin r.loc.seg) u) = c.params := by
    rw [paramsOf, present_port, hc]
    rfl
  simp only [portReadDone, hwork, if_pos h, hparams]
  exact deliver_inHand hc

theorem portReadDone_unsound (hc : (u.port p).inHand = some c) (hw : c.work = .reading r) (h : ¬ readSound r bytes = true) :
    portReadDone p bytes u
      = (countFault (present (.port p) (.unpin r.loc.seg) u)).withOutcome p (Posting.code .integrity) := by
  have hwork : workOf p u = some (.reading r) := by rw [workOf, hc]; exact congrArg some hw
  simp only [portReadDone, hwork, if_neg h]
  exact deliver_inHand hc

end PortRead

/-- Settles O54, by the READ a command waits for, the READ of a dropped one, and the four things a draining port waits for. -/
theorem portReadsAreAnswered : Obligations.PortReadsAreAnswered := by
  intro p seg op bytes u q x
  refine ⟨fun c r hs hio hc hw => ?_, fun hs => readDelivered_stale rfl hs, fun hd hf hst hj hsl hcm => ?_⟩
  · intro h sound data
    have hport : ((u.setPort p { x with io := ⟨none, false⟩ }).port p).inHand = some c := by
      rw [Units.port_setPort_self]
      exact hc
    refine ⟨fun h => ?_, fun h => ?_⟩
    · rw [readDelivered_port rfl hs hio, portReadDone_sound hport hw (readSound_iff.2 h), readOutcome, outputFlags_staged]
      exact withOutcome_setPort (u := present (.port p) (.unpin r.loc.seg) u)
    · rw [readDelivered_port rfl hs hio, portReadDone_unsound hport hw (fun hn => h (readSound_iff.1 hn))]
      exact withOutcome_setPort (u := countFault (present (.port p) (.unpin r.loc.seg) u))
  · rw [settle_eq]
    exact if_pos ⟨hd, hf, hst, hj, hsl, hcm⟩

end Sys2Proof.Machine
end


section
/-! SUPPORT. The rows of the Notice Unit (R159 to R162, R165): what is taken, whom it reaches and where it is placed. -/

namespace Sys2Proof.Machine

/-- A row of the running part, what it makes of the units given. -/
theorem onUnits_next {f : Units → Units} {s : State} {v : Units} (hs : s.running = true) (hv : f s.units = v) :
    onUnits f s = .next (s.withUnits v) := hv ▸ onUnits_running hs

/-! ## A notice placed (R160 to R162) -/

/-- A notice the same as one already held is no placement of its own (R161). -/
theorem coalesces_iff {n q : Notice} : n.coalesces q = true
    ↔ n.kind = .keyChanged ∧ q.kind = .keyChanged ∧ q.part = n.part ∧ q.key = n.key := by
  simp only [Notice.coalesces, Bool.and_eq_true, beq_iff_eq, and_assoc]

/-- The first entry that coalesces is updated in place (R161). -/
theorem mergeInto_first {n q : Notice} {before after : List Notice} (hb : ∀ y ∈ before, n.coalesces y = false)
    (hq : n.coalesces q = true) : mergeInto n (before ++ q :: after) = before ++ n.merged q :: after := by
  induction before with
  | nil => exact if_pos hq
  | cons y ys ih =>
    obtain ⟨hy, hys⟩ := List.forall_mem_cons.1 hb
    rw [List.cons_append, mergeInto, if_neg (Bool.eq_false_iff.1 hy), ih hys]
    rfl

theorem place_merged {x : NoticePort} {n q : Notice} {before after : List Notice} (hx : x.queue = before ++ q :: after)
    (hb : ∀ y ∈ before, n.coalesces y = false) (hq : n.coalesces q = true) :
    x.place n = { x with queue := before ++ n.merged q :: after } := by
  have hany : x.queue.any n.coalesces = true := List.any_eq_true.2 ⟨q, by simp [hx], hq⟩
  rw [NoticePort.place, if_pos hany, hx, mergeInto_first hb hq]

theorem place_unmerged {x : NoticePort} {n : Notice} (h : ∀ q ∈ x.queue, n.coalesces q = false) :
    x.place n = if x.queue.length < 16 then { x with queue := x.queue ++ [n] }
      else { x with overflow := true, lost := min 255 (x.lost + 1) } :=
  if_neg (by simpa using h)

/-- A notice placed at each port it reaches, and nothing else (R160). -/
theorem placeFor_eq (sel : Port → Bool) (n : Notice) (u : Units) : placeFor sel n u
    = { u with nu := { u.nu with ports := u.nu.ports.map fun p x => if sel p then x.place n else x } } := by
  have hstep : ∀ (v : Units) (p : Port), (if sel p then placeNotice p n v else v)
      = v.setNotices p (if sel p then (v.notices p).place n else v.notices p) := by
    intro v p
    split
    · rfl
    · exact congrArg (fun x => { v with nu := { v.nu with ports := x } }) (Four.set_get v.nu.ports p).symm
  simp only [placeFor, allPorts, List.foldl_cons, List.foldl_nil, hstep]
  rfl

/-! ## The oldest post of a unit (R160) -/

theorem takeFirst_none {α : Type} {t : α → Bool} {xs : List α} (h : ∀ x ∈ xs, t x = false) : takeFirst t xs = none := by
  induction xs with
  | nil => rfl
  | cons x xs ih =>
    obtain ⟨hx, hxs⟩ := List.forall_mem_cons.1 h
    rw [takeFirst, if_neg (Bool.eq_false_iff.1 hx), ih hxs]
    rfl

theorem takeFirst_first {α : Type} {t : α → Bool} {before after : List α} {x : α} (hb : ∀ y ∈ before, t y = false)
    (hx : t x = true) : takeFirst t (before ++ x :: after) = some (x, before ++ after) := by
  induction before with
  | nil => exact if_pos hx
  | cons y ys ih =>
    obtain ⟨hy, hys⟩ := List.forall_mem_cons.1 hb
    rw [List.cons_append, takeFirst, if_neg (Bool.eq_false_iff.1 hy), ih hys]
    rfl

/-! ## The rows -/

section Rows
variable {u : Units}

theorem takeRemoval_none (h : u.nu.removals = []) : takeRemoval u = u := by
  simp only [takeRemoval, h]

theorem takeRemoval_oldest {r : List (Port × Nat)} {rest : List (List (Port × Nat))} (h : u.nu.removals = r :: rest) :
    takeRemoval u = { u with nu := { u.nu with
      removals := rest,
      ports := u.nu.ports.map fun p x => { x with watches := x.watches.filter fun w => !r.contains (p, w.part) } } } := by
  simp only [takeRemoval, h]

theorem takeReport_none (h : u.nu.reports = []) : takeReport u = u := by
  simp only [takeReport, h]

theorem takeReport_oldest {r : ChangeReport} {rest : List ChangeReport} (h : u.nu.reports = r :: rest) :
    takeReport u = { u with nu := { u.nu with
      reports := rest, ports := u.nu.ports.map fun p x => if r.reaches p u then x.place r.notice else x } } := by
  simp only [takeReport, h, placeFor_eq]
  rfl

theorem takePost_none {src : Poster} (h : ∀ x ∈ u.nu.posts, x.src ≠ src) : takePost src u = u := by
  simp only [takePost, takeFirst_none fun x hx => beq_false_of_ne (h x hx)]

theorem takePost_oldest {src : Poster} {before after : List Post} {x : Post} (h : u.nu.posts = before ++ x :: after)
    (hb : ∀ y ∈ before, y.src ≠ src) (hx : x.src = src) : takePost src u = { u with nu := { u.nu with
      posts := before ++ after, ports := u.nu.ports.map fun p y => if x.dest.has p u then y.place x.notice else y } } := by
  have hfirst : takeFirst (fun y => y.src == src) u.nu.posts = some (x, before ++ after) :=
    h ▸ takeFirst_first (fun y hy => beq_false_of_ne (hb y hy)) (beq_iff_eq.2 hx)
  simp only [takePost, hfirst, placeFor_eq]
  cases x.dest <;> rfl

/-- What a watch and the shadow say of a report, one by one (R160). -/
theorem reaches_iff {r : ChangeReport} {p : Port} : r.reaches p u = true ↔ p ≠ r.source
    ∧ (∃ w ∈ (u.notices p).watches, w.part = r.part ∧ (w.key = none ∨ w.key = some r.key))
    ∧ u.pu.shadow.mayRead p r.part = true := by
  simp only [ChangeReport.reaches, NoticePort.watching, Bool.and_eq_true, bne_iff_ne, List.any_eq_true, Bool.or_eq_true,
    beq_iff_eq, and_assoc]

end Rows

/-- Settles O57, row by row, and a notice placed by the queue it meets. -/
theorem noticesTake : Obligations.NoticesTake := by
  refine ⟨fun s hs => ⟨fun h => ?noRemoval, fun r rest h => ?removal, fun h => ?noReport, fun r rest h => ?report,
    fun src h => ?noPost, fun src before x after h hb hx => ?post⟩, fun x n => ⟨fun before q after hx hb hq => ?merged,
      fun hs hl => ?tail, fun hs hl => ?dropped⟩⟩
  case noRemoval => exact onUnits_next hs (takeRemoval_none h)
  case removal =>
    exact ⟨_, onUnits_next hs (takeRemoval_oldest h), rfl, rfl, rfl,
      fun p => Four.get_map ..⟩
  case noReport => exact onUnits_next hs (takeReport_none h)
  case report =>
    refine ⟨_, onUnits_next hs (takeReport_oldest h), rfl, rfl, rfl,
      fun p => ⟨fun hp => (Four.get_map ..).trans (if_pos (reaches_iff.2 hp)),
        fun hp => (Four.get_map ..).trans (if_neg fun hn => hp (reaches_iff.1 hn))⟩⟩
  case noPost => exact onUnits_next hs (takePost_none h)
  case post =>
    intro reached
    have hreach : ∀ p, x.dest.has p s.units = true ↔ reached p := by
      intro p
      simp only [reached]
      cases x.dest with
      | one q => exact beq_iff_eq
      | every => exact ⟨fun _ => trivial, fun _ => rfl⟩
      | authority => exact Iff.rfl
    exact ⟨_, onUnits_next hs (takePost_oldest h hb hx), rfl, rfl, rfl,
      fun p => ⟨fun hp => (Four.get_map ..).trans (if_pos ((hreach p).2 hp)),
        fun hp => (Four.get_map ..).trans (if_neg fun hn => hp ((hreach p).1 hn))⟩⟩
  case merged =>
    exact place_merged hx (fun y hy => Bool.eq_false_iff.2 fun hn => hb y hy (coalesces_iff.1 hn)) (coalesces_iff.2 hq)
  case tail =>
    exact (place_unmerged fun q hq => Bool.eq_false_iff.2 fun hn => hs q hq (coalesces_iff.1 hn)).trans (if_pos hl)
  case dropped =>
    exact (place_unmerged fun q hq => Bool.eq_false_iff.2 fun hn => hs q hq (coalesces_iff.1 hn)).trans
      (if_neg (Nat.not_lt.2 hl))

end Sys2Proof.Machine
end


section
/-! SUPPORT. The timers of a slot (R78, R82, R84) and the events of the Transaction Manager (R80, R96, R97). -/

namespace Sys2Proof.Machine

/-- A row of the running part that lets the Writer go on, what it makes of the units given. -/
theorem onUnitsKick_next {f : Units → Units} {s : State} {v : Units} (hs : s.running = true) (hv : f s.units = v) :
    onUnitsKick f s = .next (s.withUnits (kick v)) := hv ▸ onUnitsKick_running hs

/-- A row that finds nothing to do, the Writer having nothing to take either. -/
theorem onUnitsKick_same {f : Units → Units} {s : State} (hs : s.running = true) (hv : f s.units = s.units)
    (hw : s.writerSteady) : onUnitsKick f s = .next s :=
  (onUnitsKick_next hs hv).trans (congrArg (fun z => Host.Outcome.next (s.withUnits z)) (kick_steady hw rfl))

section Timers
variable {u : Units} {p : Port} {l : Lease}

theorem warnLease_armed (hs : (u.slot p).state = .opened) (hl : (u.slot p).lease = some l) (ha : l.armed = true) :
    warnLease p u = { u.setSlot p { u.slot p with lease := some { l with armed := false } } with
      clock := max u.clock l.warnAt
      nu := { u.nu with posts := u.nu.posts ++ [⟨.txn, .one p, { Notice.plain .leaseWarning with
        part := some (u.slot p).part, txn := some (u.slot p).number }⟩] } } := by
  simp only [warnLease, hl, if_pos (And.intro hs ha)]
  rfl

theorem warnLease_unarmed (h : ∀ l, (u.slot p).lease = some l → l.armed = false ∨ (u.slot p).state ≠ .opened) :
    warnLease p u = u := by
  cases hl : (u.slot p).lease with
  | none => simp only [warnLease, hl]
  | some l =>
    have hn : ¬ ((u.slot p).state = .opened ∧ l.armed = true) := fun hn =>
      (h l hl).elim (fun ha => Bool.false_ne_true (ha.symm.trans hn.2)) (fun hs => hs hn.1)
    simp only [warnLease, hl, if_neg hn]

theorem expireLease_opened (hs : (u.slot p).state = .opened) (hl : (u.slot p).lease = some l) :
    expireLease p u = abortHolder .expired p (reachTime l.deadline u) := by
  simp only [expireLease, hl, if_pos hs]

theorem expireLease_other (h : (u.slot p).state ≠ .opened ∨ (u.slot p).lease = none) : expireLease p u = u := by
  cases hl : (u.slot p).lease with
  | none => simp only [expireLease, hl]
  | some l => simp only [expireLease, hl, if_neg (h.resolve_right (by rw [hl]; exact Option.some_ne_none l))]

theorem expireWait_waiting {t : Nat} {c : InHand} (hs : (u.slot p).state = .waiting) (ht : (u.slot p).waitUntil = some t)
    (hc : (u.port p).inHand = some c) : expireWait p u
      = { ((setClaimQueue (u.slot p).part ((claimQueue (u.slot p).part u).filter (· != p)) u).setSlot p
            Slot.start).withOutcome p (Posting.code .claimTimeout) with clock := max u.clock t } := by
  simp only [expireWait, ht, if_pos hs]
  exact answer_inHand (u := (leaveQueue _ p (reachTime t u)).setSlot p Slot.start) hc

theorem expireWait_other (h : (u.slot p).state ≠ .waiting ∨ (u.slot p).waitUntil = none) : expireWait p u = u := by
  cases ht : (u.slot p).waitUntil with
  | none => simp only [expireWait, ht]
  | some t => simp only [expireWait, ht, if_neg (h.resolve_right (by rw [ht]; exact Option.some_ne_none t))]

/-- The units of an OPEN transaction that its lease ends, its ABORT_CLEAN not yet sent (R84). -/
def Units.expired (u : Units) (p : Port) (l : Lease) : Units :=
  { u.setSlot p (u.abortedSlot p .expired) with
    clock := max u.clock l.deadline
    iu := { u.iu with spaceWait := listWithout p u }
    ce := if u.stageWaits p then { u.ce with mode := if listWithout p u = [] then .normal else .urgent } else u.ce
    nu := { u.nu with posts := u.nu.posts ++ [⟨.txn, .one p, { Notice.plain .claimLost with
      part := some (u.slot p).part, txn := some (u.slot p).number, reason := some .expired }⟩] } }

theorem abortHolder_expired : abortHolder .expired p (reachTime l.deadline u)
    = if u.charging p then u.expired p l else sendJob (.abortClean p) (u.expired p l) := by
  have hcharge : chargeOut p (reachTime l.deadline u) = u.charging p := chargeOut_eq p _
  rw [abortHolder_eq, hcharge]
  cases u.charging p <;> rfl

end Timers

/-- Settles O55, by the slot's state and its lease or its wait. -/
theorem timersTake : Obligations.TimersTake := by
  intro p s hs u sl
  refine ⟨fun l h hl ha => onUnits_next hs (warnLease_armed h hl ha), fun h => onUnits_next hs (warnLease_unarmed h),
    fun l h hl => ⟨fun hc => ?_, fun hc => ?_⟩, fun h hw => onUnitsKick_same hs (expireLease_other h) hw,
    fun t c h ht hc => onUnits_next hs (expireWait_waiting h ht hc), fun h => onUnits_next hs (expireWait_other h)⟩
  · exact onUnitsKick_next hs ((expireLease_opened h hl).trans (abortHolder_expired.trans (if_neg hc)))
  · exact onUnitsKick_next hs ((expireLease_opened h hl).trans (abortHolder_expired.trans (if_pos hc)))

/-! ## Events (R80, R96, R97) -/

/-- An event counts by what stands, not by the events still listed. -/
theorem Units.EventTaken.of_listed {u v : Units} {ends waits : Port → Bool} {r : EndReason} {c : ResultCode}
    {es : List LockEvent} {rs : List Revocation}
    (h : (setRevocations rs (setLockEvents es u)).EventTaken ends waits r c v) : u.EventTaken ends waits r c v :=
  ⟨h.slots, h.ports, h.numbers, h.queues, h.index, h.engine, h.notices, h.writer, h.others⟩

section Events
variable {u : Units}

theorem takeLockEvent_none (h : u.tm.lockEvents = []) : takeLockEvent u = u := by
  simp only [takeLockEvent, h]

theorem takeLockEvent_oldest {e : LockEvent} {rest : List LockEvent} (h : u.tm.lockEvents = e :: rest) :
    takeLockEvent u = actLock e.part (setLockEvents rest u) := by
  simp only [takeLockEvent, h]

theorem takeRevocation_none (h : u.tm.revocations = []) : takeRevocation u = u := by
  simp only [takeRevocation, h]

theorem takeRevocation_oldest {r : Revocation} {rest : List Revocation} (h : u.tm.revocations = r :: rest) :
    takeRevocation u = actRevocation r (setRevocations rest u) := by
  simp only [takeRevocation, h]

end Events

/-- Settles O56, by the events listed. -/
theorem eventsTake : Obligations.EventsTake := by
  intro s hs u
  refine ⟨fun h hw => onUnitsKick_same hs (takeLockEvent_none h) hw, fun e rest h hq hone => ?_,
    fun h hw => onUnitsKick_same hs (takeRevocation_none h) hw, fun r rest h hq => ?_⟩
  · obtain ⟨htaken, hevents, hrevs⟩ := actLock_taken e.part (setLockEvents rest u) hq hone
    exact ⟨_, onUnitsKick_next hs (takeLockEvent_oldest h),
      Units.EventTaken.of_listed (es := rest) (rs := u.tm.revocations) htaken, hevents, hrevs⟩
  · obtain ⟨htaken, hevents, hrevs⟩ := actRevocation_taken r (setRevocations rest u) hq
    exact ⟨_, onUnitsKick_next hs (takeRevocation_oldest h),
      Units.EventTaken.of_listed (es := u.tm.lockEvents) (rs := rest) htaken, hrevs, hevents⟩

end Sys2Proof.Machine
end


section
/-! SUPPORT. The engine's own rows (R100, R104 to R106, R115 to R119): the choice of a victim, the start of a pass, the clearance
and the erase. -/

namespace Sys2Proof.Machine

/-! ## The choice of a victim (R104) -/

section Victims

/-- A candidate of SELECT, field by field. -/
theorem candidate_iff {e : SegEntry} : e.candidate = true ↔ e.state = .full ∧ 1 ≤ e.dead := by
  simp only [SegEntry.candidate, Bool.and_eq_true, beq_iff_eq, decide_eq_true_eq]

/-- The order of R104, its four keys one after the other. -/
def SegEntry.Before (x y : SegEntry) : Prop :=
  (x.suspect = true ∧ y.suspect = false)
  ∨ x.suspect = y.suspect ∧ (y.dead < x.dead
    ∨ x.dead = y.dead ∧ (x.eraseCount < y.eraseCount
      ∨ x.eraseCount = y.eraseCount ∧ x.seq.getD 0 < y.seq.getD 0))

theorem victimBefore_iff {x y : SegEntry} : x.victimBefore y = true ↔ x.Before y := by
  unfold SegEntry.victimBefore SegEntry.Before
  by_cases hs : x.suspect = y.suspect
  · have hno : ¬ (x.suspect = true ∧ y.suspect = false) := fun ⟨hx, hy⟩ => by simp [hs, hy] at hx
    rw [if_neg (by simpa using hs), or_iff_right hno, and_iff_right hs]
    by_cases hd : x.dead = y.dead
    · rw [if_neg (by simpa using hd)]
      by_cases hc : x.eraseCount = y.eraseCount
      · rw [if_neg (by simpa using hc), decide_eq_true_eq]
        omega
      · rw [if_pos hc, decide_eq_true_eq]
        omega
    · rw [if_pos hd, decide_eq_true_eq]
      omega
  · rw [if_pos (by simpa using hs), or_iff_left fun h => hs h.1]
    cases hx : x.suspect <;> cases hy : y.suspect <;> simp_all

theorem SegEntry.Before.irrefl {x : SegEntry} : ¬ x.Before x := by
  unfold SegEntry.Before
  cases x.suspect <;> simp

theorem SegEntry.Before.trans {x y z : SegEntry} (hxy : x.Before y) (hyz : y.Before z) : x.Before z := by
  unfold SegEntry.Before at *
  cases hx : x.suspect <;> cases hy : y.suspect <;> cases hz : z.suspect <;> simp [hx, hy, hz] at hxy hyz ⊢ <;> omega

/-- SELECT without a candidate finds no victim. -/
theorem selectVictim_none {xs : List (SegEntry × Nat)} (h : ∀ x ∈ xs, x.1.candidate = false) : selectVictim xs = none := by
  induction xs with
  | nil => rfl
  | cons x xs ih =>
    obtain ⟨hx, hxs⟩ := List.forall_mem_cons.1 h
    simp only [selectVictim, ih hxs, hx, Bool.false_eq_true, if_false]

/-- The victim of SELECT: a candidate, none of them before it. -/
def IsVictim (xs : List (SegEntry × Nat)) (y : SegEntry × Nat) : Prop :=
  y ∈ xs ∧ y.1.candidate = true ∧ ∀ x ∈ xs, x.1.candidate = true → ¬ x.1.Before y.1

theorem selectVictim_isVictim {xs : List (SegEntry × Nat)} (h : ∃ x ∈ xs, x.1.candidate = true) :
    ∃ y, selectVictim xs = some y ∧ IsVictim xs y := by
  induction xs with
  | nil => simp at h
  | cons x xs ih =>
    by_cases hrest : ∃ x ∈ xs, x.1.candidate = true
    · obtain ⟨y, hy, hmem, hcand, hfirst⟩ := ih hrest
      by_cases hx : x.1.candidate = true ∧ x.1.victimBefore y.1 = true
      · refine ⟨x, ?_, List.mem_cons_self, hx.1, List.forall_mem_cons.2 ⟨fun _ => SegEntry.Before.irrefl, fun z hz hc hb => ?_⟩⟩
        · simp only [selectVictim, hy, hx.1, hx.2, Bool.and_self, if_true]
        · exact hfirst z hz hc (hb.trans (victimBefore_iff.1 hx.2))
      · refine ⟨y, ?_, List.mem_cons_of_mem _ hmem, hcand, List.forall_mem_cons.2 ⟨fun hc hb => hx ⟨hc, victimBefore_iff.2 hb⟩,
          hfirst⟩⟩
        simp only [selectVictim, hy]
        exact if_neg (by rw [Bool.and_eq_true]; exact hx)
    · have hnone : selectVictim xs = none :=
        selectVictim_none fun z hz => Bool.eq_false_iff.2 fun hc => hrest ⟨z, hz, hc⟩
      have hx : x.1.candidate = true := by
        obtain ⟨z, hz, hc⟩ := h
        rcases List.mem_cons.1 hz with rfl | hz
        · exact hc
        · exact absurd ⟨z, hz, hc⟩ hrest
      refine ⟨x, ?_, List.mem_cons_self, hx, List.forall_mem_cons.2 ⟨fun _ => SegEntry.Before.irrefl, fun z hz hc => ?_⟩⟩
      · simp only [selectVictim, hnone, hx, if_true]
      · exact absurd ⟨z, hz, hc⟩ hrest

/-- SELECT on the segment table. -/
theorem selectVictim_segs {iu : IndexUnit} (h : ∃ e ∈ iu.segs, e.candidate = true) :
    ∃ seg, selectVictim (iu.segs.zipIdx 2) = some (iu.seg seg, seg) ∧ 2 ≤ seg ∧ seg - 2 < iu.segs.length
      ∧ (iu.seg seg).candidate = true ∧ ∀ e ∈ iu.segs, e.candidate = true → ¬ e.Before (iu.seg seg) := by
  have hmem : ∀ e ∈ iu.segs, ∃ n, (e, n) ∈ iu.segs.zipIdx 2 := fun e he => by
    obtain ⟨k, hk, rfl⟩ := List.getElem_of_mem he
    exact ⟨2 + k, List.mk_add_mem_zipIdx_iff_getElem?.2 (List.getElem?_eq_getElem hk)⟩
  obtain ⟨e, he, hc⟩ := h
  obtain ⟨n, hn⟩ := hmem e he
  obtain ⟨⟨y, seg⟩, hsel, hin, hcand, hfirst⟩ := selectVictim_isVictim ⟨(e, n), hn, hc⟩
  obtain ⟨hle, hlt, rfl⟩ := IndexUnit.mem_numbered.1 hin
  exact ⟨seg, hsel, hle, hlt, hcand, fun e he hc => by
    obtain ⟨n, hn⟩ := hmem e he
    exact hfirst (e, n) hn hc⟩

end Victims

/-! ## The start of a pass (R100, R115, R119) -/

section Start
variable {u : Units}

theorem startPass_busy (h : u.ce.state ≠ .idle ∨ u.me.phase ≠ .done) : startPass u = u := if_pos h

theorem startPass_idle (hs : u.ce.state = .idle) (hp : u.me.phase = .done) : startPass u =
    if u.ce.victim.isSome ∧ u.ce.source = .resumed then startCopy u
    else match u.ce.pendingErase with
      | seg :: rest => startEraseOnly seg rest u
      | [] =>
        if u.ce.victim.isSome then if u.ce.restart then startCopy u else u
        else if demand u then startSelect u
        else u :=
  if_neg (not_or.2 ⟨not_not.2 hs, not_not.2 hp⟩)

theorem startPass_resumed (hs : u.ce.state = .idle) (hp : u.me.phase = .done) (hv : u.ce.victim ≠ none)
    (hr : u.ce.source = .resumed) : startPass u = startCopy u := by
  rw [startPass_idle hs hp, if_pos ⟨Option.isSome_iff_ne_none.2 hv, hr⟩]

theorem startPass_eraseOnly {seg : Nat} {rest : List Nat} (hs : u.ce.state = .idle) (hp : u.me.phase = .done)
    (hr : ¬ (u.ce.victim ≠ none ∧ u.ce.source = .resumed)) (he : u.ce.pendingErase = seg :: rest) :
    startPass u = startEraseOnly seg rest u := by
  rw [startPass_idle hs hp, if_neg (by rwa [Option.isSome_iff_ne_none])]
  simp only [he]

theorem startPass_held (hs : u.ce.state = .idle) (hp : u.me.phase = .done) (hv : u.ce.victim ≠ none)
    (hr : u.ce.source ≠ .resumed) (he : u.ce.pendingErase = []) :
    startPass u = if u.ce.restart then startCopy u else u := by
  rw [startPass_idle hs hp, if_neg fun h => hr h.2]
  simp only [he, if_pos (Option.isSome_iff_ne_none.2 hv)]

theorem startPass_free (hs : u.ce.state = .idle) (hp : u.me.phase = .done) (hv : u.ce.victim = none)
    (he : u.ce.pendingErase = []) : startPass u = if demand u then startSelect u else u := by
  have hnone : ¬ u.ce.victim.isSome = true := by rw [hv]; exact Bool.false_ne_true
  rw [startPass_idle hs hp, if_neg fun h => hnone h.1]
  simp only [he, if_neg hnone]

/-- The demand of R100 with nothing left to erase. -/
theorem demand_iff (he : u.ce.pendingErase = []) :
    demand u = true ↔ u.ce.lowRun = true ∨ u.ce.owed ≠ [] ∨ u.iu.spaceWait ≠ [] := by
  simp [demand, he, or_assoc]

theorem startSelect_none (h : ∀ e ∈ u.iu.segs, e.candidate = false) : startSelect u = present .engine .noVictim
    (u.setCe { u.ce with kind := some .victim, state := .select, step := .selectNone, lowRun := false }) := by
  have hnone : selectVictim (u.iu.segs.zipIdx 2) = none :=
    selectVictim_none fun x hx => h x.1 (List.fst_mem_of_mem_zipIdx hx)
  rw [startSelect, show selectVictim (u.iu.segs.zipIdx Config.firstData) = none from hnone]
  rfl

theorem startSelect_some {e : SegEntry} {seg : Nat} (h : selectVictim (u.iu.segs.zipIdx 2) = some (e, seg)) :
    startSelect u = u.setCe { u.ce with
      kind := some .victim, victim := some seg, source := .selected, scan := 1, attempts := 0, state := .mark,
      step := .marking 1,
      io := ⟨some ⟨.engine, seg, .program 0 (0xF0 :: List.replicate 15 0xFF)⟩, false⟩ } := by
  rw [startSelect, show selectVictim (u.iu.segs.zipIdx Config.firstData) = some (e, seg) from h]
  rfl

/-- The engine that copies again: the pass of a victim held or resumed (R99, R115). -/
def CompactionEngine.copying (ce : CompactionEngine) : CompactionEngine :=
  { ce with kind := some .victim, state := .copy, attempts := 0 }

theorem startCopy_scan (ht : u.ce.todo = none) : startCopy u = scanNext (u.setCe u.ce.copying) :=
  if_neg (by rw [ht]; exact Bool.false_ne_true)

theorem startCopy_sweep {ns : List Named} (ht : u.ce.todo = some ns) : startCopy u = sweepNext (u.setCe u.ce.copying) :=
  if_pos (by rw [ht]; rfl)

end Start

/-! ## Clearance and the erase (R116) -/

section Clearance
variable {u : Units}

/-- What keeps the Writer in a segment (R116). -/
theorem writerAt_iff {seg : Nat} : writerAt seg u = true ↔ (∃ r, u.rw.io.want = some r ∧ r.seg = seg)
    ∨ ∃ p part key txn l, Job.removal p part key txn l ∈ u.rw.queue ∧ l.seg = seg := by
  have hjob : ∀ j : Job, Job.removesAt seg j = true ↔ ∃ p part key txn l, j = .removal p part key txn l ∧ l.seg = seg := by
    intro j
    cases j <;> simp [Job.removesAt]
  simp only [writerAt, Bool.or_eq_true, List.any_eq_true, hjob, Option.any_eq_true, beq_iff_eq]
  refine or_congr Iff.rfl ⟨?_, ?_⟩
  · rintro ⟨_, hj, p, part, key, txn, l, rfl, hl⟩
    exact ⟨p, part, key, txn, l, hj, hl⟩
  · rintro ⟨p, part, key, txn, l, hj, hl⟩
    exact ⟨_, hj, p, part, key, txn, l, rfl, hl⟩

theorem giveClearance_given (hs : u.ce.step = .waitErase) (h : ¬ writerAt (victimOf u) u = true) :
    giveClearance u = u.setCe { u.ce with cleared := true } := if_pos ⟨hs, h⟩

theorem giveClearance_refused (h : u.ce.step ≠ .waitErase ∨ writerAt (victimOf u) u = true) : giveClearance u = u :=
  if_neg fun ⟨hs, hw⟩ => h.elim (fun hn => hn hs) hw

theorem eraseVictim_ready (hs : u.ce.step = .waitErase) (hc : u.ce.cleared = true) (hp : (u.iu.seg (victimOf u)).pins = 0) :
    eraseVictim u = u.setCe { u.ce with
      attempts := 1, step := .erasing, io := ⟨some ⟨.engine, victimOf u, .erase⟩, false⟩ } := if_pos ⟨hs, hc, hp⟩

theorem eraseVictim_waits (h : u.ce.step ≠ .waitErase ∨ u.ce.cleared = false ∨ (u.iu.seg (victimOf u)).pins ≠ 0) :
    eraseVictim u = u :=
  if_neg fun ⟨hs, hc, hp⟩ => h.elim (fun hn => hn hs) (·.elim (fun hn => Bool.false_ne_true (hn.symm.trans hc)) fun hn => hn hp)

end Clearance

/-! ## The programs and the ERASE of the victim (R106, R116 to R118) -/

section Delivered
variable {q : Request} {u : Units} {ok : Bool}

theorem eraseDelivered_engine (hq : q.who = .engine) (hio : u.ce.io = ⟨some q, true⟩) :
    eraseDelivered q ok u = engineEraseDone ok u.engineIdle := by
  have hawaits : u.ce.io.awaits q = true := by rw [hio]; exact beq_self_eq_true _
  rw [eraseDelivered, hq]
  exact if_pos hawaits

theorem engineProgramDone_marking {tries : Nat} (hs : u.ce.step = .marking tries) : engineProgramDone ok u
    = if ok then engineClaim .reclaimingClaim (.reclaiming (victimOf u)) u
      else if tries < 3 then engineMark (.marking (tries + 1)) (victimOf u) 0 (segPattern .reclaiming) u
      else engineClaim .reclaimingClaim (.reclaiming (victimOf u)) (engineSuspect (victimOf u) u) := by
  simp only [engineProgramDone, hs]

theorem engineProgramDone_preparing (hs : u.ce.step = .preparing) : engineProgramDone ok u
    = if ok then engineClaim .preparedClaim (.prepared (victimOf u) (raisedCount u)) u else withdrawVictim u := by
  simp only [engineProgramDone, hs]

theorem engineProgramDone_withdrawing (hs : u.ce.step = .withdrawing) : engineProgramDone ok u
    = engineClaim .badVictimClaim (.close (victimOf u) .bad) u := by
  simp only [engineProgramDone, hs]

theorem copyNames_none (h : u.ce.copy = none) : copyNames u = (none, none) := by
  rw [copyNames, h]

end Delivered

/-- Settles O58, row by row of R100, then the rows of R116 and the programs of the victim. -/
theorem enginePassRows : Obligations.EnginePassRows := by
  refine ⟨?_, fun q v u hq hio hv => ?_⟩
  · intro s hs u ce v resumed wanted copy copies candidate precedes
    have hcopies : startPass u = startCopy u → copies := by
      intro h
      refine ⟨fun ht hlt => ?_, fun ht hle => ?_, fun n ns ht => ?_, fun ht hu => ?_⟩
      · exact onUnits_next hs (h.trans ((startCopy_scan ht).trans (scanNext_within (u := u.setCe u.ce.copying) hlt)))
      · exact onUnits_next hs (h.trans ((startCopy_scan ht).trans (scanNext_complete (u := u.setCe u.ce.copying) hle)))
      · exact onUnits_next hs (h.trans ((startCopy_sweep ht).trans (sweepNext_more (u := u.setCe u.ce.copying) ht)))
      · exact onUnits_next hs (h.trans ((startCopy_sweep ht).trans ((sweepNext_last (u := u.setCe u.ce.copying) ht).trans
          (if_neg (by rw [show (u.setCe u.ce.copying).ce.unread = false from hu]; exact Bool.false_ne_true)))))
    refine ⟨fun h => onUnits_next hs (startPass_busy h), fun hi hp => ⟨fun ⟨hv, hr⟩ => hcopies (startPass_resumed hi hp hv hr),
      fun seg rest hr he => onUnits_next hs (startPass_eraseOnly hi hp hr he),
      fun hv hr he hre => hcopies ((startPass_held hi hp hv hr he).trans (if_pos hre)),
      fun hv hr he hre => onUnits_next hs ((startPass_held hi hp hv hr he).trans (if_neg (Bool.eq_false_iff.1 hre))),
      fun hv he hw => onUnits_next hs ((startPass_free hi hp hv he).trans (if_neg fun hd => hw ((demand_iff he).1 hd))),
      fun hv he hw hc => ?none, fun hv he hw hc => ?found⟩, ?clearance, ?erase, ?noErase⟩
    case none =>
      refine onUnits_next hs ((startPass_free hi hp hv he).trans ((if_pos ((demand_iff he).2 hw)).trans (startSelect_none ?_)))
      exact fun e hm => Bool.eq_false_iff.2 fun h => hc e hm (candidate_iff.1 h)
    case found =>
      obtain ⟨e, hm, hcand⟩ := hc
      obtain ⟨seg, hsel, hle, hlt, hseg, hfirst⟩ := selectVictim_segs ⟨e, hm, candidate_iff.2 hcand⟩
      exact ⟨seg, hle, hlt, candidate_iff.1 hseg, fun e hm hc => hfirst e hm (candidate_iff.2 hc),
        onUnits_next hs ((startPass_free hi hp hv he).trans ((if_pos ((demand_iff he).2 hw)).trans (startSelect_some hsel)))⟩
    case clearance =>
      exact ⟨fun h hn => onUnits_next hs (giveClearance_given h fun hw => hn (writerAt_iff.1 hw)),
        fun h => onUnits_next hs (giveClearance_refused (h.imp_right writerAt_iff.2))⟩
    case erase => exact fun h hc hp => onUnits_next hs (eraseVictim_ready h hc hp)
    case noErase => exact fun h => onUnits_next hs (eraseVictim_waits h)
  · intro ce asks claims withdrawn suspect raised
    have hvictim : victimOf u.engineIdle = v := congrArg (fun x : Option Nat => x.getD 0) hv
    have hprog : ∀ ok, programDelivered q ok u = engineProgramDone ok u.engineIdle := fun ok => programDelivered_engine hq hio
    have herase : ∀ ok, eraseDelivered q ok u = engineEraseDone ok u.engineIdle := fun ok => eraseDelivered_engine hq hio
    refine ⟨fun tries h => ⟨?marked, fun ht => ?again, fun ht hc => ?short⟩,
      fun h => ⟨?erased, fun ha => ?twice, fun ha => ?failed⟩,
      fun h => ⟨?prepared, ?unprepared⟩, fun ok h => ?withdrawn⟩
    case marked =>
      rw [hprog, engineProgramDone_marking (u := u.engineIdle) h, hvictim]
      rfl
    case again =>
      rw [hprog, engineProgramDone_marking (u := u.engineIdle) h, hvictim, if_neg Bool.false_ne_true, if_pos ht]
      rfl
    case short =>
      rw [hprog, engineProgramDone_marking (u := u.engineIdle) h, hvictim, if_neg Bool.false_ne_true,
        if_neg (Nat.not_lt.2 ht), engineSuspect_eq, copyNames_none (u := u.engineIdle) hc]
      rfl
    case erased =>
      rw [herase, engineEraseDone, if_pos rfl, hvictim]
      rfl
    case twice =>
      have hagain : engineEraseDone false u.engineIdle = presentErase 2 u.engineIdle := if_pos ha
      rw [herase, hagain, presentErase, modCe, hvictim]
      exact congrArg (fun st => u.setCe { u.ce with
        attempts := 2, step := st, io := ⟨some ⟨.engine, v, .erase⟩, false⟩ }) h.symm
    case failed =>
      have hlast : engineEraseDone false u.engineIdle = withdrawVictim u.engineIdle := if_neg (Nat.not_lt.2 ha)
      rw [herase, hlast, withdrawVictim, hvictim]
      rfl
    case prepared =>
      rw [hprog, engineProgramDone_preparing (u := u.engineIdle) h, if_pos rfl, raisedCount, hvictim]
      rfl
    case unprepared =>
      rw [hprog, engineProgramDone_preparing (u := u.engineIdle) h, if_neg Bool.false_ne_true, withdrawVictim, hvictim]
      rfl
    case withdrawn =>
      rw [hprog, engineProgramDone_withdrawing (u := u.engineIdle) h, hvictim]
      rfl


end Sys2Proof.Machine
end


section
/-! SUPPORT. The rows of a pass at the Index Unit (R53, R101, R102, R105, R106, R115, R117, R118): RECLAIMING, ERASED, PREPARED,
and the pass that finds or keeps no victim. -/

namespace Sys2Proof.Machine

/-! ## RECLAIMING, ERASED and PREPARED (R106, R117, R118) -/

section Prepared
variable {u : Units} {seg count : Nat}

theorem engineMarked_eq : engineMarked u = u.setCe { u.ce with
    state := .copy, scan := 1, todo := none, step := .scanRead, reading := ⟨u.ce.victim.getD 0, 1⟩,
    io := ⟨some ⟨.engine, u.ce.victim.getD 0, .read 1 1⟩, false⟩ } :=
  scanNext_within (u := modCe (fun c => { c with state := .copy, scan := 1, todo := none }) u) (by decide : 1 < 128)

theorem engineErased_eq : engineErased u = u.setCe { u.ce with
    state := .prepare, step := .preparing,
    io := ⟨some ⟨.engine, u.ce.victim.getD 0, .program 0 (prepareProgram
      (min 16777215 ((u.iu.seg (u.ce.victim.getD 0)).eraseCount + 1)))⟩, false⟩ } := rfl

/-- The comparison of a risen erased count with the mark (R54, R101). -/
theorem compareRise_eq : compareRise u = { u with
    iu := { u.iu with armed := u.iu.armed || decide (u.pu.shadow.lowWater < u.iu.erasedCount) }
    ce := { u.ce with lowRun := u.ce.lowRun || decide (u.iu.erasedCount ≤ u.pu.shadow.lowWater) } } := by
  have hcount : ∀ b, IndexUnit.erasedCount { u.iu with armed := b } = u.iu.erasedCount := fun _ => rfl
  unfold compareRise compareRun
  by_cases hle : u.iu.erasedCount ≤ u.pu.shadow.lowWater
  · have hlt : ¬ u.pu.shadow.lowWater < u.iu.erasedCount := by omega
    simp [hle, hlt, Units.setCe]
  · have hlt : u.pu.shadow.lowWater < u.iu.erasedCount := by omega
    simp [hle, hlt, hcount, Units.setIu]

/-- The waiting jobs rejoin the Writer's queue where more than 2 segments are erased (R53). -/
theorem freed_eq (u : Units) : ∃ queue list mode,
    (if 2 < u.iu.erasedCount then releaseWaiting u else u) = { u with
      rw := { u.rw with queue := queue }, iu := { u.iu with spaceWait := list }, ce := { u.ce with mode := mode } }
    ∧ (2 < u.iu.erasedCount → queue = u.rw.queue ++ u.iu.spaceWait.map (fun x => Job.record x.job) ∧ list = [] ∧ mode = .normal)
    ∧ (u.iu.erasedCount ≤ 2 → queue = u.rw.queue ∧ list = u.iu.spaceWait ∧ mode = u.ce.mode) := by
  by_cases h : 2 < u.iu.erasedCount
  · exact ⟨_, [], .normal, if_pos h, fun _ => ⟨rfl, rfl, rfl⟩, fun hn => absurd h (Nat.not_lt.2 hn)⟩
  · exact ⟨u.rw.queue, u.iu.spaceWait, u.ce.mode, if_neg h, fun hn => absurd hn h, fun _ => ⟨rfl, rfl, rfl⟩⟩

end Prepared

/-! ## The end of a job that waits for space (R53, R88, R94) -/

section Charges
variable {p q : Port} {key : Nat} {cs : List ChargeEntry}

/-- The charges of another port stay as they are. -/
theorem filter_dropFirst_other (h : p ≠ q) :
    (IndexUnit.dropFirst p key cs).filter (fun e => e.port == q) = cs.filter fun e => e.port == q := by
  induction cs with
  | nil => rfl
  | cons c cs ih =>
    rw [IndexUnit.dropFirst]
    split
    · next hc =>
      have hport : c.port ≠ q := by
        simp only [Bool.and_eq_true, beq_iff_eq] at hc
        exact fun hn => h (hc.1.2.symm.trans hn)
      exact (List.filter_cons_of_neg (by simpa using hport)).symm
    · rw [List.filter_cons, List.filter_cons, ih]

/-- The change dropped is one of the port's own charges. -/
theorem filter_dropFirst_self : (IndexUnit.dropFirst p key cs).filter (fun e => e.port == p)
    = IndexUnit.dropFirst p key (cs.filter fun e => e.port == p) := by
  induction cs with
  | nil => rfl
  | cons c cs ih =>
    by_cases hport : c.port = p
    · rw [List.filter_cons_of_pos (by simpa using hport), IndexUnit.dropFirst, IndexUnit.dropFirst]
      split
      · rfl
      · rw [List.filter_cons_of_pos (by simpa using hport), ih]
    · have hpass : (c.staged && c.port == p && c.key == key) = false := by simp [hport]
      rw [List.filter_cons_of_neg (by simpa using hport), IndexUnit.dropFirst, if_neg (by rw [hpass]; exact Bool.false_ne_true),
        List.filter_cons_of_neg (by simpa using hport), ih]

theorem filter_dropLast_other (h : p ≠ q) :
    (IndexUnit.dropLast p key cs).filter (fun e => e.port == q) = cs.filter fun e => e.port == q := by
  rw [IndexUnit.dropLast, List.filter_reverse, filter_dropFirst_other h, List.filter_reverse, List.reverse_reverse]

theorem filter_dropLast_self : (IndexUnit.dropLast p key cs).filter (fun e => e.port == p)
    = IndexUnit.dropLast p key (cs.filter fun e => e.port == p) := by
  rw [IndexUnit.dropLast, List.filter_reverse, filter_dropFirst_self, List.filter_reverse, IndexUnit.dropLast]

theorem filter_dropSingle_other (h : p ≠ q) :
    (IndexUnit.dropSingle p cs).filter (fun e => e.port == q) = cs.filter fun e => e.port == q := by
  rw [IndexUnit.dropSingle, List.filter_filter]
  refine List.filter_congr fun e _ => ?_
  by_cases he : e.port = q
  · simp [he, Ne.symm h]
  · simp [he]

theorem filter_dropSingle_self : (IndexUnit.dropSingle p cs).filter (fun e => e.port == p)
    = (cs.filter fun e => e.port == p).filter (·.staged) := by
  rw [IndexUnit.dropSingle, List.filter_filter, List.filter_filter]
  refine List.filter_congr fun e _ => ?_
  cases e.staged <;> simp

end Charges

section Jobs
variable {u w : Units} {r : RecordJob} {q : Port}

/-- What the slot of a job that leaves the space wait list becomes (R88, R94). -/
def RecordJob.slotAfter (r : RecordJob) (u : Units) (sl : Slot) : Slot :=
  match r.role with
  | .single => sl
  | .stage => { sl with stage := none }
  | .commit => { sl with state := .opened, lease := some (newLease (leaseUnits sl.part u) u) }

/-- What the charges become (R53). -/
def RecordJob.chargesAfter (r : RecordJob) (cs : List ChargeEntry) : List ChargeEntry :=
  match r.role with
  | .single => IndexUnit.dropSingle r.port cs
  | .stage => IndexUnit.dropLast r.port r.key cs
  | .commit => cs

/-- The charges of one port. -/
def chargesOf (q : Port) (cs : List ChargeEntry) : List ChargeEntry := cs.filter fun e => e.port == q

theorem chargesAfter_other {cs : List ChargeEntry} (h : r.port ≠ q) : chargesOf q (r.chargesAfter cs) = chargesOf q cs := by
  unfold RecordJob.chargesAfter
  split
  · exact filter_dropSingle_other h
  · exact filter_dropLast_other h
  · rfl

/-- A job on the space wait list whose command is served, in the slot state of its role. -/
def Units.jobServed (u : Units) (r : RecordJob) : Prop :=
  (∃ c, (u.port r.port).inHand = some c ∧ (u.port r.port).draining = false)
  ∧ (r.role = .stage → (u.slot r.port).state = .opened) ∧ (r.role = .commit → (u.slot r.port).state = .committing)

/-- The units with a waiting job ended NO_SPACE. -/
def Units.jobEnded (u : Units) (r : RecordJob) : Units :=
  { u with
    ports := u.ports.set r.port { u.port r.port with outcome := some (Posting.code .noSpace) }
    tm := { u.tm with slots := u.tm.slots.set r.port (r.slotAfter u (u.slot r.port)) }
    iu := { u.iu with charges := r.chargesAfter u.iu.charges } }

theorem endSpaceJob_served (h : u.jobServed r) : endSpaceJob .noSpace r u = u.jobEnded r := by
  obtain ⟨⟨c, hc, hd⟩, hstage, hcommit⟩ := h
  have hsettle : ∀ v : Units, (v.port r.port).draining = false → (v.port r.port).inHand = some c →
      settle r.port (answer r.port .noSpace v) = v.withOutcome r.port (Posting.code .noSpace) := by
    intro v hd hc
    rw [answer_inHand hc]
    exact settle_steady r.port _ (by rw [Units.withOutcome, Units.port_setPort_self]; exact hd)
  have hsame : u.tm.slots.set r.port (u.slot r.port) = u.tm.slots := Four.set_get ..
  unfold Units.jobEnded RecordJob.slotAfter RecordJob.chargesAfter
  cases hr : r.role with
  | single =>
    refine ((endSpaceJob_single hr).trans (hsettle (u.setIu { u.iu with
      charges := IndexUnit.dropSingle r.port u.iu.charges }) hd hc)).trans ?_
    dsimp only
    rw [hsame]
    rfl
  | stage =>
    rw [endSpaceJob_stage hr (hstage hr)]
    exact hsettle (Units.setSlot _ _ _) hd hc
  | commit =>
    rw [endSpaceJob_commit hr (hcommit hr) hd]
    exact hsettle (Units.setSlot _ _ _) hd hc

theorem jobEnded_port_self : (u.jobEnded r).port r.port = { u.port r.port with outcome := some (Posting.code .noSpace) } :=
  Four.get_set_self ..

theorem jobEnded_port_other (h : r.port ≠ q) : (u.jobEnded r).port q = u.port q := Four.get_set_of_ne _ h _

theorem jobEnded_slot_self : (u.jobEnded r).slot r.port = r.slotAfter u (u.slot r.port) := Four.get_set_self ..

theorem jobEnded_slot_other (h : r.port ≠ q) : (u.jobEnded r).slot q = u.slot q := Four.get_set_of_ne _ h _

/-- The waiting jobs `js` ended NO_SPACE, each at its own port, and nothing else. -/
structure Units.JobsEnded (u : Units) (js : List RecordJob) (w : Units) : Prop where
  frame : w = { u with
    ports := w.ports, tm := { u.tm with slots := w.tm.slots }, iu := { u.iu with charges := w.iu.charges } }
  ended : ∀ r ∈ js, w.port r.port = { u.port r.port with outcome := some (Posting.code .noSpace) }
    ∧ w.slot r.port = r.slotAfter u (u.slot r.port)
    ∧ chargesOf r.port w.iu.charges = chargesOf r.port (r.chargesAfter u.iu.charges)
  others : ∀ q, (∀ r ∈ js, r.port ≠ q) → w.port q = u.port q ∧ w.slot q = u.slot q
    ∧ chargesOf q w.iu.charges = chargesOf q u.iu.charges

/-- What a job's end leaves of the other jobs. -/
theorem Units.jobServed.jobEnded {x : RecordJob} (h : u.jobServed x) (hne : r.port ≠ x.port) : (u.jobEnded r).jobServed x := by
  unfold Units.jobServed
  rw [jobEnded_port_other hne, jobEnded_slot_other hne]
  exact h

/-- What a job's end makes of its own port's charges rests on those charges alone. -/
theorem chargesAfter_congr {cs ds : List ChargeEntry} (h : chargesOf r.port cs = chargesOf r.port ds) :
    chargesOf r.port (r.chargesAfter cs) = chargesOf r.port (r.chargesAfter ds) := by
  unfold chargesOf at h ⊢
  rw [RecordJob.chargesAfter, RecordJob.chargesAfter]
  cases r.role with
  | single => rw [filter_dropSingle_self, filter_dropSingle_self, h]
  | stage => rw [filter_dropLast_self, filter_dropLast_self, h]
  | commit => exact h

theorem jobs_ended {js : List RecordJob} (hnd : (js.map (·.port)).Nodup) (h : ∀ r ∈ js, u.jobServed r) :
    u.JobsEnded js (js.foldl (fun u r => endSpaceJob .noSpace r u) u) := by
  induction js generalizing u with
  | nil => exact ⟨rfl, fun _ hr => absurd hr List.not_mem_nil, fun _ _ => ⟨rfl, rfl, rfl⟩⟩
  | cons r js ih =>
    obtain ⟨hr, hjs⟩ := List.forall_mem_cons.1 h
    obtain ⟨hnew, hnd⟩ := List.nodup_cons.1 hnd
    have hne : ∀ x ∈ js, r.port ≠ x.port := fun x hx hn => hnew (List.mem_map.2 ⟨x, hx, hn.symm⟩)
    rw [List.foldl_cons, endSpaceJob_served hr]
    obtain ⟨hframe, hended, hothers⟩ := ih hnd fun x hx => (hjs x hx).jobEnded (hne x hx)
    refine ⟨hframe, List.forall_mem_cons.2 ⟨?_, fun x hx => ?_⟩, fun q hq => ?_⟩
    · obtain ⟨hport, hslot, hcharges⟩ := hothers r.port fun x hx => (hne x hx).symm
      exact ⟨hport.trans jobEnded_port_self, hslot.trans jobEnded_slot_self, hcharges⟩
    · obtain ⟨hport, hslot, hcharges⟩ := hended x hx
      rw [jobEnded_port_other (hne x hx)] at hport
      rw [jobEnded_slot_other (hne x hx)] at hslot
      exact ⟨hport, hslot, hcharges.trans (chargesAfter_congr (chargesAfter_other (hne x hx)))⟩
    · obtain ⟨hq, hqs⟩ := List.forall_mem_cons.1 hq
      obtain ⟨hport, hslot, hcharges⟩ := hothers q hqs
      exact ⟨hport.trans (jobEnded_port_other hq), hslot.trans (jobEnded_slot_other hq), hcharges.trans (chargesAfter_other hq)⟩

end Jobs

/-! ## The end of a pass without a victim (R105, R115) -/

section NoVictim
variable {u : Units}

/-- A pass whose NO_VICTIM ends it. -/
def CompactionEngine.fruitless (ce : CompactionEngine) : Prop := ce.step = .selectNone ∨ ce.step = .abandonClaim

/-- The engine behind its NO_VICTIM: at rest without a victim, or holding the one it abandoned (R105, R115, log 49). -/
def CompactionEngine.withoutVictim (ce : CompactionEngine) : CompactionEngine :=
  if ce.step = .selectNone then ce.atRest
  else if ce.step = .abandonClaim then { ce.atRest with
    victim := ce.victim, source := .held, restart := false, noted := ce.noted,
    scan := (ce.copy.map (·.orig.cell)).getD ce.scan, todo := ce.todo.map (·.take 1) }
  else ce

theorem engineNoVictim_fruitless (h : u.ce.fruitless) :
    engineNoVictim u = (u.answerAll .noSpace u.ce.owed).setCe u.ce.withoutVictim := by
  unfold engineNoVictim CompactionEngine.withoutVictim
  rcases h with hs | hs
  · simp only [hs, if_true]
    exact toIdle_owed ..
  · simp only [hs, if_true, toIdle_owed]
    rfl

theorem engineNoVictim_other (h : ¬ u.ce.fruitless) : engineNoVictim u = u := by
  unfold engineNoVictim
  split
  · next hs => exact absurd (Or.inl hs) h
  · next hs => exact absurd (Or.inr hs) h
  · rfl

end NoVictim

end Sys2Proof.Machine
end


section
/-! SUPPORT. The rows of a pass, assembled (R53, R101, R105, R106, R115, R117, R118). -/

namespace Sys2Proof.Machine

section NoVictim
variable {u : Units} {p : Port}

/-- What NO_VICTIM leaves of the other units (R105, R115). -/
theorem engineNoVictim_frame (u : Units) :
    engineNoVictim u = { u with ports := (engineNoVictim u).ports, ce := u.ce.withoutVictim } := by
  by_cases h : u.ce.fruitless
  · rw [engineNoVictim_fruitless h]
    rfl
  · have hsame : u.ce.withoutVictim = u.ce := by
      rw [CompactionEngine.withoutVictim, if_neg fun hn => h (Or.inl hn), if_neg fun hn => h (Or.inr hn)]
    rw [engineNoVictim_other h, hsame]

theorem engineNoVictim_port_owed (h : u.ce.fruitless) (hp : p ∈ u.ce.owed) (hn : (u.port p).inHand ≠ none) :
    (engineNoVictim u).port p = { u.port p with outcome := some (Posting.code .noSpace) } := by
  rw [engineNoVictim_fruitless h]
  exact (answerAll_port ..).trans (if_pos ⟨hp, hn⟩)

theorem engineNoVictim_port_other (h : ¬ (u.ce.fruitless ∧ p ∈ u.ce.owed)) : (engineNoVictim u).port p = u.port p := by
  by_cases hf : u.ce.fruitless
  · rw [engineNoVictim_fruitless hf]
    exact (answerAll_port ..).trans (if_neg fun hn => h ⟨hf, hn.1⟩)
  · rw [engineNoVictim_other hf]

theorem engineNoVictim_port_dropped (h : (u.port p).inHand = none) : (engineNoVictim u).port p = u.port p := by
  by_cases hf : u.ce.fruitless
  · rw [engineNoVictim_fruitless hf]
    exact (answerAll_port ..).trans (if_neg fun hn => hn.2 h)
  · rw [engineNoVictim_other hf]

theorem engineNoVictim_port_answered (h : (u.port p).outcome = some (Posting.code .noSpace)) :
    (engineNoVictim u).port p = u.port p := by
  by_cases hf : u.ce.fruitless
  · rw [engineNoVictim_fruitless hf]
    refine (answerAll_port ..).trans (ite_eq_right_iff.2 fun _ => ?_)
    rw [← h]
  · rw [engineNoVictim_other hf]

/-- The units a NO_VICTIM ends the waiting jobs of. -/
def Units.unlisted (u : Units) : Units :=
  { u with iu := { u.iu with spaceWait := [] }, ce := { u.ce with mode := .normal } }

theorem noVictimClaim_eq (u : Units) : noVictimClaim u
    = engineNoVictim ((u.iu.spaceWait.map (·.job)).foldl (fun u r => endSpaceJob .noSpace r u) u.unlisted) := rfl

/-- A COMMIT that waits for space at a port that drains: its transaction is aborted (log 36). -/
theorem endSpaceJob_commit_draining {r : RecordJob} {c : ResultCode} (hr : r.role = .commit)
    (hs : (u.slot r.port).state = .committing) (hd : (u.port r.port).draining = true) : endSpaceJob c r u
      = sendJob (.abortClean r.port) (u.setSlot r.port { u.slot r.port with state := .aborting }) := by
  simp only [endSpaceJob, hr, commitReturned, inState, hs, hd, if_true]
  refine settle_of_slot (u := sendJob _ (u.setSlot r.port { u.slot r.port with state := .aborting })) ?_
  have hslot : ((u.setSlot r.port { u.slot r.port with state := .aborting }).slot r.port).state = .aborting :=
    congrArg Slot.state (Units.slot_setSlot_self ..)
  exact fun hn => by cases hslot.symm.trans hn

/-- The engine has no part in a port's drain. -/
theorem drained_port_setCe (ce : CompactionEngine) : ((u.setCe ce).drained p).port p = (u.drained p).port p := by
  by_cases h : (u.port p).draining = true ∧ (u.port p).frame = none ∧ (u.port p).stale = none ∧ hasRecordJob p u = false
      ∧ (u.slot p).state = .none ∧ u.pu.session.committingBy p = false
  · have hce : (u.setCe ce).drained p = (u.setCe ce).setPort p { u.port p with state := .ready, draining := false } := if_pos h
    have hu : u.drained p = u.setPort p { u.port p with state := .ready, draining := false } := if_pos h
    rw [hce, hu]
    rfl
  · have hce : (u.setCe ce).drained p = u.setCe ce := if_neg h
    have hu : u.drained p = u := if_neg h
    rw [hce, hu]
    rfl

theorem drained_cases (u : Units) (p : Port) :
    u.drained p = u.setPort p { u.port p with state := .ready, draining := false } ∨ u.drained p = u := by
  by_cases h : (u.port p).draining = true ∧ (u.port p).frame = none ∧ (u.port p).stale = none ∧ hasRecordJob p u = false
      ∧ (u.slot p).state = .none ∧ u.pu.session.committingBy p = false
  · exact Or.inl (if_pos h)
  · exact Or.inr (if_neg h)

/-- A port's drain changes that port alone. -/
theorem drained_frame (u : Units) (p : Port) : u.drained p = { u with ports := (u.drained p).ports } := by
  rcases drained_cases u p with h | h
  · rw [h]
    rfl
  · rw [h]

theorem drained_inHand : ((u.drained p).port p).inHand = (u.port p).inHand := by
  rcases drained_cases u p with h | h
  · rw [h, Units.port_setPort_self]
  · rw [h]

@[simp] theorem answer_iu {c : ResultCode} : (answer p c u).iu = u.iu := by rw [answer, deliver_eq, delivers_iu]

/-- A job's end has no part in who else waits. -/
theorem endSpaceJob_spaceWait {c : ResultCode} {r : RecordJob} : (endSpaceJob c r u).iu.spaceWait = u.iu.spaceWait := by
  rw [endSpaceJob, settle_eq, drained_frame]
  cases r.role with
  | single => simp only [answer_iu]; rfl
  | stage =>
    simp only [stageEnded, deliver_eq]
    split
    · simp only [delivers_iu]; rfl
    · rfl
  | commit =>
    simp only [commitReturned, inState]
    split
    · split
      · rfl
      · simp only [answer_iu]; rfl
    · rfl

end NoVictim

/-- The waiting jobs of a NO_VICTIM, each ended at its own port (R53, R88, R94). -/
theorem noVictimClaim_jobs {u : Units} (hnd : (u.iu.spaceWait.map (·.port)).Nodup)
    (hjobs : ∀ x ∈ u.iu.spaceWait, x.job.port = x.port ∧ u.jobServed x.job) :
    ∃ w, noVictimClaim u = engineNoVictim w
      ∧ w = { u.unlisted with
          ports := w.ports, tm := { u.tm with slots := w.tm.slots }
          iu := { u.unlisted.iu with charges := w.iu.charges } }
      ∧ (∀ x ∈ u.iu.spaceWait, w.port x.port = { u.port x.port with outcome := some (Posting.code .noSpace) }
        ∧ w.slot x.port = x.job.slotAfter u.unlisted (u.slot x.port)
        ∧ chargesOf x.port w.iu.charges = chargesOf x.port (x.job.chargesAfter u.iu.charges))
      ∧ ∀ p, (∀ x ∈ u.iu.spaceWait, x.port ≠ p) → w.port p = u.port p ∧ w.slot p = u.slot p
        ∧ chargesOf p w.iu.charges = chargesOf p u.iu.charges := by
  have hports : (u.iu.spaceWait.map (·.job)).map (·.port) = u.iu.spaceWait.map (·.port) := by
    rw [List.map_map]
    exact List.map_congr_left fun x hx => (hjobs x hx).1
  have hserved : ∀ r ∈ u.iu.spaceWait.map (·.job), u.unlisted.jobServed r := by
    intro r hr
    obtain ⟨x, hx, rfl⟩ := List.mem_map.1 hr
    exact (hjobs x hx).2
  obtain ⟨hframe, hended, hothers⟩ := jobs_ended (u := u.unlisted) (hports ▸ hnd) hserved
  refine ⟨_, noVictimClaim_eq u, hframe, fun x hx => ?_, fun p hp => hothers p fun r hr => ?_⟩
  · have hjob := hended x.job (List.mem_map_of_mem hx)
    rw [(hjobs x hx).1] at hjob
    exact hjob
  · obtain ⟨x, hx, rfl⟩ := List.mem_map.1 hr
    rw [(hjobs x hx).1]
    exact hp x hx

/-- What PREPARED makes of the part: the segment erased, the waiting jobs freed with enough of them, and the pass ended (R53,
R54, R101, R118). -/
theorem preparedClaim_eq {u : Units} {seg count : Nat} {raw : Units}
    (hraw : raw = dropRetained seg (u.setIu (u.iu.takePrepared seg count))) :
    ∃ queue list mode, preparedClaim seg count u = { raw.answerAll .ok u.ce.owed with
        rw := { u.rw with queue := queue }
        iu := { raw.iu with
          armed := raw.iu.armed || decide (u.pu.shadow.lowWater < raw.iu.erasedCount), spaceWait := list }
        ce := { u.ce.atRest with
          mode := mode
          lowRun := (u.ce.lowRun || decide (raw.iu.erasedCount ≤ u.pu.shadow.lowWater))
            && decide (raw.iu.erasedCount < u.pu.shadow.lowWater + 2) } }
      ∧ (2 < raw.iu.erasedCount → queue = u.rw.queue ++ u.iu.spaceWait.map (fun x => Job.record x.job) ∧ list = []
        ∧ mode = .normal)
      ∧ (raw.iu.erasedCount ≤ 2 → queue = u.rw.queue ∧ list = u.iu.spaceWait ∧ mode = u.ce.mode) := by
  subst hraw
  let raw := dropRetained seg (u.setIu (u.iu.takePrepared seg count))
  let risen : Units := { raw with
    iu := { raw.iu with armed := raw.iu.armed || decide (raw.pu.shadow.lowWater < raw.iu.erasedCount) }
    ce := { raw.ce with lowRun := raw.ce.lowRun || decide (raw.iu.erasedCount ≤ raw.pu.shadow.lowWater) } }
  have hrisen : compareRise raw = risen := compareRise_eq
  obtain ⟨queue, list, mode, hfreed, hmore, hless⟩ := freed_eq risen
  refine ⟨queue, list, mode, ?_, hmore, hless⟩
  refine (congrArg (fun w : Units => passEnded (if 2 < w.iu.erasedCount then releaseWaiting w else w)) hrisen).trans
    ((congrArg passEnded hfreed).trans ?_)
  rw [passEnded_eq]
  rfl

/-- The low-water run behind a PREPARED, by the erased count (R101). -/
theorem lowRun_after {run : Bool} {n low : Nat} :
    (low + 2 ≤ n → ((run || decide (n ≤ low)) && decide (n < low + 2)) = false)
    ∧ (n ≤ low → ((run || decide (n ≤ low)) && decide (n < low + 2)) = true)
    ∧ (low < n → n < low + 2 → ((run || decide (n ≤ low)) && decide (n < low + 2)) = run) := by
  refine ⟨fun h => ?_, fun h => ?_, fun h h' => ?_⟩
  · rw [decide_eq_false (Nat.not_lt.2 h), Bool.and_false]
  · rw [decide_eq_true h, decide_eq_true (by omega : n < low + 2), Bool.or_true, Bool.and_true]
  · rw [decide_eq_false (Nat.not_le.2 h), decide_eq_true h', Bool.or_false, Bool.and_true]

/-- Settles O52: RECLAIMING, ERASED and PREPARED by what they make of the segment and the engine, NO_VICTIM job by job. -/
theorem rowsOfAPass : Obligations.RowsOfAPass := by
  unfold Obligations.RowsOfAPass
  intro s u iu ce v idle
  refine ⟨fun h => ?reclaiming, fun h _ _ => ?erased, fun seg count h _ _ => ?prepared, fun h hw hnd hjobs => ?noVictim,
    fun x h hw hx hp hn hd => ?drains⟩
  case reclaiming => exact (reclaiming_row h).trans (congrArg (fun z => Host.Outcome.next (s.withUnits z)) engineMarked_eq)
  case erased =>
    have hcount : ((iu.takeErased v).seg v).eraseCount = (iu.seg v).eraseCount :=
      IndexUnit.seg_modSeg_field (g := fun e => e.eraseCount) fun _ => rfl
    refine (erased_row h).trans (congrArg (fun z => Host.Outcome.next (s.withUnits z)) (engineErased_eq.trans ?_))
    exact congrArg (fun n => (u.setIu (iu.takeErased v)).setCe { ce with
      state := .prepare, step := .preparing,
      io := ⟨some ⟨.engine, v, .program 0 (prepareProgram (min 16777215 (n + 1)))⟩, false⟩ }) hcount
  case prepared =>
    obtain ⟨queue, list, mode, hclaim, hmore, hless⟩ := preparedClaim_eq (u := u) (seg := seg) (count := count) rfl
    have hrow := (prepared_row h).trans (congrArg (fun z => Host.Outcome.next (s.withUnits (kick z))) hclaim)
    have hport : ∀ p, _ = if p ∈ ce.owed ∧ (s.units.port p).inHand ≠ none
        then { s.units.port p with outcome := some (Posting.code .ok) } else s.units.port p :=
      fun p => answerAll_port (dropRetained seg (u.setIu (iu.takePrepared seg count))) .ok ce.owed p
    obtain ⟨hhigh, hlow, hmid⟩ := lowRun_after (run := ce.lowRun)
      (n := (dropRetained seg (u.setIu (iu.takePrepared seg count))).iu.erasedCount) (low := s.units.pu.shadow.lowWater)
    refine ⟨_, hrow, rfl, rfl, rfl, rfl, rfl, rfl, rfl, rfl, rfl, fun p c hc hp => ?owed, fun p hn => ?dropped,
      fun p hp => ?others, fun h => ?more, fun h => ?less, hhigh, hlow, hmid⟩
    case owed => exact (hport p).trans (if_pos ⟨hp, by rw [hc]; exact Option.some_ne_none c⟩)
    case dropped => exact (hport p).trans (if_neg fun hh => hh.2 hn)
    case others => exact (hport p).trans (if_neg fun hh => hp hh.1)
    case more =>
      obtain ⟨hq, hl, hm⟩ := hmore h
      exact ⟨hl, hm, hq⟩
    case less =>
      obtain ⟨hq, hl, hm⟩ := hless h
      exact ⟨hl, hm, hq⟩
  case noVictim =>
    intro owes
    obtain ⟨w, hclaim, hframe, hjob, hfree⟩ := noVictimClaim_jobs (u := u) hnd fun x hx => by
      obtain ⟨hp, hserves, hstage, hcommit⟩ := hjobs x hx
      refine ⟨hp, ?_⟩
      unfold Units.jobServed
      rw [hp]
      exact ⟨hserves, hstage, hcommit⟩
    have hv : engineNoVictim w = { u.unlisted with
        ports := (engineNoVictim w).ports, tm := { u.tm with slots := w.tm.slots }
        iu := { u.unlisted.iu with charges := w.iu.charges }, ce := u.unlisted.ce.withoutVictim } := by
      rw [engineNoVictim_frame w, hframe]
    have hwce : w.ce = { ce with mode := .normal } := congrArg Units.ce hframe
    have hrow : exec .noVictim s = .next (s.withUnits (engineNoVictim w)) :=
      (noVictim_row h).trans (congrArg (fun z => Host.Outcome.next (s.withUnits z))
        ((congrArg kick hclaim).trans (kick_steady hw (u := engineNoVictim w) (by rw [hv]; rfl))))
    have hslot : ∀ p, (engineNoVictim w).slot p = w.slot p := fun p => by rw [engineNoVictim_frame w]; rfl
    have hcharges : (engineNoVictim w).iu.charges = w.iu.charges := by rw [engineNoVictim_frame w]
    have howes : w.ce.fruitless ↔ owes := by rw [hwce]; exact Iff.rfl
    have howed : w.ce.owed = ce.owed := by rw [hwce]
    have hce : (engineNoVictim w).ce = CompactionEngine.withoutVictim { ce with mode := .normal } :=
      (congrArg Units.ce (engineNoVictim_frame w)).trans (congrArg CompactionEngine.withoutVictim hwce)
    refine ⟨engineNoVictim w, hrow, ?_, ?_, ?_, ?_, ?_, ?_, ?_, fun x hx => ?job, fun ho p c hc hp => ?owed, fun p hp hn => ?other,
      fun x hx => ?slot, fun p hp => ?others, fun hs => ?selected, fun hs => ?abandoned, fun hs => ?unowed⟩
    case job =>
      obtain ⟨hport, -, -⟩ := hjob x hx
      exact (engineNoVictim_port_answered (by rw [hport])).trans hport
    case owed =>
      by_cases hin : ∀ x ∈ iu.spaceWait, x.port ≠ p
      · obtain ⟨hport, -, -⟩ := hfree p hin
        have hin : (w.port p).inHand ≠ none := by
          rw [hport]
          exact fun hn => Option.some_ne_none c (hc.symm.trans hn)
        rw [engineNoVictim_port_owed (howes.2 ho) (howed ▸ hp) hin, hport]
        rfl
      · obtain ⟨x, hx, rfl⟩ : ∃ x ∈ iu.spaceWait, x.port = p := by simpa using hin
        obtain ⟨hport, -, -⟩ := hjob x hx
        exact (engineNoVictim_port_answered (by rw [hport])).trans hport
    case other =>
      obtain ⟨hport, -, -⟩ := hfree p hp
      exact (engineNoVictim_port_other fun hh => hn ⟨howes.1 hh.1, howed ▸ hh.2⟩).trans hport
    case slot =>
      obtain ⟨-, hafter, hdrop⟩ := hjob x hx
      intro p sl mine length
      have hmine : mine (engineNoVictim w).iu.charges = mine (x.job.chargesAfter iu.charges) := by
        rw [hcharges]
        exact hdrop
      have hnow : (engineNoVictim w).slot p = x.job.slotAfter u.unlisted sl := (hslot p).trans hafter
      have hport : x.job.port = p := (hjobs x hx).1
      rw [hmine, hnow, RecordJob.chargesAfter, RecordJob.slotAfter, hport]
      refine ⟨fun hr => ?_, fun before e after hr hm hst hk ha => ?_, fun hr => by rw [hr], fun hr => ?_⟩
      · rw [hr]
        exact ⟨filter_dropSingle_self, rfl⟩
      · have hmem : e ∈ mine iu.charges := hm ▸ List.mem_append_right _ List.mem_cons_self
        have hmine : mine (IndexUnit.dropLast p x.job.key iu.charges) = before ++ after :=
          filter_dropLast_self.trans ((congrArg (IndexUnit.dropLast p x.job.key) hm).trans
            (dropLast_split hst (by simpa using (List.mem_filter.1 hmem).2) hk fun g hg hh => ha g hg ⟨hh.1, hh.2.2⟩))
        rw [hr]
        exact hmine
      · rw [hr]
        exact ⟨rfl, rfl⟩
    case others =>
      obtain ⟨-, hkeep, hsame⟩ := hfree p hp
      refine ⟨(hslot p).trans hkeep, ?_⟩
      rw [hcharges]
      exact hsame
    case selected =>
      rw [hce, CompactionEngine.withoutVictim, if_pos (by exact hs)]
      rfl
    case abandoned =>
      have hselect : ¬ ce.step = .selectNone := by rw [hs]; decide
      rw [hce, CompactionEngine.withoutVictim, if_neg (by exact hselect), if_pos (by exact hs)]
      cases ce.copy <;> rfl
    case unowed =>
      rw [hce, CompactionEngine.withoutVictim, if_neg (by exact fun hn => hs (Or.inl hn)),
        if_neg (by exact fun hn => hs (Or.inr hn))]
    all_goals rw [hv]
    all_goals rfl
  case drains =>
    intro p sl left
    have hlist : noVictimClaim u = engineNoVictim (endSpaceJob .noSpace x.job u.unlisted) := by
      rw [noVictimClaim_eq, show u.iu.spaceWait = [x] from hx]
      rfl
    have hkeep : ∀ v : Units, (v.port p).inHand = none → (engineNoVictim v).port p = v.port p :=
      fun v hv => engineNoVictim_port_dropped hv
    refine ⟨noVictimClaim u, noVictim_row h, ?_, fun hr => ?_, fun hr hs => ?_⟩
    · rw [hlist, engineNoVictim_frame]
      exact endSpaceJob_spaceWait
    · intro cs
      have hend : endSpaceJob .noSpace x.job u.unlisted = ((left cs).setCe u.unlisted.ce).drained p := by
        rw [endSpaceJob_single hr, hp, settle_eq, answer, deliver_dropped (by exact hn)]
        rfl
      have hdropped : ((((left cs).setCe u.unlisted.ce).drained p).port p).inHand = none := drained_inHand.trans hn
      rw [hlist, hend]
      refine ⟨?_, ?_, ?_, ?_⟩
      · rw [engineNoVictim_frame, drained_frame]; rfl
      · rw [engineNoVictim_frame, drained_frame]; rfl
      · rw [engineNoVictim_frame, drained_frame]; rfl
      · rw [hkeep _ hdropped, drained_port_setCe]
    · have hend : endSpaceJob .noSpace x.job u.unlisted
          = sendJob (.abortClean p) (u.unlisted.setSlot p { sl with state := .aborting }) := by
        have haborts := endSpaceJob_commit_draining (c := .noSpace) (u := u.unlisted) hr (by rw [hp]; exact hs)
          (by rw [hp]; exact hd)
        rw [haborts, hp]
        rfl
      rw [hlist, hend]
      refine ⟨?_, ?_, ?_, ?_⟩
      · rw [engineNoVictim_frame]; rfl
      · rw [engineNoVictim_frame]
        exact Units.slot_setSlot_self ..
      · exact hkeep _ hn
      · rw [engineNoVictim_frame]; rfl

end Sys2Proof.Machine
end


section
/-! SUPPORT. The Writer between the claims: a RECORD job taken (R57, R58) and its record built (R61, R66). -/

namespace Sys2Proof.Machine

section Taking
variable {r : RecordJob} {rest : List Job} {u : Units}

/-- A RECORD job becomes the current job (R58). -/
def Units.takes (u : Units) (r : RecordJob) (rest : List Job) : Units :=
  u.setRw { u.rw with queue := rest, cur := some ⟨.record r, .allocating, []⟩ }

theorem kick_record (hc : u.rw.cur = none) (hq : u.rw.queue = .record r :: rest) :
    kick u = kick (startRecord r (u.takes r rest)) := kick_next hc hq

theorem startRecord_kept {g : Nat} (hg : r.gen = some g) (hcur : u.rw.cur = some ⟨.record r, .allocating, []⟩) :
    startRecord r u = present .writer (.allocate r.cells) u := by
  rw [startRecord, if_pos (by rw [hg]; rfl), goAllocate_eq hcur, ← hcur]
  rfl

theorem startRecord_exhausted (hg : r.gen = none) (h : 4294967294 ≤ u.rw.gen) :
    startRecord r u = recordFailed .genExhausted r u := by
  rw [startRecord, if_neg (by rw [hg]; exact Bool.false_ne_true)]
  exact if_pos h

theorem startRecord_fresh (hg : r.gen = none) (h : u.rw.gen < 4294967294)
    (hcur : u.rw.cur = some ⟨.record r, .allocating, []⟩) : startRecord r u = present .writer (.allocate r.cells)
      (u.setRw { u.rw with gen := u.rw.gen + 1, cur := some ⟨.record { r with gen := some u.rw.gen }, .allocating, []⟩ }) := by
  rw [startRecord, if_neg (by rw [hg]; exact Bool.false_ne_true)]
  refine (if_neg (Nat.not_le.2 h)).trans ?_
  exact goClaim_modJob (u := u.setRw { u.rw with gen := u.rw.gen + 1 }) hcur

end Taking

section Building
variable {r : RecordJob} {st : WStep} {rec : List Location} {q : Request} {l : Location} {u : Units} {io : Io} {job : Job}

theorem goProgram_atJob {st' : WStep} {seg cell : Nat} {bytes : List Byte} : goProgram st' seg cell bytes (u.atJob job st rec io)
    = u.atJob job st' rec ⟨some ⟨.writer, seg, .program cell bytes⟩, false⟩ := rfl

/-- A program delivered at a step the Writer stays busy behind. -/
theorem delivered_busy {ok : Bool} {w : Units} (hq : q.who = .writer) (hio : u.rw.io = ⟨some q, true⟩)
    (hcur : u.rw.cur = some ⟨job, st, rec⟩) (hd : writerDone ok (u.atJob job st rec ⟨none, false⟩) = w)
    (hw : w.rw.cur ≠ none) : programDelivered q ok u = w := by
  rw [programDelivered_writer hq hio hcur, hd, kick_busy hw]

theorem one_lt_cells (h : 0 < r.length) : 1 < r.cells := by
  unfold RecordJob.cells recordCells
  omega

theorem cells_le_one (h : r.length = 0) : ¬ 1 < r.cells := by
  unfold RecordJob.cells recordCells
  omega

theorem more_cells_iff {i : Nat} : i + 2 < r.cells ↔ 16 * (i + 1) < r.length := by
  unfold RecordJob.cells recordCells
  omega

/-- A record's header is programmed: its payload follows, or its WRITTEN mark, or a COMMIT's LIVE mark (R61). -/
theorem writerDone_header : writerDone true (u.atJob (.record r) (.header l) rec io)
    = if r.kind = .commit then goCommitLive l (u.atJob (.record r) (.header l) rec io)
      else if 1 < r.cells then goPayload r l 0 (u.atJob (.record r) (.header l) rec io)
      else goWritten l (u.atJob (.record r) (.header l) rec io) := rfl

theorem writerDone_payload {i : Nat} : writerDone true (u.atJob (.record r) (.payload l i) rec io)
    = if i + 2 < r.cells then goPayload r l (i + 1) (u.atJob (.record r) (.payload l i) rec io)
      else goWritten l (u.atJob (.record r) (.payload l i) rec io) := rfl

theorem writerDone_written : writerDone true (u.atJob (.record r) (.written l) rec io)
    = if r.role = .stage then goStep (.memberReporting l) (u.atJob (.record r) (.written l) rec io)
      else goLive l 1 (u.atJob (.record r) (.written l) rec io) := rfl

/-- A build program that fails. -/
theorem writerDone_failed (h : st = .header l ∨ (∃ i, st = .payload l i) ∨ st = .written l ∨ st = .commitLive l) :
    writerDone false (u.atJob (.record r) st rec io) = failBuild r l (u.atJob (.record r) st rec io) := by
  rcases h with rfl | ⟨i, rfl⟩ | rfl | rfl <;> rfl

theorem failBuild_commit (h : r.kind = .commit) : failBuild r l u
    = goClaim (.reporting .failed l) (.report (.dead l r.cells)) u := if_pos h

theorem failBuild_other (h : r.kind ≠ .commit) : failBuild r l u = goRetire .failed l 0 1 u := if_neg h

end Building

end Sys2Proof.Machine
end


section
/-! SUPPORT. What follows a program that advances a record that stands, done or left short (R13, R62 to R67, R71, R81, R87). -/

namespace Sys2Proof.Machine

section Ends
variable {u : Units} {p : Port} {o : Posting}

/-- The end of a stage in an OPEN slot answers its command (R87). -/
theorem finish_stage_opened {c : InHand} (hs : (u.slot p).state = .opened) (hc : (u.port p).inHand = some c) :
    finish p (stageEnded p o u) = ((u.setSlot p { u.slot p with stage := none }).withOutcome p o).setRw u.rw.free := by
  rw [stageEnded_opened hs, deliver_inHand (u := u.setSlot p { u.slot p with stage := none }) hc]
  refine settle_of_slot (u := ((u.setSlot p { u.slot p with stage := none }).withOutcome p o).setRw u.rw.free) ?_
  have hslot : ((u.setSlot p { u.slot p with stage := none }).slot p).state = .opened :=
    (congrArg Slot.state (Units.slot_setSlot_self ..)).trans hs
  exact fun hn => by cases hslot.symm.trans hn

/-- In an ABORTING slot the end of the clean answers it (R87). -/
theorem finish_stage_aborting (hs : (u.slot p).state = .aborting) :
    finish p (stageEnded p o u) = (u.setSlot p { u.slot p with stage := none }).setRw u.rw.free := by
  rw [stageEnded_other (by rw [hs]; decide)]
  refine settle_of_slot (u := (u.setSlot p { u.slot p with stage := none }).setRw u.rw.free) ?_
  have hslot : ((u.setSlot p { u.slot p with stage := none }).slot p).state = .aborting :=
    (congrArg Slot.state (Units.slot_setSlot_self ..)).trans hs
  exact fun hn => by cases hslot.symm.trans hn

end Ends

/-- A stage has ended: its slot holds none, its command answered while the slot is OPEN (R87). -/
def StageEnds (p : Port) (v : Units) (gen : Nat) (w : Units) : Prop :=
  let sl := v.slot p
  let free (v : Units) : Units := (v.setSlot p { sl with stage := none }).setRw { v.rw with cur := none, io := ⟨none, false⟩ }
  (∀ c, sl.state = .opened → (v.port p).inHand = some c →
    w = kick ((free v).withOutcome p ⟨{ Results.zero with code := 0x01, gen := BitVec.ofNat 32 gen }, []⟩))
  ∧ (sl.state = .aborting → w = kick (free v))

/-- The units with the number of a record whose retire is short retained with its segment (R71, R81). -/
def Units.keeping (v : Units) (ok : Bool) (txn seg : Nat) : Units :=
  if ok then v else { v with tm := { v.tm with retained := v.tm.retained ++ [(txn, seg)] } }

/-- What follows a program that advances a record that stands (R62 to R67, R71). -/
def Follows (j : Job) (rec : List Location) (back : WStep) (ok : Bool) (v w : Units) : Prop :=
  let claims (v : Units) (st : WStep) (c : Claim) : Units := present .writer c (v.atJob j st rec ⟨none, false⟩)
  match back, j with
  | .live l _, .record r => w = claims v (.switching l (!ok))
      (.switch ⟨r.part, r.key, l, r.length, r.gen.getD 0, 1 + (r.length + 15) / 16, r.kind, r.port⟩)
  | .retiring .displaced l _ _, _ => w = claims v (.unpinning (.single ok)) (.unpin l.seg)
  | .retiring .tombstone l _ _, _ => w = claims v (.reporting .tombstone l) (.report (.dead l 1))
  | .retiring .failed l _ _, .record r =>
      w = claims v (.reporting .failed l) (.report (.dead l (1 + (r.length + 15) / 16)))
  | .retiring .replaced l _ _, .record r => r.role = .stage → StageEnds r.port (v.keeping ok r.txn l.seg) (r.gen.getD 0) w
  | .retiring .removed l _ _, .removal p _ _ txn _ => StageEnds p (v.keeping ok txn l.seg) 0 w
  | .retiring (.oldOf i) l _ _, _ => w = claims v (.unpinning (.member i ok)) (.unpin l.seg)
  | .retiring (.tombOf i) l _ _, .complete _ _ txn _ =>
      w = claims (v.keeping ok txn l.seg) (.reporting (.tombOf i) l) (.report (.dead l 1))
  | .retiring .commitRecord l _ _, .complete _ _ txn _ =>
      w = claims (v.keeping ok txn l.seg) (.reporting .commitRecord l) (.report (.commitRetired txn l))
  | _, _ => True

section Follow
variable {j : Job} {rec : List Location} {st back : WStep} {ok : Bool} {v : Units} {io : Io}

theorem keeping_done {txn seg : Nat} : v.keeping true txn seg = v := rfl

/-- The number kept, at a record that is retired for good. -/
theorem retired_keeps {why : RetireWhy} {l : Location} {txn : Nat} (hw : why.retains = true)
    (ht : ∀ x : Units, jobTxn ⟨j, st, rec⟩ x = txn) :
    (if !ok && why.retains then retainNumber (jobTxn ⟨j, st, rec⟩ (v.atJob j st rec io)) l.seg (v.atJob j st rec io)
      else v.atJob j st rec io) = (v.keeping ok txn l.seg).atJob j st rec io := by
  rw [ht, hw]
  cases ok <;> rfl

theorem stage_ends {p : Port} {gen : Nat} {o : Posting}
    (ho : o = ⟨{ Results.zero with code := 0x01, gen := BitVec.ofNat 32 gen }, []⟩) :
    StageEnds p v gen (kick (finish p (stageEnded p o (v.atJob j st rec io)))) := by
  refine ⟨fun c hs hc => congrArg kick ?_, fun hs => congrArg kick ?_⟩
  · rw [← ho]
    exact finish_stage_opened (u := v.atJob j st rec io) hs hc
  · exact finish_stage_aborting (u := v.atJob j st rec io) hs

theorem statusDone_follows : Follows j rec back ok v (kick (statusDone ok back ⟨j, st, rec⟩ (v.atJob j st rec ⟨none, false⟩))) := by
  have hclaim : ∀ (x : Units) (st' : WStep) (c : Claim),
      kick (goClaim st' c (x.atJob j st rec ⟨none, false⟩)) = present .writer c (x.atJob j st' rec ⟨none, false⟩) :=
    fun _ _ _ => kick_busy (Option.some_ne_none _)
  cases back with
  | live l tries =>
    cases j with
    | record r => exact hclaim ..
    | _ => trivial
  | retiring why l mark tries =>
    cases why with
    | displaced => cases ok <;> cases j <;> exact hclaim ..
    | tombstone => cases ok <;> cases j <;> exact hclaim ..
    | oldOf i => cases ok <;> cases j <;> exact hclaim ..
    | failed =>
      cases j with
      | record r => cases ok <;> exact hclaim ..
      | _ => trivial
    | replaced =>
      cases j with
      | record r =>
        intro hr
        have hkeep := retired_keeps (v := v) (ok := ok) (st := st) (rec := rec) (io := ⟨none, false⟩) (j := .record r)
          (why := .replaced) (l := l) (txn := r.txn) rfl fun _ => rfl
        have hdone : statusDone ok (.retiring .replaced l mark tries) ⟨.record r, st, rec⟩
              (v.atJob (.record r) st rec ⟨none, false⟩)
            = finish r.port (stageEnded r.port (Posting.generation (r.gen.getD 0))
                ((v.keeping ok r.txn l.seg).atJob (.record r) st rec ⟨none, false⟩)) := by
          rw [← hkeep]
          exact congrArg (finish r.port) (if_pos hr)
        rw [hdone]
        exact stage_ends rfl
      | _ => trivial
    | removed =>
      cases j with
      | removal p part key txn k =>
        have hkeep := retired_keeps (v := v) (ok := ok) (st := st) (rec := rec) (io := ⟨none, false⟩)
          (j := .removal p part key txn k) (why := .removed) (l := l) (txn := txn) rfl fun _ => rfl
        have hdone : statusDone ok (.retiring .removed l mark tries) ⟨.removal p part key txn k, st, rec⟩
              (v.atJob (.removal p part key txn k) st rec ⟨none, false⟩)
            = finish p (stageEnded p (Posting.code .ok)
                ((v.keeping ok txn l.seg).atJob (.removal p part key txn k) st rec ⟨none, false⟩)) := by
          rw [← hkeep]
          rfl
        rw [hdone]
        exact stage_ends rfl
      | _ => trivial
    | tombOf i =>
      cases j with
      | complete p part txn ds =>
        have hkeep := retired_keeps (v := v) (ok := ok) (st := st) (rec := rec) (io := ⟨none, false⟩)
          (j := .complete p part txn ds) (why := .tombOf i) (l := l) (txn := txn) rfl fun _ => rfl
        refine (congrArg (fun z => kick (goClaim (.reporting (.tombOf i) l) (.report (.dead l 1)) z)) hkeep).trans ?_
        exact hclaim ..
      | _ => trivial
    | commitRecord =>
      cases j with
      | complete p part txn ds =>
        have hkeep := retired_keeps (v := v) (ok := ok) (st := st) (rec := rec) (io := ⟨none, false⟩)
          (j := .complete p part txn ds) (why := .commitRecord) (l := l) (txn := txn) rfl fun _ => rfl
        refine (congrArg (fun z => kick (goClaim (.reporting .commitRecord l) (.report (.commitRetired txn l)) z)) hkeep).trans ?_
        exact hclaim ..
      | _ => trivial
    | aborted i => cases j <;> trivial
  | _ => trivial

end Follow

end Sys2Proof.Machine
end


section
/-! SUPPORT. The Writer between the claims, assembled (R13, R49, R57, R58, R60 to R67, R70, R71, R81, R87, R88, R94). -/

namespace Sys2Proof.Machine

section Advance
variable {j : Job} {rec : List Location} {st back : WStep} {u : Units} {q : Request} {ok : Bool} {l : Location} {why : RetireWhy}
  {k tries seg : Nat}

theorem writerDone_retiring_next (hk : k < 3) : writerDone true (u.atJob j (.retiring why l k tries) rec ⟨none, false⟩)
    = goRetire why l (k + 1) 1 (u.atJob j (.retiring why l k tries) rec ⟨none, false⟩) := by
  cases j <;> exact if_pos hk

theorem writerDone_retiring_last : writerDone true (u.atJob j (.retiring why l 3 tries) rec ⟨none, false⟩)
    = statusDone true (.retiring why l 3 tries) ⟨j, .retiring why l 3 tries, rec⟩
        (u.atJob j (.retiring why l 3 tries) rec ⟨none, false⟩) := by
  cases j <;> rfl

theorem writerDone_retiring_failed : writerDone false (u.atJob j (.retiring .failed l k tries) rec ⟨none, false⟩)
    = statusDone false (.retiring .failed l k tries) ⟨j, .retiring .failed l k tries, rec⟩
        (u.atJob j (.retiring .failed l k tries) rec ⟨none, false⟩) := by
  cases j <;> rfl

theorem writerDone_retiring_again (hw : why ≠ .failed) (ht : tries < 3) :
    writerDone false (u.atJob j (.retiring why l k tries) rec ⟨none, false⟩)
      = goRetire why l k (tries + 1) (u.atJob j (.retiring why l k tries) rec ⟨none, false⟩) := by
  cases j <;> exact (if_neg hw).trans (if_pos ht)

theorem writerDone_retiring_short (hw : why ≠ .failed) (ht : 3 ≤ tries) :
    writerDone false (u.atJob j (.retiring why l k tries) rec ⟨none, false⟩)
      = statusShort (.retiring why l k tries) l.seg ⟨j, .retiring why l k tries, rec⟩
          (u.atJob j (.retiring why l k tries) rec ⟨none, false⟩) := by
  cases j <;> exact (if_neg hw).trans (if_neg (Nat.not_lt.2 ht))

theorem writerDone_live_short {r : RecordJob} (ht : 3 ≤ tries) :
    writerDone false (u.atJob (.record r) (.live l tries) rec ⟨none, false⟩)
      = statusShort (.live l tries) l.seg ⟨.record r, .live l tries, rec⟩
          (u.atJob (.record r) (.live l tries) rec ⟨none, false⟩) := if_neg (Nat.not_lt.2 ht)

theorem writerDone_shutting_again (ht : tries < 3) : writerDone false (u.atJob j (.shutting seg tries back) rec ⟨none, false⟩)
    = goClosing (.shutting seg (tries + 1) back) seg (u.atJob j (.shutting seg tries back) rec ⟨none, false⟩) := by
  cases j <;> exact if_pos ht

/-- The closing of a write head on the way is over: the job goes on where it was broken off (R71, log 39). -/
theorem writerDone_shut (h : ok = true ∨ 3 ≤ tries ∧ (u.iu.seg seg).suspect = true) :
    writerDone ok (u.atJob j (.shutting seg tries back) rec ⟨none, false⟩)
      = statusDone false back ⟨j, .shutting seg tries back, rec⟩
          ((u.setIu { u.iu with segs := u.iu.segs.modify (seg - 2) (fun x => { x with state := .full }) }).atJob j
            (.shutting seg tries back) rec ⟨none, false⟩) := by
  have hclosed := closedSuspect_eq (ok := ok) (seg := seg) (u := u.atJob j (.shutting seg tries back) rec ⟨none, false⟩) rfl
    (h.imp_right And.right)
  have hdone : writerDone ok (u.atJob j (.shutting seg tries back) rec ⟨none, false⟩)
      = statusDone false back ⟨j, .shutting seg tries back, rec⟩
          (closedSuspect ok seg (u.atJob j (.shutting seg tries back) rec ⟨none, false⟩)) := by
    cases ok with
    | true => cases j <;> rfl
    | false =>
      have ht : ¬ tries < 3 := Nat.not_lt.2 (h.resolve_left Bool.false_ne_true).1
      cases j <;> exact if_neg ht
  rw [hdone, hclosed]
  rfl

/-- The units when a program of the job stays short (R71, R72). -/
def Units.jobSuspected (u : Units) (j : Job) (st : WStep) (rec : List Location) (seg : Nat) : Units :=
  u.suspected .writer seg (jobNames ⟨j, st, rec⟩ u).1 (jobNames ⟨j, st, rec⟩ u).2

theorem writerSuspect_atJob : writerSuspect seg (u.atJob j st rec ⟨none, false⟩)
    = (u.jobSuspected j st rec seg).atJob j st rec ⟨none, false⟩ := by
  refine (writerSuspect_eq (u := u.atJob j st rec ⟨none, false⟩) rfl).trans ?_
  have hnames : jobNames ⟨j, st, rec⟩ (u.atJob j st rec ⟨none, false⟩) = jobNames ⟨j, st, rec⟩ u := rfl
  rw [hnames]
  rfl

/-- A program that stays short leaves its segment suspect, and its job goes on behind the closing of a write head (R71). -/
theorem short_follows (hq : q.who = .writer) (hio : u.rw.io = ⟨some q, true⟩) (hcur : u.rw.cur = some ⟨j, st, rec⟩)
    (hd : writerDone false (u.atJob j st rec ⟨none, false⟩)
      = statusShort st l.seg ⟨j, st, rec⟩ (u.atJob j st rec ⟨none, false⟩)) :
    (u.iu.writeHead ≠ some l.seg → Follows j rec st false (u.jobSuspected j st rec l.seg) (programDelivered q false u))
    ∧ (u.iu.writeHead = some l.seg → programDelivered q false u = present .writer (.close l.seg .suspect)
        ((u.jobSuspected j st rec l.seg).atJob j (.shutClaim l.seg st) rec ⟨none, false⟩)) := by
  refine ⟨fun hw => ?_, fun hw => ?_⟩
  · rw [programDelivered_writer hq hio hcur, hd, statusShort_open (u := u.atJob j st rec ⟨none, false⟩) hw, writerSuspect_atJob]
    exact statusDone_follows
  · rw [programDelivered_writer hq hio hcur, hd, statusShort_head (u := u.atJob j st rec ⟨none, false⟩) hw, writerSuspect_atJob,
      goClaim_atJob]
    exact kick_busy (Option.some_ne_none _)

/-- A program of a job, done: what it leads to. -/
theorem done_follows (hq : q.who = .writer) (hio : u.rw.io = ⟨some q, true⟩) (hcur : u.rw.cur = some ⟨j, st, rec⟩) {v : Units}
    {reached : Bool} (hd : writerDone ok (u.atJob j st rec ⟨none, false⟩)
      = statusDone reached back ⟨j, st, rec⟩ (v.atJob j st rec ⟨none, false⟩)) :
    Follows j rec back reached v (programDelivered q ok u) := by
  rw [programDelivered_writer hq hio hcur, hd]
  exact statusDone_follows

theorem shut_row {s : State} (h : s.oldestClaim .writer (.close seg .suspect))
    (hcur : s.units.rw.cur = some ⟨j, .shutClaim seg back, rec⟩) : exec .close s = .next (s.withUnits
      (((popClaim s.units).setIu { (popClaim s.units).iu with
          writeHead := none,
          segs := (popClaim s.units).iu.segs.modify (seg - 2)
            (fun x => { x with next := 128, dead := x.dead + (128 - x.next), suspect := true }) }).setRw
        { s.units.rw with
          cur := some ⟨j, .shutting seg 1 back, rec⟩,
          io := ⟨some ⟨.writer, seg, .program 0 (0xF8 :: List.replicate 15 0xFF)⟩, false⟩ })) := by
  refine (close_suspect_writer h).trans (congrArg (fun z => Host.Outcome.next (s.withUnits z)) ?_)
  have hclosed : ∀ (fresh : Bool) (v : Units), v.rw.cur = some ⟨j, .shutClaim seg back, rec⟩ →
      writerClosed fresh v = v.setRw { v.rw with
        cur := some ⟨j, .shutting seg 1 back, rec⟩,
        io := ⟨some ⟨.writer, seg, .program 0 (0xF8 :: List.replicate 15 0xFF)⟩, false⟩ } := by
    intro fresh v hv
    simp only [writerClosed, hv]
    exact goClosing_eq hv
  exact hclosed _ _ hcur

end Advance

/-- Settles O53: the jobs taken, the record built program by program, and what follows a program that advances one that stands. -/
theorem writerTakesAndBuilds : Obligations.WriterTakesAndBuilds := by
  refine ⟨fun u h => kick_idle u h, fun r rest u hc hq => ?takes, fun r st rec q l u hq hio hcur => ?builds, ?advances⟩
  case takes =>
    have hkick := kick_record hc hq
    refine ⟨fun hg hlt => ?_, fun g hg => ?_, fun hg hge hr => ?_, fun hg hge => ⟨fun c hr hs hin => ?_, fun hr hs => ?_,
      fun hr hs => ?_, fun hr hs => ?_⟩⟩
    · exact hkick.trans ((congrArg kick (startRecord_fresh (u := u.takes r rest) hg hlt rfl)).trans
        (kick_busy (Option.some_ne_none _)))
    · exact hkick.trans ((congrArg kick (startRecord_kept (u := u.takes r rest) hg rfl)).trans
        (kick_busy (Option.some_ne_none _)))
    all_goals have hfail := hkick.trans (congrArg kick (startRecord_exhausted (u := u.takes r rest) hg hge))
    · exact hfail.trans ((congrArg kick (recordFailed_single (u := u.takes r rest) rfl hr)).trans
        (kick_busy (Option.some_ne_none _)))
    · exact hfail.trans (congrArg kick (recordFailed_stage_opened (u := u.takes r rest) hr hs hin))
    · exact hfail.trans (congrArg kick (recordFailed_stage_aborting (u := u.takes r rest) hr hs))
    · exact hfail.trans (congrArg kick (recordFailed_commit (u := u.takes r rest) hr hs))
    · exact hfail.trans (congrArg kick (recordFailed_commit_other (u := u.takes r rest) hr hs))
  case builds =>
    intro asks only waits done failed
    have hdone : ∀ {ok : Bool} {w : Units}, writerDone ok (u.atJob (.record r) st rec ⟨none, false⟩) = w → w.rw.cur ≠ none →
        programDelivered q ok u = w := fun hd hw => delivered_busy hq hio hcur hd hw
    refine ⟨fun hst hk hl => ?_, fun hst hk hl => ?_, fun hst hk => ?_, fun i hst hl => ?_, fun i hst hl => ?_, fun hst hr => ?_,
      fun hst hr => ?_, fun tries hst => ?_, fun tries hst ht => ?_, fun hst => ?_, fun hst hk => ?_, fun hst hk => ?_⟩
    case refine_11 =>
      exact hdone ((writerDone_failed (hst.imp_right (·.imp_right Or.inl))).trans (failBuild_other hk)) (Option.some_ne_none _)
    case refine_12 =>
      refine hdone ((writerDone_failed (l := l) ?_).trans (failBuild_commit hk)) (Option.some_ne_none _)
      exact hst.imp_right fun h => Or.inr (Or.inr h)
    all_goals subst hst
    · exact hdone (writerDone_header.trans ((if_neg hk).trans (if_pos (one_lt_cells hl)))) (Option.some_ne_none _)
    · exact hdone (writerDone_header.trans ((if_neg hk).trans (if_neg (cells_le_one hl)))) (Option.some_ne_none _)
    · exact hdone (writerDone_header.trans (if_pos hk)) (Option.some_ne_none _)
    · exact hdone (writerDone_payload.trans (if_pos (more_cells_iff.2 hl))) (Option.some_ne_none _)
    · exact hdone (writerDone_payload.trans (if_neg fun h => Nat.not_lt.2 hl (more_cells_iff.1 h))) (Option.some_ne_none _)
    · exact hdone (writerDone_written.trans (if_neg hr)) (Option.some_ne_none _)
    · exact hdone (writerDone_written.trans (if_pos hr)) (Option.some_ne_none _)
    · exact hdone rfl (Option.some_ne_none _)
    · exact hdone (if_pos ht) (Option.some_ne_none _)
    · exact hdone rfl (Option.some_ne_none _)
  case advances =>
    intro only full follows
    refine ⟨fun j st rec q l tries u hq hio hcur => ?_, fun j seg back rec s h hcur => shut_row h hcur,
      fun j seg tries back rec q u hq hio hcur => ⟨fun ht => ?_, fun ok hok => done_follows hq hio hcur (writerDone_shut hok)⟩⟩
    · intro asks mark ofMember names suspect short
      have hdone : ∀ {ok : Bool} {w : Units}, writerDone ok (u.atJob j st rec ⟨none, false⟩) = w → w.rw.cur ≠ none →
          programDelivered q ok u = w := fun hd hw => delivered_busy hq hio hcur hd hw
      have hmark : ∀ k, k ≤ 3 → mark k = retireMark k := fun k hk => retireMark_eq hk
      refine ⟨fun r hj hst ht => ?_, fun why k hst => ?_⟩
      · subst hj hst
        exact short_follows hq hio hcur (writerDone_live_short ht)
      · subst hst
        have hnames : names = jobNames ⟨j, .retiring why l k tries, rec⟩ u := by cases j <;> cases why <;> rfl
        refine ⟨fun hk => ?_, fun hk => ?_, fun hw => ?_, fun hw hk ht => ?_, fun hw ht => ?_⟩
        · rw [hmark (k + 1) hk]
          exact hdone (writerDone_retiring_next hk) (Option.some_ne_none _)
        · subst hk
          exact done_follows hq hio hcur writerDone_retiring_last
        · subst hw
          exact done_follows hq hio hcur writerDone_retiring_failed
        · rw [hmark k hk]
          exact hdone (writerDone_retiring_again hw ht) (Option.some_ne_none _)
        · simp only [short, suspect, hnames]
          exact short_follows hq hio hcur (writerDone_retiring_short hw ht)
    · exact delivered_busy hq hio hcur (writerDone_shutting_again ht) (Option.some_ne_none _)

end Sys2Proof.Machine
end


section
/-! SUPPORT. The stored layouts (R3, R4, R8, R11 to R13, R16, R180): fields of bytes, record headers and segment headers. -/

namespace Sys2Proof.Machine

/-! ## Fields of bytes (R16, R180) -/

section Fields
variable {n v i k : Nat} {a b : List Byte}

@[simp] theorem toBytes_length : (toBytes n v).length = n := by
  induction n with
  | zero => rfl
  | succ n ih => rw [toBytes, List.length_cons, ih]

@[simp] theorem slice_length {bs : List Byte} : (slice bs i n).length = n := by
  rw [slice, List.length_map, List.length_range]

/-- The bytes of a field are read with the digits to their left. -/
theorem foldl_toBytes (acc : Nat) : (toBytes n v).foldl (fun acc b => acc * 256 + b.toNat) acc = acc * 256 ^ n + v % 256 ^ n := by
  induction n generalizing acc with
  | zero => simp [toBytes, Nat.mod_one]
  | succ n ih =>
    rw [toBytes, List.foldl_cons, ih, BitVec.toNat_ofNat]
    have hdigit : v % 256 ^ (n + 1) = 256 ^ n * (v / 256 ^ n % 256) + v % 256 ^ n := by
      rw [Nat.pow_succ, Nat.mod_mul, Nat.add_comm]
    rw [hdigit, Nat.pow_succ]
    ring

/-- A field written is the field read (R180). -/
theorem ofBytes_toBytes (h : v < 256 ^ n) : ofBytes (toBytes n v) = v := by
  rw [ofBytes, foldl_toBytes, Nat.zero_mul, Nat.zero_add, Nat.mod_eq_of_lt h]

theorem crc_lt (bs : List Byte) : crc bs < 65536 := BitVec.isLt _

theorem ofBytes_crc (bs : List Byte) : ofBytes (toBytes 2 (crc bs)) = crc bs := ofBytes_toBytes (crc_lt bs)

end Fields

/-! ## Record headers (R11 to R13) -/

/-- A header written is the header read. -/
theorem readHeader_bytes {h : Header} {st : Byte} (hkind : h.kind < 256) (hpart : h.part < 256) (hlength : h.length < 256)
    (hkey : h.key < 65536) (htxn : h.txn < 65536) (hgen : h.gen < 4294967296) (hpay : h.payCheck < 65536)
    (hhdr : h.hdrCheck < 65536) : readHeader (h.bytes st) = { h with status := st } := by
  have hfields : readHeader (h.bytes st) = ⟨st, ofBytes (toBytes 1 h.kind), ofBytes (toBytes 1 h.part),
      ofBytes (toBytes 1 h.length), ofBytes (toBytes 2 h.key), ofBytes (toBytes 2 h.txn), ofBytes (toBytes 4 h.gen),
      ofBytes (toBytes 2 h.payCheck), ofBytes (toBytes 2 h.hdrCheck)⟩ := rfl
  rw [hfields, ofBytes_toBytes hkind, ofBytes_toBytes hpart, ofBytes_toBytes hlength, ofBytes_toBytes hkey,
    ofBytes_toBytes htxn, ofBytes_toBytes hgen, ofBytes_toBytes hpay, ofBytes_toBytes hhdr]

section NewHeader
variable {kind : RecordKind} {part key length txn gen cell : Nat} {payload : List Byte} {st : Byte}

theorem kindOf_kindByte : kindOf (kindByte kind) = some kind := by cases kind <;> rfl

/-- The ranges of R12 for a record of a kind. -/
def FieldsSound (kind : RecordKind) (length key txn : Nat) : Prop :=
  (kind = .data → length ≤ 240 ∧ key ≤ 65534) ∧ (kind = .tombstone → length = 0 ∧ key ≤ 65534)
  ∧ (kind = .commit → length = 0 ∧ 1 ≤ key ∧ key ≤ 16 ∧ 1 ≤ txn)

theorem FieldsSound.bounds (h : FieldsSound kind length key txn) : length < 256 ∧ key < 65536 := by
  obtain ⟨hdata, htomb, hcommit⟩ := h
  cases kind with
  | data =>
    obtain ⟨hl, hk⟩ := hdata rfl
    exact ⟨by omega, by omega⟩
  | tombstone =>
    obtain ⟨hl, hk⟩ := htomb rfl
    exact ⟨by omega, by omega⟩
  | commit =>
    obtain ⟨hl, -, hk, -⟩ := hcommit rfl
    exact ⟨by omega, by omega⟩

theorem readHeader_newHeader (hpart : part ≤ 15) (htxn : txn < 65536) (hgen : gen ≤ 4294967293)
    (hf : FieldsSound kind length key txn) : readHeader ((newHeader kind part key length txn gen payload).bytes st)
      = { newHeader kind part key length txn gen payload with status := st } := by
  obtain ⟨hl, hk⟩ := hf.bounds
  have hkind : kindByte kind < 256 := by cases kind <;> decide
  have hp : part < 256 := by omega
  have hg : gen < 4294967296 := by omega
  exact readHeader_bytes (h := newHeader kind part key length txn gen payload) hkind hp hl hk htxn hg (crc_lt _) (crc_lt _)

/-- A new record's header is sound in each of its states (R12). -/
theorem newHeader_sound (hpart : part ≤ 15) (hg1 : 1 ≤ gen) (hgen : gen ≤ 4294967293) (hc : 1 ≤ cell)
    (hcells : cell + (1 + (length + 15) / 16) ≤ 128) (hf : FieldsSound kind length key txn) (hst : st.getLsbD 7 = false) :
    Header.sound { newHeader kind part key length txn gen payload with status := st } cell = true := by
  have hstate : readStatus st ≠ .free := by
    unfold readStatus
    rw [if_neg (by rw [hst]; exact Bool.false_ne_true)]
    split
    · decide
    · split
      · decide
      · split <;> decide
  have hranges : (match some kind with
      | some .data => decide (length ≤ 240) && decide (key ≤ 65534)
      | some .tombstone => decide (length = 0) && decide (key ≤ 65534)
      | some .commit => decide (length = 0) && decide (1 ≤ key ∧ key ≤ 16) && decide (1 ≤ txn)
      | none => false) = true := by
    obtain ⟨hdata, htomb, hcommit⟩ := hf
    cases kind with
    | data => simpa using hdata rfl
    | tombstone => simpa using htomb rfl
    | commit => simpa [and_assoc] using hcommit rfl
  unfold Header.sound
  simp only [Header.state, newHeader, kindOf_kindByte]
  simp only [Bool.and_eq_true, bne_iff_ne, beq_iff_eq]
  exact ⟨⟨⟨⟨⟨hstate, rfl⟩, decide_eq_true hpart⟩, hranges⟩, decide_eq_true ⟨hg1, hgen⟩⟩, decide_eq_true ⟨hc, hcells⟩⟩

end NewHeader

/-! ## Segment headers (R6, R8) -/

section Segments
variable {s : Byte} {count seq : Nat}

/-- A segment header whose count and number have been written (R6). -/
def segHeader (s : Byte) (count seq : Nat) : List Byte :=
  s :: (toBytes 3 count ++ toBytes 2 (crc (toBytes 3 count))) ++ (toBytes 4 seq ++ toBytes 2 (crc (toBytes 4 seq)))
    ++ List.replicate 4 0xFF

/-- A program clears bits and sets none (R3). -/
def onto (a b : List Byte) : List Byte := List.zipWith (· &&& ·) a b

theorem and_erased (b : Byte) : b &&& 0xFF = b := BitVec.and_allOnes

theorem erased_and (b : Byte) : 0xFF &&& b = b := BitVec.allOnes_and

theorem onto_openProgram : onto (prepareProgram count) (openProgram seq) = segHeader 0xFC count seq := by
  simp only [onto, prepareProgram, openProgram, segHeader, toBytes, segPattern, erasedByte, List.replicate, List.cons_append,
    List.nil_append, List.zipWith_cons_cons, List.zipWith_nil_left, and_erased, erased_and]
  rfl

theorem onto_mark {b : Byte} : onto (segHeader s count seq) (firstByteProgram b) = segHeader (s &&& b) count seq := by
  simp only [onto, firstByteProgram, segHeader, toBytes, erasedByte, List.replicate, List.cons_append,
    List.nil_append, List.zipWith_cons_cons, List.zipWith_nil_left, and_erased]

theorem classify_bad {bs : List Byte} (h : (bs.getD 0 0xFF).getLsbD 7 = false) : classify bs = some .bad := by
  have hread : readSegState (bs.getD 0 erasedByte) = some .bad := if_pos (by rw [show erasedByte = 0xFF from rfl, h]; rfl)
  simp only [classify, hread]

/-- A segment header with count and number in order classifies as its state byte says (R8). -/
theorem classify_checked {bs : List Byte} {k : SegState} (hread : readSegState (bs.getD 0 erasedByte) = some k)
    (hk : k ∈ [SegState.active, .full, .reclaiming]) :
    classify bs = if eraseCheckOk bs && seqCheckOk bs then some k else some .dirty := by
  simp only [List.mem_cons, List.not_mem_nil, or_false] at hk
  rcases hk with rfl | rfl | rfl <;> simp only [classify, hread]

theorem segHeader_eraseCheck : eraseCheckOk (segHeader s count seq) = true :=
  beq_iff_eq.2 (ofBytes_crc (toBytes 3 count)).symm

theorem segHeader_seqCheck : seqCheckOk (segHeader s count seq) = true :=
  beq_iff_eq.2 (ofBytes_crc (toBytes 4 seq)).symm

theorem classify_segHeader {k : SegState} (hread : readSegState s = some k) (hk : k ∈ [SegState.active, .full, .reclaiming]) :
    classify (segHeader s count seq) = some k := by
  have hstate : (segHeader s count seq).getD 0 erasedByte = s := rfl
  rw [classify_checked (bs := segHeader s count seq) (k := k) (by rw [hstate, hread]) hk, segHeader_eraseCheck,
    segHeader_seqCheck]
  rfl

theorem keptCount_segHeader (h : count < 16777216) : keptCount (segHeader s count seq) = some count := by
  have hfield : field (segHeader s count seq) 1 3 = ofBytes (toBytes 3 count) := rfl
  rw [keptCount, if_pos segHeader_eraseCheck, hfield, ofBytes_toBytes h]

theorem keptSeq_segHeader (h : seq < 4294967295) : keptSeq (segHeader s count seq) = some seq := by
  have hread : ofBytes (toBytes 4 seq) = seq := ofBytes_toBytes (by omega)
  have hwritten : allErased (toBytes 4 seq) = false := by
    refine Bool.eq_false_iff.2 fun hall => ?_
    have hbytes : toBytes 4 seq = List.replicate 4 0xFF := by
      refine List.eq_replicate_iff.2 ⟨toBytes_length, fun b hb => ?_⟩
      exact beq_iff_eq.1 (List.all_eq_true.1 hall b hb)
    rw [hbytes] at hread
    have hones : ofBytes (List.replicate 4 0xFF) = 4294967295 := by decide
    omega
  have hok : (seqCheckOk (segHeader s count seq) && !allErased (slice (segHeader s count seq) 6 4)) = true := by
    rw [segHeader_seqCheck, show slice (segHeader s count seq) 6 4 = toBytes 4 seq from rfl, hwritten]
    rfl
  rw [keptSeq, if_pos hok]
  exact congrArg some hread

theorem prepareProgram_eraseCheck : eraseCheckOk (prepareProgram count) = true :=
  beq_iff_eq.2 (ofBytes_crc (toBytes 3 count)).symm

theorem classify_prepareProgram : classify (prepareProgram count) = some .prepared := by
  have hstate : (prepareProgram count).getD 0 erasedByte = 0xFE := rfl
  have hread : readSegState ((prepareProgram count).getD 0 erasedByte) = some .prepared := by rw [hstate]; decide
  have hseq : seqErased (prepareProgram count) = true := rfl
  simp only [classify, hread, prepareProgram_eraseCheck, hseq, Bool.and_self, if_true]

theorem keptCount_prepareProgram (h : count < 16777216) : keptCount (prepareProgram count) = some count := by
  have hfield : field (prepareProgram count) 1 3 = ofBytes (toBytes 3 count) := rfl
  rw [keptCount, if_pos prepareProgram_eraseCheck, hfield, ofBytes_toBytes h]

/-- No state byte but the six is one (R4). -/
theorem readSegState_none {b : Byte} (h : b.getLsbD 7 = true) (hb : b ∉ ([0xFF, 0xFE, 0xFC, 0xF8, 0xF0] : List Byte)) :
    readSegState b = none := by
  simp only [List.mem_cons, List.not_mem_nil, or_false, not_or] at hb
  obtain ⟨h1, h2, h3, h4, h5⟩ := hb
  rw [readSegState, if_neg (by rw [h]; exact Bool.false_ne_true)]
  split
  · next hn => exact absurd (BitVec.eq_of_toNat_eq hn) h1
  · next hn => exact absurd (BitVec.eq_of_toNat_eq hn) h2
  · next hn => exact absurd (BitVec.eq_of_toNat_eq hn) h3
  · next hn => exact absurd (BitVec.eq_of_toNat_eq hn) h4
  · next hn => exact absurd (BitVec.eq_of_toNat_eq hn) h5
  · rfl

end Segments

end Sys2Proof.Machine
end


section
/-! SUPPORT. The policy image (R123, R152, R181): its parts at their offsets, and what is read of them. -/

namespace Sys2Proof.Machine

/-! ## Slices -/

section Slices
variable {bs pre mid post : List Byte} {i j n k : Nat}

theorem getElem_slice (h : j < (slice bs i n).length) : (slice bs i n)[j] = bs.getD (i + j) erasedByte := by
  simp only [slice, List.getElem_map, List.getElem_range]

/-- A part of a part. -/
theorem slice_slice (h : j + k ≤ n) : slice (slice bs i n) j k = slice bs (i + j) k := by
  refine List.ext_getElem (by simp only [slice_length]) fun m hm _ => ?_
  have hm : m < k := by simpa only [slice_length] using hm
  have hlt : j + m < (slice bs i n).length := by
    rw [slice_length]
    omega
  rw [getElem_slice, getElem_slice, List.getD_eq_getElem _ _ hlt, getElem_slice, Nat.add_assoc]

theorem field_slice (h : j + k ≤ n) : field (slice bs i n) j k = field bs (i + j) k := congrArg ofBytes (slice_slice h)

theorem getD_slice {d : Byte} (hj : j < n) (hlen : i + n ≤ bs.length) : (slice bs i n).getD j d = bs.getD (i + j) d := by
  have hlt : j < (slice bs i n).length := by rwa [slice_length]
  have hin : i + j < bs.length := by omega
  rw [List.getD_eq_getElem _ _ hlt, getElem_slice, List.getD_eq_getElem _ _ hin, List.getD_eq_getElem _ _ hin]

/-- The bytes that lie at an offset. -/
theorem slice_at (hpre : pre.length = i) (hmid : mid.length = n) : slice (pre ++ (mid ++ post)) i n = mid := by
  refine List.ext_getElem (by rw [slice_length, hmid]) fun m hm hm' => ?_
  have hlt : i + m < (pre ++ (mid ++ post)).length := by
    simp only [List.length_append]
    omega
  rw [getElem_slice, List.getD_eq_getElem _ _ hlt, List.getElem_append_right (by omega)]
  simp only [hpre, Nat.add_sub_cancel_left]
  exact List.getElem_append_left hm'

end Slices

/-! ## The parts of an image -/

section Image
variable {s : Shadow} {e : PartEntry} {p : PortEntry} {n : Nat}

theorem partBytes_length : e.bytes.length = 9 := by
  simp only [PartEntry.bytes, List.length_append, List.length_cons, toBytes_length, List.length_nil]

theorem portBytes_length : p.bytes.length = 6 := rfl

theorem flatMap_bytes_length (es : List PartEntry) : (es.flatMap PartEntry.bytes).length = 9 * es.length := by
  induction es with
  | nil => rfl
  | cons e es ih =>
    rw [List.flatMap_cons, List.length_append, ih, partBytes_length, List.length_cons]
    omega

theorem body_length (h : s.parts.length = 16) : s.body.length = 169 := by
  simp only [Shadow.body, List.length_append, flatMap_bytes_length, portBytes_length, toBytes_length, h]

/-- An image of 169 bytes at offsets 5 to 173. -/
theorem sealImage_length {v : Byte} {seq : Nat} {body : List Byte} (h : body.length = 169) :
    (sealImage v seq body).length = 176 := by
  simp only [sealImage, List.length_append, List.length_cons, toBytes_length, h]

theorem field_sealImage_seq {v : Byte} {seq : Nat} {body : List Byte} (hseq : seq < 4294967296) :
    field (sealImage v seq body) 1 4 = seq := by
  have himage : sealImage v seq body = [v] ++ (toBytes 4 seq ++ (body ++ toBytes 2 (crc (toBytes 4 seq ++ body)))) := by
    simp only [sealImage, List.cons_append, List.nil_append, List.append_assoc]
  have hslice : slice (sealImage v seq body) 1 4 = toBytes 4 seq := by
    rw [himage]
    exact slice_at rfl toBytes_length
  rw [field, hslice, ofBytes_toBytes hseq]

section Sealed
variable {v : Byte} {seq : Nat} {body : List Byte} (h : body.length = 169)
include h

/-- A part of the body of an image, at its offset in the image. -/
theorem slice_sealImage {i k : Nat} (hk : i + k ≤ 169) : slice (sealImage v seq body) (5 + i) k = slice body i k := by
  have himage : sealImage v seq body = (v :: toBytes 4 seq) ++ (body ++ toBytes 2 (crc (toBytes 4 seq ++ body))) := by
    simp only [sealImage, List.cons_append, List.append_assoc]
  have hbody : slice (sealImage v seq body) 5 169 = body := by
    rw [himage]
    exact slice_at (by rw [List.length_cons, toBytes_length]) h
  rw [← slice_slice hk, hbody]

theorem slice_sealImage_covered : slice (sealImage v seq body) 1 173 = toBytes 4 seq ++ body :=
  slice_at (pre := [v]) (mid := toBytes 4 seq ++ body) (post := toBytes 2 (crc (toBytes 4 seq ++ body))) rfl
    (by rw [List.length_append, toBytes_length, h])

theorem field_sealImage_check : field (sealImage v seq body) 174 2 = crc (toBytes 4 seq ++ body) := by
  have himage : sealImage v seq body
      = (v :: (toBytes 4 seq ++ body)) ++ (toBytes 2 (crc (toBytes 4 seq ++ body)) ++ []) := by rw [List.append_nil]; rfl
  have hslice : slice (sealImage v seq body) 174 2 = toBytes 2 (crc (toBytes 4 seq ++ body)) := by
    rw [himage]
    exact slice_at (by rw [List.length_cons, List.length_append, toBytes_length, h]) toBytes_length
  rw [field, hslice, ofBytes_crc]

theorem sealImage_checkOk : imageCheckOk (sealImage v seq body) = true := by
  rw [imageCheckOk, slice_sealImage_covered h, field_sealImage_check h]
  exact beq_self_eq_true _

end Sealed

/-- The bytes of a partition entry, in the body. -/
theorem slice_body_part (hn : s.parts[n]? = some e) : slice s.body (9 * n) 9 = e.bytes := by
  obtain ⟨hlt, rfl⟩ := List.getElem?_eq_some_iff.1 hn
  have hsplit : s.parts = s.parts.take n ++ s.parts[n] :: s.parts.drop (n + 1) := by simp
  have hbody : s.body = (s.parts.take n).flatMap PartEntry.bytes ++ (s.parts[n].bytes
      ++ ((s.parts.drop (n + 1)).flatMap PartEntry.bytes ++ s.ports.a.bytes ++ s.ports.b.bytes ++ s.ports.c.bytes
        ++ s.ports.d.bytes ++ toBytes 1 s.lowWater)) := by
    rw [Shadow.body]
    conv_lhs => rw [hsplit]
    simp only [List.flatMap_append, List.flatMap_cons, List.append_assoc]
  rw [hbody]
  exact slice_at (by rw [flatMap_bytes_length, List.length_take, Nat.min_eq_left (Nat.le_of_lt hlt)]) partBytes_length

/-- The place of a port's entry. -/
def portPlace : Port → Nat
  | .a => 0 | .b => 1 | .c => 2 | .d => 3

theorem slice_body_port (h : s.parts.length = 16) (p : Port) :
    slice s.body (144 + 6 * portPlace p) 6 = (s.ports.get p).bytes := by
  have hparts : (s.parts.flatMap PartEntry.bytes).length = 144 := by rw [flatMap_bytes_length, h]
  cases p with
  | a =>
    rw [Shadow.body]
    simp only [List.append_assoc]
    exact slice_at hparts portBytes_length
  | b =>
    rw [Shadow.body]
    simp only [List.append_assoc]
    rw [← List.append_assoc]
    exact slice_at (by rw [List.length_append, hparts]; rfl) portBytes_length
  | c =>
    rw [Shadow.body]
    simp only [List.append_assoc]
    rw [← List.append_assoc, ← List.append_assoc]
    exact slice_at (by rw [List.length_append, List.length_append, hparts]; rfl) portBytes_length
  | d =>
    rw [Shadow.body]
    simp only [List.append_assoc]
    rw [← List.append_assoc, ← List.append_assoc, ← List.append_assoc]
    exact slice_at (by rw [List.length_append, List.length_append, List.length_append, hparts]; rfl) portBytes_length

theorem slice_body_lowWater (h : s.parts.length = 16) : slice s.body 168 1 = toBytes 1 s.lowWater := by
  have hparts : (s.parts.flatMap PartEntry.bytes).length = 144 := by rw [flatMap_bytes_length, h]
  have hbody : s.body = (s.parts.flatMap PartEntry.bytes ++ s.ports.a.bytes ++ s.ports.b.bytes ++ s.ports.c.bytes
      ++ s.ports.d.bytes) ++ (toBytes 1 s.lowWater ++ []) := by rw [List.append_nil, Shadow.body]
  rw [hbody]
  exact slice_at (by simp only [List.length_append, hparts, portBytes_length]) toBytes_length

end Image

/-! ## What an image reads as (R123) -/

section Reading
variable {bs : List Byte} {n : Nat} {s : Shadow}

/-- A partition entry by its nine bytes. -/
def partOf (m : List Byte) : Option PartEntry := do
  let a ← readRight (m.getD 5 0)
  let b ← readRight (m.getD 6 0)
  let c ← readRight (m.getD 7 0)
  let d ← readRight (m.getD 8 0)
  if field m 0 1 ≤ 3 ∧ field m 1 2 ≤ 7874 ∧ 1 ≤ field m 3 2 ∧ field m 3 2 ≤ 6000 then
    some ⟨field m 0 1 % 2 == 1, field m 0 1 / 2 == 1, field m 1 2, field m 3 2, ⟨a, b, c, d⟩⟩
  else none

theorem readPart_eq (hlen : bs.length = 176) (hn : n < 16) : readPart bs n = partOf (slice bs (5 + 9 * n) 9) := by
  have hin : 5 + 9 * n + 9 ≤ bs.length := by omega
  unfold readPart partOf
  simp only [field_slice (show 0 + 1 ≤ 9 by decide), field_slice (show 1 + 2 ≤ 9 by decide),
    field_slice (show 3 + 2 ≤ 9 by decide), getD_slice (show 5 < 9 by decide) hin, getD_slice (show 6 < 9 by decide) hin,
    getD_slice (show 7 < 9 by decide) hin, getD_slice (show 8 < 9 by decide) hin, Nat.add_zero]

/-- A port entry by its six bytes. -/
def portOf (m : List Byte) : Option PortEntry := do
  let a ← readView (m.getD 2 0)
  let b ← readView (m.getD 3 0)
  let c ← readView (m.getD 4 0)
  let d ← readView (m.getD 5 0)
  if field m 0 1 ≤ 1 then some ⟨field m 0 1 == 1, field m 1 1, ⟨a, b, c, d⟩⟩ else none

theorem readPortEntry_eq (hlen : bs.length = 176) (hn : n < 4) : readPortEntry bs n = portOf (slice bs (149 + 6 * n) 6) := by
  have hin : 149 + 6 * n + 6 ≤ bs.length := by omega
  unfold readPortEntry portOf
  simp only [field_slice (show 0 + 1 ≤ 6 by decide), field_slice (show 1 + 1 ≤ 6 by decide),
    getD_slice (show 2 < 6 by decide) hin, getD_slice (show 3 < 6 by decide) hin,
    getD_slice (show 4 < 6 by decide) hin, getD_slice (show 5 < 6 by decide) hin, Nat.add_zero]

theorem readRight_rightByte (r : Right) : readRight (rightByte r) = some r := by cases r <;> rfl

theorem readView_viewByte {v : Option Nat} (h : ∀ part, v = some part → part ≤ 15) : readView (viewByte v) = some v := by
  cases v with
  | none => rfl
  | some part =>
    have hle := h part rfl
    have hnat : (BitVec.ofNat 8 part).toNat = part := by
      rw [BitVec.toNat_ofNat]
      omega
    rw [viewByte, readView, hnat, if_pos hle]

/-- The flags of a partition entry (R181). -/
theorem partFlags {e : PartEntry} : field e.bytes 0 1 = (if e.enabled then 1 else 0) + if e.fixed then 2 else 0 := by
  have hslice : field e.bytes 0 1 = ofBytes [(if e.enabled then 1 else 0) ||| (if e.fixed then 2 else 0)] := rfl
  rw [hslice]
  cases e.enabled <;> cases e.fixed <;> rfl

theorem partQuota {e : PartEntry} (h : e.quota ≤ 7874) : field e.bytes 1 2 = e.quota := by
  have hslice : field e.bytes 1 2 = ofBytes (toBytes 2 e.quota) := rfl
  rw [hslice, ofBytes_toBytes (by omega)]

theorem partLease {e : PartEntry} (h : e.lease ≤ 6000) : field e.bytes 3 2 = e.lease := by
  have hslice : field e.bytes 3 2 = ofBytes (toBytes 2 e.lease) := rfl
  rw [hslice, ofBytes_toBytes (by omega)]

/-- A partition entry written is the one read. -/
theorem partOf_bytes {e : PartEntry} (hq : e.quota ≤ 7874) (hl : 1 ≤ e.lease) (hl' : e.lease ≤ 6000) :
    partOf e.bytes = some e := by
  have ha : e.bytes.getD 5 0 = rightByte e.rights.a := rfl
  have hb : e.bytes.getD 6 0 = rightByte e.rights.b := rfl
  have hc : e.bytes.getD 7 0 = rightByte e.rights.c := rfl
  have hd : e.bytes.getD 8 0 = rightByte e.rights.d := rfl
  have hflags : (if e.enabled then 1 else 0) + (if e.fixed then 2 else 0) ≤ 3 := by split <;> split <;> decide
  unfold partOf
  simp only [ha, hb, hc, hd, readRight_rightByte, partFlags, partQuota hq, partLease hl', Option.bind_eq_bind, Option.bind_some,
    if_pos (And.intro hflags (And.intro hq (And.intro hl hl')))]
  obtain ⟨enabled, fixed, quota, lease, rights⟩ := e
  cases enabled <;> cases fixed <;> simp

theorem portAuthority {e : PortEntry} : field e.bytes 0 1 = if e.authority then 1 else 0 := by
  have hslice : field e.bytes 0 1 = ofBytes [if e.authority then 1 else 0] := rfl
  rw [hslice]
  cases e.authority <;> rfl

theorem portWaitLimit {e : PortEntry} (h : e.waitLimit < 256) : field e.bytes 1 1 = e.waitLimit := by
  have hslice : field e.bytes 1 1 = ofBytes (toBytes 1 e.waitLimit) := by rw [toBytes_one]; rfl
  rw [hslice, ofBytes_toBytes h]

/-- A port entry written is the one read. -/
theorem portOf_bytes {e : PortEntry} (hw : e.waitLimit < 256)
    (hv : ∀ k part, k < 4 → e.defaultView.at k = some part → part ≤ 15) : portOf e.bytes = some e := by
  have ha : readView (e.bytes.getD 2 0) = some e.defaultView.a := readView_viewByte fun part => hv 0 part (by decide)
  have hb : readView (e.bytes.getD 3 0) = some e.defaultView.b := readView_viewByte fun part => hv 1 part (by decide)
  have hc : readView (e.bytes.getD 4 0) = some e.defaultView.c := readView_viewByte fun part => hv 2 part (by decide)
  have hd : readView (e.bytes.getD 5 0) = some e.defaultView.d := readView_viewByte fun part => hv 3 part (by decide)
  have hauth : (if e.authority then 1 else 0) ≤ 1 := by split <;> decide
  unfold portOf
  simp only [ha, hb, hc, hd, portAuthority, portWaitLimit hw, Option.bind_eq_bind, Option.bind_some, if_pos hauth]
  obtain ⟨authority, waitLimit, defaultView⟩ := e
  cases authority <;> simp

theorem mapM_eq_some {α β : Type} {f : α → Option β} {g : α → β} {l : List α} (h : ∀ x ∈ l, f x = some (g x)) :
    l.mapM f = some (l.map g) := by
  induction l with
  | nil => rfl
  | cons x l ih =>
    obtain ⟨hx, hl⟩ := List.forall_mem_cons.1 h
    rw [List.mapM_cons, hx, ih hl]
    rfl

/-- The sixteen partition entries of an image. -/
theorem readParts_eq (hlen : s.parts.length = 16) (h : ∀ n e, s.parts[n]? = some e → readPart bs n = some e) :
    (List.range 16).mapM (readPart bs) = some s.parts := by
  have hread : ∀ n ∈ List.range 16, readPart bs n = some (s.parts.getD n ⟨false, false, 0, 1, Four.all .none⟩) := by
    intro n hn
    have hlt : n < s.parts.length := by
      rw [hlen]
      exact List.mem_range.1 hn
    rw [List.getD_eq_getElem _ _ hlt]
    exact h n _ (List.getElem?_eq_getElem hlt)
  rw [mapM_eq_some hread]
  refine congrArg some (List.ext_getElem (by simp [hlen]) fun n hn hn' => ?_)
  rw [List.getElem_map, List.getElem_range, List.getD_eq_getElem _ _ hn']

end Reading

end Sys2Proof.Machine
end


section
/-! SUPPORT. The stored layouts, assembled (R3, R4, R6, R8, R11 to R13, R16, R123, R152, R181). -/

namespace Sys2Proof.Machine

section Policy
variable {bs : List Byte} {s : Shadow} {v : Byte} {seq n : Nat}

/-- The ranges a policy's image keeps (R123). -/
structure Shadow.InRange (s : Shadow) : Prop where
  parts  : s.parts.length = 16
  fields : ∀ e ∈ s.parts, e.quota ≤ 7874 ∧ 1 ≤ e.lease ∧ e.lease ≤ 6000
  ports  : ∀ p, (s.ports.get p).waitLimit < 256
    ∧ ∀ k part, k < 4 → (s.ports.get p).defaultView.at k = some part → part ≤ 15
  low    : 3 ≤ s.lowWater ∧ s.lowWater ≤ 16
  seq    : s.seq < 4294967296

/-- The nine bytes of a partition entry. -/
theorem slice_image_part {e : PartEntry} (h : s.InRange) (hn : s.parts[n]? = some e) : slice s.image (5 + 9 * n) 9 = e.bytes := by
  have hlt : n < 16 := h.parts ▸ (List.getElem?_eq_some_iff.1 hn).1
  rw [Shadow.image, slice_sealImage (body_length h.parts) (by omega), slice_body_part hn]

/-- The six bytes of a port entry. -/
theorem slice_image_port (h : s.InRange) (p : Port) : slice s.image (149 + 6 * portPlace p) 6 = (s.ports.get p).bytes := by
  have hplace : portPlace p ≤ 3 := by cases p <;> decide
  have hat : 149 + 6 * portPlace p = 5 + (144 + 6 * portPlace p) := by omega
  rw [Shadow.image, hat, slice_sealImage (body_length h.parts) (by omega), slice_body_port h.parts p]

theorem mapM_congr {α β : Type} {f g : α → Option β} {l : List α} (h : ∀ x ∈ l, f x = g x) : l.mapM f = l.mapM g := by
  induction l with
  | nil => rfl
  | cons x l ih =>
    obtain ⟨hx, hl⟩ := List.forall_mem_cons.1 h
    rw [List.mapM_cons, List.mapM_cons, hx, ih hl]

/-- What an image reads as, entry by entry (R123). -/
theorem readPolicy_eq (hlen : bs.length = 176) (hparts : s.parts.length = 16)
    (hpart : ∀ n e, s.parts[n]? = some e → partOf (slice bs (5 + 9 * n) 9) = some e)
    (hport : ∀ p, portOf (slice bs (149 + 6 * portPlace p) 6) = some (s.ports.get p))
    (hlow : field bs 173 1 = s.lowWater) (hrange : 3 ≤ s.lowWater ∧ s.lowWater ≤ 16) :
    readPolicy bs = some { s with seq := field bs 1 4 } := by
  have hread : (List.range 16).mapM (readPart bs) = some s.parts := readParts_eq hparts fun n e hn => by
    have hlt : n < 16 := hparts ▸ (List.getElem?_eq_some_iff.1 hn).1
    rw [readPart_eq hlen hlt, hpart n e hn]
  have ha : readPortEntry bs 0 = some s.ports.a := (readPortEntry_eq hlen (by decide)).trans (hport .a)
  have hb : readPortEntry bs 1 = some s.ports.b := (readPortEntry_eq hlen (by decide)).trans (hport .b)
  have hc : readPortEntry bs 2 = some s.ports.c := (readPortEntry_eq hlen (by decide)).trans (hport .c)
  have hd : readPortEntry bs 3 = some s.ports.d := (readPortEntry_eq hlen (by decide)).trans (hport .d)
  unfold readPolicy
  simp only [hread, ha, hb, hc, hd, hlow, Option.bind_eq_bind, Option.bind_some, if_pos hrange]

theorem usableImage_eq (hv : bs.getD 0 erasedByte = 0x3F) (hok : imageCheckOk bs = true) : usableImage bs = readPolicy bs :=
  if_pos ⟨hv, hok⟩

theorem usableImage_none (hv : bs.getD 0 erasedByte ≠ 0x3F) : usableImage bs = none := if_neg fun h => hv h.1

theorem field_image_lowWater (h : s.InRange) : field s.image 173 1 = s.lowWater := by
  have hslice : slice s.image (5 + 168) 1 = toBytes 1 s.lowWater :=
    (slice_sealImage (body_length h.parts) (by decide)).trans (slice_body_lowWater h.parts)
  have hlow : s.lowWater < 256 ^ 1 := by
    have hmax := h.low.2
    omega
  exact (congrArg ofBytes hslice).trans (ofBytes_toBytes hlow)

/-- A shadow's image is the policy's (R150, R181). -/
theorem usableImage_image (h : s.InRange) : usableImage s.image = some s := by
  have hbody := body_length h.parts
  have hlen : s.image.length = 176 := sealImage_length hbody
  have hok : imageCheckOk s.image = true := sealImage_checkOk hbody
  have hpart : ∀ n e, s.parts[n]? = some e → partOf (slice s.image (5 + 9 * n) 9) = some e := fun n e hn => by
    obtain ⟨hq, hl, hl'⟩ := h.fields e (List.mem_of_getElem? hn)
    rw [slice_image_part h hn, partOf_bytes hq hl hl']
  have hport : ∀ p, portOf (slice s.image (149 + 6 * portPlace p) 6) = some (s.ports.get p) := fun p => by
    obtain ⟨hw, hv⟩ := h.ports p
    rw [slice_image_port h p, portOf_bytes hw hv]
  rw [usableImage_eq rfl hok, readPolicy_eq hlen h.parts hpart hport (field_image_lowWater h) h.low,
    show field s.image 1 4 = s.seq from field_sealImage_seq h.seq]

/-- The staged body, sealed anew (R152). -/
theorem readPolicy_sealed {staged : List Byte} (hlen : staged.length = 176) (hr : readPolicy staged = some s)
    (hn : n < 4294967296) : readPolicy (sealImage v n (slice staged 5 169)) = some { s with seq := n } := by
  have hbody : (slice staged 5 169).length = 169 := slice_length
  have hslice : ∀ i k, i + k ≤ 169 → slice (sealImage v n (slice staged 5 169)) (5 + i) k = slice staged (5 + i) k :=
    fun i k hk => (slice_sealImage hbody hk).trans (slice_slice hk)
  have hlen' : (sealImage v n (slice staged 5 169)).length = 176 := sealImage_length hbody
  have hparts : (List.range 16).mapM (readPart (sealImage v n (slice staged 5 169))) = (List.range 16).mapM (readPart staged) := by
    refine mapM_congr fun k hk => ?_
    have hk : k < 16 := List.mem_range.1 hk
    have hat : 5 + 9 * k + 9 ≤ 174 := by omega
    rw [readPart_eq hlen' hk, readPart_eq hlen hk, hslice _ _ (by omega)]
  have hports : ∀ k < 4, readPortEntry (sealImage v n (slice staged 5 169)) k = readPortEntry staged k := fun k hk => by
    have hat : 149 + 6 * k = 5 + (144 + 6 * k) := by omega
    rw [readPortEntry_eq hlen' hk, readPortEntry_eq hlen hk, hat, hslice _ _ (by omega)]
  have hlow : field (sealImage v n (slice staged 5 169)) 173 1 = field staged 173 1 := congrArg ofBytes (hslice 168 1 (by decide))
  have hseq : field (sealImage v n (slice staged 5 169)) 1 4 = n := field_sealImage_seq hn
  unfold readPolicy at hr ⊢
  rw [hparts, hports 0 (by decide), hports 1 (by decide), hports 2 (by decide), hports 3 (by decide), hlow, hseq]
  simp only [Option.bind_eq_bind, Option.bind_eq_some_iff] at hr ⊢
  obtain ⟨parts, hparts, a, ha, b, hb, c, hc, d, hd, hlast⟩ := hr
  refine ⟨parts, hparts, a, ha, b, hb, c, hc, d, hd, ?_⟩
  split at hlast
  · next hrange =>
    rw [if_pos hrange, ← Option.some.inj hlast]
  · cases hlast

end Policy

/-! ## Classes of any 16 bytes (R8) -/

section Classes
variable {bs : List Byte} {count : Nat}

/-- A prepared segment withdrawn. -/
theorem classify_withdrawn : classify (onto (prepareProgram count) (firstByteProgram 0x7F)) = some .bad := by
  have hstate : (onto (prepareProgram count) (firstByteProgram 0x7F)).getD 0 0xFF = 0x7E := rfl
  exact classify_bad (by rw [hstate]; decide)

theorem classify_segHeader_bad {seq : Nat} : classify (segHeader (0xFC &&& 0x7F) count seq) = some .bad := by
  have hstate : (segHeader (0xFC &&& 0x7F) count seq).getD 0 0xFF = 0x7C := rfl
  exact classify_bad (by rw [hstate]; decide)

theorem classify_erased (h : bs.getD 0 erasedByte = 0xFF) :
    classify bs = if allErased (slice bs 0 16) then none else some .dirty := by
  have hread : readSegState (bs.getD 0 erasedByte) = some .blank := by rw [h]; decide
  simp only [classify, hread]

theorem classify_preparedByte (h : bs.getD 0 erasedByte = 0xFE) :
    classify bs = if eraseCheckOk bs && seqErased bs then some .prepared else some .dirty := by
  have hread : readSegState (bs.getD 0 erasedByte) = some .prepared := by rw [h]; decide
  simp only [classify, hread]

theorem classify_unknown (h : (bs.getD 0 erasedByte).getLsbD 7 = true)
    (hb : bs.getD 0 erasedByte ∉ ([0xFF, 0xFE, 0xFC, 0xF8, 0xF0] : List Byte)) : classify bs = some .dirty := by
  simp only [classify, readSegState_none h hb]

theorem seqErased_iff : seqErased bs = true ↔ slice bs 6 6 = List.replicate 6 0xFF := by
  rw [List.eq_replicate_iff, and_iff_right slice_length]
  exact List.all_eq_true.trans (forall_congr' fun b => imp_congr_right fun _ => beq_iff_eq)

end Classes

/-! ## The entries of an image (R181) -/

section Entries

/-- A field of an entry, at its offset in the image. -/
theorem field_entry {bs m : List Byte} {i w j k at' : Nat} (hs : slice bs i w = m) (hat : at' = i + j) (hk : j + k ≤ w) :
    field bs at' k = field m j k := by
  rw [hat, ← hs, field_slice hk]

theorem slice_entry {bs m : List Byte} {i w j k at' : Nat} (hs : slice bs i w = m) (hat : at' = i + j) (hk : j + k ≤ w) :
    slice bs at' k = slice m j k := by
  rw [hat, ← hs, slice_slice hk]

end Entries

/-- Settles O60, layout by layout. -/
theorem storedLayoutsReadBack : Obligations.StoredLayoutsReadBack := by
  have hfirst : ∀ (b : Byte) (rest : List Byte), b ≠ 0x3F → (b :: rest).getD 0 erasedByte ≠ 0x3F := fun _ _ h => h
  refine ⟨fun h st hk hp hl hkey ht hg hpay hh => readHeader_bytes hk hp hl hkey ht hg hpay hh,
    fun kind part key length txn gen cell payload st hpart htxn hg1 hgen hc hcells hdata htomb hcommit hst => ?header,
    fun count seq hcount hseq => ?segment, fun b => rfl, fun bs => ?classes,
    fun s hlen hfields hports hlow hlow' hseq => ?image, fun staged s n hlen hr hn => ?sealed, by decide +kernel⟩
  case header =>
    have hf : FieldsSound kind length key txn := ⟨hdata, htomb, hcommit⟩
    have hmark : st.getLsbD 7 = false := by
      simp only [List.mem_cons, List.not_mem_nil, or_false] at hst
      rcases hst with rfl | rfl | rfl | rfl <;> rfl
    dsimp only
    rw [readHeader_newHeader hpart htxn hgen hf]
    exact ⟨newHeader_sound hpart hg1 hgen hc hcells hf hmark, by cases kind <;> rfl, rfl, rfl, rfl, rfl⟩
  case segment =>
    intro prepared onto' opened mark
    have hopened : opened = segHeader 0xFC count seq := onto_openProgram
    have hmark : ∀ b, mark b = segHeader (0xFC &&& b) count seq := fun b =>
      (congrArg (fun x => onto x (firstByteProgram b)) hopened).trans onto_mark
    have hreclaiming : onto' (mark 0xF8) (firstByteProgram 0xF0) = segHeader 0xF0 count seq :=
      (congrArg (fun x => onto x (firstByteProgram 0xF0)) (hmark 0xF8)).trans onto_mark
    rw [hopened, hreclaiming, hmark, hmark]
    exact ⟨classify_prepareProgram, keptCount_prepareProgram hcount, classify_segHeader (by decide) (by decide),
      keptCount_segHeader hcount, keptSeq_segHeader hseq, classify_segHeader (by decide) (by decide),
      classify_segHeader (by decide) (by decide), classify_segHeader_bad,
      classify_withdrawn⟩
  case classes =>
    intro first countOk numberOk
    have hstate : ∀ {b : Byte}, first = b → bs.getD 0 erasedByte = b := fun h => h
    have hcount : eraseCheckOk bs = true ↔ countOk := beq_iff_eq
    have hnumber : seqCheckOk bs = true ↔ numberOk := beq_iff_eq
    refine ⟨fun h => classify_bad h, fun h he => (classify_erased h).trans (if_pos he),
      fun h he => (classify_erased h).trans (if_neg (Bool.eq_false_iff.1 he)),
      fun h hc hs => (classify_preparedByte h).trans (if_pos ?_), fun h hn => (classify_preparedByte h).trans (if_neg ?_),
      fun k hk h => ?_, fun h hb => classify_unknown h hb⟩
    · rw [hcount.2 hc, seqErased_iff.2 hs]
      rfl
    · rw [Bool.and_eq_true, hcount, seqErased_iff]
      exact fun hh => hn.elim (fun hc => hc hh.1) fun hs => hs hh.2
    · have hclass : classify bs = if eraseCheckOk bs && seqCheckOk bs then some k.2 else some .dirty := by
        simp only [List.mem_cons, List.not_mem_nil, or_false] at hk
        rcases hk with rfl | rfl | rfl <;> exact classify_checked (by rw [hstate h]; decide) (by decide)
      refine ⟨fun hc hn => hclass.trans (if_pos ?_), fun hn => hclass.trans (if_neg ?_)⟩
      · rw [hcount.2 hc, hnumber.2 hn]
        rfl
      · rw [Bool.and_eq_true, hcount, hnumber]
        exact fun hh => hn.elim (fun hc => hc hh.1) fun hs => hs hh.2
  case image =>
    have h : s.InRange := ⟨hlen, hfields, hports, ⟨hlow, hlow'⟩, hseq⟩
    have hbody := body_length hlen
    intro image flag right view
    have hright : ∀ r, right r = rightByte r := fun r => by cases r <;> rfl
    have hview : ∀ v, view v = viewByte v := fun v => by cases v <;> rfl
    refine ⟨sealImage_length hbody, rfl, field_sealImage_seq hseq, fun n e hn => ?_, fun n p hp => ?_,
      field_image_lowWater h, ?_, usableImage_image h, usableImage_none (hfirst 0xFF _ (by decide)),
      usableImage_none (hfirst 0x7F _ (by decide))⟩
    · obtain ⟨hq, hl, hl'⟩ := hfields e (List.mem_of_getElem? hn)
      have hs := slice_image_part h hn
      refine ⟨(field_entry (j := 0) hs (by omega) (by decide)).trans partFlags,
        (field_entry (j := 1) hs (by omega) (by decide)).trans (partQuota hq),
        (field_entry (j := 3) hs (by omega) (by decide)).trans (partLease hl'),
        (slice_entry (j := 5) hs (by omega) (by decide)).trans ?_⟩
      rw [hright, hright, hright, hright]
      rfl
    · have hn : n = portPlace p := by
        simp only [List.mem_cons, List.not_mem_nil, or_false, Prod.mk.injEq] at hp
        rcases hp with ⟨rfl, rfl⟩ | ⟨rfl, rfl⟩ | ⟨rfl, rfl⟩ | ⟨rfl, rfl⟩ <;> rfl
      have hs := slice_image_port h p
      rw [hn]
      refine ⟨(field_entry (j := 0) hs (by omega) (by decide)).trans portAuthority,
        (field_entry (j := 1) hs (by omega) (by decide)).trans (portWaitLimit (hports p).1),
        (slice_entry (j := 2) hs (by omega) (by decide)).trans ?_⟩
      rw [hview, hview, hview, hview]
      rfl
    · exact (field_sealImage_check hbody).trans (congrArg crc (slice_sealImage_covered hbody).symm)
  case sealed =>
    have hbody : (slice staged 5 169).length = 169 := slice_length
    have hread : readPolicy (sealImage 0x3F n (slice staged 5 169)) = some { s with seq := n } := readPolicy_sealed hlen hr hn
    exact ⟨sealImage_length hbody, usableImage_none (hfirst 0x7F _ (by decide)),
      (usableImage_eq (bs := sealImage 0x3F n (slice staged 5 169)) rfl (sealImage_checkOk hbody)).trans hread⟩

end Sys2Proof.Machine
end


section
/-! SUPPORT. What a PORT_RESET drops of each unit's work for the port (R36, R53, R98, R155, R179). -/

namespace Sys2Proof.Machine

section Parts
variable {p : Port} {u v w : Units}

/-- What a reset of the units that hold a port's work leaves, whatever that work is. -/
structure ResetKeeps (p : Port) (u v : Units) : Prop where
  ports : v.ports = u.ports
  policy : v.pu = u.pu
  notices : v.nu = u.nu
  mount : v.me = u.me
  owed : v.ce.owed = u.ce.owed
  entries : v.iu.entries = u.iu.entries
  segs : v.iu.segs = u.iu.segs
  commits : v.iu.commitSet = u.iu.commitSet
  cur : v.rw.cur = u.rw.cur
  io : v.rw.io = u.rw.io
  gen : v.rw.gen = u.rw.gen
  slots : ∀ q, q ≠ p → v.slot q = u.slot q

theorem ResetKeeps.refl (p : Port) (u : Units) : ResetKeeps p u u :=
  ⟨rfl, rfl, rfl, rfl, rfl, rfl, rfl, rfl, rfl, rfl, rfl, fun _ _ => rfl⟩

theorem ResetKeeps.trans (h : ResetKeeps p u v) (k : ResetKeeps p v w) : ResetKeeps p u w :=
  ⟨k.ports.trans h.ports, k.policy.trans h.policy, k.notices.trans h.notices, k.mount.trans h.mount, k.owed.trans h.owed,
    k.entries.trans h.entries, k.segs.trans h.segs, k.commits.trans h.commits, k.cur.trans h.cur, k.io.trans h.io,
    k.gen.trans h.gen, fun q hq => (k.slots q hq).trans (h.slots q hq)⟩

theorem ResetKeeps.sendJob (j : Job) : ResetKeeps p u (sendJob j u) :=
  ⟨rfl, rfl, rfl, rfl, rfl, rfl, rfl, rfl, rfl, rfl, rfl, fun _ _ => rfl⟩

theorem ResetKeeps.setSlot (x : Slot) : ResetKeeps p u (u.setSlot p x) :=
  ⟨rfl, rfl, rfl, rfl, rfl, rfl, rfl, rfl, rfl, rfl, rfl, fun _ hq => Units.slot_setSlot_of_ne _ (Ne.symm hq) _⟩

theorem ResetKeeps.leaveSpaceList : ResetKeeps p u (leaveSpaceList p u) :=
  ⟨rfl, rfl, rfl, rfl, rfl, rfl, rfl, rfl, rfl, rfl, rfl, fun _ _ => rfl⟩

theorem ResetKeeps.leaveQueue (k : Nat) : ResetKeeps p u (leaveQueue k p u) :=
  ⟨rfl, rfl, rfl, rfl, rfl, rfl, rfl, rfl, rfl, rfl, rfl, fun _ _ => rfl⟩

theorem ResetKeeps.setCharges (cs : List ChargeEntry) : ResetKeeps p u (u.setIu { u.iu with charges := cs }) :=
  ⟨rfl, rfl, rfl, rfl, rfl, rfl, rfl, rfl, rfl, rfl, rfl, fun _ _ => rfl⟩

theorem ResetKeeps.setClaims (cs : List ClaimMsg) : ResetKeeps p u (u.setIu { u.iu with claims := cs }) :=
  ⟨rfl, rfl, rfl, rfl, rfl, rfl, rfl, rfl, rfl, rfl, rfl, fun _ _ => rfl⟩

/-! ## Claims withdrawn (R85, log 14) -/

/-- What the withdrawal of a CHARGE makes of the slot: its stage is gone. -/
def Units.unstaged (u : Units) (p : Port) : Slot :=
  if chargeOut p u = true then { u.slot p with stage := none } else u.slot p

/-- The index after the withdrawal. -/
def IndexUnit.withdrawn (iu : IndexUnit) (p : Port) : IndexUnit :=
  { iu with claims := iu.claims.filter fun m => !m.commandOf p }

theorem withdrawClaims_keeps : ResetKeeps p u (withdrawClaims p u) := by
  have h := ResetKeeps.setClaims (p := p) (u := u) (u.iu.claims.filter fun m => !m.commandOf p)
  unfold withdrawClaims
  dsimp only
  split
  · split
    · exact (h.trans (ResetKeeps.setSlot _)).trans (ResetKeeps.sendJob _)
    · exact h.trans (ResetKeeps.setSlot _)
  · exact h

theorem withdrawClaims_slot : (withdrawClaims p u).slot p = u.unstaged p := by
  unfold withdrawClaims Units.unstaged
  dsimp only
  split
  · split <;> exact Units.slot_setSlot_self _ _ _
  · rfl

theorem withdrawClaims_iu : (withdrawClaims p u).iu = u.iu.withdrawn p := by
  unfold withdrawClaims
  dsimp only
  split
  · split <;> rfl
  · rfl

theorem withdrawClaims_tm_queues : (withdrawClaims p u).tm.queues = u.tm.queues := by
  unfold withdrawClaims
  dsimp only
  split
  · split <;> rfl
  · rfl

/-- A clean waits for the CHARGE of a stage in flight in an ABORTING slot; it is sent when the CHARGE is withdrawn (R85, R98). -/
theorem withdrawClaims_queue : (withdrawClaims p u).rw.queue
    = u.rw.queue ++ if chargeOut p u = true ∧ (u.slot p).state = .aborting then [.abortClean p] else [] := by
  unfold withdrawClaims
  dsimp only
  by_cases hc : chargeOut p u = true
  · rw [if_pos hc]
    by_cases ha : (u.slot p).state = .aborting
    · rw [if_pos ha, if_pos ⟨hc, ha⟩]
      rfl
    · rw [if_neg ha, if_neg fun h => ha h.2, List.append_nil]
      rfl
  · rw [if_neg hc, if_neg fun h => hc h.1, List.append_nil]
    rfl

theorem unstaged_state : (u.unstaged p).state = (u.slot p).state := by
  unfold Units.unstaged
  split <;> rfl

/-! ## A single write on the space wait list (R53) -/

/-- The space wait list without the entries of a port. -/
def IndexUnit.unlisted (iu : IndexUnit) (p : Port) : List Waiting := iu.spaceWait.filter fun w => w.port != p

theorem dropWaitingSingle_keeps : ResetKeeps p u (dropWaitingSingle p u) := by
  unfold dropWaitingSingle
  split
  · exact ResetKeeps.leaveSpaceList.trans (ResetKeeps.setCharges _)
  · exact ResetKeeps.refl p u

theorem dropWaitingSingle_tm : (dropWaitingSingle p u).tm = u.tm := by
  unfold dropWaitingSingle
  split <;> rfl

theorem dropWaitingSingle_rw : (dropWaitingSingle p u).rw = u.rw := by
  unfold dropWaitingSingle
  split <;> rfl

theorem dropWaitingSingle_claims : (dropWaitingSingle p u).iu.claims = u.iu.claims := by
  unfold dropWaitingSingle
  split <;> rfl

theorem dropWaitingSingle_single {r : RecordJob} (h : waitingJob p u = some r) (hr : r.role = .single) :
    (dropWaitingSingle p u).iu.spaceWait = u.iu.unlisted p
      ∧ (dropWaitingSingle p u).iu.charges = IndexUnit.dropSingle p u.iu.charges
      ∧ waitingJob p (dropWaitingSingle p u) = none := by
  have hd : dropWaitingSingle p u = (leaveSpaceList p u).setIu { (leaveSpaceList p u).iu with
      charges := IndexUnit.dropSingle p (leaveSpaceList p u).iu.charges } := if_pos (by simp [h, hr])
  have hgone : waitingJob p ((leaveSpaceList p u).setIu { (leaveSpaceList p u).iu with
      charges := IndexUnit.dropSingle p (leaveSpaceList p u).iu.charges }) = none := by
    simp [waitingJob, leaveSpaceList, followSpaceList, Units.setIu, Units.setCe]
  rw [hd]
  exact ⟨rfl, rfl, hgone⟩

theorem dropWaitingSingle_other (h : ∀ r, waitingJob p u = some r → r.role ≠ .single) : dropWaitingSingle p u = u := by
  refine if_neg ?_
  cases hw : waitingJob p u with
  | none => simp
  | some r => simpa using h r hw

/-- What a stage on the space wait list leaves of its slot when its port is reset. -/
theorem endWaitingStage_stage {r : RecordJob} (h : waitingJob p u = some r) (hr : r.role = .stage) :
    endWaitingStage p u = ((leaveSpaceList p u).setSlot p { u.slot p with stage := none }).setIu
      { (leaveSpaceList p u).iu with charges := IndexUnit.dropLast p r.key u.iu.charges } := by
  have hd : dropWaitingStage p u = (leaveSpaceList p u).setSlot p { u.slot p with stage := none } :=
    if_pos (by simp [h, hr])
  unfold endWaitingStage
  simp only [h, hr, if_true, hd]
  rfl

theorem endWaitingStage_other (h : ∀ r, waitingJob p u = some r → r.role ≠ .stage) : endWaitingStage p u = u := by
  unfold endWaitingStage
  cases hw : waitingJob p u with
  | none => rfl
  | some r => exact if_neg (h r hw)

theorem endWaitingStage_keeps : ResetKeeps p u (endWaitingStage p u) ∧ (endWaitingStage p u).iu.claims = u.iu.claims
    ∧ (endWaitingStage p u).tm.queues = u.tm.queues ∧ (endWaitingStage p u).rw = u.rw := by
  by_cases h : ∃ r, waitingJob p u = some r ∧ r.role = .stage
  · obtain ⟨r, hr, hs⟩ := h
    rw [endWaitingStage_stage hr hs]
    exact ⟨(ResetKeeps.leaveSpaceList.trans (ResetKeeps.setSlot _)).trans (ResetKeeps.setCharges _), rfl, rfl, rfl⟩
  · rw [endWaitingStage_other fun r hr hs => h ⟨r, hr, hs⟩]
    exact ⟨ResetKeeps.refl p u, rfl, rfl, rfl⟩

/-! ## The slot (R98) -/

/-- A slot after the reset of its port has aborted it. -/
def Slot.dropped (x : Slot) : Slot :=
  { x with state := .aborting, lease := none, reason := none, pending := none, reply := none }

theorem resetTxn_none (h : (u.slot p).state = .none) : resetTxn p u = u := by simp only [resetTxn, h]

theorem resetTxn_waiting (h : (u.slot p).state = .waiting) :
    resetTxn p u = (leaveQueue (u.slot p).part p u).setSlot p Slot.start := by simp only [resetTxn, h]

theorem resetTxn_ended (h : (u.slot p).state = .ended) : resetTxn p u = u.setSlot p Slot.start := by simp only [resetTxn, h]

theorem resetTxn_aborting (h : (u.slot p).state = .aborting) : resetTxn p u = u.setSlot p (u.slot p).dropped := by
  simp only [resetTxn, h]
  rfl

theorem resetTxn_opened (h : (u.slot p).state = .opened) :
    resetTxn p u = sendJob (.abortClean p) (endWaitingStage p (u.setSlot p (u.slot p).dropped)) := by
  simp only [resetTxn, h]
  rfl

theorem resetTxn_committed (h : (u.slot p).state = .committing) (hw : waitingJob p u = none) : resetTxn p u = u := by
  simp [resetTxn, h, hw]

theorem resetTxn_commit {r : RecordJob} (h : (u.slot p).state = .committing) (hw : waitingJob p u = some r) :
    resetTxn p u = sendJob (.abortClean p) ((leaveSpaceList p u).setSlot p (u.slot p).dropped) := by
  simp only [resetTxn, h, hw, Option.isSome_some, if_true]
  rfl

theorem resetTxn_keeps : ResetKeeps p u (resetTxn p u) ∧ (resetTxn p u).iu.claims = u.iu.claims := by
  cases hs : (u.slot p).state with
  | none =>
    rw [resetTxn_none hs]
    exact ⟨ResetKeeps.refl p u, rfl⟩
  | waiting => exact resetTxn_waiting hs ▸ ⟨(ResetKeeps.leaveQueue _).trans (ResetKeeps.setSlot _), rfl⟩
  | ended => exact resetTxn_ended hs ▸ ⟨ResetKeeps.setSlot _, rfl⟩
  | aborting => exact resetTxn_aborting hs ▸ ⟨ResetKeeps.setSlot _, rfl⟩
  | opened =>
    rw [resetTxn_opened hs]
    obtain ⟨hk, hc, -⟩ := endWaitingStage_keeps (p := p) (u := u.setSlot p (u.slot p).dropped)
    exact ⟨((ResetKeeps.setSlot _).trans hk).trans (ResetKeeps.sendJob _), hc⟩
  | committing =>
    cases hw : waitingJob p u with
    | none =>
      rw [resetTxn_committed hs hw]
      exact ⟨ResetKeeps.refl p u, rfl⟩
    | some r =>
      rw [resetTxn_commit hs hw]
      exact ⟨(ResetKeeps.leaveSpaceList.trans (ResetKeeps.setSlot _)).trans (ResetKeeps.sendJob _), rfl⟩

/-! ## The read path (R36, R48, R177, log 60) -/

/-- The port after its READ is dropped. -/
def Units.readDropped (u : Units) (p : Port) : MasterPort :=
  let x := u.port p
  match workOf p u with
  | some (.reading _) =>
    if x.io.want.isNone then x
    else if x.io.presented then { x with stale := x.io.want, io := Io.none } else { x with io := Io.none }
  | _ => x

/-- The claim that drops its pin. -/
def Units.readUnpins (u : Units) (p : Port) : List ClaimMsg :=
  let x := u.port p
  match workOf p u with
  | some (.reading r) => if x.io.want.isNone || x.io.presented then [] else [⟨.port p, .unpin r.loc.seg⟩]
  | _ => []

theorem dropRead_eq : dropRead p u = (u.setPort p (u.readDropped p)).setIu { u.iu with
    claims := u.iu.claims ++ u.readUnpins p } := by
  have hsame : u = (u.setPort p (u.port p)).setIu { u.iu with claims := u.iu.claims ++ [] } := by
    rw [List.append_nil, Units.setPort_port]
    rfl
  unfold dropRead Units.readDropped Units.readUnpins
  dsimp only
  cases hw : workOf p u with
  | none => exact hsame
  | some w =>
    cases w with
    | reading r =>
      by_cases hn : (u.port p).io.want.isNone = true
      · simp only [hn, if_true, Bool.true_or]
        exact hsame
      · cases hp : (u.port p).io.presented with
        | true => simp [hn, Units.setIu]; rfl
        | false => simp [hn]; rfl
    | _ => exact hsame

end Parts

end Sys2Proof.Machine
end


section
/-! SUPPORT. A PORT_RESET as a whole: what it drops, and the frame that brings it (R98, R155, R156, R167, R179). -/

namespace Sys2Proof.Machine

section Work
variable {p : Port} {u d : Units} {y : MasterPort}

/-- The units after a port's reset has dropped its reads, claims, jobs and transaction. -/
def Units.workDropped (u : Units) (p : Port) : Units :=
  resetTxn p (dropWaitingSingle p (withdrawClaims p (dropRead p u)))

theorem workDropped_keeps : ResetKeeps p (dropRead p u) (u.workDropped p) :=
  (withdrawClaims_keeps.trans dropWaitingSingle_keeps).trans resetTxn_keeps.1

theorem chargeOut_dropRead : chargeOut p (dropRead p u) = chargeOut p u := by
  have hnone : (u.readUnpins p).any (fun m => m.src == .txn p && (match m.body with | .charge _ _ _ _ => true | _ => false))
      = false := by
    unfold Units.readUnpins
    dsimp only
    split
    · split <;> rfl
    · rfl
  rw [dropRead_eq]
  exact List.any_append.trans ((congrArg (Bool.or _) hnone).trans (Bool.or_false _))

theorem waitingJob_dropRead : waitingJob p (dropRead p u) = waitingJob p u := by
  rw [dropRead_eq]
  rfl

theorem unstaged_dropRead : (dropRead p u).unstaged p = u.unstaged p := by
  unfold Units.unstaged
  rw [chargeOut_dropRead, dropRead_eq]
  rfl

theorem waitingJob_withdrawClaims : waitingJob p (withdrawClaims p u) = waitingJob p u := by
  unfold waitingJob
  rw [withdrawClaims_iu]
  rfl

theorem workDropped_claims : (u.workDropped p).iu.claims
    = (u.iu.claims ++ u.readUnpins p).filter fun m => !m.commandOf p := by
  refine resetTxn_keeps.2.trans (dropWaitingSingle_claims.trans ?_)
  rw [withdrawClaims_iu, dropRead_eq]
  rfl

theorem workDropped_port : (u.workDropped p).port p = u.readDropped p := by
  have h : (u.workDropped p).ports = _ := workDropped_keeps.ports
  have h2 : (dropRead p u).port p = u.readDropped p := by
    rw [dropRead_eq]
    exact Units.port_setPort_self _ _ _
  exact (congrArg (fun z : Four MasterPort => z.get p) h).trans h2

theorem workDropped_port_other {q : Port} (hq : q ≠ p) : (u.workDropped p).port q = u.port q := by
  have h : (u.workDropped p).ports = _ := workDropped_keeps.ports
  have h2 : (dropRead p u).port q = u.port q := by
    rw [dropRead_eq]
    exact Units.port_setPort_of_ne _ (Ne.symm hq) _
  exact (congrArg (fun z : Four MasterPort => z.get q) h).trans h2

/-! ## The Policy Unit, the Notice Unit and the engine -/

/-- The session after the reset of its owner (R155). -/
theorem resetPolicy_eq : resetPolicy p u = u.setPu (resetPolicy p u).pu := by
  unfold resetPolicy
  dsimp only
  split
  · rfl
  · split <;> rfl
  · split
    · rfl
    · split
      · split <;> rfl
      · split <;> rfl

theorem resetPolicy_views : (resetPolicy p u).pu.views = u.pu.views.set p (u.pu.shadow.viewFor p) := by
  unfold resetPolicy
  dsimp only
  split
  · rfl
  · split <;> rfl
  · split
    · rfl
    · split
      · split <;> rfl
      · split <;> rfl

/-- The end of a port's reset at the other units, and the port. -/
def Units.resetDone (d : Units) (p : Port) (y : MasterPort) : Units :=
  (dropReclaim p (resetPolicy p (resetNotices p d))).setPort p y

theorem resetDone_eq : d.resetDone p y = { d with
    ports := d.ports.set p y, pu := (resetPolicy p (resetNotices p d)).pu,
    ce := { d.ce with owed := d.ce.owed.filter (· != p) }, nu := (resetNotices p d).nu } := by
  unfold Units.resetDone
  rw [resetPolicy_eq]
  rfl

theorem resetDone_modPort (f : MasterPort → MasterPort) :
    (d.resetDone p y).modPort p f = d.resetDone p (f y) := by
  unfold Units.resetDone
  rw [Units.modPort_eq, Units.port_setPort_self, Units.setPort_setPort]

theorem resetDone_slot (q : Port) : (d.resetDone p y).slot q = d.slot q := by rw [resetDone_eq]; rfl

theorem resetDone_rw : (d.resetDone p y).rw = d.rw := by rw [resetDone_eq]

theorem resetDone_iu : (d.resetDone p y).iu = d.iu := by rw [resetDone_eq]

theorem resetDone_pu : (d.resetDone p y).pu = (resetPolicy p (resetNotices p d)).pu := by rw [resetDone_eq]

theorem resetDone_port : (d.resetDone p y).port p = y := Units.port_setPort_self _ _ _

theorem resetDone_port_other {q : Port} (hq : q ≠ p) : (d.resetDone p y).port q = d.port q := by
  rw [resetDone_eq]
  exact Four.get_set_of_ne _ (Ne.symm hq) _

theorem resetDone_notices : (d.resetDone p y).notices p = ⟨[], [], false, 0⟩ := by
  rw [resetDone_eq]
  exact Four.get_set_self _ _ _

theorem resetDone_notices_other {q : Port} (hq : q ≠ p) : (d.resetDone p y).notices q = d.notices q := by
  rw [resetDone_eq]
  exact Four.get_set_of_ne _ (Ne.symm hq) _

theorem resetDone_posts : (d.resetDone p y).nu.posts = d.nu.posts.filter (fun x => x.dest != .one p) := by
  rw [resetDone_eq]
  rfl

theorem resetDone_view : (d.resetDone p y).pu.views.get p = d.pu.shadow.viewFor p := by
  rw [resetDone_pu, resetPolicy_views]
  exact Four.get_set_self _ _ _

theorem resetDone_view_other {q : Port} (hq : q ≠ p) : (d.resetDone p y).pu.views.get q = d.pu.views.get q := by
  rw [resetDone_pu, resetPolicy_views]
  exact Four.get_set_of_ne _ (Ne.symm hq) _

/-- What the work left at a port turns on. -/
theorem workEnded_congr {v w : Units} (hs : (v.port p).stale = (w.port p).stale) (hr : v.rw = w.rw)
    (hi : v.iu.spaceWait = w.iu.spaceWait) (ht : v.slot p = w.slot p) (hp : v.pu.session = w.pu.session) :
    workEnded p v = workEnded p w := by
  unfold workEnded hasRecordJob
  rw [hs, hr, hi, ht, hp]

theorem resetDone_workEnded {z : MasterPort} (h : z.stale = y.stale) :
    workEnded p (d.resetDone p z) = workEnded p (d.resetDone p y) :=
  workEnded_congr (by rw [resetDone_port, resetDone_port, h]) (by rw [resetDone_rw, resetDone_rw])
    (by rw [resetDone_iu, resetDone_iu]) (by rw [resetDone_slot, resetDone_slot]) (by rw [resetDone_pu, resetDone_pu])

theorem workEnded_iff : workEnded p u = true ↔ (u.port p).stale = none ∧ hasRecordJob p u = false ∧ (u.slot p).state = .none
    ∧ ∀ staged w, u.pu.session ≠ .committing p staged w := by
  have hsession : u.pu.session.committingBy p = false ↔ ∀ staged w, u.pu.session ≠ .committing p staged w := by
    cases u.pu.session with
    | committing q a b =>
      refine ⟨fun h a' b' he => ?_, fun h => ?_⟩
      · injection he with hq
        simp [Session.committingBy, hq] at h
      · refine beq_false_of_ne fun hq => h a b ?_
        rw [hq]
    | _ => simp [Session.committingBy]
  simp [workEnded, hsession, and_assoc]

end Work

/-! ## The frame -/

section Row
variable {p : Port} {s : State}

/-- The frame of a PORT_RESET at a port between frames (R167, R179). -/
theorem reset_row (hr : s.running = true) (hf : (s.units.port p).frame = none) (ho : (s.units.port p).outcome = none) :
    exec (.portReset p) s = .next (s.withUnits
      (settle p (kick ((takeReset p (s.sentBack p (s.statusOut p))).modPort p MasterPort.handedOver)))) := by
  have hrow : exec (.portReset p) s = .next (s.withUnits (writeFrame p 0x01 ctlReset s.units)) := onFrame_running hr
  rw [hrow, writeFrame_eq hf ho]
  have hz : (0x01 : Byte).toNat = 1 := rfl
  have hsent : s.units.setPort p { s.units.port p with
        frame := none, lastOut := [statusByte p s.units, 0], collision := (s.units.port p).collision || false }
      = s.sentBack p (s.statusOut p) := by
    unfold State.sentBack State.statusOut
    rw [Bool.or_false, ← hf]
  rw [hz]
  unfold endFrame
  simp only [MasterPort.writeByte, Frame.opened, offControl, if_true, Units.port_setPort_self, Units.modPort_eq,
    Units.setPort_setPort, MasterPort.closeFrame, Frame.takes]
  rw [hsent]
  rfl

/-- The port after its reset, with the mount still on, or while what is left of its work drains. -/
def State.resetPort (s : State) (p : Port) : MasterPort := (Units.readDropped (s.sentBack p (s.statusOut p)) p).cleared

theorem readDropped_fields {u : Units} : (u.readDropped p).params = (u.port p).params
    ∧ (u.readDropped p).buffer = (u.port p).buffer ∧ (u.readDropped p).state = (u.port p).state
    ∧ (u.readDropped p).handOver = (u.port p).handOver ∧ (u.readDropped p).draining = (u.port p).draining
    ∧ (u.readDropped p).frame = (u.port p).frame := by
  unfold Units.readDropped
  dsimp only
  split
  · split
    · exact ⟨rfl, rfl, rfl, rfl, rfl, rfl⟩
    · split <;> exact ⟨rfl, rfl, rfl, rfl, rfl, rfl⟩
  · exact ⟨rfl, rfl, rfl, rfl, rfl, rfl⟩

theorem resetWork_eq (u : Units) : (resetWork p u).modPort p MasterPort.cleared
    = (u.workDropped p).resetDone p (u.readDropped p).cleared := by
  have hport : ((u.workDropped p).resetDone p ((u.workDropped p).port p))
      = resetWork p u := by
    have hp : (dropReclaim p (resetPolicy p (resetNotices p (u.workDropped p)))).port p = (u.workDropped p).port p := by
      rw [resetPolicy_eq]
      rfl
    unfold Units.resetDone
    rw [← hp, Units.setPort_port]
    rfl
  rw [← hport, resetDone_modPort, workDropped_port]

/-- A reset while the mount is on (R179, log 59). -/
theorem takeReset_mounting {u : Units} (hd : (u.port p).draining = false) (hm : (u.port p).state = .mounting) :
    takeReset p u = (u.workDropped p).resetDone p (u.readDropped p).cleared := by
  unfold takeReset
  rw [hd]
  dsimp only
  rw [if_neg Bool.false_ne_true, resetWork_eq]
  exact if_pos (by rw [resetDone_port]; exact readDropped_fields.2.2.1.trans hm)

theorem takeReset_other {u : Units} (hd : (u.port p).draining = false) (hm : (u.port p).state ≠ .mounting) :
    takeReset p u = (u.workDropped p).resetDone p { (u.readDropped p).cleared with state := .busy, draining := true } := by
  unfold takeReset
  rw [hd]
  dsimp only
  rw [if_neg Bool.false_ne_true, resetWork_eq]
  refine (if_neg ?_).trans (resetDone_modPort _)
  rw [resetDone_port]
  exact fun h => hm (readDropped_fields.2.2.1.symm.trans h)

end Row

end Sys2Proof.Machine
end


section
/-! SUPPORT. What a PORT_RESET leaves of the slot, the Writer's queue and the space wait list, by the state of the slot (R53,
R85, R98). -/

namespace Sys2Proof.Machine

section Slots
variable {p : Port} {u : Units}

/-- The units as the reset of a port finds them at the Transaction Manager. -/
def Units.resetBase (u : Units) (p : Port) : Units := dropWaitingSingle p (withdrawClaims p (dropRead p u))

/-- The port's own part apart, the reset of its work leaves what `ResetKeeps` names. -/
theorem workDropped_kept : ResetKeeps p (u.setPort p (u.readDropped p)) (u.workDropped p) := by
  have h : ResetKeeps p (u.setPort p (u.readDropped p)) (dropRead p u) := by
    rw [dropRead_eq]
    exact ResetKeeps.setClaims _
  exact h.trans workDropped_keeps

theorem resetBase_slot : (u.resetBase p).slot p = u.unstaged p := by
  unfold Units.resetBase Units.slot
  rw [dropWaitingSingle_tm]
  exact withdrawClaims_slot.trans unstaged_dropRead

theorem resetBase_queue : (u.resetBase p).rw.queue
    = u.rw.queue ++ if chargeOut p u = true ∧ (u.slot p).state = .aborting then [.abortClean p] else [] := by
  have hslot : (dropRead p u).slot p = u.slot p := by
    rw [dropRead_eq]
    rfl
  have hqueue : (dropRead p u).rw.queue = u.rw.queue := by
    rw [dropRead_eq]
    rfl
  unfold Units.resetBase
  rw [dropWaitingSingle_rw, withdrawClaims_queue, chargeOut_dropRead, hslot, hqueue]

theorem resetBase_queues : (u.resetBase p).tm.queues = u.tm.queues := by
  unfold Units.resetBase
  rw [dropWaitingSingle_tm, withdrawClaims_tm_queues, dropRead_eq]
  rfl

theorem withdrawn_lists : (withdrawClaims p (dropRead p u)).iu.spaceWait = u.iu.spaceWait
    ∧ (withdrawClaims p (dropRead p u)).iu.charges = u.iu.charges
    ∧ waitingJob p (withdrawClaims p (dropRead p u)) = waitingJob p u := by
  refine ⟨?_, ?_, waitingJob_withdrawClaims.trans waitingJob_dropRead⟩
  all_goals
    rw [withdrawClaims_iu, dropRead_eq]
    rfl

/-- A single write on the list is gone with the reset (R53). -/
theorem resetBase_single {r : RecordJob} (h : waitingJob p u = some r) (hr : r.role = .single) :
    (u.resetBase p).iu.spaceWait = u.iu.unlisted p ∧ (u.resetBase p).iu.charges = IndexUnit.dropSingle p u.iu.charges
      ∧ waitingJob p (u.resetBase p) = none := by
  obtain ⟨hl, hc, hw⟩ := withdrawn_lists (p := p) (u := u)
  obtain ⟨hs, hd, hn⟩ := dropWaitingSingle_single (hw.trans h) hr
  refine ⟨hs.trans ?_, hd.trans ?_, hn⟩
  · unfold IndexUnit.unlisted
    rw [hl]
  · rw [hc]

/-- Another job on the list, or none, is left to the reset of the transaction. -/
theorem resetBase_other (h : ∀ r, waitingJob p u = some r → r.role ≠ .single) :
    (u.resetBase p).iu.spaceWait = u.iu.spaceWait ∧ (u.resetBase p).iu.charges = u.iu.charges
      ∧ waitingJob p (u.resetBase p) = waitingJob p u := by
  obtain ⟨hl, hc, hw⟩ := withdrawn_lists (p := p) (u := u)
  have hsame : u.resetBase p = withdrawClaims p (dropRead p u) := dropWaitingSingle_other fun r hr => h r (hw.symm.trans hr)
  rw [hsame]
  exact ⟨hl, hc, hw⟩

theorem resetBase_state : ((u.resetBase p).slot p).state = (u.slot p).state := by rw [resetBase_slot, unstaged_state]

theorem resetBase_waits_none (h : waitingJob p u = none) : waitingJob p (u.resetBase p) = none :=
  (resetBase_other fun r hr => by rw [h] at hr; cases hr).2.2.trans h

theorem resetBase_queue_steady (h : chargeOut p u = true → (u.slot p).state ≠ .aborting) :
    (u.resetBase p).rw.queue = u.rw.queue := by
  rw [resetBase_queue, if_neg fun hc => h hc.1 hc.2, List.append_nil]

theorem unstaged_settled (h : chargeOut p u = false) : u.unstaged p = u.slot p :=
  if_neg (by rw [h]; exact Bool.false_ne_true)

/-! ## By the state of the slot -/

theorem workDropped_none (hs : (u.slot p).state = .none) :
    (u.workDropped p).slot p = u.unstaged p ∧ (u.workDropped p).rw.queue = u.rw.queue := by
  have h : u.workDropped p = u.resetBase p := resetTxn_none (resetBase_state.trans hs)
  rw [h]
  exact ⟨resetBase_slot, resetBase_queue_steady fun _ ha => by rw [hs] at ha; cases ha⟩

theorem workDropped_waiting (hs : (u.slot p).state = .waiting) :
    (u.workDropped p).slot p = Slot.start ∧ (u.workDropped p).rw.queue = u.rw.queue
      ∧ ((u.slot p).part < u.tm.queues.length →
        claimQueue (u.slot p).part (u.workDropped p) = (claimQueue (u.slot p).part u).filter (· != p)) := by
  have h : u.workDropped p = (leaveQueue ((u.resetBase p).slot p).part p (u.resetBase p)).setSlot p Slot.start :=
    resetTxn_waiting (resetBase_state.trans hs)
  have hpart : ((u.resetBase p).slot p).part = (u.slot p).part := by
    rw [resetBase_slot]
    unfold Units.unstaged
    split <;> rfl
  have hqueue : claimQueue (u.slot p).part (u.resetBase p) = claimQueue (u.slot p).part u := by
    unfold claimQueue
    rw [resetBase_queues]
  rw [h, hpart]
  refine ⟨Units.slot_setSlot_self _ _ _, resetBase_queue_steady (fun _ ha => by rw [hs] at ha; cases ha), fun hlt => ?_⟩
  rw [← hqueue]
  refine List.getD_eq_getElem?_getD.trans ?_
  have hlen : (u.slot p).part < (u.resetBase p).tm.queues.length := by rw [resetBase_queues]; exact hlt
  show (((u.resetBase p).tm.queues.set (u.slot p).part _)[(u.slot p).part]?).getD [] = _
  rw [List.getElem?_set_self hlen]
  rfl

theorem workDropped_ended (hs : (u.slot p).state = .ended) :
    (u.workDropped p).slot p = Slot.start ∧ (u.workDropped p).rw.queue = u.rw.queue := by
  have h : u.workDropped p = (u.resetBase p).setSlot p Slot.start := resetTxn_ended (resetBase_state.trans hs)
  rw [h]
  exact ⟨Units.slot_setSlot_self _ _ _, resetBase_queue_steady fun _ ha => by rw [hs] at ha; cases ha⟩

theorem workDropped_aborting (hs : (u.slot p).state = .aborting) :
    (u.workDropped p).slot p = (u.unstaged p).dropped
      ∧ (u.workDropped p).rw.queue = u.rw.queue ++ if chargeOut p u = true then [.abortClean p] else [] := by
  have h : u.workDropped p = (u.resetBase p).setSlot p ((u.resetBase p).slot p).dropped :=
    resetTxn_aborting (resetBase_state.trans hs)
  rw [h, resetBase_slot]
  refine ⟨Units.slot_setSlot_self _ _ _, resetBase_queue.trans ?_⟩
  rw [hs]
  simp only [and_true]

theorem workDropped_committed (hs : (u.slot p).state = .committing) (hw : waitingJob p u = none) :
    (u.workDropped p).slot p = u.unstaged p ∧ (u.workDropped p).rw.queue = u.rw.queue := by
  have h : u.workDropped p = u.resetBase p := resetTxn_committed (resetBase_state.trans hs) (resetBase_waits_none hw)
  rw [h]
  exact ⟨resetBase_slot, resetBase_queue_steady fun _ ha => by rw [hs] at ha; cases ha⟩

/-- The reset of a COMMIT on the list (R98). -/
theorem workDropped_commit {r : RecordJob} (hs : (u.slot p).state = .committing) (hw : waitingJob p u = some r)
    (hr : r.role = .commit) : (u.workDropped p).slot p = (u.unstaged p).dropped
      ∧ (u.workDropped p).rw.queue = u.rw.queue ++ [.abortClean p]
      ∧ (u.workDropped p).iu.spaceWait = u.iu.unlisted p ∧ (u.workDropped p).iu.charges = u.iu.charges := by
  obtain ⟨hl, hc, hj⟩ := resetBase_other (p := p) (u := u) fun x hx hx' => by
    rw [hw] at hx
    cases hx
    rw [hr] at hx'
    cases hx'
  have h : u.workDropped p = sendJob (.abortClean p)
      ((leaveSpaceList p (u.resetBase p)).setSlot p ((u.resetBase p).slot p).dropped) :=
    resetTxn_commit (resetBase_state.trans hs) (hj.trans hw)
  have hq := resetBase_queue_steady (p := p) (u := u) fun _ ha => by rw [hs] at ha; cases ha
  rw [h, resetBase_slot]
  refine ⟨Units.slot_setSlot_self _ _ _, congrArg (· ++ [Job.abortClean p]) hq, ?_, hc⟩
  exact congrArg (fun l : List Waiting => l.filter fun w => w.port != p) hl

/-- The reset of an OPEN transaction without a stage on the list (R98). -/
theorem workDropped_opened (hs : (u.slot p).state = .opened) (hw : ∀ r, waitingJob p u = some r → r.role ≠ .stage) :
    (u.workDropped p).slot p = (u.unstaged p).dropped ∧ (u.workDropped p).rw.queue = u.rw.queue ++ [.abortClean p] := by
  have hw' : ∀ r, waitingJob p ((u.resetBase p).setSlot p ((u.resetBase p).slot p).dropped) = some r → r.role ≠ .stage := by
    intro r hr
    have hr' : waitingJob p (u.resetBase p) = some r := hr
    by_cases hsingle : ∃ x, waitingJob p u = some x ∧ x.role = .single
    · obtain ⟨x, hx, hrole⟩ := hsingle
      rw [(resetBase_single hx hrole).2.2] at hr'
      cases hr'
    · rw [(resetBase_other fun x hx hrole => hsingle ⟨x, hx, hrole⟩).2.2] at hr'
      exact hw r hr'
  have h : u.workDropped p = sendJob (.abortClean p)
      (endWaitingStage p ((u.resetBase p).setSlot p ((u.resetBase p).slot p).dropped)) :=
    resetTxn_opened (resetBase_state.trans hs)
  have hq := resetBase_queue_steady (p := p) (u := u) fun _ ha => by rw [hs] at ha; cases ha
  rw [h, endWaitingStage_other hw', resetBase_slot]
  exact ⟨Units.slot_setSlot_self _ _ _, congrArg (· ++ [Job.abortClean p]) hq⟩

/-- The reset of an OPEN transaction with a stage on the list (R53, R98). -/
theorem workDropped_staging {r : RecordJob} (hs : (u.slot p).state = .opened) (hw : waitingJob p u = some r)
    (hr : r.role = .stage) : (u.workDropped p).slot p = { (u.slot p).dropped with stage := none }
      ∧ (u.workDropped p).rw.queue = u.rw.queue ++ [.abortClean p]
      ∧ (u.workDropped p).iu.spaceWait = u.iu.unlisted p
      ∧ (u.workDropped p).iu.charges = IndexUnit.dropLast p r.key u.iu.charges := by
  obtain ⟨hl, hc, hj⟩ := resetBase_other (p := p) (u := u) fun x hx hx' => by
    rw [hw] at hx
    cases hx
    rw [hr] at hx'
    cases hx'
  have h : u.workDropped p = sendJob (.abortClean p)
      (endWaitingStage p ((u.resetBase p).setSlot p ((u.resetBase p).slot p).dropped)) :=
    resetTxn_opened (resetBase_state.trans hs)
  have hq := resetBase_queue_steady (p := p) (u := u) fun _ ha => by rw [hs] at ha; cases ha
  have hstage : waitingJob p ((u.resetBase p).setSlot p ((u.resetBase p).slot p).dropped) = some r := hj.trans hw
  rw [h, endWaitingStage_stage hstage hr]
  refine ⟨(Units.slot_setSlot_self _ _ _).trans ?_, congrArg (· ++ [Job.abortClean p]) hq, ?_, ?_⟩
  · rw [Units.slot_setSlot_self, resetBase_slot]
    unfold Units.unstaged
    split <;> rfl
  · exact congrArg (fun l : List Waiting => l.filter fun w => w.port != p) hl
  · exact congrArg (IndexUnit.dropLast p r.key) hc

/-- Without a job on the list, a transaction's reset leaves the index (R98). -/
theorem resetTxn_unlisted (h : waitingJob p u = none) : (resetTxn p u).iu = u.iu := by
  cases hs : (u.slot p).state with
  | none => rw [resetTxn_none hs]
  | waiting => rw [resetTxn_waiting hs]; rfl
  | ended => rw [resetTxn_ended hs]; rfl
  | aborting => rw [resetTxn_aborting hs]; rfl
  | opened =>
    have hw : waitingJob p (u.setSlot p (u.slot p).dropped) = none := h
    rw [resetTxn_opened hs, endWaitingStage_other fun r hr => by rw [hw] at hr; cases hr]
    rfl
  | committing => rw [resetTxn_committed hs h]

theorem workDropped_unlisted (h : waitingJob p u = none) :
    (u.workDropped p).iu.spaceWait = u.iu.spaceWait ∧ (u.workDropped p).iu.charges = u.iu.charges := by
  obtain ⟨hl, hc, hj⟩ := resetBase_other (p := p) (u := u) fun x hx => by rw [h] at hx; cases hx
  have hiu : (u.workDropped p).iu = (u.resetBase p).iu := resetTxn_unlisted (hj.trans h)
  rw [hiu]
  exact ⟨hl, hc⟩

theorem workDropped_single {r : RecordJob} (h : waitingJob p u = some r) (hr : r.role = .single) :
    (u.workDropped p).iu.spaceWait = u.iu.unlisted p
      ∧ (u.workDropped p).iu.charges = IndexUnit.dropSingle p u.iu.charges := by
  obtain ⟨hl, hc, hj⟩ := resetBase_single h hr
  have hiu : (u.workDropped p).iu = (u.resetBase p).iu := resetTxn_unlisted hj
  rw [hiu]
  exact ⟨hl, hc⟩

end Slots

end Sys2Proof.Machine
end


section
/-! SUPPORT. The Policy Unit, the read path and the claims at a PORT_RESET (R36, R48, R144, R155, log 14). -/

namespace Sys2Proof.Machine

/-! ## The Policy Unit (R144, R155) -/

section Session
variable {p : Port} {u : Units} {staged : List Byte} {w : WriteSeq}

theorem resetPolicy_none (h : u.pu.session = .none) : (resetPolicy p u).pu.session = .none := by
  have h' : (setDefaultView p u).pu.session = .none := h
  simp only [resetPolicy, h']

theorem resetPolicy_opened (h : u.pu.session = .opened p staged) : (resetPolicy p u).pu.session = .none := by
  have h' : (setDefaultView p u).pu.session = .opened p staged := h
  simp only [resetPolicy, h', if_true]
  rfl

theorem resetPolicy_other {q : Port} (hq : q ≠ p) 
    (h : u.pu.session = .opened q staged ∨ ∃ w, u.pu.session = .committing q staged w) :
    (resetPolicy p u).pu.session = u.pu.session := by
  rcases h with h | ⟨w, h⟩
  · have h' : (setDefaultView p u).pu.session = .opened q staged := h
    simp only [resetPolicy, h', hq, if_false, h]
  · have h' : (setDefaultView p u).pu.session = .committing q staged w := h
    simp only [resetPolicy, h', hq, ne_eq, not_false_eq_true, if_true, h]

/-- A sequence whose VALID program may have taken place runs on, without a result (R155). -/
theorem resetPolicy_valid {t : Nat} (h : u.pu.session = .committing p staged w) (hw : w.step = .valid t)
    (ht : t ≠ 1 ∨ u.pu.io.presented = true) :
    (resetPolicy p u).pu.session = .committing p staged { w with noResult := true } := by
  have h' : (setDefaultView p u).pu.session = .committing p staged w := h
  have hio : (setDefaultView p u).pu.io = u.pu.io := rfl
  unfold resetPolicy
  dsimp only
  rw [h']
  dsimp only
  rw [if_neg (not_not_intro rfl), hw, hio]
  cases hp : u.pu.io.presented with
  | true => rfl
  | false =>
    have ht1 : t ≠ 1 := ht.resolve_right fun hc => by rw [hp] at hc; cases hc
    match t, ht1 with
    | 0, _ => rfl
    | n + 2, _ => rfl

/-- A request out before the VALID program is waited for, and the sequence stops (R155). -/
theorem resetPolicy_stopping (h : u.pu.session = .committing p staged w) (hw : ∀ t, w.step ≠ .valid t)
    (hp : u.pu.io.presented = true) :
    (resetPolicy p u).pu.session = .committing p staged { w with stopping := true } := by
  have h' : (setDefaultView p u).pu.session = .committing p staged w := h
  have hio : (setDefaultView p u).pu.io = u.pu.io := rfl
  unfold resetPolicy
  dsimp only
  rw [h']
  dsimp only
  rw [if_neg (not_not_intro rfl), hio, hp]
  cases hs : w.step with
  | valid t => exact absurd hs (hw t)
  | _ => rfl

/-- A request that has not been presented is dropped with the sequence (R155). -/
theorem resetPolicy_dropped (h : u.pu.session = .committing p staged w)
    (hw : (∀ t, w.step ≠ .valid t) ∨ w.step = .valid 1) (hp : u.pu.io.presented = false) :
    (resetPolicy p u).pu.session = .none ∧ (resetPolicy p u).pu.io = ⟨none, false⟩ := by
  have h' : (setDefaultView p u).pu.session = .committing p staged w := h
  have hio : (setDefaultView p u).pu.io = u.pu.io := rfl
  unfold resetPolicy
  dsimp only
  rw [h']
  dsimp only
  rw [if_neg (not_not_intro rfl), hio, hp]
  rcases hw with hw | hw
  · cases hs : w.step with
    | valid t => exact absurd hs (hw t)
    | _ => exact ⟨rfl, rfl⟩
  · rw [hw]
    exact ⟨rfl, rfl⟩

/-- A port that commits no policy does not after its reset. -/
theorem resetPolicy_uncommitted (h : u.pu.session.committingBy p = false) :
    (resetPolicy p u).pu.session.committingBy p = false := by
  cases hs : u.pu.session with
  | none => rw [resetPolicy_none hs]; rfl
  | opened q a =>
    by_cases hq : q = p
    · subst hq
      rw [resetPolicy_opened hs]
      rfl
    · rw [resetPolicy_other hq (.inl hs), hs]
      rfl
  | committing q a b =>
    have hq : q ≠ p := fun he => by
      rw [hs] at h
      simp [Session.committingBy, he] at h
    rw [resetPolicy_other hq (.inr ⟨b, hs⟩), hs]
    exact beq_false_of_ne hq

end Session

/-! ## The read path (R36, R48, R177) -/

section Read
variable {p : Port} {u : Units} {r : ReadWork} {q : Request}

theorem readDropped_unread (h : ∀ r, workOf p u ≠ some (.reading r)) :
    u.readDropped p = u.port p ∧ u.readUnpins p = [] := by
  unfold Units.readDropped Units.readUnpins
  dsimp only
  cases hw : workOf p u with
  | none => exact ⟨rfl, rfl⟩
  | some w =>
    cases w with
    | reading r => exact absurd hw (h r)
    | _ => exact ⟨rfl, rfl⟩

theorem readDropped_waited (hw : workOf p u = some (.reading r)) (hio : (u.port p).io = ⟨some q, true⟩) :
    (u.readDropped p).stale = some q ∧ u.readUnpins p = [] := by
  simp [Units.readDropped, Units.readUnpins, hw, hio]

theorem readDropped_unpinned (hw : workOf p u = some (.reading r)) (hio : (u.port p).io = ⟨some q, false⟩) :
    (u.readDropped p).stale = (u.port p).stale ∧ u.readUnpins p = [⟨.port p, .unpin r.loc.seg⟩] := by
  simp [Units.readDropped, Units.readUnpins, hw, hio]

theorem readDropped_ended (hw : workOf p u = some (.reading r)) (hio : (u.port p).io.want = none) :
    (u.readDropped p).stale = (u.port p).stale ∧ u.readUnpins p = [] := by
  simp [Units.readDropped, Units.readUnpins, hw, hio]

/-! ## The claims (log 14) -/

/-- An UNPIN of a port. -/
def ClaimMsg.unpinOf (p : Port) (m : ClaimMsg) : Bool :=
  m.src == .port p && (match m.body with | .unpin _ => true | _ => false)

theorem unpinOf_not_commandOf (m : ClaimMsg) (h : m.unpinOf p = true) : (!m.commandOf p) = true := by
  obtain ⟨src, body⟩ := m
  cases body <;> simp [ClaimMsg.unpinOf, ClaimMsg.commandOf] at h ⊢

theorem filter_unpinOf (l : List ClaimMsg) :
    (l.filter fun m => !m.commandOf p).filter (ClaimMsg.unpinOf p) = l.filter (ClaimMsg.unpinOf p) := by
  rw [List.filter_filter]
  refine List.filter_congr fun m _ => ?_
  cases h : m.unpinOf p with
  | false => rfl
  | true => exact (Bool.true_and _).trans (unpinOf_not_commandOf m h)

/-- No claim of the command that was dropped is left to be taken. -/
theorem workDropped_no_command {m : ClaimMsg} (hm : m ∈ (u.workDropped p).iu.claims) (hsrc : m.src = .port p ∨ m.src = .txn p) :
    match m.body with | .lookup _ _ _ | .range _ _ | .pin _ | .charge _ _ _ _ => False | _ => True := by
  rw [workDropped_claims] at hm
  have hkeep := (List.mem_filter.1 hm).2
  obtain ⟨src, body⟩ := m
  have hby : (src == Claimant.port p || src == Claimant.txn p) = true := by
    rcases hsrc with h | h <;> simp [show src = _ from h]
  cases body with
  | lookup a b c => simp only [ClaimMsg.commandOf, hby] at hkeep; exact Bool.noConfusion hkeep
  | range a b => simp only [ClaimMsg.commandOf, hby] at hkeep; exact Bool.noConfusion hkeep
  | pin a => simp only [ClaimMsg.commandOf, hby] at hkeep; exact Bool.noConfusion hkeep
  | charge a b c d => simp only [ClaimMsg.commandOf, hby] at hkeep; exact Bool.noConfusion hkeep
  | _ => trivial

end Read

end Sys2Proof.Machine
end


section
/-! SUPPORT. A PORT_RESET at a port with work left, at one without, with an idle Writer and during a drain (R58, R98, R179). -/

namespace Sys2Proof.Machine

section Rows
variable {p : Port} {s : State}

/-- The units as the frame of a PORT_RESET leaves the reset of the port's work. -/
def State.resetFrom (s : State) (p : Port) : Units := Units.workDropped (s.sentBack p (s.statusOut p)) p

/-- The port while what is left of its work drains. -/
def State.drainPort (s : State) (p : Port) : MasterPort := { s.resetPort p with state := .busy, draining := true }

/-- The port after its reset, at once where no work is left. -/
def State.portAfter (s : State) (p : Port) : MasterPort :=
  if workEnded p ((s.resetFrom p).resetDone p (s.drainPort p)) = true then { s.resetPort p with state := .ready, draining := false }
  else s.drainPort p

/-- The units after a PORT_RESET whose clean, if any, waits for the Writer. -/
def State.resetUnits (s : State) (p : Port) : Units := (s.resetFrom p).resetDone p (s.portAfter p)

theorem resetFrom_kept : ResetKeeps p (s.units.setPort p (Units.readDropped (s.sentBack p (s.statusOut p)) p)) (s.resetFrom p) := by
  have h : ResetKeeps p _ (s.resetFrom p) := workDropped_kept
  unfold State.sentBack at h
  rw [Units.setPort_setPort] at h
  exact h

theorem resetPort_fields : (s.resetPort p).params = (s.units.port p).params ∧ (s.resetPort p).buffer = (s.units.port p).buffer
    ∧ (s.resetPort p).handOver = (s.units.port p).handOver ∧ (s.resetPort p).frame = (s.units.port p).frame
    ∧ (s.resetPort p).stale = (Units.readDropped (s.sentBack p (s.statusOut p)) p).stale := by
  obtain ⟨hp, hb, -, hh, -, hf⟩ := readDropped_fields (p := p) (u := s.sentBack p (s.statusOut p))
  rw [sentBack_port] at hp hb hh hf
  exact ⟨hp, hb, hh, hf, rfl⟩

theorem portAfter_stale : (s.portAfter p).stale = (s.resetPort p).stale := by
  unfold State.portAfter
  split <;> rfl

theorem drainPort_settles (h : (s.units.port p).frame = none) :
    settle p ((s.resetFrom p).resetDone p (s.drainPort p)) = s.resetUnits p := by
  have hport := resetDone_port (d := s.resetFrom p) (p := p) (y := s.drainPort p)
  have hframe : (s.drainPort p).frame = none := resetPort_fields.2.2.2.1.trans h
  unfold settle State.resetUnits State.portAfter
  rw [hport, hframe]
  by_cases hw : workEnded p ((s.resetFrom p).resetDone p (s.drainPort p)) = true
  · rw [if_pos hw]
    exact (if_pos hw).trans (resetDone_modPort _)
  · rw [if_neg hw]
    exact if_neg hw

/-- The frame of a PORT_RESET, but for the work that it starts (R179). -/
theorem reset_row_other (h : Quiet p s) (hm : (s.units.port p).state ≠ .mounting) : exec (.portReset p) s = .next (s.withUnits
    (settle p (kick ((s.resetFrom p).resetDone p (s.drainPort p))))) := by
  have hport := sentBack_port s p (s.statusOut p)
  have hd : ((s.sentBack p (s.statusOut p)).port p).draining = false := by rw [hport]; exact h.steady
  have hn : ((s.sentBack p (s.statusOut p)).port p).state ≠ .mounting := by rw [hport]; exact hm
  have hhand : (s.drainPort p).handedOver = s.drainPort p := handedOver_steady (resetPort_fields.2.2.1.trans h.handed)
  rw [reset_row h.running h.noFrame h.noOutcome, takeReset_other hd hn, resetDone_modPort]
  refine congrArg (fun z => Host.Outcome.next (s.withUnits (settle p (kick ((s.resetFrom p).resetDone p z))))) ?_
  exact hhand

/-- A PORT_RESET that starts no job of the Writer. -/
theorem reset_row_steady (h : Quiet p s) (hm : (s.units.port p).state ≠ .mounting)
    (hw : s.units.rw.cur ≠ none ∨ (s.resetFrom p).rw.queue = s.units.rw.queue) :
    exec (.portReset p) s = .next (s.withUnits (s.resetUnits p)) := by
  have hcur : (s.resetFrom p).rw.cur = s.units.rw.cur := resetFrom_kept.cur
  have hk : kick ((s.resetFrom p).resetDone p (s.drainPort p)) = (s.resetFrom p).resetDone p (s.drainPort p) := by
    refine kick_idle _ ?_
    rw [resetDone_rw, hcur]
    rcases hw with hw | hw
    · exact .inl (Option.isSome_iff_ne_none.2 hw)
    · rw [hw]
      exact h.writer
  rw [reset_row_other h hm, hk, drainPort_settles h.noFrame]

/-! ## Without work left -/

theorem NoWork.waiting (h : NoWork p s) : waitingJob p s.units = none := by
  have hany : s.units.iu.spaceWait.any (fun w => w.port == p) = false := (Bool.or_eq_false_iff.1 h.jobs).2
  have hfind : s.units.iu.spaceWait.find? (fun w => w.port == p) = none := by
    rw [List.find?_eq_none]
    exact List.any_eq_false.1 hany
  exact congrArg (Option.map Waiting.job) hfind

/-- What a reset leaves where no work is left. -/
structure NothingDropped (p : Port) (s : State) (d : Units) : Prop where
  slots : ∀ q, d.slot q = s.units.slot q
  rw : d.rw = s.units.rw
  lists : d.iu.spaceWait = s.units.iu.spaceWait ∧ d.iu.charges = s.units.iu.charges

theorem NoWork.dropped (h : NoWork p s) : NothingDropped p s (s.resetFrom p) := by
  obtain ⟨hslot, hqueue⟩ := workDropped_none (u := s.sentBack p (s.statusOut p)) (p := p) h.slot.1
  obtain ⟨hl, hc⟩ := workDropped_unlisted (u := s.sentBack p (s.statusOut p)) (p := p) h.waiting
  have hk := resetFrom_kept (p := p) (s := s)
  have hself : Units.unstaged (s.sentBack p (s.statusOut p)) p = s.units.slot p := by
    unfold Units.unstaged
    split
    · exact (congrArg (fun z => { s.units.slot p with stage := z }) h.slot.2.symm : _)
    · rfl
  refine ⟨fun q => ?_, ?_, hl, hc⟩
  · by_cases hq : q = p
    · rw [hq]
      exact hslot.trans hself
    · exact hk.slots q hq
  · have heta : ∀ a b : RecordWriter, a.gen = b.gen → a.queue = b.queue → a.cur = b.cur → a.io = b.io → a = b := by
      rintro ⟨_, _, _, _⟩ ⟨_, _, _, _⟩ rfl rfl rfl rfl
      rfl
    exact heta _ _ hk.gen hqueue hk.cur hk.io

theorem NoWork.resetPort (h : NoWork p s) :
    s.resetPort p = MasterPort.cleared { s.units.port p with lastOut := s.statusOut p } := by
  have hread : ∀ r, workOf p (s.sentBack p (s.statusOut p)) ≠ some (.reading r) := by
    intro r
    unfold workOf
    rw [sentBack_inHand]
    exact h.reading r
  unfold State.resetPort
  rw [(readDropped_unread hread).1, sentBack_port]

/-- With nothing left to wait for, the port settles at once. -/
theorem NoWork.ended (h : NoWork p s) (y : MasterPort) (hy : y.stale = (s.units.port p).stale) :
    workEnded p ((s.resetFrom p).resetDone p y) = true := by
  have hd := h.dropped
  have hsession : ((s.resetFrom p).resetDone p y).pu.session.committingBy p = false := by
    rw [resetDone_pu]
    refine resetPolicy_uncommitted ?_
    have hpu : (resetNotices p (s.resetFrom p)).pu = s.units.pu := resetFrom_kept.policy
    rw [hpu]
    exact h.session
  have hjobs : hasRecordJob p ((s.resetFrom p).resetDone p y) = hasRecordJob p s.units := by
    unfold hasRecordJob
    rw [resetDone_rw, resetDone_iu, hd.rw, hd.lists.1]
  unfold workEnded
  rw [resetDone_port, hjobs, resetDone_slot, hd.slots p, hsession, hy, h.stale, h.jobs, h.slot.1]
  rfl

/-- The row of a PORT_RESET at a port with nothing left, and the port after it. -/
theorem NoWork.row (h : NoWork p s) (hq : Quiet p s) : ∃ y, exec (.portReset p) s = .next (s.withUnits
      ((s.resetFrom p).resetDone p y))
    ∧ y = { s.units.port p with
      state := if (s.units.port p).state = .mounting then .mounting else .ready,
      command := 0, results := Results.zero, inHand := none, outcome := none, doneCause := false, collision := false,
      enDone := true, enNotice := true, lastOut := s.statusOut p } := by
  have hport := h.resetPort
  have hdrain := hq.steady
  by_cases hm : (s.units.port p).state = .mounting
  · have hsent := sentBack_port s p (s.statusOut p)
    have hd : ((s.sentBack p (s.statusOut p)).port p).draining = false := by rw [hsent]; exact hdrain
    have hn : ((s.sentBack p (s.statusOut p)).port p).state = .mounting := by rw [hsent]; exact hm
    have hhand : (s.resetPort p).handedOver = s.resetPort p := handedOver_steady (resetPort_fields.2.2.1.trans hq.handed)
    have hsteady : ((s.resetFrom p).resetDone p (s.resetPort p)).port p = s.resetPort p := resetDone_port
    refine ⟨s.resetPort p, ?_, ?_⟩
    · rw [reset_row hq.running hq.noFrame hq.noOutcome, takeReset_mounting hd hn, resetDone_modPort]
      have hk : kick ((s.resetFrom p).resetDone p (s.resetPort p)) = (s.resetFrom p).resetDone p (s.resetPort p) := by
        refine kick_idle _ ?_
        rw [resetDone_rw, h.dropped.rw]
        exact hq.writer
      have hset : settle p ((s.resetFrom p).resetDone p (s.resetPort p)) = (s.resetFrom p).resetDone p (s.resetPort p) := by
        refine settle_steady p _ ?_
        rw [hsteady, hport]
        exact hdrain
      refine (congrArg (fun z => Host.Outcome.next (s.withUnits (settle p (kick ((s.resetFrom p).resetDone p z))))) hhand).trans ?_
      rw [hk, hset]
    · rw [hport, if_pos hm, ← hm]
      rfl
  · have hended := h.ended (s.drainPort p) (by
      show (s.resetPort p).stale = _
      rw [hport]
      rfl)
    refine ⟨s.portAfter p, reset_row_steady hq hm (.inr (congrArg RecordWriter.queue h.dropped.rw)), ?_⟩
    unfold State.portAfter
    rw [if_pos hended, hport, if_neg hm]
    exact congrArg (fun b => { MasterPort.cleared { s.units.port p with lastOut := s.statusOut p } with
      state := .ready, draining := b }) hdrain.symm

/-! ## With an idle Writer, and during a drain -/

/-- An idle Writer takes the clean of a transaction with members at once (R58, R69, R98). -/
theorem reset_row_cleaned {m : Member} {ms : List Member} (h : Quiet p s) (hm : (s.units.port p).state ≠ .mounting)
    (ho : (s.units.slot p).state = .opened) (hc : s.units.rw.cur = none) (hms : (s.units.slot p).members = m :: ms)
    (hch : chargeOut p s.units = false) (hw : waitingJob p s.units = none) :
    exec (.portReset p) s = .next (s.withUnits (((s.resetFrom p).resetDone p (s.drainPort p)).setRw
      { s.units.rw with
        queue := [], cur := some ⟨.abortClean p, .retiring (.aborted 0) m.loc 0 1, [m.loc]⟩,
        io := ⟨some ⟨.writer, m.loc.seg, .program m.loc.cell (0xEF :: List.replicate 15 0xFF)⟩, false⟩ }))
    ∧ (s.resetFrom p).slot p = (s.units.slot p).dropped := by
  obtain ⟨hslot, hqueue⟩ := workDropped_opened (u := s.sentBack p (s.statusOut p)) (p := p) ho
    (fun r (hr : waitingJob p s.units = some r) => by rw [hw] at hr; cases hr)
  have hkept : (s.resetFrom p).slot p = (s.units.slot p).dropped :=
    hslot.trans (congrArg Slot.dropped (unstaged_settled (u := s.sentBack p (s.statusOut p)) hch))
  have hk := resetFrom_kept (p := p) (s := s)
  refine ⟨?_, hkept⟩
  generalize hv : (s.resetFrom p).resetDone p (s.drainPort p) = v
  have hrw : v.rw = (s.resetFrom p).rw := by rw [← hv, resetDone_rw]
  have hvslot : v.slot p = (s.units.slot p).dropped := by rw [← hv, resetDone_slot, hkept]
  have hvq : v.rw.queue = [.abortClean p] := by
    rw [hrw]
    refine hqueue.trans ?_
    show s.units.rw.queue ++ _ = _
    rw [h.queue_nil hc]
    rfl
  have hvc : v.rw.cur = none := by
    rw [hrw]
    exact hk.cur.trans hc
  have hgen : v.rw.gen = s.units.rw.gen := by
    rw [hrw]
    exact hk.gen
  have hstart := startJob_clean_member (p := p) (u := v.setRw { v.rw with queue := [] }) (m := m) (ms := ms) (by
    show (v.slot p).members = _
    rw [hvslot]
    exact hms)
  rw [reset_row_other h hm, hv, kick_next hvc hvq, hstart, kick_busy (Option.some_ne_none _), settle_of_slot]
  · exact congrArg (fun g => Host.Outcome.next (s.withUnits (v.setRw { s.units.rw with
        gen := g, queue := [], cur := some ⟨.abortClean p, .retiring (.aborted 0) m.loc 0 1, [m.loc]⟩,
        io := ⟨some ⟨.writer, m.loc.seg, .program m.loc.cell (0xEF :: List.replicate 15 0xFF)⟩, false⟩ }))) hgen
  · show (v.slot p).state ≠ .none
    rw [hvslot]
    exact fun he => by cases he

/-- During a drain a PORT_RESET repeats the settings and the drain goes on (R179). -/
theorem reset_row_draining (hr : s.running = true) (hf : (s.units.port p).frame = none)
    (ho : (s.units.port p).outcome = none) (hh : (s.units.port p).handOver = false) (hw : s.writerSteady)
    (hd : (s.units.port p).draining = true) (he : workEnded p s.units = false) :
    exec (.portReset p) s = .next (s.withUnits (setDefaultView p (resetNotices p (s.units.setPort p
      (MasterPort.cleared { s.units.port p with lastOut := s.statusOut p }))))) := by
  have hport := sentBack_port s p (s.statusOut p)
  let y := MasterPort.cleared { s.units.port p with lastOut := s.statusOut p }
  have hsent : (s.sentBack p (s.statusOut p)).modPort p MasterPort.cleared = s.units.setPort p y := by
    rw [Units.modPort_eq, hport]
    exact Units.setPort_setPort _ _ _ _
  have htake : takeReset p (s.sentBack p (s.statusOut p)) = setDefaultView p (resetNotices p (s.units.setPort p y)) := by
    unfold takeReset
    rw [hport, hsent]
    exact if_pos hd
  generalize hv : setDefaultView p (resetNotices p (s.units.setPort p y)) = v
  have hy : v.port p = y := by
    rw [← hv]
    exact Units.port_setPort_self _ _ _
  have hhand : v.modPort p MasterPort.handedOver = v := by
    rw [Units.modPort_eq, hy, handedOver_steady (x := y) hh, ← hy, Units.setPort_port]
  have hk : kick v = v := kick_steady hw (by rw [← hv]; rfl)
  have hended : workEnded p v = false := by
    refine (workEnded_congr ((congrArg MasterPort.stale hy).trans rfl) ?_ ?_ ?_ ?_).trans he
    all_goals
      rw [← hv]
      rfl
  rw [reset_row hr hf ho, htake, hv, hhand, hk, settle, hended, Bool.and_false, if_neg Bool.false_ne_true]

end Rows

end Sys2Proof.Machine
end


section
/-! SUPPORT. PORT_RESET (R179): what it leaves of each part of the port's work. -/

namespace Sys2Proof.Machine

section Parts
variable {p : Port} {s : State}

/-- The settings of a port after its reset. -/
theorem portAfter_settings : (s.portAfter p).command = 0 ∧ (s.portAfter p).results = Results.zero ∧ (s.portAfter p).inHand = none
    ∧ (s.portAfter p).outcome = none ∧ (s.portAfter p).doneCause = false ∧ (s.portAfter p).collision = false
    ∧ (s.portAfter p).enDone = true ∧ (s.portAfter p).enNotice = true ∧ (s.portAfter p).params = (s.units.port p).params
    ∧ (s.portAfter p).buffer = (s.units.port p).buffer := by
  obtain ⟨hp, hb, -, -, -⟩ := resetPort_fields (p := p) (s := s)
  unfold State.portAfter
  split <;> exact ⟨rfl, rfl, rfl, rfl, rfl, rfl, rfl, rfl, hp, hb⟩

theorem resetUnits_port : (s.resetUnits p).port p = s.portAfter p := resetDone_port

/-- READY at once, or draining (R179). -/
theorem resetUnits_settled :
    let u := s.resetUnits p
    let y := u.port p
    let ended := y.stale = none ∧ hasRecordJob p u = false ∧ (u.slot p).state = .none
      ∧ ∀ staged w, u.pu.session ≠ .committing p staged w
    (ended → y.state = .ready ∧ y.draining = false) ∧ (¬ ended → y.state = .busy ∧ y.draining = true) := by
  dsimp only
  have hsame : workEnded p (s.resetUnits p) = workEnded p ((s.resetFrom p).resetDone p (s.drainPort p)) :=
    resetDone_workEnded (portAfter_stale.trans rfl)
  rw [← workEnded_iff, hsame, resetUnits_port]
  unfold State.portAfter
  refine ⟨fun h => ?_, fun h => ?_⟩
  · rw [if_pos h]
    exact ⟨rfl, rfl⟩
  · rw [if_neg h]
    exact ⟨rfl, rfl⟩

theorem resetUnits_stale : ((s.resetUnits p).port p).stale = (Units.readDropped (s.sentBack p (s.statusOut p)) p).stale :=
  (congrArg MasterPort.stale resetUnits_port).trans portAfter_stale

theorem resetUnits_unpins : (s.resetUnits p).iu.claims.filter (ClaimMsg.unpinOf p)
    = (s.units.iu.claims ++ Units.readUnpins (s.sentBack p (s.statusOut p)) p).filter (ClaimMsg.unpinOf p) := by
  have hc : (s.resetUnits p).iu.claims = _ :=
    (congrArg IndexUnit.claims resetDone_iu).trans workDropped_claims
  rw [hc]
  exact filter_unpinOf _

/-- The read path (R36, R48, R177, log 60). -/
theorem resetUnits_reading {c : InHand} {r : ReadWork} (hc : (s.units.port p).inHand = some c) (hr : c.work = .reading r) :
    let x := s.units.port p
    let u := s.resetUnits p
    let unpins (v : Units) := v.iu.claims.filter (ClaimMsg.unpinOf p)
    (∀ q, x.io = ⟨some q, true⟩ → (u.port p).stale = some q ∧ unpins u = unpins s.units)
    ∧ (∀ q, x.io = ⟨some q, false⟩ →
        (u.port p).stale = x.stale ∧ unpins u = unpins s.units ++ [⟨.port p, .unpin r.loc.seg⟩])
    ∧ (x.io.want = none → (u.port p).stale = x.stale ∧ unpins u = unpins s.units) := by
  have hport := sentBack_port s p (s.statusOut p)
  have hw : workOf p (s.sentBack p (s.statusOut p)) = some (.reading r) := by
    unfold workOf
    rw [sentBack_inHand, hc]
    exact congrArg some hr
  have hio : ((s.sentBack p (s.statusOut p)).port p).io = (s.units.port p).io := (congrArg MasterPort.io hport).trans rfl
  have hstale : ((s.sentBack p (s.statusOut p)).port p).stale = (s.units.port p).stale :=
    (congrArg MasterPort.stale hport).trans rfl
  dsimp only
  rw [resetUnits_stale, resetUnits_unpins]
  refine ⟨fun q hq => ?_, fun q hq => ?_, fun hq => ?_⟩
  · obtain ⟨h1, h2⟩ := readDropped_waited hw (hio.trans hq)
    rw [h1, h2, List.append_nil]
    exact ⟨rfl, rfl⟩
  · obtain ⟨h1, h2⟩ := readDropped_unpinned hw (hio.trans hq)
    rw [h1, h2, hstale, List.filter_append]
    refine ⟨rfl, congrArg (_ ++ ·) (List.filter_cons_of_pos ?_)⟩
    simp [ClaimMsg.unpinOf]
  · obtain ⟨h1, h2⟩ := readDropped_ended hw ((congrArg Io.want hio).trans hq)
    rw [h1, h2, hstale, List.append_nil]
    exact ⟨rfl, rfl⟩

theorem resetUnits_slot : (s.resetUnits p).slot p = (s.resetFrom p).slot p := resetDone_slot p

theorem resetUnits_rw : (s.resetUnits p).rw = (s.resetFrom p).rw := resetDone_rw

theorem resetUnits_iu : (s.resetUnits p).iu = (s.resetFrom p).iu := resetDone_iu

/-- An OPEN transaction is aborted, its clean sent (R85, R98). -/
theorem resetUnits_opened (ho : (s.units.slot p).state = .opened) :
    (s.resetUnits p).rw.queue = s.units.rw.queue ++ [.abortClean p]
    ∧ (s.resetUnits p).slot p = { (s.units.slot p).dropped with
      stage := if chargeOut p s.units = true ∨ (∃ r, waitingJob p s.units = some r ∧ r.role = .stage) then none
        else (s.units.slot p).stage } := by
  let u := s.sentBack p (s.statusOut p)
  rw [resetUnits_rw, resetUnits_slot]
  by_cases hw : ∃ r, waitingJob p s.units = some r ∧ r.role = .stage
  · obtain ⟨r, hj, hr⟩ := hw
    obtain ⟨h1, h2, -, -⟩ := workDropped_staging (u := u) ho hj hr
    rw [if_pos (.inr ⟨r, hj, hr⟩)]
    exact ⟨h2, h1⟩
  · obtain ⟨h1, h2⟩ := workDropped_opened (u := u) ho fun r hj hr => hw ⟨r, hj, hr⟩
    refine ⟨h2, h1.trans ?_⟩
    by_cases hc : chargeOut p s.units = true
    · rw [if_pos (.inl hc)]
      exact congrArg Slot.dropped (if_pos hc)
    · rw [if_neg (not_or.2 ⟨hc, hw⟩)]
      exact (congrArg Slot.dropped (unstaged_settled (u := u) (Bool.eq_false_iff.2 hc))).trans rfl

/-- A COMMIT is left to run, or is aborted where it waits for space (R98). -/
theorem resetUnits_committing (ho : (s.units.slot p).state = .committing) (hc : chargeOut p s.units = false) :
    (waitingJob p s.units = none → (s.resetUnits p).slot p = s.units.slot p ∧ (s.resetUnits p).rw.queue = s.units.rw.queue)
    ∧ (∀ r, waitingJob p s.units = some r → r.role = .commit → (s.resetUnits p).slot p = (s.units.slot p).dropped
      ∧ (s.resetUnits p).rw.queue = s.units.rw.queue ++ [.abortClean p]) := by
  let u := s.sentBack p (s.statusOut p)
  rw [resetUnits_rw, resetUnits_slot]
  have hslot : u.unstaged p = s.units.slot p := unstaged_settled (u := u) hc
  refine ⟨fun hw => ?_, fun r hw hr => ?_⟩
  · obtain ⟨h1, h2⟩ := workDropped_committed (u := u) ho hw
    exact ⟨h1.trans hslot, h2⟩
  · obtain ⟨h1, h2, -, -⟩ := workDropped_commit (u := u) ho hw hr
    exact ⟨h1.trans (congrArg Slot.dropped hslot), h2⟩

/-- An ABORTING slot goes on; a clean that waited for a CHARGE is sent (R85, R98). -/
theorem resetUnits_aborting (ho : (s.units.slot p).state = .aborting) :
    (chargeOut p s.units = false →
      (s.resetUnits p).slot p = (s.units.slot p).dropped ∧ (s.resetUnits p).rw.queue = s.units.rw.queue)
    ∧ (chargeOut p s.units = true → (s.resetUnits p).slot p = { (s.units.slot p).dropped with stage := none }
      ∧ (s.resetUnits p).rw.queue = s.units.rw.queue ++ [.abortClean p]) := by
  let u := s.sentBack p (s.statusOut p)
  rw [resetUnits_rw, resetUnits_slot]
  obtain ⟨h1, h2⟩ := workDropped_aborting (u := u) ho
  refine ⟨fun hc => ⟨?_, ?_⟩, fun hc => ⟨?_, ?_⟩⟩
  · exact h1.trans (congrArg Slot.dropped (unstaged_settled (u := u) hc))
  · refine h2.trans ?_
    rw [show chargeOut p u = false from hc, if_neg Bool.false_ne_true, List.append_nil]
    exact rfl
  · exact h1.trans (congrArg Slot.dropped (if_pos hc))
  · refine h2.trans ?_
    rw [if_pos (show chargeOut p u = true from hc)]
    exact rfl

/-- The space wait list and the charge record (R53, R98). -/
theorem resetUnits_lists :
    let sl := s.units.slot p
    let iu := s.units.iu
    let u := s.resetUnits p
    let rest := iu.spaceWait.filter (fun w => w.port != p)
    (waitingJob p s.units = none → u.iu.spaceWait = iu.spaceWait ∧ u.iu.charges = iu.charges)
    ∧ (∀ r, waitingJob p s.units = some r →
        (r.role = .single → u.iu.spaceWait = rest ∧ u.iu.charges = iu.charges.filter (fun e => e.staged || e.port != p))
        ∧ (∀ before e after, r.role = .stage → sl.state = .opened → iu.charges = before ++ e :: after →
            e.staged = true → e.port = p → e.key = r.key →
            (∀ g ∈ after, ¬ (g.staged = true ∧ g.port = p ∧ g.key = r.key)) →
            u.iu.spaceWait = rest ∧ u.iu.charges = before ++ after)
        ∧ (r.role = .commit → sl.state = .committing → u.iu.spaceWait = rest ∧ u.iu.charges = iu.charges)) := by
  dsimp only
  let v := s.sentBack p (s.statusOut p)
  rw [resetUnits_iu]
  refine ⟨fun hw => workDropped_unlisted (u := v) hw, fun r hw => ⟨fun hr => workDropped_single (u := v) hw hr, ?_, ?_⟩⟩
  · intro before e after hr ho hcs hst hp hk hafter
    obtain ⟨-, -, h1, h2⟩ := workDropped_staging (u := v) ho hw hr
    refine ⟨h1, h2.trans ?_⟩
    show IndexUnit.dropLast p r.key s.units.iu.charges = _
    rw [hcs, dropLast_split hst hp hk hafter]
  · intro hr ho
    obtain ⟨-, -, h1, h2⟩ := workDropped_commit (u := v) ho hw hr
    exact ⟨h1, h2⟩

theorem resetUnits_session : (s.resetUnits p).pu = (resetPolicy p (resetNotices p (s.resetFrom p))).pu := resetDone_pu

theorem resetFrom_pu : (resetNotices p (s.resetFrom p)).pu = s.units.pu := resetFrom_kept.policy

/-- The write sequence of the port (R155). -/
theorem resetUnits_sequence {staged : List Byte} {w : WriteSeq} (h : s.units.pu.session = .committing p staged w) :
    (∀ t, w.step = .valid t → t ≠ 1 ∨ s.units.pu.io.presented = true →
      (s.resetUnits p).pu.session = .committing p staged { w with noResult := true })
    ∧ ((∀ t, w.step ≠ .valid t) → s.units.pu.io.presented = true →
      (s.resetUnits p).pu.session = .committing p staged { w with stopping := true })
    ∧ ((∀ t, w.step ≠ .valid t) ∨ w.step = .valid 1 → s.units.pu.io.presented = false →
      (s.resetUnits p).pu.session = .none ∧ (s.resetUnits p).pu.io = ⟨none, false⟩) := by
  have hpu := resetFrom_pu (p := p) (s := s)
  have hs : (resetNotices p (s.resetFrom p)).pu.session = .committing p staged w := (congrArg PolicyUnit.session hpu).trans h
  have hio : (resetNotices p (s.resetFrom p)).pu.io.presented = s.units.pu.io.presented :=
    congrArg (fun x : PolicyUnit => x.io.presented) hpu
  rw [resetUnits_session]
  exact ⟨fun t hw ht => resetPolicy_valid hs hw (ht.imp_right hio.trans),
    fun hw hp => resetPolicy_stopping hs hw (hio.trans hp), fun hw hp => resetPolicy_dropped hs hw (hio.trans hp)⟩

theorem resetUnits_session_opened {staged : List Byte} (y : MasterPort) (h : s.units.pu.session = .opened p staged) :
    ((s.resetFrom p).resetDone p y).pu.session = .none := by
  rw [resetDone_pu]
  exact resetPolicy_opened ((congrArg PolicyUnit.session resetFrom_pu).trans h)

theorem resetUnits_session_other {q : Port} {staged : List Byte} {w : WriteSeq} (hq : q ≠ p)
    (h : s.units.pu.session = .opened q staged ∨ s.units.pu.session = .committing q staged w) :
    (s.resetUnits p).pu.session = s.units.pu.session := by
  have hpu := congrArg PolicyUnit.session (resetFrom_pu (p := p) (s := s))
  rw [resetUnits_session]
  refine (resetPolicy_other hq (staged := staged) ?_).trans hpu
  exact h.imp hpu.trans fun hc => ⟨w, hpu.trans hc⟩

/-! ## The other units, whatever the port is left as -/

section Done
variable (y : MasterPort)

theorem resetFrom_view : ((s.resetFrom p).resetDone p y).pu.views.get p = s.units.pu.shadow.viewFor p :=
  resetDone_view.trans (congrArg (fun x : PolicyUnit => x.shadow.viewFor p) resetFrom_kept.policy)

theorem resetFrom_owed : ((s.resetFrom p).resetDone p y).ce.owed = s.units.ce.owed.filter (· != p) := by
  have h : (s.resetFrom p).ce.owed = s.units.ce.owed := resetFrom_kept.owed
  rw [resetDone_eq]
  exact congrArg (List.filter (· != p)) h

theorem resetFrom_posts : ((s.resetFrom p).resetDone p y).nu.posts = s.units.nu.posts.filter (fun x => x.dest != .one p) :=
  resetDone_posts.trans (congrArg (fun x : NoticeUnit => x.posts.filter fun z => z.dest != .one p) resetFrom_kept.notices)

theorem resetFrom_others {q : Port} (hq : q ≠ p) : ((s.resetFrom p).resetDone p y).port q = s.units.port q
    ∧ ((s.resetFrom p).resetDone p y).slot q = s.units.slot q
    ∧ ((s.resetFrom p).resetDone p y).notices q = s.units.notices q
    ∧ ((s.resetFrom p).resetDone p y).pu.views.get q = s.units.pu.views.get q := by
  have hk := resetFrom_kept (p := p) (s := s)
  refine ⟨?_, (resetDone_slot q).trans (hk.slots q hq), ?_, ?_⟩
  · refine (resetDone_port_other hq).trans ((workDropped_port_other hq).trans ?_)
    exact Units.port_setPort_of_ne _ (Ne.symm hq) _
  · exact (resetDone_notices_other hq).trans (congrArg (fun x : NoticeUnit => x.ports.get q) hk.notices)
  · exact (resetDone_view_other hq).trans (congrArg (fun x : PolicyUnit => x.views.get q) hk.policy)

theorem resetFrom_tables : ((s.resetFrom p).resetDone p y).iu.entries = s.units.iu.entries
    ∧ ((s.resetFrom p).resetDone p y).iu.segs = s.units.iu.segs
    ∧ ((s.resetFrom p).resetDone p y).iu.commitSet = s.units.iu.commitSet
    ∧ ((s.resetFrom p).resetDone p y).me = s.units.me := by
  have hk := resetFrom_kept (p := p) (s := s)
  have hme : ((s.resetFrom p).resetDone p y).me = (s.resetFrom p).me := by rw [resetDone_eq]
  rw [resetDone_iu]
  exact ⟨hk.entries, hk.segs, hk.commits, hme.trans hk.mount⟩

end Done

end Parts

end Sys2Proof.Machine
end


section
/-! SUPPORT. PORT_RESET (R179), assembled. -/

namespace Sys2Proof.Machine

section Assembly
variable {p : Port} {s : State}

/-- The frame of a PORT_RESET with work left starts no job where the Writer has one, or where the slot gives it none. -/
theorem reset_row_left (h : Quiet p s) (hm : (s.units.port p).state ≠ .mounting)
    (hw : s.units.rw.cur ≠ none ∨ (s.units.slot p).state ∈ [SlotState.none, .waiting, .ended]
      ∨ ((s.units.slot p).state = .aborting ∧ chargeOut p s.units = false)
      ∨ ((s.units.slot p).state = .committing ∧ waitingJob p s.units = none ∧ chargeOut p s.units = false)) :
    exec (.portReset p) s = .next (s.withUnits (s.resetUnits p)) := by
  let u := s.sentBack p (s.statusOut p)
  refine reset_row_steady h hm ?_
  rcases hw with hc | hst | ⟨ha, hc⟩ | ⟨hco, hj, -⟩
  · exact .inl hc
  · simp only [List.mem_cons, List.not_mem_nil, or_false] at hst
    rcases hst with hst | hst | hst
    · exact .inr (workDropped_none (u := u) hst).2
    · exact .inr (workDropped_waiting (u := u) hst).2.1
    · exact .inr (workDropped_ended (u := u) hst).2
  · exact .inr ((congrArg RecordWriter.queue resetUnits_rw).symm.trans ((resetUnits_aborting ha).1 hc).2)
  · exact .inr (workDropped_committed (u := u) hco hj).2

theorem resetUnits_none (h : (s.units.slot p).state = .none) :
    ((s.resetUnits p).slot p).state = .none ∧ (s.resetUnits p).rw.queue = s.units.rw.queue := by
  obtain ⟨h1, h2⟩ := workDropped_none (u := s.sentBack p (s.statusOut p)) h
  rw [resetUnits_rw, resetUnits_slot]
  exact ⟨(congrArg Slot.state h1).trans (unstaged_state.trans h), h2⟩

theorem resetUnits_waiting (h : (s.units.slot p).state = .waiting) :
    (s.resetUnits p).slot p = Slot.start ∧ (s.resetUnits p).rw.queue = s.units.rw.queue
      ∧ ((s.units.slot p).part < s.units.tm.queues.length → claimQueue (s.units.slot p).part (s.resetUnits p)
        = (claimQueue (s.units.slot p).part s.units).filter (· != p)) := by
  have htm : (s.resetUnits p).tm = (s.resetFrom p).tm := by
    unfold State.resetUnits
    rw [resetDone_eq]
  rw [resetUnits_rw, resetUnits_slot, claimQueue, htm]
  exact workDropped_waiting (u := s.sentBack p (s.statusOut p)) h

theorem resetUnits_ended (h : (s.units.slot p).state = .ended) :
    (s.resetUnits p).slot p = Slot.start ∧ (s.resetUnits p).rw.queue = s.units.rw.queue := by
  rw [resetUnits_rw, resetUnits_slot]
  exact workDropped_ended (u := s.sentBack p (s.statusOut p)) h

end Assembly

/-- Settles O23: by what is left of the port's work, by the state of its slot, and by whether the port drains. -/
theorem portResetTakes : Obligations.PortResetTakes := by
  unfold Obligations.PortResetTakes
  refine ⟨fun p s hq hn => ?nothing, fun p s hq hm => ?work, fun p s m ms hq hm => ?clean,
    fun p s hr hf ho hh hw hd he => ?draining⟩
  case nothing =>
    obtain ⟨y, hrow, hy⟩ := hn.row hq
    have hd := hn.dropped
    obtain ⟨he, hs, -, hme⟩ := resetFrom_tables (p := p) (s := s) y
    refine ⟨_, hrow, resetDone_port.trans hy, resetDone_notices, resetFrom_view y,
      fun staged h => resetUnits_session_opened y h, resetFrom_owed y, fun q hne => ?_, fun q => ?_, ?_, hme, he, hs, ?_⟩
    · obtain ⟨h1, -, h3, h4⟩ := resetFrom_others (s := s) y hne
      exact ⟨h1, h3, h4⟩
    · exact (resetDone_slot q).trans (hd.slots q)
    · exact resetDone_rw.trans hd.rw
    · exact (congrArg IndexUnit.charges resetDone_iu).trans hd.lists.2
  case work =>
    intro x sl iu waits charging hw aborted clean unpins rest
    obtain ⟨h1, h2, h3, h4, h5, h6, h7, h8, h9, h10⟩ := portAfter_settings (p := p) (s := s)
    obtain ⟨he, hs, hcs, -⟩ := resetFrom_tables (p := p) (s := s) (s.portAfter p)
    obtain ⟨hfree, hlists⟩ := resetUnits_lists (p := p) (s := s)
    have hport : ((s.resetUnits p).port p) = s.portAfter p := resetUnits_port
    refine ⟨s.resetUnits p, reset_row_left hq hm hw, ?port, fun c r hc hr => resetUnits_reading hc hr, ?claims,
      resetFrom_kept.cur ▸ congrArg RecordWriter.cur resetUnits_rw, resetUnits_none, resetUnits_waiting, resetUnits_ended,
      resetUnits_opened, resetUnits_committing, resetUnits_aborting, hfree, hlists, he, hs, hcs, resetFrom_view _,
      fun staged h => resetUnits_session_opened _ h, fun q staged w hne h => resetUnits_session_other hne h,
      fun staged w h => resetUnits_sequence h, resetFrom_owed _, resetDone_notices, resetFrom_posts _,
      fun q hne => resetFrom_others _ hne⟩
    case port =>
      rw [hport]
      exact ⟨h1, h2, h3, h4, h5, h6, h7, h8, h9, h10, hport ▸ resetUnits_settled⟩
    case claims =>
      intro m hmem hsrc
      rw [resetUnits_iu] at hmem
      exact workDropped_no_command hmem hsrc
  case clean =>
    intro sl ho hc hms hst hch hw
    obtain ⟨hrow, hslot⟩ := reset_row_cleaned hq hm ho hc hms hch hw
    refine ⟨_, hrow, (resetDone_slot (y := s.drainPort p) p).trans hslot, ?_, ?_, rfl⟩
    · exact congrArg MasterPort.state resetDone_port
    · exact congrArg MasterPort.draining resetDone_port
  case draining =>
    refine ⟨_, reset_row_draining hr hf ho hh hw hd he, Units.port_setPort_self _ _ _, Four.get_set_self _ _ _,
      Four.get_set_self _ _ _, rfl, rfl, rfl, rfl, rfl⟩

end Sys2Proof.Machine
end


section
/-! SUPPORT. The decisions of mount's REPAIR (R128 to R133). -/

namespace Sys2Proof.Machine

section Decisions
variable {m : MountEngine} {x y : Candidate} {l : Location} {xs : List Candidate}

/-! ## What a candidate is (R128) -/

theorem version_iff : x.version = true ↔ x.kind ≠ .commit ∧ x.state = .live ∧ x.payload = true := by
  simp [Candidate.version, and_assoc]

theorem member_iff : x.member = true ↔ x.kind ≠ .commit ∧ x.state = .written ∧ x.txn ≠ 0 ∧ x.payload = true := by
  simp [Candidate.member, and_assoc]

theorem commit_iff : x.commit = true ↔ x.kind = .commit ∧ x.state = .live := by simp [Candidate.commit]

theorem incomplete_eq : x.incomplete = decide (x.kind ≠ .commit ∧ (x.state = .opened
    ∨ (x.state = .written ∧ x.txn = 0) ∨ ((x.state = .written ∨ x.state = .live) ∧ x.payload = false))) := by
  rw [Bool.eq_iff_iff, decide_eq_true_iff]
  simp [Candidate.incomplete, or_assoc]

theorem any_loc : xs.any (fun y => y.loc == l) = true ↔ ∃ y ∈ xs, y.loc = l := by simp

theorem any_promoted : (promotedMembers m).any (fun y => y.loc == l) = true ↔ ∃ y ∈ groupRecords m 2, y.loc = l := by
  rw [any_loc]
  refine exists_congr fun y => and_congr_left fun _ => ?_
  exact (mem_promotionOrder m y).symm

theorem mem_commits : x ∈ groupRecords m 6 ↔ x ∈ m.cands ∧ x.kind = .commit ∧ x.state = .live :=
  (commitOrder_spec m).1.mem_iff.trans (List.mem_filter.trans (and_congr_right' commit_iff))

/-- A member that a commit candidate decides (R129). -/
theorem mem_decidedMembers : x ∈ decidedMembers m ↔ x ∈ m.cands
    ∧ (x.kind ≠ .commit ∧ x.state = .written ∧ x.txn ≠ 0 ∧ x.payload = true)
    ∧ ∃ c ∈ m.cands, (c.kind = .commit ∧ c.state = .live) ∧ c.part = x.part ∧ c.txn = x.txn ∧ x.gen < c.gen := by
  unfold decidedMembers commitsOf
  rw [List.mem_filter, Bool.and_eq_true, member_iff, List.any_eq_true]
  refine and_congr_right' (and_congr_right' (exists_congr fun c => ?_))
  rw [List.mem_filter, commit_iff]
  simp [Candidate.decides, and_assoc]

/-- What decides the keys (R131, R132). -/
theorem mem_deciders : x ∈ deciders m ↔ x ∈ m.cands
    ∧ ((x.kind ≠ .commit ∧ x.state = .live ∧ x.payload = true)
      ∨ ((∃ y ∈ groupRecords m 2, y.loc = x.loc) ∧ x.loc ∉ m.givenUp)) := by
  unfold deciders
  rw [List.mem_filter, Bool.or_eq_true, Bool.and_eq_true, version_iff, any_promoted]
  simp

/-! ## The members promoted and the current versions (R129, R131) -/

/-- The members promoted: one for each transaction and key. -/
theorem promoted_spec : (∀ x ∈ groupRecords m 2, x ∈ decidedMembers m ∧ ∃ b ∈ decidedMembers m, b.loc = x.loc
      ∧ (b.part = x.part ∧ b.key = x.key) ∧ b.txn = x.txn
      ∧ ∀ y ∈ decidedMembers m, (y.part = x.part ∧ y.key = x.key) → y.txn = x.txn → ¬ b.below m y)
    ∧ (∀ x ∈ decidedMembers m, ∃ y ∈ groupRecords m 2, (y.part = x.part ∧ y.key = x.key) ∧ y.txn = x.txn)
    ∧ (∀ x ∈ groupRecords m 2, ∀ y ∈ groupRecords m 2, (x.part = y.part ∧ x.key = y.key) → x.txn = y.txn → x.loc = y.loc) := by
  have hsame : ∀ a b : Candidate, (a.part == b.part && a.txn == b.txn && a.key == b.key) = true
      ↔ (a.part = b.part ∧ a.key = b.key) ∧ a.txn = b.txn := fun a b => by
    simp only [Bool.and_eq_true, beq_iff_eq]
    tauto
  obtain ⟨h1, h2, h3⟩ := kept_spec m (fun a b => a.part == b.part && a.txn == b.txn && a.key == b.key) (decidedMembers m)
    (fun a => (hsame a a).2 ⟨⟨rfl, rfl⟩, rfl⟩)
    (fun a b h => by
      obtain ⟨⟨hp, hk⟩, ht⟩ := (hsame a b).1 h
      exact (hsame b a).2 ⟨⟨hp.symm, hk.symm⟩, ht.symm⟩)
    (fun a b c h h' => by
      obtain ⟨⟨hp, hk⟩, ht⟩ := (hsame a b).1 h
      obtain ⟨⟨hp', hk'⟩, ht'⟩ := (hsame b c).1 h'
      exact (hsame a c).2 ⟨⟨hp.trans hp', hk.trans hk'⟩, ht.trans ht'⟩)
  have hmem : ∀ x, x ∈ groupRecords m 2 ↔ x ∈ promotedMembers m := mem_promotionOrder m
  refine ⟨fun x hx => ?_, fun x hx => ?_, fun x hx y hy hk ht => ?_⟩
  · obtain ⟨hd, b, hb, hl, hs, hmax⟩ := h1 x ((hmem x).1 hx)
    obtain ⟨hk, ht⟩ := (hsame b x).1 hs
    exact ⟨hd, b, hb, hl, hk, ht, fun y hy hky hty => hmax y hy ((hsame y x).2 ⟨hky, hty⟩)⟩
  · obtain ⟨y, hy, hs⟩ := h2 x hx
    exact ⟨y, (hmem y).2 hy, (hsame y x).1 hs⟩
  · exact h3 x ((hmem x).1 hx) y ((hmem y).1 hy) ((hsame x y).2 ⟨hk, ht⟩)

theorem sameKey_iff : x.sameKey y = true ↔ x.part = y.part ∧ x.key = y.key := by simp [Candidate.sameKey]

/-- The current versions: one for each key. -/
theorem current_spec : (∀ x ∈ currentVersions m, x ∈ deciders m ∧ ∃ b ∈ deciders m, b.loc = x.loc
      ∧ (b.part = x.part ∧ b.key = x.key) ∧ ∀ y ∈ deciders m, (y.part = x.part ∧ y.key = x.key) → ¬ b.below m y)
    ∧ (∀ x ∈ deciders m, ∃ y ∈ currentVersions m, y.part = x.part ∧ y.key = x.key)
    ∧ (∀ x ∈ currentVersions m, ∀ y ∈ currentVersions m, (x.part = y.part ∧ x.key = y.key) → x.loc = y.loc) := by
  obtain ⟨h1, h2, h3⟩ := kept_spec m Candidate.sameKey (deciders m) (fun a => sameKey_iff.2 ⟨rfl, rfl⟩)
    (fun a b h => by
      obtain ⟨hp, hk⟩ := sameKey_iff.1 h
      exact sameKey_iff.2 ⟨hp.symm, hk.symm⟩)
    (fun a b c h h' => by
      obtain ⟨hp, hk⟩ := sameKey_iff.1 h
      obtain ⟨hp', hk'⟩ := sameKey_iff.1 h'
      exact sameKey_iff.2 ⟨hp.trans hp', hk.trans hk'⟩)
  refine ⟨fun x hx => ?_, fun x hx => ?_, fun x hx y hy h => h3 x hx y hy (sameKey_iff.2 h)⟩
  · obtain ⟨hd, b, hb, hl, hs, hmax⟩ := h1 x hx
    exact ⟨hd, b, hb, hl, sameKey_iff.1 hs, fun y hy hk => hmax y hy (sameKey_iff.2 hk)⟩
  · obtain ⟨y, hy, hs⟩ := h2 x hx
    exact ⟨y, hy, sameKey_iff.1 hs⟩

/-! ## What the groups program (R130 to R133) -/

theorem mem_losersOf : x ∈ losersOf m ↔ x ∈ deciders m ∧ ¬ ∃ y ∈ currentVersions m, y.loc = x.loc := by
  unfold losersOf
  rw [List.mem_filter, Bool.not_eq_true', ← Bool.not_eq_true, any_loc]

theorem mem_retired : x ∈ groupRecords m 3 ↔ x ∈ m.cands
    ∧ (((x.kind ≠ .commit ∧ x.state = .written ∧ x.txn ≠ 0 ∧ x.payload = true) ∧ ¬ ∃ y ∈ groupRecords m 2, y.loc = x.loc)
      ∨ x.loc ∈ m.givenUp) := by
  refine List.mem_filter.trans (and_congr_right' ?_)
  rw [Bool.or_eq_true, Bool.and_eq_true, member_iff, Bool.not_eq_true', ← Bool.not_eq_true, any_promoted]
  simp

theorem mem_buried : x ∈ groupRecords m 5 ↔ x ∈ currentVersions m ∧ x.kind = .tombstone
    ∧ ∀ y ∈ losersOf m, (y.part = x.part ∧ y.key = x.key) → y.loc ∉ m.short := by
  refine List.mem_filter.trans (and_congr_right' ?_)
  simp [Candidate.sameKey]

/-- The index takes the data versions of highest generation (R133). -/
theorem indexed_spec : (indexed m ++ overCapacity m).Perm ((currentVersions m).filter (fun x => x.kind == .data))
    ∧ (indexed m).length = min 1024 ((currentVersions m).countP (fun x => x.kind == .data))
    ∧ ∀ x ∈ indexed m, ∀ y ∈ overCapacity m, y.gen ≤ x.gen := by
  obtain ⟨hp, hs⟩ := currentData_spec m
  have hsplit : indexed m ++ overCapacity m = currentData m := List.take_append_drop _ _
  refine ⟨hsplit ▸ hp, ?_, fun x hx y hy => ?_⟩
  · have hl := hp.length_eq
    rw [← List.countP_eq_length_filter] at hl
    rw [← hl]
    exact List.length_take
  · rw [← hsplit, List.pairwise_append] at hs
    exact hs.2.2 x hx y hy

end Decisions

end Sys2Proof.Machine
end


section
/-! SUPPORT. The hand-over of mount (R54, R99, R126, R133 to R136, R170). -/

namespace Sys2Proof.Machine

section HandOver
variable {m : MountEngine} {u : Units} {ix : List Candidate} {seg : Nat}

theorem port_mapped (f : MasterPort → MasterPort) (p : Port) : (u.ports.map fun _ x => f x).get p = f (u.port p) := by
  cases p <;> rfl

theorem ready_state {x : MasterPort} : x.ready.state = if x.state ≠ .mounting then x.state
    else if x.frame ≠ none then .mounting else if x.doneCause = true then .done else .ready := by
  unfold MasterPort.ready
  by_cases hm : x.state = .mounting
  · rw [if_neg (not_not_intro hm), if_neg (not_not_intro hm)]
    by_cases hf : x.frame = none
    · rw [if_neg (not_not_intro hf), if_neg (by rw [hf]; exact Bool.false_ne_true)]
    · rw [if_pos hf, if_pos (Option.isSome_iff_ne_none.2 hf)]
      exact hm
  · rw [if_pos hm, if_pos hm]

/-! ## The segment table (R126, R134) -/

/-- The class of a segment after mount, its victim named (R126). -/
theorem finalClass_eq : finalClass m ix seg = if classOf seg m ≠ .reclaiming then classOf seg m
    else if (reclaimingSegs m).head? = some seg then .reclaiming
    else if ix.any (fun c => c.loc.seg == seg) = true then .full else .dirty := by
  unfold finalClass
  cases h : classOf seg m <;> rfl

theorem restoredIndex_seg (h2 : 2 ≤ seg) (h64 : seg < 64) : (restoredIndex m).seg seg = restoredSeg m (indexed m) seg := by
  have hlt : seg - 2 < 62 := by omega
  have hget : (dataSegs.map (restoredSeg m (indexed m)))[seg - 2]? = some (restoredSeg m (indexed m) seg) := by
    unfold dataSegs
    rw [List.getElem?_map, List.getElem?_map, List.getElem?_range hlt]
    simp only [Option.map_some]
    rw [show seg - 2 + Config.firstData = seg from Nat.sub_add_cancel h2]
  show ((dataSegs.map (restoredSeg m (indexed m))).getD (seg - 2) _) = _
  rw [List.getD_eq_getElem?_getD, hget]
  rfl

theorem restoredSeg_cases :
    let e := m.classes.find? (fun c => c.seg == seg)
    let count := (e.bind (·.count)).getD (m.maxErase.getD 0)
    let live := ((ix.filter (fun c => c.loc.seg == seg)).map (·.cells)).sum
    (finalClass m ix seg = .blank → restoredSeg m ix seg = ⟨.blank, m.maxErase.getD 0, none, 1, 0, 0, 0, false, true⟩)
    ∧ (finalClass m ix seg = .prepared → restoredSeg m ix seg = ⟨.prepared, count, none, 1, 0, 0, 0, false, true⟩)
    ∧ (∀ k, finalClass m ix seg = k → k = .full ∨ k = .reclaiming → restoredSeg m ix seg
        = ⟨k, count, e.bind (·.seq), 128, live, 127 - live, 0, false, false⟩)
    ∧ (∀ k, finalClass m ix seg = k → k = .dirty ∨ k = .bad →
        restoredSeg m ix seg = ⟨k, count, none, 128, 0, 127, 0, false, false⟩) := by
  dsimp only
  refine ⟨fun h => ?_, fun h => ?_, fun k h hk => ?_, fun k h hk => ?_⟩
  · simp only [restoredSeg, h]
  · simp only [restoredSeg, h]
    rfl
  · rcases hk with rfl | rfl
    all_goals
      simp only [restoredSeg, h]
      rfl
  · rcases hk with rfl | rfl
    all_goals
      simp only [restoredSeg, h]
      rfl

/-! ## The victim (R126) -/

theorem mem_of_reclaiming (h : classOf seg m = .reclaiming) : seg ∈ reclaimingSegs m := by
  refine ((reclaimingSegs_spec m).1 seg).2 ⟨?_, h⟩
  unfold classOf classEntry at h
  cases hf : m.classes.find? (fun c => c.seg == seg) with
  | none =>
    rw [hf] at h
    cases h
  | some c =>
    have hc := List.find?_some hf
    exact List.mem_map.2 ⟨c, List.mem_of_find?_eq_some hf, eq_of_beq hc⟩

theorem victim_some (h : (reclaimingSegs m).head? = some seg) :
    classOf seg m = .reclaiming ∧ ∀ g, classOf g m = .reclaiming → seqOf g m ≤ seqOf seg m := by
  obtain ⟨hmem, hs⟩ := reclaimingSegs_spec m
  obtain ⟨rest, hrest⟩ := List.head?_eq_some_iff.1 h
  refine ⟨((hmem seg).1 (hrest ▸ List.mem_cons_self)).2, fun g hg => ?_⟩
  have hin := mem_of_reclaiming hg
  rw [hrest] at hin hs
  rcases List.mem_cons.1 hin with rfl | hin
  · exact Nat.le_refl _
  · exact (List.pairwise_cons.1 hs).1 g hin

theorem victim_none (h : (reclaimingSegs m).head? = none) (g : Nat) : classOf g m ≠ .reclaiming := by
  intro hg
  have hin := mem_of_reclaiming hg
  rw [List.head?_eq_none_iff.1 h] at hin
  cases hin

theorem victim_source : ((if (reclaimingSegs m).head?.isSome then VictimSource.resumed else .selected) = .resumed)
    ↔ (reclaimingSegs m).head? ≠ none := by
  rw [← Option.isSome_iff_ne_none]
  cases (reclaimingSegs m).head?.isSome <;> simp

/-! ## The index (R133) -/

theorem restoredIndex_entries :
    (∀ e ∈ (restoredIndex m).entries, ∃ c ∈ indexed m, e = ⟨c.part, c.key, c.loc, c.length, c.gen, c.cells⟩)
    ∧ (∀ c ∈ indexed m, ∃ e ∈ (restoredIndex m).entries, e.part = c.part ∧ e.key = c.key)
    ∧ (restoredIndex m).entries.Pairwise (fun a b => a.part < b.part ∨ (a.part = b.part ∧ a.key < b.key)) := by
  obtain ⟨hsorted, hfrom, -, hall⟩ := foldl_insertEntry (indexed m) [] .nil
  refine ⟨fun e he => ?_, hall, hsorted.imp fun h => ?_⟩
  · rcases hfrom e he with hn | hc
    · cases hn
    · exact hc
  · simpa [IndexUnit.Entry.before] using h

theorem views_handed (sh : Shadow) (p : Port) :
    (⟨sh.viewFor .a, sh.viewFor .b, sh.viewFor .c, sh.viewFor .d⟩ : Four (Four (Option Nat))).get p = sh.viewFor p := by
  cases p <;> rfl

end HandOver

end Sys2Proof.Machine
end


section
/-! SUPPORT. What one completed request of mount leads to (R123 to R129, R132, R137). -/

namespace Sys2Proof.Machine

section Requests
variable {u v w : Units} {q : Request} {bytes : List Byte} {seg cell : Nat}

/-- The units with the Mount Engine's request completed. -/
def Units.mountTaken (u : Units) : Units := u.setMe { u.me with io := ⟨none, false⟩ }

section Delivery
variable (hq : q.who = .mount) (hio : u.me.io = ⟨some q, true⟩)
include hq hio

omit hq in
theorem mount_awaits : u.me.io.awaits q = true := by
  rw [hio]
  exact beq_self_eq_true _

theorem mount_read : readDelivered q bytes u = mountReadDone bytes u.mountTaken := by
  simp only [readDelivered, hq, mount_awaits hio, if_true]
  rfl

theorem mount_program (ok : Bool) : programDelivered q ok u = mountProgramDone ok u.mountTaken := by
  simp only [programDelivered, hq, mount_awaits hio, if_true]
  rfl

theorem mount_blank (ones : Bool) : blankDelivered q ones u = mountBlankDone ones u.mountTaken := by
  simp only [blankDelivered, hq, mount_awaits hio, if_true]
  rfl

end Delivery

/-! ## POLICY (R123, R124) -/

/-- A survey maximum with a value found. -/
def raisedTo (n : Nat) (m : Option Nat) : Option Nat := some (max n (m.getD 0))

theorem surveyed_eq (n : Nat) (m : Option Nat) : surveyed n m = raisedTo n m := by
  cases m with
  | none => exact congrArg some (Nat.max_zero n).symm
  | some k => exact congrArg some (Nat.max_comm k n)

/-- An image judged: kept when it is usable, its number counted when its check matches (R123). -/
def Units.judged (w : Units) (bytes : List Byte) (n : Nat) : Units := w.setMe { w.me with
  images := w.me.images ++ (match usableImage bytes with | some x => [(n, x)] | none => []),
  greatest := if crc (slice bytes 1 173) = field bytes 174 2 then max w.me.greatest (field bytes 1 4) else w.me.greatest }

theorem judgeImage_eq (n : Nat) : judgeImage n bytes w = w.judged bytes n := by
  have hg : (if imageCheckOk bytes = true then max w.me.greatest (field bytes 1 4) else w.me.greatest)
      = if crc (slice bytes 1 173) = field bytes 174 2 then max w.me.greatest (field bytes 1 4) else w.me.greatest :=
    if_congr beq_iff_eq rfl rfl
  unfold judgeImage modMe Units.judged
  dsimp only
  rw [hg]
  cases usableImage bytes with
  | none => rw [List.append_nil]
  | some x => rfl

/-- The policy handed over at the end of POLICY. -/
def Units.policyGiven (v : Units) (sh : Shadow) (src : PolicySource) (held : Option Nat) : Units :=
  (v.setPu { v.pu with shadow := sh, source := src, inForce := held }).setMe
    { v.me with source := src, phase := .headers }

theorem policyLoaded_none (h : v.me.images = []) : modMe (fun m => { m with phase := .headers }) (policyLoaded v)
    = v.policyGiven { Shadow.factory with seq := v.me.greatest } .defaulted none := by
  have hc : chooseImage v.me.images = none := by rw [h]; rfl
  simp only [policyLoaded, hc]
  rfl

theorem policyLoaded_some {n : Nat} {x : Shadow} (h : chooseImage v.me.images = some (n, x)) :
    modMe (fun m => { m with phase := .headers }) (policyLoaded v) = v.policyGiven x .loaded (some n) := by
  simp only [policyLoaded, h]
  rfl

/-- Both images are usable: the higher sequence number, segment 0 among equals (R123). -/
theorem chooseImage_two (x y : Shadow) : chooseImage [(0, x), (1, y)] = if y.seq ≤ x.seq then some (0, x) else some (1, y) := rfl

/-! ## HEADERS (R125, R127) -/

/-- A segment classified, with the values kept from its header (R125). -/
def Units.classed (w : Units) (seg : Nat) (k : SegState) (count sq : Option Nat) : Units := w.setMe { w.me with
  classes := w.me.classes ++ [⟨seg, k, count, sq⟩],
  maxErase := match count with | some n => raisedTo n w.me.maxErase | none => w.me.maxErase,
  maxSeq := match sq with | some n => raisedTo n w.me.maxSeq | none => w.me.maxSeq,
  dirty := w.me.dirty || decide (k = .dirty), badSegs := w.me.badSegs + (if k = .bad then 1 else 0) }

theorem classified_eq (k : SegState) : classified seg k bytes w = w.classed seg k (keptCount bytes) (keptSeq bytes) := by
  have hdirty : (k == SegState.dirty) = decide (k = .dirty) := by cases k <;> rfl
  have hbad : (if k = .bad then w.me.badSegs + 1 else w.me.badSegs) = w.me.badSegs + if k = .bad then 1 else 0 := by
    split <;> rfl
  unfold classified modMe Units.classed
  dsimp only
  rw [hdirty, hbad]
  cases keptCount bytes <;> cases keptSeq bytes <;> simp only [surveyed_eq]

theorem keptCount_eq : keptCount bytes = if crc (slice bytes 1 3) = field bytes 4 2 then some (field bytes 1 3) else none :=
  if_congr beq_iff_eq rfl rfl

theorem keptSeq_eq : keptSeq bytes = if crc (slice bytes 6 4) = field bytes 10 2 ∧ allErased (slice bytes 6 4) = false
    then some (field bytes 6 4) else none := by
  refine if_congr ?_ rfl rfl
  rw [Bool.and_eq_true, Bool.not_eq_true']
  exact and_congr_left' beq_iff_eq

/-- An all-ones header keeps no value: its checks do not match. -/
theorem kept_erased : keptCount (List.replicate 16 erasedByte) = none ∧ keptSeq (List.replicate 16 erasedByte) = none := by
  decide +kernel

/-! ## RECORDS (R128) -/

/-- The records of a segment contribute to the store. -/
def MountEngine.scanned (m : MountEngine) (seg : Nat) : Bool := decide (classOf seg m = .full ∨ classOf seg m = .reclaiming)

theorem contributes_eq (m : MountEngine) : contributes seg m = m.scanned seg := by
  unfold MountEngine.scanned
  rw [Bool.eq_iff_iff, decide_eq_true_iff]
  simp [contributes]

/-- A record in the candidate table, with what its treatment counts (R128). -/
def Units.listed (v : Units) (h : Header) (seg cell : Nat) (sound : Bool) : Units :=
  if v.me.scanned seg = false then v
  else
    let v' : Units := v.setMe { v.me with cands := v.me.cands ++ [⟨h.part, h.key, h.recordKind, h.taken, h.gen, h.txn,
      ⟨seg, cell⟩, h.length, 1 + (h.length + 15) / 16, sound⟩] }
    let out : Bool := decide (h.recordKind ≠ .commit ∧ (h.taken = .opened ∨ (h.taken = .written ∧ h.txn = 0)
      ∨ ((h.taken = .written ∨ h.taken = .live) ∧ sound = false)))
    let v' := if out then mountDiscard v' else v'
    if sound then v' else mountFault (some h.part) (some h.key) (some seg) none v'

theorem addCandidate_eq (h : Header) (sound : Bool) : addCandidate seg cell h sound v = v.listed h seg cell sound := by
  unfold addCandidate Units.listed
  rw [contributes_eq]
  cases hc : v.me.scanned seg with
  | false => rfl
  | true =>
    dsimp only
    rw [incomplete_eq]
    rfl

/-- The survey of a sound header (R128). -/
def Units.surveying (w : Units) (h : Header) : Units := w.setMe { w.me with
  maxGen := raisedTo h.gen w.me.maxGen, maxTxn := if h.txn = 0 then w.me.maxTxn else raisedTo h.txn w.me.maxTxn }

theorem surveyHeader_eq (h : Header) : surveyHeader h w = w.surveying h := by
  unfold surveyHeader modMe Units.surveying
  dsimp only
  rw [surveyed_eq, surveyed_eq]

theorem scanHeaderRead_blank (h : allErased bytes = true) : scanHeaderRead seg cell bytes w = nextScan w := if_pos h

theorem scanHeaderRead_unsound (h : allErased bytes = false) (hs : (readHeader bytes).sound cell = false) :
    scanHeaderRead seg cell bytes w = nextScan (if w.me.scanned seg = true then mountFault none none (some seg) (some cell) w
      else w) := by
  rw [← contributes_eq]
  refine (if_neg ?_).trans (if_pos ?_)
  · rw [h]
    exact Bool.false_ne_true
  · rw [hs]
    rfl

/-- The payload of a record is tested (R128). -/
def Header.tested (h : Header) (seg : Nat) (m : MountEngine) : Bool :=
  contributes seg m && h.recordKind == RecordKind.data && (h.taken == .written || h.taken == .live)

theorem tested_iff {h : Header} {m : MountEngine} : h.tested seg m = true
    ↔ m.scanned seg = true ∧ h.recordKind = .data ∧ (h.taken = .written ∨ h.taken = .live) := by
  rw [← contributes_eq]
  simp [Header.tested, and_assoc]

theorem scanHeaderRead_sound (h : allErased bytes = false) (hs : (readHeader bytes).sound cell = true) :
    scanHeaderRead seg cell bytes w = if (readHeader bytes).tested seg w.me = true then
        mountAsk (.scanBody seg cell) seg (.read cell (readHeader bytes).cells) (w.surveying (readHeader bytes))
      else scanOn seg (cell + (readHeader bytes).cells)
        ((w.surveying (readHeader bytes)).listed (readHeader bytes) seg cell true) := by
  refine (if_neg ?_).trans ((if_neg ?_).trans ?_)
  · rw [h]
    exact Bool.false_ne_true
  · rw [hs]
    exact Bool.false_ne_true
  · rw [surveyHeader_eq]
    exact if_congr Iff.rfl rfl (congrArg (scanOn seg _) (addCandidate_eq _ _))

theorem scanBodyRead_eq : scanBodyRead seg cell bytes w = scanOn seg (cell + (readHeader bytes).cells)
    (w.listed (readHeader bytes) seg cell
      (decide (crc (slice bytes 16 (readHeader bytes).length) = (readHeader bytes).payCheck))) := by
  have hp : payloadSound (readHeader bytes) bytes
      = decide (crc (slice bytes 16 (readHeader bytes).length) = (readHeader bytes).payCheck) := by
    rw [Bool.eq_iff_iff, decide_eq_true_iff]
    exact beq_iff_eq
  unfold scanBodyRead
  dsimp only
  rw [addCandidate_eq, hp]

/-! ## REPAIR (R129, R132, R137) -/

section Repair
variable {c : Candidate} {rest : List Candidate} {mark tries : Nat}

theorem repairDone_eq (h : v.me.progs = c :: rest) :
    repairDone v = repairNext (7 - v.me.group) (v.setMe { v.me with progs := rest }) := by
  have ht : v.me.progs.tail = rest := by rw [h]; rfl
  exact congrArg (fun ps => repairNext (7 - v.me.group) (v.setMe { v.me with progs := ps })) ht

section Programs
variable (hp : w.me.progs = c :: rest)
include hp

theorem repaired_rolled (hg : w.me.group = 2) : repaired true mark tries w
    = repairNext (7 - w.me.group) (w.setMe { w.me with rolled := min 65535 (w.me.rolled + 1), progs := rest }) := by
  have hv : (modMe (fun m => { m with rolled := saturate 65535 m.rolled }) w).me.progs = c :: rest := hp
  have hrow : repaired true mark tries w = repairDone (modMe (fun m => { m with rolled := saturate 65535 m.rolled }) w) := by
    simp only [repaired, hp, hg, if_true]
  exact hrow.trans (repairDone_eq hv)

theorem repaired_marked (hg : w.me.group ≠ 2) : repaired true mark tries w
    = if mark < 3 then mountAsk (.repair (mark + 1) 1) c.loc.seg
        (.program c.loc.cell (firstByteProgram (repairProgram w.me.group (mark + 1)))) w
      else repairNext (7 - w.me.group) (w.setMe { w.me with progs := rest }) := by
  simp only [repaired, hp, hg, if_true, if_false]
  exact if_congr Iff.rfl rfl (repairDone_eq hp)

theorem repaired_again (ht : tries < 3) : repaired false mark tries w
    = mountAsk (.repair mark (tries + 1)) c.loc.seg
        (.program c.loc.cell (firstByteProgram (repairProgram w.me.group mark))) w := by
  simp only [repaired, hp, ht, if_true, Bool.false_eq_true, if_false]

theorem repaired_givenUp {x : Units} (ht : 3 ≤ tries) (hg : w.me.group = 2) (hx : giveUp c w = x) :
    repaired false mark tries w = repairNext (7 - x.me.group) (x.setMe { x.me with progs := rest }) := by
  have hv : (giveUp c w).me.progs = c :: rest := hp
  have hrow : repaired false mark tries w = repairDone (giveUp c w) := by
    simp only [repaired, hp, Nat.not_lt.2 ht, hg, if_true, Bool.false_eq_true, if_false]
  exact hx ▸ hrow.trans (repairDone_eq hv)

/-- The units after a RETIRED program was left short (R81, R132). -/
def Units.leftShort (w : Units) (c : Candidate) : Units := w.setMe { w.me with
  short := w.me.short ++ (if w.me.group = 4 then [c.loc] else []),
  retained := w.me.retained ++ (if w.me.group = 3 ∨ w.me.group = 6 ∨ (w.me.group = 5
      ∧ c.kind ≠ .commit ∧ c.state = .written ∧ c.txn ≠ 0 ∧ c.payload = true)
    then [(c.txn, c.loc.seg)] else []) }

omit hp in
theorem retireShort_eq : retireShort c w = w.leftShort c := by
  have hs : (if w.me.group = 4 then w.me.short ++ [c.loc] else w.me.short)
      = w.me.short ++ if w.me.group = 4 then [c.loc] else [] := by
    split
    · rfl
    · exact (List.append_nil _).symm
  have hi : c.retains w.me.group = true ↔ (w.me.group = 3 ∨ w.me.group = 6 ∨ (w.me.group = 5
      ∧ c.kind ≠ .commit ∧ c.state = .written ∧ c.txn ≠ 0 ∧ c.payload = true)) := by
    rw [← member_iff]
    simp [Candidate.retains, or_assoc]
  have hr : (if c.retains w.me.group = true then w.me.retained ++ [(c.txn, c.loc.seg)] else w.me.retained)
      = w.me.retained ++ if w.me.group = 3 ∨ w.me.group = 6 ∨ (w.me.group = 5
        ∧ c.kind ≠ .commit ∧ c.state = .written ∧ c.txn ≠ 0 ∧ c.payload = true) then [(c.txn, c.loc.seg)] else [] := by
    by_cases h : c.retains w.me.group = true
    · rw [if_pos h, if_pos (hi.1 h)]
    · rw [if_neg h, if_neg fun h' => h (hi.2 h'), List.append_nil]
  unfold retireShort modMe Units.leftShort
  dsimp only
  rw [hs, hr]

theorem repaired_short (ht : 3 ≤ tries) (hg : w.me.group ≠ 2) : repaired false mark tries w
    = repairNext (7 - w.me.group) ((w.leftShort c).setMe { (w.leftShort c).me with progs := rest }) := by
  have hv : (w.leftShort c).me.progs = c :: rest := hp
  simp only [repaired, hp, Nat.not_lt.2 ht, hg, Bool.false_eq_true, if_false, retireShort_eq]
  exact repairDone_eq hv

end Programs

end Repair

end Requests

end Sys2Proof.Machine
end


section
/-! SUPPORT. Mount from segment to segment, from phase to phase and from group to group (R127 to R133). -/

namespace Sys2Proof.Machine

section Flow
variable {v : Units}

/-! ## Segments (R127, R128) -/

theorem nextClosing_seg {seg : Nat} {rest : List Nat} (h : v.me.todo = seg :: rest) :
    nextClosing v = mountAsk (.closing seg 1) seg (.program 0 (firstByteProgram (segPattern .full)))
      (v.setMe { v.me with todo := rest }) := by
  unfold nextClosing
  rw [h]
  rfl

theorem nextScan_seg {seg : Nat} {rest : List Nat} (h : v.me.todo = seg :: rest) :
    nextScan v = mountAsk (.scanHeader seg 1) seg (.read 1 1) (v.setMe { v.me with todo := rest }) := by
  unfold nextScan
  rw [h]
  rfl

theorem nextClosing_done (h : v.me.todo = []) :
    nextClosing v = nextScan (v.setMe { v.me with phase := .records, todo := scanOrder v.me }) := by
  unfold nextClosing
  rw [h]
  rfl

theorem nextScan_done (h : v.me.todo = []) :
    nextScan v = repairNext 7 (v.setMe { v.me with phase := .repair, group := 0, progs := [] }) := by
  unfold nextScan
  rw [h]
  rfl

/-- The segments scanned: the contributing ones by sequence number, then the DIRTY and BAD ones (R128, log 17). -/
theorem scanOrder_spec (m : MountEngine) : ∃ first, first.Perm ((m.classes.map (·.seg)).filter m.scanned)
    ∧ first.Pairwise (fun a b => seqOf a m ≤ seqOf b m)
    ∧ scanOrder m = first
      ++ (m.classes.map (·.seg)).filter (fun g => decide (classOf g m = .dirty ∨ classOf g m = .bad)) := by
  obtain ⟨hp, hs⟩ := foldl_insertBySeq m ((m.classes.map (·.seg)).filter fun g => contributes g m) [] .nil
  have hsame : ((m.classes.map (·.seg)).filter fun g => contributes g m) = (m.classes.map (·.seg)).filter m.scanned :=
    List.filter_congr fun g _ => contributes_eq m
  rw [List.append_nil] at hp
  refine ⟨_, hp.trans (.of_eq hsame), hs, congrArg₂ (· ++ ·) rfl (List.filter_congr fun g _ => ?_)⟩
  rw [Bool.eq_iff_iff, decide_eq_true_iff]
  simp

/-! ## Groups (R129 to R133) -/

theorem goes_program {c : Candidate} {rest : List Candidate} (hg : v.me.group < 7) (h : v.me.progs = c :: rest) :
    repairNext (7 - v.me.group) v = mountAsk (.repair 0 1) c.loc.seg
      (.program c.loc.cell (firstByteProgram (repairProgram v.me.group 0))) v := by
  obtain ⟨n, hn⟩ : ∃ n, 7 - v.me.group = n + 1 := ⟨6 - v.me.group, by omega⟩
  rw [hn, repairNext, h]

/-- A group without records left turns to the next one, what it decides counted before. -/
theorem goes_group (hg : v.me.group < 7) (h : v.me.progs = []) : repairNext (7 - v.me.group) v
    = repairNext (6 - v.me.group) (modMe (fun m => { m with
      group := v.me.group + 1, progs := groupRecords m (v.me.group + 1) }) (groupCounts (v.me.group + 1) v)) := by
  have hn : 7 - v.me.group = (6 - v.me.group) + 1 := by omega
  rw [hn, repairNext, h]

/-- The counts that a group's decision leaves (R129 to R133, log 18). -/
def Units.turned (v : Units) (count : Nat) (excess : List Candidate) : Units := v.setMe { v.me with
  group := v.me.group + 1, progs := groupRecords v.me (v.me.group + 1),
  discarded := if count = 0 then v.me.discarded else min 65535 (v.me.discarded + count),
  faults := if excess = [] then v.me.faults else min 65535 (v.me.faults + excess.length),
  posts := v.me.posts ++ excess.map fun c => ⟨some c.part, some c.key, some c.loc.seg, none⟩ }

/-- Counts added to those of mount, and the faults of the records that the index has no room for. -/
def Units.counted (v : Units) (count : Nat) (excess : List Candidate) : Units := v.setMe { v.me with
  discarded := if count = 0 then v.me.discarded else min 65535 (v.me.discarded + count),
  faults := if excess = [] then v.me.faults else min 65535 (v.me.faults + excess.length),
  posts := v.me.posts ++ excess.map fun c => ⟨some c.part, some c.key, some c.loc.seg, none⟩ }

theorem counted_none : v.counted 0 [] = v := by
  unfold Units.counted
  rw [List.map_nil, List.append_nil]
  rfl

/-- The records of the next group do not turn on what is counted. -/
theorem turned_counted (count : Nat) (excess : List Candidate) :
    modMe (fun m => { m with group := v.me.group + 1, progs := groupRecords m (v.me.group + 1) }) (v.counted count excess)
      = v.turned count excess := by
  have hr : groupRecords (v.counted count excess).me (v.me.group + 1) = groupRecords v.me (v.me.group + 1) :=
    groupRecords_congr (m := (v.counted count excess).me) (n := v.me) rfl rfl rfl rfl _
  unfold modMe Units.turned
  dsimp only
  rw [hr]
  rfl

theorem groupCounts_retired : groupCounts 3 v = v.counted (retiredMembers v.me).length [] := by
  refine (foldl_mountDiscard _ v).trans ?_
  unfold Units.counted
  rw [List.map_nil, List.append_nil]
  rfl

theorem retiredMembers_length : (retiredMembers v.me).length = v.me.cands.countP (fun c =>
    decide (c.kind ≠ .commit ∧ c.state = .written ∧ c.txn ≠ 0 ∧ c.payload = true)
      && !(groupRecords v.me 2).any (fun x => x.loc == c.loc)) := by
  refine List.countP_eq_length_filter.symm.trans (List.countP_congr fun c _ => ?_)
  have hp : (promotedMembers v.me).any (fun y => y.loc == c.loc) = (groupRecords v.me 2).any (fun x => x.loc == c.loc) :=
    Bool.eq_iff_iff.2 (any_promoted.trans any_loc.symm)
  rw [hp, Bool.and_eq_true, Bool.and_eq_true, member_iff, decide_eq_true_iff]

/-- The losers and the records over the capacity are counted together. -/
theorem groupCounts_losers : groupCounts 4 v = v.counted (groupRecords v.me 4).length (overCapacity v.me) := by
  have hl : (groupRecords v.me 4).length = (losersOf v.me).length + (overCapacity v.me).length := List.length_append
  have h1 := foldl_mountDiscard (losersOf v.me) v
  have hrow : groupCounts 4 v = (overCapacity v.me).foldl
      (fun u c => mountDiscard (mountFault (some c.part) (some c.key) (some c.loc.seg) none u))
      ((losersOf v.me).foldl (fun u _ => mountDiscard u) v) := rfl
  rw [hrow, h1, foldl_mountExcess, hl]
  unfold Units.counted
  simp only [Units.me_setMe, Units.setMe_setMe, List.length_eq_zero_iff]
  congr 2
  generalize losersOf v.me = xs
  generalize overCapacity v.me = ys
  cases xs with
  | nil =>
    cases ys with
    | nil => rfl
    | cons y ys => simp
  | cons x xs =>
    cases ys with
    | nil => simp
    | cons y ys =>
      simp only [reduceCtorEq, List.length_cons, if_false]
      omega

theorem groupCounts_other {g : Nat} (h3 : g ≠ 3) (h4 : g ≠ 4) : groupCounts g v = v := by
  unfold groupCounts
  split
  · exact absurd rfl h3
  · exact absurd rfl h4
  · rfl

/-- The units at the beginning of the next group. -/
def Units.regrouped (v : Units) : Units :=
  if v.me.group = 2 then v.turned (v.me.cands.countP (fun c =>
    decide (c.kind ≠ .commit ∧ c.state = .written ∧ c.txn ≠ 0 ∧ c.payload = true)
      && !(groupRecords v.me 2).any (fun x => x.loc == c.loc))) []
  else if v.me.group = 3 then v.turned (groupRecords v.me 4).length (overCapacity v.me)
  else v.turned 0 []

theorem regrouped_group : v.regrouped.me.group = v.me.group + 1 := by
  unfold Units.regrouped
  split
  · rfl
  · split <;> rfl

/-- From a group to the next (R132). -/
theorem goes_turned (h : v.me.progs = []) (hg : v.me.group < 6) :
    repairNext (7 - v.me.group) v = repairNext (7 - v.regrouped.me.group) v.regrouped := by
  have hfuel : 6 - v.me.group = 7 - (v.me.group + 1) := by omega
  rw [goes_group (by omega) h, hfuel, regrouped_group]
  refine congrArg (repairNext _) ?_
  unfold Units.regrouped
  by_cases h2 : v.me.group = 2
  · have hc : groupCounts (v.me.group + 1) v = v.counted (retiredMembers v.me).length [] := by
      rw [h2]
      exact groupCounts_retired
    rw [if_pos h2, hc, turned_counted, retiredMembers_length]
  · rw [if_neg h2]
    by_cases h3 : v.me.group = 3
    · have hc : groupCounts (v.me.group + 1) v = v.counted (groupRecords v.me 4).length (overCapacity v.me) := by
        rw [h3]
        exact groupCounts_losers
      rw [if_pos h3, hc, turned_counted]
    · have hc : groupCounts (v.me.group + 1) v = v.counted 0 [] :=
        (groupCounts_other (by omega) (by omega)).trans counted_none.symm
      rw [if_neg h3, hc, turned_counted]

/-- Behind the last group the tables are handed over (R132, R136). -/
theorem goes_handOver (h : v.me.progs = []) (hg : v.me.group = 6) : repairNext (7 - v.me.group) v
    = handOverTables (v.setMe { v.me with phase := .restore, group := 7 }) := by
  have hc : groupCounts (v.me.group + 1) v = v := groupCounts_other (by omega) (by omega)
  have hp : groupRecords v.me 7 = v.me.progs := h.symm
  rw [goes_group (by omega) h, hc, hg, Nat.sub_self, repairNext]
  refine congrArg handOverTables ?_
  exact congrArg (fun ps => v.setMe { v.me with phase := .restore, group := 7, progs := ps }) hp

end Flow

end Sys2Proof.Machine
end


section
/-! SUPPORT. Mount (R54, R99, R121 to R137, R170), assembled. -/

namespace Sys2Proof.Machine

section Steps
variable {u : Units} {q : Request} {bytes : List Byte} {seg cell : Nat}

section Read
variable (hq : q.who = .mount) (hio : u.me.io = ⟨some q, true⟩)
include hq hio

theorem mountStep_policy {n : Nat} (h : u.me.step = .policy n) : readDelivered q bytes u = policyRead n bytes u.mountTaken := by
  have hs : u.mountTaken.me.step = .policy n := h
  rw [mount_read hq hio, mountReadDone, hs]

theorem mountStep_header (h : u.me.step = .header seg) : readDelivered q bytes u = headerRead seg bytes u.mountTaken := by
  have hs : u.mountTaken.me.step = .header seg := h
  rw [mount_read hq hio, mountReadDone, hs]

theorem mountStep_scanHeader (h : u.me.step = .scanHeader seg cell) :
    readDelivered q bytes u = scanHeaderRead seg cell bytes u.mountTaken := by
  have hs : u.mountTaken.me.step = .scanHeader seg cell := h
  rw [mount_read hq hio, mountReadDone, hs]

theorem mountStep_scanBody (h : u.me.step = .scanBody seg cell) :
    readDelivered q bytes u = scanBodyRead seg cell bytes u.mountTaken := by
  have hs : u.mountTaken.me.step = .scanBody seg cell := h
  rw [mount_read hq hio, mountReadDone, hs]

theorem mountStep_blank (ones : Bool) (h : u.me.step = .blank seg) : blankDelivered q ones u
    = nextHeader seg (u.mountTaken.classed seg (if ones then .blank else .dirty) none none) := by
  have hs : u.mountTaken.me.step = .blank seg := h
  rw [mount_blank hq hio, mountBlankDone, hs]
  dsimp only
  rw [classified_eq, kept_erased.1, kept_erased.2]

theorem mountStep_closing {tries : Nat} (ok : Bool) (h : u.me.step = .closing seg tries) :
    programDelivered q ok u = mountClosed ok seg tries u.mountTaken := by
  have hs : u.mountTaken.me.step = .closing seg tries := h
  rw [mount_program hq hio, mountProgramDone, hs]

theorem mountStep_repair {mark tries : Nat} (ok : Bool) (h : u.me.step = .repair mark tries) :
    programDelivered q ok u = repaired ok mark tries u.mountTaken := by
  have hs : u.mountTaken.me.step = .repair mark tries := h
  rw [mount_program hq hio, mountProgramDone, hs]

end Read

variable {w : Units}

theorem headerRead_some {k : SegState} (h : classify bytes = some k) : headerRead seg bytes w
    = nextHeader seg (w.classed seg k (if crc (slice bytes 1 3) = field bytes 4 2 then some (field bytes 1 3) else none)
      (if crc (slice bytes 6 4) = field bytes 10 2 ∧ allErased (slice bytes 6 4) = false then some (field bytes 6 4)
        else none)) := by
  rw [headerRead, h]
  dsimp only
  rw [classified_eq, keptCount_eq, keptSeq_eq]

theorem headerRead_none (h : classify bytes = none) : headerRead seg bytes w = mountAsk (.blank seg) seg .blankCheck w := by
  rw [headerRead, h]

theorem mountClosed_again {tries : Nat} (h : tries < 3) : mountClosed false seg tries w
    = mountAsk (.closing seg (tries + 1)) seg (.program 0 (firstByteProgram (segPattern .full))) w := by
  unfold mountClosed
  rw [decide_eq_true h]
  rfl

theorem mountClosed_full {tries : Nat} {ok : Bool} (h : ok = true ∨ 3 ≤ tries) : mountClosed ok seg tries w
    = nextClosing (w.setMe { w.me with
      classes := w.me.classes.map fun c => if c.seg = seg then { c with cls := .full } else c }) := by
  refine if_neg ?_
  rcases h with h | h
  · rw [h]
    exact Bool.false_ne_true
  · rw [decide_eq_false (Nat.not_lt.2 h), Bool.and_false]
    exact Bool.false_ne_true

/-- The second policy segment: what is loaded (R123, R124). -/
theorem policyRead_last : ∃ v, policyRead 1 bytes w = mountAsk (.header 2) 2 (.read 0 1) v
    ∧ ((w.judged bytes 1).me.images = [] → v = (w.judged bytes 1).policyGiven
      { Shadow.factory with seq := (w.judged bytes 1).me.greatest } .defaulted none)
    ∧ (∀ n x, (w.judged bytes 1).me.images = [(n, x)] → v = (w.judged bytes 1).policyGiven x .loaded (some n))
    ∧ (∀ x y, (w.judged bytes 1).me.images = [(0, x), (1, y)] →
        v = if y.seq ≤ x.seq then (w.judged bytes 1).policyGiven x .loaded (some 0)
          else (w.judged bytes 1).policyGiven y .loaded (some 1)) := by
  have hrow : policyRead 1 bytes w = mountAsk (.header 2) 2 (.read 0 1)
      (modMe (fun m => { m with phase := .headers }) (policyLoaded (w.judged bytes 1))) := by
    rw [policyRead, judgeImage_eq]
    rfl
  refine ⟨_, hrow, policyLoaded_none, fun n x h => policyLoaded_some (by rw [h]; rfl), fun x y h => ?_⟩
  have hc : chooseImage (w.judged bytes 1).me.images = _ := (congrArg chooseImage h).trans (chooseImage_two x y)
  by_cases hle : y.seq ≤ x.seq
  · rw [if_pos hle] at hc
    rw [policyLoaded_some hc, if_pos hle]
  · rw [if_neg hle] at hc
    rw [policyLoaded_some hc, if_neg hle]

theorem policyRead_first : policyRead 0 bytes w = mountAsk (.policy 1) 1 (.read 0 11) (w.judged bytes 0) := by
  rw [policyRead, judgeImage_eq]
  rfl

end Steps

/-- The erase-pending list: the segments that mount leaves DIRTY (R126, R134). -/
theorem pendingErases_eq (m : MountEngine) : pendingErases m
    = ((List.range 62).map (· + 2)).filter (fun seg => decide (finalClass m (indexed m) seg = .dirty)) := by
  refine List.filter_congr fun g _ => ?_
  rw [Bool.eq_iff_iff, decide_eq_true_iff]
  exact beq_iff_eq

/-- Settles O59: request by request, phase by phase, by the decisions of R129 to R133, and by the tables handed over. -/
theorem mountHandsOver : Obligations.MountHandsOver := by
  unfold Obligations.MountHandsOver
  intro asks marks up cls sq scanned faulted dropped goes
  refine ⟨fun bytes u q hq hio => ?requests, fun v => ?flow, fun m => ?decisions, fun u => ?handOver⟩
  case requests =>
    intro w judged loaded classed following h surveyed behind listed
    refine ⟨fun hs => (mountStep_policy hq hio hs).trans policyRead_first, fun hs => ?_, fun seg k hs hc => ?_, fun seg hs hc => ?_,
      fun seg ones hs => mountStep_blank hq hio ones hs, fun seg tries ok hs => ⟨fun hok ht => ?_, fun ht => ?_⟩,
      fun seg cell hs => ⟨fun he => ?_, fun he hh => ?_, fun he hh => ⟨fun ht => ?_, fun ht => ?_⟩⟩,
      fun seg cell hs => (mountStep_scanBody hq hio hs).trans scanBodyRead_eq,
      fun mark tries c rest ok hs hp => ⟨fun hok hg => ?_, fun hok hg hm => ?_, fun hok hg hm => ?_, fun hok ht => ?_,
        fun hok ht hg => ?_, fun hok ht hg => ?_⟩⟩
    · rw [mountStep_policy hq hio hs]
      exact policyRead_last
    · exact (mountStep_header hq hio hs).trans (headerRead_some hc)
    · exact (mountStep_header hq hio hs).trans (headerRead_none hc)
    · rw [hok]
      exact (mountStep_closing hq hio false hs).trans (mountClosed_again ht)
    · exact (mountStep_closing hq hio ok hs).trans (mountClosed_full ht)
    · exact (mountStep_scanHeader hq hio hs).trans (scanHeaderRead_blank he)
    · exact (mountStep_scanHeader hq hio hs).trans (scanHeaderRead_unsound he hh)
    · exact (mountStep_scanHeader hq hio hs).trans ((scanHeaderRead_sound he hh).trans (if_pos (tested_iff.2 ht)))
    · exact (mountStep_scanHeader hq hio hs).trans ((scanHeaderRead_sound he hh).trans (if_neg fun h' => ht (tested_iff.1 h')))
    · rw [hok]
      exact (mountStep_repair hq hio true hs).trans (repaired_rolled (w := u.mountTaken) hp hg)
    · rw [hok]
      exact (mountStep_repair hq hio true hs).trans ((repaired_marked (w := u.mountTaken) hp hg).trans (if_pos hm))
    · rw [hok]
      exact (mountStep_repair hq hio true hs).trans ((repaired_marked (w := u.mountTaken) hp hg).trans (if_neg (Nat.not_lt.2 hm)))
    · rw [hok]
      exact (mountStep_repair hq hio false hs).trans (repaired_again (w := u.mountTaken) hp ht)
    · rw [hok]
      let x : Units := dropped (faulted (some c.part) (some c.key) (some c.loc.seg) none
        (w.setMe { w.me with givenUp := w.me.givenUp ++ [c.loc] }))
      have hx : giveUp c u.mountTaken = x := rfl
      exact (mountStep_repair hq hio false hs).trans (repaired_givenUp (w := u.mountTaken) (x := x) hp ht hg hx)
    · rw [hok]
      exact (mountStep_repair hq hio false hs).trans (repaired_short (w := u.mountTaken) hp ht hg)
  case flow =>
    refine ⟨fun seg rest h => ⟨nextClosing_seg h, nextScan_seg h⟩, fun h => ⟨?_, nextScan_done h⟩,
      fun c rest hg h => goes_program hg h, fun h hg => ?turns, fun h hg => goes_handOver h hg⟩
    case turns =>
      exact (goes_turned h hg).trans (congrArg (fun z : Units => repairNext (7 - z.me.group) z) (a₁ := v.regrouped) rfl)
    obtain ⟨first, hp, hs, ho⟩ := scanOrder_spec v.me
    refine ⟨first, hp, hs, ?_⟩
    exact (nextClosing_done h).trans (congrArg (fun l => nextScan (v.setMe { v.me with phase := .records, todo := l })) ho)
  case decisions =>
    obtain ⟨hp1, hp2, hp3⟩ := promoted_spec (m := m)
    obtain ⟨hc1, hc2, hc3⟩ := current_spec (m := m)
    refine ⟨List.filter_congr fun _ _ => incomplete_eq, ⟨fun x => mem_commits, (commitOrder_spec m).2⟩, fun x hx => ?_,
      fun x hx => hp2 x (mem_decidedMembers.2 hx), hp3, promotionOrder_sorted _ _ (commitOrder_spec m).2,
      ⟨List.filter_sublist, fun x => mem_retired⟩, fun x hx => ?_, fun x hx => hc2 x (mem_deciders.2 hx), hc3, indexed_spec,
      fun x => ?_, fun x => ?_⟩
    · obtain ⟨hd, b, hb, hl, hk, ht, hmax⟩ := hp1 x hx
      exact ⟨mem_decidedMembers.1 hd, b, mem_decidedMembers.1 hb, hl, hk, ht,
        fun y hy hky hty => hmax y (mem_decidedMembers.2 hy) hky hty⟩
    · obtain ⟨hd, b, hb, hl, hk, hmax⟩ := hc1 x hx
      exact ⟨mem_deciders.1 hd, b, mem_deciders.1 hb, hl, hk, fun y hy hky => hmax y (mem_deciders.2 hy) hky⟩
    · refine List.mem_append.trans (or_congr_left ?_)
      exact mem_losersOf.trans (and_congr_left' mem_deciders)
    · refine mem_buried.trans (and_congr_right' (and_congr_right' (forall_congr' fun y => ?_)))
      exact imp_congr_left (mem_losersOf.trans (and_congr_left' mem_deciders))
  case handOver =>
    rw [handOverTables_eq]
    intro v m kept count place live
    obtain ⟨he1, he2, he3⟩ := restoredIndex_entries (m := m)
    have hplace : ∀ seg, place seg = finalClass m kept seg := fun _ => finalClass_eq.symm
    refine ⟨rfl, fun p => ?ports, rfl, rfl, rfl, rfl, rfl, rfl, rfl, rfl, rfl, rfl, he1, he2, he3, ?length, fun seg h2 h64 => ?segs,
      rfl, fun p => views_handed _ p, fun p => ?slots, rfl, rfl, rfl, rfl, rfl, rfl, rfl, rfl, ?pending,
      fun seg h => victim_some h, fun h => victim_none h, victim_source, rfl, rfl, ?posts⟩
    case ports => exact (congrArg MasterPort.state (port_mapped _ p)).trans ready_state
    case length => rfl
    case segs =>
      have hseg : v.iu.seg seg = restoredSeg m kept seg := restoredIndex_seg h2 h64
      rw [hseg, hplace]
      exact restoredSeg_cases
    case slots => cases p <;> rfl
    case pending =>
      refine (pendingErases_eq m).trans (List.filter_congr fun g _ => ?_)
      rw [hplace]
    case posts =>
      exact (List.append_assoc _ _ _).symm.trans (congrArg (· ++ _) (List.append_assoc _ _ _).symm)

end Sys2Proof.Machine
end
